-- ==== Sys2Proof/Word.lean ====
section
/-! DEFINITION. The word types of the Epusk architecture (spec/00 R3) and the plainest facts of its size. -/
namespace Sys2Proof

/-- One byte of memory. -/
abbrev Byte := BitVec 8
/-- One 32-bit lane value (02 Table 2.6). -/
abbrev Word := BitVec 32
/-- One 64-bit value: a uniform register, a latch, a register pair, an address. -/
abbrev DWord := BitVec 64

/-- Lanes of a group (01 R17). -/
abbrev lanes : Nat := 32

/-- Bits [31:0] of a 64-bit value: the even register of a pair (00 R3). -/
def lo32 (x : DWord) : Word := x.setWidth 32

/-- Bits [63:32] of a 64-bit value: the odd register of a pair (00 R3). -/
def hi32 (x : DWord) : Word := (x >>> 32).setWidth 32

/-- The 64-bit value of a register pair (00 R3). -/
def pair (hi lo : Word) : DWord := hi ++ lo

end Sys2Proof
end

