-- ==== Sys2Proof/Syntax.lean ====
section
/-! DEFINITION. The syntax: operands, variants, and the ONE inductive `Instr`, one constructor for each row of
spec/opcode_table.json: the instructions of 02 Tables 2.12 to 2.21 and the steps of the device (95). -/
namespace Sys2Proof

/-- IT, the integer types of 02 Table 2.11: i signed, n unsigned. -/
inductive IntTy where
  | i32 | n32 | i64 | n64
  deriving DecidableEq, Repr

/-- The width of a b32 or b64 form. -/
inductive Wd where
  | w32 | w64
  deriving DecidableEq, Repr

/-- FT, the float types of 02 Table 2.11. -/
inductive FltTy where
  | f32 | f16x2 | bf16x2
  deriving DecidableEq, Repr

/-- FC, the conversion formats of 02 Table 2.11. -/
inductive CvtFmt where
  | f32 | f16 | bf16
  deriving DecidableEq, Repr

/-- GT, the group types of 02 Table 2.11. -/
inductive GrpTy where
  | f32 | i32 | n32
  deriving DecidableEq, Repr

/-- LT, the load types of 02 Table 2.11. -/
inductive LdTy where
  | n8 | i8 | n16 | i16 | b32 | b64
  deriving DecidableEq, Repr

/-- ST, the store types of 02 Table 2.11. -/
inductive StTy where
  | b8 | b16 | b32 | b64
  deriving DecidableEq, Repr

/-- RM, the rounding modes of 02 Table 2.10. -/
inductive RM where
  | rne | rna | rtz | rup | rdn
  deriving DecidableEq, Repr

/-- A source by kind (02 Table 2.4): vector register with its last-read bit, latch, uniform register, stream. -/
inductive Src where
  | v (n : BitVec 11) (last : Bool)
  | b (n : BitVec 2)
  | k (n : BitVec 6)
  | sd (n : BitVec 4)
  deriving DecidableEq, Repr

/-- Source B where the 96i form may replace it by IMM32 (02 R43). -/
inductive OpB where
  | src (s : Src)
  | imm (w : Word)
  deriving DecidableEq, Repr

/-- A uniform source that the 96i form may replace by IMM32. -/
inductive OpK where
  | k (n : BitVec 6)
  | imm (w : Word)
  deriving DecidableEq, Repr

/-- A destination of class V or V2 (02 R52): a register and a latch, or a latch alone (WB = 1). -/
inductive Dst where
  | reg (n : BitVec 11) (latch : BitVec 2)
  | latch (latch : BitVec 2)
  deriving DecidableEq, Repr

/-- The conditions of `brc` (04 Table 4.6). -/
inductive BrCond where
  | eq | ne | lt | ge | ltn | gen | z | nz
  deriving DecidableEq, Repr

/-- The descriptor of `brx` (04 Table 4.4). -/
structure BrxDesc where
  joff : BitVec 24
  n    : BitVec 8
  toff : BitVec 32
  deriving DecidableEq, Repr

/-- The predicates of `cmp` (05 R161). -/
inductive CmpPred where
  | eq | ne | lt | le | gt | ge
  deriving DecidableEq, Repr

/-- The three aperture windows (01 R26). -/
inductive Window where
  | lane | shared | cluster
  deriving DecidableEq, Repr

/-- The address spaces that `ats` tests (05 R168). -/
inductive Space where
  | global | lane | shared | cluster
  deriving DecidableEq, Repr

/-- The items of `sreg` (05 Table 5.4). -/
inductive SregItem where
  | lane | group | stage | x | y | z | row | col | slot | block | ngroups | nlanes
  deriving DecidableEq, Repr

/-- The destination of `rquery`, and the IMM32 of its 96i form (02 Table 2.13), which feeds nothing. -/
structure QueryDst where
  dst : Dst
  imm : Option Word := none
  deriving DecidableEq, Repr

/-- The immediate of `kli` (05 R164): IMM32 with its extension select, or IMM64. -/
inductive KliImm where
  | imm32 (xs : Bool) (w : Word)
  | imm64 (w : DWord)
  deriving DecidableEq, Repr

/-- The predicates of `fcmp` (06 Table 6.9). -/
inductive FcmpPred where
  | eq | ne | lt | le | gt | ge | un | ord | tlt | tle | teq
  deriving DecidableEq, Repr

/-- The operations of `gred` (06 R204). -/
inductive GredOp where
  | add | min | max | argmin | argmax
  deriving DecidableEq, Repr

/-- The operations of `gscan` (06 R205). -/
inductive GscanOp where
  | add | addx | min | max
  deriving DecidableEq, Repr

/-- The modes of `gshuf` (06 R206). -/
inductive GshufMode where
  | idx | up | down | xor
  deriving DecidableEq, Repr

/-- ESZ, the element kinds of a stream (07 Table 7.8). -/
inductive Esz where
  | b32 | n16 | i16 | n8 | i8 | b64
  deriving DecidableEq, Repr

/-- The items of `sdget` (07 R239). -/
inductive SdItem where
  | base | stride (n : Fin 5) | extent (n : Fin 5) | pos
  deriving DecidableEq, Repr

/-- The forms of `mmq` and `mtile` (08 Table 8.2); in the integer form, the signedness of A and of B. -/
inductive MmForm where
  | bf16 | b8 | int (aSigned bSigned : Bool)
  deriving DecidableEq, Repr

/-- The descriptor of `mtile` (08 Table 8.7). -/
structure MtDesc where
  kb   : BitVec 8
  nbm  : BitVec 4
  tile : BitVec 4
  psl  : BitVec 3
  nstr : BitVec 32
  deriving DecidableEq, Repr

/-- The outputs of `mdrain` (08 Table 8.9). -/
inductive DrainOut where
  | f32 | bf16 | i8 | n8 | i32
  deriving DecidableEq, Repr

/-- The row descriptor of `xcopy` and `xred` (10 Table 10.13). -/
structure RowDesc where
  rows   : BitVec 16
  rbytes : BitVec 16
  gpitch : BitVec 32
  deriving DecidableEq, Repr

/-- The index descriptor of `xgather` and `xscatter` (10 Table 10.14). -/
structure IdxDesc where
  n     : BitVec 16
  rowb  : BitVec 16
  pitch : BitVec 32
  deriving DecidableEq, Repr

/-- The operations of `xred` (10 R302). -/
inductive RedOp where
  | add | min | max
  deriving DecidableEq, Repr

/-- The element types of `xred` (10 R302). -/
inductive RedTy where
  | f32 | i32
  deriving DecidableEq, Repr

/-- The operations of `atom` (12 R352). -/
inductive AtomOp where
  | add | min | max | and | or | xor | exch | cas
  deriving DecidableEq, Repr

/-- The operations of `red` (12 R352). -/
inductive ScrRedOp where
  | add | min | max | and | or | xor
  deriving DecidableEq, Repr

/-- The targets of `bind` (12 Table 12.1). -/
inductive BindTgt where
  | obj (n : BitVec 16)
  | bar (d : BitVec 16)
  | snd (n : BitVec 16)
  | none
  deriving DecidableEq, Repr

/-- The scopes of `fence` (12 Table 12.4). -/
inductive Scope where
  | group | ctb | reach | device | pod
  deriving DecidableEq, Repr

/-- The items of `tinfo` (15 R425). -/
inductive TinfoItem where
  | cause | pc | addr | lane
  deriving DecidableEq, Repr

/-- The item word of `hread` and `hwrite` (15 R427). -/
structure HItem where
  index : BitVec 16
  item  : BitVec 8
  group : BitVec 5
  deriving DecidableEq, Repr

/-- The control word of `bcn.arm` (15 R430). -/
structure BcnWord where
  count  : BitVec 16
  action : BitVec 2
  cmp    : BitVec 3
  kind   : BitVec 2
  n      : BitVec 4
  deriving DecidableEq, Repr

/-- The operations of the host's DEBUG command (18 Table 18.1). -/
inductive DebugOp where
  | hread | hwrite | hstepLane | hstepCursor | hgo
  deriving DecidableEq, Repr

/-- The end statuses of a CTB (03 R104). -/
inductive CtbEnd where
  | ok | faulted | killed | restoreLost | debugRevoked
  deriving DecidableEq, Repr

/-- The instructions of the Epusk set and the steps of the device: one constructor for each row of
spec/opcode_table.json, in the table's order but for those without operands at the end. -/
inductive Instr where
  -- control and mask (04)
  | nop
  | br (off : Word)
  | brc (cc : BrCond) (a b : BitVec 6) (off : Word)
  | loop (d a : BitVec 6) (off : Word)
  | call (d : BitVec 6) (off : Word)
  | callK (d a : BitVec 6)
  | ret (a : BitVec 6)
  | brxK (a : BitVec 6) (t : BrxDesc)
  | brxV (a : BitVec 11) (last : Bool) (t : BrxDesc)
  | tableStep
  | mif (neg : Bool) (a : BitVec 4)
  | melse
  | mend
  | mset (a : BitVec 4)
  | msetAll
  | mrest (a : BitVec 4)
  | msave (d : BitVec 4)
  | mand (d a b : BitVec 4)
  | mor (d a b : BitVec 4)
  | mxor (d a b : BitVec 4)
  | mandn (d a b : BitVec 4)
  | mnot (d a : BitVec 4)
  | mmov (d a : BitVec 4)
  | mcnt (d : Dst) (a : BitVec 4)
  | mfirst (d : Dst) (a : BitVec 4)
  | passE (d : Dst) (a : BitVec 11) (last : Bool)
  | passS (d : Dst) (a : BitVec 11) (last : Bool)
  | endG
  -- integer, address and uniform (05)
  | add (ty : IntTy) (sat : Bool) (d : Dst) (a : Src) (b : OpB)
  | sub (ty : IntTy) (sat : Bool) (d : Dst) (a : Src) (b : OpB)
  | mul (ty : IntTy) (d : Dst) (a : Src) (b : OpB)
  | mulh (ty : IntTy) (d : Dst) (a b : Src)
  | mad (ty : IntTy) (sat : Bool) (d : Dst) (a b c : Src)
  | div (ty : IntTy) (d : Dst) (a b : Src)
  | rem (ty : IntTy) (d : Dst) (a b : Src)
  | min (ty : IntTy) (d : Dst) (a : Src) (b : OpB)
  | max (ty : IntTy) (d : Dst) (a : Src) (b : OpB)
  | abs (wd : Wd) (sat : Bool) (d : Dst) (a : Src)
  | neg (wd : Wd) (sat : Bool) (d : Dst) (a : Src)
  | and (wd : Wd) (d : Dst) (a : Src) (b : OpB)
  | or (wd : Wd) (d : Dst) (a : Src) (b : OpB)
  | xor (wd : Wd) (d : Dst) (a : Src) (b : OpB)
  | andn (wd : Wd) (d : Dst) (a : Src) (b : OpB)
  | shl (wd : Wd) (d : Dst) (a : Src) (b : OpB)
  | shr (ty : IntTy) (d : Dst) (a : Src) (b : OpB)
  | rot (wd : Wd) (d : Dst) (a : Src) (b : OpB)
  | popc (wd : Wd) (d : Dst) (a : Src)
  | clz (wd : Wd) (d : Dst) (a : Src)
  | ctz (wd : Wd) (d : Dst) (a : Src)
  | brev (wd : Wd) (d : Dst) (a : Src)
  | bfx (ty : IntTy) (d : Dst) (a : Src) (pos len : BitVec 8)
  | bfi (wd : Wd) (d : Dst) (a b : Src) (pos len : BitVec 8)
  | cmp (p : CmpPred) (ty : IntTy) (d : BitVec 4) (a : Src) (b : OpB)
  | sel (wd : Wd) (d : Dst) (a b : Src) (c : BitVec 4)
  | mov (wd : Wd) (d : Dst) (a : OpB)
  | kadd (d a : BitVec 6) (b : OpK)
  | ksub (d a : BitVec 6) (b : OpK)
  | kmul (d a : BitVec 6) (b : OpK)
  | kshl (d a : BitVec 6) (b : OpK)
  | kshr (d a : BitVec 6) (b : OpK)
  | kand (d a : BitVec 6) (b : OpK)
  | kor (d a : BitVec 6) (b : OpK)
  | kmov (d : BitVec 6) (a : OpK)
  | kli (d : BitVec 6) (v : KliImm)
  | lea (d : Dst) (a b : Src) (disp : Word)
  | acvTo (w : Window) (d : Dst) (a : Src)
  | acvFrom (w : Window) (d : Dst) (a : Src)
  | ats (sp : Space) (d : BitVec 4) (a : Src)
  | sreg (item : SregItem) (d : Dst)
  | ixset (ix : BitVec 2) (a : OpB)
  | ixadd (ix : BitVec 2) (a : OpB)
  | vget (ix : BitVec 2) (d : Dst) (base : BitVec 11) (disp : BitVec 16) (len : BitVec 9)
  | vput (ix : BitVec 2) (base : BitVec 11) (b : Src) (disp : BitVec 16) (len : BitVec 9)
  | rgrow (d : Dst) (a : OpK)
  | rshrink (d : Dst) (a : OpK)
  | rquery (d : QueryDst)
  -- floating point and conversion (06)
  | fadd (ty : FltTy) (rm : RM) (d : Dst) (a : Src) (b : OpB)
  | fsub (ty : FltTy) (rm : RM) (d : Dst) (a : Src) (b : OpB)
  | fmul (ty : FltTy) (rm : RM) (d : Dst) (a : Src) (b : OpB)
  | fma (ty : FltTy) (rm : RM) (d : Dst) (a b c : Src)
  | fmin (ty : FltTy) (d : Dst) (a b : Src)
  | fmax (ty : FltTy) (d : Dst) (a b : Src)
  | fabs (ty : FltTy) (d : Dst) (a : Src)
  | fneg (ty : FltTy) (d : Dst) (a : Src)
  | fcopysign (ty : FltTy) (d : Dst) (a b : Src)
  | fcmp (p : FcmpPred) (ty : FltTy) (d : BitVec 4) (a b : Src)
  | frcp (rm : RM) (d : Dst) (a : Src)
  | frsq (rm : RM) (d : Dst) (a : Src)
  | fsqrt (rm : RM) (d : Dst) (a : Src)
  | fexp2 (rm : RM) (d : Dst) (a : Src)
  | flog2 (rm : RM) (d : Dst) (a : Src)
  | fclass (ty : FltTy) (d : Dst) (a : Src)
  | fscale (ty : FltTy) (rm : RM) (d : Dst) (a : Src) (b : OpB)
  | frnd (ty : FltTy) (rm : RM) (d : Dst) (a : Src)
  | fcvt (dst src : CvtFmt) (rm : RM) (d : Dst) (a : Src)
  | icvt (toFloat : Bool) (ity : IntTy) (fc : CvtFmt) (rm : RM) (d : Dst) (a : Src)
  | qcvtTo (slot : BitVec 3) (rm : RM) (d : Dst) (a : Src)
  | qcvtFrom (slot : BitVec 3) (rm : RM) (d : Dst) (a : Src)
  | fpack (bf : Bool) (rm : RM) (d : Dst) (a b : Src)
  | funpack (bf : Bool) (d : Dst) (a : Src)
  | fdot2 (bf : Bool) (rm : RM) (d : Dst) (a b c : Src)
  | fdot4 (slot : BitVec 3) (rm : RM) (d : Dst) (a b c : Src)
  | gred (op : GredOp) (gt : GrpTy) (rm : RM) (d : Dst) (a : Src)
  | gscan (op : GscanOp) (gt : GrpTy) (rm : RM) (d : Dst) (a : Src)
  | gshuf (mode : GshufMode) (d : Dst) (a : Src) (b : OpB)
  | gbcast (wd : Wd) (d : Dst) (a : Src) (b : OpK)
  -- memory access (07)
  | ld (ty : LdTy) (d : Dst) (base : Src) (off : Option Src) (disp : Option Word)
  | lld (ty : LdTy) (d : Dst) (base : Src) (off : Option Src) (disp : Option Word)
  | cld (ty : LdTy) (d : Dst) (base : Src) (off : Option Src) (disp : Option Word)
  | st (ty : StTy) (base : Src) (off : Option Src) (disp : BitVec 18) (c : Src)
  | lst (ty : StTy) (base : Src) (off : Option Src) (disp : BitVec 18) (c : Src)
  | cst (ty : StTy) (base : Src) (off : Option Src) (disp : BitVec 18) (c : Src)
  | sdset (esz : Esz) (sd : BitVec 4) (a : BitVec 6) (base : Word) (ext0 : BitVec 6)
  | sdget (item : SdItem) (d : Dst) (sd : BitVec 4)
  | sdrd (wd : Wd) (d : Dst) (sd : BitVec 4)
  | sdwr (wd : Wd) (sd : BitVec 4) (b : Src)
  | sdrew (sd : BitVec 4)
  -- matrix (08)
  | mls (slot : BitVec 3) (a : BitVec 6) (six : BitVec 8)
  | mlsSp (slot : BitVec 3) (a b : BitVec 6) (six : BitVec 8)
  | mswap
  | mmq (form : MmForm) (sat : Bool) (slot : BitVec 3) (sd : BitVec 4) (tile : BitVec 4)
  | mtile (form : MmForm) (sat : Bool) (slot : BitVec 3) (sd : BitVec 4) (b : BitVec 6) (t : MtDesc)
  | macz (b : BitVec 6)
  | maczFill (a b : BitVec 6)
  | msum (signed sat : Bool) (sd : BitVec 4) (tile : BitVec 4) (mult : BitVec 9)
  | mdrain (out : DrainOut) (slot : BitVec 3) (a b : BitVec 6) (tile vix : BitVec 4) (rm : RM)
  | mstat (d : Dst)
  | engineItemDone (q slot : Nat)
  -- copy and time (10)
  | xcopyIn (p : BitVec 3) (a b : BitVec 6) (t : RowDesc)
  | xcopyOut (p : BitVec 3) (a b : BitVec 6) (t : RowDesc)
  | xgather (p : BitVec 3) (a b : BitVec 6) (t : IdxDesc)
  | xscatter (p : BitVec 3) (a b : BitVec 6) (t : IdxDesc)
  | xscatterAny (p : BitVec 3) (a b : BitVec 6) (t : IdxDesc)
  | xred (op : RedOp) (ty : RedTy) (p : BitVec 3) (a b : BitVec 6) (t : RowDesc)
  | xredAny (op : RedOp) (ty : RedTy) (p : BitVec 3) (a b : BitVec 6) (t : RowDesc)
  | tsleep (texp : BitVec 5) (d : Dst) (p : BitVec 3)
  | tread (d : Dst)
  | xstat (d : Dst) (p : BitVec 3)
  | tresync (d : Dst)
  -- synchronisation (12)
  | atom (op : AtomOp) (ty : IntTy) (d : Dst) (base : Src) (off : Option Src) (disp : BitVec 18) (c : Src)
  | red (op : ScrRedOp) (ty : IntTy) (base : Src) (off : Option Src) (disp : BitVec 18) (c : Src)
  | acq (texp : BitVec 5) (d : Dst) (a b : BitVec 6)
  | rel (a : BitVec 6)
  | wait (texp : BitVec 5) (d : Dst) (a : BitVec 6) (b : OpK)
  | bind (a b : BitVec 6) (t : BindTgt)
  | barSync (texp : BitVec 5) (d : Dst) (exr : Option (BitVec 16))
  | barArv (r : Option Word)
  | barArvRlx (r : Option Word)
  | barWait (texp : BitVec 5) (d : Dst) (exr : Option (BitVec 16))
  | sndPush (texp : BitVec 5) (d : Dst) (a b : BitVec 6)
  | sndPop (texp : BitVec 5) (d : Dst) (a : BitVec 6)
  | sndPeek (d : Dst) (a : BitVec 6)
  | sndCfg (a b : BitVec 6)
  | fence (sc : Scope)
  | xfence (q1 q2 : BitVec 3)
  -- collectives (13)
  | cwait (texp : BitVec 5) (d : Dst) (a : BitVec 6)
  | cnext (a : BitVec 6)
  | cstat (d : Dst) (a : BitVec 6)
  -- launch (03)
  | launch (late : Bool) (d a b : BitVec 6)
  | lwait (texp : BitVec 5) (d : Dst) (a : BitVec 6)
  | lstat (d : Dst) (a : BitVec 6)
  | lcancel (d : Dst) (a : BitVec 6)
  | fmtq (slot : BitVec 3) (d : Dst)
  -- traps, system and debug (15)
  | trap (code : Option Word)
  | tret
  | sysrd (d : Dst) (srn : BitVec 16)
  | syswr (a : Src) (srn : BitVec 16)
  | tinfo (item : TinfoItem) (d : Dst)
  | tkillGroup
  | tkillCtb
  | hread (d : Dst) (w : HItem)
  | hwrite (a : Src) (w : HItem)
  | hstepLane (d : Dst) (a : BitVec 6)
  | hstepCursor (d : Dst) (a : BitVec 6)
  | hgo (a : Option (BitVec 6))
  | bcnArm (a b : BitVec 6) (w : BcnWord)
  | bcnOff (n : BitVec 4)
  | emit (a : OpK)
  -- steps of the trace, the traps and the ends of CTBs (15)
  | traceDrain (q : Nat)
  | stepCountReached (row slot group : Nat)
  | trapEntry (row slot : Nat)
  | ctbAbnormalEnd (row slot col : Nat) (st : CtbEnd)
  | dump (row slot col : Nat)
  | uncorrectableCoreFault (row slot col : Nat)
  | deviceReplay (launch : Nat)
  -- steps of the scheduler (03)
  | validationSpanEnd (launch : Nat)
  | translationFillDone (launch : Nat)
  | preparationPromiseMet (launch : Nat)
  | launchStart (launch : Nat)
  | launchLate (launch : Nat)
  | cancelFire (launch : Nat)
  | writebackStart (launch lin : Nat)
  | launchComplete (launch : Nat)
  | ctbSave (row slot : Nat)
  | ctbRestore (row slot : Nat)
  -- steps of the copy engine and DRAM (10)
  | dramSlotAccess (x gr : Nat)
  | granuleLanding (x gr : Nat)
  | dramWriteCommit (x gr : Nat)
  | eccFailure (x gr : Nat)
  | dramRetry (x gr : Nat)
  | granuleRetryFrame (x gr : Nat)
  | engineRequestRetry (q : Nat)
  | gatherBatch (x : Nat)
  | stagedCombine (fire : Nat)
  -- steps of the waits (12)
  | readinessSample (row slot : Nat)
  | waitDecision (row slot group : Nat)
  | waitTimeout (row slot group : Nat)
  -- steps of slack water, banks, droop and resynchronisation (07, 10)
  | bankMarkFailed (q group bank : Nat)
  | droopSuppress (region beats : Nat)
  | scheduleFault (cause : Nat)
  | tideCorrection (offset : Int)
  | skewGuard (link : Option Nat)
  -- steps of the pod links and collectives (13)
  | flitSend (link slot : Nat)
  | flitReceive (link slot : Nat) (payload : List Byte) (flags : BitVec 8) (crcOk : Bool)
  | flitResend (link slot : Nat)
  | linkDown (link : Nat)
  | collectiveCombine (rdx chunk : Nat)
  | resultCommit (rdx chunk : Nat)
  -- physical events (18)
  | rowReferenceLoss (region : Nat)
  | dieReferenceLoss (die : Nat)
  | uncoreSupplyLow (die : Nat)
  | junctionWarning (tj : BitVec 9)
  | powerWarning (power : BitVec 12)
  -- host commands (18)
  | launchCmd (record start : DWord) (late : Bool) (entry : Nat)
  | lquery (handle : DWord)
  | cancel (handle : DWord)
  | regrd (num : Nat) (q : Nat)
  | objset (obj : Nat) (count : BitVec 16)
  | debug (launch lin : Nat) (op : DebugOp) (word : Word) (value : DWord)
  | retire (n : Nat)
  | regwr (num : Nat) (q : Nat) (value : DWord)
  | descriptorArm (rdx : Nat)
  | descriptorBreak (rdx : Nat)
  | ttepochWrite (value : DWord)
  | schedcfgWrite (value : DWord)
  | detcfgWrite (value : DWord)
  | bankmapWrite (q word : Nat) (value : DWord)
  | dbgtokWrite (value : DWord)
  | hltbaseWrite (value : DWord)
  | registerWrite (num : Nat) (q : Nat) (value : DWord)
  | idleIssueSlot (q beats : Nat)
  -- the steps above that have no operand
  | quantumBoundary
  | slackWater
  | resynchronisation
  | resyncResume
  | tideTableAdopt
  | thermalTrip
  | powerTrip
  | boot
  | handover
  | lockInterfaceRequest
  | startInterfaceRequest
  | stopInterfaceRequest
  | keyExchange
  | measurements
  | hostFlitTagFail
  | scrubComplete
  deriving DecidableEq, Repr

end Sys2Proof
end

