-- ==== Sys2Proof/Machine/SrnMap.lean ====
section
/-! DEFINITION. The system register numbers (15 Table 15.14) and their widths, and the halted-state items
(15 Table 15.16) with their index ranges. -/
namespace Sys2Proof.Machine

/-- The width of system register `n`, `none` for an unassigned number (15 Table 15.14). -/
def srnWidth (n : Nat) : Option Wd :=
  if n = 0x0000 then some .w64
  else if n = 0x0001 ∨ n = 0x0002 then some .w32
  else if n = 0x0010 ∨ n = 0x0013 then some .w32
  else if n = 0x0011 ∨ n = 0x0012 ∨ n = 0x0014 then some .w64
  else if 0x0020 ≤ n ∧ n ≤ 0x0022 then some .w32
  else if 0x0023 ≤ n ∧ n ≤ 0x0026 then some .w64
  else if n = 0x0027 then some .w32
  else if n = 0x0028 then some .w64
  else if n = 0x0030 ∨ n = 0x0031 then some .w64
  else if n = 0x0032 then some .w32
  else if n = 0x0038 ∨ n = 0x0039 then some .w32
  else if 0x0040 ≤ n ∧ n ≤ 0x004F then some .w32
  else if 0x0050 ≤ n ∧ n ≤ 0x0054 then some .w32
  else if 0x0060 ≤ n ∧ n ≤ 0x0075 then some .w32
  else if 0x0080 ≤ n ∧ n ≤ 0x0099 then some .w64
  else if 0x00A0 ≤ n ∧ n ≤ 0x00AF then some .w64
  else if n = 0x00B0 then some .w64
  else if n = 0x00B1 then some .w32
  else if 0x00C0 ≤ n ∧ n ≤ 0x00EF then some .w64
  else if 0x0100 ≤ n ∧ n ≤ 0x0103 then some .w64
  else if 0x0108 ≤ n ∧ n ≤ 0x010B then some .w64
  else if 0x0110 ≤ n ∧ n ≤ 0x0112 then some .w64
  else if 0x0200 ≤ n ∧ n ≤ 0x02FF then some .w64
  else none

/-- The registers that user mode may read: "U" in 15 Table 15.14 (02 R77). -/
def srnUser (n : Nat) : Bool :=
  n ≤ 2 || n == 0x0039 || (0x0040 ≤ n && n ≤ 0x004F)

/-- The per-group registers of 15 Table 15.14. -/
def srnGroup (n : Nat) : Bool := n ≤ 2 || (0x0010 ≤ n && n ≤ 0x0014)

/-- The per-core registers of 15 Table 15.14. -/
def srnCore (n : Nat) : Bool :=
  (0x0050 ≤ n && n ≤ 0x0054) || n == 0x00B1 || (0x00C0 ≤ n && n ≤ 0x00EF) || (0x0100 ≤ n && n ≤ 0x0103)
    || (0x0110 ≤ n && n ≤ 0x0112) || (0x0200 ≤ n && n ≤ 0x02FF)

/-- The device registers: those whose supervisor access is checked against ACCTL25 (15 R420). -/
def srnDevice (n : Nat) : Bool := (srnWidth n).isSome && !srnGroup n && !srnCore n && n != 0x0039

/-- An item code of 15 Table 15.16 with an index in its range (15 R427). -/
def hitemOk (w : HItem) : Bool :=
  let i := w.index.toNat
  match w.item.toNat with
  | 0x00 => i ≤ 2047
  | 0x07 => 1 ≤ i && i ≤ 15
  | 0x08 | 0x09 => i ≤ 63
  | 0x0A => i ≤ 63
  | 0x0C => i ≤ 3
  | 0x0D | 0x0E => i ≤ 7
  | 0x01 | 0x02 | 0x03 | 0x04 | 0x05 | 0x06 | 0x0B => i == 0
  | _ => false

end Sys2Proof.Machine
end

