-- ==== Sys2Proof/WellFormed.lean ====
section
/-! DEFINITION. Well-formed instructions: the terms of `Instr` that some word of the encoding tables stands for
(what steps 7 and 8 of 02 Table 2.9 let through, as a check on the syntax). -/
namespace Sys2Proof

/-- A type of 64 bits (02 R75). -/
def IntTy.is64 : IntTy → Bool
  | .i32 | .n32 => false
  | .i64 | .n64 => true

/-- A signed type (02 R75). -/
def IntTy.signed : IntTy → Bool
  | .i32 | .i64 => true
  | .n32 | .n64 => false

def Wd.is64 : Wd → Bool
  | .w32 => false
  | .w64 => true

/-- A destination of class V2 names an even register (02 R51). -/
def Dst.even : Dst → Bool
  | .reg n _ => n.toNat % 2 == 0
  | .latch _ => true

/-- A source in a 64-bit position: an even register, a latch or a uniform register (02 R48). -/
def Src.ok64 : Src → Bool
  | .v n _ => n.toNat % 2 == 0
  | .b _ => true
  | .k _ => true
  | .sd _ => false

def OpB.ok64 : OpB → Bool
  | .src s => s.ok64
  | .imm _ => true

/-- A destination at a width: even when 64 bits (02 R51). -/
def Dst.okAt (w : Bool) (d : Dst) : Bool := !w || d.even
/-- A source at a width (02 R48). -/
def Src.okAt (w : Bool) (s : Src) : Bool := !w || s.ok64
def OpB.okAt (w : Bool) (s : OpB) : Bool := !w || s.ok64

/-- The offset of a memory operand: v0 cannot serve (07 R208). -/
def offOk : Option Src → Bool
  | some (.v n _) => n != 0
  | _ => true

/-- The data or compare operand of `atom.cas` (12 R352). -/
def casOk (w64 : Bool) : Src → Bool
  | .v n _ => n.toNat % (if w64 then 4 else 2) == 0
  | _ => false

/-- A bit-field specification at width 32 or 64 (05 R160). -/
def fieldOk (w64 : Bool) (pos len : BitVec 8) : Bool :=
  len != 0 && decide (pos.toNat < (if w64 then 64 else 32)) &&
    decide (pos.toNat + len.toNat ≤ (if w64 then 64 else 32))

/-- A register window (05 R170). -/
def windowOk (base : BitVec 11) (len : BitVec 9) : Bool :=
  len != 0 && decide (len.toNat ≤ 256) && decide (base.toNat + len.toNat ≤ 2048)

def RowDesc.ok (t : RowDesc) : Bool :=
  t.rows != 0 && t.rbytes != 0 && t.rbytes.toNat % 8 == 0 && t.gpitch.toNat % 8 == 0

def IdxDesc.ok (t : IdxDesc) : Bool :=
  t.n != 0 && t.rowb != 0 && t.rowb.toNat % 8 == 0 && t.pitch.toNat % 8 == 0

/-- A binding target (12 R326 step 1). -/
def BindTgt.ok : BindTgt → Bool
  | .obj n => n != 0
  | .bar d => decide (-15 ≤ d.toInt) && decide (d.toInt ≤ 15)
  | .snd n => decide (n.toNat ≤ 15)
  | .none => true

/-- A remote arrival's distance (12 R345). -/
def arvOk : Option Word → Bool
  | none => true
  | some d => d != 0 && decide (-15 ≤ d.toInt) && decide (d.toInt ≤ 15)

def MmForm.isFloat : MmForm → Bool
  | .int _ _ => false
  | _ => true

def srnIs64 (n : BitVec 16) : Bool := Machine.srnWidth n.toNat == some .w64

/-- The well-formed instructions. -/
def wf : Instr → Bool
  | .brc cc _ b _ => (cc != .z && cc != .nz) || b == 0
  | .brxK _ t => t.n != 0
  | .brxV _ _ t => t.n != 0
  | .msave d => d != 0
  | .mand d _ _ | .mor d _ _ | .mxor d _ _ | .mandn d _ _ => d != 0
  | .mnot d _ | .mmov d _ => d != 0
  | .add ty _ d a b | .sub ty _ d a b => d.okAt ty.is64 && a.okAt ty.is64 && b.okAt ty.is64
  | .mul ty d a b | .min ty d a b | .max ty d a b => d.okAt ty.is64 && a.okAt ty.is64 && b.okAt ty.is64
  | .mulh ty d a b | .div ty d a b | .rem ty d a b => d.okAt ty.is64 && a.okAt ty.is64 && b.okAt ty.is64
  | .mad ty _ d a b c => d.okAt ty.is64 && a.okAt ty.is64 && b.okAt ty.is64 && c.okAt ty.is64
  | .abs w _ d a | .neg w _ d a => d.okAt w.is64 && a.okAt w.is64
  | .and w d a b | .or w d a b | .xor w d a b | .andn w d a b => d.okAt w.is64 && a.okAt w.is64 && b.okAt w.is64
  | .shl w d a _ | .rot w d a _ => d.okAt w.is64 && a.okAt w.is64
  | .shr ty d a _ => d.okAt ty.is64 && a.okAt ty.is64
  | .popc w _ a | .clz w _ a | .ctz w _ a => a.okAt w.is64
  | .brev w d a => d.okAt w.is64 && a.okAt w.is64
  | .bfx ty d a pos len => d.okAt ty.is64 && a.okAt ty.is64 && fieldOk ty.is64 pos len
  | .bfi w d a b pos len => d.okAt w.is64 && a.okAt w.is64 && b.okAt w.is64 && fieldOk w.is64 pos len
  | .cmp _ ty d a b => d != 0 && a.okAt ty.is64 && b.okAt ty.is64
  | .sel w d a b _ => d.okAt w.is64 && a.okAt w.is64 && b.okAt w.is64
  | .mov w d a => d.okAt w.is64 && a.okAt w.is64
  | .lea d a _ _ => d.even && a.ok64
  | .acvTo _ d a | .acvFrom _ d a => d.even && a.ok64
  | .ats _ d a => d != 0 && a.ok64
  | .vget _ _ base _ len => windowOk base len
  | .vput _ base _ _ len => windowOk base len
  | .fcmp _ _ d _ _ => d != 0
  | .fcvt dst src _ _ _ => dst != src
  | .icvt toF ity _ _ d a => if toF then a.okAt ity.is64 else d.okAt ity.is64
  | .funpack _ d _ => d.even
  | .gred op gt rm _ _ => (op == .add && gt == .f32) || rm == .rne
  | .gscan op gt rm _ _ => ((op == .add || op == .addx) && gt == .f32) || rm == .rne
  | .gshuf mode _ _ b => mode == .idx || (match b with | .src (.k _) => true | .imm _ => true | _ => false)
  | .gbcast w d a _ => d.okAt w.is64 && a.okAt w.is64
  | .ld ty d base off _ | .lld ty d base off _ | .cld ty d base off _ =>
      d.okAt (ty == .b64) && base.ok64 && offOk off
  | .st ty base off _ c | .lst ty base off _ c | .cst ty base off _ c => base.ok64 && offOk off && c.okAt (ty == .b64)
  | .sdset _ _ a _ ext0 => decide (a.toNat ≤ 60) && ext0 != 0 && decide (ext0.toNat ≤ 32)
  | .sdget _ d _ => d.even
  | .sdrd w d _ => d.okAt w.is64
  | .sdwr w _ b => b.okAt w.is64
  | .mmq f sat _ _ _ => !(f.isFloat && sat)
  | .mtile f sat _ _ _ t => !(f.isFloat && sat) && t.kb != 0
  | .xcopyIn _ _ _ t | .xcopyOut _ _ _ t => t.ok
  | .xgather _ _ _ t | .xscatter _ _ _ t | .xscatterAny _ _ _ t => t.ok
  | .xred _ _ _ _ _ t | .xredAny _ _ _ _ _ t => t.ok
  | .tread d => d.even
  | .atom op ty d base off _ c =>
      d.okAt ty.is64 && base.ok64 && offOk off && (if op == .cas then casOk ty.is64 c else c.okAt ty.is64)
  | .red _ ty base off _ c => base.ok64 && offOk off && c.okAt ty.is64
  | .wait _ _ _ b => match b with | .k _ => true | .imm w => decide (w.toNat < 65536)
  | .bind _ _ t => t.ok
  | .barArv r | .barArvRlx r => arvOk r
  | .xfence q1 q2 => q1 != q2 && decide (q1.toNat < 6) && decide (q2.toNat < 6)
  | .fmtq _ d => d.even
  | .sysrd d srn => (Machine.srnWidth srn.toNat).isSome && d.okAt (srnIs64 srn)
  | .syswr a srn => (Machine.srnWidth srn.toNat).isSome && a.okAt (srnIs64 srn) &&
      (match a with | .sd _ => false | _ => true)
  | .tinfo _ d => d.even
  | .hread _ w | .hwrite _ w => Machine.hitemOk w
  | _ => true

end Sys2Proof
end

