-- ==== Sys2Proof/Decode.lean ====
section
/-! DEFINITION. Decoding (02 R36 to R52, R71 to R76) and the encoder, both written from the encoding tables of the
class chapters. A word of 128 bits holds one instruction: bits [63:0] the base format, bits [127:64] the upper words;
a shorter instruction ignores the bits above its length. Decoding answers an instruction or the cause of the first
failed check among steps 2 and 4 to 8 of Table 2.9; the checks of fetch, privilege and SEALED are the machine's. -/
namespace Sys2Proof

/-- The causes that decoding names (02 Table 2.9 steps 2 and 4 to 8). -/
inductive DecodeErr where
  | illegalEncoding | illegalOpcode | illegalOperand
  deriving DecidableEq, Repr

/-- The base format of 02 Table 2.2 and the upper 64 bits. -/
structure Fields where
  len : BitVec 2
  maj : BitVec 8
  fn  : BitVec 6
  d   : BitVec 11
  dl  : BitVec 2
  wb  : BitVec 1
  a   : BitVec 11
  ak  : BitVec 2
  al  : BitVec 1
  b   : BitVec 11
  bk  : BitVec 2
  bl  : BitVec 1
  mod : BitVec 6
  hi  : BitVec 64
  deriving DecidableEq, Repr

/-- The fields of a word (02 Table 2.2). -/
def unpack (w : BitVec 128) : Fields where
  len := w.extractLsb' 0 2
  maj := w.extractLsb' 2 8
  fn  := w.extractLsb' 10 6
  d   := w.extractLsb' 16 11
  dl  := w.extractLsb' 27 2
  wb  := w.extractLsb' 29 1
  a   := w.extractLsb' 30 11
  ak  := w.extractLsb' 41 2
  al  := w.extractLsb' 43 1
  b   := w.extractLsb' 44 11
  bk  := w.extractLsb' 55 2
  bl  := w.extractLsb' 57 1
  mod := w.extractLsb' 58 6
  hi  := w.extractLsb' 64 64

/-- The word of given fields (02 Table 2.2). -/
def pack (f : Fields) : BitVec 128 :=
  f.hi ++ f.mod ++ f.bl ++ f.bk ++ f.b ++ f.al ++ f.ak ++ f.a ++ f.wb ++ f.dl ++ f.d ++ f.fn ++ f.maj ++ f.len

/-- Bytes of an instruction by LEN; 0 for the unassigned 0b11 (02 Table 2.1). -/
def lenBytes (len : BitVec 2) : Nat :=
  match len.toNat with
  | 0 => 8
  | 1 => 12
  | 2 => 16
  | _ => 0

/-- The upper bits that belong to an instruction of that length (02 R36). -/
def trimHi (f : Fields) : Fields :=
  match f.len.toNat with
  | 0 => { f with hi := 0 }
  | 1 => { f with hi := (f.hi.setWidth 32).setWidth 64 }
  | _ => f

/-! The C form and the immediates of the upper bits (02 Table 2.3). -/

def Fields.imm32 (f : Fields) : Word := f.hi.extractLsb' 0 32
def Fields.c (f : Fields) : BitVec 11 := f.hi.extractLsb' 0 11
def Fields.ck (f : Fields) : BitVec 2 := f.hi.extractLsb' 11 2
def Fields.cl (f : Fields) : BitVec 1 := f.hi.extractLsb' 13 1
def Fields.imm18 (f : Fields) : BitVec 18 := f.hi.extractLsb' 14 18

/-- The upper bits of the C form. -/
def cForm (imm : BitVec 18) (cl : BitVec 1) (ck : BitVec 2) (c : BitVec 11) : BitVec 64 :=
  (imm ++ cl ++ ck ++ c).setWidth 64

/-- What a source position holds (02 R47 and the field tables of the class chapters). -/
inductive Role where
  | unused
  | val (w64 : Bool)
  | valNoStream (w64 : Bool)
  | vec
  | mask
  | uni
  | uniOpt
  | name
  | shape
  | promise
  | base
  | off
  | stream
  | cas (w64 : Bool)
  | xs
  deriving DecidableEq, Repr

/-- The bits a kind leaves unused are zero (02 R46). -/
def kindInRange (k : BitVec 2) (f : BitVec 11) : Bool :=
  match k.toNat with
  | 0 => true
  | 1 => decide (f.toNat < 4)
  | 2 => decide (f.toNat < 64)
  | _ => decide (f.toNat < 16)

/-- A last-read bit stands only on kind 0b00 (02 R49). -/
def lastOk (k : BitVec 2) (l : BitVec 1) : Bool := l == 0 || k == 0

/-- Step 7 of 02 Table 2.9 for a source position: reserved bits. -/
def roleEnc (r : Role) (f : BitVec 11) (k : BitVec 2) (l : BitVec 1) : Bool :=
  match r with
  | .unused => f == 0 && k == 0 && l == 0
  | .val _ | .valNoStream _ | .vec | .uni | .base | .cas _ => kindInRange k f && lastOk k l
  | .stream => kindInRange k f && lastOk k l
  | .uniOpt => kindInRange k f && lastOk k l && !(k == 0 && f == 0 && l == 1)
  | .mask | .shape => decide (f.toNat < 16) && l == 0
  | .promise => decide (f.toNat < 8) && l == 0
  | .name => kindInRange k f && l == 0
  | .off => kindInRange k f && lastOk k l && !(k == 0 && f == 0 && l == 1)
  | .xs => decide (f.toNat < 2) && k == 0 && l == 0

/-- Step 8 of 02 Table 2.9 for a source position: kinds and indexes. -/
def roleOpd (r : Role) (f : BitVec 11) (k : BitVec 2) : Bool :=
  match r with
  | .unused | .off | .xs => true
  | .val w64 => !w64 || (k != 3 && (k != 0 || f.toNat % 2 == 0))
  | .valNoStream w64 => k != 3 && (!w64 || k != 0 || f.toNat % 2 == 0)
  | .vec | .mask | .name | .promise => k == 0
  | .uni => k == 2
  | .uniOpt => k == 2 || (k == 0 && f == 0)
  | .shape | .stream => k == 3
  | .base => k != 3 && (k != 0 || f.toNat % 2 == 0)
  | .cas w64 => k == 0 && f.toNat % (if w64 then 4 else 2) == 0

/-- The destination classes of 02 Table 2.5; class X is `none` here, since FN names its register. -/
inductive DstClass where
  | V | V2 | M | K | P | SD | none
  deriving DecidableEq, Repr

/-- Step 7 for the destination (02 R51, R52). -/
def dstEnc (c : DstClass) (f : Fields) : Bool :=
  match c with
  | .V | .V2 => f.wb == 0 || f.d == 0
  | .M | .SD => decide (f.d.toNat < 16) && f.dl == 0 && f.wb == 0
  | .K => decide (f.d.toNat < 64) && f.dl == 0 && f.wb == 0
  | .P => decide (f.d.toNat < 8) && f.dl == 0 && f.wb == 0
  | .none => f.d == 0 && f.dl == 0 && f.wb == 0

/-- Step 8 for the destination (02 Table 2.5). -/
def dstOpd (c : DstClass) (f : Fields) : Bool :=
  match c with
  | .V2 => f.d.toNat % 2 == 0
  | .M => f.d != 0
  | _ => true

/-- The MOD layouts of 02 Table 2.10. -/
inductive ModLayout where
  | z | sat | rm | qs | ms (float : Bool) | sl | wt | xf | ln
  deriving DecidableEq, Repr

/-- Step 7 for MOD (02 R74). -/
def modEnc (l : ModLayout) (m : BitVec 6) : Bool :=
  match l with
  | .z => m == 0
  | .sat => decide (m.toNat < 2)
  | .rm => decide (m.toNat ≤ 4)
  | .qs => decide (m.toNat % 8 ≤ 4)
  | .ms float => m.toNat / 2 % 4 == 0 && (!float || m.toNat % 2 == 0)
  | .sl => m.toNat % 8 == 0
  | .wt => decide (m.toNat < 32)
  | .xf => decide (m.toNat % 8 < 6) && decide (m.toNat / 8 < 6)
  | .ln => decide (m.toNat < 2)

/-- One row of the opcode map at one length: what steps 7 and 8 check and the instruction it stands for. -/
structure Fmt where
  dst  : DstClass := .none
  a    : Role := .unused
  b    : Role := .unused
  c    : Option Role := none
  mod  : ModLayout := .z
  enc  : Bool := true
  opd  : Bool := true
  out  : Instr

/-- Where steps 4 to 6 of 02 Table 2.9 lead. -/
inductive Lookup where
  | noOpcode
  | badLen
  | row (r : Fmt)

/-! Reading operands out of the fields. -/

def srcOf (f : BitVec 11) (k : BitVec 2) (l : BitVec 1) : Src :=
  match k.toNat with
  | 0 => .v f (l == 1)
  | 1 => .b (f.setWidth 2)
  | 2 => .k (f.setWidth 6)
  | _ => .sd (f.setWidth 4)

def Fields.srcA (f : Fields) : Src := srcOf f.a f.ak f.al
def Fields.srcB (f : Fields) : Src := srcOf f.b f.bk f.bl
def Fields.srcC (f : Fields) : Src := srcOf f.c f.ck f.cl
def Fields.kA (f : Fields) : BitVec 6 := f.a.setWidth 6
def Fields.kB (f : Fields) : BitVec 6 := f.b.setWidth 6
def Fields.kD (f : Fields) : BitVec 6 := f.d.setWidth 6
def Fields.mA (f : Fields) : BitVec 4 := f.a.setWidth 4
def Fields.mB (f : Fields) : BitVec 4 := f.b.setWidth 4
def Fields.mC (f : Fields) : BitVec 4 := f.c.setWidth 4
def Fields.mD (f : Fields) : BitVec 4 := f.d.setWidth 4
def Fields.pA (f : Fields) : BitVec 3 := f.a.setWidth 3
def Fields.pD (f : Fields) : BitVec 3 := f.d.setWidth 3
def Fields.dst (f : Fields) : Dst := if f.wb == 1 then .latch f.dl else .reg f.d f.dl
def Fields.offB (f : Fields) : Option Src := if f.b == 0 && f.bk == 0 then none else some f.srcB
def Fields.sat (f : Fields) : Bool := f.mod.getLsbD 0
def Fields.slot (f : Fields) : BitVec 3 := f.mod.extractLsb' 3 3
def Fields.texp (f : Fields) : BitVec 5 := f.mod.setWidth 5

def rmOfCode (n : Nat) : RM :=
  match n with
  | 0 => .rne
  | 1 => .rna
  | 2 => .rtz
  | 3 => .rup
  | _ => .rdn

def Fields.rm (f : Fields) : RM := rmOfCode (f.mod.toNat % 8)

def intTyOf (n : Nat) : IntTy :=
  match n with
  | 0 => .i32
  | 1 => .n32
  | 2 => .i64
  | _ => .n64

def wdOf (n : Nat) : Wd :=
  match n with
  | 0 => .w32
  | _ => .w64

def fltTyOf (n : Nat) : FltTy :=
  match n with
  | 0 => .f32
  | 1 => .f16x2
  | _ => .bf16x2

def cvtFmtOf (n : Nat) : CvtFmt :=
  match n with
  | 0 => .f32
  | 1 => .f16
  | _ => .bf16

def grpTyOf (n : Nat) : GrpTy :=
  match n with
  | 0 => .f32
  | 1 => .i32
  | _ => .n32

def ldTyOf (n : Nat) : LdTy :=
  match n with
  | 0 => .n8
  | 1 => .i8
  | 2 => .n16
  | 3 => .i16
  | 4 => .b32
  | _ => .b64

def stTyOf (n : Nat) : StTy :=
  match n with
  | 0 => .b8
  | 2 => .b16
  | 4 => .b32
  | _ => .b64

def brCondOf (n : Nat) : BrCond :=
  match n with
  | 0 => .eq
  | 1 => .ne
  | 2 => .lt
  | 3 => .ge
  | 4 => .ltn
  | 5 => .gen
  | 6 => .z
  | _ => .nz

def cmpPredOf (n : Nat) : CmpPred :=
  match n with
  | 0 => .eq
  | 1 => .ne
  | 2 => .lt
  | 3 => .le
  | 4 => .gt
  | _ => .ge

def fcmpPredOf (n : Nat) : FcmpPred :=
  match n with
  | 0 => .eq
  | 1 => .ne
  | 2 => .lt
  | 3 => .le
  | 4 => .gt
  | 5 => .ge
  | 6 => .un
  | 7 => .ord
  | 8 => .tlt
  | 9 => .tle
  | _ => .teq

def sregOf (n : Nat) : SregItem :=
  match n with
  | 0 => .lane
  | 1 => .group
  | 2 => .stage
  | 3 => .x
  | 4 => .y
  | 5 => .z
  | 6 => .row
  | 7 => .col
  | 8 => .slot
  | 9 => .block
  | 10 => .ngroups
  | _ => .nlanes

def gredOf (n : Nat) : GredOp :=
  match n with
  | 0 => .add
  | 1 => .min
  | 2 => .max
  | 3 => .argmin
  | _ => .argmax

def gscanOf (n : Nat) : GscanOp :=
  match n with
  | 0 => .add
  | 1 => .addx
  | 2 => .min
  | _ => .max

def gshufOf (n : Nat) : GshufMode :=
  match n with
  | 0 => .idx
  | 1 => .up
  | 2 => .down
  | _ => .xor

def eszOf (n : Nat) : Esz :=
  match n with
  | 0 => .b32
  | 1 => .n16
  | 2 => .i16
  | 3 => .n8
  | 4 => .i8
  | _ => .b64

def sdItemOf (n : Nat) : SdItem :=
  match n with
  | 0 => .base
  | 1 => .stride 0
  | 2 => .stride 1
  | 3 => .stride 2
  | 4 => .stride 3
  | 5 => .stride 4
  | 6 => .extent 0
  | 7 => .extent 1
  | 8 => .extent 2
  | 9 => .extent 3
  | 10 => .extent 4
  | _ => .pos

def mmFormOf (n : Nat) : MmForm :=
  match n with
  | 0x00 => .bf16
  | 0x01 => .b8
  | 0x02 => .int false false
  | 0x0A => .int true false
  | 0x12 => .int false true
  | _ => .int true true

def drainOf (n : Nat) : DrainOut :=
  match n with
  | 0 => .f32
  | 1 => .bf16
  | 2 => .i8
  | 3 => .n8
  | _ => .i32

def redOpOf (n : Nat) : RedOp :=
  match n with
  | 0 => .add
  | 1 => .min
  | _ => .max

def redTyOf (n : Nat) : RedTy :=
  match n with
  | 0 => .f32
  | _ => .i32

def atomOpOf (n : Nat) : AtomOp :=
  match n with
  | 0 => .add
  | 1 => .min
  | 2 => .max
  | 3 => .and
  | 4 => .or
  | 5 => .xor
  | 6 => .exch
  | _ => .cas

def scrRedOpOf (n : Nat) : ScrRedOp :=
  match n with
  | 0 => .add
  | 1 => .min
  | 2 => .max
  | 3 => .and
  | 4 => .or
  | _ => .xor

def scopeOf (n : Nat) : Scope :=
  match n with
  | 0 => .group
  | 1 => .ctb
  | 2 => .reach
  | 3 => .device
  | _ => .pod

def tinfoOf (n : Nat) : TinfoItem :=
  match n with
  | 0 => .cause
  | 1 => .pc
  | 2 => .addr
  | _ => .lane

def windowOf (n : Nat) : Window :=
  match n with
  | 1 => .lane
  | 2 => .shared
  | _ => .cluster

def spaceOf (n : Nat) : Space :=
  match n with
  | 0 => .global
  | 1 => .lane
  | 2 => .shared
  | _ => .cluster

def bindTgtOf (imm : BitVec 18) : BindTgt :=
  match (imm.extractLsb' 16 2).toNat with
  | 0 => .obj (imm.extractLsb' 0 16)
  | 1 => .bar (imm.extractLsb' 0 16)
  | 2 => .snd (imm.extractLsb' 0 16)
  | _ => .none

def Fields.brx (f : Fields) : BrxDesc :=
  { joff := f.hi.extractLsb' 40 24, n := f.hi.extractLsb' 32 8, toff := f.hi.extractLsb' 0 32 }
def Fields.mt (f : Fields) : MtDesc :=
  { kb := f.hi.extractLsb' 56 8, nbm := f.hi.extractLsb' 52 4, tile := f.hi.extractLsb' 48 4,
    psl := f.hi.extractLsb' 45 3, nstr := f.hi.extractLsb' 0 32 }
def Fields.rowDesc (f : Fields) : RowDesc :=
  { rows := f.hi.extractLsb' 48 16, rbytes := f.hi.extractLsb' 32 16, gpitch := f.hi.extractLsb' 0 32 }
def Fields.idxDesc (f : Fields) : IdxDesc :=
  { n := f.hi.extractLsb' 48 16, rowb := f.hi.extractLsb' 32 16, pitch := f.hi.extractLsb' 0 32 }
def Fields.hitem (f : Fields) : HItem :=
  { index := f.hi.extractLsb' 16 16, item := f.hi.extractLsb' 8 8, group := f.hi.extractLsb' 0 5 }
def Fields.bcn (f : Fields) : BcnWord :=
  { count := f.hi.extractLsb' 16 16, action := f.hi.extractLsb' 9 2, cmp := f.hi.extractLsb' 6 3,
    kind := f.hi.extractLsb' 4 2, n := f.hi.extractLsb' 0 4 }

/-! The permitted lengths (02 R76): the row of each, or step 6's refusal. -/

def only64 (f : Fields) (r : Fmt) : Lookup := if f.len == 0 then .row r else .badLen
def only96 (f : Fields) (r : Fmt) : Lookup := if f.len == 1 then .row r else .badLen
def only128 (f : Fields) (r : Fmt) : Lookup := if f.len == 2 then .row r else .badLen
def both (f : Fields) (r64 r96 : Fmt) : Lookup :=
  if f.len == 0 then .row r64 else if f.len == 1 then .row r96 else .badLen

/-- B from a source in the 64 form, from IMM32 in the 96i form (02 R43). -/
def withImm (f : Fields) (rb : Role) (r : Fmt) (mk : OpB → Instr) : Lookup :=
  both f { r with b := rb, out := mk (.src f.srcB) } { r with out := mk (.imm f.imm32) }

/-- As `withImm`, for a uniform B. -/
def withImmK (f : Fields) (r : Fmt) (mk : OpK → Instr) : Lookup :=
  both f { r with b := .uni, out := mk (.k f.kB) } { r with out := mk (.imm f.imm32) }

def vClass (w64 : Bool) : DstClass := if w64 then .V2 else .V

/-- Control and mask class (02 Table 2.12, 04 Table 4.5). -/
def lookupControl (f : Fields) : Lookup :=
  let fn := f.fn.toNat
  let nofn : Lookup := .noOpcode
  match f.maj.toNat with
  | 0x00 => if fn = 0 then only64 f { out := .nop } else nofn
  | 0x01 => if fn = 0 then only96 f { out := .br f.imm32 } else nofn
  | 0x02 => if fn < 8 then
      only96 f { a := .uni, b := if fn < 6 then .uni else .unused,
                 out := .brc (brCondOf fn) f.kA (if fn < 6 then f.kB else 0) f.imm32 } else nofn
  | 0x03 => if fn = 0 then only96 f { dst := .K, a := .uni, out := .loop f.kD f.kA f.imm32 } else nofn
  | 0x04 => if fn = 0 then only96 f { dst := .K, out := .call f.kD f.imm32 }
            else if fn = 1 then only64 f { dst := .K, a := .uni, out := .callK f.kD f.kA } else nofn
  | 0x05 => if fn = 0 then only64 f { a := .uni, out := .ret f.kA } else nofn
  | 0x06 => if fn = 0 then only128 f { a := .uni, enc := f.brx.n != 0, out := .brxK f.kA f.brx }
            else if fn = 1 then only128 f { a := .vec, enc := f.brx.n != 0, out := .brxV f.a (f.al == 1) f.brx }
            else nofn
  | 0x07 => if fn < 2 then only64 f { a := .mask, out := .mif (fn == 1) f.mA } else nofn
  | 0x08 => if fn = 0 then only64 f { out := .melse } else nofn
  | 0x09 => if fn = 0 then only64 f { out := .mend } else nofn
  | 0x0A => if fn = 0 then only64 f { a := .mask, out := .mset f.mA }
            else if fn = 1 then only64 f { out := .msetAll } else nofn
  | 0x0B => if fn = 0 then only64 f { dst := .M, a := .mask, b := .mask, out := .mand f.mD f.mA f.mB }
            else if fn = 1 then only64 f { dst := .M, a := .mask, b := .mask, out := .mor f.mD f.mA f.mB }
            else if fn = 2 then only64 f { dst := .M, a := .mask, b := .mask, out := .mxor f.mD f.mA f.mB }
            else if fn = 3 then only64 f { dst := .M, a := .mask, b := .mask, out := .mandn f.mD f.mA f.mB }
            else if fn = 4 then only64 f { dst := .M, a := .mask, out := .mnot f.mD f.mA }
            else if fn = 5 then only64 f { dst := .M, a := .mask, out := .mmov f.mD f.mA } else nofn
  | 0x0C => if fn = 0 then only64 f { dst := .M, out := .msave f.mD }
            else if fn = 1 then only64 f { a := .mask, out := .mrest f.mA } else nofn
  | 0x0D => if fn = 0 then only64 f { dst := .V, a := .mask, out := .mcnt f.dst f.mA }
            else if fn = 1 then only64 f { dst := .V, a := .mask, out := .mfirst f.dst f.mA } else nofn
  | 0x0E => if fn = 0 then only64 f { dst := .V, a := .vec, out := .passE f.dst f.a (f.al == 1) }
            else if fn = 1 then only64 f { dst := .V, a := .vec, out := .passS f.dst f.a (f.al == 1) } else nofn
  | _ => if fn = 0 then only64 f { out := .endG } else nofn

/-- Integer, address and uniform class (02 Table 2.13, 05 Table 5.2). -/
def lookupInteger (f : Fields) : Lookup :=
  let fn := f.fn.toNat
  let nofn : Lookup := .noOpcode
  let ty := intTyOf fn
  let w := ty.is64
  let wd := wdOf fn
  let ww := wd.is64
  let v := vClass w
  let vw := vClass ww
  match f.maj.toNat with
  | 0x10 => if fn < 4 then withImm f (.val w) { dst := v, a := .val w, mod := .sat, out := .nop }
      (.add ty f.sat f.dst f.srcA) else nofn
  | 0x11 => if fn < 4 then withImm f (.val w) { dst := v, a := .val w, mod := .sat, out := .nop }
      (.sub ty f.sat f.dst f.srcA) else nofn
  | 0x12 => if fn < 4 then withImm f (.val w) { dst := v, a := .val w, out := .nop } (.mul ty f.dst f.srcA) else nofn
  | 0x13 => if fn < 4 then only64 f { dst := v, a := .val w, b := .val w, out := .mulh ty f.dst f.srcA f.srcB } else nofn
  | 0x14 => if fn < 4 then
      only96 f { dst := v, a := .val w, b := .val w, c := some (.val w), mod := .sat, enc := f.imm18 == 0,
                 out := .mad ty f.sat f.dst f.srcA f.srcB f.srcC } else nofn
  | 0x15 => if fn < 4 then only64 f { dst := v, a := .val w, b := .val w, out := .div ty f.dst f.srcA f.srcB } else nofn
  | 0x16 => if fn < 4 then only64 f { dst := v, a := .val w, b := .val w, out := .rem ty f.dst f.srcA f.srcB } else nofn
  | 0x17 => if fn < 4 then withImm f (.val w) { dst := v, a := .val w, out := .nop } (.min ty f.dst f.srcA) else nofn
  | 0x18 => if fn < 4 then withImm f (.val w) { dst := v, a := .val w, out := .nop } (.max ty f.dst f.srcA) else nofn
  | 0x19 =>
      if fn = 0 then only64 f { dst := .V, a := .val false, mod := .sat, out := .abs .w32 f.sat f.dst f.srcA }
      else if fn = 2 then only64 f { dst := .V2, a := .val true, mod := .sat, out := .abs .w64 f.sat f.dst f.srcA }
      else if fn = 4 then only64 f { dst := .V, a := .val false, mod := .sat, out := .neg .w32 f.sat f.dst f.srcA }
      else if fn = 6 then only64 f { dst := .V2, a := .val true, mod := .sat, out := .neg .w64 f.sat f.dst f.srcA }
      else nofn
  | 0x1A => if fn < 2 then withImm f (.val ww) { dst := vw, a := .val ww, out := .nop } (.and wd f.dst f.srcA) else nofn
  | 0x1B => if fn < 2 then withImm f (.val ww) { dst := vw, a := .val ww, out := .nop } (.or wd f.dst f.srcA) else nofn
  | 0x1C => if fn < 2 then withImm f (.val ww) { dst := vw, a := .val ww, out := .nop } (.xor wd f.dst f.srcA) else nofn
  | 0x1D => if fn < 2 then withImm f (.val ww) { dst := vw, a := .val ww, out := .nop } (.andn wd f.dst f.srcA) else nofn
  | 0x1E => if fn < 2 then withImm f (.val false) { dst := vw, a := .val ww, out := .nop } (.shl wd f.dst f.srcA) else nofn
  | 0x1F => if fn < 4 then withImm f (.val false) { dst := v, a := .val w, out := .nop } (.shr ty f.dst f.srcA) else nofn
  | 0x20 => if fn < 2 then withImm f (.val false) { dst := vw, a := .val ww, out := .nop } (.rot wd f.dst f.srcA) else nofn
  | 0x21 =>
      if fn < 2 then only64 f { dst := .V, a := .val ww, out := .popc wd f.dst f.srcA }
      else if fn = 4 then only64 f { dst := .V, a := .val false, out := .clz .w32 f.dst f.srcA }
      else if fn = 5 then only64 f { dst := .V, a := .val true, out := .clz .w64 f.dst f.srcA }
      else if fn = 8 then only64 f { dst := .V, a := .val false, out := .ctz .w32 f.dst f.srcA }
      else if fn = 9 then only64 f { dst := .V, a := .val true, out := .ctz .w64 f.dst f.srcA }
      else if fn = 12 then only64 f { dst := .V, a := .val false, out := .brev .w32 f.dst f.srcA }
      else if fn = 13 then only64 f { dst := .V2, a := .val true, out := .brev .w64 f.dst f.srcA }
      else nofn
  | 0x22 => if fn < 4 then
      only96 f { dst := v, a := .val w, c := some .unused, enc := f.imm18.extractLsb' 16 2 == 0,
                 opd := fieldOk w (f.imm18.extractLsb' 0 8) (f.imm18.extractLsb' 8 8),
                 out := .bfx ty f.dst f.srcA (f.imm18.extractLsb' 0 8) (f.imm18.extractLsb' 8 8) } else nofn
  | 0x23 => if fn < 2 then
      only96 f { dst := vw, a := .val ww, b := .val ww, c := some .unused, enc := f.imm18.extractLsb' 16 2 == 0,
                 opd := fieldOk ww (f.imm18.extractLsb' 0 8) (f.imm18.extractLsb' 8 8),
                 out := .bfi wd f.dst f.srcA f.srcB (f.imm18.extractLsb' 0 8) (f.imm18.extractLsb' 8 8) } else nofn
  | 0x24 => if fn < 24 then
      let t := intTyOf (fn % 4)
      withImm f (.val t.is64) { dst := .M, a := .val t.is64, out := .nop } (.cmp (cmpPredOf (fn / 4)) t f.mD f.srcA)
      else nofn
  | 0x25 => if fn < 2 then
      only96 f { dst := vw, a := .val ww, b := .val ww, c := some .mask, enc := f.imm18 == 0,
                 out := .sel wd f.dst f.srcA f.srcB f.mC } else nofn
  | 0x26 => if fn < 2 then
      both f { dst := vw, a := .val ww, out := .mov wd f.dst (.src f.srcA) }
             { dst := vw, out := .mov wd f.dst (.imm f.imm32) } else nofn
  | 0x27 =>
      if fn = 0 then withImmK f { dst := .K, a := .uni, out := .nop } (.kadd f.kD f.kA)
      else if fn = 1 then withImmK f { dst := .K, a := .uni, out := .nop } (.ksub f.kD f.kA)
      else if fn = 2 then withImmK f { dst := .K, a := .uni, out := .nop } (.kmul f.kD f.kA)
      else if fn = 3 then withImmK f { dst := .K, a := .uni, out := .nop } (.kshl f.kD f.kA)
      else if fn = 4 then withImmK f { dst := .K, a := .uni, out := .nop } (.kshr f.kD f.kA)
      else if fn = 5 then withImmK f { dst := .K, a := .uni, out := .nop } (.kand f.kD f.kA)
      else if fn = 6 then withImmK f { dst := .K, a := .uni, out := .nop } (.kor f.kD f.kA)
      else if fn = 7 then both f { dst := .K, a := .uni, out := .kmov f.kD (.k f.kA) }
                                 { dst := .K, out := .kmov f.kD (.imm f.imm32) }
      else if fn = 8 then
        if f.len == 1 then .row { dst := .K, a := .xs, out := .kli f.kD (.imm32 (f.a == 1) f.imm32) }
        else if f.len == 2 then .row { dst := .K, out := .kli f.kD (.imm64 f.hi) }
        else .badLen
      else nofn
  | 0x28 => if fn = 0 then only96 f { dst := .V2, a := .val true, b := .val false, out := .lea f.dst f.srcA f.srcB f.imm32 }
            else nofn
  | 0x29 => if 1 ≤ fn ∧ fn ≤ 3 then only64 f { dst := .V2, a := .val true, out := .acvTo (windowOf fn) f.dst f.srcA }
            else if 5 ≤ fn ∧ fn ≤ 7 then
              only64 f { dst := .V2, a := .val true, out := .acvFrom (windowOf (fn - 4)) f.dst f.srcA }
            else nofn
  | 0x2A => if fn < 4 then only64 f { dst := .M, a := .val true, out := .ats (spaceOf fn) f.mD f.srcA } else nofn
  | 0x2B => if fn < 12 then only64 f { dst := .V, out := .sreg (sregOf fn) f.dst } else nofn
  | 0x2C => if fn < 4 then
      only96 f { dst := .V, a := .name, enc := f.imm32.extractLsb' 9 7 == 0,
                 opd := windowOk f.a (f.imm32.extractLsb' 0 9),
                 out := .vget (f.fn.setWidth 2) f.dst f.a (f.imm32.extractLsb' 16 16) (f.imm32.extractLsb' 0 9) } else nofn
  | 0x2D => if fn < 4 then
      only96 f { a := .name, b := .val false, enc := f.imm32.extractLsb' 9 7 == 0,
                 opd := windowOk f.a (f.imm32.extractLsb' 0 9),
                 out := .vput (f.fn.setWidth 2) f.a f.srcB (f.imm32.extractLsb' 16 16) (f.imm32.extractLsb' 0 9) } else nofn
  | 0x2E => if fn < 4 then both f { a := .val false, out := .ixset (f.fn.setWidth 2) (.src f.srcA) }
                                  { out := .ixset (f.fn.setWidth 2) (.imm f.imm32) }
            else if fn < 8 then both f { a := .val false, out := .ixadd (f.fn.setWidth 2) (.src f.srcA) }
                                       { out := .ixadd (f.fn.setWidth 2) (.imm f.imm32) }
            else nofn
  | _ => if fn = 0 then both f { dst := .V, a := .uni, out := .rgrow f.dst (.k f.kA) }
                               { dst := .V, out := .rgrow f.dst (.imm f.imm32) }
         else if fn = 1 then both f { dst := .V, a := .uni, out := .rshrink f.dst (.k f.kA) }
                                    { dst := .V, out := .rshrink f.dst (.imm f.imm32) }
         else if fn = 2 then both f { dst := .V, out := .rquery { dst := f.dst } } { dst := .V, out := .rquery { dst := f.dst, imm := some f.imm32 } }
         else nofn

/-- Floating-point and conversion class (02 Table 2.14, 06 Table 6.7). -/
def lookupFloat (f : Fields) : Lookup :=
  let fn := f.fn.toNat
  let nofn : Lookup := .noOpcode
  let ty := fltTyOf fn
  let ty4 := fltTyOf (fn % 4)
  let d1 : Fmt := { dst := .V, a := .val false, out := .nop }
  let d2 : Fmt := { dst := .V, a := .val false, b := .val false, out := .nop }
  match f.maj.toNat with
  | 0x30 => if fn < 3 then withImm f (.val false) { d1 with mod := .rm } (.fadd ty f.rm f.dst f.srcA) else nofn
  | 0x31 => if fn < 3 then withImm f (.val false) { d1 with mod := .rm } (.fsub ty f.rm f.dst f.srcA) else nofn
  | 0x32 => if fn < 3 then withImm f (.val false) { d1 with mod := .rm } (.fmul ty f.rm f.dst f.srcA) else nofn
  | 0x33 => if fn < 3 then only96 f { d2 with c := some (.val false), mod := .rm, enc := f.imm18 == 0,
                                              out := .fma ty f.rm f.dst f.srcA f.srcB f.srcC } else nofn
  | 0x34 => if fn < 3 then only64 f { d2 with out := .fmin ty f.dst f.srcA f.srcB } else nofn
  | 0x35 => if fn < 3 then only64 f { d2 with out := .fmax ty f.dst f.srcA f.srcB } else nofn
  | 0x36 => if fn < 3 then only64 f { d1 with out := .fabs ty4 f.dst f.srcA }
            else if 4 ≤ fn ∧ fn < 7 then only64 f { d1 with out := .fneg ty4 f.dst f.srcA }
            else if 8 ≤ fn ∧ fn < 11 then only64 f { d2 with out := .fcopysign ty4 f.dst f.srcA f.srcB }
            else nofn
  | 0x37 => if fn % 4 < 3 ∧ fn / 4 < 11 then
      only64 f { d2 with dst := .M, out := .fcmp (fcmpPredOf (fn / 4)) ty4 f.mD f.srcA f.srcB } else nofn
  | 0x38 => if fn = 0 then only64 f { d1 with mod := .rm, out := .frcp f.rm f.dst f.srcA } else nofn
  | 0x39 => if fn = 0 then only64 f { d1 with mod := .rm, out := .frsq f.rm f.dst f.srcA } else nofn
  | 0x3A => if fn = 0 then only64 f { d1 with mod := .rm, out := .fsqrt f.rm f.dst f.srcA } else nofn
  | 0x3B => if fn = 0 then only64 f { d1 with mod := .rm, out := .fexp2 f.rm f.dst f.srcA } else nofn
  | 0x3C => if fn = 0 then only64 f { d1 with mod := .rm, out := .flog2 f.rm f.dst f.srcA } else nofn
  | 0x3D => if fn < 3 then only64 f { d1 with out := .fclass ty f.dst f.srcA } else nofn
  | 0x3E => if fn < 3 then withImm f (.val false) { d1 with mod := .rm } (.fscale ty f.rm f.dst f.srcA) else nofn
  | 0x3F => if fn < 3 then only64 f { d1 with mod := .rm, out := .frnd ty f.rm f.dst f.srcA } else nofn
  | 0x40 => if fn / 8 < 3 ∧ fn % 8 < 3 ∧ fn / 8 ≠ fn % 8 then
      only64 f { d1 with mod := .rm, out := .fcvt (cvtFmtOf (fn / 8)) (cvtFmtOf (fn % 8)) f.rm f.dst f.srcA } else nofn
  | 0x41 =>
      let it := intTyOf (fn / 4 % 4)
      if fn % 4 < 3 ∧ fn < 0x10 then
        only64 f { dst := vClass it.is64, a := .val false, mod := .rm,
                   out := .icvt false it (cvtFmtOf (fn % 4)) f.rm f.dst f.srcA }
      else if fn % 4 < 3 ∧ 0x20 ≤ fn ∧ fn < 0x30 then
        only64 f { dst := .V, a := .val it.is64, mod := .rm,
                   out := .icvt true it (cvtFmtOf (fn % 4)) f.rm f.dst f.srcA }
      else nofn
  | 0x42 => if fn = 0 then only64 f { d1 with mod := .qs, out := .qcvtTo f.slot f.rm f.dst f.srcA }
            else if fn = 1 then only64 f { d1 with mod := .qs, out := .qcvtFrom f.slot f.rm f.dst f.srcA }
            else nofn
  | 0x43 => if fn = 1 then only64 f { d2 with mod := .rm, out := .fpack false f.rm f.dst f.srcA f.srcB }
            else if fn = 2 then only64 f { d2 with mod := .rm, out := .fpack true f.rm f.dst f.srcA f.srcB }
            else if fn = 5 then only64 f { d1 with dst := .V2, out := .funpack false f.dst f.srcA }
            else if fn = 6 then only64 f { d1 with dst := .V2, out := .funpack true f.dst f.srcA }
            else nofn
  | 0x44 =>
      let d3 : Fmt := { d2 with c := some (.val false), enc := f.imm18 == 0 }
      if fn = 1 then only96 f { d3 with mod := .rm, out := .fdot2 false f.rm f.dst f.srcA f.srcB f.srcC }
      else if fn = 2 then only96 f { d3 with mod := .rm, out := .fdot2 true f.rm f.dst f.srcA f.srcB f.srcC }
      else if fn = 4 then only96 f { d3 with mod := .qs, out := .fdot4 f.slot f.rm f.dst f.srcA f.srcB f.srcC }
      else nofn
  | 0x45 => if fn / 4 < 5 ∧ fn % 4 < 3 then
      only64 f { d1 with mod := if fn = 0 then .rm else .z,
                         out := .gred (gredOf (fn / 4)) (grpTyOf (fn % 4)) f.rm f.dst f.srcA } else nofn
  | 0x46 => if fn / 4 < 4 ∧ fn % 4 < 3 then
      only64 f { d1 with mod := if fn = 0 ∨ fn = 4 then .rm else .z,
                         out := .gscan (gscanOf (fn / 4)) (grpTyOf (fn % 4)) f.rm f.dst f.srcA } else nofn
  | 0x47 => if fn < 4 then withImm f (if fn = 0 then .val false else .uni) d1 (.gshuf (gshufOf fn) f.dst f.srcA) else nofn
  | _ => if fn < 2 then
      let w := (wdOf fn).is64
      withImmK f { dst := vClass w, a := .val w, out := .nop } (.gbcast (wdOf fn) f.dst f.srcA) else nofn

/-- Memory access class (02 Table 2.15, 07 Table 7.9). -/
def lookupMemory (f : Fields) : Lookup :=
  let fn := f.fn.toNat
  let nofn : Lookup := .noOpcode
  let lv := vClass (ldTyOf fn == .b64)
  let ld (mk : Option Word → Instr) : Lookup :=
    both f { dst := lv, a := .base, b := .off, out := mk none } { dst := lv, a := .base, b := .off, out := mk (some f.imm32) }
  let stOk := fn = 0 ∨ fn = 2 ∨ fn = 4 ∨ fn = 5
  let stF : Fmt := { a := .base, b := .off, c := some (.val (fn == 5)), out := .nop }
  match f.maj.toNat with
  | 0x50 => if fn < 6 then ld (.ld (ldTyOf fn) f.dst f.srcA f.offB) else nofn
  | 0x51 => if stOk then only96 f { stF with out := .st (stTyOf fn) f.srcA f.offB f.imm18 f.srcC } else nofn
  | 0x52 => if fn < 6 then ld (.lld (ldTyOf fn) f.dst f.srcA f.offB) else nofn
  | 0x53 => if stOk then only96 f { stF with out := .lst (stTyOf fn) f.srcA f.offB f.imm18 f.srcC } else nofn
  | 0x54 => if fn < 6 then ld (.cld (ldTyOf fn) f.dst f.srcA f.offB) else nofn
  | 0x55 => if stOk then only96 f { stF with out := .cst (stTyOf fn) f.srcA f.offB f.imm18 f.srcC } else nofn
  | 0x56 => if fn = 0 then
      let esz := (f.hi.extractLsb' 38 3).toNat
      let ext0 : BitVec 6 := f.hi.extractLsb' 32 6
      only128 f { dst := .SD, a := .uni, enc := f.hi.extractLsb' 41 23 == 0 && decide (esz < 6),
                  opd := decide (f.a.toNat ≤ 60) && ext0 != 0 && decide (ext0.toNat ≤ 32),
                  out := .sdset (eszOf esz) f.mD f.kA (f.hi.extractLsb' 0 32) ext0 } else nofn
  | 0x57 => if fn < 12 then only64 f { dst := .V2, a := .shape, out := .sdget (sdItemOf fn) f.dst f.mA } else nofn
  | 0x58 => if fn < 2 then only64 f { dst := vClass (fn == 1), a := .shape, out := .sdrd (wdOf fn) f.dst f.mA } else nofn
  | 0x59 => if fn < 2 then only64 f { a := .shape, b := .val (fn == 1), out := .sdwr (wdOf fn) f.mA f.srcB } else nofn
  | _ => if fn = 0 then only64 f { a := .shape, out := .sdrew f.mA } else nofn

/-- Matrix class (02 Table 2.16, 08 Table 8.5). -/
def lookupMatrix (f : Fields) : Lookup :=
  let fn := f.fn.toNat
  let nofn : Lookup := .noOpcode
  let mm := fn = 0x00 ∨ fn = 0x01 ∨ fn = 0x02 ∨ fn = 0x0A ∨ fn = 0x12 ∨ fn = 0x1A
  let i := f.imm18
  match f.maj.toNat with
  | 0x70 => if fn = 0 then only96 f { a := .uni, c := some .unused, mod := .sl, enc := i.extractLsb' 8 10 == 0,
                                      out := .mls f.slot f.kA (i.extractLsb' 0 8) }
            else if fn = 1 then only96 f { a := .uni, b := .uni, c := some .unused, mod := .sl,
                                           enc := i.extractLsb' 8 10 == 0,
                                           out := .mlsSp f.slot f.kA f.kB (i.extractLsb' 0 8) }
            else nofn
  | 0x71 => if fn = 0 then only64 f { out := .mswap } else nofn
  | 0x72 => if mm then only96 f { a := .stream, c := some .unused, mod := .ms (decide (fn < 2)),
                                  enc := i.extractLsb' 4 14 == 0,
                                  out := .mmq (mmFormOf fn) f.sat f.slot f.mA (i.extractLsb' 0 4) } else nofn
  | 0x73 => if mm then only128 f { a := .stream, b := .uni, mod := .ms (decide (fn < 2)),
                                   enc := f.hi.extractLsb' 32 13 == 0, opd := f.mt.kb != 0,
                                   out := .mtile (mmFormOf fn) f.sat f.slot f.mA f.kB f.mt } else nofn
  | 0x74 => if fn = 0 then only64 f { b := .uni, out := .macz f.kB }
            else if fn = 1 then only64 f { a := .uni, b := .uni, out := .maczFill f.kA f.kB } else nofn
  | 0x75 => if fn < 5 then
      only96 f { a := .uni, b := .uni, c := some .unused, mod := .sl,
                 enc := decide ((i.extractLsb' 8 3).toNat ≤ 4) && i.extractLsb' 11 7 == 0,
                 out := .mdrain (drainOf fn) f.slot f.kA f.kB (i.extractLsb' 0 4) (i.extractLsb' 4 4)
                          (rmOfCode (i.extractLsb' 8 3).toNat) } else nofn
  | 0x76 => if fn < 2 then
      only96 f { a := .stream, c := some .unused, enc := i.extractLsb' 4 4 == 0,
                 out := .msum (fn == 1) (i.getLsbD 17) f.mA (i.extractLsb' 0 4) (i.extractLsb' 8 9) } else nofn
  | _ => if fn = 0 then only64 f { dst := .V, out := .mstat f.dst } else nofn

/-- Copy and time class (02 Table 2.17, 10 Table 10.12). -/
def lookupCopy (f : Fields) : Lookup :=
  let fn := f.fn.toNat
  let nofn : Lookup := .noOpcode
  let rowF : Fmt := { dst := .P, a := .uni, b := .uni, opd := f.rowDesc.ok, out := .nop }
  let idxF : Fmt := { dst := .P, a := .uni, b := .uni, opd := f.idxDesc.ok, out := .nop }
  match f.maj.toNat with
  | 0x80 => if fn = 0 then only128 f { rowF with out := .xcopyIn f.pD f.kA f.kB f.rowDesc }
            else if fn = 1 then only128 f { rowF with out := .xcopyOut f.pD f.kA f.kB f.rowDesc } else nofn
  | 0x81 => if fn = 0 then only128 f { idxF with out := .xgather f.pD f.kA f.kB f.idxDesc } else nofn
  | 0x82 => if fn = 0 then only128 f { idxF with out := .xscatter f.pD f.kA f.kB f.idxDesc }
            else if fn = 1 then only128 f { idxF with out := .xscatterAny f.pD f.kA f.kB f.idxDesc } else nofn
  | 0x83 => if fn % 4 < 2 ∧ fn < 12 then
              only128 f { rowF with out := .xred (redOpOf (fn / 4)) (redTyOf (fn % 4)) f.pD f.kA f.kB f.rowDesc }
            else if fn % 4 < 2 ∧ 32 ≤ fn ∧ fn < 44 then
              only128 f { rowF with out := .xredAny (redOpOf (fn / 4 - 8)) (redTyOf (fn % 4)) f.pD f.kA f.kB f.rowDesc }
            else nofn
  | 0x84 => if fn = 0 then only64 f { dst := .V, a := .promise, mod := .wt, out := .tsleep f.texp f.dst f.pA } else nofn
  | 0x85 => if fn = 0 then only64 f { dst := .V2, out := .tread f.dst } else nofn
  | 0x86 => if fn = 0 then only64 f { dst := .V, a := .promise, out := .xstat f.dst f.pA } else nofn
  | _ => if fn = 0 then only64 f { dst := .V, out := .tresync f.dst } else nofn

/-- Synchronisation class (02 Table 2.18, 12 Table 12.14). -/
def lookupSync (f : Fields) : Lookup :=
  let fn := f.fn.toNat
  let nofn : Lookup := .noOpcode
  let ty := intTyOf (fn % 4)
  let imm16 : BitVec 16 := f.imm32.extractLsb' 0 16
  let immTop := f.imm32.extractLsb' 16 16 == 0
  match f.maj.toNat with
  | 0x90 => if fn < 32 then
      let op := atomOpOf (fn / 4)
      only96 f { dst := vClass ty.is64, a := .base, b := .off,
                 c := some (if op == .cas then .cas ty.is64 else .val ty.is64),
                 out := .atom op ty f.dst f.srcA f.offB f.imm18 f.srcC } else nofn
  | 0x91 => if fn < 24 then
      only96 f { a := .base, b := .off, c := some (.val ty.is64),
                 out := .red (scrRedOpOf (fn / 4)) ty f.srcA f.offB f.imm18 f.srcC } else nofn
  | 0x92 => if fn = 0 then only64 f { dst := .V, a := .uni, b := .uni, mod := .wt,
                                      out := .acq f.texp f.dst f.kA f.kB } else nofn
  | 0x93 => if fn = 0 then only64 f { a := .uni, out := .rel f.kA } else nofn
  | 0x94 => if fn = 0 then
      let t := bindTgtOf f.imm18
      only96 f { a := .uni, b := .uni, c := some .unused,
                 enc := t != .none || f.imm18.extractLsb' 0 16 == 0, opd := t.ok, out := .bind f.kA f.kB t } else nofn
  | 0x95 =>
      if fn = 0 then both f { dst := .V, mod := .wt, out := .barSync f.texp f.dst none }
                            { dst := .V, mod := .wt, enc := immTop, out := .barSync f.texp f.dst (some imm16) }
      else if fn = 1 then both f { out := .barArv none } { opd := arvOk (some f.imm32), out := .barArv (some f.imm32) }
      else if fn = 2 then both f { out := .barArvRlx none }
                                 { opd := arvOk (some f.imm32), out := .barArvRlx (some f.imm32) }
      else if fn = 3 then both f { dst := .V, mod := .wt, out := .barWait f.texp f.dst none }
                                 { dst := .V, mod := .wt, enc := immTop, out := .barWait f.texp f.dst (some imm16) }
      else nofn
  | 0x96 =>
      if fn = 0 then only64 f { dst := .V, a := .uni, b := .uni, mod := .wt, out := .sndPush f.texp f.dst f.kA f.kB }
      else if fn = 1 then only64 f { dst := .V, a := .uni, mod := .wt, out := .sndPop f.texp f.dst f.kA }
      else if fn = 2 then only64 f { dst := .V, a := .uni, out := .sndPeek f.dst f.kA }
      else if fn = 3 then only64 f { a := .uni, b := .uni, out := .sndCfg f.kA f.kB }
      else nofn
  | 0x97 => if fn < 5 then only64 f { out := .fence (scopeOf fn) } else nofn
  | 0x98 => if fn = 0 then
      let q1 : BitVec 3 := f.mod.extractLsb' 0 3
      let q2 : BitVec 3 := f.mod.extractLsb' 3 3
      only64 f { mod := .xf, opd := q1 != q2, out := .xfence q1 q2 } else nofn
  | _ => if fn = 0 then
      both f { dst := .V, a := .uni, b := .uni, mod := .wt, out := .wait f.texp f.dst f.kA (.k f.kB) }
             { dst := .V, a := .uni, mod := .wt, enc := immTop, out := .wait f.texp f.dst f.kA (.imm f.imm32) } else nofn

/-- Collective and launch classes (02 Tables 2.19 and 2.20, 13 Table 13.9, 03 Table 3.14). -/
def lookupLaunch (f : Fields) : Lookup :=
  let fn := f.fn.toNat
  if fn ≠ 0 then .noOpcode else
  match f.maj.toNat with
  | 0xA0 => only64 f { dst := .V, a := .uni, mod := .wt, out := .cwait f.texp f.dst f.kA }
  | 0xA1 => only64 f { a := .uni, out := .cnext f.kA }
  | 0xA2 => only64 f { dst := .V, a := .uni, out := .cstat f.dst f.kA }
  | 0xB0 => only64 f { dst := .K, a := .uni, b := .uni, mod := .ln, out := .launch f.sat f.kD f.kA f.kB }
  | 0xB1 => only64 f { dst := .V, a := .uni, mod := .wt, out := .lwait f.texp f.dst f.kA }
  | 0xB2 => only64 f { dst := .V, a := .uni, out := .lstat f.dst f.kA }
  | 0xB3 => only64 f { dst := .V, a := .uni, out := .lcancel f.dst f.kA }
  | _ => only64 f { dst := .V2, mod := .sl, out := .fmtq f.slot f.dst }

/-- Traps, system and debug class (02 Table 2.21, 15 Table 15.15). -/
def lookupTrap (f : Fields) : Lookup :=
  let fn := f.fn.toNat
  let nofn : Lookup := .noOpcode
  let srn : BitVec 16 := f.imm32.extractLsb' 0 16
  let srnEnc := f.imm32.extractLsb' 16 16 == 0
  let srnOk := (Machine.srnWidth srn.toNat).isSome
  let w := srnIs64 srn
  let itemEnc := f.imm32.extractLsb' 5 3 == 0
  match f.maj.toNat with
  | 0xC0 => if fn = 0 then both f { out := .trap none } { out := .trap (some f.imm32) } else nofn
  | 0xC1 => if fn = 0 then only64 f { out := .tret } else nofn
  | 0xC2 => if fn = 0 then
      only96 f { dst := vClass w, enc := srnEnc, opd := srnOk, out := .sysrd f.dst srn } else nofn
  | 0xC3 => if fn = 0 then
      only96 f { a := .valNoStream w, enc := srnEnc, opd := srnOk, out := .syswr f.srcA srn } else nofn
  | 0xC4 => if fn < 4 then only64 f { dst := .V2, out := .tinfo (tinfoOf fn) f.dst } else nofn
  | 0xC5 => if fn = 0 then only64 f { out := .tkillGroup } else if fn = 1 then only64 f { out := .tkillCtb } else nofn
  | 0xC6 => if fn = 0 then
      only96 f { dst := .V, enc := itemEnc, opd := Machine.hitemOk f.hitem, out := .hread f.dst f.hitem } else nofn
  | 0xC7 => if fn = 0 then
      only96 f { a := .val false, enc := itemEnc, opd := Machine.hitemOk f.hitem, out := .hwrite f.srcA f.hitem } else nofn
  | 0xC8 => if fn = 0 then only64 f { dst := .V, a := .uni, out := .hstepLane f.dst f.kA }
            else if fn = 1 then only64 f { dst := .V, a := .uni, out := .hstepCursor f.dst f.kA } else nofn
  | 0xC9 => if fn = 0 then only64 f { a := .uniOpt, out := .hgo (if f.ak == 2 then some f.kA else none) } else nofn
  | 0xCA => if fn = 0 then only96 f { a := .uni, b := .uni, enc := f.imm32.extractLsb' 11 5 == 0,
                                      out := .bcnArm f.kA f.kB f.bcn }
            else if fn = 1 then only96 f { enc := f.imm32.extractLsb' 4 28 == 0, out := .bcnOff (f.imm32.extractLsb' 0 4) }
            else nofn
  | _ => if fn = 0 then both f { a := .uni, out := .emit (.k f.kA) } { out := .emit (.imm f.imm32) } else nofn

/-- The opcode map (02 R76): steps 4 to 6 of Table 2.9. -/
def lookup (f : Fields) : Lookup :=
  let m := f.maj.toNat
  if m ≤ 0x0F then lookupControl f
  else if m ≤ 0x2F then lookupInteger f
  else if m ≤ 0x48 then (if 0x30 ≤ m then lookupFloat f else .noOpcode)
  else if 0x50 ≤ m ∧ m ≤ 0x5A then lookupMemory f
  else if 0x70 ≤ m ∧ m ≤ 0x77 then lookupMatrix f
  else if 0x80 ≤ m ∧ m ≤ 0x87 then lookupCopy f
  else if 0x90 ≤ m ∧ m ≤ 0x99 then lookupSync f
  else if (0xA0 ≤ m ∧ m ≤ 0xA2) ∨ (0xB0 ≤ m ∧ m ≤ 0xB4) then lookupLaunch f
  else if 0xC0 ≤ m ∧ m ≤ 0xCB then lookupTrap f
  else .noOpcode

/-- Step 7 of 02 Table 2.9 for a row: no reserved bit is set. -/
def rowEnc (f : Fields) (r : Fmt) : Bool :=
  modEnc r.mod f.mod && dstEnc r.dst f && roleEnc r.a f.a f.ak f.al && roleEnc r.b f.b f.bk f.bl
    && (match r.c with | some rc => roleEnc rc f.c f.ck f.cl | none => true) && r.enc

/-- Step 8 of 02 Table 2.9 for a row: each operand kind and index is permitted. -/
def rowOpd (f : Fields) (r : Fmt) : Bool :=
  dstOpd r.dst f && roleOpd r.a f.a f.ak && roleOpd r.b f.b f.bk
    && (match r.c with | some rc => roleOpd rc f.c f.ck | none => true) && r.opd

/-- Decoding of trimmed fields: the first failed step of 02 Table 2.9, or the instruction. -/
def decodeFields (f : Fields) : Except DecodeErr Instr :=
  match lookup f with
  | .noOpcode => .error .illegalOpcode
  | .badLen => .error .illegalEncoding
  | .row r =>
    if rowEnc f r then
      if rowOpd f r then .ok r.out else .error .illegalOperand
    else .error .illegalEncoding

/-- Decoding of a word (02 R71, R73). -/
def decode (w : BitVec 128) : Except DecodeErr Instr :=
  let f := unpack w
  if f.len == 3 then .error .illegalEncoding else decodeFields (trimHi f)

/-- The word of the bytes at an address, the lowest address first (02 R36, 00 R3); missing bytes are zero. -/
def wordOfBytes : Nat → List Byte → Nat
  | 0, _ => 0
  | _ + 1, [] => 0
  | n + 1, b :: bs => b.toNat + 256 * wordOfBytes n bs

/-- Decoding of a list of bytes: the instruction and its length in bytes. -/
def decodeBytes (bs : List Byte) : Except DecodeErr (Instr × Nat) :=
  let w := BitVec.ofNat 128 (wordOfBytes 16 bs)
  match decode w with
  | .ok i => .ok (i, lenBytes (unpack w).len)
  | .error e => .error e

/-- The bytes of an instruction of `n` bytes whose bits are `w`, the lowest address first. -/
def bytesOfWord : Nat → Nat → List Byte
  | 0, _ => []
  | n + 1, w => BitVec.ofNat 8 (w % 256) :: bytesOfWord n (w / 256)

/-- What the decoder reads from an instruction whose bits are `w`; the bits above `nbits` are zero. -/
def decodeTableWord (nbits w : Nat) : Option Instr :=
  match decodeBytes (bytesOfWord 16 (w % 2 ^ nbits)) with
  | .ok (i, _) => some i
  | .error _ => none

/-! The encoder (02 R42 to R52, Tables 2.2, 2.3, 2.10 to 2.21 and the encoding tables of the class chapters). -/

def Src.code : Src → BitVec 11
  | .v n _ => n
  | .b n => n.setWidth 11
  | .k n => n.setWidth 11
  | .sd n => n.setWidth 11
def Src.kind : Src → BitVec 2
  | .v _ _ => 0
  | .b _ => 1
  | .k _ => 2
  | .sd _ => 3
def Src.lastBit : Src → BitVec 1
  | .v _ l => BitVec.ofBool l
  | _ => 0

/-- A base format with every field zero but LEN, MAJ and FN. -/
def opc (len : BitVec 2) (maj : BitVec 8) (fn : BitVec 6) : Fields :=
  { len, maj, fn, d := 0, dl := 0, wb := 0, a := 0, ak := 0, al := 0, b := 0, bk := 0, bl := 0, mod := 0, hi := 0 }

def Fields.withD (f : Fields) (d : Dst) : Fields :=
  match d with
  | .reg n l => { f with d := n, dl := l, wb := 0 }
  | .latch l => { f with d := 0, dl := l, wb := 1 }
def Fields.withSA (f : Fields) (s : Src) : Fields := { f with a := s.code, ak := s.kind, al := s.lastBit }
def Fields.withSB (f : Fields) (s : Src) : Fields := { f with b := s.code, bk := s.kind, bl := s.lastBit }
def Fields.withSC (f : Fields) (s : Src) : Fields := { f with hi := cForm 0 s.lastBit s.kind s.code }
def Fields.withSCimm (f : Fields) (s : Src) (i : BitVec 18) : Fields := { f with hi := cForm i s.lastBit s.kind s.code }
def Fields.withImm18 (f : Fields) (i : BitVec 18) : Fields := { f with hi := cForm i 0 0 0 }
def Fields.withImm32 (f : Fields) (w : Word) : Fields := { f with hi := w.setWidth 64 }
/-- B from a source (the 64 form) or from IMM32 (the 96i form, LEN 0b01). -/
def Fields.withOpB (f : Fields) (o : OpB) : Fields :=
  match o with
  | .src s => f.withSB s
  | .imm w => { f with len := 1, hi := w.setWidth 64 }
/-- As `withOpB`, where the value stands in position A. -/
def Fields.withOpBA (f : Fields) (o : OpB) : Fields :=
  match o with
  | .src s => f.withSA s
  | .imm w => { f with len := 1, hi := w.setWidth 64 }
def Fields.withKA (f : Fields) (n : BitVec 6) : Fields := { f with a := n.setWidth 11, ak := 2 }
def Fields.withKB (f : Fields) (n : BitVec 6) : Fields := { f with b := n.setWidth 11, bk := 2 }
def Fields.withKD (f : Fields) (n : BitVec 6) : Fields := { f with d := n.setWidth 11 }
def Fields.withOpKA (f : Fields) (o : OpK) : Fields :=
  match o with
  | .k n => f.withKA n
  | .imm w => { f with len := 1, hi := w.setWidth 64 }
def Fields.withOpKB (f : Fields) (o : OpK) : Fields :=
  match o with
  | .k n => f.withKB n
  | .imm w => { f with len := 1, hi := w.setWidth 64 }
def Fields.withMA (f : Fields) (n : BitVec 4) : Fields := { f with a := n.setWidth 11 }
def Fields.withMB (f : Fields) (n : BitVec 4) : Fields := { f with b := n.setWidth 11 }
def Fields.withMD (f : Fields) (n : BitVec 4) : Fields := { f with d := n.setWidth 11 }
def Fields.withPA (f : Fields) (n : BitVec 3) : Fields := { f with a := n.setWidth 11 }
def Fields.withPD (f : Fields) (n : BitVec 3) : Fields := { f with d := n.setWidth 11 }
def Fields.withSD (f : Fields) (n : BitVec 4) : Fields := { f with a := n.setWidth 11, ak := 3 }
def Fields.withVA (f : Fields) (n : BitVec 11) (last : Bool) : Fields := { f with a := n, al := BitVec.ofBool last }
def Fields.withMod (f : Fields) (m : BitVec 6) : Fields := { f with mod := m }
def Fields.withHi (f : Fields) (h : BitVec 64) : Fields := { f with hi := h }
/-- The offset operand of a memory operand: absent is the all-zero field (07 R208). -/
def Fields.withOff (f : Fields) (o : Option Src) : Fields :=
  match o with
  | none => f
  | some s => f.withSB s
/-- The displacement of a load: present in the 96i form. -/
def Fields.withDisp (f : Fields) (o : Option Word) : Fields :=
  match o with
  | none => f
  | some w => { f with len := 1, hi := w.setWidth 64 }

def RM.code : RM → BitVec 3
  | .rne => 0
  | .rna => 1
  | .rtz => 2
  | .rup => 3
  | .rdn => 4
def RM.mod (r : RM) : BitVec 6 := r.code.setWidth 6
def satMod (s : Bool) : BitVec 6 := (BitVec.ofBool s).setWidth 6
def slotMod (slot low : BitVec 3) : BitVec 6 := slot ++ low
def texpMod (t : BitVec 5) : BitVec 6 := t.setWidth 6
def IntTy.code : IntTy → BitVec 6
  | .i32 => 0
  | .n32 => 1
  | .i64 => 2
  | .n64 => 3
def Wd.code : Wd → BitVec 6
  | .w32 => 0
  | .w64 => 1
def FltTy.code : FltTy → BitVec 6
  | .f32 => 0
  | .f16x2 => 1
  | .bf16x2 => 2
def CvtFmt.code : CvtFmt → BitVec 6
  | .f32 => 0
  | .f16 => 1
  | .bf16 => 2
def GrpTy.code : GrpTy → BitVec 6
  | .f32 => 0
  | .i32 => 1
  | .n32 => 2
def LdTy.code : LdTy → BitVec 6
  | .n8 => 0
  | .i8 => 1
  | .n16 => 2
  | .i16 => 3
  | .b32 => 4
  | .b64 => 5
def StTy.code : StTy → BitVec 6
  | .b8 => 0
  | .b16 => 2
  | .b32 => 4
  | .b64 => 5
def BrCond.code : BrCond → BitVec 6
  | .eq => 0
  | .ne => 1
  | .lt => 2
  | .ge => 3
  | .ltn => 4
  | .gen => 5
  | .z => 6
  | .nz => 7
def CmpPred.code : CmpPred → BitVec 6
  | .eq => 0
  | .ne => 1
  | .lt => 2
  | .le => 3
  | .gt => 4
  | .ge => 5
def FcmpPred.code : FcmpPred → BitVec 6
  | .eq => 0
  | .ne => 1
  | .lt => 2
  | .le => 3
  | .gt => 4
  | .ge => 5
  | .un => 6
  | .ord => 7
  | .tlt => 8
  | .tle => 9
  | .teq => 10
def SregItem.code : SregItem → BitVec 6
  | .lane => 0
  | .group => 1
  | .stage => 2
  | .x => 3
  | .y => 4
  | .z => 5
  | .row => 6
  | .col => 7
  | .slot => 8
  | .block => 9
  | .ngroups => 10
  | .nlanes => 11
def Window.code : Window → BitVec 6
  | .lane => 1
  | .shared => 2
  | .cluster => 3
def Space.code : Space → BitVec 6
  | .global => 0
  | .lane => 1
  | .shared => 2
  | .cluster => 3
def GredOp.code : GredOp → BitVec 6
  | .add => 0
  | .min => 1
  | .max => 2
  | .argmin => 3
  | .argmax => 4
def GscanOp.code : GscanOp → BitVec 6
  | .add => 0
  | .addx => 1
  | .min => 2
  | .max => 3
def GshufMode.code : GshufMode → BitVec 6
  | .idx => 0
  | .up => 1
  | .down => 2
  | .xor => 3
def Esz.code : Esz → BitVec 3
  | .b32 => 0
  | .n16 => 1
  | .i16 => 2
  | .n8 => 3
  | .i8 => 4
  | .b64 => 5
def SdItem.code : SdItem → BitVec 6
  | .base => 0
  | .stride n => 1 + BitVec.ofNat 6 n.val
  | .extent n => 6 + BitVec.ofNat 6 n.val
  | .pos => 11
def MmForm.code : MmForm → BitVec 6
  | .bf16 => 0
  | .b8 => 1
  | .int false false => 0x02
  | .int true false => 0x0A
  | .int false true => 0x12
  | .int true true => 0x1A
def DrainOut.code : DrainOut → BitVec 6
  | .f32 => 0
  | .bf16 => 1
  | .i8 => 2
  | .n8 => 3
  | .i32 => 4
def RedOp.code : RedOp → BitVec 6
  | .add => 0
  | .min => 1
  | .max => 2
def RedTy.code : RedTy → BitVec 6
  | .f32 => 0
  | .i32 => 1
def AtomOp.code : AtomOp → BitVec 6
  | .add => 0
  | .min => 1
  | .max => 2
  | .and => 3
  | .or => 4
  | .xor => 5
  | .exch => 6
  | .cas => 7
def ScrRedOp.code : ScrRedOp → BitVec 6
  | .add => 0
  | .min => 1
  | .max => 2
  | .and => 3
  | .or => 4
  | .xor => 5
def Scope.code : Scope → BitVec 6
  | .group => 0
  | .ctb => 1
  | .reach => 2
  | .device => 3
  | .pod => 4
def TinfoItem.code : TinfoItem → BitVec 6
  | .cause => 0
  | .pc => 1
  | .addr => 2
  | .lane => 3

def BrxDesc.word (t : BrxDesc) : BitVec 64 := t.joff ++ t.n ++ t.toff
def MtDesc.word (t : MtDesc) : BitVec 64 := t.kb ++ t.nbm ++ t.tile ++ t.psl ++ (0 : BitVec 13) ++ t.nstr
def RowDesc.word (t : RowDesc) : BitVec 64 := t.rows ++ t.rbytes ++ t.gpitch
def IdxDesc.word (t : IdxDesc) : BitVec 64 := t.n ++ t.rowb ++ t.pitch
def HItem.word (w : HItem) : Word := w.index ++ w.item ++ (0 : BitVec 3) ++ w.group
def BcnWord.word (w : BcnWord) : Word := w.count ++ (0 : BitVec 5) ++ w.action ++ w.cmp ++ w.kind ++ w.n
def BindTgt.word : BindTgt → BitVec 18
  | .obj n => (0 : BitVec 2) ++ n
  | .bar d => (1 : BitVec 2) ++ d
  | .snd n => (2 : BitVec 2) ++ n
  | .none => (3 : BitVec 2) ++ (0 : BitVec 16)

def barForm (f : Fields) (e : Option (BitVec 16)) : Fields :=
  match e with
  | none => f
  | some x => { f with len := 1, hi := x.setWidth 64 }

def arvForm (f : Fields) (r : Option Word) : Fields :=
  match r with
  | none => f
  | some w => { f with len := 1, hi := w.setWidth 64 }

/-- The fields that stand for an instruction; `none` for the steps of the device, which no word encodes. -/
def encodeFields : Instr → Option Fields
  | .nop => some (opc 0 0x00 0)
  | .br off => some ((opc 1 0x01 0).withImm32 off)
  | .brc cc a b off =>
    let f := ((opc 1 0x02 cc.code).withKA a).withImm32 off
    some (match cc with | .z | .nz => f | _ => f.withKB b)
  | .loop d a off => some ((((opc 1 0x03 0).withKD d).withKA a).withImm32 off)
  | .call d off => some (((opc 1 0x04 0).withKD d).withImm32 off)
  | .callK d a => some (((opc 0 0x04 1).withKD d).withKA a)
  | .ret a => some ((opc 0 0x05 0).withKA a)
  | .brxK a t => some (((opc 2 0x06 0).withKA a).withHi t.word)
  | .brxV a last t => some (((opc 2 0x06 1).withVA a last).withHi t.word)
  | .mif neg a => some ((opc 0 0x07 ((BitVec.ofBool neg).setWidth 6)).withMA a)
  | .melse => some (opc 0 0x08 0)
  | .mend => some (opc 0 0x09 0)
  | .mset a => some ((opc 0 0x0A 0).withMA a)
  | .msetAll => some (opc 0 0x0A 1)
  | .mrest a => some ((opc 0 0x0C 1).withMA a)
  | .msave d => some ((opc 0 0x0C 0).withMD d)
  | .mand d a b => some ((((opc 0 0x0B 0).withMD d).withMA a).withMB b)
  | .mor d a b => some ((((opc 0 0x0B 1).withMD d).withMA a).withMB b)
  | .mxor d a b => some ((((opc 0 0x0B 2).withMD d).withMA a).withMB b)
  | .mandn d a b => some ((((opc 0 0x0B 3).withMD d).withMA a).withMB b)
  | .mnot d a => some (((opc 0 0x0B 4).withMD d).withMA a)
  | .mmov d a => some (((opc 0 0x0B 5).withMD d).withMA a)
  | .mcnt d a => some (((opc 0 0x0D 0).withD d).withMA a)
  | .mfirst d a => some (((opc 0 0x0D 1).withD d).withMA a)
  | .passE d a last => some (((opc 0 0x0E 0).withD d).withVA a last)
  | .passS d a last => some (((opc 0 0x0E 1).withD d).withVA a last)
  | .endG => some (opc 0 0x0F 0)
  | .add ty s d a b => some (((((opc 0 0x10 ty.code).withD d).withSA a).withOpB b).withMod (satMod s))
  | .sub ty s d a b => some (((((opc 0 0x11 ty.code).withD d).withSA a).withOpB b).withMod (satMod s))
  | .mul ty d a b => some ((((opc 0 0x12 ty.code).withD d).withSA a).withOpB b)
  | .mulh ty d a b => some ((((opc 0 0x13 ty.code).withD d).withSA a).withSB b)
  | .mad ty s d a b c => some ((((((opc 1 0x14 ty.code).withD d).withSA a).withSB b).withSC c).withMod (satMod s))
  | .div ty d a b => some ((((opc 0 0x15 ty.code).withD d).withSA a).withSB b)
  | .rem ty d a b => some ((((opc 0 0x16 ty.code).withD d).withSA a).withSB b)
  | .min ty d a b => some ((((opc 0 0x17 ty.code).withD d).withSA a).withOpB b)
  | .max ty d a b => some ((((opc 0 0x18 ty.code).withD d).withSA a).withOpB b)
  | .abs w s d a => some ((((opc 0 0x19 (2 * w.code)).withD d).withSA a).withMod (satMod s))
  | .neg w s d a => some ((((opc 0 0x19 (4 + 2 * w.code)).withD d).withSA a).withMod (satMod s))
  | .and w d a b => some ((((opc 0 0x1A w.code).withD d).withSA a).withOpB b)
  | .or w d a b => some ((((opc 0 0x1B w.code).withD d).withSA a).withOpB b)
  | .xor w d a b => some ((((opc 0 0x1C w.code).withD d).withSA a).withOpB b)
  | .andn w d a b => some ((((opc 0 0x1D w.code).withD d).withSA a).withOpB b)
  | .shl w d a b => some ((((opc 0 0x1E w.code).withD d).withSA a).withOpB b)
  | .shr ty d a b => some ((((opc 0 0x1F ty.code).withD d).withSA a).withOpB b)
  | .rot w d a b => some ((((opc 0 0x20 w.code).withD d).withSA a).withOpB b)
  | .popc w d a => some (((opc 0 0x21 w.code).withD d).withSA a)
  | .clz w d a => some (((opc 0 0x21 (4 + w.code)).withD d).withSA a)
  | .ctz w d a => some (((opc 0 0x21 (8 + w.code)).withD d).withSA a)
  | .brev w d a => some (((opc 0 0x21 (12 + w.code)).withD d).withSA a)
  | .bfx ty d a pos len => some ((((opc 1 0x22 ty.code).withD d).withSA a).withImm18 ((0 : BitVec 2) ++ len ++ pos))
  | .bfi w d a b pos len =>
    some (((((opc 1 0x23 w.code).withD d).withSA a).withSB b).withImm18 ((0 : BitVec 2) ++ len ++ pos))
  | .cmp p ty d a b => some ((((opc 0 0x24 (4 * p.code + ty.code)).withMD d).withSA a).withOpB b)
  | .sel w d a b c => some (((((opc 1 0x25 w.code).withD d).withSA a).withSB b).withHi (cForm 0 0 0 (c.setWidth 11)))
  | .mov w d a => some (((opc 0 0x26 w.code).withD d).withOpBA a)
  | .kadd d a b => some ((((opc 0 0x27 0).withKD d).withKA a).withOpKB b)
  | .ksub d a b => some ((((opc 0 0x27 1).withKD d).withKA a).withOpKB b)
  | .kmul d a b => some ((((opc 0 0x27 2).withKD d).withKA a).withOpKB b)
  | .kshl d a b => some ((((opc 0 0x27 3).withKD d).withKA a).withOpKB b)
  | .kshr d a b => some ((((opc 0 0x27 4).withKD d).withKA a).withOpKB b)
  | .kand d a b => some ((((opc 0 0x27 5).withKD d).withKA a).withOpKB b)
  | .kor d a b => some ((((opc 0 0x27 6).withKD d).withKA a).withOpKB b)
  | .kmov d a => some (((opc 0 0x27 7).withKD d).withOpKA a)
  | .kli d (.imm32 xs w) => some ((((opc 1 0x27 8).withKD d).withVA (BitVec.ofBool xs |>.setWidth 11) false).withImm32 w)
  | .kli d (.imm64 w) => some (((opc 2 0x27 8).withKD d).withHi w)
  | .lea d a b disp => some (((((opc 1 0x28 0).withD d).withSA a).withSB b).withImm32 disp)
  | .acvTo w d a => some (((opc 0 0x29 w.code).withD d).withSA a)
  | .acvFrom w d a => some (((opc 0 0x29 (4 + w.code)).withD d).withSA a)
  | .ats sp d a => some (((opc 0 0x2A sp.code).withMD d).withSA a)
  | .sreg it d => some ((opc 0 0x2B it.code).withD d)
  | .ixset ix a => some ((opc 0 0x2E (ix.setWidth 6)).withOpBA a)
  | .ixadd ix a => some ((opc 0 0x2E (4 + ix.setWidth 6)).withOpBA a)
  | .vget ix d base disp len =>
    some ((((opc 1 0x2C (ix.setWidth 6)).withD d).withVA base false).withImm32 (disp ++ (0 : BitVec 7) ++ len))
  | .vput ix base b disp len =>
    some ((((opc 1 0x2D (ix.setWidth 6)).withVA base false).withSB b).withImm32 (disp ++ (0 : BitVec 7) ++ len))
  | .rgrow d a => some (((opc 0 0x2F 0).withD d).withOpKA a)
  | .rshrink d a => some (((opc 0 0x2F 1).withD d).withOpKA a)
  | .rquery { dst := d, imm := none } => some ((opc 0 0x2F 2).withD d)
  | .rquery { dst := d, imm := some w } => some (((opc 1 0x2F 2).withD d).withImm32 w)
  | .fadd ty rm d a b => some (((((opc 0 0x30 ty.code).withD d).withSA a).withOpB b).withMod rm.mod)
  | .fsub ty rm d a b => some (((((opc 0 0x31 ty.code).withD d).withSA a).withOpB b).withMod rm.mod)
  | .fmul ty rm d a b => some (((((opc 0 0x32 ty.code).withD d).withSA a).withOpB b).withMod rm.mod)
  | .fma ty rm d a b c => some ((((((opc 1 0x33 ty.code).withD d).withSA a).withSB b).withSC c).withMod rm.mod)
  | .fmin ty d a b => some ((((opc 0 0x34 ty.code).withD d).withSA a).withSB b)
  | .fmax ty d a b => some ((((opc 0 0x35 ty.code).withD d).withSA a).withSB b)
  | .fabs ty d a => some (((opc 0 0x36 ty.code).withD d).withSA a)
  | .fneg ty d a => some (((opc 0 0x36 (4 + ty.code)).withD d).withSA a)
  | .fcopysign ty d a b => some ((((opc 0 0x36 (8 + ty.code)).withD d).withSA a).withSB b)
  | .fcmp p ty d a b => some ((((opc 0 0x37 (4 * p.code + ty.code)).withMD d).withSA a).withSB b)
  | .frcp rm d a => some ((((opc 0 0x38 0).withD d).withSA a).withMod rm.mod)
  | .frsq rm d a => some ((((opc 0 0x39 0).withD d).withSA a).withMod rm.mod)
  | .fsqrt rm d a => some ((((opc 0 0x3A 0).withD d).withSA a).withMod rm.mod)
  | .fexp2 rm d a => some ((((opc 0 0x3B 0).withD d).withSA a).withMod rm.mod)
  | .flog2 rm d a => some ((((opc 0 0x3C 0).withD d).withSA a).withMod rm.mod)
  | .fclass ty d a => some (((opc 0 0x3D ty.code).withD d).withSA a)
  | .fscale ty rm d a b => some (((((opc 0 0x3E ty.code).withD d).withSA a).withOpB b).withMod rm.mod)
  | .frnd ty rm d a => some ((((opc 0 0x3F ty.code).withD d).withSA a).withMod rm.mod)
  | .fcvt dst src rm d a => some ((((opc 0 0x40 (8 * dst.code + src.code)).withD d).withSA a).withMod rm.mod)
  | .icvt toF it fc rm d a =>
    some ((((opc 0 0x41 ((if toF then 0x20 else 0) + 4 * it.code + fc.code)).withD d).withSA a).withMod rm.mod)
  | .qcvtTo slot rm d a => some ((((opc 0 0x42 0).withD d).withSA a).withMod (slotMod slot rm.code))
  | .qcvtFrom slot rm d a => some ((((opc 0 0x42 1).withD d).withSA a).withMod (slotMod slot rm.code))
  | .fpack bf rm d a b =>
    some (((((opc 0 0x43 (if bf then 2 else 1)).withD d).withSA a).withSB b).withMod rm.mod)
  | .funpack bf d a => some (((opc 0 0x43 (if bf then 6 else 5)).withD d).withSA a)
  | .fdot2 bf rm d a b c =>
    some ((((((opc 1 0x44 (if bf then 2 else 1)).withD d).withSA a).withSB b).withSC c).withMod rm.mod)
  | .fdot4 slot rm d a b c =>
    some ((((((opc 1 0x44 4).withD d).withSA a).withSB b).withSC c).withMod (slotMod slot rm.code))
  | .gred op gt rm d a => some ((((opc 0 0x45 (4 * op.code + gt.code)).withD d).withSA a).withMod rm.mod)
  | .gscan op gt rm d a => some ((((opc 0 0x46 (4 * op.code + gt.code)).withD d).withSA a).withMod rm.mod)
  | .gshuf m d a b => some ((((opc 0 0x47 m.code).withD d).withSA a).withOpB b)
  | .gbcast w d a b => some ((((opc 0 0x48 w.code).withD d).withSA a).withOpKB b)
  | .ld ty d base off disp => some (((((opc 0 0x50 ty.code).withD d).withSA base).withOff off).withDisp disp)
  | .lld ty d base off disp => some (((((opc 0 0x52 ty.code).withD d).withSA base).withOff off).withDisp disp)
  | .cld ty d base off disp => some (((((opc 0 0x54 ty.code).withD d).withSA base).withOff off).withDisp disp)
  | .st ty base off disp c => some ((((opc 1 0x51 ty.code).withSA base).withOff off).withSCimm c disp)
  | .lst ty base off disp c => some ((((opc 1 0x53 ty.code).withSA base).withOff off).withSCimm c disp)
  | .cst ty base off disp c => some ((((opc 1 0x55 ty.code).withSA base).withOff off).withSCimm c disp)
  | .sdset esz sd a base ext0 =>
    some ((((opc 2 0x56 0).withMD sd).withKA a).withHi ((0 : BitVec 23) ++ esz.code ++ ext0 ++ base))
  | .sdget it d sd => some (((opc 0 0x57 it.code).withD d).withSD sd)
  | .sdrd w d sd => some (((opc 0 0x58 w.code).withD d).withSD sd)
  | .sdwr w sd b => some (((opc 0 0x59 w.code).withSD sd).withSB b)
  | .sdrew sd => some ((opc 0 0x5A 0).withSD sd)
  | .mls slot a six => some ((((opc 1 0x70 0).withKA a).withImm18 (six.setWidth 18)).withMod (slotMod slot 0))
  | .mlsSp slot a b six =>
    some (((((opc 1 0x70 1).withKA a).withKB b).withImm18 (six.setWidth 18)).withMod (slotMod slot 0))
  | .mswap => some (opc 0 0x71 0)
  | .mmq fm s slot sd tile =>
    some ((((opc 1 0x72 fm.code).withSD sd).withImm18 (tile.setWidth 18)).withMod (slotMod slot ((BitVec.ofBool s).setWidth 3)))
  | .mtile fm s slot sd b t =>
    some (((((opc 2 0x73 fm.code).withSD sd).withKB b).withHi t.word).withMod (slotMod slot ((BitVec.ofBool s).setWidth 3)))
  | .macz b => some ((opc 0 0x74 0).withKB b)
  | .maczFill a b => some (((opc 0 0x74 1).withKA a).withKB b)
  | .mdrain o slot a b tile vix rm =>
    some (((((opc 1 0x75 o.code).withKA a).withKB b).withImm18 ((0 : BitVec 7) ++ rm.code ++ vix ++ tile)).withMod (slotMod slot 0))
  | .msum sg s sd tile mult =>
    some (((opc 1 0x76 ((BitVec.ofBool sg).setWidth 6)).withSD sd).withImm18 (BitVec.ofBool s ++ mult ++ (0 : BitVec 4) ++ tile))
  | .mstat d => some ((opc 0 0x77 0).withD d)
  | .xcopyIn p a b t => some (((((opc 2 0x80 0).withPD p).withKA a).withKB b).withHi t.word)
  | .xcopyOut p a b t => some (((((opc 2 0x80 1).withPD p).withKA a).withKB b).withHi t.word)
  | .xgather p a b t => some (((((opc 2 0x81 0).withPD p).withKA a).withKB b).withHi t.word)
  | .xscatter p a b t => some (((((opc 2 0x82 0).withPD p).withKA a).withKB b).withHi t.word)
  | .xscatterAny p a b t => some (((((opc 2 0x82 1).withPD p).withKA a).withKB b).withHi t.word)
  | .xred op ty p a b t => some (((((opc 2 0x83 (4 * op.code + ty.code)).withPD p).withKA a).withKB b).withHi t.word)
  | .xredAny op ty p a b t =>
    some (((((opc 2 0x83 (0x20 + 4 * op.code + ty.code)).withPD p).withKA a).withKB b).withHi t.word)
  | .tsleep t d p => some ((((opc 0 0x84 0).withD d).withPA p).withMod (texpMod t))
  | .tread d => some ((opc 0 0x85 0).withD d)
  | .xstat d p => some (((opc 0 0x86 0).withD d).withPA p)
  | .tresync d => some ((opc 0 0x87 0).withD d)
  | .atom op ty d base off disp c =>
    some (((((opc 1 0x90 (4 * op.code + ty.code)).withD d).withSA base).withOff off).withSCimm c disp)
  | .red op ty base off disp c =>
    some ((((opc 1 0x91 (4 * op.code + ty.code)).withSA base).withOff off).withSCimm c disp)
  | .acq t d a b => some (((((opc 0 0x92 0).withD d).withKA a).withKB b).withMod (texpMod t))
  | .rel a => some ((opc 0 0x93 0).withKA a)
  | .wait t d a b => some (((((opc 0 0x99 0).withD d).withKA a).withOpKB b).withMod (texpMod t))
  | .bind a b t => some ((((opc 1 0x94 0).withKA a).withKB b).withImm18 t.word)
  | .barSync t d e => some ((barForm ((opc 0 0x95 0).withD d) e).withMod (texpMod t))
  | .barArv r => some (arvForm (opc 0 0x95 1) r)
  | .barArvRlx r => some (arvForm (opc 0 0x95 2) r)
  | .barWait t d e => some ((barForm ((opc 0 0x95 3).withD d) e).withMod (texpMod t))
  | .sndPush t d a b => some (((((opc 0 0x96 0).withD d).withKA a).withKB b).withMod (texpMod t))
  | .sndPop t d a => some ((((opc 0 0x96 1).withD d).withKA a).withMod (texpMod t))
  | .sndPeek d a => some (((opc 0 0x96 2).withD d).withKA a)
  | .sndCfg a b => some (((opc 0 0x96 3).withKA a).withKB b)
  | .fence sc => some (opc 0 0x97 sc.code)
  | .xfence q1 q2 => some ((opc 0 0x98 0).withMod (q2 ++ q1))
  | .cwait t d a => some ((((opc 0 0xA0 0).withD d).withKA a).withMod (texpMod t))
  | .cnext a => some ((opc 0 0xA1 0).withKA a)
  | .cstat d a => some (((opc 0 0xA2 0).withD d).withKA a)
  | .launch late d a b => some (((((opc 0 0xB0 0).withKD d).withKA a).withKB b).withMod (satMod late))
  | .lwait t d a => some ((((opc 0 0xB1 0).withD d).withKA a).withMod (texpMod t))
  | .lstat d a => some (((opc 0 0xB2 0).withD d).withKA a)
  | .lcancel d a => some (((opc 0 0xB3 0).withD d).withKA a)
  | .fmtq slot d => some (((opc 0 0xB4 0).withD d).withMod (slotMod slot 0))
  | .trap c => some (arvForm (opc 0 0xC0 0) c)
  | .tret => some (opc 0 0xC1 0)
  | .sysrd d srn => some (((opc 1 0xC2 0).withD d).withHi (srn.setWidth 64))
  | .syswr a srn => some (((opc 1 0xC3 0).withSA a).withHi (srn.setWidth 64))
  | .tinfo it d => some ((opc 0 0xC4 it.code).withD d)
  | .tkillGroup => some (opc 0 0xC5 0)
  | .tkillCtb => some (opc 0 0xC5 1)
  | .hread d w => some (((opc 1 0xC6 0).withD d).withImm32 w.word)
  | .hwrite a w => some (((opc 1 0xC7 0).withSA a).withImm32 w.word)
  | .hstepLane d a => some (((opc 0 0xC8 0).withD d).withKA a)
  | .hstepCursor d a => some (((opc 0 0xC8 1).withD d).withKA a)
  | .hgo a => some (match a with | none => opc 0 0xC9 0 | some n => (opc 0 0xC9 0).withKA n)
  | .bcnArm a b w => some ((((opc 1 0xCA 0).withKA a).withKB b).withImm32 w.word)
  | .bcnOff n => some ((opc 1 0xCA 1).withHi (n.setWidth 64))
  | .emit a => some ((opc 0 0xCB 0).withOpKA a)
  | .tableStep | .engineItemDone _ _ | .traceDrain _ | .stepCountReached _ _ _ | .trapEntry _ _
  | .ctbAbnormalEnd _ _ _ _ | .dump _ _ _ | .uncorrectableCoreFault _ _ _ | .deviceReplay _ | .validationSpanEnd _
  | .translationFillDone _ | .preparationPromiseMet _ | .launchStart _ | .launchLate _ | .cancelFire _
  | .writebackStart _ _ | .launchComplete _ | .quantumBoundary | .ctbSave _ _ | .ctbRestore _ _
  | .dramSlotAccess _ _ | .granuleLanding _ _ | .dramWriteCommit _ _ | .eccFailure _ _ | .dramRetry _ _
  | .granuleRetryFrame _ _ | .engineRequestRetry _ | .gatherBatch _ | .stagedCombine _ | .readinessSample _ _
  | .waitDecision _ _ _ | .waitTimeout _ _ _ | .slackWater | .bankMarkFailed _ _ _ | .droopSuppress _ _
  | .scheduleFault _ | .resynchronisation | .resyncResume | .tideTableAdopt | .tideCorrection _ | .skewGuard _
  | .flitSend _ _ | .flitReceive _ _ _ _ _ | .flitResend _ _ | .linkDown _ | .collectiveCombine _ _
  | .resultCommit _ _ | .rowReferenceLoss _ | .dieReferenceLoss _ | .uncoreSupplyLow _ | .thermalTrip | .powerTrip
  | .junctionWarning _ | .powerWarning _ | .boot | .launchCmd _ _ _ _ | .lquery _ | .cancel _ | .regrd _ _
  | .objset _ _ | .debug _ _ _ _ _ | .handover | .retire _ | .regwr _ _ _ | .lockInterfaceRequest
  | .startInterfaceRequest | .stopInterfaceRequest | .keyExchange | .measurements | .hostFlitTagFail
  | .descriptorArm _ | .descriptorBreak _ | .ttepochWrite _ | .schedcfgWrite _ | .detcfgWrite _
  | .bankmapWrite _ _ _ | .dbgtokWrite _ | .hltbaseWrite _ | .registerWrite _ _ _ | .scrubComplete
  | .idleIssueSlot _ _ => none

/-- The word of an instruction: its length in bytes and its bits. -/
def encode (i : Instr) : Option (Nat × BitVec 128) :=
  (encodeFields i).map fun f => (lenBytes f.len, pack f)

/-- The bytes of an instruction, the lowest address first. -/
def encodeBytes (i : Instr) : List Byte :=
  match encode i with
  | some (n, w) => bytesOfWord n w.toNat
  | none => []

/-- An instruction of the Epusk set: one that some word encodes. -/
def isEncoded (i : Instr) : Bool := (encodeFields i).isSome

end Sys2Proof
end

