-- ==== Sys2Proof/Config.lean ====
section
/-! DEFINITION. What the spec leaves to the device or leaves open: constants with no body, so that no proof can know
their value (notes/assumptions/8, 9, 13, 14). -/
namespace Sys2Proof.Config

/-- Which of the allowed values, old (false) or new (true), an aligned 8-byte word yields where the spec allows either
(08 R258, 10 R297, 12 R332, 13 R379); the argument is the model's counter `State.free`. -/
opaque takesNew : Nat → Bool

/-- What the invalid latch of an active lane counts as for the lanes before it in a reduction across lanes, by lane and stale
value (06 R203 does not say). -/
opaque lostOperand : Nat → BitVec 32 → BitVec 32

/-- A byte of DRAM written under a key that a scrub has replaced (18 R444); by counter and address. -/
opaque scrambledByte : Nat → Nat → BitVec 8

/-- The trained latency of pod link n, 12 bits (13 Table 13.7). -/
opaque linkLat : Nat → BitVec 12

/-- The frames that the pod agrees on for a resynchronisation (10 Table 10.10 step 4), by the count of the fault; at least
2 are taken. -/
opaque podDelta : Nat → Nat

/-- The granule, counted from STG, that stages element e, leaf ordinal o of bank b (13 R359: the layout is the
device's own). -/
opaque stageOffset : Nat → Nat → Nat → Nat

/-- Which bytes stand where two rows of an `xscatter.any` overlap (10 R311): true for the later row. -/
opaque laterRow : Nat → Bool

/-- The tide frames that a scrub takes, by counter; at most 1,024 are taken (18 R444). -/
opaque scrubFrames : Nat → Nat

/-- The SHA-512 value of a measurement block, by its index, over the words it covers (18 R449: the byte form of a block is not
given). -/
opaque digest : Nat → List (BitVec 64) → Nat

/-- The boot ROM, in words of 8 bytes (18 Table 18.6, block 1). -/
opaque romWords : List (BitVec 64)

/-- The Ed25519 certificate chain of slot 0 (18 R449). -/
opaque certChain : Nat

/-- The Ed25519 and the ML-DSA-65 signature over the transcript of measurements (18 R449). -/
opaque edSign : List Nat → Nat
opaque mldSign : List Nat → Nat

end Sys2Proof.Config
end

