-- ==== Sys2Proof/Machine/State.lean ====
section
/-! DEFINITION. The state of the device as plain data: everything the spec gives the machine (INVENTORY.md, State),
the outcomes a step can stop with, and the machine right after reset. -/
namespace Sys2Proof.Machine

/-- Memory: (address, byte) pairs, addresses strictly rising, no byte 0; an unlisted address reads as 0
(notes/assumptions/2, 3: DESIGN CHOICE, unsafe). -/
abbrev Memory := List Host.Cell

/-! ### Per group on a core (02 Table 2.6, 03 Table 3.13, 15 R392) -/

/-- One vector register name that holds a row (02 R57); `written` is false while its first write is in flight (R62). -/
structure VReg where
  name    : Nat
  written : Bool
  val     : List Word
  deriving DecidableEq, Repr

/-- One bypass latch of all lanes (02 R63): contents and valid bits. -/
structure Latch where
  val   : List DWord
  valid : Word
  deriving DecidableEq, Repr

/-- A class V or V2 result in flight (02 R66 to R68). `due` is the position that first sees it, `run` the slot visit of
its issue (R64), `dead` the names freed by a later last read (R61), `rows` how many of their rows it still holds, `flags` the flags set at
its landing (06 R179), `see` the engine write that then enters the group's view (08 R258), and `item` the number of the
engine item that supplies the values (08 R273), 0 for none. -/
structure Pending where
  due   : Nat
  run   : Nat
  reg   : Option Nat
  w64   : Bool
  latch : Option Nat
  lanes : Word
  vals  : List DWord
  dead  : List Nat
  rows  : Nat
  flags : Word
  see   : Option Nat
  item  : Nat
  deriving DecidableEq, Repr

/-- A stream shape register (07 Table 7.8); `ext0 = 0` is unset. `setAt` is one more than the position that last set,
rewound, read or wrote it (07 R234 check 3); 0 is never. -/
structure Stream where
  base   : Word
  esz    : Esz
  wrap   : Bool
  ext0   : Nat
  ext    : List Nat
  stride : List Word
  pos    : List Nat
  setAt  : Nat
  deriving DecidableEq, Repr

/-- The part of a divergence-stack frame that a core keeps (04 Table 4.2): the saved DIV, and a walk's indices. -/
structure DFrame where
  saved : Word
  idx   : Option (List (BitVec 8))
  deriving DecidableEq, Repr

/-- A frame header, kept once at the headland (04 R130, Table 4.3). A walk also keeps its descriptor and its address. -/
inductive Hdr where
  | thenSide
  | elseSide
  | walk (brx : BitVec 22) (e : BitVec 8) (addr : DWord) (t : BrxDesc)
  deriving DecidableEq, Repr

/-- The trap record (15 Tables 15.2 to 15.4). -/
structure TrapRec where
  cause : Word
  pc    : DWord
  addr  : DWord
  lane  : Word
  res   : DWord
  deriving DecidableEq, Repr

/-- A lost scratch access that is reported at a later position (07 R218, 12 R347); `planned` is the planned tide of its
instruction. -/
structure LateErr where
  due  : Nat
  planned : Nat
  pc   : DWord
  addr : DWord
  lane : Nat
  ilen : Nat
  deriving DecidableEq, Repr

/-- The trap shadow (15 R397): what the interrupted program's EXM, divergence stack and latches were, and `marks`, `again` and
`lateErr` of its group (07 R234, 04 R146, 07 R218). -/
structure Shadow where
  prd    : Word
  div    : Word
  dstack : List DFrame
  hstack : List Hdr
  latch  : List Latch
  marks  : List (Nat × Nat)
  again  : Bool
  lateErr : List LateErr
  deriving DecidableEq, Repr

/-- A halted lane's snapshot (15 R408): its bits of DIV and of the saved DIVs, bottom first, the instruction at which
it halted and the hold in which it halted. -/
structure Snap where
  lane  : Nat
  div   : Bool
  stack : List Bool
  pc    : DWord
  hold  : Nat
  deriving DecidableEq, Repr

/-- A byte region of physical scratch of a core, or of DRAM (`core = none`), of 12 R325. -/
structure Region where
  core : Option Nat
  base : Nat
  len  : Nat
  deriving DecidableEq, Repr

/-- Who wrote (12 R327): a transfer, an engine item or a round by its number; or a group on path 0. -/
inductive Writer where
  | engine (id : Nat)
  | group (launch lin grp : Nat)
  deriving DecidableEq, Repr

/-- Writes that a view holds (12 R327, R330): those of a writer, up to a stamp if there is one; `within` lists the region
sets that carried them: a byte is seen when it lies in each of them. `own` marks what the group itself may read but its
releases do not carry: an item's writes before an `xfence` (08 R258), and a value read without an acquire (12 R332). -/
structure Seen where
  by_    : Writer
  upto   : Option Nat
  within : List (List Region)
  own    : Bool
  deriving DecidableEq, Repr

/-- What a core still owes a wait of its group (12 R335, R347); `lost` when it was performed with a lost ring access. -/
inductive Owed where
  | none
  | push (snd : Nat) (handle : BitVec 16)
  | pop (snd : Nat)
  | lost (addr : DWord)
  deriving DecidableEq, Repr

/-- What a beacon's lane halts or stop in an instruction still owe when a fault interrupts it (15 R408): whether it is a
stop, the beacon and the lane. -/
structure Halting where
  stop   : Bool
  beacon : Nat
  lane   : Nat
  deriving DecidableEq, Repr

/-- A group of a CTB on its core. `cursor` is the next lane of the current position, 32 when the position is complete
for the group; `trapTide` is the planned tide of the instruction at TRAPPC (15 R404); `again` says that it faulted at the current position (04 R146), `halting` what it owes its end (15 R408);
`ready`, `code`, `owed` and `target` belong to a
held wait; `marks` are its last positions, each with the stamp that the next write of the device then had (07 R234); `issuedX` counts its transfers and `fenceX` those issued before its last `fence.device` (12 R333). -/
structure Group where
  present : Word
  vregs   : List VReg
  m       : List Word
  latch   : List Latch
  ix      : List (List (BitVec 16))
  sd      : List Stream
  p       : List DWord
  pTrack  : List (Option Nat)
  prd     : Word
  div     : Word
  dstack  : List DFrame
  iflags  : Word
  xflags  : Word
  granted : Nat
  pend    : List Pending
  trap    : TrapRec
  trapTide : Nat
  shadow  : Option Shadow
  hlm     : Word
  snaps   : List Snap
  lane    : Memory
  cursor  : Nat
  again   : Bool
  halting : Option Halting
  skid    : Nat
  ended   : Bool
  killed  : Bool
  passed  : Option (Bool × Nat × List Word)
  marks   : List (Nat × Nat)
  lateErr : List LateErr
  seen    : List Seen
  pseen   : List (List Seen)
  ready   : Bool
  code    : Word
  owed    : Owed
  target  : Nat
  issuedX : Nat
  fenceX  : Nat
  deriving DecidableEq, Repr

/-! ### Per reach group, at the headland -/

/-- The held waits (12 Table 12.13). -/
inductive WaitKind where
  | bar | push | pop | acq | wait | lwait | tsleep | coll | tresync
  deriving DecidableEq, Repr

/-- A wait held by a reach group (12 R335 to R340): the instruction, the idle resident frames counted, whether its first
decision has passed, the frame of the planned clock and the run index of its issue, and whether a resynchronisation
came in between. -/
structure Wait where
  kind     : WaitKind
  texp     : Nat
  obj      : DWord
  arg      : DWord
  dst      : Dst
  idle     : Nat
  decided  : Bool
  frame    : Nat
  j        : Nat
  resynced : Bool
  deriving DecidableEq, Repr

/-- A reach group (04 R126): one program counter, one k0-k63, one header sequence. `pos` numbers its positions, `idx`
is the run index of the next one in the current run, `head` says that the headland has done its part of the current
position, `npc` where that part goes on, `tstep` that the position is a table step (04 R134); `issued` counts its child launches, and
`observed` keeps those it has seen end (03 R122); `steps` are the `hgo` counts of its columns: column, rest and count
(15 R429); `last` is the pc of the position before. -/
structure RGroup where
  pc       : DWord
  npc      : DWord
  k        : List DWord
  hstack   : List Hdr
  pos      : Nat
  idx      : Nat
  head     : Bool
  tstep    : Bool
  wait     : Option Wait
  issued   : Nat
  observed : List (Nat × Word)
  steps    : List (Nat × Nat × Nat)
  last     : DWord
  reach    : Nat
  grp      : Nat
  deriving DecidableEq, Repr

/-! ### Per CTB -/

/-- What a release carries (12 R330): the releaser's view and the regions its CTB had bound. -/
structure Release where
  view : List Seen
  regs : List Region
  deriving DecidableEq, Repr

/-- A barrier (12 R342). Remote arrivals carry what they release, if anything; `transit` holds those issued and not yet
registered, with the counted frame whose sample registers them (R343). -/
structure Barrier where
  phase   : Word
  arrived : Word
  remote  : List (Option Release)
  carried : List (Option Release)
  exr     : Option Nat
  arrph   : List (Option Word)
  transit : List (Nat × Option Release)
  deriving DecidableEq, Repr

/-- A declared sound (12 R346), its state at the last sample (R348), and how many handles were popped. -/
structure Sound where
  n       : Nat
  roff    : Nat
  depth   : Nat
  head    : Nat
  count   : Nat
  allow   : Nat
  sampled : Word
  pops    : Nat
  deriving DecidableEq, Repr

/-- An entry of the binding table (12 R325). -/
structure Binding where
  base : DWord
  len  : Word
  tgt  : BindTgt
  deriving DecidableEq, Repr

/-- A leaf entry of a CTB (13 R366): OBS is set where `obs` is 1; after a `cnext` of the program it tells the planned tide of
that position, plus 2 (R382). -/
structure Leaf where
  rdx   : Nat
  lr    : Nat
  obs   : Nat
  flags : Nat
  deriving DecidableEq, Repr

/-- The last `mtile` of a CTB (08 R266, R267): what it captured, the position that issued it, and its landing once its
steps are scheduled. -/
structure MtStep where
  grp    : Nat
  pos    : Nat
  form   : MmForm
  sat    : Bool
  slot   : BitVec 3
  sd     : BitVec 4
  desc   : MtDesc
  base   : DWord
  mask   : Word
  land   : Option Nat
  deriving DecidableEq, Repr

/-- A hold of a reach (15 R393 to R401): reach-wide or solo, the handled groups (the current one first), the registers
of the handler's stream, the visit and run index of the stop and the interrupted run, whether it is debug-halted, and
whether it has ended and the next visit is the resumed one; `back` is that visit's number once it is settled. -/
structure Hold where
  wide    : Bool
  queue   : List (Nat × Nat)
  rg      : RGroup
  visit   : Nat
  j       : Nat
  run     : Nat
  halted  : Bool
  entered : Bool
  resume  : Bool
  back    : Option Nat
  serial  : Nat
  deriving DecidableEq, Repr

/-- Where an ended CTB stopped (15 R403, R404): its reach groups and the hold as they stood then, and the SAVETIDE of its
dump. -/
structure Stop where
  rgs  : List RGroup
  hold : Option Hold
  tide : Nat
  deriving DecidableEq, Repr

/-- A write of a scratch word (07 R234, R297, 08 R258, 12 R330, R332), or of a DRAM word: what the word held before, the
bytes that it wrote, who wrote it, on which path (plus 8 times the slot for an item of the matrix engine), and its stamp. -/
structure Fresh where
  addr  : Nat
  old   : DWord
  mask  : BitVec 8
  by_   : Writer
  path  : Nat
  stamp : Nat
  deriving DecidableEq, Repr

/-- A co-operative thread block (01 R17, 03 R97). `lin` is its linear index, `base` the first physical scratch byte of
its allocation; `barRel` are the releases of its barrier's arrivals with the phase that counts them, `sndRel` those of
its sounds' pushes, in order; `endTide` is the planned tide of its end, `stopGrp` the group that an abnormal end stopped
at and `stop` where its program stood then; `hdr` is the header of a save or dump in progress, of the area and then of the
mirror; `before` are the bindings and the leaf entries with which the run index in execution began, once it has changed
them (12 R326, 13 R383); `kept` are, while it is saved, the writes of its scratch that a stream use may still have to read past
(07 R234), with addresses from the first byte of its allocation. -/
structure Ctb where
  x       : Nat
  y       : Nat
  z       : Nat
  blk     : Nat
  stage   : Nat
  lin     : Nat
  base    : Nat
  groups  : List Group
  reserve : Nat
  bar     : Barrier
  barRel  : List (Word × Release)
  sounds  : List Sound
  sndRel  : List (Nat × Release)
  binds   : List Binding
  leaves  : List Leaf
  edited  : Bool
  ended   : Option CtbEnd
  mtile   : Option MtStep
  endTide : Nat
  stopGrp : Nat
  stop    : Option Stop
  hdr     : List Byte
  before  : Option (List Binding × List Leaf)
  kept    : List Fresh := []
  deriving DecidableEq, Repr

/-! ### Per reach -/

/-- A fault taken at a position (15 R393, R394): where, at which run index, the cause of 15 Table 15.1, what TRAPADDR holds, the
instruction that raised it, its planned tide and its length, and where resumption begins. -/
structure FaultRec where
  j     : Nat
  col   : Nat
  grp   : Nat
  lane  : Nat
  tlane : Nat
  cause : Nat
  addr  : DWord
  wide  : Bool
  late  : Bool
  planned : Nat
  pc    : DWord
  ilen  : Nat
  res   : DWord
  curs  : Nat
  deriving DecidableEq, Repr

/-- A reach (01 R20): the CTBs of one slot over a row's columns. `frames` counts the rotation frames of its planned
clock (10 R282), `run` the runs (02 R64); a reach that is not resident is saved. `counted` clears when the visit in
progress is not to be counted, `tallied` says whether the last one was; `moving` and `moved` say whether a position other
than a wait was issued in the visit in progress and in the last one (12 R338); `entering` and `leaving` are the two sides
of a switch (03 R111), `asked` the tide at which the collector asked for it and `boundary` the quantum boundary. -/
structure Reach where
  row      : Nat
  slot     : Nat
  launch   : Nat
  j        : Nat
  gen      : Nat
  rgs      : List RGroup
  ctbs     : List (Nat × Ctb)
  frames   : Nat
  run      : Nat
  visits   : Nat
  hold     : Option Hold
  stalled  : Bool
  counted  : Bool
  tallied  : Bool
  moving   : Bool
  moved    : Bool
  resident : Bool
  started  : Bool
  saved    : Bool
  entering : Bool
  leaving  : Bool
  asked    : Nat
  boundary : Nat := 0
  deriving DecidableEq, Repr

/-! ### Launches (03) -/

/-- Launch states (03 Table 3.5). -/
inductive LState where
  | validating | preparing | ready | running | draining | done
  deriving DecidableEq, Repr

/-- A preload or writeback entry (03 Table 3.3). -/
structure ListEntry where
  gaddr   : DWord
  bstride : DWord
  sstride : Word
  soff    : Nat
  bytes   : Nat
  zero    : Bool
  deriving DecidableEq, Repr

/-- A map-set region (03 R92). -/
structure MapRegion where
  base : DWord
  len  : Nat
  r    : Bool
  w    : Bool
  x    : Bool
  deriving DecidableEq, Repr

/-- A sound declaration (03 R93). -/
structure SoundDecl where
  n     : Nat
  roff  : Nat
  depth : Nat
  allow : Nat
  deriving DecidableEq, Repr

/-- One run of a translation set (07 R224): virtual and physical base, length, permissions of R227 and attributes. -/
structure Run where
  va  : Nat
  pa  : Nat
  len : Nat
  r   : Bool
  w   : Bool
  x   : Bool
  ord : Bool
  red : Bool
  bin : Bool
  rdx : Nat
  deriving DecidableEq, Repr

/-- The launch record (03 Table 3.1): each field as it stands in the record; `stages` and `runExp` are logarithms. -/
structure Record where
  entry    : DWord
  handler  : DWord
  args     : DWord
  gridx    : Nat
  gridy    : Nat
  gridz    : Nat
  stages   : Nat
  groups   : Nat
  lanes    : Nat
  runExp   : Nat
  rowoff   : Nat
  edge     : Nat
  detcls   : Nat
  prio     : Nat
  super    : Bool
  budget   : Nat
  reserve  : Nat
  lsbytes  : Nat
  rowmask  : BitVec 16
  scrbytes : Nat
  childmax : Nat
  complete : Nat
  plane    : BitVec 8
  engshare : DWord
  accmask  : List (BitVec 16)
  fmt      : List DWord
  preload  : DWord
  writeback : DWord
  mapset   : DWord
  sounds   : DWord
  npre     : Nat
  nwb      : Nat
  nmap     : Nat
  sndmask  : BitVec 16
  deps     : List (BitVec 16 × BitVec 16)
  debug    : DWord
  save     : DWord
  mirror   : DWord
  childarea : DWord
  deriving DecidableEq, Repr

/-- Who issued a launch: the host with a launch-table entry, or a reach group (03 R118, 18 R442). -/
inductive Issuer where
  | host (entry : Nat) (phys : Nat)
  | child (launch reach grp ord : Nat)
  deriving DecidableEq, Repr

/-- A launch (03 R98); `south` says that it started as a south-passing wave (04 R147), `starting` that the grants of its start
(R102) are still due. -/
structure Launch where
  id       : Nat
  ident    : Nat
  issuer   : Issuer
  recAddr  : DWord
  late     : Bool
  declared : Nat
  issueTide : Nat
  issuerSuper : Bool
  state    : LState
  status   : Nat
  record   : Record
  pre      : List ListEntry
  wb       : List ListEntry
  maps     : List MapRegion
  snds     : List SoundDecl
  marked   : Bool
  replayable : Bool
  south    : Bool
  refused  : Bool
  cancelled : Bool
  trans    : List Run
  promise  : Option Nat
  effective : Option Nat
  ends     : List (Nat × CtbEnd)
  finished : List Nat
  wbLeft   : List Nat
  release  : List Release
  doneView : List Release
  doneTide : Nat
  replays  : Nat
  acted    : Bool
  starting : Bool := false
  deriving DecidableEq, Repr

/-- A row of the chart: the launch that holds it, the schedule tide at which its rotation timeline began, and the
launch that a quantum boundary wants there once its reaches are saved (03 R102, R105); for a time-sliced row `t0` is where the
frames of the shared row are counted from, and `skip` its own ones before its first (01 R14). -/
structure Row where
  holder : Option Nat
  t0     : Nat
  wanted : Option Nat
  skip   : Nat := 0
  deriving DecidableEq, Repr

/-! ### Engines of a core -/

/-- What a transfer is for (10 R295, R459). -/
inductive XKind where
  | copyIn | copyOut | gather | scatter (any : Bool)
  | red (op : RedOp) (ty : RedTy) (any : Bool)
  | preload (launch lin entry : Nat) | writeback (launch lin entry : Nat)
  | save | restore | contribution (rdx : Nat)
  deriving DecidableEq, Repr

/-- A run of bytes that a granule moves between DRAM and scratch of a core: the row of the transfer that it belongs to,
whether it is combined into DRAM (10 R302), and, for a piece of a save, the bytes it writes. -/
structure Piece where
  row  : Nat
  comb : Bool
  dram : Nat
  core : Nat
  scr  : Nat
  len  : Nat
  old  : List Byte
  deriving DecidableEq, Repr

/-- One granule of a transfer (10 R290, R295): its number, the planned slot and landing, the slot in schedule tides, its
data once read, and how many reads have failed (R287, R307). -/
structure Granule where
  num     : Nat
  slot    : Nat
  land    : Nat
  at_     : Nat
  pieces  : List Piece
  data    : List Byte
  done    : Bool
  fails   : Nat
  deriving DecidableEq, Repr

/-- A transfer of a copy, gather, scatter or reducing-copy engine (10 R294 to R312). `preg` is the p register it was
issued for, `acc` the stacks that ACCTL let it reach at acceptance (07 R230), `view` the issuer's view of its path,
with the issuer's own stores that it includes (10 R297), `batch` the next batch of a gather, `tide` the schedule tide of its
acceptance; `passed` is the last promise that a revision replaced, and `told` the last one that was reported missed (10 R301,
R307). -/
structure Xfer where
  id      : Nat
  kind    : XKind
  q       : Nat
  slot    : Nat
  launch  : Nat
  lin     : Nat
  grp     : Nat
  gen     : Nat
  ordinal : Nat
  preg    : Option Nat
  promise : Nat
  grans   : List Granule
  landed  : Bool
  lost    : Bool
  unreadable : Bool
  passed  : Nat
  told    : Nat
  acc     : BitVec 8
  view    : List Seen
  pc      : DWord
  planned : Nat
  row     : RowDesc
  idx     : IdxDesc
  a       : DWord
  b       : DWord
  batch   : Nat
  tide    : Nat
  deriving DecidableEq, Repr

/-- A request of the engine on its own behalf that found no slot and is repeated (10 R459). -/
structure Request where
  x      : Xfer
  pieces : List Piece
  deriving DecidableEq, Repr

/-- Symbols in error of one scratch codeword (07 R216): bank group, row, column, and the error value of each bank. -/
structure SymErr where
  group : Nat
  row   : Nat
  col   : Nat
  errs  : List (Nat × Byte)
  deriving DecidableEq, Repr

/-- A plane (08 R242): its descriptor (none when empty), its sparse bit, its bytes and its metadata by offset, and its
scale vector. -/
structure Plane where
  desc   : Option DWord
  sparse : Bool
  data   : Memory
  md     : Memory
  scale  : Memory
  deriving DecidableEq, Repr

/-- Tags of an accumulator tile (08 R243). -/
inductive Tag where
  | any | fp | int
  deriving DecidableEq, Repr

/-- An accumulator tile (08 R242): its elements row by row; an empty list is all zero. -/
structure Tile where
  tag  : Tag
  tsat : Bool
  elts : List Word
  deriving DecidableEq, Repr

/-- What one group contributes to a fused item (08 R253): its position, its updated rows (R252), the physical start of
each row slice, and its operands; `mult` is that of `msum`, and `view` its view of path 3 (R258). -/
structure Part where
  grp    : Nat
  pos    : Nat
  rows   : Word
  offs   : List Nat
  form   : MmForm
  sat    : Bool
  tile   : Nat
  aslot  : DWord
  signed : Bool
  mult   : BitVec 9
  pc     : DWord
  ilen   : Nat
  view   : List Seen
  deriving DecidableEq, Repr

/-- What an engine item does (08 R253), with what was captured at issue: addresses are physical bytes of scratch. -/
inductive ItemOp where
  | fill (sp : Bool) (desc : DWord) (a md : Nat) (scl : Option Nat)
  | swap
  | pass (parts : List Part)
  | sum (parts : List Part)
  | clear (tiles : BitVec 16) (v : Word)
  | drain (out : DrainOut) (desc : DWord) (a pitch tile vec : Nat) (rm : RM)
  | stat (acc : BitVec 16) (plane : Bool)
  deriving DecidableEq, Repr

/-- An engine item in its slot's queue (08 R253 to R256): its number, the group, position and run of its issue, its cost
in array beats, its instruction, whether its times are known, its landing position and the tides at which it starts and is done;
`step` is its place among the steps of an `mtile` and `last` marks the last. `view` is the issuer's view of path 3
(R258). -/
structure Item where
  id     : Nat
  op     : ItemOp
  grp    : Nat
  pos    : Nat
  run    : Nat
  cost   : Nat
  pc     : DWord
  ilen   : Nat
  planned : Nat
  base   : Nat
  launch : Nat
  sched  : Bool
  land   : Nat
  startAt : Nat
  doneAt : Nat
  step   : Option Nat
  last   : Bool
  view   : List Seen
  deriving DecidableEq, Repr

/-- One slot's queue: its items in order and where its timeline stands (08 R256); in a hold `held` keeps where it stood at
the stop, for a trap moves no landing (R257). -/
structure ItemQueue where
  items   : List Item
  t       : Nat
  fillEnd : Nat
  held    : Option (Nat × Nat)
  deriving DecidableEq, Repr

/-- The matrix engine of a core (08 R242). `parked` are the queues of saved CTBs, with the steps that they have left to run,
by launch and linear index (08 R257, R276). -/
structure Matrix where
  active : Plane
  shadow : Plane
  tiles  : List Tile
  queues : List (Nat × ItemQueue)
  parked : List (Nat × Nat × ItemQueue)
  deriving DecidableEq, Repr

/-- The survey of a core (15 R415): control, idle and out-of-bin counters, bins by 4b + c where nonzero, the issue
slots since `since` that were not idle, and the schedule tide up to which idle ones are counted. -/
structure Survey where
  ctl  : DWord
  idle : DWord
  out  : DWord
  bins : List (Nat × DWord)
  busy : Nat
  since : Nat
  deriving DecidableEq, Repr

/-- A logical core (01 Table 1.3). `corr` counts the corrections attributed to each bank in this patrol pass
(07 R219), `patrol` is the next row the scrubber takes (R220), `taken` and `takenAt` the access slots its engines have
taken, planned and in schedule tides, as (pseudo-channel, tide) (10 R295); `gtaken` those of its gather engine; `lostBits` names
what of a core's other memories cannot be read, as (16 × slot + section of 03 Table 3.12, byte of the section) (15 R405). -/
structure Core where
  scratch : Memory
  errs    : List SymErr
  fresh   : List Fresh
  bankmap : BitVec 128
  scrcnt  : Word
  corr    : List (Nat × Nat)
  patrol  : Nat
  mx      : Matrix
  bcnctl  : List DWord
  bcnlo   : List DWord
  bcnhi   : List DWord
  watch   : List DWord
  fifo    : List (List Byte)
  survey  : Survey
  cntlost : Word
  taken   : List (Nat × Nat)
  takenAt : List (Nat × Nat)
  gtaken  : List (Nat × Nat)
  lostBits : List (Nat × Nat)
  deriving DecidableEq, Repr

/-! ### The device -/

/-- The device registers of 15 Table 15.14 and the host registers of 18 Table 18.2. -/
structure Regs where
  detcfg    : Word
  schedcfg  : Word
  slackcfg  : Word
  rsyncstat : DWord
  stagebase : DWord
  ptbase    : DWord
  cdbase    : DWord
  podid     : Word
  cdarm     : DWord
  ttbase    : DWord
  ttepoch   : DWord
  ttstat    : Word
  replcfg   : Word
  proj      : List Word
  defstat   : List Word
  acctl     : List DWord
  lnkstat   : List DWord
  cntwrap   : DWord
  trbase    : DWord
  trsize    : DWord
  trhead    : DWord
  trloss    : DWord
  dbgtok    : DWord
  tidesync  : Word
  pwrstat   : Word
  bootstat  : Word
  tdispst   : Word
  hltbase   : DWord
  deriving DecidableEq, Repr

/-- The adopted tide table (10 R293, 13 R371): the frame it was adopted at, where its image lies, its template count,
and the bytes of the image as they stood at adoption. -/
structure TideTable where
  epoch  : Nat
  ntmpl  : Nat
  tmpl   : Nat
  link   : Nat
  image  : Memory
  deriving DecidableEq, Repr

/-- A staged contribution of an `xred` (10 R303): its key and its elements, (virtual address, physical address, physical
address of the staged word); `tied` are the objects that its CTB has bound its elements to, `spent` how many of its elements
were combined at which planned tides. -/
structure Staged where
  xid     : Nat
  launch  : Nat
  ident   : Nat
  lin     : Nat
  grp     : Nat
  ordinal : Nat
  q       : Nat
  slot    : Nat
  op      : RedOp
  ty      : RedTy
  elts    : List (DWord × Nat × Nat)
  tied    : List (Nat × Nat)
  spent   : List (Nat × Nat)
  promise : Nat
  landed  : Bool
  deriving DecidableEq, Repr

/-- A fire that waits for the staged contributions which its release combines (10 R303, 12 R341): the object, the
transfers, what the release carries, what it combines by, its planned tide, and the launch that it completes. -/
structure Fire where
  id      : Nat
  obj     : Nat
  xids    : List Nat
  rel     : Release
  comb    : Release
  planned : Nat
  launch  : Option Nat
  deriving DecidableEq, Repr

/-- One contribution counted for an element of a round (13 R362): its key (q, s, g), element and value. -/
structure Contribution where
  key  : Nat × Nat × Nat
  elem : Nat
  val  : Word
  deriving DecidableEq, Repr

/-- A value over a chunk of elements (13 R363, R365, R370): of a tree node, of a node's bins, or a result. -/
inductive NodeKind where
  | tree | bins | result
  deriving DecidableEq, Repr

/-- A node [lo, hi) of a round over a chunk (13 R372), or a result. -/
structure NodeVal where
  kind  : NodeKind
  lo    : Nat
  hi    : Nat
  chunk : Nat
  vals  : List Int
  flags : BitVec 8
  ready : Nat
  deriving DecidableEq, Repr

/-- The exponents of a chunk of a binned round (13 R365, R371): those of this member's own contributions, and those that
came on links, each with its link and the tide at which it is ready. -/
structure ExpVal where
  chunk : Nat
  own   : Option (List Int)
  got   : List (Nat × Nat × List Int)
  deriving DecidableEq, Repr

/-- The member partial of a chunk (13 R372, R378): the tide at which it is ready, and how often its staging could not be
read. -/
structure Partial where
  chunk : Nat
  ready : Nat
  fails : Nat
  deriving DecidableEq, Repr

/-- An open or complete round of a descriptor (13 R366, R367); `wid` names its result in views, `arrived` what has landed at
the present tide and is not yet counted, and `parts` the chunks that hold all their contributions. -/
structure Round where
  r       : Nat
  wid     : Nat
  contrib : List Contribution
  arrived : List Contribution
  parts   : List Partial
  dup     : Bool
  nodes   : List NodeVal
  exps    : List ExpVal
  committed : List Nat
  flags   : BitVec 8
  tide    : Option Nat
  closers : List (Nat × Nat × Nat)
  deriving DecidableEq, Repr

/-- The descriptor table entry as the device read it (13 Table 13.1). -/
structure CDesc where
  rbase : DWord
  respa : Nat
  stg   : Nat
  elems : Nat
  cset  : Nat
  nmem  : Nat
  rank  : Nat
  lpe   : Nat
  lpr   : Nat
  op    : BitVec 8
  deriving DecidableEq, Repr

/-- The live state of a collective descriptor (13 R366 to R369). -/
structure Coll where
  rdx     : Nat
  desc    : CDesc
  armed   : Bool
  broken  : Bool
  bin     : Bool
  openR   : Nat
  rounds  : List Round
  deriving DecidableEq, Repr

/-- A value that a link has sent: link, kind, descriptor, chunk and round. -/
structure Sent where
  kind  : Nat
  rdx   : Nat
  chunk : Nat
  r     : Nat
  deriving DecidableEq, Repr

/-- A flit as it was sent, to be sent again (13 R368, R374, R375): its frame and slot, the link whose word it served, its
payload and its framing without the frame marker, and the value that it carried. -/
structure OutFlit where
  frame   : Nat
  slot    : Nat
  origin  : Nat
  payload : List Byte
  flags   : BitVec 8
  what    : Option Sent
  deriving DecidableEq, Repr

/-- A pod link (13 R370 to R376): consecutive frames without a marker, consecutive uncorrectable flits, the flits that
failed here (frame and slot) and those to be resent (by resend slot), the flits of the last frames, whether the marker of
this frame came, whether its flits are dropped, what the words of the link have sent, and the frame from which its words
travel on the backup link. -/
structure Link where
  missed  : Nat
  bad     : Nat
  failed  : List (Nat × Nat)
  resend  : List (Nat × OutFlit)
  lastOut : List OutFlit
  marker  : Bool
  drop    : Bool
  sent    : List Sent
  rerouteAt : Option Nat
  deriving DecidableEq, Repr

/-- What the device has sent out: status words of host commands, reports, and flits (15 R439, 18 R441). -/
inductive Out where
  | reply (code : Word) (value : DWord)
  | report (kind : Nat) (a b : Nat)
  | flit (link slot : Nat) (payload : List Byte) (flags : BitVec 8)
  deriving DecidableEq, Repr

/-- A host DMA (18 R441): `n` bytes of DRAM read, or `bytes` written; `accepted` once it was checked, and `taken` in
the access slot that it took. -/
structure Dma where
  write : Bool
  pa    : Nat
  n     : Nat
  bytes : List Byte
  taken : Bool
  accepted : Bool := false
  deriving DecidableEq, Repr

/-- A scheduled step: an operation of the device, the execution of one run index of a slot's visit, or a host DMA. -/
inductive Task where
  | op (i : Instr)
  | visit (row slot j : Nat)
  | dma (d : Dma)
  deriving DecidableEq, Repr

/-- A task at a schedule tide; at one tide the lower class runs first. -/
structure Event where
  tide : Nat
  cls  : Nat
  task : Task
  deriving DecidableEq, Repr

/-- The position that executes: the reach, the column and the group; `handler` in a hold's handler, `head` when this
column does the headland's part; `only` restricts an `hstep` to one lane (15 R428). -/
structure Cur where
  row     : Nat
  slot    : Nat
  col     : Nat
  grp     : Nat
  handler : Bool
  head    : Bool
  pc      : DWord
  ilen    : Nat
  only    : Option Nat
  deriving DecidableEq, Repr

/-- A beacon that acts on a lane of a group (15 R407): the group, the lane, the beacon, its action and its value. -/
structure BAct where
  grp    : Nat
  lane   : Nat
  beacon : Nat
  action : Nat
  val    : DWord
  deriving DecidableEq, Repr

/-- How the beacons of the executing core count (15 R407): each hit at once; no action, while the hits of a core's groups
are gathered; or as counted beforehand over all of them. -/
inductive BMode where
  | each
  | gather
  | planned (acts : List BAct)
  deriving DecidableEq, Repr

/-- The run index in execution: what remains of it, in the order of 12 R351; the column whose beacons `mode` covers, with
the hits gathered; and, by core, the beacons armed and the registers written at this run index, with what those held
(15 R416, R430). -/
structure Issue where
  row   : Nat
  slot  : Nat
  j     : Nat
  todo  : List (Nat × Nat)
  col   : Option Nat
  mode  : BMode
  hits  : List BAct
  fresh : List (Nat × Nat)
  wrote : List (Nat × Nat × DWord)
  deriving DecidableEq, Repr

/-- What a `syswr`, `bcn.arm` or `bcn.off` does at its landing position (15 R424, R430). -/
inductive SysAct where
  | write (n : Nat) (v : DWord)
  | arm (n : Nat) (w : BcnWord) (lo hi : DWord)
  | off (n : Nat)
  deriving DecidableEq, Repr

/-- A register write in flight (15 R424): the writer, whether it is in a handler, the position that performs it, the tide
of the rotation frame after the one of its issue, and what it does. -/
structure SysWrite where
  row     : Nat
  slot    : Nat
  col     : Nat
  grp     : Nat
  handler : Bool
  due     : Nat
  frame   : Nat
  act     : SysAct
  deriving DecidableEq, Repr

/-- What other groups still read of a register that was written (15 R424): the core (none of a device register), the
register, its old value, the writer as row, slot, column and group, and the tide from which they see the new one. -/
structure OldReg where
  q     : Option Nat
  n     : Nat
  old   : DWord
  by_   : Nat × Nat × Nat × Nat
  until_ : Nat
  deriving DecidableEq, Repr

/-- A resynchronisation in progress (10 R306): the schedule tide of the fault and its cause. -/
structure Freeze where
  tf    : Nat
  cause : Nat
  delta : Nat
  deriving DecidableEq, Repr

/-- The host's side of the device that has no register (18 R442 to R449): the launch that owns each launch-table entry,
whether commands arrive on the stream keyed to the owner (KEY_EXCHANGE sets it; the outside clears it for a command from
another stream), how often the DRAM key was replaced, what LOCK_INTERFACE_REQUEST measured, whether the firmware image was
accepted, a scrub in progress with what its completion answers, and the commands that wait for it, in order of arrival. -/
structure HostSide where
  owned    : List (Nat × Nat)
  key      : Bool
  epoch    : Nat
  measured : List DWord
  fwOk     : Bool
  scrubbing : Bool
  stopReply : Bool
  waiting  : List Instr
  deriving DecidableEq, Repr

/-- The crossings between clock regions (18 Table 18.7): a physical row and the uncore of its die, a physical row and the one
after it, the two uncore regions of a die, and the bridge. -/
inductive Crossing where
  | rowUncore (die prow : Nat)
  | rowRow (die prow : Nat)
  | uncore (die : Nat)
  | bridge
  deriving DecidableEq, Repr

/-- The fuses (18 R447 to R449): the keys that the fuse words ED and MLD admit, the SVN and the lock state
(notes/assumptions/33). -/
structure Fuses where
  edKey  : Memory
  mldKey : Memory
  svn    : Nat
  lock   : Nat
  deriving DecidableEq, Repr

/-- Facts of the physical world that the device meets (notes/assumptions/10): granule reads that will fail, physical
cores that are fenced (die, row, column), clock regions without a reference, pseudo-channels that the host retired, retry
slots used in a frame, the tide from which on a clock region's next edge can be suppressed (01 R31), the banks that the self-test of
boot finds bad (core, bank group, bank; 07 R219), and the boot failure of 18 Table 18.4 that the device will meet, 0 for
none. `retiring` are channels that RETIRE named since the last adoption; `counts` what the receiver of a crossing counts in
training, 0 where none is listed, and `depths` the FIFO depths set from it; `image` the firmware image that the boot ROM
reads and `signed` whether its Ed25519 and ML-DSA-65 signatures verify (notes/assumptions/33); `dieLost` the tide of the
last loss of a die; `tj` and `power` the junction temperature in °C and the 1 ms average power in W from a tide on, the latest
first; `adjusted` the last frame in which the tide counter was corrected, with the tides taken. -/
structure Phys where
  eccFail  : List (Nat × Nat)
  fenced   : List (Nat × Nat × Nat)
  lostRows : List Nat
  retired  : List Nat
  retiring : List Nat
  retried  : List (Nat × Nat)
  drooped  : List (Nat × Nat)
  badBanks : List (Nat × Nat × Nat)
  bootFail : Nat
  counts   : List (Crossing × Nat)
  depths   : List (Crossing × Nat)
  image    : Memory
  signed   : Bool × Bool
  fuses    : Fuses
  dieLost  : Option Nat
  tj       : List (Nat × Nat)
  power    : List (Nat × Nat)
  adjusted : Nat × Nat
  deriving DecidableEq, Repr

/-- The state of the device. `sysw` are the register writes in flight and `sysOld` what others still read; `bumped` names
the counters that an increment has changed at the present tide, by core and register (15 R416), and `devTaken` the access
slots that the device itself has taken, by owner code of 10 Table 10.6: pseudo-channel and tide; `wseq` stamps writes. -/
structure State where
  time     : Nat
  agenda   : List Event
  issue    : Option Issue
  cur      : Option Cur
  faults   : List FaultRec
  sysw     : List SysWrite
  sysOld   : List OldReg
  bumped   : List (Nat × Nat × Nat)
  devTaken : List (Nat × Nat × Nat)
  dram     : Memory
  scrambled : List (Nat × Nat)
  dfresh   : List Fresh
  cores    : List (Nat × Core)
  reaches  : List Reach
  rows     : List Row
  launches : List Launch
  objs     : List (Nat × BitVec 16)
  objRel   : List (Nat × Nat × Release)
  regs     : Regs
  tt       : Option TideTable
  ttNext   : Option (Nat × Nat)
  xfers    : List Xfer
  requests : List Request
  staged   : List Staged
  fill     : List (Nat × Nat)
  fires    : List Fire
  colls    : List Coll
  links    : List Link
  freeze   : Option Freeze
  host     : HostSide
  phys     : Phys
  trace    : List (List Byte)
  out      : List Out
  nextId   : Nat
  wseq     : Nat
  free     : Nat
  deriving DecidableEq, Repr

/-! ### Outcomes -/

/-- Why a step stops with a fault. Each is safe: the model stops where no step of the device is described. -/
inductive Fault where
  /-- An instruction of the Epusk set is executed while no position is in execution. Raised by every meaning of the
  classes of 02 when `State.cur` names no group. Safe. -/
  | noGroup
  deriving DecidableEq, Repr

/-- Why a step is refused. -/
inductive Refusal where
  /-- The instruction has no meaning in the model yet. Raised by the arms of Dispatch alone. Safe. -/
  | notModelled (mnemonic : String)
  deriving DecidableEq, Repr

/-! ### Reset -/

/-- The registers at reset (INVENTORY.md, State; notes/assumptions/1 for those without a reset value). -/
def Regs.reset : Regs where
  detcfg := 0
  schedcfg := 0x16
  slackcfg := 0x00031F00
  rsyncstat := 0
  stagebase := 0
  ptbase := 0
  cdbase := 0
  podid := 0
  cdarm := 0
  ttbase := 0
  ttepoch := 0
  ttstat := 0
  replcfg := 0x11
  proj := [0x1F0, 0x1F1, 0x1F2, 0x1F3, 0x1F4, 0x1F5, 0x1F6, 0x1F7,
           0x9F0, 0x9F1, 0x9F2, 0x9F3, 0x9F4, 0x9F5, 0x9F6, 0x9F7]
  defstat := List.replicate 22 0
  acctl := List.replicate 26 0x0005FFFF0005FFFF
  lnkstat := List.replicate 16 0
  cntwrap := 0
  trbase := 0
  trsize := 0
  trhead := 0
  trloss := 0
  dbgtok := 0
  tidesync := 0
  pwrstat := 0
  bootstat := 0
  tdispst := 0
  hltbase := 0

/-- An empty plane (08 R244). -/
def Plane.empty : Plane where
  desc := none
  sparse := false
  data := []
  md := []
  scale := []

/-- A tile as the device powers on: tag ANY, TSAT 0 (08 R243), contents zero (notes/assumptions/4). -/
def Tile.zero : Tile where
  tag := .any
  tsat := false
  elts := []

/-- A core at reset. A core that `State.cores` does not list is in this state. -/
def Core.reset : Core where
  scratch := []
  errs := []
  fresh := []
  bankmap := BitVec.allOnes 128
  scrcnt := 0
  corr := []
  patrol := 0
  mx := { active := Plane.empty, shadow := Plane.empty, tiles := List.replicate 16 Tile.zero, queues := [],
          parked := [] }
  bcnctl := List.replicate 16 0
  bcnlo := List.replicate 16 0
  bcnhi := List.replicate 16 0
  watch := List.replicate 4 0
  fifo := []
  survey := { ctl := 2, idle := 0, out := 0, bins := [], busy := 0, since := 0 }
  cntlost := 0
  taken := []
  takenAt := []
  gtaken := []
  lostBits := []

/-- The machine right after reset: registers at their reset values, memories with nothing listed, nothing launched, and
the first step of boot due (18 R447; notes/assumptions/5 says how a program comes to run). -/
def State.reset : State where
  time := 0
  agenda := [{ tide := 0, cls := 0, task := .op .boot }]
  issue := none
  cur := none
  faults := []
  sysw := []
  sysOld := []
  bumped := []
  devTaken := []
  dram := []
  scrambled := []
  dfresh := []
  cores := []
  reaches := []
  rows := List.replicate 16 { holder := none, t0 := 0, wanted := none }
  launches := []
  objs := []
  objRel := []
  regs := Regs.reset
  tt := none
  ttNext := none
  xfers := []
  requests := []
  staged := []
  fill := []
  fires := []
  colls := []
  links := List.replicate 16
    { missed := 0, bad := 0, failed := [], resend := [], lastOut := [], marker := false, drop := false, sent := [],
      rerouteAt := none }
  freeze := none
  host := { owned := [], key := false, epoch := 0, measured := [], fwOk := false, scrubbing := false, stopReply := false,
            waiting := [] }
  phys := { eccFail := [], fenced := [], lostRows := [], retired := [], retiring := [], retried := [], drooped := [], badBanks := []
            bootFail := 0, counts := [], depths := [], image := [(0, 0x46), (1, 0x4F), (2, 0x56), (3, 0x4B)]
            signed := (true, true), fuses := { edKey := [], mldKey := [], svn := 0, lock := 0 }, dieLost := none
            tj := [], power := [], adjusted := (0, 0) }
  trace := []
  out := []
  nextId := 0
  wseq := 0
  free := 0

end Sys2Proof.Machine
end

