-- ==== Sys2Proof/Machine/Ops.lean ====
section
/-! DEFINITION. The named operations over the state: lanes and lists, memory, the executing position, registers and
their landings (02 R57 to R68), time, and taking a trap and returning from it (15 R393 to R401). -/
namespace Sys2Proof.Machine

open Host (Outcome)

/-- The outcome of a step of this machine. -/
abbrev Out1 := Outcome State Fault Refusal

/-! ### Lists -/

/-- 32 lanes from a function. -/
def mkLanes {α : Type} (f : Nat → α) : List α := (List.range 32).map f

/-- Element `k` of a list of lanes. -/
def laneOf {α : Type} [Inhabited α] (l : List α) (k : Nat) : α := l.getD k default

/-- Replace element `i` of a list by its image. -/
def modAt {α : Type} (l : List α) (i : Nat) (f : α → α) : List α := l.modify i f

/-- The value of key `k` in an association list. -/
def look {α : Type} : List (Nat × α) → Nat → Option α
  | [], _ => none
  | (i, a) :: l, k => if i = k then some a else look l k

/-- The association list with `k` bound to `a`, keys rising. -/
def bindAt {α : Type} : List (Nat × α) → Nat → α → List (Nat × α)
  | [], k, a => [(k, a)]
  | (i, b) :: l, k, a =>
    if k < i then (k, a) :: (i, b) :: l
    else if k = i then (k, a) :: l
    else (i, b) :: bindAt l k a

/-- The association list without `k`. -/
def dropAt {α : Type} (l : List (Nat × α)) (k : Nat) : List (Nat × α) := l.filter (fun e => e.1 != k)

/-- Bit `k` of a lane mask. -/
def bit (w : Word) (k : Nat) : Bool := w.getLsbD k

/-- The mask with the bits of the lanes that satisfy `f`. -/
def maskOf (f : Nat → Bool) : Word :=
  BitVec.ofNat 32 ((List.range 32).foldr (fun k n => 2 * n + (if f k then 1 else 0)) 0)

/-- Bytes of a value, lowest address first (00 R3). -/
def toBytes : Nat → Nat → List Byte
  | 0, _ => []
  | n + 1, v => BitVec.ofNat 8 v :: toBytes n (v / 256)

/-- The value of bytes, lowest address first (00 R3). -/
def ofBytes : List Byte → Nat
  | [] => 0
  | b :: bs => b.toNat + 256 * ofBytes bs

/-! ### Memory -/

/-- One byte; an unlisted address reads 0. -/
def rd : Memory → Nat → Byte
  | [], _ => 0
  | (i, b) :: m, a => if a < i then 0 else if a = i then b else rd m a

/-- Write one byte, keeping the canonical form. -/
def wr : Memory → Nat → Byte → Memory
  | [], a, v => if v = 0 then [] else [(a, v)]
  | (i, b) :: m, a, v =>
    if a < i then (if v = 0 then (i, b) :: m else (a, v) :: (i, b) :: m)
    else if a = i then (if v = 0 then m else (a, v) :: m)
    else (i, b) :: wr m a v

/-- `n` bytes from `a`. -/
def rdN (m : Memory) (a : Nat) : Nat → List Byte
  | 0 => []
  | n + 1 => rd m a :: rdN m (a + 1) n

/-- Write bytes from `a` up. -/
def wrN (m : Memory) (a : Nat) : List Byte → Memory
  | [] => m
  | b :: bs => wrN (wr m a b) (a + 1) bs

/-- Every listed address is below the bound and above the last, and no listed byte is 0. -/
def memWfFrom : Nat → Memory → Bool
  | _, [] => true
  | lo, (a, b) :: m => decide (lo ≤ a) && b != 0 && memWfFrom (a + 1) m

/-- The canonical form of a memory. -/
def memWf (m : Memory) : Bool := memWfFrom 0 m

/-- The little-endian value of `n` bytes at `a`. -/
def rdVal (m : Memory) (a n : Nat) : Nat := ofBytes (rdN m a n)

/-- Every byte of a range is zeroed. -/
def zeroRange (m : Memory) (a n : Nat) : Memory := m.filter (fun c => decide (c.1 < a) || decide (a + n ≤ c.1))

/-! ### Cores, reaches, CTBs and groups -/

/-- The logical core index of a row and a column (10 Table 10.6). -/
def coreIx (row col : Nat) : Nat := 16 * row + col

def State.core (s : State) (q : Nat) : Core := (look s.cores q).getD Core.reset

def State.setCore (s : State) (q : Nat) (c : Core) : State := { s with cores := bindAt s.cores q c }

def State.modCore (s : State) (q : Nat) (f : Core → Core) : State := s.setCore q (f (s.core q))

/-- The resident reach of a slot of a row. -/
def State.reach? (s : State) (row slot : Nat) : Option Reach :=
  s.reaches.find? (fun r => r.row == row && r.slot == slot && r.resident)

/-- Change the resident reach of a slot of a row. -/
def State.modReach (s : State) (row slot : Nat) (f : Reach → Reach) : State :=
  { s with reaches := s.reaches.map (fun r => if r.row == row && r.slot == slot && r.resident then f r else r) }

def Reach.ctb? (r : Reach) (col : Nat) : Option Ctb := look r.ctbs col

def Reach.modCtb (r : Reach) (col : Nat) (f : Ctb → Ctb) : Reach :=
  match look r.ctbs col with
  | some c => { r with ctbs := bindAt r.ctbs col (f c) }
  | none => r

def Ctb.group? (c : Ctb) (g : Nat) : Option Group := c.groups[g]?

def Ctb.modGroup (c : Ctb) (g : Nat) (f : Group → Group) : Ctb := { c with groups := c.groups.modify g f }

def State.ctb? (s : State) (row slot col : Nat) : Option Ctb := (s.reach? row slot).bind (·.ctb? col)

def State.modCtb (s : State) (row slot col : Nat) (f : Ctb → Ctb) : State :=
  s.modReach row slot (fun r => r.modCtb col f)

def State.modGroup (s : State) (row slot col g : Nat) (f : Group → Group) : State :=
  s.modCtb row slot col (fun c => c.modGroup g f)

def State.launch? (s : State) (id : Nat) : Option Launch := s.launches.find? (fun l => l.id == id)

def State.modLaunch (s : State) (id : Nat) (f : Launch → Launch) : State :=
  { s with launches := s.launches.map (fun l => if l.id == id then f l else l) }

/-! ### The executing position -/

/-- Everything the executing position stands in. -/
structure Here where
  cur    : Cur
  reach  : Reach
  rg     : RGroup
  ctb    : Ctb
  grp    : Group
  launch : Launch
  deriving DecidableEq, Repr

/-- The reach group whose registers a position uses: the hold's copy in a handler (15 R397). -/
def Reach.rgOf (r : Reach) (grp : Nat) (handler : Bool) : Option RGroup :=
  if handler then r.hold.map (·.rg) else r.rgs[grp]?

/-- The executing position, when there is one. -/
def State.here (s : State) : Option Here :=
  match s.cur with
  | none => none
  | some c =>
    match s.reach? c.row c.slot with
    | none => none
    | some r =>
      match r.ctb? c.col, r.rgOf c.grp c.handler, s.launch? r.launch with
      | some b, some rg, some l =>
        match b.group? c.grp with
        | some g => some { cur := c, reach := r, rg := rg, ctb := b, grp := g, launch := l }
        | none => none
      | _, _, _ => none

/-- The core of the executing position. -/
def Here.q (h : Here) : Nat := coreIx h.cur.row h.cur.col

/-- Change the executing group on its core. -/
def State.modG (s : State) (h : Here) (f : Group → Group) : State :=
  s.modGroup h.cur.row h.cur.slot h.cur.col h.cur.grp f

/-- Change the executing CTB. -/
def State.modC (s : State) (h : Here) (f : Ctb → Ctb) : State :=
  s.modCtb h.cur.row h.cur.slot h.cur.col f

/-- Change the registers of the executing position at the headland (15 R397: a solo handler's own copy). -/
def State.modRG (s : State) (h : Here) (f : RGroup → RGroup) : State :=
  s.modReach h.cur.row h.cur.slot (fun r =>
    if h.cur.handler then { r with hold := r.hold.map (fun x => { x with rg := f x.rg }) }
    else { r with rgs := r.rgs.modify h.cur.grp f })

/-- A uniform register of the executing position. -/
def Here.k (h : Here) (n : BitVec 6) : DWord := h.rg.k.getD n.toNat 0

/-- Write a uniform register (class K, 02 R51; 04 R127). -/
def State.setK (s : State) (h : Here) (n : BitVec 6) (v : DWord) : State :=
  s.modRG h (fun rg => { rg with k := rg.k.set n.toNat v })

/-- The lanes that are active (02 R55). -/
def Group.active (g : Group) : Word := g.div &&& g.prd &&& g.present

/-- The lane mask that a mask source names: index 0 is the present-lane mask (02 R47). -/
def Group.mask (g : Group) (n : BitVec 4) : Word := if n = 0 then g.present else g.m.getD n.toNat 0

/-- Supervisor mode (02 R56): in a handler, and throughout a launch with the supervisor attribute. -/
def Here.super (h : Here) : Bool := h.cur.handler || h.launch.record.super

/-- A valid debug right (15 R410). -/
def State.debugRight (s : State) (l : Launch) : Bool := l.record.debug != 0 && l.record.debug == s.regs.dbgtok

/-! ### Time (00 R7, R8; 10 R282) -/

/-- The tide of beat `b` of a timeline that began at tide `t0` (10 R282). -/
def planTide (t0 b : Nat) : Nat := t0 + 8192 * (b / 7936) + b % 7936

/-- Beats of a rotation frame at run length `2^e` (01 Table 1.4). -/
def frameBeats (e : Nat) : Nat := 512 * 2 ^ e

/-- The planned tide of run index `j` of the current frame of a reach on column `col` (10 R282). -/
def plannedAt (r : Reach) (l : Launch) (col j : Nat) : Nat :=
  planTide (l.effective.getD 0)
    (frameBeats l.record.runExp * r.frames + 32 * 2 ^ l.record.runExp * r.slot + 32 * j + 16 * col +
      16 * l.record.rowoff * r.row)

/-- The planned tide of the executing position (02 Table 2.24). A handler's positions take the planned tide of the run
index of the stop (notes/assumptions/17). -/
def Here.planned (h : Here) : Nat :=
  let j := if h.cur.handler then (h.reach.hold.map (·.j)).getD 0 else h.rg.idx
  plannedAt h.reach h.launch h.cur.col j

/-- The planned tide of the executing position at column 0 (03 R121). -/
def Here.planned0 (h : Here) : Nat :=
  let j := if h.cur.handler then (h.reach.hold.map (·.j)).getD 0 else h.rg.idx
  plannedAt h.reach h.launch 0 j

/-- Frame offset of a tide (00 R8). -/
def frameOff (t : Nat) : Nat := t % 8192

/-- Beats of slack water that have passed at a schedule tide (10 R283, R285). -/
def slackGone (t : Nat) : Nat := frameOff t - 7936

/-- The first tide with frame offset 0 at or after `t`. -/
def frameCeil (t : Nat) : Nat := 8192 * ((t + 8191) / 8192)

/-- `n` working tides after `t` (03 R99): slack water is not counted. -/
def workAfter (t n : Nat) : Nat :=
  let off := frameOff t
  let b := if off < 7936 then off else 7936
  let e := b + n
  8192 * (t / 8192) + 8192 * (e / 7936) + e % 7936

/-- Place a task: after every task of an earlier tide, or of the same tide and no higher class. -/
def insertEvent (e : Event) : List Event → List Event
  | [] => [e]
  | x :: l => if e.tide < x.tide ∨ (e.tide = x.tide ∧ e.cls < x.cls) then e :: x :: l else x :: insertEvent e l

/-- Classes of tasks at one tide: landings and engines first, then the scheduler, then visits. -/
def State.schedule (s : State) (tide cls : Nat) (t : Task) : State :=
  { s with agenda := insertEvent { tide := tide, cls := cls, task := t } s.agenda }

/-- A step of the device due at a tide, not before now. -/
def State.later (s : State) (tide cls : Nat) (i : Instr) : State :=
  s.schedule (max tide s.time) cls (.op i)

/-- A free Boolean (notes/assumptions/8). -/
def State.freeBool (s : State) : Bool × State := (Config.takesNew s.free, { s with free := s.free + 1 })

def State.report (s : State) (o : Out) : State := { s with out := s.out ++ [o] }

/-- A view's entry for all that an engine wrote under a number. -/
def Seen.of (wid : Nat) : Seen where
  by_ := .engine wid
  upto := none
  within := []
  own := false

/-- A write also stands over what an earlier engine write replaced (07 R215, 12 R332). -/
def patchFresh (a : Nat) (bs : List Byte) (f : Fresh) : Fresh :=
  let old := toBytes 8 f.old.toNat
  { f with old := BitVec.ofNat 64 (ofBytes ((List.range 8).map (fun i =>
      let b := f.addr + i
      if a ≤ b ∧ b < a + bs.length then bs.getD (b - a) 0 else old.getD i 0))) }

/-! ### Vector registers (02 R57 to R62) -/

def Group.vreg? (g : Group) (n : Nat) : Option VReg := g.vregs.find? (fun v => v.name == n)

/-- A name that reads without REG_UNDEF (02 R62). -/
def Group.written (g : Group) (n : Nat) : Bool :=
  match g.vreg? n with
  | some v => v.written
  | none => false

/-- Lane `k` of a name; an unwritten name reads 0. -/
def Group.vlane (g : Group) (n k : Nat) : Word :=
  match g.vreg? n with
  | some v => if v.written then v.val.getD k 0 else 0
  | none => 0

/-- Rows the group holds (02 R59). -/
def Group.footprint (g : Group) : Nat := g.vregs.length + (g.pend.map (·.rows)).sum

/-- The rows the group may hold (02 R59). -/
def Here.limit (h : Here) : Nat := h.launch.record.budget + h.grp.granted

/-- The names a pending result writes. -/
def Pending.names (p : Pending) : List Nat :=
  match p.reg with
  | none => []
  | some n => if p.w64 then [n, n + 1] else [n]

/-- Whether a pending result still writes a name. -/
def Pending.live (p : Pending) (n : Nat) : Bool := p.names.contains n && !p.dead.contains n

/-- Insert a row, names rising. -/
def insertReg (v : VReg) : List VReg → List VReg
  | [] => [v]
  | x :: l => if v.name < x.name then v :: x :: l else if v.name = x.name then v :: l else x :: insertReg v l

/-- Allocate a row of zeros to a name that has none (02 R57, R58). -/
def Group.alloc (g : Group) (n : Nat) : Group :=
  match g.vreg? n with
  | some _ => g
  | none => { g with vregs := insertReg { name := n, written := false, val := List.replicate 32 0 } g.vregs }

/-- The greatest landing position among pending results that write a name. -/
def lastDue (ps : List Pending) (n : Nat) : Option Nat :=
  ps.foldl (fun acc p => if p.live n then some (max p.due (acc.getD 0)) else acc) none

/-- Mark a freed name in the pending results that write it: they land into nothing, and the last of them holds the row
until it lands (02 R61). -/
def killPend (n : Nat) (due : Nat) : List Pending → List Pending
  | [] => []
  | p :: ps =>
    if p.live n then
      let here := p.due == due && !(ps.any (fun x => x.live n && x.due == due))
      { p with dead := n :: p.dead, rows := p.rows + (if here then 1 else 0) } :: killPend n due ps
    else p :: killPend n due ps

/-- Free a name (02 R60, R61). -/
def Group.free (g : Group) (n : Nat) : Group :=
  let g1 := { g with vregs := g.vregs.filter (fun v => v.name != n) }
  match lastDue g.pend n with
  | none => g1
  | some d => { g1 with pend := killPend n d g.pend }

/-- The names among `ns` whose row a last read returns at once. -/
def Group.freedRows (g : Group) (ns : List Nat) : Nat :=
  (ns.filter (fun n => (g.vreg? n).isSome && (lastDue g.pend n).isNone)).length

/-- Write the lanes of a mask in a name that has a row. -/
def writeReg (n : Nat) (lanes : Word) (vals : List Word) (vs : List VReg) : List VReg :=
  vs.map (fun v =>
    if v.name == n then
      { v with written := true,
               val := mkLanes (fun k => if bit lanes k then laneOf vals k else laneOf v.val k) }
    else v)

/-- Write a latch in the lanes of a mask (02 R63). -/
def writeLatch (l : Latch) (lanes : Word) (vals : List DWord) : Latch :=
  { val := mkLanes (fun k => if bit lanes k then laneOf vals k else laneOf l.val k), valid := l.valid ||| lanes }

/-- A result lands (02 R52, R61, R63, R64): its live names take it; its latch too when the run of its issue goes on. -/
def Group.landOne (g : Group) (run : Nat) (p : Pending) : Group :=
  let v1 := p.names.foldl (fun vs n =>
    if p.dead.contains n then vs
    else writeReg n p.lanes (p.vals.map (fun x => if some n == p.reg then lo32 x else hi32 x)) vs) g.vregs
  let l1 := match p.latch with
    | some n => if p.run == run then modAt g.latch n (fun l => writeLatch l p.lanes p.vals) else g.latch
    | none => g.latch
  { g with vregs := v1, latch := l1, iflags := g.iflags ||| p.flags
           seen := match p.see with
             | some w => { Seen.of w with own := true } :: g.seen
             | none => g.seen
           pseen := match p.see with
             | some w => g.pseen.modify 3 (fun l => Seen.of w :: l)
             | none => g.pseen }

/-- Results due at position `pos` land, in program order (02 R66, R68); the word of an `mstat` not before its item (08
R273). -/
def Group.land (g : Group) (run pos : Nat) : Group :=
  let now := g.pend.filter (fun p => p.due ≤ pos ∧ p.item = 0)
  let rest := g.pend.filter (fun p => ¬ (p.due ≤ pos ∧ p.item = 0))
  { (now.foldl (fun g p => g.landOne run p) g) with pend := rest }

/-- Pending results in the order of their landings. -/
def insertPend (p : Pending) : List Pending → List Pending
  | [] => [p]
  | x :: l => if p.due < x.due then p :: x :: l else x :: insertPend p l

/-- Every result in flight lands, but for those that wait for an engine item (02 R69). A latch takes it when its landing
`due < lim` lies in the run (02 R64, 15 R401). -/
def Group.landAll (g : Group) (run lim : Nat) : Group :=
  { (((g.pend.filter (fun p => p.item = 0)).foldl (fun l p => insertPend p l) []).foldl
      (fun g p => g.landOne run (if p.due < lim then p else { p with latch := none })) g) with
    pend := g.pend.filter (fun p => p.item ≠ 0) }

/-- Every latch becomes invalid (02 R64). -/
def Group.dropLatches (g : Group) : Group := { g with latch := g.latch.map (fun l => { l with valid := 0 }) }

/-- The names of a destination (02 R51, R52). -/
def dstNames (d : Dst) (w64 : Bool) : List Nat :=
  match d with
  | .latch _ => []
  | .reg n _ => if w64 then [n.toNat, n.toNat + 1] else [n.toNat]

def dstLatch : Dst → Nat
  | .reg _ l => l.toNat
  | .latch l => l.toNat

def dstReg : Dst → Option Nat
  | .reg n _ => some n.toNat
  | .latch _ => none

/-- Put (02 Table 2.24): the results of some lanes are in flight to a destination, landing `n` positions on, with the
flags that land with them. An instruction in which no lane ran still allocates the rows of its destination register, which is
written from its landing on (notes/assumptions/32: DESIGN CHOICE; 02 R85 calls Put for active lanes only, and R57 to R60 do not
say). -/
def State.put (s : State) (h : Here) (d : Dst) (w64 : Bool) (n : Nat) (lanes : Word) (vals : List DWord)
    (flags : Word) : State :=
  if lanes = 0 ∧ (dstReg d) = none then s else
  s.modG h (fun g =>
    let g1 := (dstNames d w64).foldl (fun g n => g.alloc n) g
    { g1 with pend := g1.pend ++ [{ due := h.rg.pos + n, run := h.reach.run, reg := (dstReg d), w64 := w64,
                                    latch := some (dstLatch d), lanes := lanes, vals := vals, dead := [], rows := 0,
                                    flags := flags, see := none, item := 0 }] })

/-! ### Faults -/

/-- Codes of 15 Table 15.1. -/
def cIllegalEncoding : Nat := 0x01
def cIllegalOpcode : Nat := 0x02
def cIllegalOperand : Nat := 0x03
def cPrivilege : Nat := 0x04
def cFetchStraddle : Nat := 0x05
def cSealed : Nat := 0x06
def cRegBound : Nat := 0x08
def cRegUndef : Nat := 0x09
def cRegQuota : Nat := 0x0A
def cLatchLost : Nat := 0x0B
def cMisalign : Nat := 0x10
def cAperture : Nat := 0x11
def cMapMiss : Nat := 0x12
def cAccess : Nat := 0x13
def cScratchLost : Nat := 0x14
def cLaneStoreBound : Nat := 0x15
def cMissedPromise : Nat := 0x18
def cStream : Nat := 0x1A
def cSound : Nat := 0x1C
def cMatrix : Nat := 0x1D
def cBeacon : Nat := 0x20
def cSoftware : Nat := 0x21
def cStep : Nat := 0x22
def cDouble : Nat := 0x28

/-- The run index in execution. -/
def State.runIx (s : State) : Nat := (s.issue.map (fun i => i.j)).getD 0

/-- Raise a cause at the executing position (15 R393, R394): the fault is recorded, and the group's cursor stands at
the lane. Resumption begins at the instruction itself unless the cause says otherwise. -/
def State.raiseAt (s : State) (h : Here) (wide : Bool) (cause : Nat) (addr : DWord) (lane : Nat) : State :=
  let s1 := s.modG h (fun g => { g with cursor := lane, again := g.again || !wide })
  let f : FaultRec :=
    { j := s.runIx, col := h.cur.col, grp := h.cur.grp, lane := lane, tlane := lane, cause := cause, addr := addr, wide := wide,
      late := false, planned := h.planned, pc := h.cur.pc, ilen := h.cur.ilen, res := h.cur.pc, curs := lane }
  { s1 with faults := s1.faults ++ [f] }

/-- A cause raised group-wide by a core, before any lane executes (02 R72). -/
def State.raise (s : State) (h : Here) (cause : Nat) (addr : DWord) : State := s.raiseAt h false cause addr 0

/-- A cause raised by the headland (15 R393): reach-wide. The position is executed on no further core. -/
def State.raiseWide (s : State) (h : Here) (cause : Nat) (addr : DWord) : State :=
  let s1 := s.raiseAt h true cause addr 0
  { s1 with issue := s1.issue.map (fun i => { i with todo := i.todo.filter (fun e => e.2 != h.cur.grp) }) }

/-- A group-wide cause that reports a lane (08 R261, 07 R234). -/
def State.raiseTl (s : State) (h : Here) (cause : Nat) (addr : DWord) (lane : Nat) : State :=
  let s1 := s.raise h cause addr
  { s1 with faults := s1.faults.modify (s1.faults.length - 1) (fun f => { f with tlane := lane }) }

/-- The position is complete for the executing group on its core. -/
def State.complete (s : State) (h : Here) : State := s.modG h (fun g => { g with cursor := 32 })

/-- The headland has done its part of the position, and execution goes on at `npc` (04 R127, R129). -/
def State.goto (s : State) (h : Here) (npc : DWord) : State := s.modRG h (fun rg => { rg with npc := npc })

/-- Run a meaning at the executing position. -/
def State.withHere (s : State) (f : Here → State) : Out1 :=
  match s.here with
  | some h => .next (f h)
  | none => .fault .noGroup

/-! ### Taking a trap and returning from it (15 R392 to R401) -/

/-- TRAPCAUSE (15 Table 15.2). -/
def trapCause (wide late : Bool) (inner orig code : Nat) : Word :=
  (if wide then 0x02000000 else 0) ||| (if late then 0x01000000 else 0) |||
    BitVec.ofNat 32 (65536 * inner + 256 * orig + code)

/-- TRAPLANE (15 Table 15.3). -/
def trapLane (ilen cursor lane : Nat) : Word := BitVec.ofNat 32 (65536 * ilen + 256 * cursor + lane)

/-- CURSOR of a trap record. -/
def TrapRec.cursor (t : TrapRec) : Nat := (t.lane.extractLsb' 8 6).toNat

/-- The trap record of a fault (15 R392). -/
def trapRecOf (f : FaultRec) : TrapRec where
  cause := trapCause f.wide f.late 0 0 f.cause
  pc := f.pc
  addr := f.addr
  lane := trapLane f.ilen f.curs f.tlane
  res := f.res

/-- The record of a DOUBLE over the record of the interrupted program (15 R392): the resumption keeps its values. -/
def doubleRec (t : TrapRec) (f : FaultRec) : TrapRec where
  cause := trapCause (t.cause.getLsbD 25) false f.cause (t.cause.extractLsb' 0 8).toNat cDouble
  pc := f.pc
  addr := f.addr
  lane := trapLane f.ilen t.cursor f.tlane
  res := t.res

/-- Taking a trap, for the handled group on its core (15 R394 step 5, R397): the record is written; EXM, divergence
stack and latches go to the shadow; every present lane is active, the stack is empty and the latches are invalid. The handler's
first position takes the number `pos` of the position of the stop; the positions before it stay marked (07 R234). Losses that the
program has yet to be told of wait in the shadow, for a trap moves no landing (08 R257; notes/assumptions/18: DEDUCED). -/
def Group.enterHandler (g : Group) (t : TrapRec) (hs : List Hdr) (pos : Nat) : Group :=
  { g with
    trap := t
    shadow := some { prd := g.prd, div := g.div, dstack := g.dstack, hstack := hs, latch := g.latch, marks := g.marks,
                     again := g.again, lateErr := g.lateErr }
    prd := 0xFFFFFFFF
    div := g.present
    dstack := []
    latch := g.latch.map (fun l => { l with valid := 0 })
    marks := g.marks.filter (fun m => decide (m.1 < pos))
    again := false
    lateErr := []
    cursor := 0 }

/-- The reach group's registers as a handler starts with them (15 R397): PC = HANDLER, an empty stack, its own k0-k63. -/
def RGroup.enterHandler (rg : RGroup) (handler : DWord) : RGroup :=
  { rg with pc := handler, npc := handler, hstack := [], head := false, tstep := false, wait := none, steps := [], idx := 0 }

/-- Returning from a trap, for the handled group on its core (15 R400): results of the handler land in registers and in
the handler's latches, then the shadow is restored, if a handler ran; the group goes on at CURSOR (33: no lane of it
remains), but idles where its position was complete, `past` the instruction that others of its reach issue again. A loss of the
handler's own accesses that is still to be reported is reported at the position of the resumption (07 R218 does not say where:
DESIGN CHOICE, notes/assumptions/18). -/
def Group.leaveHandler (g : Group) (run : Nat) (past : Bool) : Group :=
  let g1 := g.landAll run 0
  let g2 : Group := { g1 with cursor := if past then 32 else if g1.trap.cursor = 32 then 33 else g1.trap.cursor }
  match g1.shadow with
  | none => g2
  | some sh =>
    { g2 with prd := sh.prd, div := sh.div, dstack := sh.dstack, latch := sh.latch, marks := sh.marks, again := sh.again && !past
              lateErr := g1.lateErr.map (fun e => { e with due := 0 }) ++ sh.lateErr, shadow := none }

end Sys2Proof.Machine
end

