-- ==== Sys2Proof/Machine/Scratch.lean ====
section
/-! DEFINITION. Scratch: its bank geometry and Reed-Solomon protection (07 R211, R216 to R219), reads through a group's
path-0 view (12 R327, R332), writes, soundings and the trace FIFO (15 R413, R414). -/
namespace Sys2Proof.Machine

/-! ### The code (07 R216, R217) -/

/-- Multiplication by x in GF(2^8) with x^8 + x^4 + x^3 + x^2 + 1 (07 R216). -/
def gfX (b : Byte) : Byte := if b.getLsbD 7 then (b <<< 1) ^^^ 0x1D else b <<< 1

/-- b times x^n. -/
def gfXn (b : Byte) : Nat → Byte
  | 0 => b
  | n + 1 => gfX (gfXn b n)

/-- The power of x that a bank's symbol multiplies in the codeword (07 R216): data bank i holds x^(9-i), the check
banks 8 and 9 hold x and 1. -/
def bankPower (bank : Nat) : Nat := 9 - bank

/-- The two syndromes of an error pattern: its values at the roots 1 and x of g. -/
def syndromes (es : List (Nat × Byte)) : Byte × Byte :=
  es.foldl (fun (a : Byte × Byte) e => (a.1 ^^^ e.2, a.2 ^^^ gfXn e.2 (bankPower e.1))) (0, 0)

/-- The bank whose single error has these syndromes. -/
def singleError (s0 s1 : Byte) : Option Nat := (List.range 10).find? (fun b => gfXn s0 (bankPower b) == s1)

/-- Add an error value to an error pattern. -/
def addErr (b : Nat) (e : Byte) (es : List (Nat × Byte)) : List (Nat × Byte) :=
  ((b, e ^^^ ((look es b).getD 0)) :: es.filter (fun x => x.1 != b)).filter (fun x => x.2 != 0)

/-- Decoding a column (07 R217): `none` when uncorrectable, else what stays wrong and the bank that was corrected.
`mark` is the group's failed bank, 15 for none. -/
def decodeCol (mark : Nat) (es : List (Nat × Byte)) : Option (List (Nat × Byte) × Option Nat) :=
  let (s0, s1) := syndromes es
  if mark < 10 then
    if gfXn s0 (bankPower mark) == s1 then some (addErr mark s0 es, none) else none
  else if s0 == 0 && s1 == 0 then some (es, none)
  else
    match singleError s0 s1 with
    | some b => if s0 == 0 then none else some (addErr b s0 es, some b)
    | none => none

/-- Bank group, row, data bank and byte column of a physical scratch byte (07 R211). -/
def bankGroup (a : Nat) : Nat := a / 64 % 32
def bankRow (a : Nat) : Nat := a / 2048
def dataBank (a : Nat) : Nat := a / 8 % 8
def byteCol (a : Nat) : Nat := a % 8

/-- The failed bank marked for a bank group (07 Table 7.4). -/
def Core.mark (c : Core) (g : Nat) : Nat := (c.bankmap.extractLsb' (4 * g) 4).toNat

/-- The error pattern of the codeword that byte `a` lies in. -/
def Core.errAt (c : Core) (a : Nat) : List (Nat × Byte) :=
  match c.errs.find? (fun e => e.group == bankGroup a && e.row == bankRow a && e.col == byteCol a) with
  | some e => e.errs
  | none => []

/-- Whether a byte's column is uncorrectable. -/
def Core.lostByte (c : Core) (a : Nat) : Bool :=
  (decodeCol (c.mark (bankGroup a)) (c.errAt a)).isNone

/-- Whether any of `n` bytes at `a` lies in an uncorrectable column. -/
def Core.lost (c : Core) (a n : Nat) : Bool :=
  c.errs != [] && (List.range n).any (fun i => c.lostByte (a + i))

/-- Whether the 64-byte row of byte `a` holds an uncorrectable column (10 R457). -/
def Core.lostRow (c : Core) (a : Nat) : Bool := c.lost (64 * (a / 64)) 8

/-- What a read of byte `a` delivers: its contents with what decoding leaves wrong. -/
def Core.byte (c : Core) (a : Nat) : Byte :=
  if c.errs == [] then rd c.scratch a
  else
    match decodeCol (c.mark (bankGroup a)) (c.errAt a) with
    | some (es, _) => rd c.scratch a ^^^ (look es (dataBank a)).getD 0
    | none => rd c.scratch a

/-- `n` bytes as a read delivers them. -/
def Core.bytes (c : Core) (a n : Nat) : List Byte := (List.range n).map (fun i => c.byte (a + i))

/-- Increment a 31-bit counter with its sticky overflow in bit 31 (15 R416). -/
def bump31 (w : Word) : Word :=
  let n := (w.setWidth 31) + 1
  (w &&& 0x80000000) ||| (if n = 0 then 0x80000000 else 0) ||| n.setWidth 32

/-- Increment a 63-bit counter with its sticky overflow in bit 63 (15 R416). -/
def bump63 (w : DWord) : DWord :=
  let n := (w.setWidth 63) + 1
  (w &&& 0x8000000000000000) ||| (if n = 0 then 0x8000000000000000 else 0) ||| n.setWidth 64

/-- The corrections that a read of `n` bytes makes, as (bank group, bank), one for each column it uses. -/
def Core.corrections (c : Core) (a n : Nat) : List (Nat × Nat) :=
  if c.errs == [] then [] else
  ((List.range n).filter (fun i => i < 8)).filterMap (fun i =>
    match decodeCol (c.mark (bankGroup (a + i))) (c.errAt (a + i)) with
    | some (_, some b) => some (bankGroup (a + i), b)
    | _ => none)

/-- A step of the device increments a counter of a core, or of the device, at the present tide (15 R416). -/
def State.noteInc (s : State) (q n : Nat) : State :=
  if s.issue.isSome then s else { s with bumped := (q, n, s.time) :: s.bumped.filter (fun e => e.2.2 == s.time) }

/-- Count the corrections of a read (07 R217, R221), and mark a bank with four in this patrol pass (07 R219). -/
def State.countCorr (s : State) (q : Nat) (cs : List (Nat × Nat)) : State :=
  cs.foldl (fun s c =>
    let core := s.core q
    let key := 10 * c.1 + c.2
    let n := (look core.corr key).getD 0 + 1
    let s1 := (s.setCore q { core with scrcnt := bump31 core.scrcnt, corr := bindAt core.corr key n }).noteInc q 0x54
    if n = 4 then s1.later s1.time 0 (.bankMarkFailed q c.1 c.2) else s1) s

/-- Uncorrectable columns met in `n` bytes at `a` of a core: those of groups that already have a marked bank are errors in a second
one, and the core is reported to the host once for each such group (07 R219). -/
def State.bankLoss (s : State) (q a n : Nat) : State :=
  let c := s.core q
  if c.errs = [] then s
  else
    let gs := (c.errs.filter (fun e => decide (c.mark e.group < 10) && (decodeCol (c.mark e.group) e.errs).isNone &&
      (List.range 8).any (fun b => decide (a ≤ 2048 * e.row + 64 * e.group + 8 * b + e.col) &&
        decide (2048 * e.row + 64 * e.group + 8 * b + e.col < a + n)))).map (fun e => e.group)
    gs.foldl (fun (s : State) g => if s.out.contains (.report 0x219 q g) then s else s.report (.report 0x219 q g)) s

/-! ### Views (12 R327, R330, R332) -/

/-- The aligned 8-byte words of `n` bytes at `a`. -/
def wordsOf (a n : Nat) : List Nat :=
  if n = 0 then [] else (List.range ((a + n - 1) / 8 - a / 8 + 1)).map (fun i => 8 * (a / 8 + i))

/-- Whether byte `b` of a core, or of DRAM, lies in a set of regions. -/
def inRegions (core : Option Nat) (b : Nat) (rs : List Region) : Bool :=
  rs.any (fun r => r.core == core && decide (r.base ≤ b) && decide (b < r.base + r.len))

/-- Whether a view holds a write of a stamp to byte `b`. -/
def sees (view : List Seen) (by_ : Writer) (stamp : Nat) (core : Option Nat) (b : Nat) : Bool :=
  view.any (fun v => v.by_ == by_ && (match v.upto with
    | some n => decide (stamp < n)
    | none => true) && v.within.all (inRegions core b))

/-- Whether a view holds a write to byte `b` that a word remembers. -/
def Fresh.seenBy (f : Fresh) (view : List Seen) (core : Option Nat) (b : Nat) : Bool := sees view f.by_ f.stamp core b

/-- The bytes of a word that satisfy `f`. -/
def byteMask (f : Nat → Bool) : BitVec 8 := BitVec.ofNat 8 (((List.range 8).filter f).map (2 ^ ·)).sum

/-- A word with the bytes of a mask replaced. -/
def mixBytes (m : BitVec 8) (new old : DWord) : DWord :=
  BitVec.ofNat 64 (ofBytes ((List.range 8).map (fun i => if m.getLsbD i then (toBytes 8 new.toNat).getD i 0 else (toBytes 8 old.toNat).getD i 0)))

/-- A read of a word in progress, from its latest write back: its contents, the bytes not yet settled, the next free
Boolean, and the unseen writes that it has delivered. -/
structure Pick where
  word : DWord
  left : BitVec 8
  free : Nat
  got  : List Fresh
  deriving DecidableEq, Repr

/-- The contents of the aligned 8-byte word at `w` as a reader may find it, from the latest write back: in each byte the
latest write that is visible, or any write after it; a word's unseen write is taken whole (10 R297, 12 R332;
notes/assumptions/8). -/
def pickWord (visible : Fresh → Nat → Bool) (w : Nat) : List Fresh → Pick → Pick
  | [], p => p
  | f :: fs, p =>
    let cov := p.left &&& f.mask
    if f.addr == w && cov != 0 then
      let hid := cov &&& ~~~(byteMask (fun i => visible f (w + i)))
      if hid = 0 then pickWord visible w fs { p with left := p.left &&& ~~~cov }
      else if Config.takesNew p.free then
        pickWord visible w fs { p with left := p.left &&& ~~~cov, free := p.free + 1, got := f :: p.got }
      else pickWord visible w fs { p with word := mixBytes hid f.old p.word, left := p.left &&& ~~~(cov &&& ~~~hid), free := p.free + 1 }
    else pickWord visible w fs p

/-- A word as it stood before the writes of a stamp or later. -/
def wordBefore (stamp w : Nat) (v : DWord) (fs : List Fresh) : DWord :=
  (fs.filter (fun f => f.addr == w && decide (stamp ≤ f.stamp))).foldr (fun f v => mixBytes f.mask f.old v) v

/-- A write is visible to a reader of a path: to the vector path every write of path 0 is (12 R329), and any write that its
view holds. -/
def Fresh.visible (f : Fresh) (path q : Nat) (view : List Seen) (b : Nat) : Bool :=
  (path == 0 && f.path == 0) || f.seenBy view (some q) b

/-- Read `n` bytes (1, 2, 4 or 8, aligned) of scratch on a path with a view, as they stood before the writes of a stamp: the
bytes, the unseen writes delivered and the state. -/
def State.scrPick (s : State) (q a n : Nat) (path : Nat) (view : List Seen) (stamp : Nat) : List Byte × List Fresh × State :=
  let c := s.core q
  let s1 := s.countCorr q (c.corrections a n)
  let w := 8 * (a / 8)
  if c.fresh.any (fun f => f.addr == w && (decide (stamp ≤ f.stamp) || (List.range n).any (fun i => !f.visible path q view (a + i)))) then
    let cur := wordBefore stamp w (BitVec.ofNat 64 (ofBytes (c.bytes w 8))) c.fresh
    let p := pickWord (fun f b => f.visible path q view b) w (c.fresh.filter (fun f => decide (f.stamp < stamp))).reverse
      { word := cur, left := byteMask (fun i => decide (a ≤ w + i ∧ w + i < a + n)), free := s1.free, got := [] }
    (((toBytes 8 p.word.toNat).drop (a - w)).take n, p.got, { s1 with free := p.free })
  else (c.bytes a n, [], s1)

/-- Read `n` bytes of scratch on the vector path with a view. -/
def State.scrRead (s : State) (q a n : Nat) (view : List Seen) : List Byte × State :=
  let r := s.scrPick q a n 0 view s.wseq
  (r.1, r.2.2)

/-- What a group has read of unseen writes it reads from then on (12 R332). -/
def seenWords (q : Nat) (fs : List Fresh) : List Seen :=
  fs.map (fun f => { by_ := f.by_, upto := some (f.stamp + 1), within := [[{ core := some q, base := f.addr, len := 8 }]], own := true })

/-- Read `n` bytes of scratch for the executing group, as they stood before the writes of a stamp. -/
def State.groupRead (s : State) (h : Here) (q a n stamp : Nat) : List Byte × State :=
  let view := ((s.ctb? h.cur.row h.cur.slot h.cur.col).bind (fun c => c.group? h.cur.grp)).elim h.grp.seen (fun g => g.seen)
  let r := s.scrPick q a n 0 view stamp
  (r.1, if r.2.1 = [] then r.2.2 else r.2.2.modG h (fun g => { g with seen := seenWords q r.2.1 ++ g.seen }))

/-! ### The trace (15 R413, R414) -/

/-- What a trace record says of its instruction (15 Table 15.10), and whether that is a vector store, which writes a record
in each active lane (15 R413). -/
structure TraceSrc where
  planned : Nat
  pc      : DWord
  x       : Nat
  y       : Nat
  z       : Nat
  stage   : Nat
  grp     : Nat
  lane    : Nat
  phase   : Word
  vector  : Bool
  deriving DecidableEq, Repr

/-- A trace record: 64 bytes (15 Table 15.10). -/
def traceRec (t : TraceSrc) (q kind : Nat) (a b : DWord) (byteAddr bcn : Nat) : List Byte :=
  toBytes 8 t.planned ++ toBytes 8 t.pc.toNat ++ toBytes 8 a.toNat ++ toBytes 8 b.toNat ++ toBytes 4 t.x ++
    toBytes 2 t.y ++ toBytes 2 t.z ++ toBytes 1 t.stage ++ toBytes 1 t.grp ++ toBytes 1 t.lane ++ toBytes 1 kind ++
    toBytes 4 t.phase.toNat ++ toBytes 4 byteAddr ++ toBytes 1 q ++ toBytes 1 bcn ++ toBytes 10 0

/-- A record is dropped (15 R414). -/
def State.lossOne (s : State) (q : Nat) : State :=
  { s.noteInc q 0x10B with regs := { s.regs with trloss := bump63 s.regs.trloss } }

/-- Queue a record on its core, which then drains; a full FIFO drops it and TRLOSS counts it (15 R414). -/
def State.traceOut (s : State) (q : Nat) (r : List Byte) : State :=
  let c := s.core q
  if c.fifo.length < 256 then
    let s1 := s.setCore q { c with fifo := c.fifo ++ [r] }
    if c.fifo = [] then s1.later s1.time 0 (.traceDrain q) else s1
  else s.lossOne q

/-- The trace source of the executing position, in a lane. -/
def Here.src (h : Here) (lane : Nat) : TraceSrc where
  planned := h.planned
  pc := h.cur.pc
  x := h.ctb.x
  y := h.ctb.y
  z := h.ctb.z
  stage := h.ctb.stage
  grp := h.cur.grp
  lane := lane
  phase := h.ctb.bar.phase
  vector := false

/-- Whether a watch register covers some of `n` bytes at `a` (15 Table 15.9). -/
def watchMeets (w : DWord) (a n : Nat) : Bool :=
  let first := (w.extractLsb' 0 21).toNat
  let last := (w.extractLsb' 21 21).toNat
  w.getLsbD 63 && decide (first ≤ last ∧ first < a + n ∧ a ≤ last)

/-- Whether a store to `n` bytes at `a` is watched. -/
def Core.watched (c : Core) (a n : Nat) : Bool :=
  n != 0 && c.watch.any (fun w => watchMeets w a n)

/-- The watch registers as a write of a lane meets them: in the beat of lane 0 one that a `syswr` is writing stands as it
was (15 R416). -/
def State.watchAt (s : State) (q lane : Nat) (c : Core) : Core :=
  if lane = 0 then
    ((s.issue.map (fun i => i.wrote)).getD []).foldl (fun (c : Core) e =>
      if e.1 = q ∧ 0x100 ≤ e.2.1 ∧ e.2.1 ≤ 0x103 then { c with watch := c.watch.set (e.2.1 - 0x100) e.2.2 } else c) c
  else c

/-- One sounding for each aligned 8-byte word that the store changed, and for the word of each lane of a vector store
(15 R413). -/
def State.sound (s : State) (q : Nat) (t : TraceSrc) (before after : Core) (a n : Nat) : State :=
  if (s.watchAt q t.lane before).watched a n then
    (wordsOf a n).foldl (fun s w =>
      let o := BitVec.ofNat 64 (rdVal before.scratch w 8)
      let v := BitVec.ofNat 64 (rdVal after.scratch w 8)
      if o = v ∧ t.vector = false then s else s.traceOut q (traceRec t q 1 o v w 0)) s
  else s

/-! ### Writes -/

/-- A write re-encodes the columns it touches: their stored contents become what decoding gave, without error
(07 R216, R217). What the read half of a partial write corrects is not counted (notes/assumptions/28: DESIGN CHOICE). -/
def Core.reencode (c : Core) (a n : Nat) : Core :=
  if c.errs == [] then c else
  (List.range n).foldl (fun c i =>
    let b := a + i
    match decodeCol (c.mark (bankGroup b)) (c.errAt b) with
    | some (es, _) =>
      let row := 64 * (b / 64)
      { c with
        scratch := es.foldl (fun m e =>
          if e.1 < 8 then wr m (row + 8 * e.1 + byteCol b) (rd m (row + 8 * e.1 + byteCol b) ^^^ e.2) else m) c.scratch
        errs := c.errs.filter (fun e => !(e.group == bankGroup b && e.row == bankRow b && e.col == byteCol b)) }
    | none => c) c

/-- The words of a write with what they held. -/
def Core.remember (c : Core) (a n : Nat) (by_ : Writer) (path stamp : Nat) : List Fresh :=
  (wordsOf a n).map (fun w =>
    { addr := w, old := BitVec.ofNat 64 (ofBytes (c.bytes w 8)), mask := byteMask (fun i => decide (a ≤ w + i ∧ w + i < a + n))
      by_ := by_, path := path, stamp := stamp })

/-- Write bytes at physical address `a` of a core's scratch: contents, code and soundings; the words remember it. -/
def State.scrWrite (s : State) (q a : Nat) (bs : List Byte) (t : TraceSrc) (by_ : Writer) (path : Nat) : State :=
  let c := s.core q
  let c1 := c.reencode a bs.length
  let c2 := { c1 with scratch := wrN c1.scratch a bs, fresh := c1.fresh ++ c.remember a bs.length by_ path s.wseq }
  ({ s.setCore q c2 with wseq := s.wseq + 1 } : State).sound q t c c2 a bs.length

/-- An engine writes bytes under a number (10 R297, 08 R258). -/
def State.engineWrite (s : State) (q a : Nat) (bs : List Byte) (t : TraceSrc) (wid path : Nat) : State :=
  s.scrWrite q a bs t (.engine wid) path

/-- Write one whole 64-byte row or a part of it as a transfer does (10 R457): a part of a row that holds an
uncorrectable column is not written. Answers whether bytes were lost. -/
def State.engineWriteRow (s : State) (q a : Nat) (bs : List Byte) (t : TraceSrc) (wid path : Nat) : Bool × State :=
  let c := s.core q
  if c.lostRow a && bs.length < 64 then (true, s.bankLoss q (64 * (a / 64)) 64)
  else
    let s1 := if c.lostRow a then
        s.setCore q { c with errs := c.errs.filter (fun e => !(e.group == bankGroup a && e.row == bankRow a)) } else s
    (false, s1.engineWrite q a bs t wid path)

end Sys2Proof.Machine
end

