-- ==== Sys2Proof/Machine/Flags.lean ====
section
/-! DEFINITION. The sticky flags of a group: IFLAGS (05 Table 5.1, 06 Table 6.2) and XFLAGS (10 Table 10.15). -/
namespace Sys2Proof.Machine

def fSATF : Word := 0x01
def fDIVZ : Word := 0x02
def fINV : Word := 0x04
def fDZ : Word := 0x08
def fOVF : Word := 0x10
def fUNF : Word := 0x20
def fINX : Word := 0x40
def fINT4RSV : Word := 0x80

/-- The number-format conditions among flags, in the order of a beacon's selection (15 Table 15.8). -/
def numConds (f : Word) : BitVec 6 := f.extractLsb' 2 6

/-- SetFlag (02 Table 2.24): flags are set, never cleared. -/
def State.setFlags (s : State) (h : Here) (f : Word) : State :=
  if f = 0 then s else s.modG h (fun g => { g with iflags := g.iflags ||| f })

def xROWSKIP : Word := 0x1
def xLOST : Word := 0x2

end Sys2Proof.Machine
end

