-- ==== Sys2Proof/Machine/Grid.lean ====
section
/-! DEFINITION. The geometry of a grid (03 R89, R97). -/
namespace Sys2Proof.Machine

/-- Stages of a block: STAGES holds the logarithm. -/
def Record.stageCount (r : Record) : Nat := 2 ^ r.stages

/-- Blocks of the grid. -/
def Record.blocks (r : Record) : Nat := r.gridx * r.gridy * r.gridz

/-- Blocks in one reach. -/
def Record.perReach (r : Record) : Nat := 16 / r.stageCount

/-- Reaches of the grid. -/
def Record.numReaches (r : Record) : Nat := (r.blocks + r.perReach - 1) / r.perReach

/-- The rows of ROWMASK, ascending. -/
def Record.rows (r : Record) : List Nat := (List.range 16).filter (fun n => r.rowmask.getLsbD n)

/-- Slots that the launch occupies on a core (03 R89). -/
def Record.slotsQ (r : Record) : Nat :=
  let n := r.rows.length
  if n = 0 then 1 else Nat.min 16 ((r.numReaches + n - 1) / n)

/-- Positions of the launch (03 R97). -/
def Record.positions (r : Record) : Nat := 16 * r.rows.length

/-- Row, slot and generation of reach `j`. -/
def Record.rowOf (r : Record) (j : Nat) : Nat := r.rows.getD (j % r.positions % r.rows.length) 0
def Record.slotOf (r : Record) (j : Nat) : Nat := j % r.positions / r.rows.length
def Record.genOf (r : Record) (j : Nat) : Nat := j / r.positions

/-- The rows that a group may hold at most (05 R173). -/
def Record.ceiling (r : Record) : Nat := 768 / r.slotsQ

/-- The CTBs of reach `j`, as (column, block, stage). -/
def Record.ctbsOf (r : Record) (j : Nat) : List (Nat × Nat × Nat) :=
  (List.range 16).filterMap (fun c =>
    let b := r.perReach * j + c / r.stageCount
    if b < r.blocks then some (c, b, c % r.stageCount) else none)

/-- All CTBs by linear index. -/
def Record.numCtbs (r : Record) : Nat := r.blocks * r.stageCount

end Sys2Proof.Machine
end

