-- ==== Sys2Proof/Machine/Operands.lean ====
section
/-! DEFINITION. Every operand form and the execution skeleton of an instruction (02 R46 to R52, R85): sources by kind,
streams (07 R232 to R234), the checks before any lane executes (02 R72), the lanes in order with their faults and
beacons (02 R65, 15 R407, R408), results, last reads and stream advances. -/
namespace Sys2Proof.Machine

/-- A source operand at its width, or the immediate that stands for it. -/
inductive Opnd where
  | src (s : Src) (w64 : Bool)
  | imm (v : DWord)
  deriving DecidableEq, Repr

/-- B of a 64 or 96i form at a width (02 R43, R45): IMM32 unchanged at 32 bits, sign-extended at 64. -/
def opndB (o : OpB) (w64 : Bool) : Opnd :=
  match o with
  | .src s => .src s w64
  | .imm w => .imm (if w64 then w.signExtend 64 else w.setWidth 64)

/-- Uni of a uniform operand or its immediate, sign-extended to 64 bits (02 R45). -/
def Here.uni (h : Here) (o : OpK) : DWord :=
  match o with
  | .k n => h.k n
  | .imm w => w.signExtend 64

/-- Uni of a uniform operand or its immediate, zero-extended. -/
def Here.uniZ (h : Here) (o : OpK) : DWord :=
  match o with
  | .k n => h.k n
  | .imm w => w.setWidth 64

/-! ### Streams (07 R231 to R234) -/

/-- Bytes of an element (07 R232). -/
def eszSize : Esz → Nat
  | .b32 => 4
  | .n16 => 2
  | .i16 => 2
  | .n8 => 1
  | .i8 => 1
  | .b64 => 8

/-- An unset stream. -/
def Stream.unset : Stream where
  base := 0
  esz := .b32
  wrap := false
  ext0 := 0
  ext := [0, 0, 0, 0]
  stride := [0, 0, 0, 0, 0]
  pos := [0, 0, 0, 0]
  setAt := 0

def Group.stream (g : Group) (n : BitVec 4) : Stream := g.sd.getD n.toNat Stream.unset

/-- The SHARED offset of lane `k`'s element (07 R232). -/
def Stream.off (d : Stream) (k : Nat) : Int :=
  (d.base.toNat : Int) + k * (d.stride.getD 0 0).toInt +
    ((List.range 4).map (fun i => (d.pos.getD i 0 : Int) * (d.stride.getD (i + 1) 0).toInt)).sum

/-- The odometer (07 R233): positions with their extents; `none` carries out of the last dimension. -/
def odometer : List Nat → List Nat → List Nat × Bool
  | p :: ps, e :: es =>
    if p + 1 < e then ((p + 1) :: ps, false)
    else
      let (qs, w) := odometer ps es
      (0 :: qs, w)
  | ps, _ => (ps, true)

/-- One advance of a stream (07 R233). -/
def Stream.advance (d : Stream) : Stream :=
  let (p, w) := odometer d.pos d.ext
  { d with pos := p, wrap := d.wrap || w }

/-- Extension of an element (07 R234). -/
def eszExt (e : Esz) (v : Nat) : DWord :=
  match e with
  | .i16 => ((BitVec.ofNat 16 v).signExtend 32).setWidth 64
  | .i8 => ((BitVec.ofNat 8 v).signExtend 32).setWidth 64
  | _ => BitVec.ofNat 64 v

/-- The stamp that the next write had when position `pos` of the group began; `now` for a position that is not remembered. -/
def Group.markAt (g : Group) (pos now : Nat) : Nat := ((g.marks.find? (fun m => m.1 == pos)).map (fun m => m.2)).getD now

/-- The executing group as a writer of path 0. -/
def Here.writer (h : Here) : Writer := .group h.launch.id h.ctb.lin h.cur.grp

/-- What a release of a group carries of its path-0 view (12 R330): its own writes so far, and what it has seen. -/
def Group.viewNow (g : Group) (me : Writer) (now : Nat) : List Seen :=
  { by_ := me, upto := some now, within := [], own := false } :: g.seen.filter (fun v => !v.own)

/-- The executing group's path-0 view. -/
def State.viewHere (s : State) (h : Here) : List Seen := h.grp.viewNow h.writer s.wseq

/-- The physical byte of a SHARED offset of the executing CTB. -/
def Here.phys (h : Here) (o : Nat) : Nat := h.ctb.base + o

/-- The vector that a stream delivers (07 R232, R234): the lanes below EXT0 read scratch as an `ld` of the group at
position u - 2 would, the others 0. -/
def State.streamVec (s : State) (h : Here) (n : BitVec 4) : List DWord × State :=
  let d := h.grp.stream n
  let z := eszSize d.esz
  let stamp := h.grp.markAt (h.rg.pos - 2) s.wseq
  (List.range (min 32 d.ext0)).foldl (fun (a : List DWord × State) k =>
    let (bs, s2) := a.2.groupRead h h.q (h.phys (d.off k).toNat) z stamp
    (a.1 ++ [eszExt d.esz (ofBytes bs)], s2)) ([], s)

/-- The lowest lane of a stream's vector whose element is lost (07 R234). -/
def State.streamLost (s : State) (h : Here) (n : BitVec 4) : Option Nat :=
  let d := h.grp.stream n
  (List.range (min 32 d.ext0)).find? (fun k => (s.core h.q).lost (h.phys (d.off k).toNat) (eszSize d.esz))

/-- The SHARED window's base (07 Table 7.1). -/
def sharedBase : DWord := 0xFFFFFF1000000000
def laneBase : DWord := 0xFFFFFF0000000000
def clusterBase : DWord := 0xFFFFFF2000000000

/-- The streams that sources name, each once. -/
def streamsOf : List Opnd → List (BitVec 4)
  | [] => []
  | .src (.sd n) _ :: l => if (streamsOf l).contains n then streamsOf l else n :: streamsOf l
  | _ :: l => streamsOf l

/-- An `mtile` is in progress while its group stands between its issue and its landing (08 R267). -/
def MtStep.holds (m : MtStep) (pos : Nat) : Bool :=
  decide (m.pos < pos) && (match m.land with
    | some d => decide (pos < d)
    | none => true)

/-- Whether an `mtile` in progress holds a stream of this group (08 R267). -/
def Here.mtileHolds (h : Here) (n : BitVec 4) : Bool :=
  match h.ctb.mtile with
  | some m => m.grp == h.cur.grp && m.sd == n && m.holds h.rg.pos
  | none => false

/-- The group-wide checks of a stream's shape (07 R234, 08 R267). -/
def Here.shapeBad (h : Here) (n : BitVec 4) : Bool :=
  let d := h.grp.stream n
  d.ext0 == 0 || d.esz == .b64 || (d.setAt == h.rg.pos && h.rg.pos != 0) || h.mtileHolds n

/-- The reads of a stream's vector that is not delivered still count what they correct and meet what they cannot (07 R217,
R219). -/
def State.meetStream (s : State) (h : Here) (n : BitVec 4) : State :=
  let d := h.grp.stream n
  (List.range (min 32 d.ext0)).foldl (fun s k =>
    let a := h.phys (d.off k).toNat
    (s.countCorr h.q ((s.core h.q).corrections a (eszSize d.esz))).bankLoss h.q a (eszSize d.esz)) s

/-- The group-wide checks of a stream named as a source (07 R234, 08 R267), as cause, address and lane. -/
def State.streamCheck (s : State) (h : Here) (n : BitVec 4) : Option (Nat × DWord × Nat) :=
  let d := h.grp.stream n
  let a := n.setWidth 64
  if h.shapeBad n then some (cStream, a, 0)
  else
    match s.streamLost h n with
    | some k => some (cScratchLost, sharedBase + BitVec.ofInt 64 (d.off k), k)
    | none => none

/-- The first failing stream check among several: every check of the first stream comes before those of the next (R234 gives the
order for one stream only: DESIGN CHOICE, notes/assumptions/32). -/
def State.streamChecks (s : State) (h : Here) : List (BitVec 4) → Option (Nat × DWord × Nat)
  | [] => none
  | n :: l => match s.streamCheck h n with
    | some f => some f
    | none => s.streamChecks h l

/-! ### Values of sources -/

/-- A source's value in lane `k` (02 R46): a 32-bit value stands zero-extended. -/
def Opnd.val (o : Opnd) (h : Here) (sv : List (BitVec 4 × List DWord)) (k : Nat) : DWord :=
  match o with
  | .imm v => v
  | .src (.v n _) w =>
    if w then pair (h.grp.vlane (n.toNat + 1) k) (h.grp.vlane n.toNat k) else (h.grp.vlane n.toNat k).setWidth 64
  | .src (.b n) w =>
    let v := ((h.grp.latch.getD n.toNat { val := [], valid := 0 }).val).getD k 0
    if w then v else (lo32 v).setWidth 64
  | .src (.k n) w => if w then h.k n else (lo32 (h.k n)).setWidth 64
  | .src (.sd n) _ => ((sv.find? (fun e => e.1 == n)).map (fun e => e.2.getD k 0)).getD 0

/-- A latch operand that is invalid in lane `k` (02 R65). -/
def Opnd.latchLost (o : Opnd) (h : Here) (k : Nat) : Option Nat :=
  match o with
  | .src (.b n) _ => if bit (h.grp.latch.getD n.toNat { val := [], valid := 0 }).valid k then none else some n.toNat
  | _ => none

/-- The register names that a source reads (02 R48). -/
def Opnd.reads : Opnd → List Nat
  | .src (.v n _) w => if w then [n.toNat, n.toNat + 1] else [n.toNat]
  | _ => []

/-- The names that a source's last-read bit frees (02 R60). -/
def Opnd.frees : Opnd → List Nat
  | .src (.v n true) w => if w then [n.toNat, n.toNat + 1] else [n.toNat]
  | _ => []

/-- Each element once. -/
def once : List Nat → List Nat
  | [] => []
  | n :: l => if (once l).contains n then once l else n :: once l

/-- The first source name that is unwritten, in the order A, B, C (02 R62, R72). -/
def Here.undef (h : Here) (ops : List Opnd) : Option Nat :=
  (ops.flatMap Opnd.reads).find? (fun n => !h.grp.written n)

/-- The footprint an instruction would reach: own last reads subtracted, the names it allocates added (02 R59, R60). -/
def Group.wouldHold (g : Group) (frees dst : List Nat) : Nat :=
  let fr := once frees
  g.footprint - g.freedRows fr +
    (dst.filter (fun n => (g.vreg? n).isNone || fr.contains n)).length

/-- Whether the instruction allocates at all (02 R59). -/
def Group.allocates (g : Group) (frees dst : List Nat) : Bool :=
  dst.any (fun n => (g.vreg? n).isNone || frees.contains n)

/-! ### Lanes -/

/-- What one lane of an instruction does: its result, the flags it meets, the fault it raises, for a memory access its
address (with the data, for a store), and the name that a `vput` reaches. -/
structure LaneOut where
  val   : DWord := 0
  flags : Word := 0
  fault : Option (Nat × DWord) := none
  ea    : Option DWord := none
  store : Option (DWord × Bool) := none
  wreg  : Option Nat := none
  deriving DecidableEq, Repr

/-- An instruction as the skeleton runs it (02 R85): its sources, its destination of class V or V2 with its width and
landing, whether beacons see it (15 R407), and what each lane does. A group-wide instruction (06 R203) computes all
lanes at once from the values of every lane, in `wide`, where it also checks the latches it reads; with no lane active it
writes nothing. -/
structure VecIn where
  ops   : List Opnd
  dst   : Option Dst := none
  w64   : Bool := false
  land  : Nat := 1
  steps : Bool := true
  lane  : Nat → List DWord → LaneOut := fun _ _ => {}
  wide  : Option ((Nat → List DWord) → List LaneOut) := none

/-- The destination that is written: a group-wide instruction with no lane active writes nothing (06 R203). -/
def VecIn.result (v : VecIn) (g : Group) : Option Dst := if v.wide.isSome ∧ g.active = 0 then none else v.dst

/-- The lanes of an instruction so far: results by lane, the fault that stopped them, the lanes a beacon halts, the
beacon stop, the beacons' state, the records to log and the hits gathered. -/
structure Lanes where
  outs  : List (Nat × LaneOut)
  fault : Option (Nat × Nat × DWord)
  halt  : List (Nat × Nat)
  stop  : Option (Nat × Nat)
  bcn   : List DWord
  logs  : List (Nat × Nat × DWord)
  hits  : List BAct
  deriving DecidableEq, Repr

/-- A beacon whose filters admit the executing group (15 Table 15.7). -/
def bcnAdmits (ctl : DWord) (slot grp : Nat) : Bool :=
  ctl.getLsbD 31 && (!ctl.getLsbD 24 || (ctl.extractLsb' 25 5).toNat == grp) &&
    (!ctl.getLsbD 19 || (ctl.extractLsb' 20 4).toNat == slot)

/-- The comparator of a value beacon (15 Table 15.8). -/
def bcnCmp (cmp : Nat) (x lo hi : Word) : Bool :=
  match cmp with
  | 0 => x == lo
  | 1 => x != lo
  | 2 => x.slt lo
  | 3 => !x.slt lo
  | 4 => x.ult lo
  | 5 => !x.ult lo
  | 6 => lo.ule x && x.ule hi
  | _ => (x &&& hi) == lo

/-- The 32-bit values a value beacon sees of a lane, with the register each is written to (15 Table 15.8). -/
def bcnValues (v : VecIn) (o : LaneOut) : List (Option Nat × Word) :=
  let r := match v.dst with
    | some d => if v.land = 1 then
        (if v.w64 then [((dstReg d), lo32 o.val), ((dstReg d).map (· + 1), hi32 o.val)] else [((dstReg d), lo32 o.val)])
      else []
    | none => []
  let st := match o.store with
    | some (x, w) => if w then [(none, lo32 x), (none, hi32 x)] else [(none, lo32 x)]
    | none => []
  let w := match o.wreg with
    | some n => [(some n, lo32 o.val)]
    | none => []
  r.map (fun e => (some (e.1.getD 4096), e.2)) ++ w ++ st

/-- Whether a lane hits a beacon (15 Table 15.8), and the address or value it hit with. -/
def bcnHit (v : VecIn) (o : LaneOut) (ctl lo hi : DWord) : Option DWord :=
  let cmp := (ctl.extractLsb' 7 3).toNat
  match (ctl.extractLsb' 5 2).toNat with
  | 0 =>
    match o.ea with
    | none => none
    | some ea =>
      let t := (if o.store.isSome then ctl.getLsbD 8 else ctl.getLsbD 7) && lo.ule ea && ea.ult hi
      if (o.store.isSome && ctl.getLsbD 8) || (o.store.isNone && ctl.getLsbD 7) then
        (if t != ctl.getLsbD 9 then some ea else none)
      else none
  | 1 =>
    let only := hi.getLsbD 63
    ((bcnValues v o).find? (fun e =>
      (!only || e.1 == some (hi.extractLsb' 32 11).toNat) && bcnCmp cmp e.2 (lo32 lo) (lo32 hi))).map
      (fun e => e.2.setWidth 64)
  | 2 => if cmp = 0 ∧ (numConds o.flags &&& lo.setWidth 6) ≠ 0 then some (o.val &&& 0xFFFFFFFF) else none
  | _ => none

/-- Count a hit (15 R407): the new control word and whether the beacon acts. -/
def bcnCount (ctl : DWord) : DWord × Bool :=
  let left := (ctl.extractLsb' 48 16).toNat
  let c1 := ctl ||| 0x40000000
  if left = 0 then (c1, true)
  else if left = 1 then (c1 &&& 0xFFFFFFFF7FFFFFFF, true)
  else ((c1 &&& 0x0000FFFFFFFFFFFF) ||| (BitVec.ofNat 64 (left - 1) <<< 48), false)

/-- The beacons that a lane hits, ascending: number and value; a beacon `fresh` in the lane's beat is passed over (15 R430). -/
def bcnHits (v : VecIn) (o : LaneOut) (slot grp : Nat) (los his : List DWord) (fresh : List Nat) (ctls : List DWord) :
    List (Nat × DWord) :=
  (ctls.zip (List.range ctls.length)).filterMap (fun (e : DWord × Nat) =>
    if bcnAdmits e.1 slot grp && !fresh.contains e.2 then
      (bcnHit v o e.1 (los.getD e.2 0) (his.getD e.2 0)).map (fun x => (e.2, x)) else none)

/-- A hit is counted, if its beacon is still armed: the beacons' new state, and what acts. -/
def bcnTake (grp k : Nat) (e : Nat × DWord) (ctls : List DWord) : List DWord × Option BAct :=
  let ctl := ctls.getD e.1 0
  let c := bcnCount ctl
  if ctl.getLsbD 31 then
    (ctls.set e.1 c.1,
      if c.2 then some { grp := grp, lane := k, beacon := e.1, action := (ctl.extractLsb' 10 2).toNat, val := e.2 } else none)
  else (ctls, none)

/-- The hits of a lane are counted in the order of the beacons. -/
def bcnEval (grp k : Nat) : List (Nat × DWord) → List DWord → List DWord × List BAct
  | [], ctls => (ctls, [])
  | e :: es, ctls =>
    let a := bcnTake grp k e ctls
    let r := bcnEval grp k es a.1
    (r.1, a.2.toList ++ r.2)

/-- The hits of the groups of a core so far, counted in beat order (15 R407): the beacons, what acts, the groups that a
HALT_GROUP has stopped at a lane, and those that a HALT_CTB lets go on. -/
structure BCount where
  ctls : List DWord
  acts : List BAct
  out  : List Nat
  all  : List Nat
  deriving DecidableEq, Repr

/-- The hits of one lane of a group are counted, unless the group executes no further. -/
def BCount.lane (hits : List BAct) (a : BCount) (k g : Nat) : BCount :=
  if a.out.contains g then a
  else
    let r := bcnEval g k ((hits.filter (fun x => x.lane == k && x.grp == g)).map (fun x => (x.beacon, x.val))) a.ctls
    let stop := r.2.any (fun x => x.action == 3)
    { ctls := r.1, acts := a.acts ++ r.2
      out := if r.2.any (fun x => x.action == 2) && !stop && !a.all.contains g then g :: a.out else a.out
      all := if stop then g :: a.all else a.all }

/-- What the gathered hits of a core do: by lane, ties by group (15 R407). -/
def bcnPlan (hits : List BAct) (ctls : List DWord) : BCount :=
  (List.range 32).foldl (fun a k => (List.range 32).foldl (fun a g => a.lane hits k g) a)
    { ctls := ctls, acts := [], out := [], all := [] }

/-- The names of an instruction's destination. -/
def VecIn.names (v : VecIn) : List Nat :=
  match v.dst with
  | some d => dstNames d v.w64
  | none => []

/-- The names that it writes: none where a group-wide instruction has no lane active. -/
def VecIn.written (v : VecIn) (g : Group) : List Nat := if v.wide.isSome ∧ g.active = 0 then [] else v.names

/-- What lane `k` of an instruction does, once its latches are valid (02 R85). -/
def VecIn.out (v : VecIn) (h : Here) (sv : List (BitVec 4 × List DWord)) (k : Nat) : LaneOut :=
  match v.wide with
  | some f => (f (fun j => v.ops.map (fun x => x.val h sv j))).getD k {}
  | none => v.lane k (v.ops.map (fun x => x.val h sv k))

/-- The invalid latch among the sources that lane `k` reads (02 R65); a group-wide instruction checks its own. -/
def VecIn.lost (v : VecIn) (h : Here) (k : Nat) : Option Nat :=
  if v.wide.isSome then none else v.ops.findSome? (fun o => o.latchLost h k)

/-- No beacon sees the position (15 R407): the instruction is not steppable, a handler runs, or none is armed or acts. -/
def VecIn.unseen (v : VecIn) (h : Here) (c : Core) (mode : BMode) : Bool :=
  !v.steps || h.cur.handler || h.cur.only.isSome || (match mode with
    | .planned acts => acts == []
    | _ => !(c.bcnctl.any (fun b => b.getLsbD 31)))

/-- The lanes before any of them has run. -/
def Lanes.start (bcn : List DWord) : Lanes where
  outs := []
  fault := none
  halt := []
  stop := none
  bcn := bcn
  logs := []
  hits := []

/-- What a lane that beacons see adds: its hits are counted, gathered, or looked up; a lane that HALT_LANE stops runs
nothing, one that HALT_GROUP stops ends the instruction. -/
def Lanes.watch (a : Lanes) (h : Here) (v : VecIn) (c : Core) (mode : BMode) (fresh : List Nat) (k : Nat) (o : LaneOut) : Lanes :=
  let hits := bcnHits v o h.cur.slot h.cur.grp c.bcnlo c.bcnhi (if k = 0 then fresh else [])
  let ran := { a with outs := a.outs ++ [(k, o)] }
  let acted (bcn : List DWord) (acts : List BAct) : Lanes :=
    let logs := a.logs ++ (acts.filter (fun x => x.action == 0)).map (fun x => (k, x.beacon, x.val))
    match acts.find? (fun x => x.action == 3) with
    | some x => { ran with bcn := bcn, logs := logs, stop := some (a.stop.getD (x.beacon, k)) }
    | none =>
      match acts.find? (fun x => x.action == 2) with
      | some x =>
        if a.stop.isSome then { ran with bcn := bcn, logs := logs }
        else { a with bcn := bcn, logs := logs, fault := some (k, cBeacon, BitVec.ofNat 64 (x.beacon + 32)) }
      | none =>
        match acts.find? (fun x => x.action == 1) with
        | some x => { ran with bcn := bcn, logs := logs, halt := a.halt ++ [(k, x.beacon)] }
        | none => { ran with bcn := bcn, logs := logs }
  match mode with
  | .each =>
    let r := bcnEval h.cur.grp k (hits a.bcn) a.bcn
    acted r.1 r.2
  | .gather => { ran with hits := a.hits ++ (hits a.bcn).map (fun e =>
      { grp := h.cur.grp, lane := k, beacon := e.1, action := 0, val := e.2 }) }
  | .planned acts => acted a.bcn (acts.filter (fun x => x.grp == h.cur.grp && x.lane == k))

/-- Run lanes in ascending order (02 R65, R85): the latch check, the lane's operation, its fault, then the beacons. -/
def runLanes (h : Here) (v : VecIn) (sv : List (BitVec 4 × List DWord)) (c : Core) (mode : BMode) (fresh : List Nat) :
    List Nat → Lanes → Lanes
  | [], a => a
  | k :: ks, a =>
    match v.lost h k with
    | some n => { a with fault := some (k, cLatchLost, BitVec.ofNat 64 n) }
    | none =>
      let o := v.out h sv k
      match o.fault with
      | some (cause, addr) => { a with fault := some (k, cause, addr) }
      | none =>
        let a1 := if v.unseen h c mode then { a with outs := a.outs ++ [(k, o)] } else a.watch h v c mode fresh k o
        if a1.fault.isSome then a1 else runLanes h v sv c mode fresh ks a1

/-- The lanes that an execution starts with: the active ones from the cursor on, or the one lane of an `hstep`. -/
def Here.lanes (h : Here) : List Nat :=
  match h.cur.only with
  | some k => [k]
  | none => (List.range 32).filter (fun k => decide (h.grp.cursor ≤ k) && bit h.grp.active k)

/-- The results that are put, as a mask and values by lane. -/
def laneMask (rs : List (Nat × DWord)) : Word := maskOf (fun k => rs.any (fun e => e.1 == k))
def laneVals (rs : List (Nat × DWord)) : List DWord := mkLanes (fun k => (look rs k).getD 0)

/-- Last reads at the end of an instruction (02 R60). A destination that equals a freed source takes a new row: lanes
that an earlier, interrupted part of the instruction wrote keep what it wrote. -/
def State.freeSources (s : State) (h : Here) (frees dst : List Nat) : State :=
  s.modG h (fun g =>
    (once frees).foldl (fun g n =>
      let kept := match g.vreg? n with
        | some v => mkLanes (fun k => if k < h.grp.cursor ∧ bit h.grp.active k then laneOf v.val k else (0 : Word))
        | none => []
      let g1 := g.free n
      if dst.contains n then
        let g2 := g1.alloc n
        { g2 with vregs := if h.grp.cursor = 0 then g2.vregs else
            g2.vregs.map (fun v => if v.name == n then { v with written := true, val := kept } else v) }
      else g1) g)

/-- The streams named as sources advance once (02 R50). -/
def State.advance (s : State) (h : Here) (ns : List (BitVec 4)) : State :=
  s.modG h (fun g => { g with sd := ns.foldl (fun l n => modAt l n.toNat Stream.advance) g.sd })

/-- A lane is halted by a beacon (15 R408): its bits leave DIV and every saved DIV, and its snapshot is kept. -/
def Group.haltLane (g : Group) (k : Nat) (pc : DWord) (hold : Nat) : Group :=
  let clear (w : Word) : Word := w &&& ~~~(maskOf (fun i => i == k))
  { g with
    snaps := g.snaps ++ [{ lane := k, div := bit g.div k, stack := g.dstack.map (fun f => bit f.saved k), pc := pc,
                           hold := hold }]
    hlm := g.hlm ||| maskOf (fun i => i == k)
    div := clear g.div
    dstack := g.dstack.map (fun f => { f with saved := clear f.saved }) }

/-- A fault record of a beacon whose resumption begins at the next instruction (15 R408). -/
def State.raiseNext (s : State) (h : Here) (cause : Nat) (addr : DWord) (lane : Nat) : State :=
  let f : FaultRec :=
    { j := s.runIx, col := h.cur.col, grp := h.cur.grp, lane := 0, tlane := lane, cause := cause, addr := addr, wide := false,
      late := false, planned := h.planned, pc := h.cur.pc, ilen := h.cur.ilen, res := h.rg.npc, curs := 0 }
  { s with faults := s.faults ++ [f] }

/-- The records of the LOG action (15 R408, Table 15.10). -/
def State.logBeacons (s : State) (h : Here) (ctls : List DWord) (logs : List (Nat × Nat × DWord)) : State :=
  logs.foldl (fun s l => s.traceOut h.q (traceRec (h.src l.1) h.q 2 l.2.2 (ctls.getD l.2.1 0) 0 l.2.1)) s

/-- The stop record of HALT_CTB (15 Table 15.10). -/
def State.stopRec (s : State) (h : Here) : State :=
  let b := h.ctb.bar
  let ended := maskOf (fun g => (h.ctb.groups[g]?.map (·.ended)).getD false)
  let exr : Word := match b.exr with
    | some x => 0x80000000 ||| BitVec.ofNat 32 x
    | none => 0
  s.traceOut h.q (traceRec { h.src 255 with lane := 255 } h.q 4 (pair (BitVec.ofNat 32 b.remote.length) b.arrived)
    (pair exr ended) 0 0)

/-- A halted lane's snapshot carries 0 until the hold that its halt opens is set up (15 R409). -/
def newHold : Nat := 0

/-- The vectors of the streams that sources name (07 R234), and the state with their reads counted. -/
def State.readStreams (s : State) (h : Here) (ns : List (BitVec 4)) : List (BitVec 4 × List DWord) × State :=
  ns.foldl (fun (a : List (BitVec 4 × List DWord) × State) n =>
    let (l, s1) := a.2.streamVec h n
    (a.1 ++ [(n, l)], s1)) ([], s)

/-- What an instruction's beacons owe its end (15 R408), once what an interrupted part of it owes is counted: the first stop
if there is one, else the lowest halted lane. -/
def Halting.join (old : Option Halting) (stop : Option (Nat × Nat)) (halt : List (Nat × Nat)) : Option Halting :=
  let new : Option Halting := match stop with
    | some x => some { stop := true, beacon := x.1, lane := x.2 }
    | none => halt.head?.map (fun x => { stop := false, beacon := x.2, lane := x.1 })
  match old, new with
  | some o, some n => some (if n.stop && !o.stop then n else o)
  | some o, none => some o
  | none, n => n

/-- The end of an instruction with what its beacons owe (15 R408): the stop record, and BEACON at the next instruction. -/
def State.endHalts (s : State) (h : Here) (x : Option Halting) : State :=
  match x with
  | none => s
  | some x =>
    let s1 := s.modG h (fun g => { g with halting := none })
    if x.stop then (s1.stopRec h).raiseNext h cBeacon (BitVec.ofNat 64 (x.beacon + 48)) x.lane
    else s1.raiseNext h cBeacon (BitVec.ofNat 64 (x.beacon + 16)) x.lane

/-- The lanes that HALT_LANE has halted; none where a beacon of wider scope acts in the instruction (15 R408). -/
def Lanes.halted (r : Lanes) : List (Nat × Nat) :=
  if r.stop.isSome || (r.fault.map (fun f => f.2.1 == cBeacon)).getD false then [] else r.halt

/-- A fault at a lane leaves what the beacons owe for the end of the instruction (15 R408). -/
def State.oweHalts (s : State) (h : Here) (x : Option Halting) : State :=
  if x = none then s else s.modG h (fun g => { g with halting := x })

/-- What the lanes did takes effect: `eff` of the lanes that ran, given the lane before which they stopped (answering the
results to put), flags, last reads and results; then a fault, or the end of the instruction with its beacons. -/
def State.vecEnd (s : State) (h : Here) (v : VecIn) (r : Lanes)
    (eff : State → Nat → List (Nat × LaneOut) → State × List (Nat × DWord)) : State :=
  let frees := v.ops.flatMap Opnd.frees
  let dst := v.written h.grp
  let core := s.core h.q
  let halted := r.halted
  let outs := r.outs.filter (fun o => !(halted.any (fun x => x.1 == o.1)))
  let s1 := if r.bcn == core.bcnctl then s else s.setCore h.q { core with bcnctl := r.bcn }
  let s2 := s1.logBeacons h r.bcn r.logs
  let (s3, rs) := eff s2 (match r.fault with | some f => f.1 | none => 32) outs
  let fl := outs.foldl (fun f o => f ||| o.2.flags) 0
  let s4 := if v.land = 1 then s3.setFlags h fl else s3
  let fin : Bool := r.fault.isNone && h.cur.only.isNone
  let s5 := if fin then s4.freeSources h frees dst else s4
  let s6 := match v.result h.grp with
    | some d => s5.put h d v.w64 v.land (laneMask rs) (laneVals rs) (if v.land = 1 then 0 else fl)
    | none => s5
  let s7 := if halted = [] then s6 else s6.modG h (fun g => halted.foldl (fun g x => g.haltLane x.1 h.cur.pc newHold) g)
  let owed := Halting.join (if h.cur.handler then none else h.grp.halting) r.stop halted
  match r.fault with
  | some (k, cause, addr) => (s7.oweHalts h owed).raiseAt h false cause addr k
  | none =>
    if h.cur.only.isSome then s7 else ((s7.advance h (streamsOf v.ops)).complete h).endHalts h owed

/-- How beacons count at the executing position (15 R407). -/
def State.bcnMode (s : State) (h : Here) : BMode :=
  match s.issue with
  | some i => if i.col = some h.cur.col then i.mode else .each
  | none => .each

/-- The beacons of the executing core that were armed at this run index (15 R430). -/
def State.bcnFresh (s : State) (h : Here) : List Nat :=
  ((s.issue.map (fun i => i.fresh)).getD []).filterMap (fun e => if e.1 = h.q then some e.2 else none)

/-- The hits of an instruction are kept while a core's are gathered. -/
def State.keepHits (s : State) (hits : List BAct) : State :=
  if hits = [] then s else { s with issue := s.issue.map (fun i => { i with hits := i.hits ++ hits }) }

/-- Execute() of 02 R85 at the executing position: the checks of R72 with the class's own after the streams', then the
lanes, then their effects `eff` and the end of the instruction. -/
def State.vec (s : State) (h : Here) (v : VecIn) (check : Option (Nat × DWord))
    (eff : State → Nat → List (Nat × LaneOut) → State × List (Nat × DWord)) : State :=
  let frees := v.ops.flatMap Opnd.frees
  let dst := v.written h.grp
  if h.grp.cursor = 33 then
    (((s.freeSources h (frees.filter h.grp.written) dst).advance h (streamsOf v.ops)).complete h).endHalts h h.grp.halting
  else
  match h.undef v.ops with
  | some n => s.raise h cRegUndef (BitVec.ofNat 64 n)
  | none =>
    if h.grp.allocates frees dst && decide (h.limit < h.grp.wouldHold frees dst) then
      s.raise h cRegQuota (BitVec.ofNat 64 (h.grp.wouldHold frees dst))
    else
      match s.streamChecks h (streamsOf v.ops) with
      | some (cause, addr, l) =>
        let s1 := s.raiseTl h cause addr l
        if cause = cScratchLost then (streamsOf v.ops).foldl (fun s n => s.meetStream h n) s1 else s1
      | none =>
        match check with
        | some (cause, addr) => s.raise h cause addr
        | none =>
          let sr := s.readStreams h (streamsOf v.ops)
          let core := sr.2.core h.q
          let r := runLanes h v sr.1 core (s.bcnMode h) (s.bcnFresh h) h.lanes (Lanes.start core.bcnctl)
          (sr.2.keepHits r.hits).vecEnd h v r eff

/-- Results are the lanes' values; no other effect. -/
def justVals (s : State) (_stop : Nat) (outs : List (Nat × LaneOut)) : State × List (Nat × DWord) :=
  (s, outs.map (fun o => (o.1, o.2.val)))

/-- A lane operation without an effect beside its result (02 R85). -/
def State.compute (s : State) (v : VecIn) : Out1 :=
  s.withHere (fun h => s.vec h v none justVals)

/-- Whether lane `k` belongs to what an execution covers: from the cursor to the stop, or the one lane of an `hstep`. -/
def Here.covers (h : Here) (stop k : Nat) : Bool :=
  match h.cur.only with
  | some l => l == k
  | none => decide (h.grp.cursor ≤ k) && decide (k < stop)

/-- Destination class M (05 R150): every bit is written, 0 in lanes that are not active; a lane that a beacon halted
keeps its bit (15 R408). -/
def Group.putMask (g : Group) (h : Here) (d : BitVec 4) (stop : Nat) (outs : List (Nat × LaneOut)) : Group :=
  { g with m := g.m.set d.toNat (maskOf (fun k =>
    if h.covers stop k then
      match look outs k with
      | some o => o.val != 0
      | none => if bit h.grp.active k then bit (g.m.getD d.toNat 0) k else false
    else bit (g.m.getD d.toNat 0) k)) }

/-- The effect of an instruction with a mask for its destination. -/
def toMask (h : Here) (d : BitVec 4) (s : State) (stop : Nat) (outs : List (Nat × LaneOut)) :
    State × List (Nat × DWord) := (s.modG h (fun g => g.putMask h d stop outs), [])

/-- A lane operation with a mask for its destination. -/
def State.computeMask (s : State) (ops : List Opnd) (d : BitVec 4) (f : List DWord → Bool × Word) : Out1 :=
  s.withHere (fun h => s.vec h
    { ops := ops, lane := fun _ vs => { val := if (f vs).1 then 1 else 0, flags := (f vs).2 } } none (toMask h d))

/-- The same value to every active lane of a class V or V2 destination, landing at +1, after a check of the instruction's
class (02 R72), with an effect on the state besides. -/
def State.putChecked (s : State) (h : Here) (d : Dst) (w64 : Bool) (v : DWord) (bad : Option (Nat × DWord))
    (eff : State → State) : State :=
  s.vec h { ops := [], dst := some d, w64 := w64, steps := false, lane := fun _ _ => { val := v } } bad
    (fun s => justVals (eff s))

/-- The same value to every active lane of a class V or V2 destination (03 R119, 12 R339), landing at +1. -/
def State.putAll (s : State) (h : Here) (d : Dst) (w64 : Bool) (v : DWord) : State :=
  s.putChecked h d w64 v none id

end Sys2Proof.Machine
end

