-- ==== Sys2Proof/Machine/Dram.lean ====
section
/-! DEFINITION. DRAM and translation: bytes, contents under a replaced key (18 R444, R446), page walks (07 R225, R226),
translation sets (07 R224, R227), access tables (07 R229, R230), and fetching an instruction (02 R36 to R40, Table 2.9
steps 1 to 3). -/
namespace Sys2Proof.Machine

/-- Bytes of DRAM (01 Table 1.1): 384 GiB. -/
def dramSize : Nat := 384 * 2 ^ 30

/-- One byte of DRAM; a byte written under a key that a scrub replaced reads as a free value (notes/assumptions/9). -/
def State.dramByte (s : State) (a : Nat) : Byte :=
  if s.scrambled.any (fun r => decide (r.1 ≤ a) && decide (a < r.1 + r.2)) then Config.scrambledByte s.host.epoch a
  else rd s.dram a

def State.dramBytes (s : State) (a n : Nat) : List Byte := (List.range n).map (fun i => s.dramByte (a + i))

def State.dramVal (s : State) (a n : Nat) : Nat := ofBytes (s.dramBytes a n)

/-- The ranges left of a range when `n` bytes at `a` leave it. -/
def cutRange (a n : Nat) (r : Nat × Nat) : List (Nat × Nat) :=
  if a + n ≤ r.1 ∨ r.1 + r.2 ≤ a then [r]
  else
    (if r.1 < a then [(r.1, a - r.1)] else []) ++
      (if a + n < r.1 + r.2 then [(a + n, r.1 + r.2 - (a + n))] else [])

/-- Write bytes of DRAM. -/
def State.dramWrite (s : State) (a : Nat) (bs : List Byte) : State :=
  { s with dram := wrN s.dram a bs
           dfresh := if s.dfresh = [] then [] else s.dfresh.map (patchFresh a bs)
           scrambled := if s.scrambled = [] then [] else s.scrambled.flatMap (cutRange a bs.length) }

/-! ### Page tables (07 Table 7.6, R226) -/

/-- What a walk of a page finds: its physical page, its size in bytes and its attributes. -/
structure Leaf4 where
  pa   : Nat
  size : Nat
  r    : Bool
  w    : Bool
  x    : Bool
  ord  : Bool
  red  : Bool
  bin  : Bool
  rdx  : Nat
  deriving DecidableEq, Repr

/-- The bytes that SIZE of an entry stands for (07 Table 7.6). -/
def pageSize (e : DWord) : Nat :=
  if e.extractLsb' 4 2 = 0 then 4096 else if e.extractLsb' 4 2 = 1 then 65536 else 2097152

/-- The physical page or table of an entry. -/
def pagePa (e : DWord) : Nat := (e.extractLsb' 12 40).toNat * 4096

/-- What 07 R226 asks of every entry, a leaf or a pointer: no reserved bit or size, an aligned page below 384 GiB, BIN and RDX
with RED alone, and no RED with X. -/
def entryOk (e : DWord) : Bool :=
  !e.getLsbD 6 && e.extractLsb' 10 2 == 0 && e.extractLsb' 4 2 != 3 && decide (pagePa e % pageSize e = 0) &&
    (e.getLsbD 8 || (!e.getLsbD 9 && e.extractLsb' 52 12 == 0)) && !(e.getLsbD 8 && e.getLsbD 3) &&
    decide (pagePa e < dramSize)

/-- A page table entry as a leaf of a level (07 R226): the third level holds 2 MiB leaves, the last 4 KiB and 64 KiB
ones; any other entry is invalid. -/
def leafOf (e : DWord) (level ix : Nat) : Option Leaf4 :=
  let sz := (e.extractLsb' 4 2).toNat
  let place := (level = 2 ∧ sz = 2) ∨ (level = 3 ∧ (sz = 0 ∨ (sz = 1 ∧ ix % 16 = 0)))
  if place ∧ entryOk e = true ∧ pagePa e + pageSize e ≤ dramSize then
    some { pa := pagePa e, size := pageSize e, r := e.getLsbD 1, w := e.getLsbD 2, x := e.getLsbD 3, ord := e.getLsbD 7,
           red := e.getLsbD 8, bin := e.getLsbD 9, rdx := (e.extractLsb' 52 12).toNat }
  else none

/-- The walk of a virtual address (07 R226): `fuel` counts the levels left. A 64 KiB leaf serves its 16 indexes. -/
def State.walkFrom (s : State) (va : Nat) : Nat → Nat → Nat → Option (Leaf4 × Nat)
  | 0, _, _ => none
  | fuel + 1, level, table =>
    let ix := va / 2 ^ (39 - 9 * level) % 512
    let ent (i : Nat) : DWord := BitVec.ofNat 64 (s.dramVal (table + 8 * i) 8)
    let big := ent (16 * (ix / 16))
    let bigLeaf := if level = 3 ∧ big.getLsbD 0 ∧ (big.extractLsb' 1 3) ≠ 0 then leafOf big 3 (16 * (ix / 16)) else none
    match bigLeaf with
    | some l => if l.size = 65536 then some (l, va / 65536 * 65536) else
        let e := ent ix
        if e.getLsbD 0 ∧ (e.extractLsb' 1 3) ≠ 0 then (leafOf e 3 ix).map (fun l => (l, va / l.size * l.size)) else none
    | none =>
      let e := ent ix
      if e.getLsbD 0 then
        if (e.extractLsb' 1 3) = 0 then (if entryOk e then s.walkFrom va fuel (level + 1) (pagePa e) else none)
        else (leafOf e level ix).map (fun l => (l, va / l.size * l.size))
      else none

/-- The leaf that maps a virtual address, with the virtual base of its page (07 R226). -/
def State.walk (s : State) (va : Nat) : Option (Leaf4 × Nat) :=
  if va < 2 ^ 48 then s.walkFrom va 4 0 ((s.regs.ptbase.extractLsb' 12 40).toNat * 4096) else none

/-! ### Translation sets (07 R224, R227) -/

/-- The runs that cover a virtual address. -/
def Launch.runs (l : Launch) (va : Nat) : List Run :=
  l.trans.filter (fun r => decide (r.va ≤ va) && decide (va < r.va + r.len))

/-- The physical address of a virtual one. -/
def Launch.phys (l : Launch) (va : Nat) : Option Nat :=
  match l.runs va with
  | r :: _ => some (r.pa + (va - r.va))
  | [] => none

/-- Permissions of an address: the union over the regions that cover it (03 R92, 07 R227). -/
def Launch.canR (l : Launch) (va : Nat) : Bool := (l.runs va).any (·.r)
def Launch.canW (l : Launch) (va : Nat) : Bool := (l.runs va).any (·.w)
def Launch.canX (l : Launch) (va : Nat) : Bool := (l.runs va).any (·.x)

/-- Whether a global byte lies in a RED page of the launch, and in which descriptor's. -/
def Launch.redOf (l : Launch) (va : Nat) : Option Nat := ((l.runs va).find? (·.red)).map (·.rdx)

/-- An address that a writeback, a save, a dump or a status entry may write: a contribution region is written by no path but
`xcopy.out` (13 R358). -/
def Launch.mayWrite (l : Launch) (va : Nat) : Bool := l.canW va && (l.redOf va).isNone

/-- The stack that holds a physical address (01 R11, 10 R290). -/
def stackOf (pa : Nat) : Nat := pa / 256 % 4096 / 512

/-- Whether ACCTL lets a master read or write a target (07 R229). -/
def State.acctlR (s : State) (target master : Nat) : Bool := (s.regs.acctl.getD target 0).getLsbD master
def State.acctlW (s : State) (target master : Nat) : Bool := (s.regs.acctl.getD target 0).getLsbD (32 + master)

/-! ### Fetch (02 R36 to R40) -/

/-- `n` bytes of code at a virtual address through a launch's translation set (02 R40): the bytes, or the cause. -/
def State.fetchBytes (s : State) (l : Launch) (va n : Nat) : Except Nat (List Byte) :=
  match l.phys va with
  | none => .error cMapMiss
  | some pa => if l.canX va then .ok (s.dramBytes pa n) else .error cAccess

/-- What a fetch answers: an instruction with its address and length, or a cause, TRAPADDR and the length that ILEN
reports. -/
inductive Fetched where
  | instr (i : Instr) (pc : DWord) (len : Nat)
  | fault (cause : Nat) (addr : DWord) (pc : DWord) (len : Nat)
  deriving DecidableEq, Repr

/-- The cause of a decoding error (02 Table 2.9). -/
def errCause : DecodeErr → Nat
  | .illegalEncoding => cIllegalEncoding
  | .illegalOpcode => cIllegalOpcode
  | .illegalOperand => cIllegalOperand

/-- Past a pad word (02 R38): the address at which the next instruction starts. -/
def State.skipPad (s : State) (l : Launch) (pc : DWord) : DWord :=
  if pc.toNat % 32 = 28 then
    match s.fetchBytes l pc.toNat 4 with
    | .ok bs => if ofBytes bs = 0 then pc + 4 else pc
    | .error _ => pc
  else pc

/-- Fetch and decode at an address (02 Table 2.9 steps 1 to 8, R37, R38). -/
def State.fetch (s : State) (l : Launch) (pc0 : DWord) : Fetched :=
  let pc := s.skipPad l pc0
  match s.fetchBytes l pc.toNat 4 with
  | .error c => .fault c pc pc 8
  | .ok w0 =>
    let len := (BitVec.ofNat 2 (ofBytes w0))
    let n := lenBytes len
    if n = 0 then .fault cIllegalEncoding 0 pc 8
    else if pc.toNat % 32 = 28 ∨ 32 < pc.toNat % 32 + n then .fault cFetchStraddle pc pc n
    else
      match s.fetchBytes l pc.toNat n with
      | .error c => .fault c pc pc n
      | .ok bs =>
        match decodeBytes bs with
        | .ok (i, k) => .instr i pc k
        | .error e => .fault (errCause e) 0 pc n

/-- The length that ILEN reports for the instruction at an address: 8 where it cannot be read. -/
def State.lenAt (s : State) (l : Launch) (pc : DWord) : Nat :=
  match s.fetchBytes l pc.toNat 4 with
  | .ok w => match lenBytes (BitVec.ofNat 2 (ofBytes w)) with
    | 0 => 8
    | n + 1 => n + 1
  | .error _ => 8

/-- The privileged instructions (02 R56, Table 2.21). -/
def privileged : Instr → Bool
  | .tresync _ | .tret | .syswr _ _ | .tinfo _ _ | .tkillGroup | .tkillCtb | .hread _ _ | .hwrite _ _
  | .hstepLane _ _ | .hstepCursor _ _ | .hgo _ | .bcnArm _ _ _ | .bcnOff _ => true
  | _ => false

/-- The instructions that need a debug right (02 R56). -/
def needsDebug : Instr → Bool
  | .hread _ _ | .hwrite _ _ | .hstepLane _ _ | .hstepCursor _ _ | .hgo _ => true
  | _ => false

/-- The timing-sensitive encodings (12 Table 12.11). -/
def timingSensitive : Instr → Bool
  | .xscatterAny _ _ _ _ | .xredAny _ _ _ _ _ _ => true
  | _ => false

/-- Steps 9 and 10 of 02 Table 2.9. -/
def State.modeCheck (s : State) (super : Bool) (l : Launch) (i : Instr) : Option Nat :=
  if privileged i && (!super || (needsDebug i && !s.debugRight l)) then some cPrivilege
  else if timingSensitive i && !l.marked then some cSealed
  else none

end Sys2Proof.Machine
end

