-- ==== Sys2Proof/Machine/Slots.lean ====
section
/-! DEFINITION. Access slots of DRAM (10 R287, R290, R293, R307): pseudo-channels, the owner codes of a tide table, the slots
that the device takes, and attempts to read a granule. -/
namespace Sys2Proof.Machine

/-! ### Pseudo-channels and the tide table (10 R290, R293) -/

/-- The slot phase of a pseudo-channel (10 R290). -/
def slotPhase (n : Nat) : Nat := n % 512 % 20

/-- The pseudo-channel of a physical address (10 R290). -/
def channelOf (pa : Nat) : Nat := pa / 256 % 4096

/-- 1 when a pseudo-channel's stack is on the other die of a logical row (01 R11, R13). -/
def farFrom (row n : Nat) : Nat := if decide (row < 8) == decide (n / 512 < 4) then 0 else 1

/-- The template in force in the frame of a tide (10 R293). -/
def TideTable.template (t : TideTable) (tide : Nat) : Nat :=
  ((((tide / 8192 : Nat) : Int) - (t.epoch : Int)) % (t.ntmpl : Int)).toNat

/-- The owner code of slot `j` of pseudo-channel `n` in template `i`. -/
def TideTable.code (t : TideTable) (i n j : Nat) : Nat := rdVal t.image (t.tmpl + 3244032 * i + 2 * (396 * n + j)) 2

/-- The first free slot of a pseudo-channel with an owner at or after `e`, within a number of frames. -/
def TideTable.slotWhere (t : TideTable) (owner n e frames : Nat) (free : Nat → Bool) : Option Nat :=
  (List.range frames).findSome? (fun f =>
    let base := 8192 * (e / 8192 + f)
    let i := t.template base
    (List.range 396).findSome? (fun j =>
      let tide := base + slotPhase n + 20 * j
      if e ≤ tide ∧ t.code i n j = owner ∧ free tide = true then some tide else none))

/-- The first such slot that is not taken. -/
def TideTable.slotFrom (t : TideTable) (owner n e frames : Nat) (taken : List (Nat × Nat)) : Option Nat :=
  t.slotWhere owner n e frames (fun tide => !taken.contains (n, tide))

/-- The least number of slots of an owner in a frame, over pseudo-channels and templates (10 R296). -/
def TideTable.least (t : TideTable) (owner : Nat) : Nat :=
  ((List.range t.ntmpl).flatMap (fun i => (List.range 4096).map (fun n =>
    ((List.range 396).filter (fun j => t.code i n j == owner)).length))).foldl min 396

/-- The parts of a range by aligned 64 bytes: scratch rows, or granules. -/
def rowParts (a n : Nat) : List (Nat × Nat) :=
  (List.range ((a % 64 + n + 63) / 64)).map (fun k =>
    let lo := if k = 0 then a else 64 * (a / 64 + k)
    (lo, min (a + n) (64 * (a / 64 + k + 1)) - lo))

/-! ### Attempts to read (10 R287, R307) -/

/-- One read attempt of a granule: whether it fails ECC (notes/assumptions/10). -/
def State.readFails (s : State) (num : Nat) : Bool × State :=
  match look s.phys.eccFail num with
  | some (k + 1) => (true, { s with phys := { s.phys with eccFail := bindAt s.phys.eccFail num k } })
  | _ => (false, s)

/-- Up to `n` attempts to read a granule. -/
def State.attempts (s : State) (num : Nat) : Nat → Bool × State
  | 0 => (false, s)
  | n + 1 =>
    let (bad, s1) := s.readFails num
    if bad then s1.attempts num n else (true, s1)

/-- The tide of the retry slot of a granule's pseudo-channel in the frame of a tide (10 Table 10.2). -/
def retrySlot (tide num : Nat) : Nat := 8192 * (tide / 8192) + 8000 + slotPhase (channelOf (64 * num))

/-! ### Slots of the device -/

/-- The device takes the first free slot of an owner code for each of several granules, from now on: the last of their tides
and the state, or none without a table or a slot. -/
def State.takeSlots (s : State) (owner : Nat) : List Nat → Option (Nat × State)
  | [] => some (s.time, s)
  | g :: gs =>
    let n := channelOf (64 * g)
    let used := (s.devTaken.filter (fun e => e.1 == owner)).map (fun e => e.2)
    match s.tt.bind (fun t => t.slotFrom owner n s.time (t.ntmpl + 1) used) with
    | none => none
    | some sl => (({ s with devTaken := (owner, n, sl) :: s.devTaken } : State).takeSlots owner gs).map (fun r => (max sl r.1, r.2))

/-- Slots that the device takes beside an effect whose latency is fixed (13 R371, Table 13.5; notes/assumptions/24). -/
def State.useSlots (s : State) (owner : Nat) (gs : List Nat) : State := ((s.takeSlots owner gs).map (·.2)).getD s

end Sys2Proof.Machine
end

