-- ==== Sys2Proof/Machine/Dma.lean ====
section
/-! DEFINITION. Host DMA (18 R441, R443; 07 R229, R230). -/
namespace Sys2Proof.Machine

/-- The TDISP state lets host DMA run (18 R443): RUN, on the stream keyed to the owner, and CONFIG_UNLOCKED, where the host
loads the device (notes/assumptions/11: DESIGN CHOICE); not CONFIG_LOCKED or ERROR. -/
def State.dmaEnabled (s : State) : Bool :=
  s.regs.tdispst.extractLsb' 0 2 == 0 || (s.regs.tdispst.extractLsb' 0 2 == 2 && s.host.key)

/-- The bytes of a DMA by granule, as address and length. -/
def Dma.parts (d : Dma) : List (Nat × Nat) := rowParts d.pa d.n

/-- The host's right to the granules of a DMA, as master 16 (07 R229). -/
def State.dmaAllowed (s : State) (d : Dma) : Bool :=
  d.parts.all (fun p => if d.write then s.acctlW (stackOf p.1) 16 else s.acctlR (stackOf p.1) 16)

/-- One granule of a DMA takes an access slot of owner 0x0300; without a free one it asks again in the next frame, and without
an adopted table no slot is owned and it goes on at once (notes/assumptions/11). -/
def State.dmaSlot (s : State) (d : Dma) (p : Nat × Nat) : State :=
  let part : Dma := { d with pa := p.1, n := p.2, bytes := (d.bytes.drop (p.1 - d.pa)).take p.2, accepted := true }
  match s.tt, s.takeSlots 0x0300 [p.1 / 64] with
  | none, _ => s.schedule s.time 0 (.dma { part with taken := true })
  | some _, some (t, s1) => s1.schedule t 0 (.dma { part with taken := true })
  | some _, none => s.schedule (frameCeil (s.time + 1)) 0 (.dma part)

/-- A host DMA: checked against ACCTL once, at its acceptance, then moved in its slots (18 R441, 07 R230), which the interface
must still let it take (R443); bytes read go out to the host. -/
def State.hostDma (s : State) (d : Dma) : State :=
  if d.taken then
    (if d.write then s.dramWrite d.pa d.bytes else s.report (.report 0x300 d.pa (s.dramVal d.pa d.n)))
  else if s.host.scrubbing then s.schedule (frameCeil (s.time + 1)) 0 (.dma d)
  else if !s.dmaEnabled || (!d.accepted && !s.dmaAllowed d) then s.report (.reply 0x10 0)
  else if dramSize < d.pa + d.n ∨ (d.write = true ∧ d.bytes.length ≠ d.n) then s.report (.reply 0x11 0)
  else d.parts.foldl (fun (s : State) p => s.dmaSlot d p) s

end Sys2Proof.Machine
end

