-- ==== Sys2Proof/Machine/Visit.lean ====
section
/-! DEFINITION. The rotation's positions (01 R17 to R24): what a run index issues, and one position of one group on one
core (02 R64 to R66, 04 R126 to R141, 12 R351). -/
namespace Sys2Proof.Machine

/-! ### Time of the rotation -/

/-- Run length of a reach's launch. -/
def State.runLen (s : State) (r : Reach) : Nat :=
  match s.launch? r.launch with
  | some l => 2 ^ l.record.runExp
  | none => 1

/-- A row of the chart. -/
def State.rowOf (s : State) (row : Nat) : Row := s.rows.getD row { holder := none, t0 := 0, wanted := none }

/-- A logical row that shares its physical row with another (01 R14). -/
def State.sliced (s : State) (row : Nat) : Bool := (s.regs.proj.getD row 0).getLsbD 9

/-- The other rows of the pair that a time-sliced row belongs to (01 R14). -/
def State.pairOf (s : State) (row : Nat) : List Nat :=
  let p (n : Nat) : Word := s.regs.proj.getD n 0
  (List.range 16).filter (fun n => n != row && (p n).getLsbD 9 && (p row).getLsbD 9 &&
    (p n).extractLsb' 0 4 == (p row).extractLsb' 0 4 && (p n).getLsbD 11 == (p row).getLsbD 11)

/-- The rotation frames of the physical row that precede the `n`-th of a logical row (01 R14): a time-sliced row runs on
every other one, from the first at or after its grant. -/
def State.rowFrame (s : State) (row n : Nat) : Nat :=
  if s.sliced row then 2 * ((s.rowOf row).skip + n) + (if (s.regs.proj.getD row 0).getLsbD 10 then 1 else 0) else n

/-- The beat of run index `j` of the `n`-th visit of a reach's slot, counted from its row's first frame, `rows` rows of the
wave on from the first. -/
def State.indexBeat (s : State) (r : Reach) (l : Launch) (n j rows : Nat) : Nat :=
  frameBeats l.record.runExp * s.rowFrame r.row n + 32 * 2 ^ l.record.runExp * r.slot + 32 * j + 16 * l.record.rowoff * rows

/-- The tide of a beat of a row's timeline (10 R282). -/
def State.rowTide (s : State) (row beat : Nat) : Nat :=
  planTide (s.rowOf row).t0 beat

/-- The planned tide at which a schedule tide finds a reach (10 R282): that of the beat of its planned clock. -/
def State.plannedOf (s : State) (r : Reach) (l : Launch) (t : Nat) : Nat :=
  let fb := frameBeats l.record.runExp
  let d := t - (s.rowOf r.row).t0
  let b := 7936 * (d / 8192) + min 7936 (d % 8192)
  let par := if (s.regs.proj.getD r.row 0).getLsbD 10 then 1 else 0
  let own := if s.sliced r.row then
      fb * ((b / fb + 1 - par) / 2 - (s.rowOf r.row).skip) + (if b / fb % 2 = par then b % fb else 0) else b
  planTide (l.effective.getD 0) (own + fb * r.frames - fb * r.visits)

/-- The schedule tide at which a reach's planned clock comes to a planned tide, if it is held nowhere (10 R282). -/
def State.tideOf (s : State) (r : Reach) (l : Launch) (planned : Nat) : Nat :=
  let fb := frameBeats l.record.runExp
  let d := planned - l.effective.getD 0
  let b := 7936 * (d / 8192) + min 7935 (d % 8192)
  s.rowTide r.row (fb * s.rowFrame r.row (r.visits + (b / fb - r.frames)) + b % fb)

/-- The schedule tide of run index `j` of the `n`-th visit of a reach's slot (01 R18, 10 R282). -/
def State.indexTide (s : State) (r : Reach) (n j : Nat) : Nat :=
  match s.launch? r.launch with
  | some l => s.rowTide r.row (s.indexBeat r l n j r.row)
  | none => s.time

/-- When a visit in progress ends: with its last run index; in a south-passing wave with that of the wave's last row, as a
stop of one row is one of all (04 R147 rule 2). -/
def State.visitEnd (s : State) (r : Reach) : Nat :=
  match s.launch? r.launch with
  | some l => if l.south then max s.time (s.rowTide r.row (s.indexBeat r l r.visits (2 ^ l.record.runExp - 1) 15)) else s.time
  | none => s.time

/-! ### Who issues -/

/-- A group of a CTB that has not ended. -/
def Ctb.live (c : Ctb) (g : Nat) : Bool :=
  c.ended.isNone && (match c.group? g with | some x => !x.ended | none => false)

/-- The columns on which group `g` lives. -/
def Reach.liveCols (r : Reach) (g : Nat) : List Nat := (r.ctbs.filter (fun c => c.2.live g)).map (·.1)

/-- A handler issues in this reach: a hold whose handler was entered and has not returned. -/
def Reach.handling (r : Reach) : Bool :=
  match r.hold with
  | some h => h.entered && !h.resume && !h.halted
  | none => false

/-- The (column, group) pairs that a hold's handler runs on (15 R396). -/
def Hold.active (h : Hold) : List (Nat × Nat) := if h.wide then h.queue else h.queue.take 1

/-- What run index `j` issues, columns before groups (12 R351). -/
def Reach.todo (r : Reach) (j : Nat) : List (Nat × Nat) :=
  match r.hold with
  | some h =>
    if h.entered && !h.resume && !h.halted then
      (if h.rg.idx = j ∧ h.rg.wait = none then h.active.filter (fun e => ((r.ctb? e.1).map (fun c => c.live e.2 &&
        ((c.group? e.2).map (fun x => x.cursor != 32)).getD false)).getD false) else [])
    else []
  | none =>
    if r.stalled then [] else
    r.ctbs.flatMap (fun c => (List.range c.2.groups.length).filterMap (fun g =>
      match r.rgs[g]?, c.2.group? g with
      | some rg, some x =>
        if c.2.ended.isNone ∧ x.ended = false ∧ rg.idx = j ∧ x.cursor ≠ 32 then some (c.1, g) else none
      | _, _ => none))

/-- A south-passing wave (04 R147): ROWOFF = 1, SAVE = 0, ROWMASK a contiguous run of rows. -/
def Launch.wave (l : Launch) : Bool :=
  let rows := (List.range 16).filter (fun n => l.record.rowmask.getLsbD n)
  l.record.rowoff == 1 && l.record.save == 0 &&
    (match rows.head?, rows.getLast? with
     | some a, some b => rows.length == b - a + 1
     | _, _ => false)

/-- `pass.s` is permitted (04 R147): a wave none of whose rows is time-sliced. -/
def State.southWave (s : State) (l : Launch) : Bool :=
  l.wave && (List.range 16).all (fun n => !l.record.rowmask.getLsbD n || !(s.regs.proj.getD n 0).getLsbD 9)

/-- The holds of other rows' reaches of the same slot of a south-passing wave that hold a reach (04 R147 rule 2). -/
def State.waveHolds (s : State) (r : Reach) : List (Reach × Hold) :=
  if ((s.launch? r.launch).map (fun l => l.south)).getD false then
    s.reaches.filterMap (fun x =>
      if x.launch == r.launch && x.slot == r.slot && x.row != r.row && x.resident then
        x.hold.bind (fun h => if (h.back.map (fun n => decide (n ≤ r.visits))).getD false then none else some (x, h))
      else none)
  else []

/-- A group issues at run index `j` in spite of the wave's holds: its row comes to the boundary of the instruction at which
the other stopped, skid included. -/
def Reach.waveFree (r : Reach) (hs : List (Reach × Hold)) (j g : Nat) : Bool :=
  hs.all (fun (e : Reach × Hold) => decide (r.visits ≤ e.2.visit) && (decide (j ≤ e.2.j) ||
    ((e.1.rgs[g]?).map (fun rg => decide (j < rg.idx))).getD false))

/-! ### The join of a walk -/

/-- The join of a table walk (04 R133). -/
def walkJoin (addr : DWord) (t : BrxDesc) : DWord := addr + 4 * t.joff.signExtend 64

/-- What the position at the top of a walk's join does (04 R141): a table step, or the end of the walk. The join is
compared with the address of the instruction, past a pad word: a join that names the pad word itself triggers nothing (DESIGN
CHOICE: R141 does not say which of the two addresses counts; notes/assumptions/18). -/
def RGroup.joinStep (rg : RGroup) (pc : DWord) : Option Bool :=
  match rg.hstack with
  | .walk _ e addr t :: _ =>
    if walkJoin addr t = pc then some (decide (e.toNat + 1 < t.n.toNat)) else none
  | _ => none

/-! ### Transfers that a fence waits for (10 R301, 12 R334) -/

/-- The path of a transfer's kind (02 Table 2.10). -/
def XKind.path : XKind → Nat
  | .gather => 2
  | .scatter _ => 2
  | _ => 1

/-- Whether a transfer writes scratch. -/
def XKind.inbound : XKind → Bool
  | .copyIn => true
  | .gather => true
  | .preload _ _ _ => true
  | .restore => true
  | _ => false

/-- The promise of a transfer that has been missed by a planned tide (10 R301): an unreadable granule alone keeps it from
landing, and the promise, or the one that a revision has replaced since, has passed and was not reported yet. -/
def Xfer.missedBy (x : Xfer) (u : Nat) : Option Nat :=
  if x.landed || !x.unreadable then none
  else if x.promise ≤ u ∧ x.told < x.promise then some x.promise
  else if x.passed ≤ u ∧ x.told < x.passed then some x.passed
  else none

/-- The transfers on a path whose promise has passed by a planned tide and whose destination bytes the path's view of a group
holds (12 R334): its own, and those that CTBs of its reach bring in. -/
def State.passedOn (s : State) (r : Reach) (lin grp path planned : Nat) : List Xfer :=
  s.xfers.filter (fun x => x.kind.path == path && decide (x.promise ≤ planned) && x.launch == r.launch &&
    ((x.lin == lin && x.grp == grp) || (x.kind.inbound && r.ctbs.any (fun c => c.2.lin == x.lin))))

/-- The next position of a group on a column is an `xfence` that has to wait: a write of its first path's view has passed its
promise and has not landed (12 R334; notes/assumptions/23: DEDUCED). One that has missed its promise is reported instead. -/
def State.fenceHolds (s : State) (r : Reach) (e : Nat × Nat) : Bool :=
  match s.launch? r.launch, r.rgOf e.2 r.handling, r.ctb? e.1 with
  | some l, some rg, some c =>
    if rg.joinStep rg.pc = some true then false
    else
      match s.fetch l rg.pc with
      | .instr (.xfence q1 _) _ _ =>
        let u := plannedAt r l e.1 (if r.handling then (r.hold.map (·.j)).getD 0 else rg.idx)
        (s.passedOn r c.lin e.2 q1.toNat u).any (fun x => !x.landed && (x.missedBy u).isNone)
      | _ => false
  | _, _, _ => false

/-! ### One position of one group on one core -/

/-- The instructions that the headland alone executes, once per reach group (04 R127). -/
def headOnly : Instr → Bool
  | .br _ | .brc _ _ _ _ | .loop _ _ _ | .call _ _ | .callK _ _ | .ret _ | .brxK _ _
  | .kadd _ _ _ | .ksub _ _ _ | .kmul _ _ _ | .kshl _ _ _ | .kshr _ _ _ | .kand _ _ _ | .kor _ _ _ | .kmov _ _
  | .kli _ _ | .launch _ _ _ _ | .trap _ => true
  | _ => false

/-- The MAJ of an instruction. -/
def majOf (i : Instr) : Nat := ((encodeFields i).map (·.maj.toNat)).getD 0

/-- The instructions that execute lane by lane under the skeleton of 02 R85 and free or advance their sources. -/
def byLanes (i : Instr) : Bool :=
  let m := majOf i
  decide (0x10 ≤ m ∧ m ≤ 0x2F ∧ m ≠ 0x27) || decide (0x30 ≤ m ∧ m ≤ 0x48) || decide (0x50 ≤ m ∧ m ≤ 0x59 ∧ m ≠ 0x56) ||
    decide (m = 0x0D ∨ m = 0x0E ∨ m = 0x90 ∨ m = 0x91)

/-- The sources of the instructions that free or advance them outside that skeleton (02 R50, R60). -/
def ownSources : Instr → List Opnd
  | .mmq _ _ _ sd _ | .msum _ _ sd _ _ | .mtile _ _ _ sd _ _ => [.src (.sd sd) false]
  | .syswr a n => [.src a (srnWidth n.toNat == some .w64)]
  | .hwrite a _ => [.src a false]
  | _ => []

/-- The steppable instructions (15 R407). -/
def steppable (i : Instr) : Bool :=
  let m := majOf i
  decide (0x10 ≤ m ∧ m ≤ 0x26) || decide (0x28 ≤ m ∧ m ≤ 0x2D) || decide (0x30 ≤ m ∧ m ≤ 0x44) ||
    decide (0x50 ≤ m ∧ m ≤ 0x55)

/-- Pop the top frame of a group's stack on every core of the reach, restoring DIV (04 R141); a CTB that has ended stays as it
stopped (15 R403). -/
def Reach.popAll (r : Reach) (g : Nat) (handler : Bool) : Reach :=
  let cols : List Nat := match r.hold with
    | some h => if handler then h.active.map (fun e => e.1) else r.ctbs.map (fun e => e.1)
    | none => r.ctbs.map (fun e => e.1)
  { r with ctbs := r.ctbs.map (fun (c : Nat × Ctb) =>
      if cols.contains c.1 && c.2.ended.isNone then
        (c.1, c.2.modGroup g (fun x => match x.dstack with
          | f :: l => { x with div := f.saved, dstack := l }
          | [] => x))
      else c) }

/-- The class of an issue slot (15 R415): 0 active, 1 divergence, 2 predicated, 3 absent. -/
def Group.slotClass (g : Group) (k : Nat) : Nat :=
  if !bit g.present k then 3 else if !bit g.div k then 1 else if !bit g.prd k then 2 else 0

/-- An increment meets a write of its counter in the same beat: it is lost, and CNTLOST counts it (15 R416). -/
def Core.loseInc (c : Core) : Core := { c with cntlost := bump31 c.cntlost }

/-- Count one issue slot in the register of the survey that it belongs to (15 R415): a bin by 4b + class, or SURVOUT. -/
def Core.countSlot (c : Core) (b : Option Nat) : Core :=
  match b with
  | some i => { c with survey := { c.survey with bins := bindAt c.survey.bins i (bump63 ((look c.survey.bins i).getD 0)) } }
  | none => { c with survey := { c.survey with out := bump63 c.survey.out } }

/-- The survey register of an issue slot of an instruction at `pc` (15 R415, Table 15.11). -/
def slotBin (ctl pc : DWord) (cls : Nat) : Option Nat :=
  let base := (ctl &&& 0xFFFFFFFFFFFFF000).toNat
  let b := (pc.toNat - base) / 2 ^ (ctl.extractLsb' 0 6).toNat
  if base ≤ pc.toNat ∧ b < 64 then some (4 * b + cls) else none

/-- The core registers that a `syswr` writes in the beat of lane 0 of the run index in execution, with what they held. -/
def State.wroteNow (s : State) (q : Nat) : List (Nat × DWord) :=
  ((s.issue.map (fun i => i.wrote)).getD []).filterMap (fun e => if e.1 = q then some e.2 else none)

/-- Count the issue slots of an instruction in the survey (15 R415): those of the lanes that it covered, from the cursor on
to the lane before which it stopped. In the beat of lane 0 a SURVCTL that is being written still counts as it was, and a
register of the survey that is being written takes no increment (R416). -/
def State.surveyPos (s : State) (q : Nat) (pc : DWord) (g : Group) (stop : Nat) : State :=
  let c := s.core q
  let wrote := s.wroteNow q
  if c.survey.ctl.getLsbD 6 || wrote.any (fun e => e.1 == 0x110) then
    let ks := (List.range 32).filter (fun k => decide (g.cursor ≤ k) && decide (k < stop))
    s.setCore q (ks.foldl (fun (c : Core) k =>
      let ctl := if k = 0 then (look wrote 0x110).getD c.survey.ctl else c.survey.ctl
      if ctl.getLsbD 6 then
        let b := slotBin ctl pc (g.slotClass k)
        let c1 := { c with survey := { c.survey with busy := c.survey.busy + 1 } }
        if k = 0 ∧ (wrote.any (fun e => e.1 == (match b with
            | some i => 0x200 + i
            | none => 0x112))) = true then c1.loseInc else c1.countSlot b
      else c) c)
  else s

/-- A fault of the headland at a group's position (15 R393), recorded at the executing column; the group issues no
further at this index. -/
def State.headFault (s : State) (col g cause : Nat) (addr pc : DWord) (ilen : Nat) : State :=
  let f : FaultRec :=
    { j := s.runIx, col := col, grp := g, lane := 0, tlane := 0, cause := cause, addr := addr, wide := true, late := false,
      planned := ((s.here).map Here.planned).getD 0, pc := pc, ilen := ilen, res := pc, curs := 0 }
  { s with faults := s.faults ++ [f]
           issue := s.issue.map (fun i => { i with todo := i.todo.filter (fun e => e.2 != g) }) }

/-- Prepare the headland's part at a position: the next pc unless the instruction transfers. -/
def RGroup.begin (rg : RGroup) (pc npc : DWord) (tstep : Bool) : RGroup :=
  { rg with pc := pc, npc := npc, head := true, tstep := tstep }

/-- A lost access that is due at this position (07 R218, 12 R347, 08 R458): the first of several, which goes when its trap is
recorded; the position is issued again after the handler, and the next is then reported. -/
def Group.lateDue (g : Group) (pos : Nat) : Option LateErr := g.lateErr.find? (fun e => e.due ≤ pos)

/-- The mark of a held wait that a handler made its core skip, with CURSOR 32 (15 R400): it writes no status. -/
def skippedWait : Word := 0xFFFFFFFF

/-- How far an instruction came on the lanes of the executing group: to the lane of its fault, else through all. -/
def State.reached (s : State) (h : Here) : Nat :=
  if s.faults.any (fun f => f.col == h.cur.col && f.grp == h.cur.grp) then
    ((s.ctb? h.cur.row h.cur.slot h.cur.col).bind (fun c => c.group? h.cur.grp)).elim 32 (fun g => g.cursor)
  else 32

/-- Execute an instruction at a position with the meaning `ex` (04 R127): the headland's part stands in `npc`. -/
def State.runAt (ex : Instr → State → Out1) (s : State) (h : Here) (i : Instr) (pc : DWord) (len : Nat) : Out1 :=
  let first := !h.rg.head
  let s1 := if first then s.modRG h (fun rg => rg.begin pc (pc + BitVec.ofNat 64 len) (i == .tableStep)) else s
  let s2 := { s1 with cur := some { h.cur with head := first, pc := pc, ilen := len } }
  if (headOnly i && !first) || (h.grp.cursor == 33 && !byLanes i) then
    let ops := ownSources i
    let s4 := ((s2.freeSources h ((ops.flatMap Opnd.frees).filter h.grp.written) []).advance h (streamsOf ops)).modG h (fun g =>
      if g.cursor = 33 ∧ h.rg.wait.isSome then { g with cursor := 32, ready := true, code := skippedWait } else { g with cursor := 32 })
    .next ((s4.endHalts h (if h.cur.handler then none else h.grp.halting)).surveyPos h.q pc h.grp 32)
  else
    match ex i s2 with
    | .next s4 =>
      let s5 := if headOnly i && !(s4.faults.any (fun f => f.grp == h.cur.grp && f.wide)) then s4.complete h else s4
      .next (s5.surveyPos h.q pc h.grp (s5.reached h))
    | o => o

/-- Fetch and decode (02 Table 2.9), the checks of mode, then the instruction's meaning `ex`. -/
def State.issueAt (ex : Instr → State → Out1) (s : State) (h : Here) : Out1 :=
  match s.fetch h.launch h.rg.pc with
  | .fault c a p n => .next (s.headFault h.cur.col h.cur.grp c a p n)
  | .instr i p n =>
    match s.modeCheck h.super h.launch i with
    | some c => .next (s.headFault h.cur.col h.cur.grp c 0 p n)
    | none => s.runAt ex h i p n

/-- The end of a walk at its join (04 R141): the frame is popped, and the join instruction is issued at this position. -/
def State.popWalk (s : State) (h : Here) (pc : DWord) : State :=
  (s.modReach h.cur.row h.cur.slot (fun r => r.popAll h.cur.grp h.cur.handler)).modRG h
    (fun rg => { rg with hstack := rg.hstack.drop 1, pc := pc })

/-- One position of one group on one core: late faults, the join step, then the instruction. -/
def State.position (ex : Instr → State → Out1) (s : State) (h : Here) : Out1 :=
  match h.grp.lateDue h.rg.pos with
  | some e =>
    let s1 := s.modG h (fun g => { g with cursor := 0, again := true })
    let f : FaultRec :=
      { j := s.runIx, col := h.cur.col, grp := h.cur.grp, lane := 0, tlane := e.lane, cause := cScratchLost, addr := e.addr,
        wide := false, late := true, planned := e.planned, pc := e.pc, ilen := e.ilen, res := h.rg.pc, curs := 0 }
    .next { s1 with faults := s1.faults ++ [f] }
  | none =>
    let pc := s.skipPad h.launch h.rg.pc
    let js := if h.rg.head then (if h.rg.tstep then some true else none) else h.rg.joinStep pc
    match js with
    | some true => s.runAt ex h .tableStep pc (s.lenAt h.launch pc)
    | some false =>
      let s1 := s.popWalk h pc
      match s1.here with
      | some h1 => s1.issueAt ex h1
      | none => .next s1
    | none => s.issueAt ex h

/-- A run index begins. -/
def Issue.start (row slot j : Nat) (todo : List (Nat × Nat)) (fresh : List (Nat × Nat)) (wrote : List (Nat × Nat × DWord)) : Issue where
  row := row
  slot := slot
  j := j
  todo := todo
  col := none
  mode := .each
  hits := []
  fresh := fresh
  wrote := wrote

end Sys2Proof.Machine
end

