-- ==== Sys2Proof/Machine/Control.lean ====
section
/-! DEFINITION. The control and mask class (04): uniform transfers, branch tables, masked regions, mask registers and
passing along the swell. `end` stands in Ending.lean. -/
namespace Sys2Proof.Machine

/-! ### Transfers (04 R136 to R139) -/

/-- 04 R136. -/
def execNop (s : State) : Out1 := s.withHere (fun h => s.complete h)

/-- The target of a branch offset (04 R137). -/
def branchTarget (pc : DWord) (off : Word) : DWord := pc + 4 * off.signExtend 64

/-- 04 R137. -/
def execBr (off : Word) (s : State) : Out1 := s.withHere (fun h => s.goto h (branchTarget h.cur.pc off))

/-- The conditions of 04 Table 4.6. -/
def brcHolds (cc : BrCond) (a b : DWord) : Bool :=
  match cc with
  | .eq => a == b
  | .ne => a != b
  | .lt => a.slt b
  | .ge => !a.slt b
  | .ltn => a.ult b
  | .gen => !a.ult b
  | .z => a == 0
  | .nz => a != 0

/-- 04 R137. -/
def execBrc (cc : BrCond) (a b : BitVec 6) (off : Word) (s : State) : Out1 :=
  s.withHere (fun h => if brcHolds cc (h.k a) (h.k b) then s.goto h (branchTarget h.cur.pc off) else s)

/-- 04 R138. -/
def execLoop (d a : BitVec 6) (off : Word) (s : State) : Out1 :=
  s.withHere (fun h =>
    let v := if h.k a = 0 then 0 else h.k a - 1
    let s1 := s.setK h d v
    if v = 0 then s1 else s1.goto h (branchTarget h.cur.pc off))

/-- The address of the instruction that follows in memory (04 R139). -/
def Here.after (h : Here) : DWord := h.cur.pc + BitVec.ofNat 64 h.cur.ilen

/-- 04 R139. -/
def execCall (d : BitVec 6) (off : Word) (s : State) : Out1 :=
  s.withHere (fun h => (s.setK h d h.after).goto h (branchTarget h.cur.pc off))

/-- An indirect target that R40 refuses. -/
def badTarget (t : DWord) : Bool := t.extractLsb' 0 2 != 0

/-- 04 R139, 02 R40. -/
def execCallK (d a : BitVec 6) (s : State) : Out1 :=
  s.withHere (fun h =>
    if badTarget (h.k a) then s.raiseWide h cIllegalOperand 0
    else (s.setK h d h.after).goto h (h.k a))

/-- 04 R139, 02 R40. -/
def execRet (a : BitVec 6) (s : State) : Out1 :=
  s.withHere (fun h =>
    if badTarget (h.k a) then s.raiseWide h cIllegalOperand 0 else s.goto h (h.k a))

/-! ### Branch tables (04 R133, R134, R140, R141) -/

/-- The address of entry `i` of a table (04 Table 4.4). -/
def entryAddr (pc : DWord) (t : BrxDesc) (i : Nat) : DWord := pc + 4 * t.toff.signExtend 64 + BitVec.ofNat 64 (4 * i)

/-- The target of entry `i`, or the fault of its fetch (04 R133). -/
def State.tableTarget (s : State) (l : Launch) (pc : DWord) (t : BrxDesc) (i : Nat) : Except Nat DWord :=
  match s.fetchBytes l (entryAddr pc t i).toNat 4 with
  | .ok bs => .ok (branchTarget pc (BitVec.ofNat 32 (ofBytes bs)))
  | .error c => .error c

/-- 04 R140. -/
def execBrxK (a : BitVec 6) (t : BrxDesc) (s : State) : Out1 :=
  s.withHere (fun h =>
    let i := (h.k a).toNat
    if i < t.n.toNat then
      match s.tableTarget h.launch h.cur.pc t i with
      | .ok x => s.goto h x
      | .error c => s.raiseWide h c (entryAddr h.cur.pc t i)
    else s.goto h (walkJoin h.cur.pc t))

/-- Entries of a divergence stack (04 Table 4.2). -/
def stackDepth : List Hdr → Nat
  | [] => 0
  | .walk _ _ _ _ :: l => 10 + stackDepth l
  | .thenSide :: l => 2 + stackDepth l
  | .elseSide :: l => 2 + stackDepth l

/-- The offset of a `brx.v` from ENTRY, in 4-byte units (04 Table 4.3). -/
def brxOffset (pc entry : DWord) : Int := (pc - entry).toInt / 4

/-- The lanes of a walk whose index is `e`. -/
def walkLanes (idx : List (BitVec 8)) (e : Nat) : Word := maskOf (fun k => (idx.getD k 0xFF).toNat == e)

/-- The lane parts of a `brx.v` on a core (04 R141). -/
def Group.pushWalk (g : Group) (idx : List (BitVec 8)) : Group :=
  { g with dstack := { saved := g.div, idx := some idx } :: g.dstack, div := g.div &&& walkLanes idx 0 }

/-- The indices that a walk captures (04 R141). -/
def captured (h : Here) (a : BitVec 11) (n : Nat) : List (BitVec 8) :=
  mkLanes (fun k =>
    let x := h.grp.vlane a.toNat k
    if bit h.grp.active k && decide (x.toNat < n) then x.setWidth 8 else 0xFF)

/-- 04 R141: the checks and the header at the headland, then the lane parts of the core. -/
def execBrxV (a : BitVec 11) (last : Bool) (t : BrxDesc) (s : State) : Out1 :=
  s.withHere (fun h =>
    let off := brxOffset h.cur.pc h.launch.record.entry
    let tgt := s.tableTarget h.launch h.cur.pc t 0
    let bad : Option (Nat × DWord) :=
      if !h.cur.head then none
      else if off < -2097152 ∨ 2097151 < off then some (cIllegalOperand, 0)
      else if 64 < stackDepth h.rg.hstack + 10 then some (cIllegalOperand, 0)
      else match tgt with
        | .error c => some (c, entryAddr h.cur.pc t 0)
        | .ok _ => none
    match bad with
    | some (c, addr) => s.raiseWide h c addr
    | none =>
      let s1 := match h.cur.head, tgt with
        | true, .ok x =>
          s.modRG h (fun rg => { rg with npc := x, hstack := .walk (BitVec.ofInt 22 off) 0 h.cur.pc t :: rg.hstack })
        | _, _ => s
      if h.grp.written a.toNat = false ∧ h.grp.cursor ≠ 33 then s1.raise h cRegUndef (BitVec.ofNat 64 a.toNat)
      else
        let s2 := s1.modG h (fun g => g.pushWalk (captured h a t.n.toNat))
        let s3 := if last then s2.modG h (fun g => g.free a.toNat) else s2
        s3.complete h)

/-- A table step (04 R134, R141): the headland goes on to the next entry of the walk on top; every core selects its
lanes. The entry is found once, by the headland. -/
def execTableStep (s : State) : Out1 :=
  s.withHere (fun h =>
    match h.rg.hstack with
    | .walk brx e addr t :: rest =>
      let e1 := if h.cur.head then e.toNat + 1 else e.toNat
      let lanesOn (s : State) : State := (s.modG h (fun g => match g.dstack with
        | f :: _ => { g with div := f.saved &&& walkLanes (f.idx.getD []) e1 }
        | [] => g)).complete h
      if h.cur.head then
        match s.tableTarget h.launch addr t e1 with
        | .ok x => lanesOn (s.modRG h (fun rg =>
            { rg with npc := x, hstack := .walk brx (BitVec.ofNat 8 e1) addr t :: rest }))
        | .error c => s.raiseWide h c (entryAddr addr t e1)
      else lanesOn s
    | _ => s.complete h)

/-! ### Masked regions (04 R131, R142) -/

/-- A refused stack operation of the headland (04 R131), or its header change and the cores' part. -/
def State.region (s : State) (h : Here) (ok : Bool) (hdr : List Hdr → List Hdr) (core : Group → Group) : State :=
  if h.cur.head && !ok then s.raiseWide h cIllegalOperand 0
  else
    let s1 := if h.cur.head then s.modRG h (fun rg => { rg with hstack := hdr rg.hstack }) else s
    (s1.modG h core).complete h

/-- 04 R142. -/
def execMif (neg : Bool) (a : BitVec 4) (s : State) : Out1 :=
  s.withHere (fun h =>
    s.region h (decide (stackDepth h.rg.hstack + 2 ≤ 64)) (fun l => .thenSide :: l) (fun g =>
      let c := if neg then ~~~(g.mask a) else g.mask a
      { g with dstack := { saved := g.div, idx := none } :: g.dstack, div := g.div &&& c &&& g.present }))

/-- 04 R142. -/
def execMelse (s : State) : Out1 :=
  s.withHere (fun h =>
    s.region h (h.rg.hstack.head? == some .thenSide) (fun l => .elseSide :: l.drop 1) (fun g =>
      match g.dstack with
      | f :: _ => { g with div := f.saved &&& ~~~g.div }
      | [] => g))

/-- 04 R142. -/
def execMend (s : State) : Out1 :=
  s.withHere (fun h =>
    s.region h (h.rg.hstack.head? == some .thenSide || h.rg.hstack.head? == some .elseSide) (fun l => l.drop 1)
      (fun g => match g.dstack with
        | f :: l => { g with div := f.saved, dstack := l }
        | [] => g))

/-! ### The predicate and the mask registers (04 R143, R144) -/

/-- 04 R143. -/
def execMset (a : BitVec 4) (s : State) : Out1 :=
  s.withHere (fun h => (s.modG h (fun g => { g with prd := g.prd &&& g.mask a })).complete h)

/-- 04 R143. -/
def execMsetAll (s : State) : Out1 :=
  s.withHere (fun h => (s.modG h (fun g => { g with prd := 0xFFFFFFFF })).complete h)

/-- 04 R143. -/
def execMrest (a : BitVec 4) (s : State) : Out1 :=
  s.withHere (fun h => (s.modG h (fun g => { g with prd := g.mask a })).complete h)

/-- Write a mask register (02 R52 class M): ANDed with the present lanes (04 R144). -/
def Group.setM (g : Group) (d : BitVec 4) (w : Word) : Group := { g with m := g.m.set d.toNat (w &&& g.present) }

/-- 04 R143. -/
def execMsave (d : BitVec 4) (s : State) : Out1 :=
  s.withHere (fun h => (s.modG h (fun g => g.setM d g.prd)).complete h)

/-- Mask logic (04 R144): all bits, whatever EXM holds. -/
def State.maskOp (s : State) (d : BitVec 4) (f : Group → Word) : Out1 :=
  s.withHere (fun h => (s.modG h (fun g => g.setM d (f g))).complete h)

/-- 04 Table 4.7. -/
def execMand (d a b : BitVec 4) (s : State) : Out1 := s.maskOp d (fun g => g.mask a &&& g.mask b)
/-- 04 Table 4.7. -/
def execMor (d a b : BitVec 4) (s : State) : Out1 := s.maskOp d (fun g => g.mask a ||| g.mask b)
/-- 04 Table 4.7. -/
def execMxor (d a b : BitVec 4) (s : State) : Out1 := s.maskOp d (fun g => g.mask a ^^^ g.mask b)
/-- 04 Table 4.7. -/
def execMandn (d a b : BitVec 4) (s : State) : Out1 := s.maskOp d (fun g => g.mask a &&& ~~~(g.mask b))
/-- 04 Table 4.7. -/
def execMnot (d a : BitVec 4) (s : State) : Out1 := s.maskOp d (fun g => ~~~(g.mask a))
/-- 04 Table 4.7. -/
def execMmov (d a : BitVec 4) (s : State) : Out1 := s.maskOp d (fun g => g.mask a)

/-- The number of 1 bits of a mask. -/
def onesOf (w : Word) : Nat := ((List.range 32).filter (fun k => bit w k)).length

/-- The lowest 1 bit of a mask, 32 for none (04 R145). -/
def firstOf (w : Word) : Nat := ((List.range 32).find? (fun k => bit w k)).getD 32

/-- 04 R145. -/
def execMcnt (d : Dst) (a : BitVec 4) (s : State) : Out1 :=
  s.withHere (fun h => s.putAll h d false (BitVec.ofNat 64 (onesOf (h.grp.mask a))))

/-- 04 R145. -/
def execMfirst (d : Dst) (a : BitVec 4) (s : State) : Out1 :=
  s.withHere (fun h => s.putAll h d false (BitVec.ofNat 64 (firstOf (h.grp.mask a))))

/-! ### Passing along the swell (04 R146, R147) -/

/-- What a sender's group delivers to the same `pass` form at the same position. -/
def Group.delivers (g : Group) (south : Bool) (pos : Nat) : Option (List Word) :=
  if g.ended then none else
  match g.passed with
  | some (f, p, vs) => if f = south ∧ p = pos then some vs else none
  | none => none

/-- The values that the core receives; `none` is the edge value in every lane (04 R146). -/
def State.delivered (s : State) (h : Here) (south : Bool) : Option (List Word) :=
  if h.cur.handler && !((h.reach.hold.map (·.wide)).getD false) then none
  else if south then
    if h.cur.row = 0 ∨ h.launch.record.rowmask.getLsbD (h.cur.row - 1) = false then none
    else
      match s.reach? (h.cur.row - 1) h.cur.slot with
      | some r =>
        if r.launch = h.launch.id then
          ((r.ctb? h.cur.col).bind (·.group? h.cur.grp)).bind (fun g => g.delivers south h.rg.pos)
        else none
      | none => none
  else if h.ctb.stage = 0 ∨ h.cur.col = 0 then none
  else ((h.reach.ctb? (h.cur.col - 1)).bind (·.group? h.cur.grp)).bind (fun g => g.delivers south h.rg.pos)

/-- `pass` on a core (04 R146): it receives by Put, then it has sent; one that resumes after a fault at the position delivers
nothing. -/
def State.pass (s : State) (h : Here) (south : Bool) (d : Dst) (a : BitVec 11) (last : Bool) : State :=
  let got := s.delivered h south
  let edge := h.launch.record.edge
  let s1 := s.vec h
    { ops := [.src (.v a last) false], dst := some d, steps := false
      lane := fun k vs => { val := match got with
        | some l => (l.getD k 0).setWidth 64
        | none => if edge = 0 then 0 else vs.getD 0 0 } } none justVals
  if s1.faults.length = s.faults.length ∧ h.grp.cursor = 0 ∧ h.grp.again = false then
    s1.modG h (fun g => { g with passed := some (south, h.rg.pos, mkLanes (fun k => h.grp.vlane a.toNat k)) })
  else s1

/-- 04 R146. -/
def execPassE (d : Dst) (a : BitVec 11) (last : Bool) (s : State) : Out1 :=
  s.withHere (fun h => s.pass h false d a last)

/-- 04 R146, R147. -/
def execPassS (d : Dst) (a : BitVec 11) (last : Bool) (s : State) : Out1 :=
  s.withHere (fun h =>
    if h.grp.cursor != 33 && !h.launch.south then s.raiseWide h cIllegalOperand 0 else s.pass h true d a last)

end Sys2Proof.Machine
end

