-- ==== Sys2Proof/Machine/Integer.lean ====
section
/-! DEFINITION. The integer, address and uniform class (05). -/
namespace Sys2Proof.Machine

/-! ### Typed values (05 R149) -/

/-- Width and signedness of IT. -/
def itW : IntTy → Nat
  | .i32 => 32
  | .n32 => 32
  | .i64 => 64
  | .n64 => 64
def it64 : IntTy → Bool
  | .i64 => true
  | .n64 => true
  | _ => false
def itSigned : IntTy → Bool
  | .i32 => true
  | .i64 => true
  | _ => false
def wd64 : Wd → Bool
  | .w32 => false
  | .w64 => true
def wdW : Wd → Nat
  | .w32 => 32
  | .w64 => 64

/-- The signed type of a width. -/
def wdInt : Wd → IntTy
  | .w32 => .i32
  | .w64 => .i64

/-- read(X) of 05 R149. -/
def typed (ty : IntTy) (v : DWord) : Int :=
  match ty with
  | .i32 => (lo32 v).toInt
  | .n32 => (lo32 v).toNat
  | .i64 => v.toInt
  | .n64 => v.toNat

/-- Wrap to a width (02 Table 2.24). -/
def wrapW (w64 : Bool) (x : Int) : DWord := if w64 then BitVec.ofInt 64 x else (BitVec.ofInt 32 x).setWidth 64

/-- SatS or SatN (02 Table 2.24), with the flag of a clamp. -/
def satW (ty : IntTy) (x : Int) : DWord × Word :=
  let w := itW ty
  let lo : Int := if itSigned ty then -(2 ^ (w - 1) : Nat) else 0
  let hi : Int := if itSigned ty then (2 ^ (w - 1) : Nat) - 1 else (2 ^ w : Nat) - 1
  let y := if x < lo then lo else if hi < x then hi else x
  (wrapW (it64 ty) y, if y = x then 0 else fSATF)

/-- Narrow an exact result (05 R153). -/
def narrow (ty : IntTy) (sat : Bool) (x : Int) : LaneOut :=
  if sat then { val := (satW ty x).1, flags := (satW ty x).2 } else { val := wrapW (it64 ty) x }

/-- An operation of class V or V2 on lane values. -/
def State.lanewise (s : State) (ops : List Opnd) (d : Dst) (w64 : Bool) (f : List DWord → LaneOut) : Out1 :=
  s.compute { ops := ops, dst := some d, w64 := w64, lane := fun _ vs => f vs }

def arg (vs : List DWord) (i : Nat) : DWord := vs.getD i 0

/-- A typed operation of two sources. -/
def State.int2 (s : State) (ty : IntTy) (d : Dst) (a b : Opnd) (f : Int → Int → LaneOut) : Out1 :=
  s.lanewise [a, b] d (it64 ty) (fun vs => f (typed ty (arg vs 0)) (typed ty (arg vs 1)))

/-- A bitwise operation of two sources (05 R157). -/
def State.bits2 (s : State) (wd : Wd) (d : Dst) (a : Src) (b : OpB) (f : DWord → DWord → DWord) : Out1 :=
  s.lanewise [.src a (wd64 wd), opndB b (wd64 wd)] d (wd64 wd) (fun vs => { val := f (arg vs 0) (arg vs 1) })

/-! ### Arithmetic (05 R153 to R156) -/

/-- 05 R153. -/
def execAdd (ty : IntTy) (sat : Bool) (d : Dst) (a : Src) (b : OpB) (s : State) : Out1 :=
  s.int2 ty d (.src a (it64 ty)) (opndB b (it64 ty)) (fun x y => narrow ty sat (x + y))
/-- 05 R153. -/
def execSub (ty : IntTy) (sat : Bool) (d : Dst) (a : Src) (b : OpB) (s : State) : Out1 :=
  s.int2 ty d (.src a (it64 ty)) (opndB b (it64 ty)) (fun x y => narrow ty sat (x - y))
/-- 05 R153: the low half. -/
def execMul (ty : IntTy) (d : Dst) (a : Src) (b : OpB) (s : State) : Out1 :=
  s.int2 ty d (.src a (it64 ty)) (opndB b (it64 ty)) (fun x y => narrow ty false (x * y))
/-- 05 R153: the high half. -/
def execMulh (ty : IntTy) (d : Dst) (a b : Src) (s : State) : Out1 :=
  s.int2 ty d (.src a (it64 ty)) (.src b (it64 ty)) (fun x y => narrow ty false ((x * y).fdiv (2 ^ itW ty : Nat)))
/-- 05 R153. -/
def execMad (ty : IntTy) (sat : Bool) (d : Dst) (a b c : Src) (s : State) : Out1 :=
  s.lanewise [.src a (it64 ty), .src b (it64 ty), .src c (it64 ty)] d (it64 ty) (fun vs =>
    narrow ty sat (typed ty (arg vs 0) * typed ty (arg vs 1) + typed ty (arg vs 2)))

/-- The quotient (05 R154, Table 5.3). -/
def quot (ty : IntTy) (x y : Int) : LaneOut :=
  if y = 0 then { val := wrapW (it64 ty) (-1), flags := fDIVZ } else narrow ty false (x.tdiv y)
/-- The remainder (05 R154, Table 5.3). -/
def remd (ty : IntTy) (x y : Int) : LaneOut :=
  if y = 0 then { val := wrapW (it64 ty) x, flags := fDIVZ } else narrow ty false (x.tmod y)

/-- 05 R154. -/
def execDiv (ty : IntTy) (d : Dst) (a b : Src) (s : State) : Out1 :=
  s.int2 ty d (.src a (it64 ty)) (.src b (it64 ty)) (quot ty)
/-- 05 R154. -/
def execRem (ty : IntTy) (d : Dst) (a b : Src) (s : State) : Out1 :=
  s.int2 ty d (.src a (it64 ty)) (.src b (it64 ty)) (remd ty)
/-- 05 R155. -/
def execMin (ty : IntTy) (d : Dst) (a : Src) (b : OpB) (s : State) : Out1 :=
  s.int2 ty d (.src a (it64 ty)) (opndB b (it64 ty)) (fun x y => narrow ty false (if x ≤ y then x else y))
/-- 05 R155. -/
def execMax (ty : IntTy) (d : Dst) (a : Src) (b : OpB) (s : State) : Out1 :=
  s.int2 ty d (.src a (it64 ty)) (opndB b (it64 ty)) (fun x y => narrow ty false (if x ≤ y then y else x))
/-- 05 R156. -/
def execAbs (wd : Wd) (sat : Bool) (d : Dst) (a : Src) (s : State) : Out1 :=
  s.lanewise [.src a (wd64 wd)] d (wd64 wd) (fun vs =>
    narrow (wdInt wd) sat ((typed (wdInt wd) (arg vs 0)).natAbs))
/-- 05 R156. -/
def execNeg (wd : Wd) (sat : Bool) (d : Dst) (a : Src) (s : State) : Out1 :=
  s.lanewise [.src a (wd64 wd)] d (wd64 wd) (fun vs => narrow (wdInt wd) sat (-(typed (wdInt wd) (arg vs 0))))

/-! ### Bitwise, shifts and bit fields (05 R157 to R160) -/

/-- 05 R157. -/
def execAnd (wd : Wd) (d : Dst) (a : Src) (b : OpB) (s : State) : Out1 := s.bits2 wd d a b (fun x y => x &&& y)
/-- 05 R157. -/
def execOr (wd : Wd) (d : Dst) (a : Src) (b : OpB) (s : State) : Out1 := s.bits2 wd d a b (fun x y => x ||| y)
/-- 05 R157. -/
def execXor (wd : Wd) (d : Dst) (a : Src) (b : OpB) (s : State) : Out1 := s.bits2 wd d a b (fun x y => x ^^^ y)
/-- 05 R157. -/
def execAndn (wd : Wd) (d : Dst) (a : Src) (b : OpB) (s : State) : Out1 := s.bits2 wd d a b (fun x y => x &&& ~~~y)

/-- Shift left at a width (05 R158). -/
def shlW (w64 : Bool) (x : DWord) (n : Nat) : DWord :=
  if w64 then (if n < 64 then x <<< n else 0) else (if n < 32 then (lo32 x <<< n).setWidth 64 else 0)

/-- Shift right at a type (05 R158). -/
def shrTy (ty : IntTy) (x : DWord) (n : Nat) : DWord :=
  let v := typed ty x
  wrapW (it64 ty) (if n < itW ty then v.fdiv (2 ^ n : Nat) else if v < 0 then -1 else 0)

/-- Rotate left at a width (05 R158). -/
def rotW (w64 : Bool) (x : DWord) (n : Nat) : DWord :=
  if w64 then x.rotateLeft (n % 64) else ((lo32 x).rotateLeft (n % 32)).setWidth 64

/-- A shift: the amount is a 32-bit position, read in full (05 R149, R158). -/
def State.shift (s : State) (w64 : Bool) (d : Dst) (a : Src) (b : OpB) (f : DWord → Nat → DWord) : Out1 :=
  s.lanewise [.src a w64, opndB b false] d w64 (fun vs => { val := f (arg vs 0) (lo32 (arg vs 1)).toNat })

/-- 05 R158. -/
def execShl (wd : Wd) (d : Dst) (a : Src) (b : OpB) (s : State) : Out1 := s.shift (wd64 wd) d a b (shlW (wd64 wd))
/-- 05 R158. -/
def execShr (ty : IntTy) (d : Dst) (a : Src) (b : OpB) (s : State) : Out1 := s.shift (it64 ty) d a b (shrTy ty)
/-- 05 R158. -/
def execRot (wd : Wd) (d : Dst) (a : Src) (b : OpB) (s : State) : Out1 := s.shift (wd64 wd) d a b (rotW (wd64 wd))

/-- Bit counts of the low `w` bits (05 R159). -/
def popcount (w : Nat) (x : DWord) : Nat := ((List.range w).filter (fun i => x.getLsbD i)).length
def leading (w : Nat) (x : DWord) : Nat := ((List.range w).find? (fun i => x.getLsbD (w - 1 - i))).getD w
def trailing (w : Nat) (x : DWord) : Nat := ((List.range w).find? (fun i => x.getLsbD i)).getD w

/-- A count: the result is 32 bits wide in every form (05 R159). -/
def State.count (s : State) (wd : Wd) (d : Dst) (a : Src) (f : Nat → DWord → Nat) : Out1 :=
  s.lanewise [.src a (wd64 wd)] d false (fun vs => { val := BitVec.ofNat 64 (f (wdW wd) (arg vs 0)) })

/-- 05 R159. -/
def execPopc (wd : Wd) (d : Dst) (a : Src) (s : State) : Out1 := s.count wd d a popcount
/-- 05 R159. -/
def execClz (wd : Wd) (d : Dst) (a : Src) (s : State) : Out1 := s.count wd d a leading
/-- 05 R159. -/
def execCtz (wd : Wd) (d : Dst) (a : Src) (s : State) : Out1 := s.count wd d a trailing
/-- 05 R159. -/
def execBrev (wd : Wd) (d : Dst) (a : Src) (s : State) : Out1 :=
  s.lanewise [.src a (wd64 wd)] d (wd64 wd) (fun vs =>
    { val := if wd64 wd then (arg vs 0).reverse else (lo32 (arg vs 0)).reverse.setWidth 64 })

/-- A mask of `len` ones. -/
def ones (len : Nat) : DWord := BitVec.ofNat 64 (2 ^ len - 1)

/-- 05 R160: the field of `bfx`. -/
def bfxVal (ty : IntTy) (x : DWord) (pos len : Nat) : DWord :=
  let f := x >>> pos &&& ones len
  if itSigned ty ∧ f.getLsbD (len - 1) then wrapW (it64 ty) ((f.toNat : Int) - (2 ^ len : Nat)) else f

/-- 05 R160. -/
def execBfx (ty : IntTy) (d : Dst) (a : Src) (pos len : BitVec 8) (s : State) : Out1 :=
  s.lanewise [.src a (it64 ty)] d (it64 ty) (fun vs => { val := bfxVal ty (arg vs 0) pos.toNat len.toNat })
/-- 05 R160. -/
def execBfi (wd : Wd) (d : Dst) (a b : Src) (pos len : BitVec 8) (s : State) : Out1 :=
  s.lanewise [.src a (wd64 wd), .src b (wd64 wd)] d (wd64 wd) (fun vs =>
    { val := (arg vs 0 &&& ~~~(ones len.toNat <<< pos.toNat)) |||
        ((arg vs 1 &&& ones len.toNat) <<< pos.toNat) })

/-! ### Compare, select and move (05 R161 to R163) -/

/-- The predicates of 05 R161. -/
def cmpHolds (p : CmpPred) (x y : Int) : Bool :=
  match p with
  | .eq => decide (x = y)
  | .ne => decide (x ≠ y)
  | .lt => decide (x < y)
  | .le => decide (x ≤ y)
  | .gt => decide (y < x)
  | .ge => decide (y ≤ x)

/-- 05 R161. -/
def execCmp (p : CmpPred) (ty : IntTy) (d : BitVec 4) (a : Src) (b : OpB) (s : State) : Out1 :=
  s.computeMask [.src a (it64 ty), opndB b (it64 ty)] d (fun vs =>
    (cmpHolds p (typed ty (arg vs 0)) (typed ty (arg vs 1)), 0))
/-- 05 R162. -/
def execSel (wd : Wd) (d : Dst) (a b : Src) (c : BitVec 4) (s : State) : Out1 :=
  s.withHere (fun h => s.vec h
    { ops := [.src a (wd64 wd), .src b (wd64 wd)], dst := some d, w64 := wd64 wd
      lane := fun k vs => { val := if bit (h.grp.mask c) k then arg vs 0 else arg vs 1 } } none justVals)
/-- 05 R163. -/
def execMov (wd : Wd) (d : Dst) (a : OpB) (s : State) : Out1 :=
  s.lanewise [opndB a (wd64 wd)] d (wd64 wd) (fun vs => { val := arg vs 0 })

/-! ### Uniform arithmetic at the headland (05 R164) -/

/-- A uniform operation of two operands. -/
def State.uni2 (s : State) (d a : BitVec 6) (b : OpK) (f : DWord → DWord → DWord) : Out1 :=
  s.withHere (fun h => s.setK h d (f (h.k a) (h.uni b)))

/-- 05 R164. -/
def execKadd (d a : BitVec 6) (b : OpK) (s : State) : Out1 := s.uni2 d a b (fun x y => x + y)
/-- 05 R164. -/
def execKsub (d a : BitVec 6) (b : OpK) (s : State) : Out1 := s.uni2 d a b (fun x y => x - y)
/-- 05 R164. -/
def execKmul (d a : BitVec 6) (b : OpK) (s : State) : Out1 := s.uni2 d a b (fun x y => x * y)
/-- 05 R164. -/
def execKshl (d a : BitVec 6) (b : OpK) (s : State) : Out1 :=
  s.uni2 d a b (fun x y => if y.toNat < 64 then x <<< y.toNat else 0)
/-- 05 R164. -/
def execKshr (d a : BitVec 6) (b : OpK) (s : State) : Out1 :=
  s.uni2 d a b (fun x y => if y.toNat < 64 then x >>> y.toNat else 0)
/-- 05 R164. -/
def execKand (d a : BitVec 6) (b : OpK) (s : State) : Out1 := s.uni2 d a b (fun x y => x &&& y)
/-- 05 R164. -/
def execKor (d a : BitVec 6) (b : OpK) (s : State) : Out1 := s.uni2 d a b (fun x y => x ||| y)
/-- 05 R164. -/
def execKmov (d : BitVec 6) (a : OpK) (s : State) : Out1 := s.withHere (fun h => s.setK h d (h.uni a))

/-- The value of `kli` (05 R164). -/
def kliVal : KliImm → DWord
  | .imm32 xs w => if xs then w.signExtend 64 else w.setWidth 64
  | .imm64 w => w

/-- 05 R164. -/
def execKli (d : BitVec 6) (v : KliImm) (s : State) : Out1 := s.withHere (fun h => s.setK h d (kliVal v))

/-! ### Addresses (05 R166 to R168) -/

/-- 05 R166. -/
def execLea (d : Dst) (a b : Src) (disp : Word) (s : State) : Out1 :=
  s.lanewise [.src a true, .src b false] d true (fun vs =>
    { val := arg vs 0 + (lo32 (arg vs 1)).setWidth 64 + disp.signExtend 64 })

/-- The base and the size of an aperture (07 Table 7.1). 01 R26 says that the bases of the windows come from the launch record,
07 R207 that they are fixed in every launch; the launch record has no field for them, and the model takes the fixed bases
(notes/assumptions/32: DESIGN CHOICE). -/
def windowBase : Window → DWord
  | .lane => laneBase
  | .shared => sharedBase
  | .cluster => clusterBase
def Here.windowSize (h : Here) : Window → Nat
  | .lane => 1024
  | .shared => h.launch.record.scrbytes
  | .cluster => h.launch.record.stageCount * 2097152

/-- Membership of a window (05 R167, R168). -/
def Here.inWindow (h : Here) (w : Window) (x : DWord) : Bool :=
  decide ((windowBase w).toNat ≤ x.toNat) && decide (x.toNat < (windowBase w).toNat + h.windowSize w)

/-- 05 R167. -/
def execAcvTo (w : Window) (d : Dst) (a : Src) (s : State) : Out1 :=
  s.withHere (fun h => s.vec h
    { ops := [.src a true], dst := some d, w64 := true
      lane := fun _ vs =>
        { val := if h.inWindow w (arg vs 0) then arg vs 0 - windowBase w else BitVec.allOnes 64 } } none justVals)
/-- 05 R167. -/
def execAcvFrom (w : Window) (d : Dst) (a : Src) (s : State) : Out1 :=
  s.withHere (fun h => s.vec h
    { ops := [.src a true], dst := some d, w64 := true
      lane := fun _ vs =>
        { val := if (arg vs 0).toNat < h.windowSize w then windowBase w + arg vs 0 else BitVec.allOnes 64 } }
    none justVals)

/-- The spaces of `ats` (05 R168). -/
def Here.inSpace (h : Here) (sp : Space) (x : DWord) : Bool :=
  match sp with
  | .lane => h.inWindow .lane x
  | .shared => h.inWindow .shared x
  | .cluster => h.inWindow .cluster x
  | .global => !h.inWindow .lane x && !h.inWindow .shared x && !h.inWindow .cluster x

/-- 05 R168. -/
def execAts (sp : Space) (d : BitVec 4) (a : Src) (s : State) : Out1 :=
  s.withHere (fun h => s.vec h
    { ops := [.src a true], lane := fun _ vs => { val := if h.inSpace sp (arg vs 0) then 1 else 0 } }
    none (toMask h d))

/-! ### Identity (05 R169) -/

/-- The values of 05 Table 5.4. -/
def Here.sregVal (h : Here) (item : SregItem) (k : Nat) : Nat :=
  match item with
  | .lane => k
  | .group => h.cur.grp
  | .stage => h.ctb.stage
  | .x => h.ctb.x
  | .y => h.ctb.y
  | .z => h.ctb.z
  | .row => h.cur.row
  | .col => h.cur.col
  | .slot => h.cur.slot
  | .block => h.ctb.blk % 2 ^ 32
  | .ngroups => h.launch.record.groups
  | .nlanes => h.launch.record.lanes

/-- 05 R169. -/
def execSreg (item : SregItem) (d : Dst) (s : State) : Out1 :=
  s.withHere (fun h => s.vec h
    { ops := [], dst := some d, lane := fun k _ => { val := BitVec.ofNat 64 (h.sregVal item k) } } none justVals)

/-! ### Relative register addressing (05 R170 to R172) -/

/-- Write an index register in the lanes that ran (05 R171). -/
def toIndex (h : Here) (ix : BitVec 2) (s : State) (_stop : Nat) (outs : List (Nat × LaneOut)) :
    State × List (Nat × DWord) :=
  (s.modG h (fun g => { g with ix := g.ix.modify ix.toNat (fun l =>
    mkLanes (fun k => match look outs k with
      | some o => o.val.setWidth 16
      | none => l.getD k 0)) }), [])

def Group.ixLane (g : Group) (ix : BitVec 2) (k : Nat) : BitVec 16 := (g.ix.getD ix.toNat []).getD k 0

/-- 05 R171. -/
def execIxset (ix : BitVec 2) (a : OpB) (s : State) : Out1 :=
  s.withHere (fun h => s.vec h
    { ops := [opndB a false], steps := false, lane := fun _ vs => { val := arg vs 0 } } none (toIndex h ix))
/-- 05 R171. -/
def execIxadd (ix : BitVec 2) (a : OpB) (s : State) : Out1 :=
  s.withHere (fun h => s.vec h
    { ops := [opndB a false], steps := false
      lane := fun k vs => { val := (h.grp.ixLane ix k + (arg vs 0).setWidth 16).setWidth 64 } } none (toIndex h ix))

/-- The effective index of a window access in lane `k` (05 R172). -/
def Here.windowIx (h : Here) (ix : BitVec 2) (disp : BitVec 16) (k : Nat) : Int :=
  (h.grp.ixLane ix k).toInt + disp.toInt

/-- The name that lane `k` reaches, or the fault (05 R172). -/
def Here.windowName (h : Here) (ix : BitVec 2) (base : BitVec 11) (disp : BitVec 16) (len : BitVec 9) (k : Nat) :
    Except DWord Nat :=
  let e := h.windowIx ix disp k
  let n := base.toNat + e.toNat
  if e < 0 ∨ (len.toNat : Int) ≤ e ∨ h.grp.written n = false then .error (BitVec.ofInt 64 e) else .ok n

/-- 05 R172. -/
def execVget (ix : BitVec 2) (d : Dst) (base : BitVec 11) (disp : BitVec 16) (len : BitVec 9) (s : State) : Out1 :=
  s.withHere (fun h => s.vec h
    { ops := [], dst := some d
      lane := fun k _ => match h.windowName ix base disp len k with
        | .ok n => { val := (h.grp.vlane n k).setWidth 64 }
        | .error e => { fault := some (cRegBound, e) } } none justVals)
/-- 05 R172: each lane's write is in flight to the name it reaches; no latch, no new row. -/
def execVput (ix : BitVec 2) (base : BitVec 11) (b : Src) (disp : BitVec 16) (len : BitVec 9) (s : State) : Out1 :=
  s.withHere (fun h => s.vec h
    { ops := [.src b false]
      lane := fun k vs => match h.windowName ix base disp len k with
        | .ok n => { val := arg vs 0, wreg := some n }
        | .error e => { fault := some (cRegBound, e) } } none
    (fun s _ outs =>
      (s.modG h (fun g => { g with pend := g.pend ++ outs.map (fun o =>
        { due := h.rg.pos + 1, run := h.reach.run
          reg := match h.windowName ix base disp len o.1 with
            | .ok n => some n
            | .error _ => none
          w64 := false, latch := none, lanes := maskOf (fun k => k == o.1), vals := mkLanes (fun _ => o.2.val)
          dead := [], rows := 0, flags := 0, see := none, item := 0 }) }), [])))

/-! ### Register growth (05 R173 to R175) -/

/-- A growth instruction (05 R175): the status is put under the limit before the change, then the change takes place. -/
def State.growth (s : State) (h : Here) (d : Dst) (status : Word) (granted : Nat) (reserve : Nat) : State :=
  let s1 := s.putAll h d false (status.setWidth 64)
  if s1.faults.length = s.faults.length ∧ h.grp.cursor ≠ 33 then
    (s1.modG h (fun g => { g with granted := granted })).modC h (fun c => { c with reserve := reserve })
  else s1

/-- The limit in the status word. -/
def limitField (budget granted : Nat) : Nat := (budget + granted) % 1024 * 65536

/-- 05 R175. -/
def execRgrow (d : Dst) (a : OpK) (s : State) : Out1 :=
  s.withHere (fun h =>
    let n := (h.uniZ a).toNat
    let b := h.launch.record.budget
    let g := h.grp.granted
    if n ≤ h.ctb.reserve ∧ b + g + n ≤ h.launch.record.ceiling then
      s.growth h d (BitVec.ofNat 32 (limitField b (g + n))) (g + n) (h.ctb.reserve - n)
    else s.growth h d (BitVec.ofNat 32 (limitField b g + 1)) g h.ctb.reserve)
/-- 05 R175. -/
def execRshrink (d : Dst) (a : OpK) (s : State) : Out1 :=
  s.withHere (fun h =>
    let b := h.launch.record.budget
    let g := h.grp.granted
    let m := Nat.min (h.uniZ a).toNat (Nat.min g (b + g - h.grp.footprint))
    s.growth h d (BitVec.ofNat 32 (limitField b (g - m))) (g - m) (h.ctb.reserve + m))
/-- 05 R175. The IMM32 of its 96i form (02 Table 2.13) feeds nothing and takes any value (DEDUCED, notes/assumptions/21). -/
def execRquery (d : QueryDst) (s : State) : Out1 :=
  s.withHere (fun h =>
    s.putAll h d.dst false (BitVec.ofNat 64 (h.grp.footprint % 1024 +
      (h.launch.record.budget + h.grp.granted) % 1024 * 1024 + h.ctb.reserve % 1024 * 2 ^ 20)))

end Sys2Proof.Machine
end

