-- ==== Sys2Proof/Machine/Numeric.lean ====
section
/-! DEFINITION. Number formats (06): IEEE formats, binary8, fp4 and INT4, exact values, the one rounding of 06 R177 and
R181, NaNs, exact sums, and the correctly rounded functions of R194. -/
namespace Sys2Proof.Machine

/-! ### Exact values and rounding -/

/-- A value: a NaN, an infinity, or ± m × 2^e. -/
inductive FVal where
  | nan
  | inf (neg : Bool)
  | fin (neg : Bool) (m : Nat) (e : Int)
  deriving DecidableEq, Repr

/-- A floating format: `t` fraction bits and a bias (06 Table 6.1, R180, R182). -/
structure Grid where
  t    : Nat
  bias : Int
  deriving DecidableEq, Repr

/-- The exponent of the least subnormal. -/
def Grid.umin (g : Grid) : Int := 1 - g.bias - g.t

/-- Round the magnitude up from the lower candidate? `half` compares the discarded part with a half: 0 exact, 1 below,
2 a tie, 3 above. -/
def roundsUp (rm : RM) (neg odd : Bool) (half : Nat) : Bool :=
  match rm with
  | .rne => half == 3 || (half == 2 && odd)
  | .rna => decide (2 ≤ half)
  | .rtz => false
  | .rup => half != 0 && !neg
  | .rdn => half != 0 && neg

/-- m × 2^-sh as a floor with what it discards (as in `roundsUp`). -/
def dropBits (m sh : Nat) : Nat × Nat :=
  if sh = 0 then (m, 0)
  else if Nat.log2 m + 2 < sh then (0, if m = 0 then 0 else 1)
  else
    let q := m >>> sh
    let r := m % 2 ^ sh
    let h := 2 ^ (sh - 1)
    (q, if r = 0 then 0 else if r < h then 1 else if r = h then 2 else 3)

/-- m × 2^e in units of 2^u, rounded; the code parity of the lower candidate is that of `(u - umin) × 2^t` plus it. -/
def roundAt (g : Grid) (rm : RM) (neg : Bool) (m : Nat) (e u : Int) : Nat × Bool :=
  if u ≤ e then (m <<< (e - u).toNat, false)
  else
    let (q, half) := dropBits m (u - e).toNat
    let odd := ((u - g.umin) * (2 ^ g.t : Nat) + q) % 2 != 0
    (if roundsUp rm neg odd half then q + 1 else q, half != 0)

/-- A rounded magnitude: its code as if the exponent range were unbounded above, whether it is inexact, and whether it
is tiny after rounding. -/
structure Rounded where
  code    : Nat
  inexact : Bool
  tiny    : Bool
  deriving DecidableEq, Repr

/-- Rounding of ± m × 2^e to a grid (06 R177, R181 step 2). The test for tininess rounds as if the exponent range were
unbounded; for a significand of one bit (binary8p1) no code just below the least normal gives the bit [0] that decides a tie
there, and the model takes the parity that the codes would have if they went on below (notes/assumptions/20: DESIGN CHOICE). -/
def roundGrid (g : Grid) (rm : RM) (neg : Bool) (m : Nat) (e : Int) : Rounded :=
  if m = 0 then { code := 0, inexact := false, tiny := false }
  else
    let top : Int := e + Nat.log2 m
    let emin : Int := 1 - g.bias
    let u : Int := if top - g.t < g.umin then g.umin else top - g.t
    let (q, ix) := roundAt g rm neg m e u
    let tiny :=
      if top < emin - 1 then true
      else if emin ≤ top then false
      else decide ((roundAt g rm neg m e (top - g.t)).1 < 2 ^ (g.t + 1))
    { code := (u - g.umin).toNat * 2 ^ g.t + q, inexact := ix, tiny := tiny }

/-- The magnitude of a code (06 R180). -/
def Grid.mag (g : Grid) (c : Nat) : Nat × Int :=
  let e := c / 2 ^ g.t
  let f := c % 2 ^ g.t
  if e = 0 then (f, g.umin) else (2 ^ g.t + f, g.umin + (e - 1 : Nat))

/-- The flags of a rounding (06 Table 6.2). -/
def roundFlags (r : Rounded) : Word :=
  (if r.inexact then fINX else 0) ||| (if r.tiny && r.inexact then fUNF else 0)

/-- Overflow delivers an infinity in this mode (IEEE 754-2019). -/
def toInf (rm : RM) (neg : Bool) : Bool :=
  match rm with
  | .rne => true
  | .rna => true
  | .rtz => false
  | .rup => !neg
  | .rdn => neg

/-! ### IEEE formats (06 R176 to R178) -/

/-- An IEEE format: its width and its grid. -/
structure Ieee where
  w : Nat
  g : Grid
  deriving DecidableEq, Repr

def fp32 : Ieee := { w := 32, g := { t := 23, bias := 127 } }
def fp16 : Ieee := { w := 16, g := { t := 10, bias := 15 } }
def bf16 : Ieee := { w := 16, g := { t := 7, bias := 127 } }

def Ieee.signBit (f : Ieee) : Nat := 2 ^ (f.w - 1)
def Ieee.infCode (f : Ieee) : Nat := (2 ^ (f.w - 1 - f.g.t) - 1) * 2 ^ f.g.t
def Ieee.neg (f : Ieee) (c : Nat) : Bool := decide (f.signBit ≤ c % 2 ^ f.w)
def Ieee.low (f : Ieee) (c : Nat) : Nat := c % f.signBit
def Ieee.isNaN (f : Ieee) (c : Nat) : Bool := decide (f.infCode < f.low c)
def Ieee.isSNaN (f : Ieee) (c : Nat) : Bool := f.isNaN c && !c.testBit (f.g.t - 1)
def Ieee.quiet (f : Ieee) (c : Nat) : Nat := c ||| 2 ^ (f.g.t - 1)
def Ieee.dNaN (f : Ieee) : Nat := f.infCode + 2 ^ (f.g.t - 1)
def Ieee.withSign (f : Ieee) (neg : Bool) (c : Nat) : Nat := if neg then f.signBit + c else c

/-- The value of a pattern. -/
def Ieee.val (f : Ieee) (c : Nat) : FVal :=
  let l := f.low c
  if f.infCode < l then .nan
  else if l = f.infCode then .inf (f.neg c)
  else .fin (f.neg c) (f.g.mag l).1 (f.g.mag l).2

/-- Round to an IEEE format (06 R177): the pattern and the flags. A zero keeps the sign given. -/
def Ieee.round (f : Ieee) (rm : RM) (neg : Bool) (m : Nat) (e : Int) : Nat × Word :=
  let r := roundGrid f.g rm neg m e
  if f.infCode ≤ r.code then
    (f.withSign neg (if toInf rm neg then f.infCode else f.infCode - 1), fOVF ||| fINX)
  else (f.withSign neg r.code, roundFlags r)

/-- NaNOut with the flag of a signalling operand (06 R178 rule 1, R190). -/
def Ieee.nanOut (f : Ieee) (ops : List Nat) : Option (Nat × Word) :=
  match ops.find? f.isNaN with
  | some c => some (f.quiet c, if ops.any f.isSNaN then fINV else 0)
  | none => none

/-- A NaN moved between IEEE formats (06 R178 rule 3). -/
def nanConv (src dst : Ieee) (c : Nat) : Nat × Word :=
  let fr := c % 2 ^ src.g.t
  let fr2 := if dst.g.t ≤ src.g.t then fr / 2 ^ (src.g.t - dst.g.t) else fr * 2 ^ (dst.g.t - src.g.t)
  (dst.withSign (src.neg c) (dst.quiet (dst.infCode + fr2)), if src.isSNaN c then fINV else 0)

/-- TotalLess (02 Table 2.24): by sign, then by magnitude pattern. -/
def Ieee.key (f : Ieee) (c : Nat) : Int := if f.neg c then -1 - (f.low c : Int) else f.low c
def Ieee.totalLess (f : Ieee) (a b : Nat) : Bool := decide (f.key a < f.key b)

/-! ### Exact sums (06 R177, R190, R202) -/

/-- An exact sum of finite terms; none of them may be a NaN or an infinity. -/
def sumTerms (e0 : Int) : List (Bool × Nat × Int) → Int
  | [] => 0
  | (n, m, e) :: l =>
    let x : Int := (m <<< (e - e0).toNat : Nat)
    (if n then -x else x) + sumTerms e0 l

/-- The least exponent among nonzero terms. -/
def minExp : List (Bool × Nat × Int) → Int
  | [] => 0
  | [(_, _, e)] => e
  | (_, _, e) :: l => if e ≤ minExp l then e else minExp l

/-- The exact sum as sign, magnitude and exponent; the sign of an exact zero is the terms' common sign, else + except in
mode down (06 R177). -/
def exactSum (rm : RM) (ts : List (Bool × Nat × Int)) : Bool × Nat × Int :=
  let nz := ts.filter (fun t => t.2.1 != 0)
  let e0 := minExp nz
  let x := sumTerms e0 nz
  if x = 0 then
    let neg := if nz = [] ∧ ts.all (fun t => t.1) then true
      else if nz = [] ∧ ts.all (fun t => !t.1) then false
      else rm == .rdn
    (neg, 0, 0)
  else (decide (x < 0), x.natAbs, e0)

/-- The product of two values that are no NaN; `none` is 0 × ∞. -/
def mulVal : FVal → FVal → Option FVal
  | .inf a, .inf b => some (.inf (a != b))
  | .inf a, .fin b m _ => if m = 0 then none else some (.inf (a != b))
  | .fin a m _, .inf b => if m = 0 then none else some (.inf (a != b))
  | .fin a m e, .fin b n f => some (.fin (a != b) (m * n) (e + f))
  | _, _ => some .nan

/-- The sum of values that are no NaN, rounded once; `none` among them is an invalid product (06 R178 rule 2). -/
def Ieee.sum (f : Ieee) (rm : RM) (vs : List (Option FVal)) : Nat × Word :=
  let infs := vs.filterMap (fun v => match v with
    | some (.inf n) => some n
    | _ => none)
  if vs.contains none ∨ (infs.contains true ∧ infs.contains false) then (f.dNaN, fINV)
  else
    match infs with
    | n :: _ => (f.withSign n f.infCode, 0)
    | [] =>
      let (n, m, e) := exactSum rm (vs.filterMap (fun v => match v with
        | some (.fin n m e) => some (n, m, e)
        | _ => none))
      f.round rm n m e

def Ieee.add (f : Ieee) (rm : RM) (a b : Nat) : Nat × Word :=
  match f.nanOut [a, b] with
  | some r => r
  | none => f.sum rm [some (f.val a), some (f.val b)]

/-- The value negated. -/
def negVal : FVal → FVal
  | .nan => .nan
  | .inf n => .inf (!n)
  | .fin n m e => .fin (!n) m e

def Ieee.sub (f : Ieee) (rm : RM) (a b : Nat) : Nat × Word :=
  match f.nanOut [a, b] with
  | some r => r
  | none => f.sum rm [some (f.val a), some (negVal (f.val b))]

def Ieee.mul (f : Ieee) (rm : RM) (a b : Nat) : Nat × Word :=
  match f.nanOut [a, b] with
  | some r => r
  | none => f.sum rm [mulVal (f.val a) (f.val b)]

def Ieee.fma (f : Ieee) (rm : RM) (a b c : Nat) : Nat × Word :=
  match f.nanOut [a, b, c] with
  | some r => r
  | none => f.sum rm [mulVal (f.val a) (f.val b), some (f.val c)]

/-! ### Quotients, roots, powers and logarithms (06 R194) -/

/-- A magnitude that lies strictly between m and m + 1 units of 2^e, or is m units exactly: an odd last bit stands for
what was discarded, far below the last bit of any format. -/
def sticky (m : Nat) (exact : Bool) (e : Int) : Nat × Int := if exact then (m, e) else (2 * m + 1, e - 1)

/-- m1 × 2^e1 / (m2 × 2^e2), for m2 > 0. -/
def quotient (m1 : Nat) (e1 : Int) (m2 : Nat) (e2 : Int) : Nat × Int :=
  let k := 80 + Nat.log2 m2
  let n := m1 <<< k
  sticky (n / m2) (n % m2 == 0) (e1 - e2 - k)

/-- Newton's iteration for the integer square root, from above. -/
def isqrtFrom : Nat → Nat → Nat → Nat
  | 0, _, x => x
  | fuel + 1, n, x =>
    let y := (x + n / x) / 2
    if x ≤ y then x else isqrtFrom fuel n y

/-- The integer square root. -/
def isqrt (n : Nat) : Nat := if n = 0 then 0 else isqrtFrom 256 n (2 ^ (Nat.log2 n / 2 + 1))

/-- The square root of m × 2^e, m > 0. -/
def rootOf (m : Nat) (e : Int) : Nat × Int :=
  let k : Nat := if e % 2 = 0 then 100 else 101
  let n := m <<< k
  let r := isqrt n
  sticky r (r * r == n) ((e - k) / 2)

/-- 1 / sqrt(m × 2^e), m > 0: the root of 2^2k / m. -/
def rrootOf (m : Nat) (e : Int) : Nat × Int :=
  let k : Nat := if e % 2 = 0 then 200 else 201
  let n := 2 ^ k
  let r := isqrt (n / m)
  sticky r (r * r * m == n) ((-e - k) / 2)

/-- Bits of the working precision of 2^x (notes/assumptions/16). -/
def expBits : Nat := 200

/-- The product of 2^(2^-i) over the set bits of a fraction, most significant first; `c` is 2^(2^-(i-1)). -/
def expFrac : Nat → Nat → Nat → Nat → Nat
  | 0, _, _, acc => acc
  | n + 1, f, c, acc =>
    let c1 := isqrt (c <<< expBits)
    expFrac n f c1 (if f.testBit n then (acc * c1) >>> expBits else acc)

/-- 2^(± m × 2^e), m > 0. -/
def exp2Of (neg : Bool) (m : Nat) (e : Int) : Nat × Int :=
  if 0 ≤ e + Nat.log2 m - 12 then (if neg then (1, -400) else (1, 400))
  else if e + Nat.log2 m < -31 then sticky (if neg then 2 ^ 30 - 1 else 2 ^ 30) false (-30)
  else
    let x : Int := (m <<< (e + 64).toNat : Nat)
    let y := if neg then -x else x
    let n := y / (2 ^ 64 : Nat)
    let f := (y % (2 ^ 64 : Nat)).toNat
    if f = 0 then (1, n)
    else
      let a := expFrac 64 f (2 <<< expBits) (1 <<< expBits)
      sticky (a >>> 100) false (n - 100)

/-- Bits of log2(y) for y in [1, 2), by squaring (notes/assumptions/16). -/
def logBits : Nat → Nat → Nat → Nat
  | 0, _, acc => acc
  | n + 1, y, acc =>
    let z := (y * y) >>> 320
    if 2 ^ 321 ≤ z then logBits n (z / 2) (2 * acc + 1) else logBits n z (2 * acc)

/-- log2(m × 2^e), m > 0, as sign, magnitude and exponent. -/
def log2Of (m : Nat) (e : Int) : Bool × Nat × Int :=
  let k := Nat.log2 m
  let n : Int := e + k
  if m = 2 ^ k then (decide (n < 0), n.natAbs, 0)
  else
    let f := logBits 100 (m <<< (320 - k)) 0
    let x : Int := n * (2 ^ 100 : Nat) + f
    if 0 ≤ x then (false, 2 * x.toNat + 1, -101) else (true, 2 * (-x - 1).toNat + 1, -101)

/-- The functions of 06 R194. -/
inductive FFun where
  | rcp | rsq | sqrt | exp2 | log2
  deriving DecidableEq, Repr

/-- An FP32 function: Table 6.10, then one rounding (06 R194). -/
def funOf (fn : FFun) (rm : RM) (a : Nat) : Nat × Word :=
  match fp32.nanOut [a] with
  | some r => r
  | none =>
    let inf (n : Bool) : Nat := fp32.withSign n fp32.infCode
    let bad : Nat × Word := (fp32.dNaN, fINV)
    match fp32.val a with
    | .nan => bad
    | .inf n =>
      match fn with
      | .rcp => (fp32.withSign n 0, 0)
      | .rsq => if n then bad else (0, 0)
      | .sqrt => if n then bad else (inf false, 0)
      | .exp2 => if n then (0, 0) else (inf false, 0)
      | .log2 => if n then bad else (inf false, 0)
    | .fin n m e =>
      if m = 0 then
        match fn with
        | .rcp => (inf n, fDZ)
        | .rsq => (inf n, fDZ)
        | .sqrt => (a, 0)
        | .exp2 => (0x3F800000, 0)
        | .log2 => (inf true, fDZ)
      else
        match fn with
        | .rcp => let (q, x) := quotient 1 0 m e; fp32.round rm n q x
        | .rsq => if n then bad else let (q, x) := rrootOf m e; fp32.round rm false q x
        | .sqrt => if n then bad else let (q, x) := rootOf m e; fp32.round rm false q x
        | .exp2 => let (q, x) := exp2Of n m e; fp32.round rm false q x
        | .log2 => if n then bad else let (ng, q, x) := log2Of m e; fp32.round rm ng q x

/-! ### Integers -/

/-- ± m × 2^e rounded to an integer in a mode; with whether it differs. -/
def roundInt (rm : RM) (neg : Bool) (m : Nat) (e : Int) : Int × Bool :=
  let (q, ix) := if 0 ≤ e then (m <<< e.toNat, false) else
    let (q, half) := dropBits m (-e).toNat
    (if roundsUp rm neg (q % 2 == 1) half then q + 1 else q, half != 0)
  (if neg then -(q : Int) else q, ix)

/-- ± a / b rounded to an integer in a mode, for b > 0; with whether it differs. -/
def roundRatio (rm : RM) (neg : Bool) (a b : Nat) : Int × Bool :=
  let q := a / b
  let r := a % b
  let half := if r = 0 then 0 else if 2 * r < b then 1 else if 2 * r = b then 2 else 3
  let n := if roundsUp rm neg (q % 2 == 1) half then q + 1 else q
  (if neg then -(n : Int) else n, half != 0)

/-! ### Format slots (06 R180 to R185) -/

/-- The kinds of 06 Table 6.6. -/
inductive Kind where
  | unbound | f32 | bf16 | f16 | b8 | fp4 | int4 | int8 | bad
  deriving DecidableEq, Repr

/-- A format slot descriptor, field by field (06 Table 6.6). -/
structure Slot where
  kind  : Kind
  prec  : Nat
  uns   : Bool
  inf   : Bool
  sat   : Bool
  scale : Nat
  zp    : Int
  scl   : Nat
  deriving DecidableEq, Repr

def kindOf : Nat → Kind
  | 0 => .unbound
  | 1 => .f32
  | 2 => .bf16
  | 3 => .f16
  | 4 => .b8
  | 5 => .fp4
  | 6 => .int4
  | 7 => .int8
  | _ => .bad

def slotOf (d : DWord) : Slot where
  kind := kindOf (d.extractLsb' 0 4).toNat
  prec := (d.extractLsb' 4 3).toNat
  uns := d.getLsbD 7
  inf := d.getLsbD 8
  sat := d.getLsbD 9
  scale := (d.extractLsb' 10 2).toNat
  zp := (d.extractLsb' 16 16).toInt
  scl := (d.extractLsb' 32 32).toNat

/-- A positive normal FP32 pattern. -/
def posNormal (c : Nat) : Bool := decide (2 ^ 23 ≤ c) && decide (c < fp32.infCode)

/-- A descriptor that 06 R185 does not call invalid. -/
def slotValid (d : DWord) : Bool :=
  let s := slotOf d
  d == 0 ||
  (s.kind != .unbound && s.kind != .bad && d.extractLsb' 12 4 == 0 && s.scale != 3 &&
    ((s.kind == .b8) == (s.prec != 0)) &&
    (!s.uns || s.kind == .b8 || s.kind == .int8) && (!s.inf || s.kind == .b8) &&
    (s.kind != .int4 || s.sat) &&
    (s.zp == 0 || (s.kind == .int8 && (if s.uns then decide (0 ≤ s.zp ∧ s.zp ≤ 255)
      else decide (-128 ≤ s.zp ∧ s.zp ≤ 127)))) &&
    (s.scale != 0 || s.scl == 0) && (s.scale != 1 || posNormal s.scl) &&
    (s.scale != 2 || (s.scl % 256 == 0 && decide (s.scl < 2097152))))

/-- A small format (06 R180, R182): its grid, sign bit (0: none), width, NaN, greatest finite code and infinities. -/
structure Mini where
  g    : Grid
  sign : Nat
  w    : Nat
  nan  : Nat
  maxc : Nat
  infp : Option Nat
  infn : Option Nat
  deriving DecidableEq, Repr

def b8Of (prec : Nat) (uns inf : Bool) : Mini :=
  if uns then
    { g := { t := prec - 1, bias := (2 ^ (8 - prec) : Nat) }, sign := 0, w := 8, nan := 0xFF
      maxc := if inf then 0xFD else 0xFE, infp := if inf then some 0xFE else none, infn := none }
  else
    { g := { t := prec - 1, bias := (2 ^ (7 - prec) : Nat) }, sign := 0x80, w := 8, nan := 0x80
      maxc := if inf then 0x7E else 0x7F, infp := if inf then some 0x7F else none
      infn := if inf then some 0xFF else none }

/-- fp4 (06 R182). -/
def fp4Of : Mini where
  g := { t := 1, bias := 2 }
  sign := 0x8
  w := 4
  nan := 0x8
  maxc := 0x7
  infp := none
  infn := none

/-- The value of a code (06 R180, R182). -/
def Mini.val (f : Mini) (c : Nat) : FVal :=
  if c = f.nan then .nan
  else if some c = f.infp then .inf false
  else if some c = f.infn then .inf true
  else
    let neg := f.sign != 0 && decide (f.sign ≤ c)
    let l := if f.sign = 0 then c else c % f.sign
    .fin neg (f.g.mag l).1 (f.g.mag l).2

/-- The delivered code of an overflow (06 R181 step 4). -/
def Mini.over (f : Mini) (sat : Bool) (rm : RM) (neg : Bool) : Nat :=
  let sg := if neg then f.sign else 0
  if sat || !toInf rm neg then f.maxc + sg
  else
    match (if neg then f.infn else f.infp) with
    | some c => c
    | none => f.nan

/-- Round to a small format (06 R181). A NaN's own flag is the caller's. A negative value that an unsigned format rounds to a
nonzero magnitude raises UNF by that magnitude, beside INV and INX (notes/assumptions/20: DESIGN CHOICE). -/
def Mini.round (f : Mini) (sat : Bool) (rm : RM) : FVal → Nat × Word
  | .nan => (f.nan, 0)
  | .inf neg =>
    if f.sign = 0 ∧ neg then (if sat then 0 else f.nan, fINV ||| fINX)
    else
      match (if neg then f.infn else f.infp) with
      | some c => (c, 0)
      | none => (f.over sat rm neg, fINV ||| fINX)
  | .fin neg m e =>
    let r := roundGrid f.g rm neg m e
    if r.code = 0 then (0, roundFlags r)
    else if f.sign = 0 ∧ neg then
      (if sat then 0 else f.nan, fINV ||| fINX ||| (if f.maxc < r.code then fOVF else roundFlags r))
    else if f.maxc < r.code then (f.over sat rm neg, fOVF ||| fINX)
    else (r.code + (if neg then f.sign else 0), roundFlags r)

/-- The value of an INT4 code, with its flag (06 R183). -/
def int4Val (c : Nat) : Int × Word :=
  if c = 8 then (0, fINT4RSV) else (if c < 8 then (c : Int) else (c : Int) - 16, 0)

def Slot.mini (s : Slot) : Mini := if s.kind = .fp4 then fp4Of else b8Of s.prec s.uns s.inf

/-- The width in bits of a slot's codes. -/
def Slot.width (s : Slot) : Nat :=
  match s.kind with
  | .f32 => 32
  | .bf16 => 16
  | .f16 => 16
  | .fp4 => 4
  | .int4 => 4
  | _ => 8

/-- The IEEE format of a slot. -/
def Slot.ieee (s : Slot) : Option Ieee :=
  match s.kind with
  | .f32 => some fp32
  | .bf16 => some Machine.bf16
  | .f16 => some fp16
  | _ => none

/-- An integer as a value. -/
def intVal (x : Int) : FVal := .fin (decide (x < 0)) x.natAbs 0

/-- The value of a slot's code, with the flag of a reserved INT4 code (06 R200). -/
def Slot.val (s : Slot) (c : Nat) : FVal × Word :=
  match s.kind with
  | .int4 => (intVal (int4Val c).1, (int4Val c).2)
  | .int8 => (intVal ((if s.uns then (c : Int) else (BitVec.ofNat 8 c).toInt) - s.zp), 0)
  | .b8 => (s.mini.val c, 0)
  | .fp4 => (s.mini.val c, 0)
  | _ => match s.ieee with
    | some f => (f.val c, 0)
    | none => (.nan, 0)

/-- The scale of a slot as m × 2^e: 1 unless it is per tensor (06 Table 6.6). -/
def Slot.scaleVal (s : Slot) : Nat × Int := if s.scale = 1 then fp32.g.mag (fp32.low s.scl) else (1, 0)

end Sys2Proof.Machine
end

