-- ==== Sys2Proof/Machine/Float.lean ====
section
/-! DEFINITION. The number-format and floating-point class (06 R187 to R206). -/
namespace Sys2Proof.Machine

/-! ### Elements (06 R176, R189) -/

/-- The IEEE format of a type's elements. -/
def fltFmt : FltTy → Ieee
  | .f32 => fp32
  | .f16x2 => fp16
  | .bf16x2 => bf16

/-- Elements of a lane value. -/
def eltsOf (ty : FltTy) (v : DWord) : List Nat :=
  match ty with
  | .f32 => [(lo32 v).toNat]
  | _ => [(v.extractLsb' 0 16).toNat, (v.extractLsb' 16 16).toNat]

/-- A lane value from its elements. -/
def joinElts (ty : FltTy) (l : List Nat) : DWord :=
  match ty with
  | .f32 => BitVec.ofNat 64 (l.getD 0 0 % 2 ^ 32)
  | _ => BitVec.ofNat 64 (l.getD 0 0 % 2 ^ 16 + 2 ^ 16 * (l.getD 1 0 % 2 ^ 16))

/-- An element-wise operation (06 R189). -/
def byElt (ty : FltTy) (f : List Nat → Nat × Word) (vs : List DWord) : LaneOut :=
  let cols := vs.map (eltsOf ty)
  let n := if ty = .f32 then 1 else 2
  let rs := (List.range n).map (fun i => f (cols.map (fun c => c.getD i 0)))
  { val := joinElts ty (rs.map (·.1)), flags := rs.foldl (fun a r => a ||| r.2) 0 }

/-- A float operation with a register destination. -/
def State.floatOp (s : State) (ty : FltTy) (d : Dst) (ops : List Opnd) (f : List Nat → Nat × Word) : Out1 :=
  s.lanewise ops d false (byElt ty f)

def argN (l : List Nat) (i : Nat) : Nat := l.getD i 0

/-! ### Arithmetic (06 R190 to R197) -/

/-- 06 R190. -/
def execFadd (ty : FltTy) (rm : RM) (d : Dst) (a : Src) (b : OpB) (s : State) : Out1 :=
  s.floatOp ty d [.src a false, opndB b false] (fun x => (fltFmt ty).add rm (argN x 0) (argN x 1))
/-- 06 R190. -/
def execFsub (ty : FltTy) (rm : RM) (d : Dst) (a : Src) (b : OpB) (s : State) : Out1 :=
  s.floatOp ty d [.src a false, opndB b false] (fun x => (fltFmt ty).sub rm (argN x 0) (argN x 1))
/-- 06 R190. -/
def execFmul (ty : FltTy) (rm : RM) (d : Dst) (a : Src) (b : OpB) (s : State) : Out1 :=
  s.floatOp ty d [.src a false, opndB b false] (fun x => (fltFmt ty).mul rm (argN x 0) (argN x 1))
/-- 06 R190. -/
def execFma (ty : FltTy) (rm : RM) (d : Dst) (a b c : Src) (s : State) : Out1 :=
  s.floatOp ty d [.src a false, .src b false, .src c false] (fun x =>
    (fltFmt ty).fma rm (argN x 0) (argN x 1) (argN x 2))
/-- 06 R191. -/
def execFmin (ty : FltTy) (d : Dst) (a b : Src) (s : State) : Out1 :=
  s.floatOp ty d [.src a false, .src b false] (fun x =>
    (if (fltFmt ty).totalLess (argN x 1) (argN x 0) then argN x 1 else argN x 0, 0))
/-- 06 R191. -/
def execFmax (ty : FltTy) (d : Dst) (a b : Src) (s : State) : Out1 :=
  s.floatOp ty d [.src a false, .src b false] (fun x =>
    (if (fltFmt ty).totalLess (argN x 0) (argN x 1) then argN x 1 else argN x 0, 0))
/-- 06 R192. -/
def execFabs (ty : FltTy) (d : Dst) (a : Src) (s : State) : Out1 :=
  s.floatOp ty d [.src a false] (fun x => ((fltFmt ty).low (argN x 0), 0))
/-- 06 R192. -/
def execFneg (ty : FltTy) (d : Dst) (a : Src) (s : State) : Out1 :=
  s.floatOp ty d [.src a false] (fun x =>
    ((fltFmt ty).withSign (!(fltFmt ty).neg (argN x 0)) ((fltFmt ty).low (argN x 0)), 0))
/-- 06 R192. -/
def execFcopysign (ty : FltTy) (d : Dst) (a b : Src) (s : State) : Out1 :=
  s.floatOp ty d [.src a false, .src b false] (fun x =>
    ((fltFmt ty).withSign ((fltFmt ty).neg (argN x 1)) ((fltFmt ty).low (argN x 0)), 0))

/-- Numeric order of values that are no NaN: -0 equals +0 (06 Table 6.9). -/
def lessVal : FVal → FVal → Bool
  | .inf a, .inf b => a && !b
  | .inf a, .fin _ _ _ => a
  | .fin _ _ _, .inf b => !b
  | .fin n m e, .fin p q f =>
    decide (sumTerms (if e ≤ f then e else f) [(n, m, e)] < sumTerms (if e ≤ f then e else f) [(p, q, f)])
  | _, _ => false

/-- The predicates of 06 Table 6.9. -/
def fcmpHolds (p : FcmpPred) (f : Ieee) (a b : Nat) : Bool :=
  let un := f.isNaN a || f.isNaN b
  let lt := !un && lessVal (f.val a) (f.val b)
  let gt := !un && lessVal (f.val b) (f.val a)
  match p with
  | .eq => !un && !lt && !gt
  | .ne => un || lt || gt
  | .lt => lt
  | .le => !un && !gt
  | .gt => gt
  | .ge => !un && !lt
  | .un => un
  | .ord => !un
  | .tlt => f.totalLess a b
  | .tle => f.totalLess a b || a == b
  | .teq => a == b

/-- Predicates that look at signalling NaNs (06 R193). -/
def fcmpQuiet : FcmpPred → Bool
  | .tlt => false
  | .tle => false
  | .teq => false
  | _ => true

/-- 06 R193. -/
def execFcmp (p : FcmpPred) (ty : FltTy) (d : BitVec 4) (a b : Src) (s : State) : Out1 :=
  s.computeMask [.src a false, .src b false] d (fun vs =>
    let f := fltFmt ty
    let prs := (eltsOf ty (arg vs 0)).zip (eltsOf ty (arg vs 1))
    (prs.all (fun e => fcmpHolds p f e.1 e.2),
      if fcmpQuiet p && prs.any (fun e => f.isSNaN e.1 || f.isSNaN e.2) then fINV else 0))

/-- 06 R194. -/
def execFrcp (rm : RM) (d : Dst) (a : Src) (s : State) : Out1 :=
  s.floatOp .f32 d [.src a false] (fun x => funOf .rcp rm (argN x 0))
/-- 06 R194. -/
def execFrsq (rm : RM) (d : Dst) (a : Src) (s : State) : Out1 :=
  s.floatOp .f32 d [.src a false] (fun x => funOf .rsq rm (argN x 0))
/-- 06 R194. -/
def execFsqrt (rm : RM) (d : Dst) (a : Src) (s : State) : Out1 :=
  s.floatOp .f32 d [.src a false] (fun x => funOf .sqrt rm (argN x 0))
/-- 06 R194. -/
def execFexp2 (rm : RM) (d : Dst) (a : Src) (s : State) : Out1 :=
  s.floatOp .f32 d [.src a false] (fun x => funOf .exp2 rm (argN x 0))
/-- 06 R194. -/
def execFlog2 (rm : RM) (d : Dst) (a : Src) (s : State) : Out1 :=
  s.floatOp .f32 d [.src a false] (fun x => funOf .log2 rm (argN x 0))

/-- The class of an element (06 R195). -/
def classOf (f : Ieee) (c : Nat) : Nat :=
  let n := f.neg c
  let l := f.low c
  if f.isSNaN c then 0
  else if f.isNaN c then 1
  else if l = f.infCode then (if n then 2 else 9)
  else if l = 0 then (if n then 5 else 6)
  else if l < 2 ^ f.g.t then (if n then 4 else 7)
  else if n then 3 else 8

/-- 06 R195. -/
def execFclass (ty : FltTy) (d : Dst) (a : Src) (s : State) : Out1 :=
  s.floatOp ty d [.src a false] (fun x => (2 ^ classOf (fltFmt ty) (argN x 0), 0))

/-- 06 R196: one element. -/
def scaleElt (f : Ieee) (rm : RM) (n : Int) (a : Nat) : Nat × Word :=
  match f.nanOut [a] with
  | some r => r
  | none =>
    match f.val a with
    | .fin ng m e => if m = 0 then (a, 0) else f.round rm ng m (e + n)
    | _ => (a, 0)

/-- 06 R196: one amount serves every element. -/
def execFscale (ty : FltTy) (rm : RM) (d : Dst) (a : Src) (b : OpB) (s : State) : Out1 :=
  s.lanewise [.src a false, opndB b false] d false (fun vs =>
    byElt ty (fun x => scaleElt (fltFmt ty) rm (lo32 (arg vs 1)).toInt (argN x 0)) [arg vs 0])

/-- 06 R197: one element. -/
def integralElt (f : Ieee) (rm : RM) (a : Nat) : Nat × Word :=
  match f.nanOut [a] with
  | some r => r
  | none =>
    match f.val a with
    | .fin ng m e =>
      if m = 0 then (a, 0)
      else ((f.round .rne ng (roundInt rm ng m e).1.natAbs 0).1, 0)
    | _ => (a, 0)

/-- 06 R197. -/
def execFrnd (ty : FltTy) (rm : RM) (d : Dst) (a : Src) (s : State) : Out1 :=
  s.floatOp ty d [.src a false] (fun x => integralElt (fltFmt ty) rm (argN x 0))

/-! ### Conversions (06 R198 to R202) -/

def cvtFmt : CvtFmt → Ieee
  | .f32 => fp32
  | .f16 => fp16
  | .bf16 => bf16

/-- A conversion between IEEE formats (06 R198). -/
def cvtElt (src dst : Ieee) (rm : RM) (c : Nat) : Nat × Word :=
  if src.isNaN c then nanConv src dst c
  else
    match src.val c with
    | .fin n m e => dst.round rm n m e
    | .inf n => (dst.withSign n dst.infCode, 0)
    | .nan => (dst.dNaN, 0)

/-- The pattern of a format in a lane value. -/
def patOf (f : Ieee) (v : DWord) : Nat := v.toNat % 2 ^ f.w

/-- A lane result from a pattern with flags. -/
def patOut (r : Nat × Word) : LaneOut := { val := BitVec.ofNat 64 r.1, flags := r.2 }

/-- 06 R198. -/
def execFcvt (dst src : CvtFmt) (rm : RM) (d : Dst) (a : Src) (s : State) : Out1 :=
  s.lanewise [.src a false] d false (fun vs =>
    patOut (cvtElt (cvtFmt src) (cvtFmt dst) rm (patOf (cvtFmt src) (arg vs 0))))

/-- Range of an integer type. -/
def itMin (ty : IntTy) : Int := if itSigned ty then -(2 ^ (itW ty - 1) : Nat) else 0
def itMax (ty : IntTy) : Int := if itSigned ty then (2 ^ (itW ty - 1) : Nat) - 1 else (2 ^ itW ty : Nat) - 1

/-- Float to integer (06 R199 direction 0). -/
def toIntElt (ty : IntTy) (f : Ieee) (rm : RM) (c : Nat) : LaneOut :=
  match f.val c with
  | .nan => { val := 0, flags := fINV }
  | .inf n => { val := wrapW (it64 ty) (if n then itMin ty else itMax ty), flags := fINV }
  | .fin n m e =>
    let (r, ix) := roundInt rm n m e
    if r < itMin ty then { val := wrapW (it64 ty) (itMin ty), flags := fINV }
    else if itMax ty < r then { val := wrapW (it64 ty) (itMax ty), flags := fINV }
    else { val := wrapW (it64 ty) r, flags := if ix then fINX else 0 }

/-- 06 R199. -/
def execIcvt (toFloat : Bool) (ity : IntTy) (fc : CvtFmt) (rm : RM) (d : Dst) (a : Src) (s : State) : Out1 :=
  if toFloat then
    s.lanewise [.src a (it64 ity)] d false (fun vs =>
      let x := typed ity (arg vs 0)
      patOut ((cvtFmt fc).round rm (decide (x < 0)) x.natAbs 0))
  else
    s.lanewise [.src a false] d (it64 ity) (fun vs => toIntElt ity (cvtFmt fc) rm (patOf (cvtFmt fc) (arg vs 0)))

/-- The descriptor of a format slot (03 R95). -/
def Here.fmt (h : Here) (n : BitVec 3) : DWord := h.launch.record.fmt.getD n.toNat 0

/-- The group-wide checks of a slot (06 R200, R202). -/
def slotCheck (bad : Bool) : Option (Nat × DWord) := if bad then some (cIllegalOperand, 0) else none

/-- Clamp or wrap an integer code (06 R200): out of range INV, and where the saturation option clamps it OVF and INX as well
(06 R179). -/
def intCode (s : Slot) (x : FVal) (rm : RM) : Int × Word :=
  let lo : Int := if s.kind = .int4 then -7 else if s.uns then 0 else -128
  let hi : Int := if s.kind = .int4 then 7 else if s.uns then 255 else 127
  match x with
  | .nan => (s.zp, fINV)
  | .inf n => (if n then lo else hi, fINV)
  | .fin n m e =>
    let (sm, se) := s.scaleVal
    let (r, ix) := roundRatio rm n (m <<< (e - se).toNat) (sm <<< (se - e).toNat)
    let y := r + s.zp
    if y < lo then (if s.sat then (lo, fINV ||| fOVF ||| fINX) else (y, fINV))
    else if hi < y then (if s.sat then (hi, fINV ||| fOVF ||| fINX) else (y, fINV))
    else (y, if ix then fINX else 0)

/-- x / s rounded to a slot's format (06 R200): a pattern and flags. -/
def qto (s : Slot) (rm : RM) (c : Nat) : Nat × Word :=
  let x := fp32.val c
  let sn : Word := if fp32.isSNaN c then fINV else 0
  let v : FVal := match x with
    | .fin n m e => let (q, qe) := quotient m e s.scaleVal.1 s.scaleVal.2; .fin n q qe
    | y => y
  match s.kind with
  | .int4 => let (y, f) := intCode s x rm; ((BitVec.ofInt 4 y).toNat, f)
  | .int8 => let (y, f) := intCode s x rm; ((BitVec.ofInt 8 y).toNat, f)
  | .b8 => let (y, f) := s.mini.round s.sat rm v; (y, f ||| sn)
  | .fp4 => let (y, f) := s.mini.round s.sat rm v; (y, f ||| sn)
  | _ =>
    match s.ieee with
    | none => (0, 0)
    | some f =>
      match v with
      | .nan => nanConv fp32 f c
      | .inf n => (f.withSign n f.infCode, 0)
      | .fin n m e =>
        let r := f.round rm n m e
        if s.sat ∧ r.2 &&& fOVF ≠ 0 then (f.withSign n (f.infCode - 1), r.2) else r

/-- 06 R200. -/
def execQcvtTo (slot : BitVec 3) (rm : RM) (d : Dst) (a : Src) (s : State) : Out1 :=
  s.withHere (fun h =>
    let sl := slotOf (h.fmt slot)
    s.vec h { ops := [.src a false], dst := some d
              lane := fun _ vs => patOut (qto sl rm (lo32 (arg vs 0)).toNat) }
      (slotCheck (h.fmt slot == 0 || sl.scale == 2)) justVals)

/-- v × s rounded to FP32 (06 R200); every NaN gives the pattern of 06 R178 rule 4. -/
def qfrom (s : Slot) (rm : RM) (c : Nat) : Nat × Word :=
  let (v, fl) := s.val c
  match v with
  | .nan => match s.ieee with
    | some f => (fp32.dNaN, (nanConv f fp32 c).2)
    | none => (fp32.dNaN, fl)
  | .inf n => (fp32.withSign n fp32.infCode, fl)
  | .fin n m e =>
    let r := fp32.round rm n (m * s.scaleVal.1) (e + s.scaleVal.2)
    (r.1, r.2 ||| fl)

/-- 06 R200. -/
def execQcvtFrom (slot : BitVec 3) (rm : RM) (d : Dst) (a : Src) (s : State) : Out1 :=
  s.withHere (fun h =>
    let sl := slotOf (h.fmt slot)
    s.vec h { ops := [.src a false], dst := some d
              lane := fun _ vs => patOut (qfrom sl rm ((arg vs 0).toNat % 2 ^ sl.width)) }
      (slotCheck (h.fmt slot == 0 || sl.scale == 2)) justVals)

/-- The 16-bit format of a packed pair. -/
def halfFmt (bf : Bool) : Ieee := if bf then bf16 else fp16

/-- 06 R201. -/
def execFpack (bf : Bool) (rm : RM) (d : Dst) (a b : Src) (s : State) : Out1 :=
  s.lanewise [.src a false, .src b false] d false (fun vs =>
    let x := cvtElt fp32 (halfFmt bf) rm (lo32 (arg vs 0)).toNat
    let y := cvtElt fp32 (halfFmt bf) rm (lo32 (arg vs 1)).toNat
    { val := BitVec.ofNat 64 (x.1 + 2 ^ 16 * y.1), flags := x.2 ||| y.2 })
/-- 06 R201. -/
def execFunpack (bf : Bool) (d : Dst) (a : Src) (s : State) : Out1 :=
  s.lanewise [.src a false] d true (fun vs =>
    let x := cvtElt (halfFmt bf) fp32 .rne ((arg vs 0).extractLsb' 0 16).toNat
    let y := cvtElt (halfFmt bf) fp32 .rne ((arg vs 0).extractLsb' 16 16).toNat
    { val := BitVec.ofNat 64 (x.1 + 2 ^ 32 * y.1), flags := x.2 ||| y.2 })

/-- A dot product with one rounding (06 R202), over element values paired with the NaN that each delivers: operands in
the order A, B, C. -/
def dotOf (rm : RM) (a b : List FVal) (c : FVal) (nans : List (Option Nat)) (sig : Bool) : Nat × Word :=
  let inv : Word := if sig then fINV else 0
  match nans.findSome? id with
  | some p => (p, inv)
  | none => fp32.sum rm ((a.zip b).map (fun e => mulVal e.1 e.2) ++ [some c])

/-- The NaN that an IEEE element delivers as FP32 (06 R178 rule 3). -/
def nanOf (f : Ieee) (c : Nat) : Option Nat := if f.isNaN c then some (nanConv f fp32 c).1 else none

/-- 06 R202. -/
def execFdot2 (bf : Bool) (rm : RM) (d : Dst) (a b c : Src) (s : State) : Out1 :=
  s.lanewise [.src a false, .src b false, .src c false] d false (fun vs =>
    let f := halfFmt bf
    let xs := eltsOf .f16x2 (arg vs 0)
    let ys := eltsOf .f16x2 (arg vs 1)
    let z := (lo32 (arg vs 2)).toNat
    patOut (dotOf rm (xs.map f.val) (ys.map f.val) (fp32.val z)
      ((xs ++ ys).map (nanOf f) ++ [nanOf fp32 z]) ((xs ++ ys).any f.isSNaN || fp32.isSNaN z)))

/-- The four bytes of a lane value. -/
def bytes4 (v : DWord) : List Nat := (List.range 4).map (fun i => (v.extractLsb' (8 * i) 8).toNat)

/-- 06 R202. -/
def execFdot4 (slot : BitVec 3) (rm : RM) (d : Dst) (a b c : Src) (s : State) : Out1 :=
  s.withHere (fun h =>
    let sl := slotOf (h.fmt slot)
    s.vec h
      { ops := [.src a false, .src b false, .src c false], dst := some d
        lane := fun _ vs =>
          let xs := (bytes4 (arg vs 0)).map sl.mini.val
          let ys := (bytes4 (arg vs 1)).map sl.mini.val
          let z := (lo32 (arg vs 2)).toNat
          patOut (dotOf rm xs ys (fp32.val z)
            ((xs ++ ys).map (fun v => if v = .nan then some fp32.dNaN else none) ++ [nanOf fp32 z])
            (fp32.isSNaN z)) }
      (slotCheck (h.fmt slot == 0 || sl.kind != .b8 || sl.scale != 0)) justVals)

/-! ### Group-wide operations (06 R203 to R206) -/

/-- LargestPow2Below (02 Table 2.24), for n ≥ 2. -/
def pow2Below (n : Nat) : Nat := 2 ^ Nat.log2 (n - 1)

/-- The canonical tree (02 R84) over a nonempty list; `fuel` bounds the depth. -/
def treeOf {α : Type} (f : α → α → α) : Nat → List α → Option α
  | 0, _ => none
  | _, [] => none
  | _, [x] => some x
  | fuel + 1, l =>
    let m := pow2Below l.length
    match treeOf f fuel (l.take m), treeOf f fuel (l.drop m) with
    | some a, some b => some (f a b)
    | some a, none => some a
    | none, some b => some b
    | none, none => none

/-- An element of a reduction: its value, the lane it came from, and the flags met below it. -/
structure RedElt where
  val   : Word
  lane  : Nat
  flags : Word
  deriving DecidableEq, Repr

/-- Strict order of a group type (06 R204). -/
def gLess (gt : GrpTy) (p q : Word) : Bool :=
  match gt with
  | .f32 => fp32.totalLess p.toNat q.toNat
  | .i32 => p.slt q
  | .n32 => p.ult q

/-- The sum of a group type, with flags (06 R204). -/
def gAdd (gt : GrpTy) (rm : RM) (p q : Word) : Word × Word :=
  match gt with
  | .f32 => let r := fp32.add rm p.toNat q.toNat; (BitVec.ofNat 32 r.1, r.2)
  | _ => (p + q, 0)

/-- f of 06 R204: adding, taking the lesser, or taking the greater. -/
def gCombine (op : GscanOp) (gt : GrpTy) (rm : RM) (p q : RedElt) : RedElt :=
  match op with
  | .min => { (if gLess gt q.val p.val then q else p) with flags := p.flags ||| q.flags }
  | .max => { (if gLess gt p.val q.val then q else p) with flags := p.flags ||| q.flags }
  | _ =>
    let r := gAdd gt rm p.val q.val
    { val := r.1, lane := p.lane, flags := p.flags ||| q.flags ||| r.2 }

/-- f with absent elements. -/
def optCombine (f : RedElt → RedElt → RedElt) : Option RedElt → Option RedElt → Option RedElt
  | some a, some b => some (f a b)
  | some a, none => some a
  | none, b => b

def redScan : GredOp → GscanOp
  | .add => .add
  | .min => .min
  | .argmin => .min
  | _ => .max

def redArg : GredOp → Bool
  | .argmin => true
  | .argmax => true
  | _ => false

/-- The lowest active lane at or below `k` whose latch operand is invalid (02 R65): the lanes before it are done. -/
def latchFault (h : Here) (o : Opnd) (j : Nat) : Option (Nat × DWord) :=
  match o.latchLost h j with
  | some n => some (cLatchLost, BitVec.ofNat 64 n)
  | none => none

/-- 06 R203, R204. Where the latch of an active lane is invalid, that lane faults; what its value counts as for the lanes before
it the rules do not say, and it is free (notes/assumptions/8). -/
def execGred (op : GredOp) (gt : GrpTy) (rm : RM) (d : Dst) (a : Src) (s : State) : Out1 :=
  s.withHere (fun h => s.vec h
    { ops := [.src a false], dst := some d, land := 2, steps := false
      wide := some (fun all =>
        let elts := (List.range 32).map (fun k =>
          if bit h.grp.active k then
            some ({ val := if (latchFault h (.src a false) k).isSome then Config.lostOperand k (lo32 (arg (all k) 0))
                           else lo32 (arg (all k) 0)
                    lane := k, flags := 0 } : RedElt)
          else none)
        let res : LaneOut := match treeOf (optCombine (gCombine (redScan op) gt rm)) 8 elts with
          | some (some r) =>
            { val := if redArg op then BitVec.ofNat 64 r.lane else r.val.setWidth 64, flags := r.flags }
          | _ => {}
        mkLanes (fun k => match latchFault h (.src a false) k with
          | some f => { fault := some f }
          | none => res)) } none justVals)

/-- Running values of a scan over the active lanes, in order (06 R205): each with its predecessor. -/
def scanFrom (f : RedElt → RedElt → RedElt) : Option RedElt → List RedElt → List (RedElt × Option RedElt)
  | _, [] => []
  | none, x :: l => (x, none) :: scanFrom f (some x) l
  | some p, x :: l => (f p x, some p) :: scanFrom f (some { f p x with flags := 0 }) l

/-- 06 R205. -/
def execGscan (op : GscanOp) (gt : GrpTy) (rm : RM) (d : Dst) (a : Src) (s : State) : Out1 :=
  s.withHere (fun h => s.vec h
    { ops := [.src a false], dst := some d, land := 2, steps := false
      wide := some (fun all =>
        let ks := (List.range 32).filter (fun k => bit h.grp.active k)
        let rs := ks.zip (scanFrom (gCombine op gt rm) none
          (ks.map (fun k => { val := lo32 (arg (all k) 0), lane := k, flags := 0 })))
        mkLanes (fun k => match latchFault h (.src a false) k with
          | some f => { fault := some f }
          | none =>
            match look rs k with
            | some (r, p) =>
              { val := (if op = .addx then (match p with
                  | some x => x.val
                  | none => 0) else r.val).setWidth 64, flags := r.flags }
            | none => {})) } none justVals)

/-- The source lane of a shuffle; `none` is the lane's own A (06 R206). -/
def shufLane (mode : GshufMode) (k m : Nat) : Option Nat :=
  match mode with
  | .idx => some (m % 32)
  | .up => if m ≤ k then some (k - m) else none
  | .down => if k + m < 32 then some (k + m) else none
  | .xor => some (k ^^^ (m % 32))

/-- 06 R206. -/
def execGshuf (mode : GshufMode) (d : Dst) (a : Src) (b : OpB) (s : State) : Out1 :=
  s.withHere (fun h => s.vec h
    { ops := [.src a false, opndB b false], dst := some d, land := 2, steps := false
      wide := some (fun all => mkLanes (fun k =>
        match latchFault h (opndB b false) k with
        | some f => { fault := some f }
        | none =>
          let j := match shufLane mode k (lo32 (arg (all k) 1)).toNat with
            | some j => if bit h.grp.present j then j else k
            | none => k
          match latchFault h (.src a false) j with
          | some f => { fault := some f }
          | none => { val := arg (all j) 0 })) } none justVals)

/-- 06 R206. -/
def execGbcast (wd : Wd) (d : Dst) (a : Src) (b : OpK) (s : State) : Out1 :=
  s.withHere (fun h =>
    let j := (lo32 (h.uniZ b)).toNat % 32
    s.vec h
    { ops := [.src a (wd64 wd)], dst := some d, w64 := wd64 wd, land := 2, steps := false
      wide := some (fun all => mkLanes (fun _ =>
        if bit h.grp.present j then
          match latchFault h (.src a (wd64 wd)) j with
          | some f => { fault := some f }
          | none => { val := arg (all j) 0 }
        else {})) } none justVals)

end Sys2Proof.Machine
end

