-- ==== Sys2Proof/Machine/Memory.lean ====
section
/-! DEFINITION. The memory access class (07 R207 to R210, R213 to R218, R222, R231 to R241). -/
namespace Sys2Proof.Machine

/-! ### Accesses (07 R208 to R210) -/

/-- Bytes and extension of a load type. -/
def ldSize : LdTy → Nat
  | .n8 => 1
  | .i8 => 1
  | .n16 => 2
  | .i16 => 2
  | .b32 => 4
  | .b64 => 8
def ldWide : LdTy → Bool
  | .b64 => true
  | _ => false
/-- 07 R210. -/
def ldExt (ty : LdTy) (v : Nat) : DWord :=
  match ty with
  | .i8 => ((BitVec.ofNat 8 v).signExtend 32).setWidth 64
  | .i16 => ((BitVec.ofNat 16 v).signExtend 32).setWidth 64
  | _ => BitVec.ofNat 64 v

def stSize : StTy → Nat
  | .b8 => 1
  | .b16 => 2
  | .b32 => 4
  | .b64 => 8
def stWide : StTy → Bool
  | .b64 => true
  | _ => false

/-- The sources of an address: base and offset. -/
def addrOps (base : Src) (off : Option Src) : List Opnd :=
  match off with
  | some o => [.src base true, .src o false]
  | none => [.src base true]

/-- The generic effective address from the values of those sources (07 R208). -/
def effAddr (off : Option Src) (disp : DWord) (vs : List DWord) : DWord :=
  match off with
  | some _ => arg vs 0 + (lo32 (arg vs 1)).setWidth 64 + disp
  | none => arg vs 0 + disp

/-- Check of 07 R209: the window offset, or the cause. -/
def Here.checkAccess (h : Here) (w : Window) (ea : DWord) (n : Nat) : Except Nat Nat :=
  let o := (ea - windowBase w).toNat
  if h.inWindow w ea = false then .error cAperture
  else if w = .lane ∧ h.launch.record.lsbytes ≤ o then .error cLaneStoreBound
  else if w = .cluster ∧ h.launch.record.scrbytes ≤ o % 2097152 then .error cAperture
  else if o % n ≠ 0 then .error cMisalign
  else .ok o

/-- The core and physical byte that offset `o` of SHARED or CLUSTER names (07 Table 7.1). -/
def Here.place (h : Here) (w : Window) (o : Nat) : Nat × Nat :=
  if w = .cluster then
    let col := h.cur.col - h.ctb.stage + o / 2097152
    match h.reach.ctb? col with
    | some c => (coreIx h.cur.row col, c.base + o % 2097152)
    | none => (h.q, h.phys (o % 2097152))
  else (h.q, h.phys o)

/-- The key of byte `o` of lane `k`'s slice in a group's lane store (07 R222). -/
def laneKey (k o : Nat) : Nat := 1024 * k + o

/-- A lost access is reported at a later position (07 R218). -/
def State.lostAt (s : State) (h : Here) (after : Nat) (addr : DWord) (lane : Nat) : State :=
  s.modG h (fun g => { g with lateErr := g.lateErr ++
    [{ due := h.rg.pos + after, planned := h.planned, pc := h.cur.pc, addr := addr, lane := lane, ilen := h.cur.ilen }] })

/-- Where a lane's access goes, when it is to scratch. -/
def Here.target (h : Here) (w : Window) (o : LaneOut) : Nat × Nat :=
  h.place w ((o.ea.getD 0) - windowBase w).toNat

/-! ### Loads (07 R236) -/

/-- A read whose bytes are withheld from the register still counts what it corrects and meets what it cannot (07 R217, R219). -/
def State.meet (s : State) (q a n : Nat) : State := (s.countCorr q ((s.core q).corrections a n)).bankLoss q a n

/-- The scratch part of a load: the lanes' bytes in lane order; a lost column withholds every lane (07 R218). -/
def loadEff (h : Here) (w : Window) (ty : LdTy) (land : Nat) (s : State) (_stop : Nat) (outs : List (Nat × LaneOut)) :
    State × List (Nat × DWord) :=
  match outs.find? (fun o => (s.core (h.target w o.2).1).lost (h.target w o.2).2 (ldSize ty)) with
  | some o => (outs.foldl (fun s e => s.meet (h.target w e.2).1 (h.target w e.2).2 (ldSize ty)) (s.lostAt h land (o.2.ea.getD 0) o.1), [])
  | none =>
    outs.foldl (fun a o =>
      let t := h.target w o.2
      let (bs, s1) := a.1.groupRead h t.1 t.2 (ldSize ty) a.1.wseq
      (s1, a.2 ++ [(o.1, ldExt ty (ofBytes bs))])) (s, [])

/-- A load through SHARED or CLUSTER. -/
def State.load (s : State) (w : Window) (ty : LdTy) (land : Nat) (d : Dst) (base : Src) (off : Option Src)
    (disp : Option Word) : Out1 :=
  s.withHere (fun h => s.vec h
    { ops := addrOps base off, dst := some d, w64 := ldWide ty, land := land
      lane := fun _ vs =>
        let ea := effAddr off ((disp.getD 0).signExtend 64) vs
        match h.checkAccess w ea (ldSize ty) with
        | .ok _ => { ea := some ea }
        | .error c => { fault := some (c, ea) } } none (loadEff h w ty land))

/-- 07 R236. -/
def execLd (ty : LdTy) (d : Dst) (base : Src) (off : Option Src) (disp : Option Word) (s : State) : Out1 :=
  s.load .shared ty 2 d base off disp
/-- 07 R236. -/
def execCld (ty : LdTy) (d : Dst) (base : Src) (off : Option Src) (disp : Option Word) (s : State) : Out1 :=
  s.load .cluster ty 6 d base off disp
/-- 07 R236, R222: the lane's own slice, landing at +1. -/
def execLld (ty : LdTy) (d : Dst) (base : Src) (off : Option Src) (disp : Option Word) (s : State) : Out1 :=
  s.withHere (fun h => s.vec h
    { ops := addrOps base off, dst := some d, w64 := ldWide ty
      lane := fun k vs =>
        let ea := effAddr off ((disp.getD 0).signExtend 64) vs
        match h.checkAccess .lane ea (ldSize ty) with
        | .ok o => { ea := some ea, val := ldExt ty (rdVal h.grp.lane (laneKey k o) (ldSize ty)) }
        | .error c => { fault := some (c, ea) } } none justVals)

/-! ### Stores (07 R237) -/

/-- The 64-byte rows of scratch, by core, in which some of several accesses meets an uncorrectable column (07 R218). -/
def State.lostRows (s : State) (as : List (Nat × Nat × Nat)) : List (Nat × Nat) :=
  (as.filter (fun a => (s.core a.1).lost a.2.1 a.2.2)).map (fun a => (a.1, a.2.1 / 64))

/-- One lane's store to scratch: an uncorrectable row `bad` takes none of its bytes, and the lowest lane that met the
error is reported (07 R218). -/
def State.storeLane (s : State) (h : Here) (bad : List (Nat × Nat)) (q a k : Nat) (bs : List Byte) (ea : DWord) (after : Nat)
    (vector : Bool) : State :=
  if bad.contains (q, a / 64) then
    let s1 := s.bankLoss q a bs.length
    if !(s.core q).lost a bs.length ||
      (s.here.map (fun x => x.grp.lateErr.any (fun e => e.due == h.rg.pos + after && e.pc == h.cur.pc))).getD false
    then s1 else s1.lostAt h after ea k
  else s.scrWrite q a bs { h.src k with vector := vector } h.writer 0

/-- The scratch part of a store: lane after lane (07 R237). -/
def storeEff (h : Here) (w : Window) (n after : Nat) (s : State) (_stop : Nat) (outs : List (Nat × LaneOut)) :
    State × List (Nat × DWord) :=
  let bad := s.lostRows (outs.map (fun o => ((h.target w o.2).1, (h.target w o.2).2, n)))
  (outs.foldl (fun s o =>
    let t := h.target w o.2
    s.storeLane h bad t.1 t.2 o.1 (toBytes n o.2.val.toNat) (o.2.ea.getD 0) after true) s, [])

/-- The lane part of a store. -/
def storeOut (h : Here) (w : Window) (ty : StTy) (off : Option Src) (disp : BitVec 18) (vs : List DWord) : LaneOut :=
  let ea := effAddr off (disp.signExtend 64) vs
  let v := vs.getLastD 0
  match h.checkAccess w ea (stSize ty) with
  | .ok _ => { ea := some ea, val := v, store := some (v, stWide ty) }
  | .error c => { fault := some (c, ea) }

/-- A store through a window. -/
def State.store (s : State) (h : Here) (w : Window) (ty : StTy) (base : Src) (off : Option Src) (disp : BitVec 18)
    (c : Src) (eff : State → Nat → List (Nat × LaneOut) → State × List (Nat × DWord)) : State :=
  s.vec h { ops := addrOps base off ++ [.src c (stWide ty)], lane := fun _ vs => storeOut h w ty off disp vs } none eff

/-- 07 R237. -/
def execSt (ty : StTy) (base : Src) (off : Option Src) (disp : BitVec 18) (c : Src) (s : State) : Out1 :=
  s.withHere (fun h => s.store h .shared ty base off disp c (storeEff h .shared (stSize ty) 2))
/-- 07 R237. -/
def execCst (ty : StTy) (base : Src) (off : Option Src) (disp : BitVec 18) (c : Src) (s : State) : Out1 :=
  s.withHere (fun h => s.store h .cluster ty base off disp c (storeEff h .cluster (stSize ty) 6))

/-- The lane-store part of a store (07 R222). -/
def laneStoreEff (h : Here) (n : Nat) (s : State) (_stop : Nat) (outs : List (Nat × LaneOut)) :
    State × List (Nat × DWord) :=
  (s.modG h (fun g => outs.foldl (fun g o =>
    { g with lane := wrN g.lane (laneKey o.1 ((o.2.ea.getD 0) - laneBase).toNat) (toBytes n o.2.val.toNat) }) g), [])

/-- 07 R237, R222. -/
def execLst (ty : StTy) (base : Src) (off : Option Src) (disp : BitVec 18) (c : Src) (s : State) : Out1 :=
  s.withHere (fun h => s.store h .lane ty base off disp c (laneStoreEff h (stSize ty)))

/-! ### Streams (07 R238 to R241) -/

/-- Change a stream shape register, at +1; `setAt` is the next position (07 R234 check 3). -/
def State.modStream (s : State) (h : Here) (n : BitVec 4) (f : Stream → Stream) : State :=
  s.modG h (fun g => { g with sd := g.sd.modify n.toNat (fun d => { f d with setAt := h.rg.pos + 1 }) })

/-- Element size of `sdset` (07 Table 7.10). -/
def word16 (x : DWord) (i : Nat) : Nat := (x.extractLsb' (16 * i) 16).toNat

/-- The shape that an `sdset` gives (07 Table 7.10). -/
def sdsetShape (h : Here) (esz : Esz) (a : BitVec 6) (base : Word) (ext0 : BitVec 6) : Stream where
  base := base
  esz := esz
  wrap := false
  ext0 := ext0.toNat
  ext := [word16 (h.k (a + 2)) 2, word16 (h.k (a + 2)) 3, word16 (h.k (a + 3)) 0, word16 (h.k (a + 3)) 1]
  stride := [lo32 (h.k a), hi32 (h.k a), lo32 (h.k (a + 1)), hi32 (h.k (a + 1)), lo32 (h.k (a + 2))]
  pos := [0, 0, 0, 0]
  setAt := 0

/-- The sum over the dimensions of the lesser (or greater) of 0 and the last offset (07 R238 check 3). -/
def Stream.reachOf (d : Stream) (least : Bool) : Int :=
  (d.base.toNat : Int) + ((d.stride.zip (d.ext0 :: d.ext)).map (fun (e : Word × Nat) =>
    let x : Int := e.1.toInt * ((e.2 : Int) - 1)
    if (decide (x < 0)) == least then x else 0)).sum

/-- The checks of 07 R238. -/
def sdsetOk (h : Here) (a : BitVec 6) (d : Stream) : Bool :=
  let z := eszSize d.esz
  hi32 (h.k (a + 3)) == 0 && d.ext.all (fun x => x != 0) &&
    d.base.toNat % z == 0 && d.stride.all (fun x => x.toInt % z == 0) &&
    decide (0 ≤ d.reachOf true) && decide (d.reachOf false + z ≤ h.launch.record.scrbytes)

/-- 07 R238, 08 R267. -/
def execSdset (esz : Esz) (sd : BitVec 4) (a : BitVec 6) (base : Word) (ext0 : BitVec 6) (s : State) : Out1 :=
  s.withHere (fun h =>
    let d := sdsetShape h esz a base ext0
    if !sdsetOk h a d then s.raiseWide h cStream (sd.setWidth 64)
    else if h.mtileHolds sd then s.raise h cStream (sd.setWidth 64)
    else (s.modStream h sd (fun _ => d)).complete h)

/-- The items of 07 R239. -/
def sdItem (d : Stream) : SdItem → DWord
  | .base => BitVec.ofNat 64 (d.base.toNat + 2 ^ 32 * (match d.esz with
      | .b32 => 0
      | .n16 => 1
      | .i16 => 2
      | .n8 => 3
      | .i8 => 4
      | .b64 => 5) + (if d.wrap then 2 ^ 35 else 0))
  | .stride n => (d.stride.getD n 0).signExtend 64
  | .extent n => BitVec.ofNat 64 ((d.ext0 :: d.ext).getD n 0)
  | .pos => BitVec.ofNat 64 (d.pos.getD 0 0 + 2 ^ 16 * d.pos.getD 1 0 + 2 ^ 32 * d.pos.getD 2 0 +
      2 ^ 48 * d.pos.getD 3 0)

/-- 07 R239. -/
def execSdget (item : SdItem) (d : Dst) (sd : BitVec 4) (s : State) : Out1 :=
  s.withHere (fun h => s.putAll h d true (sdItem (h.grp.stream sd) item))

/-- The group-wide checks of an explicit stream access (07 R240, 08 R267). -/
def Here.sdCheck (h : Here) (wd : Wd) (sd : BitVec 4) : Option (Nat × DWord) :=
  let d := h.grp.stream sd
  if d.ext0 = 0 ∨ (wd = .w64 ∧ d.esz ≠ .b64) ∨ (wd = .w32 ∧ d.esz = .b64) ∨ h.mtileHolds sd then
    some (cStream, sd.setWidth 64) else none

/-- The advance of an explicit access, when its position is complete (07 R240), unless its use as a source has advanced the
stream. -/
def State.sdDone (s : State) (h : Here) (sd : BitVec 4) (alone : Bool) (s1 : State) : State :=
  if s1.faults.length = s.faults.length ∧ h.cur.only = none then
    s1.modStream h sd (fun d => if alone then d.advance else d) else s1

/-- The generic address of lane `k`'s element. -/
def streamAddr (d : Stream) (k : Nat) : DWord := sharedBase + BitVec.ofInt 64 (d.off k)

/-- 07 R240. -/
def execSdrd (wd : Wd) (d : Dst) (sd : BitVec 4) (s : State) : Out1 :=
  s.withHere (fun h =>
    let t := h.grp.stream sd
    let z := eszSize t.esz
    s.sdDone h sd true (s.vec h { ops := [], dst := some d, w64 := wd64 wd, land := 2, steps := false
                                  lane := fun _ _ => {} }
      (h.sdCheck wd sd) (fun s _ outs =>
        let rd := outs.filter (fun o => decide (o.1 < t.ext0))
        match rd.find? (fun o => (s.core h.q).lost (h.phys (t.off o.1).toNat) z) with
        | some o => (rd.foldl (fun s e => s.meet h.q (h.phys (t.off e.1).toNat) z) (s.lostAt h 2 (streamAddr t o.1) o.1), [])
        | none =>
          outs.foldl (fun a o =>
            if o.1 < t.ext0 then
              let (bs, s1) := a.1.groupRead h h.q (h.phys (t.off o.1).toNat) z a.1.wseq
              (s1, a.2 ++ [(o.1, eszExt t.esz (ofBytes bs))])
            else (a.1, a.2 ++ [(o.1, (0 : DWord))])) (s, []))))

/-- 07 R240. A stream that is the data source too delivers one vector and advances once (02 R50). -/
def execSdwr (wd : Wd) (sd : BitVec 4) (b : Src) (s : State) : Out1 :=
  s.withHere (fun h =>
    let t := h.grp.stream sd
    s.sdDone h sd (!(streamsOf [.src b (wd64 wd)]).contains sd) (s.vec h { ops := [.src b (wd64 wd)], steps := false, lane := fun _ vs => { val := arg vs 0 } }
      (h.sdCheck wd sd) (fun s _ outs =>
        let ws := outs.filter (fun o => decide (o.1 < t.ext0))
        let bad := s.lostRows (ws.map (fun o => (h.q, h.phys (t.off o.1).toNat, eszSize t.esz)))
        (ws.foldl (fun s o =>
          s.storeLane h bad h.q (h.phys (t.off o.1).toNat) o.1 (toBytes (eszSize t.esz) o.2.val.toNat)
            (streamAddr t o.1) 2 true) s, []))))

/-- 07 R241, 08 R267. -/
def execSdrew (sd : BitVec 4) (s : State) : Out1 :=
  s.withHere (fun h =>
    if h.mtileHolds sd then s.raise h cStream (sd.setWidth 64)
    else (s.modStream h sd (fun d => { d with pos := [0, 0, 0, 0], wrap := false })).complete h)

end Sys2Proof.Machine
end

