-- ==== Sys2Proof/Machine/Matrix.lean ====
section
/-! DEFINITION. The matrix class (08): group-wide checks, items and their schedule, passes, fills, sums and drains. -/
namespace Sys2Proof.Machine

/-! ### Engine state -/

def State.modMx (s : State) (q : Nat) (f : Matrix → Matrix) : State := s.modCore q (fun c => { c with mx := f c.mx })

/-- A queue at the start of a reach. -/
def ItemQueue.start : ItemQueue where
  items := []
  t := 0
  fillEnd := 0
  held := none

def Matrix.queue (m : Matrix) (slot : Nat) : ItemQueue := (look m.queues slot).getD ItemQueue.start

def Matrix.setQueue (m : Matrix) (slot : Nat) (x : ItemQueue) : Matrix := { m with queues := bindAt m.queues slot x }

def Matrix.tile (m : Matrix) (n : Nat) : Tile := m.tiles.getD n Tile.zero

def Matrix.modTile (m : Matrix) (n : Nat) (f : Tile → Tile) : Matrix := { m with tiles := m.tiles.modify n f }

/-- Element (r, n) of a tile. -/
def Tile.elt (t : Tile) (r n : Nat) : Word := t.elts.getD (64 * r + n) 0

/-- A row of a tile. -/
def Tile.row (t : Tile) (r : Nat) : List Word :=
  if t.elts = [] then List.replicate 64 0 else (t.elts.drop (64 * r)).take 64

/-- A tile with one row replaced. -/
def Tile.setRow (t : Tile) (r : Nat) (l : List Word) : Tile :=
  { t with elts := (List.range 32).flatMap (fun i => if i = r then l else t.row i) }

/-- What a reach finds in its slot of a core when it starts (08 R243, R244): its tiles have tag ANY and TSAT 0, and the
planes of the plane slot are empty. -/
def Matrix.startSlot (m : Matrix) (slot : Nat) (acc : BitVec 16) (plane : Bool) : Matrix :=
  { m with
    active := if plane then Plane.empty else m.active
    shadow := if plane then Plane.empty else m.shadow
    tiles := (m.tiles.zip (List.range 16)).map (fun (e : Tile × Nat) =>
      if acc.getLsbD e.2 then { e.1 with tag := .any, tsat := false } else e.1)
    queues := dropAt m.queues slot }

/-! ### Mixtures (08 Table 8.2) -/

/-- Beats and 256-byte parts of a row slice, and the number of passes, of a legal mixture (08 Table 8.2). -/
structure Mix where
  m : Nat
  w : Nat
  deriving DecidableEq, Repr

/-- Whether the form, the A slot and the plane slot are a legal mixture. -/
def mixOf (form : MmForm) (aslot pslot : DWord) (sparse : Bool) : Option Mix :=
  let a := slotOf aslot
  let p := slotOf pslot
  match form with
  | .bf16 =>
    if a.kind = .bf16 ∧ a.scale = 0 then
      if p.kind = .bf16 ∧ p.scale = 0 then some (if sparse then { m := 1, w := 2 } else { m := 1, w := 1 })
      else if (p.kind = .int4 ∨ p.kind = .fp4) ∧ sparse = false then some { m := 4, w := 4 }
      else none
    else none
  | .b8 =>
    if a.kind = .b8 ∧ a.scale = 0 ∧ p.kind = .b8 ∧ p.scale = 0 ∧ sparse = false then some { m := 1, w := 1 } else none
  | .int sa sb =>
    if a.kind = .int8 ∧ a.scale = 0 ∧ a.uns = !sa ∧ p.kind = .int8 ∧ p.scale = 0 ∧ p.uns = !sb ∧ sparse = false then
      some { m := 1, w := 1 }
    else none

/-- The slots that `mls` accepts (08 R262). -/
def fillSlotOk (d : DWord) (sp : Bool) : Bool :=
  let s := slotOf d
  match s.kind with
  | .bf16 => s.scale == 0
  | .b8 => s.scale == 0 && !sp
  | .int8 => s.scale == 0 && !sp
  | .int4 => !sp
  | .fp4 => !sp
  | _ => false

/-- The slots that `mdrain` accepts (08 Table 8.9). -/
def drainSlotOk (out : DrainOut) (d : DWord) : Bool :=
  let s := slotOf d
  match out with
  | .f32 => s.kind == .f32
  | .bf16 => s.kind == .bf16
  | .i8 => s.kind == .int8 && !s.uns && s.scale == 2
  | .n8 => s.kind == .int8 && s.uns && s.scale == 2
  | .i32 => s.kind == .int8 && (s.scale == 0 || s.scale == 2)

/-! ### The logical state (08 R244) -/

/-- Planes by descriptor and sparse bit, and the tags of the tiles. -/
structure Logical where
  active : Option (DWord × Bool)
  shadow : Option (DWord × Bool)
  tags   : List Tag
  deriving DecidableEq, Repr

def Plane.shape (p : Plane) : Option (DWord × Bool) := p.desc.map (fun d => (d, p.sparse))

/-- The tag that a form's pass leaves (08 R243). -/
def formTag (f : MmForm) : Tag :=
  match f with
  | .int _ _ => .int
  | _ => .fp

/-- What a queued item does to the logical state. -/
def Logical.after (l : Logical) (op : ItemOp) : Logical :=
  match op with
  | .fill sp d _ _ _ => { l with shadow := some (d, sp) }
  | .swap => { l with active := l.shadow, shadow := l.active }
  | .pass ps => { l with tags := ps.foldl (fun t p => t.set p.tile (formTag p.form)) l.tags }
  | .sum ps => { l with tags := ps.foldl (fun t p => t.set p.tile .int) l.tags }
  | .clear ts _ => { l with tags := (List.range 16).map (fun i => if ts.getLsbD i then .any else l.tags.getD i .any) }
  | _ => l

/-- The logical state of a slot's queue: every item queued so far, applied in order. -/
def Matrix.logical (m : Matrix) (slot : Nat) : Logical :=
  (m.queue slot).items.foldl (fun l i => l.after i.op)
    { active := m.active.shape, shadow := m.shadow.shape, tags := m.tiles.map (·.tag) }

/-! ### Group-wide checks (08 R261) -/

/-- The share of a slot of the engine (03 Table 3.1). -/
def Record.share (r : Record) (slot : Nat) : Nat := (r.engshare.extractLsb' (4 * slot) 4).toNat

def Record.planeSlot (r : Record) (slot : Nat) : Bool := r.plane.getLsbD 4 && (r.plane.extractLsb' 0 4).toNat == slot

/-- The tiles that the executing slot may use. -/
def Here.accmask (h : Here) : BitVec 16 := h.launch.record.accmask.getD h.cur.slot 0

/-- Raise MATRIX with a detail (08 R261). -/
def State.matrixFault (s : State) (h : Here) (detail : Nat) : State := s.raise h cMatrix (BitVec.ofNat 64 detail)

/-- The first failing check of a list, as its detail. -/
def firstDetail : List (Nat × Bool) → Option Nat
  | [] => none
  | (d, bad) :: l => if bad then some d else firstDetail l

/-- The plane instructions (08 R242). -/
def planeInstr : Instr → Bool
  | .mls _ _ _ => true
  | .mlsSp _ _ _ _ => true
  | .mswap => true
  | .mmq _ _ _ _ _ => true
  | .mtile _ _ _ _ _ _ => true
  | _ => false

/-- An `mtile` of the CTB is in progress (08 R267); the executing group's own positions count, in a handler those of it. -/
def Here.mtileBusy (h : Here) : Bool :=
  match h.ctb.mtile with
  | some m => m.holds (if m.grp = h.cur.grp then h.rg.pos else (h.reach.rgs[m.grp]?.map (·.pos)).getD 0)
  | none => false

/-- Another group of the CTB issues a plane instruction at this run index (08 R267). -/
def State.otherPlane (s : State) (h : Here) : Bool :=
  !h.cur.handler && (List.range h.ctb.groups.length).any (fun g =>
    g != h.cur.grp && h.ctb.live g &&
      (match h.reach.rgs[g]? with
       | some rg => rg.idx == h.rg.idx && rg.wait.isNone &&
          (match s.fetch h.launch rg.pc with
           | .instr i _ _ => planeInstr i
           | .fault _ _ _ _ => false)
       | none => false))

/-- Details 0x01 to 0x03 of a plane instruction. -/
def State.planeChecks (_s : State) (h : Here) : List (Nat × Bool) :=
  [(1, h.launch.record.share h.cur.slot == 0), (2, !h.launch.record.planeSlot h.cur.slot), (3, h.mtileBusy)]

/-- The SHARED offset of an engine's address; an address outside the window lies outside every allocation. -/
def sharedOff (x : DWord) : Nat := (x - sharedBase).toNat

/-- A range of scratch that detail 0x0A refuses. -/
def Here.rangeBad (h : Here) (o n align : Nat) : Bool :=
  o % align != 0 || decide (h.launch.record.scrbytes < o + n)

/-- The lowest present lane below EXT0 whose row slice lies outside the allocation or is misaligned (08 R248). -/
def Here.sliceBad (h : Here) (d : Stream) (len : Nat) : Option Nat :=
  (List.range (min 32 d.ext0)).find? (fun k => bit h.grp.present k &&
    (d.off k % 256 != 0 || decide (d.off k < 0) || decide ((h.launch.record.scrbytes : Int) < d.off k + len)))

/-- The rows that a group updates (08 R252). -/
def Here.rowsOf (h : Here) (d : Stream) : Word := maskOf (fun k => bit h.grp.active k && decide (k < d.ext0))

/-- The physical starts of the row slices. -/
def Here.sliceOffs (h : Here) (d : Stream) : List Nat := mkLanes (fun k => h.phys (d.off k).toNat)

/-! ### Queueing (08 R253, R254) -/

/-- Rows of the present quarters of a group (08 R254). -/
def Here.quarterRows (h : Here) : Nat := 8 * ((h.launch.record.lanes + 7) / 8)

/-- The executing group's own stores at `u - 2` or earlier, which its items and transfers include (08 R258, 10 R297). -/
def State.storesBefore (s : State) (h : Here) : Seen where
  by_ := h.writer
  upto := some (h.grp.markAt (h.rg.pos - 1) s.wseq)
  within := []
  own := false

/-- The executing group's view of path 3 for what it issues. -/
def State.itemView (s : State) (h : Here) : List Seen := s.storesBefore h :: h.grp.pseen.getD 3 []

/-- A new item of the executing group. -/
def State.newItem (s : State) (h : Here) (op : ItemOp) (cost : Nat) : Item where
  id := s.nextId + 1
  op := op
  grp := h.cur.grp
  pos := h.rg.pos
  run := h.reach.run
  cost := cost
  pc := h.cur.pc
  ilen := h.cur.ilen
  planned := h.planned
  base := h.ctb.base
  launch := h.launch.id
  sched := false
  land := 0
  startAt := 0
  doneAt := 0
  step := none
  last := false
  view := s.itemView h

/-- Queue items in the executing slot. -/
def State.queueItems (s : State) (h : Here) (is : List Item) : State :=
  let s1 := s.modMx h.q (fun m =>
    let x := m.queue h.cur.slot
    m.setQueue h.cur.slot { x with items := x.items ++ is })
  { s1 with nextId := s1.nextId + 1 }

def State.queueItem (s : State) (h : Here) (op : ItemOp) (cost : Nat) : State :=
  s.queueItems h [s.newItem h op cost]

/-- Join the fused item of this position, or open it (08 R253). `f` joins a part to an item's operation. -/
def State.fuse (s : State) (h : Here) (join : ItemOp → Option ItemOp) (op : ItemOp) (w : Nat) : State :=
  let x := (s.core h.q).mx.queue h.cur.slot
  let open_ (i : Item) : Bool := !i.sched && i.step.isNone && (join i.op).isSome
  if x.items.any open_ then
    s.modMx h.q (fun m => m.setQueue h.cur.slot { x with items := x.items.map (fun i =>
      if open_ i then { i with op := (join i.op).getD i.op, cost := i.cost + w * h.quarterRows } else i) })
  else s.queueItem h op (2 + w * h.quarterRows)

/-! ### The schedule (08 R255, R256) -/

/-- `c` window beats from `t`: windows are the beats lo to lo + len - 1 of every frame of `fl` beats. -/
def consume (fl lo len t c : Nat) : Nat :=
  let f := t / fl
  let off := t % fl
  let (f1, o1) := if off < lo then (f, lo) else if lo + len ≤ off then (f + 1, lo) else (f, off)
  let avail := lo + len - o1
  if c ≤ avail then f1 * fl + o1 + c
  else
    let c1 := c - avail
    let full := (c1 - 1) / len
    (f1 + 1 + full) * fl + lo + (c1 - full * len)

/-- The fill time of an item (08 Table 8.3). -/
def fillTime : ItemOp → Option Nat
  | .fill sp _ _ _ scl => some (if sp || scl.isSome then 288 else 240)
  | _ => none

/-- The least d ≥ 1 such that position i + d, counted from visit `n`, index `j`, is at or after beat `done` (08 R256). -/
def landingOf (e slot n j done : Nat) : Nat :=
  let len := 2 ^ e
  let fl := frameBeats e
  let x :=
    if done ≤ 32 * len * slot then 0
    else
      let y := done - 32 * len * slot
      if y % fl ≤ 32 * (len - 1) then y / fl * len + (y % fl + 31) / 32 else (y / fl + 1) * len
  max 1 (x - (n * len + j))

/-- Schedule the items that this run index queued (08 R256): completion beats in queue order, then landings. -/
def scheduleItems (e slot n j lo len : Nat) (tide : Nat → Nat) : List Item → Nat → Nat → List Item × Nat × Nat
  | [], t, fe => ([], t, fe)
  | i :: is, t, fe =>
    if i.sched then
      let (r, t1, fe1) := scheduleItems e slot n j lo len tide is t fe
      (i :: r, t1, fe1)
    else
      let t0 := max t (frameBeats e * n + 32 * 2 ^ e * (slot + 1))
      let (from_, done, t1, fe1) := match fillTime i.op with
        | some ft => (max t0 fe, max t0 fe + ft, t0, max t0 fe + ft)
        | none =>
          let b := if i.op = .swap then max t0 fe else t0
          let x := consume (frameBeats e) lo len b i.cost
          (consume (frameBeats e) lo len b 1, x, x, fe)
      let (r, t2, fe2) := scheduleItems e slot n j lo len tide is t1 fe1
      ({ i with sched := true, land := i.pos + landingOf e slot n j done, startAt := tide from_, doneAt := tide done } :: r, t2, fe2)

/-- Part landings follow the landing `l` of their item: the item's own distance from its position. -/
def Item.partLand (i : Item) (l : Nat) (p : Part) : Nat := p.pos + (l - i.pos)

/-- Give the pending result of an `mstat` its landing. -/
def Group.setDue (g : Group) (id due : Nat) : Group :=
  { g with pend := g.pend.map (fun p => if p.item == id then { p with due := due } else p) }

/-- The frame of a reach on the rotation timeline of 08 R255, which counts the frames in which the planned position advances;
the handler of a hold counts on from there. -/
def Reach.beatFrame (r : Reach) : Nat :=
  match r.hold with
  | none => r.frames
  | some h => r.frames + (r.visits - h.visit)

/-- The schedule tide by which beat `b` of a reach's timeline has passed: a time-sliced row counts its own frames (08 R255). -/
def State.beatTide (s : State) (r : Reach) (l : Launch) (b : Nat) : Nat :=
  let t0 := (s.rowOf r.row).t0
  let fl := frameBeats l.record.runExp
  planTide t0 (fl * s.rowFrame r.row (r.visits + ((b - 1) / fl - r.beatFrame)) + (b - 1) % fl + 16 * l.record.rowoff * r.row) + 1

/-- Schedule what a core queued at this run index. -/
def State.scheduleCore (s : State) (r : Reach) (l : Launch) (j col : Nat) : State :=
  let q := coreIx r.row col
  let m := (s.core q).mx
  let x := m.queue r.slot
  let news := x.items.filter (fun i => !i.sched)
  if news = [] then s
  else
    let e := l.record.runExp
    let sh (n : Nat) : Nat := l.record.share n
    let lo := 32 * 2 ^ e * ((List.range r.slot).map sh).sum
    let len := 32 * 2 ^ e * sh r.slot
    let (items, t, fe) := scheduleItems e r.slot r.beatFrame j lo (max len 1) (s.beatTide r l) x.items x.t x.fillEnd
    let s1 := s.setCore q { s.core q with mx := m.setQueue r.slot { x with items := items, t := t, fillEnd := fe } }
    let fresh := items.filter (fun i => news.any (fun k => k.id == i.id && k.step == i.step))
    fresh.foldl (fun s i =>
      let s2 := s.later i.doneAt 0 (.engineItemDone q r.slot)
      let s3 := match i.op with
        | .stat _ _ => s2.modGroup r.row r.slot col i.grp (fun g => g.setDue i.id i.land)
        | _ => s2
      if i.last then
        s3.modCtb r.row r.slot col (fun c => { c with mtile := c.mtile.map (fun m =>
          if m.pos = i.pos ∧ m.grp = i.grp then { m with land := some i.land } else m) })
      else s3) s1

/-- Schedule what a reach queued at run index `j`. -/
def State.scheduleMatrix (s : State) (row slot j : Nat) : State :=
  match s.reach? row slot with
  | none => s
  | some r =>
    match s.launch? r.launch with
    | none => s
    | some l => r.ctbs.foldl (fun s c => s.scheduleCore r l j c.1) s

/-! ### What an item reads (08 R258, R458) -/

/-- Replace the bytes of the word at `w` that lie in the range of `n` bytes at `a`, which stands by offset. -/
def putWord (m : Memory) (a n w : Nat) (v : DWord) : Memory :=
  ((toBytes 8 v.toNat).zip (List.range 8)).foldl (fun m (e : Byte × Nat) =>
    if a ≤ w + e.2 ∧ w + e.2 < a + n then wr m (w + e.2 - a) e.1 else m) m

/-- A write is known to an item of a slot: its view holds it, or it is the slot's own (08 R258). -/
def Fresh.known (f : Fresh) (view : List Seen) (q slot b : Nat) : Bool := f.seenBy view (some q) b || f.path == 3 + 8 * slot

/-- A write of which an item of a slot does not know some byte. -/
def Fresh.racing (f : Fresh) (view : List Seen) (q slot : Nat) : Bool :=
  (List.range 8).any (fun i => f.mask.getLsbD i && !f.known view q slot (f.addr + i))

/-- The words of a range for which an item may find old or new contents: each is decided by a free Boolean. -/
def raceWords (view : List Seen) (q slot a n : Nat) (c : Core) (m : Memory) (free : Nat) : Memory × Nat :=
  let near := c.fresh.filter (fun f => decide (a < f.addr + 8) && decide (f.addr < a + n))
  let ws := ((near.filter (fun f => f.racing view q slot)).map (·.addr)).foldl (fun l w => if l.contains w then l else l ++ [w]) []
  ws.foldl (fun (x : Memory × Nat) w =>
    let p := pickWord (fun f b => f.known view q slot b) w near.reverse
      { word := BitVec.ofNat 64 (rdVal c.scratch w 8), left := 0xFF, free := x.2, got := [] }
    (putWord x.1 a n w p.word, p.free)) (m, free)

/-- The bytes of a range whose column is lost or that decoding changes. -/
def Core.errBytes (c : Core) (a n : Nat) : List Nat :=
  (c.errs.flatMap (fun e => (List.range 8).map (fun b => 2048 * e.row + 64 * e.group + 8 * b + e.col))).filter
    (fun x => decide (a ≤ x) && decide (x < a + n))

/-- What an item reads of `n` bytes at `a`, by offset; the lowest byte lost, which reads 0; the state with the
corrections and free values counted. -/
def State.itemRead (s : State) (q slot : Nat) (view : List Seen) (a n : Nat) : Memory × Option Nat × State :=
  let c := s.core q
  let m0 := (c.scratch.filter (fun x => decide (a ≤ x.1) && decide (x.1 < a + n))).map (fun x => (x.1 - a, x.2))
  let (m1, free) := raceWords view q slot a n c m0 s.free
  let bad := c.errBytes a n
  let m2 := bad.foldl (fun m x => wr m (x - a) (if c.lostByte x then 0 else c.byte x)) m1
  let lost := (bad.filter c.lostByte).foldl (fun o x => match o with
    | some y => some (min x y)
    | none => some x) none
  let s1 := (List.range (n / 64)).foldl (fun s r => s.countCorr q (c.corrections (a + 64 * r) 8))
    { s with free := free }
  (m2, lost, if c.errs == [] then { s with free := free } else s1.bankLoss q a n)

/-! ### Operands of a pass (08 R246, R250) -/

/-- An operand: its value, and for a NaN the FP32 pattern it delivers with whether it signals. -/
structure MElt where
  v   : FVal
  nan : Option (Nat × Bool)
  deriving DecidableEq, Repr

def bfElt (c : Nat) : MElt where
  v := bf16.val c
  nan := if bf16.isNaN c then some ((nanConv bf16 fp32 c).1, bf16.isSNaN c) else none

def b8Elt (s : Slot) (c : Nat) : MElt where
  v := s.mini.val c
  nan := if s.mini.val c = .nan then some (fp32.dNaN, false) else none

/-- The scale of column `n` of a plane (08 R250). -/
def Plane.scaleOf (p : Plane) (s : Slot) (n : Nat) : Nat :=
  if s.scale = 1 then s.scl else if s.scale = 2 then rdVal p.scale (4 * n) 4 else 0x3F800000

/-- A 4-bit code dequantised to BF16, with the flags of its fill (08 R250). A NaN scale gives the NaN 0x7FC0 without a payload
(notes/assumptions/22: DESIGN CHOICE). -/
def dequant (s : Slot) (scale c : Nat) : Nat × Word :=
  let (v, f) := s.val c
  match mulVal v (fp32.val scale) with
  | some (.fin n m e) => let r := bf16.round .rne n m e; (r.1, r.2 ||| f)
  | some (.inf n) => (bf16.withSign n bf16.infCode, f)
  | _ => (bf16.dNaN, f)

/-- Bytes of the 4-bit codes: element (kk, n) (08 Table 8.1). -/
def nibble (m : Memory) (kk n : Nat) : Nat :=
  let b := (rd m (32 * kk + n / 2)).toNat
  if n % 2 = 0 then b % 16 else b / 16

/-- Dense column `n` of a plane as the operands of pass `p`, ascending K. -/
def Plane.column (p : Plane) (d : DWord) (pass n : Nat) : List MElt :=
  let s := slotOf d
  match s.kind with
  | .bf16 => (List.range 128).map (fun kk => bfElt (rdVal p.data (128 * kk + 2 * n) 2))
  | .b8 => (List.range 256).map (fun kk => b8Elt s (rd p.data (64 * kk + n)).toNat)
  | _ => (List.range 128).map (fun kk => bfElt (dequant s (p.scaleOf s n) (nibble p.data (128 * pass + kk) n)).1)

/-- An operand of +0. -/
def zeroElt : MElt where
  v := .fin false 0 0
  nan := none

/-- The stored elements of a sparse column with the logical rows that they select, ascending K; those of a void group select
none, and each counts as a product of +0 (08 R246, R249). -/
def Plane.sparseColumn (p : Plane) (n : Nat) : List (Option (Nat × MElt)) :=
  (List.range 64).flatMap (fun g =>
    let b := (rd p.md (32 * g + n / 2)).toNat
    let nb := if n % 2 = 0 then b % 16 else b / 16
    let i0 := nb % 4
    let i1 := nb / 4
    if i0 < i1 then
      [some (4 * g + i0, bfElt (rdVal p.data (128 * (2 * g) + 2 * n) 2)),
       some (4 * g + i1, bfElt (rdVal p.data (128 * (2 * g + 1) + 2 * n) 2))]
    else [none, none])

/-- FpPass (08 R249): A operands and plane operands in ascending K, and the accumulator. -/
def fpPass (acc : Nat) (ab : List (MElt × MElt)) : Nat × Word :=
  match (ab.findSome? (fun e => e.1.nan)).orElse (fun _ => ab.findSome? (fun e => e.2.nan)) with
  | some (c, sn) => (c, if sn then fINV else 0)
  | none =>
    if fp32.isNaN acc then (fp32.quiet acc, if fp32.isSNaN acc then fINV else 0)
    else fp32.sum .rne (ab.map (fun e => mulVal e.1.v e.2.v) ++ [some (fp32.val acc)])

/-- Integer pass (08 R251): the new value and whether it was clamped. -/
def clampAcc (sat : Bool) (x : Int) : Word × Bool :=
  if sat ∧ x < -(2 ^ 31 : Nat) then (0x80000000, true)
  else if sat ∧ ((2 ^ 31 : Nat) : Int) - 1 < x then (0x7FFFFFFF, true)
  else (BitVec.ofInt 32 x, false)

/-- A byte as an operand of an integer pass. -/
def intByte (signed : Bool) (b : Byte) : Int := if signed then b.toInt else b.toNat

/-- The A operands of pass `p` from a row slice. -/
def sliceElts (form : MmForm) (aslot : DWord) (sl : Memory) (p : Nat) (k : Nat) : MElt :=
  match form with
  | .b8 => b8Elt (slotOf aslot) (rd sl k).toNat
  | _ => bfElt (rdVal sl (2 * (128 * p + k)) 2)

/-- One row of a tile after all passes of one group's part (08 R249, R264): its elements, flags and clamping. -/
def passRow (pl : Plane) (d : DWord) (pt : Part) (sl : Memory) (row : List Word) : List Word × Word × Bool :=
  let outs := (row.zip (List.range 64)).map (fun (e : Word × Nat) =>
    match pt.form with
    | .int sa sb =>
      let x := ((List.range 256).map (fun kk => intByte sa (rd sl kk) * intByte sb (rd pl.data (64 * kk + e.2)))).sum
      let r := clampAcc pt.sat (e.1.toInt + x)
      (r.1, (0 : Word), r.2)
    | form =>
      if pl.sparse then
        let ab := (pl.sparseColumn e.2).map (fun (x : Option (Nat × MElt)) => match x with
          | some y => (sliceElts form pt.aslot sl 0 y.1, y.2)
          | none => (zeroElt, zeroElt))
        let r := fpPass e.1.toNat ab
        (BitVec.ofNat 32 r.1, r.2, false)
      else
        let m := match mixOf form pt.aslot d pl.sparse with
          | some x => x.m
          | none => 1
        (List.range m).foldl (fun (a : Word × Word × Bool) p =>
          let col := pl.column d p e.2
          let ab := (col.zip (List.range col.length)).map (fun (x : MElt × Nat) => (sliceElts form pt.aslot sl p x.2, x.1))
          let r := fpPass a.1.toNat ab
          (BitVec.ofNat 32 r.1, a.2.1 ||| r.2, false)) (e.1, 0, false))
  (outs.map (·.1), outs.foldl (fun f o => f ||| o.2.1) 0, outs.any (·.2.2))

/-! ### What an item does -/

/-- The run and the position that a group of a reach stands at. -/
def State.standing (s : State) (row slot grp : Nat) : Nat × Nat :=
  match s.reach? row slot with
  | some r => (r.run, ((r.rgs[grp]?).map (fun rg => rg.pos)).getD 0)
  | none => (0, 0)

/-- The word of a finished `mstat`. -/
def Pending.supply (p : Pending) (id : Nat) (w : Word) : Pending :=
  if p.item = id then { p with vals := mkLanes (fun _ => w.setWidth 64), item := 0 } else p

/-- The landing of an item: that of a step is its `mtile`'s (08 R266). -/
def State.itemLand (s : State) (row slot col : Nat) (i : Item) : Nat :=
  if i.step.isSome then
    ((s.ctb? row slot col).bind (fun c => c.mtile.bind (fun m => m.land))).getD i.land
  else i.land

/-- The flags of an item go to its group at the landing (08 R259). -/
def State.flagsAt (s : State) (row slot col grp due run : Nat) (f : Word) (see : Option Nat) : State :=
  if f = 0 ∧ see = none then s
  else
    let st := s.standing row slot grp
    s.modGroup row slot col grp (fun g => if g.ended then g else
    ({ g with pend := g.pend ++ [{ due := due, run := run, reg := none, w64 := false, latch := none, lanes := 0, vals := []
                                   dead := [], rows := 0, flags := f, see := see, item := 0 }] } : Group).land st.1 st.2)

/-- A loss of a step joins what its `mtile` has lost so far: the lowest byte and the lowest row (08 R458). -/
def joinLoss (e : LateErr) : List LateErr → List LateErr
  | [] => [e]
  | x :: l =>
    if x.due = e.due ∧ x.pc = e.pc then
      { x with addr := if e.addr.toNat < x.addr.toNat then e.addr else x.addr, lane := min e.lane x.lane } :: l
    else x :: joinLoss e l

/-- An uncorrectable column of an item is reported at its landing, once for an `mtile` (08 R458). -/
def State.lostItem (s : State) (row slot col grp due : Nat) (i : Item) (pc : DWord) (ilen : Nat) (lost : Option Nat)
    (lane : Nat) : State :=
  match lost with
  | none => s
  | some a => s.modGroup row slot col grp (fun g =>
      let e : LateErr := { due := due, planned := i.planned, pc := pc, addr := sharedBase + BitVec.ofNat 64 (a - i.base)
                           lane := lane, ilen := ilen }
      { g with lateErr := if i.step.isSome then joinLoss e g.lateErr else g.lateErr ++ [e] })

/-- The lower of two lost bytes, with the row that met it first. -/
def minLost (a : Option (Nat × Nat × Nat)) (b : Option (Nat × Nat × Nat)) : Option (Nat × Nat × Nat) :=
  match a, b with
  | some x, some y => if y.2.1 < x.2.1 then some (min x.1 y.1, y.2) else some (min x.1 y.1, x.2)
  | some x, none => some x
  | none, y => y

/-- What a row-wise item has met so far: state, and the lowest byte lost with its row and its part. -/
abbrev RowAcc := State × Option (Nat × Nat × Nat)

/-- The rows of one part, in ascending order. -/
def State.partRows (s : State) (row slot col : Nat) (i : Item) (np : Nat) (pt : Part) (len : Nat)
    (f : Matrix → Memory → List Word → List Word × Word × Bool) (tag : Tag) (lost : Option (Nat × Nat × Nat)) : RowAcc :=
  let q := coreIx row col
  let s0 := s.modMx q (fun m => m.modTile pt.tile (fun t => { t with tag := tag }))
  ((List.range 32).filter (fun k => bit pt.rows k)).foldl (fun (a : RowAcc) k =>
    let (sl, lo, s1) := a.1.itemRead q slot pt.view (pt.offs.getD k 0) len
    let m := (s1.core q).mx
    let (r, fl, sat) := f m sl ((m.tile pt.tile).row k)
    let s2 := s1.modMx q (fun m => m.modTile pt.tile (fun t => { t.setRow k r with tsat := t.tsat || sat }))
    (s2.flagsAt row slot col pt.grp (i.partLand (s.itemLand row slot col i) pt) i.run fl none, minLost a.2 (lo.map (fun x => (x, k, np)))))
    (s0, lost)

/-- All parts of a fused item, in ascending group order (08 R252, R253). -/
def State.fusedParts (s : State) (row slot col : Nat) (i : Item) (ps : List Part) (len : Part → Nat)
    (f : Part → Matrix → Memory → List Word → List Word × Word × Bool) (tag : Part → Tag) : State :=
  let r := (ps.zip (List.range ps.length)).foldl (fun (a : RowAcc) e =>
    a.1.partRows row slot col i e.2 e.1 (len e.1) (f e.1) (tag e.1) a.2) (s, none)
  match r.2 with
  | none => r.1
  | some (x, k, np) =>
    match ps[np]? with
    | some p => r.1.lostItem row slot col p.grp (i.partLand (s.itemLand row slot col i) p) i p.pc p.ilen (some x) k
    | none => r.1

/-- A row of `msum` (08 R269). -/
def sumRow (pt : Part) (sl : Memory) (row : List Word) : List Word × Word × Bool :=
  let sg := ((List.range 256).map (fun i => intByte pt.signed (rd sl i))).sum
  let outs := row.map (fun w => clampAcc pt.sat (w.toInt + pt.mult.toInt * sg))
  (outs.map (·.1), 0, outs.any (·.2))

/-- The flags of a fill: those of every dequantised value (08 R250). -/
def Plane.fillFlags (p : Plane) (d : DWord) : Word :=
  let s := slotOf d
  if s.kind = .int4 ∨ s.kind = .fp4 then
    (List.range 512).foldl (fun f kk => (List.range 64).foldl (fun f n =>
      f ||| (dequant s (p.scaleOf s n) (nibble p.data kk n)).2) f) 0
  else 0

/-- A fill (08 R262). -/
def State.fillItem (s : State) (row slot col : Nat) (i : Item) (sp : Bool) (d : DWord) (a md : Nat) (scl : Option Nat) :
    State :=
  let q := coreIx row col
  let (data, l1, s1) := s.itemRead q slot i.view a 16384
  let (meta_, l2, s2) := if sp then s1.itemRead q slot i.view md 2048 else (([] : Memory), none, s1)
  let (sc, l3, s3) := match scl with
    | some x => s2.itemRead q slot i.view x 256
    | none => (([] : Memory), none, s2)
  let p : Plane := { desc := some d, sparse := sp, data := data, md := meta_, scale := sc }
  let s4 := s3.modMx q (fun m => { m with shadow := p })
  let land := s.itemLand row slot col i
  let s5 := s4.flagsAt row slot col i.grp land i.run (p.fillFlags d) none
  let low := [l1, l2, l3].filterMap id
  s5.lostItem row slot col i.grp land i i.pc i.ilen (low.foldl (fun o x => match o with
    | some y => some (min x y)
    | none => some x) none) 0

/-- One element of a drain (08 R272): its code and flags. An integer that leaves its range raises INV, clamped by SAT or not,
and INX only when rounded: R272 is not read as a conversion of 06 R179 (notes/assumptions/20: DEDUCED). -/
def drainElt (out : DrainOut) (s : Slot) (tag : Tag) (rm : RM) (vec : Memory) (n : Nat) (w : Word) : Nat × Word :=
  match out with
  | .f32 | .bf16 =>
    let f := if out = .f32 then fp32 else Machine.bf16
    let sc := if s.scale = 1 then s.scl else if s.scale = 2 then rdVal vec (4 * n) 4 else 0x3F800000
    let a := if tag = .int then intVal w.toInt else fp32.val w.toNat
    if tag ≠ .int ∧ fp32.isNaN w.toNat then
      let r := nanConv fp32 f w.toNat
      (r.1, if fp32.isSNaN sc then r.2 ||| fINV else r.2)
    else if fp32.isNaN sc then nanConv fp32 f sc
    else f.sum rm [mulVal a (fp32.val sc)]
  | .i32 =>
    let t := w.toInt + (if s.scale = 2 then (BitVec.ofNat 32 (rdVal vec (16 * n) 4)).toInt else 0)
    let r := clampAcc s.sat t
    (r.1.toNat, if t < -(2 ^ 31 : Nat) ∨ ((2 ^ 31 : Nat) : Int) - 1 < t then fINV else 0)
  | .i8 | .n8 =>
    let t := w.toInt + (BitVec.ofNat 32 (rdVal vec (16 * n) 4)).toInt
    let mul := (BitVec.ofNat 32 (rdVal vec (16 * n + 4) 4)).toInt
    let sh := Nat.min 63 (rd vec (16 * n + 8)).toNat
    let x := t * mul
    let (r, ix) := roundInt rm (decide (x < 0)) x.natAbs (-(31 + sh : Nat))
    let y := r + s.zp
    let lo : Int := if out = .i8 then -128 else 0
    let hi : Int := if out = .i8 then 127 else 255
    let z := if s.sat then (if y < lo then lo else if hi < y then hi else y) else y
    ((BitVec.ofInt 8 z).toNat, (if ix then fINX else 0) ||| (if y < lo ∨ hi < y then fINV else 0))

/-- Element bytes of a drain's form. -/
def drainSize : DrainOut → Nat
  | .f32 => 4
  | .i32 => 4
  | .bf16 => 2
  | _ => 1

/-- Write the 64 bytes of one scratch row of a drain: a row with an uncorrectable column is not written (08 R458), and a
word with a write that the item does not know holds either contents (R258). Answers the byte lost. -/
def State.drainRow (s : State) (q slot : Nat) (i : Item) (t : TraceSrc) (a : Nat) (bs : List Byte) : Option Nat × State :=
  let c := s.core q
  let race (w : Nat) : Bool := c.fresh.any (fun f => f.addr == w && f.racing i.view q slot)
  if c.lostRow a then (((List.range 64).find? (fun k => c.lostByte (a + k))).map (· + a), s.bankLoss q a 64)
  else if (wordsOf a bs.length).any race then
    (none, (wordsOf a bs.length).foldl (fun s w =>
      let part := (bs.drop (w - a)).take 8
      if race w then
        let (b, s1) := s.freeBool
        if b then s1.engineWrite q w part t i.id (3 + 8 * slot) else s1
      else s.engineWrite q w part t i.id (3 + 8 * slot)) s)
  else (none, s.engineWrite q a bs t i.id (3 + 8 * slot))

/-- The trace source of an engine item (15 Table 15.10). -/
def itemSrc (i : Item) (c : Option Ctb) : TraceSrc where
  planned := i.planned
  pc := i.pc
  x := (c.map (·.x)).getD 0
  y := (c.map (·.y)).getD 0
  z := (c.map (·.z)).getD 0
  stage := (c.map (·.stage)).getD 0
  grp := 255
  lane := 255
  phase := (c.map (·.bar.phase)).getD 0
  vector := false

/-- A drain (08 R270 to R272). -/
def State.drainItem (s : State) (row slot col : Nat) (i : Item) (out : DrainOut) (d : DWord)
    (a pitch tile vec : Nat) (rm : RM) : State :=
  let q := coreIx row col
  let sl := slotOf d
  let e := drainSize out
  let vlen := if sl.scale = 2 then (match out with
    | .f32 => 256
    | .bf16 => 256
    | _ => 1024) else 0
  let (v, l0, s1) := if vlen = 0 then (([] : Memory), none, s) else s.itemRead q slot i.view vec vlen
  let t := (s1.core q).mx.tile tile
  let src := itemSrc i (s1.ctb? row slot col)
  let r := (List.range 32).foldl (fun (x : Option Nat × Word × State) k =>
    let outs := ((t.row k).zip (List.range 64)).map (fun (p : Word × Nat) => drainElt out sl t.tag rm v p.2 p.1)
    let bs := outs.flatMap (fun o => toBytes e o.1)
    let fl := outs.foldl (fun f o => f ||| o.2) x.2.1
    (List.range e).foldl (fun (y : Option Nat × Word × State) c =>
      let (lost, s2) := y.2.2.drainRow q slot i src (a + k * pitch + 64 * c) ((bs.drop (64 * c)).take 64)
      ((match y.1, lost with
        | some p, some z => some (min p z)
        | some p, none => some p
        | none, z => z), fl, s2)) (x.1, fl, x.2.2)) (l0, 0, s1)
  let s3 := r.2.2.flagsAt row slot col i.grp i.land i.run r.2.1 (some i.id)
  s3.lostItem row slot col i.grp i.land i i.pc i.ilen r.1 0

/-- The status word of `mstat` (08 Table 8.11). -/
def Matrix.status (m : Matrix) (acc : BitVec 16) (plane : Bool) : Word :=
  let kind (p : Plane) : Nat := match p.desc with
    | some d => (d.extractLsb' 0 4).toNat
    | none => 0
  let sp (p : Plane) : Nat := if p.desc.isSome && p.sparse then 1 else 0
  let ts := ((List.range 16).filter (fun n => acc.getLsbD n && (m.tile n).tsat)).map (fun n => 2 ^ n)
  BitVec.ofNat 32 (ts.sum + (if plane then
    2 ^ 24 * kind m.shadow + 2 ^ 20 * kind m.active + 2 ^ 19 * sp m.shadow + 2 ^ 18 * sp m.active else 0))

/-- Perform an engine item. A pass whose form does not fit the plane it is served with, after a middle group's `mswap` of the
same position, reads a 256-byte slice and makes one pass (notes/assumptions/22: DESIGN CHOICE). -/
def State.runItem (s : State) (row slot col : Nat) (i : Item) : State :=
  let q := coreIx row col
  match i.op with
  | .fill sp d a md scl => s.fillItem row slot col i sp d a md scl
  | .swap => s.modMx q (fun m => { m with active := m.shadow, shadow := m.active })
  | .pass ps =>
    let pl := (s.core q).mx.active
    let d := pl.desc.getD 0
    let s1 := s.fusedParts row slot col i ps
      (fun p => match mixOf p.form p.aslot d pl.sparse with
        | some x => 256 * x.w
        | none => 256)
      (fun p m sl r => passRow m.active d p sl r)
      (fun p => formTag p.form)
    if i.step.isSome then
      match s.ctb? row slot col with
      | some c => match c.mtile with
        | some m => s1.modGroup row slot col i.grp (fun g => { g with sd := g.sd.modify m.sd.toNat Stream.advance })
        | none => s1
      | none => s1
    else s1
  | .sum ps => s.fusedParts row slot col i ps (fun _ => 256) (fun p _ sl r => sumRow p sl r) (fun _ => .int)
  | .clear ts v => s.modMx q (fun m => (List.range 16).foldl (fun m n =>
      if ts.getLsbD n then
        m.modTile n (fun _ => { tag := .any, tsat := false, elts := if v = 0 then [] else List.replicate 2048 v })
      else m) m)
  | .drain out d a pitch tile vec rm => s.drainItem row slot col i out d a pitch tile vec rm
  | .stat acc plane =>
    let w := (s.core q).mx.status acc plane
    let st := s.standing row slot i.grp
    s.modGroup row slot col i.grp (fun g =>
      ({ g with pend := g.pend.map (fun p => p.supply i.id w) } : Group).land st.1 st.2)

/-- Perform the first `n` items of a slot's queue. -/
def State.runItems (s : State) (row slot col : Nat) : Nat → State
  | 0 => s
  | n + 1 =>
    let q := coreIx row col
    let x := (s.core q).mx.queue slot
    match x.items with
    | [] => s
    | i :: is =>
      let s1 := s.modMx q (fun m => m.setQueue slot { x with items := is })
      (s1.runItem row slot col i).runItems row slot col n

/-- Where the sequencer stops at the request of tide `t` (08 R276): at the first step that has not started, or not at all where
another item is queued behind the steps, which is to complete and is served in order (notes/assumptions/18). -/
def stopsAt (t : Nat) (is : List Item) : Option Nat :=
  if (is.getLast?.bind (fun i => i.step)).isNone then none
  else is.findIdx? (fun i => i.step.isSome && !(i.sched && decide (i.startAt ≤ t)))

/-- How many items of a queue are done by a tide: the served prefix (08 R253). -/
def doneCount (now : Nat) : List Item → Nat
  | [] => 0
  | i :: is =>
    let r := doneCount now is
    if r = 0 then (if i.sched ∧ i.doneAt ≤ now then 1 else 0) else r + 1

/-- Every queued item completes, as a trap and a save ask (08 R257, R276). -/
def State.completeItems (s : State) (row slot col : Nat) : State :=
  s.runItems row slot col ((s.core (coreIx row col)).mx.queue slot).items.length

/-- ENGINE_ITEM_DONE (08 R256): the items of a slot of a core that are done by now take effect, in queue order; those of a
reach that is being switched out up to its step boundary (R276). -/
def execEngineItemDone (q slot : Nat) (s : State) : Out1 :=
  let row := q / 16
  let col := q % 16
  let is := ((s.core q).mx.queue slot).items
  let stop := (s.reach? row slot).bind (fun r => if r.leaving then stopsAt r.asked is else none)
  .next (s.runItems row slot col (min (doneCount s.time is) (stop.getD is.length)))

/-- The timeline of a slot's queue stands where it stood at the stop (08 R257). -/
def Matrix.holdQueue (m : Matrix) (slot : Nat) : Matrix :=
  let x := m.queue slot
  if x.held.isSome then m else m.setQueue slot { x with held := some (x.t, x.fillEnd) }

/-- It goes on from there after the hold. -/
def Matrix.resumeQueue (m : Matrix) (slot : Nat) : Matrix :=
  let x := m.queue slot
  match x.held with
  | none => m
  | some (t, f) => m.setQueue slot { x with t := t, fillEnd := f, held := none }

/-! ### Instructions -/

/-- The end of a matrix instruction's checks: the fault, or what `ok` does, and the position is complete. -/
def State.matrixDo (s : State) (h : Here) (checks : List (Nat × Bool)) (ok : State) : State :=
  match firstDetail checks with
  | some d => s.matrixFault h d
  | none => ok.complete h

/-- `mls` (08 R262). -/
def State.loadPlane (s : State) (h : Here) (sp : Bool) (slot : BitVec 3) (a md : DWord) (six : BitVec 8) : State :=
  let d := h.fmt slot
  let sl := slotOf d
  let scl := sl.scl + 256 * six.toNat
  let two := sl.scale == 2
  s.matrixDo h (s.planeChecks h ++
    [(4, d == 0), (5, !fillSlotOk d sp),
     (0x0A, h.rangeBad (sharedOff a) 16384 256 || (sp && h.rangeBad (sharedOff md) 2048 256) ||
      (two && h.rangeBad scl 256 1))])
    (s.queueItem h (.fill sp d (h.phys (sharedOff a)) (h.phys (sharedOff md)) (if two then some (h.phys scl) else none)) 0)

/-- 08 R262. -/
def execMls (slot : BitVec 3) (a : BitVec 6) (six : BitVec 8) (s : State) : Out1 :=
  s.withHere (fun h => s.loadPlane h false slot (h.k a) 0 six)
/-- 08 R262. -/
def execMlsSp (slot : BitVec 3) (a b : BitVec 6) (six : BitVec 8) (s : State) : Out1 :=
  s.withHere (fun h => s.loadPlane h true slot (h.k a) (h.k b) six)

/-- 08 R263. -/
def execMswap (s : State) : Out1 :=
  s.withHere (fun h => s.matrixDo h (s.planeChecks h) (s.queueItem h .swap 1))

/-- A tile that the slot may not use (08 Table 8.6 detail 0x08). -/
def Here.tileBad (h : Here) (n : Nat) : Bool := decide (15 < n) || !h.accmask.getLsbD n

/-- A tag that conflicts with a form (detail 0x09). -/
def tagBad (t : Tag) (form : MmForm) : Bool :=
  match form with
  | .int _ _ => t == .fp
  | _ => t == .int

/-- The stream checks and the row slices, after detail 0x09 (08 R261): a fault, or `ok`. -/
def State.sliceChecks (s : State) (h : Here) (sd : BitVec 4) (d : Stream) (len : Nat) (ok : State) : State :=
  if h.shapeBad sd then s.raise h cStream (sd.setWidth 64)
  else
    match h.sliceBad d len with
    | some k => s.raiseTl h cMatrix 0x0A k
    | none => ok.complete h

/-- One group's part of a fused item. -/
def Here.part (h : Here) (view : List Seen) (d : Stream) (form : MmForm) (sat : Bool) (tile : Nat) (aslot : DWord) (signed : Bool)
    (mult : BitVec 9) : Part where
  grp := h.cur.grp
  pos := h.rg.pos
  rows := h.rowsOf d
  offs := h.sliceOffs d
  form := form
  sat := sat
  tile := tile
  aslot := aslot
  signed := signed
  mult := mult
  pc := h.cur.pc
  ilen := h.cur.ilen
  view := view

/-- 08 R264. -/
def execMmq (form : MmForm) (sat : Bool) (slot : BitVec 3) (sd : BitVec 4) (tile : BitVec 4) (s : State) : Out1 :=
  s.withHere (fun h =>
    let lg := (s.core h.q).mx.logical h.cur.slot
    let d := h.fmt slot
    let mix := lg.active.bind (fun p => mixOf form d p.1 p.2)
    match firstDetail (s.planeChecks h ++
      [(4, d == 0), (6, lg.active.isSome && mix.isNone), (7, lg.active.isNone), (8, h.tileBad tile.toNat),
       (9, tagBad (lg.tags.getD tile.toNat .any) form)]) with
    | some x => s.matrixFault h x
    | none =>
      let st := h.grp.stream sd
      let w := (mix.map (·.w)).getD 1
      let p := h.part (s.itemView h) st form sat tile.toNat d false 0
      s.sliceChecks h sd st (256 * w)
        ((s.fuse h (fun o => match o with
          | .pass ps => some (.pass (ps ++ [p]))
          | _ => none) (.pass [p]) w).advance h [sd]))

/-- The steps of an `mtile` over its blocks (08 Table 8.8); `n` blocks are left from block `t`. -/
def mtSteps (fill : Nat → ItemOp) (pass : Nat → ItemOp) (tot : Nat) : Nat → Nat → List ItemOp
  | 0, _ => []
  | n + 1, t =>
    [.swap] ++ (if t + 1 < tot then [fill (t + 1)] else []) ++ [pass t] ++ mtSteps fill pass tot n (t + 1)

/-- The blocks of an `mtile` (08 R266). -/
def MtStep.blocks (m : MtStep) : Nat := m.desc.kb.toNat * (m.desc.nbm.toNat + 1)

/-- The SHARED offset of block `n`, and the tile that it goes into. -/
def MtStep.block (m : MtStep) (n : Nat) : Nat :=
  sharedOff m.base + 16384 * (n % m.desc.kb.toNat) + m.desc.nstr.toNat * (n / m.desc.kb.toNat)
def MtStep.tileOf (m : MtStep) (n : Nat) : Nat := m.desc.tile.toNat + n / m.desc.kb.toNat

/-- The steps of an `mtile` of a CTB whose allocation begins at `base`: `pd` is the plane's slot, `tmpl` a part with what every
pass shares, and `shape n` the stream at pass `n`. -/
def MtStep.ops (m : MtStep) (base : Nat) (pd : DWord) (tmpl : Part) (shape : Nat → Stream) : List ItemOp :=
  let ps := slotOf pd
  let fill (n : Nat) : ItemOp := .fill false pd (base + m.block n) 0
    (if ps.scale = 2 then some (base + ps.scl + 256 * (n / m.desc.kb.toNat)) else none)
  let pass (n : Nat) : ItemOp := .pass [{ tmpl with
    rows := maskOf (fun k => bit m.mask k && decide (k < (shape n).ext0))
    offs := mkLanes (fun k => base + ((shape n).off k).toNat)
    tile := m.tileOf n }]
  fill 0 :: mtSteps fill pass m.blocks m.blocks 0

/-- The streams that the passes of an `mtile` walk, from the stream of its first (08 R266). -/
def shapesFrom (st : Stream) (n : Nat) : List Stream :=
  (List.range n).foldl (fun (l : List Stream) _ => l ++ [Stream.advance (l.getLastD st)]) [st]

/-- The array beats of a step. -/
def stepCost (w rows : Nat) : ItemOp → Nat
  | .pass _ => 2 + w * rows
  | .swap => 1
  | _ => 0

/-- 08 R265 to R267. The ranges of blocks and scale vectors are tested before the row slices, and fail with lane 0
(notes/assumptions/22: DESIGN CHOICE). -/
def execMtile (form : MmForm) (sat : Bool) (slot : BitVec 3) (sd : BitVec 4) (b : BitVec 6) (t : MtDesc) (s : State) :
    Out1 :=
  s.withHere (fun h =>
    let lg := (s.core h.q).mx.logical h.cur.slot
    let d := h.fmt slot
    let pd := h.fmt t.psl
    let ps := slotOf pd
    let nb := t.nbm.toNat + 1
    let mix := mixOf form d pd false
    let m : MtStep :=
      { grp := h.cur.grp, pos := h.rg.pos, form := form, sat := sat, slot := slot, sd := sd, desc := t, base := h.k b,
        mask := h.grp.active, land := none }
    let st := h.grp.stream sd
    let w := (mix.map (·.w)).getD 1
    let badRange := (List.range m.blocks).any (fun n => h.rangeBad (m.block n) 16384 256) || t.nstr.toNat % 256 != 0 ||
      (ps.scale == 2 && (List.range nb).any (fun n => h.rangeBad (ps.scl + 256 * n) 256 1))
    match firstDetail (s.planeChecks h ++ [(3, s.otherPlane h), (4, d == 0 || pd == 0), (5, !fillSlotOk pd false),
      (6, mix.isNone), (8, (List.range nb).any (fun n => h.tileBad (t.tile.toNat + n))),
      (9, (List.range nb).any (fun n => tagBad (lg.tags.getD (t.tile.toNat + n) .any) form))]) with
    | some x => s.matrixFault h x
    | none =>
      if h.shapeBad sd then s.raise h cStream (sd.setWidth 64)
      else if badRange then s.matrixFault h 0x0A
      else
        let shapes := shapesFrom st m.blocks
        match ((shapes.take m.blocks).filterMap (fun x => h.sliceBad x (256 * w))).min? with
        | some k => s.raiseTl h cMatrix 0x0A k
        | none =>
          let ops := m.ops h.ctb.base pd (h.part (s.itemView h) st form sat 0 d false 0) (fun n => shapes.getD n st)
          let mk (e : ItemOp × Nat) : Item :=
            { s.newItem h e.1 (stepCost w h.quarterRows e.1) with step := some e.2, last := e.2 + 1 == ops.length }
          let s1 := s.queueItems h ((ops.zip (List.range ops.length)).map mk)
          (s1.modC h (fun c => { c with mtile := some m })).complete h)

/-- `macz` (08 R268). -/
def State.clearTiles (s : State) (h : Here) (mask : DWord) (v : Word) : State :=
  let bad := (mask >>> 16) != 0 || (mask.setWidth 16 &&& ~~~h.accmask) != (0 : BitVec 16)
  s.matrixDo h [(1, h.launch.record.share h.cur.slot == 0), (8, bad)] (s.queueItem h (.clear (mask.setWidth 16) v) 1)

/-- 08 R268. -/
def execMacz (b : BitVec 6) (s : State) : Out1 := s.withHere (fun h => s.clearTiles h (h.k b) 0)
/-- 08 R268. -/
def execMaczFill (a b : BitVec 6) (s : State) : Out1 := s.withHere (fun h => s.clearTiles h (h.k b) (lo32 (h.k a)))

/-- 08 R269. -/
def execMsum (signed sat : Bool) (sd : BitVec 4) (tile : BitVec 4) (mult : BitVec 9) (s : State) : Out1 :=
  s.withHere (fun h =>
    let lg := (s.core h.q).mx.logical h.cur.slot
    match firstDetail [(1, h.launch.record.share h.cur.slot == 0), (8, h.tileBad tile.toNat),
      (9, lg.tags.getD tile.toNat .any == .fp)] with
    | some x => s.matrixFault h x
    | none =>
      let st := h.grp.stream sd
      let p := h.part (s.itemView h) st (.int signed signed) sat tile.toNat 0 signed mult
      s.sliceChecks h sd st 256
        ((s.fuse h (fun o => match o with
          | .sum ps => some (.sum (ps ++ [p]))
          | _ => none) (.sum [p]) 1).advance h [sd]))

/-- 08 R270. -/
def execMdrain (out : DrainOut) (slot : BitVec 3) (a b : BitVec 6) (tile vix : BitVec 4) (rm : RM) (s : State) : Out1 :=
  s.withHere (fun h =>
    let lg := (s.core h.q).mx.logical h.cur.slot
    let d := h.fmt slot
    let sl := slotOf d
    let o := sharedOff (h.k a)
    let pitch := (h.k b).toNat % 2 ^ 32
    let e := drainSize out
    let flt := out = .f32 ∨ out = .bf16
    let vlen := if flt then 256 else 1024
    let vec := sl.scl + vlen * vix.toNat
    let tagX := lg.tags.getD tile.toNat .any
    s.matrixDo h
      [(1, h.launch.record.share h.cur.slot == 0), (4, d == 0), (5, !drainSlotOk out d), (8, h.tileBad tile.toNat),
       (9, tagX == .fp && !decide flt),
       (0x0A, hi32 (h.k b) != 0 || pitch % 64 != 0 || decide (pitch < 64 * e) || h.rangeBad o (31 * pitch + 64 * e) 64 ||
         (sl.scale == 2 && h.rangeBad vec vlen 1))]
      (s.queueItem h (.drain out d (h.phys o) pitch tile.toNat (h.phys vec) rm) 34))

/-- 08 R273: the result is in flight from issue; its landing and its value are the item's. -/
def execMstat (d : Dst) (s : State) : Out1 :=
  s.withHere (fun h =>
    let chk := if h.launch.record.share h.cur.slot = 0 then some (cMatrix, (1 : DWord)) else none
    let far := 2 ^ 40
    let s1 := s.vec h { ops := [], dst := some d, land := far, steps := false, lane := fun _ _ => {} } chk justVals
    if s1.faults.length = s.faults.length ∧ h.grp.cursor = 0 then
      let i := s1.newItem h (.stat h.accmask (h.launch.record.planeSlot h.cur.slot)) 1
      (s1.modG h (fun g => { g with pend := g.pend.map (fun p =>
        if p.due == h.rg.pos + far && p.item == 0 then { p with item := i.id } else p) })).queueItems h [i]
    else s1)

end Sys2Proof.Machine
end

