-- ==== Sys2Proof/Machine/Registers.lean ====
section
/-! DEFINITION. System registers (15 R416, R420; 18 Table 18.2): what they read, what a write leaves, and the writes of
`syswr`, `bcn.arm` and `bcn.off` when they are performed (15 R424, R430). -/
namespace Sys2Proof.Machine

/-! ### Fields (15 R416) -/

/-- A field that takes the value written. -/
def setBits (m v old : DWord) : DWord := (old &&& ~~~m) ||| (v &&& m)

/-- A field marked "cleared by `syswr`": a zero clears it, and any other value leaves it. -/
def clearBits (m v old : DWord) : DWord := if v &&& m = 0 then old &&& ~~~m else old

/-- A 32-bit register written through a 64-bit value. -/
def on32 (f : DWord → DWord) (w : Word) : Word := lo32 (f (w.setWidth 64))

/-! ### Reading -/

/-- DEFSTAT as it reads `gone` beats into slack water (10 R283, Table 10.1). -/
def readDef (w : Word) (gone : Nat) : Word :=
  (w &&& 0xFFFF0000) ||| BitVec.ofNat 32 ((w.extractLsb' 0 16).toNat - gone)

/-- A device register of 15 Table 15.14. LAT of a LNKSTAT is trained (notes/assumptions/14). -/
def State.devReg (s : State) (n : Nat) : DWord :=
  let r := s.regs
  let z (w : Word) : DWord := w.setWidth 64
  if n = 0x20 then z r.detcfg
  else if n = 0x21 then z r.schedcfg
  else if n = 0x22 then z r.slackcfg
  else if n = 0x23 then r.rsyncstat
  else if n = 0x24 then r.stagebase
  else if n = 0x25 then r.ptbase
  else if n = 0x26 then r.cdbase
  else if n = 0x27 then z r.podid
  else if n = 0x28 then r.cdarm
  else if n = 0x30 then r.ttbase
  else if n = 0x31 then r.ttepoch
  else if n = 0x32 then z r.ttstat
  else if n = 0x38 then z r.replcfg
  else if 0x40 ≤ n ∧ n ≤ 0x4F then z (r.proj.getD (n - 0x40) 0)
  else if 0x60 ≤ n ∧ n ≤ 0x75 then z (readDef (r.defstat.getD (n - 0x60) 0) (slackGone s.time))
  else if 0x80 ≤ n ∧ n ≤ 0x99 then r.acctl.getD (n - 0x80) 0
  else if 0xA0 ≤ n ∧ n ≤ 0xAF then
    setBits 0xFFF00000 ((Config.linkLat (n - 0xA0)).setWidth 64 <<< 20) (r.lnkstat.getD (n - 0xA0) 0)
  else if n = 0xB0 then r.cntwrap
  else if n = 0x108 then r.trbase
  else if n = 0x109 then r.trsize
  else if n = 0x10A then r.trhead
  else if n = 0x10B then r.trloss
  else 0

/-- A core register of 15 Table 15.14. -/
def Core.reg (c : Core) (n : Nat) : DWord :=
  if 0x50 ≤ n ∧ n ≤ 0x53 then (c.bankmap.extractLsb' (32 * (n - 0x50)) 32).setWidth 64
  else if n = 0x54 then c.scrcnt.setWidth 64
  else if n = 0xB1 then c.cntlost.setWidth 64
  else if 0xC0 ≤ n ∧ n ≤ 0xCF then c.bcnctl.getD (n - 0xC0) 0
  else if 0xD0 ≤ n ∧ n ≤ 0xDF then c.bcnlo.getD (n - 0xD0) 0
  else if 0xE0 ≤ n ∧ n ≤ 0xEF then c.bcnhi.getD (n - 0xE0) 0
  else if 0x100 ≤ n ∧ n ≤ 0x103 then c.watch.getD (n - 0x100) 0
  else if n = 0x110 then c.survey.ctl
  else if n = 0x111 then c.survey.idle
  else if n = 0x112 then c.survey.out
  else if 0x200 ≤ n ∧ n ≤ 0x2FF then (look c.survey.bins (n - 0x200)).getD 0
  else 0

/-- A group register of 15 Table 15.14. -/
def Group.reg (g : Group) (n : Nat) : DWord :=
  if n = 0 then pair g.prd g.div
  else if n = 1 then g.iflags.setWidth 64
  else if n = 2 then g.xflags.setWidth 64
  else if n = 0x10 then g.trap.cause.setWidth 64
  else if n = 0x11 then g.trap.pc
  else if n = 0x12 then g.trap.addr
  else if n = 0x13 then g.trap.lane.setWidth 64
  else if n = 0x14 then g.trap.res
  else 0

/-! ### Writing core registers -/

/-- BANKMAP takes marks of unmarked groups alone (07 Table 7.4). -/
def bankWord (old : BitVec 128) (w : Nat) (v : Word) : BitVec 128 :=
  (List.range 8).foldl (fun (m : BitVec 128) i =>
    let g := 8 * w + i
    let f := (m.extractLsb' (4 * g) 4).toNat
    let x := (v.extractLsb' (4 * i) 4).toNat
    if f = 15 ∧ x ≤ 9 then m &&& ~~~(BitVec.ofNat 128 (15 * 16 ^ g)) ||| BitVec.ofNat 128 (x * 16 ^ g) else m) old

/-- A counter register: COUNT takes the value, a zero clears OVF. -/
def countWrite (v old : DWord) : DWord :=
  clearBits 0x8000000000000000 v (setBits 0x7FFFFFFFFFFFFFFF v old)
def countWrite32 (v : DWord) (old : Word) : Word :=
  on32 (fun w => clearBits 0x80000000 v (setBits 0x7FFFFFFF v w)) old

/-- SURVCTL: a SHIFT outside 2 to 40 is ignored (15 Table 15.11). -/
def survCtl (v old : DWord) : DWord :=
  let sh := (v.extractLsb' 0 6).toNat
  setBits (if 2 ≤ sh ∧ sh ≤ 40 then 0xFFFFFFFFFFFFF07F else 0xFFFFFFFFFFFFF040) v old

/-- Write a core register. -/
def Core.setReg (c : Core) (n : Nat) (v : DWord) : Core :=
  if 0x50 ≤ n ∧ n ≤ 0x53 then { c with bankmap := bankWord c.bankmap (n - 0x50) (lo32 v) }
  else if n = 0x54 then { c with scrcnt := countWrite32 v c.scrcnt }
  else if n = 0xB1 then { c with cntlost := countWrite32 v c.cntlost }
  else if 0xC0 ≤ n ∧ n ≤ 0xCF then
    { c with bcnctl := modAt c.bcnctl (n - 0xC0) (fun o => clearBits 0x40000000 v (setBits 0xFFFF0000BFF80FE0 v o)) }
  else if 0xD0 ≤ n ∧ n ≤ 0xDF then { c with bcnlo := c.bcnlo.set (n - 0xD0) v }
  else if 0xE0 ≤ n ∧ n ≤ 0xEF then { c with bcnhi := c.bcnhi.set (n - 0xE0) v }
  else if 0x100 ≤ n ∧ n ≤ 0x103 then { c with watch := c.watch.set (n - 0x100) (v &&& 0x800003FFFFFFFFFF) }
  else if n = 0x110 then { c with survey := { c.survey with ctl := survCtl v c.survey.ctl } }
  else if n = 0x111 then { c with survey := { c.survey with idle := countWrite v c.survey.idle } }
  else if n = 0x112 then { c with survey := { c.survey with out := countWrite v c.survey.out } }
  else if 0x200 ≤ n ∧ n ≤ 0x2FF then
    { c with survey := { c.survey with
        bins := bindAt c.survey.bins (n - 0x200) (countWrite v ((look c.survey.bins (n - 0x200)).getD 0)) } }
  else c

/-! ### Writing device registers with effects of their own -/

/-- DETCFG (12 Table 12.10): LOCK only sets, and fixes MODE. -/
def detWrite (v : DWord) (old : Word) : Word :=
  if old.getLsbD 1 then old else lo32 (v &&& 3)

/-- SCHEDCFG (03 Table 3.8): a QEXP of 11 to 15 is ignored. -/
def schedWrite (v : DWord) (old : Word) : Word :=
  on32 (fun w => setBits (if (v.extractLsb' 0 4).toNat ≤ 10 then 0x1F else 0x10) v w) old

/-- Tides of a quantum (03 R105). -/
def State.quantum (s : State) : Nat := 8192 * 2 ^ (s.regs.schedcfg.extractLsb' 0 4).toNat

/-- The first quantum boundary after now. -/
def State.nextQuantum (s : State) : Nat := s.quantum * (s.time / s.quantum + 1)

/-- A task is a quantum boundary. -/
def Task.isQuantum : Task → Bool
  | .op .quantumBoundary => true
  | _ => false

/-- Write SCHEDCFG: from now on the boundaries are those of the new quantum (03 R106). -/
def State.setSchedcfg (s : State) (v : DWord) : State :=
  let s1 := { s with regs := { s.regs with schedcfg := schedWrite v s.regs.schedcfg } }
  if s.agenda.any (fun e => e.task.isQuantum && decide (s.time < e.tide)) then
    { s1 with agenda := s1.agenda.filter (fun e => !(e.task.isQuantum && decide (s.time < e.tide))) }.later s1.nextQuantum 1
      .quantumBoundary
  else s1

/-- Write TTEPOCH: the switch is armed (10 R292). -/
def State.setTtepoch (s : State) (v : DWord) : State :=
  { s with regs := { s.regs with ttepoch := v, ttstat := 1 }, ttNext := some (v.toNat, s.time) }

/-- Write CDARM (13 R369): arming and breaking are steps of their own. -/
def State.setCdarm (s : State) (v : DWord) : State :=
  let s1 := { s with regs := { s.regs with cdarm := v &&& 0xFFF } }
  let x := (v.extractLsb' 0 12).toNat
  if v.extractLsb' 30 2 = 1 then s1.later s1.time 0 (.descriptorArm x)
  else if v.extractLsb' 30 2 = 2 then s1.later s1.time 0 (.descriptorBreak x)
  else s1

/-- Write a device register (15 R416, R420). -/
def State.setDev (s : State) (n : Nat) (v : DWord) : State :=
  let r := s.regs
  let on (r : Regs) : State := { s with regs := r }
  if n = 0x20 then on { r with detcfg := detWrite v r.detcfg }
  else if n = 0x21 then s.setSchedcfg v
  else if n = 0x22 then on { r with slackcfg := on32 (setBits 0x30000 v) r.slackcfg }
  else if n = 0x23 then on { r with rsyncstat := clearBits 0xFFFF v r.rsyncstat }
  else if n = 0x24 then on { r with stagebase := v &&& 0x000FFFFFFC000000 }
  else if n = 0x25 then on { r with ptbase := v &&& 0x000FFFFFFFFFF000 }
  else if n = 0x26 then on { r with cdbase := v &&& 0x000FFFFFFFFC0000 }
  else if n = 0x27 then on { r with podid := lo32 v &&& 0x7FF }
  else if n = 0x28 then s.setCdarm v
  else if n = 0x30 then on { r with ttbase := v &&& 0x000FFFFFFFFFF000 }
  else if n = 0x31 then s.setTtepoch v
  else if n = 0x38 then on { r with replcfg := on32 (setBits 0xF1 v) r.replcfg }
  else if 0x60 ≤ n ∧ n ≤ 0x75 then
    on { r with defstat := modAt r.defstat (n - 0x60) (on32 (clearBits 0xFFFF0000 v)) }
  else if 0x80 ≤ n ∧ n ≤ 0x99 then on { r with acctl := r.acctl.set (n - 0x80) (v &&& 0x0007FFFF0007FFFF) }
  else if 0xA0 ≤ n ∧ n ≤ 0xAF then
    on { r with lnkstat := modAt r.lnkstat (n - 0xA0) (fun o =>
      clearBits 0x80 v (clearBits 0x100 v (clearBits 0x0000FFFF00000000 v (clearBits 0xFFFF000000000000 v o)))) }
  else if n = 0xB0 then on { r with cntwrap := r.cntwrap &&& ~~~v }
  else if n = 0x108 then on { r with trbase := v &&& 0x000FFFFFFFFFFFC0 }
  else if n = 0x109 then on { r with trsize := v &&& 0xFFFFFFFFFFFFFFC0 }
  else if n = 0x10A then on { r with trhead := v &&& 0xFFFFFFFFFFFFFFC0 }
  else if n = 0x10B then on { r with trloss := countWrite v r.trloss }
  else s

/-- CURSOR as a write leaves it (15 Table 15.3, R400): 33 to 63 are ignored, and 32 where the instruction at TRAPRES has
MAJ 0x01 to 0x06. -/
def State.cursorWrite (s : State) (l : Launch) (t : TrapRec) (v : Nat) : TrapRec :=
  let uniform := match s.fetch l t.res with
    | .instr i _ _ => decide (1 ≤ majOf i ∧ majOf i ≤ 6)
    | .fault _ _ _ _ => false
  if 32 < v ∨ (v = 32 ∧ uniform = true) then t
  else { t with lane := (t.lane &&& 0xFFFFC0FF) ||| BitVec.ofNat 32 (256 * v) }

/-! ### Performing a write (15 R416, R424, R430) -/

/-- The control register of a beacon that is armed for a slot. -/
def armedCtl (old : DWord) (w : BcnWord) (slot : Nat) : DWord :=
  (old &&& 0x3E000000) ||| 0x80080000 ||| (w.count.setWidth 64 <<< 48) ||| (BitVec.ofNat 64 slot <<< 20) |||
    (w.action.setWidth 64 <<< 10) ||| (w.cmp.setWidth 64 <<< 7) ||| (w.kind.setWidth 64 <<< 5)

/-- Working beats before a schedule tide (10 R283): slack water has none. -/
def workBeats (t : Nat) : Nat := 7936 * (t / 8192) + min (frameOff t) 7936

/-- Idle issue slots are added to SURVIDLE while the survey counts; a wrap sets OVF (15 R415, R416). -/
def Core.addIdle (c : Core) (n : Nat) : Core :=
  let sum := (c.survey.idle.setWidth 63).toNat + n
  if c.survey.ctl.getLsbD 6 then
    { c with survey := { c.survey with
        idle := (c.survey.idle &&& 0x8000000000000000) ||| (if 2 ^ 63 ≤ sum then 0x8000000000000000 else 0) |||
          (BitVec.ofNat 63 sum).setWidth 64 } }
  else c

/-- The issue slots since the survey last counted (15 R415): 32 pipes; a freeze and slack water have none. -/
def Core.issueSlots (c : Core) (now : Nat) : Nat := 32 * (workBeats now - workBeats c.survey.since)

/-- The survey goes on from a tide. -/
def Core.surveyed (c : Core) (now : Nat) : Core :=
  { c with survey := { c.survey with
      busy := if c.survey.ctl.getLsbD 6 then c.survey.busy - c.issueSlots now else 0
      since := now } }

/-- SURVIDLE takes the idle issue slots up to a tide: all but those that issued. -/
def Core.countIdle (c : Core) (now : Nat) : Core := (c.addIdle (c.issueSlots now - c.survey.busy)).surveyed now

/-- What a core register reads at a tide. -/
def Core.regAt (c : Core) (now n : Nat) : DWord := if n = 0x111 then (c.countIdle now).reg n else c.reg n

/-- Write a core register: idle slots so far count as the survey was set. -/
def State.setCoreReg (s : State) (q n : Nat) (v : DWord) : State :=
  s.modCore q (fun c => (if n = 0x110 ∨ n = 0x111 then c.countIdle s.time else c).setReg n v)

/-- Write a group register. -/
def State.setGroupReg (s : State) (w : SysWrite) (n : Nat) (v : DWord) : State :=
  let on (f : Group → Group) : State := s.modGroup w.row w.slot w.col w.grp f
  if n = 1 then on (fun g => { g with iflags := lo32 v &&& 0xFF })
  else if n = 2 then on (fun g => { g with xflags := lo32 v &&& 3 })
  else
    match s.reach? w.row w.slot with
    | none => s
    | some r =>
      match s.launch? r.launch with
      | none => s
      | some l =>
        if n = 0x13 then on (fun g => { g with trap := s.cursorWrite l g.trap (v.extractLsb' 8 6).toNat })
        else if n = 0x14 ∧ (r.hold.map (fun x => x.wide)).getD false = true then
          on (fun g => { g with trap := { g.trap with res := v &&& ~~~3 } })
        else s

/-- The core of a register write. -/
def SysWrite.q (w : SysWrite) : Nat := coreIx w.row w.col

/-- Who a register write belongs to. -/
def SysWrite.by_ (w : SysWrite) : Nat × Nat × Nat × Nat := (w.row, w.slot, w.col, w.grp)

/-- A register of a core or of the device before a write, kept for the other groups until the writer's next rotation frame
(15 R424). -/
def State.keepOld (s : State) (w : SysWrite) (n : Nat) : State :=
  let core := srnCore n
  let old := if core then (s.core w.q).regAt s.time n else s.devReg n
  { s with sysOld := s.sysOld.filter (fun e => decide (s.time < e.until_)) ++
      (if s.time < w.frame then [{ q := if core then some w.q else none, n := n, old := old, by_ := w.by_, until_ := w.frame }] else []) }

/-- A write of a device register writes the COUNT that was incremented: a field "cleared by `syswr`" only with a zero
(15 R416); `at_` is the field's lowest bit in LNKSTAT. -/
def countWritten (n at_ : Nat) (v : DWord) : Bool :=
  if 0xA0 ≤ n ∧ n ≤ 0xAF then v.extractLsb' at_ 16 == 0 else n != 0x23 || v.extractLsb' 0 16 == 0

/-- An increment of the counter came at the same tide: the write wins, and CNTLOST counts it (15 R416). -/
def State.clash (s : State) (q n : Nat) (v : DWord) : State :=
  if s.bumped.any (fun e => e.2.1 == n && e.2.2 == s.time && (if srnDevice n then countWritten n e.1 v else e.1 == q)) then
    s.modCore q Core.loseInc
  else s

/-- Perform a register write. -/
def State.perform (s : State) (w : SysWrite) : State :=
  match w.act with
  | .write n v =>
    if srnGroup n then s.setGroupReg w n v
    else if n = 0x39 then s
    else
      let s1 := (s.keepOld w n).clash w.q n v
      if srnCore n then s1.setCoreReg w.q n v else s1.setDev n v
  | .arm n b lo hi => s.modCore w.q (fun c =>
      { c with bcnctl := modAt c.bcnctl n (fun o => armedCtl o b w.slot), bcnlo := c.bcnlo.set n lo, bcnhi := c.bcnhi.set n hi })
  | .off n => s.modCore w.q (fun c => { c with bcnctl := modAt c.bcnctl n (fun o => o &&& ~~~0x80000000) })

/-- Perform the writes in flight that a test picks, in the order of their issue. -/
def State.performAll (s : State) (f : SysWrite → Bool) : State :=
  (s.sysw.filter f).foldl State.perform { s with sysw := s.sysw.filter (fun w => !f w) }

/-- A write in flight whose group comes to its landing position at run index `j` (15 R424), or comes to none. -/
def Reach.lands (r : Reach) (j : Nat) (w : SysWrite) : Bool :=
  w.row == r.row && w.slot == r.slot && !r.stalled && (match r.rgOf w.grp w.handler with
    | some rg => decide (rg.idx = j ∧ w.due ≤ rg.pos) && rg.wait.isNone
    | none => true)

/-- The writes in flight of a reach, or of one column of it, are performed: its program is interrupted or ends (02 R69). -/
def State.performReach (s : State) (row slot : Nat) (col : Option Nat) : State :=
  s.performAll (fun w => w.row == row && w.slot == slot && (col.map (fun c => w.col == c)).getD true)

/-- What other groups have not yet seen of a register (15 R424): the old value of the first write that they do not see. -/
def oldValue (now : Nat) (me : Nat × Nat × Nat × Nat) : List OldReg → DWord → DWord
  | [], v => v
  | e :: l, v => if e.by_ = me then v else oldValue now me l (if now < e.until_ then e.old else v)

/-- What a core or device register reads for the executing group. -/
def State.seenReg (s : State) (h : Here) (n : Nat) : DWord :=
  let core := srnCore n
  let now := if core then (s.core h.q).regAt s.time n else s.devReg n
  oldValue s.time (h.cur.row, h.cur.slot, h.cur.col, h.cur.grp)
    ((s.sysOld.filter (fun e => e.n == n && e.q == (if core then some h.q else none))).reverse) now

end Sys2Proof.Machine
end

