-- ==== Sys2Proof/Machine/Rotation.lean ====
section
/-! DEFINITION. The rotation (01 R17 to R24): what ends a run index and a visit of a slot (02 R64 to R66, 04 R126 to
R141, 12 R335, 15 R394 to R401), and the tick of the device. -/
namespace Sys2Proof.Machine

/-! ### The end of a run index -/

/-- A reach group goes on to its next position: results due there land; a latch takes one only within the run
(02 R64, R66). -/
def Reach.advanceGroup (r : Reach) (g j len : Nat) : Reach :=
  match r.rgs[g]? with
  | none => r
  | some rg =>
    let pos := rg.pos + 1
    let run := if j + 1 < len then r.run else r.run + 1
    { r with
      rgs := r.rgs.modify g (fun rg =>
        { rg with pos := pos, pc := rg.npc, last := rg.pc, head := false, tstep := false, idx := j + 1,
                  steps := rg.steps.map (fun e => (e.1, e.2.1 - 1, e.2.2)) })
      ctbs := r.ctbs.map (fun c => (c.1, if c.2.ended.isSome then c.2 else c.2.modGroup g (fun x =>
        if x.ended then x else
        { x.land run pos with cursor := 0, again := false }))) }

/-- As `advanceGroup`, for the stream of a handler. -/
def Reach.advanceHandler (r : Reach) (h : Hold) (j len : Nat) : Reach :=
  let pos := h.rg.pos + 1
  let run := if j + 1 < len then r.run else r.run + 1
  { r with
    hold := some { h with rg := { h.rg with pos := pos, pc := h.rg.npc, head := false, tstep := false, idx := j + 1 } }
    ctbs := r.ctbs.map (fun c => (c.1, (h.active.filter (fun e => e.1 == c.1)).foldl (fun b e =>
      b.modGroup e.2 (fun x => if x.ended then x else { x.land run pos with cursor := 0, again := false })) c.2)) }

/-- Every live column has completed the group's position, and no wait holds it. -/
def Reach.indexDone (r : Reach) (g j : Nat) : Bool :=
  match r.rgs[g]? with
  | some rg => rg.idx == j && rg.head && rg.wait.isNone &&
      r.ctbs.all (fun c => !c.2.live g || ((c.2.group? g).map (·.cursor == 32)).getD true)
  | none => false

/-- The execute beat of a fault, then its column and group (15 R394): 32 x run index + 16 x column + lane. -/
def FaultRec.key (f : FaultRec) : Nat := (32 * f.j + 16 * f.col + f.lane) * 65536 + f.col * 256 + f.grp

/-- The earliest of several faults by execute beat. -/
def firstFault : List FaultRec → Option FaultRec
  | [] => none
  | f :: l =>
    match firstFault l with
    | none => some f
    | some g => if f.key ≤ g.key then some f else some g

/-- The faults that a stop records (15 R394): reach-wide, the headland's at the run index of the stop, which is that of the
earliest fault; else on each core its earliest. A headland fault of a sibling's skid is not recorded. -/
def recorded (fs : List FaultRec) : List FaultRec :=
  let i := (fs.map (fun f => f.j)).foldl min ((fs.head?.map (fun f => f.j)).getD 0)
  match fs.find? (fun f => f.wide && f.j == i) with
  | some f => [f]
  | none => (List.range 16).filterMap (fun c => firstFault (fs.filter (fun f => f.col == c && !f.wide)))

/-- The skid of the siblings of a stop (15 R395). -/
def skidOf (fs : List FaultRec) (j len : Nat) : Bool :=
  match fs.find? (·.wide), firstFault fs with
  | some _, _ => false
  | none, some f => decide (24 ≤ f.lane) && decide (j + 1 < len) && !f.late && f.res == f.pc
  | none, none => false

/-- The visit goes on: the next run index when some group still issues in this run, else the visit ends. -/
def State.nextIndex (s : State) (r : Reach) (j len : Nat) : State :=
  if j + 1 < len then
    s.schedule (max s.time (s.indexTide r r.visits (j + 1))) 2 (.visit r.row r.slot (j + 1))
  else s.schedule (s.visitEnd r) 3 (.visit r.row r.slot len)

/-- A group at a stop: its skid (15 R395), and the hold of the lanes that it halted (15 R409), unless the instruction that
halted them is to end yet (R408). -/
def Group.stopped (g : Group) (skid serial : Nat) : Group :=
  { g with skid := skid
           snaps := if g.halting.isSome then g.snaps else
             g.snaps.map (fun (x : Snap) => if x.hold = newHold then { x with hold := serial } else x) }

/-- The skid of a reach group at the stop of run index `j`. -/
def Reach.skidAt (r : Reach) (j g : Nat) : Nat :=
  if ((r.rgs[g]?).map (fun rg => decide (j + 1 < rg.idx))).getD false then 1 else 0

/-- Every group of a CTB is at the stop; one that has ended stays where it stopped (15 R403). -/
def Ctb.stopped (c : Ctb) (skid : Nat → Nat) (serial : Nat) : Ctb :=
  let gs := c.groups.zip (List.range c.groups.length)
  if c.ended.isSome then c else { c with groups := gs.map (fun (e : Group × Nat) => e.1.stopped (skid e.2) serial) }

/-- Every group of a reach is at the stop of run index `j`. -/
def Reach.stopped (r : Reach) (j serial : Nat) : Reach :=
  { r with ctbs := r.ctbs.map (fun (c : Nat × Ctb) => (c.1, c.2.stopped (r.skidAt j) serial)) }

/-- A headland fault that a stop for group `g` does not record is raised again when its position is issued again (15 R394). -/
def Reach.reissue (r : Reach) (g : Nat) (fs : List FaultRec) : Reach :=
  fs.foldl (fun (r : Reach) (f : FaultRec) =>
    if f.wide && f.grp != g then { r with rgs := r.rgs.modify f.grp (fun rg => { rg with head := false, tstep := false }) } else r) r

/-- A reach stops for the recorded faults (15 R393, R394): the hold is set up, and the trap entry follows. -/
def State.stopReach (s : State) (r : Reach) (j : Nat) : State :=
  match recorded s.faults with
  | [] => s
  | f :: fs =>
    let wide := f.wide
    let queue := if wide then (r.liveCols f.grp).map (fun c => (c, f.grp)) else (f :: fs).map (fun x => (x.col, x.grp))
    match r.rgs[f.grp]? with
    | none => s
    | some rg =>
      let h : Hold := { wide := wide, queue := queue, rg := rg, visit := r.visits, j := j, run := r.run, halted := false
                        entered := false, resume := false, back := none, serial := s.nextId + 1 }
      let s1 := s.modReach r.row r.slot (fun r => { (r.stopped j (s.nextId + 1)).reissue f.grp s.faults with hold := some h })
      { s1 with faults := f :: fs, nextId := s1.nextId + 1 }.schedule s.time 0 (.op (.trapEntry r.row r.slot))

/-- The position is complete for a group on every core of the reach. -/
def Reach.completeAll (r : Reach) (g : Nat) : Reach :=
  { r with ctbs := r.ctbs.map (fun (c : Nat × Ctb) => (c.1, if c.2.ended.isSome then c.2 else c.2.modGroup g (fun x => { x with cursor := 32 }))) }

/-- A recorded `trap` completes its position (15 R422). -/
def Reach.pastTrap (r : Reach) (fs : List FaultRec) : Reach :=
  match fs.find? (·.wide) with
  | some f => if f.cause = cSoftware then r.completeAll f.grp else r
  | none => r

/-- The core registers that writes in flight are about to change, with what they hold. -/
def State.toWrite (s : State) (ws : List SysWrite) : List (Nat × Nat × DWord) :=
  ws.filterMap (fun w => match w.act with
    | .write n _ => if srnCore n then some (w.q, n, (s.core w.q).regAt s.time n) else none
    | _ => none)

/-- The beacons that writes in flight are about to arm. -/
def toArm (ws : List SysWrite) : List (Nat × Nat) :=
  ws.filterMap (fun w => match w.act with
    | .arm n _ _ _ => some (w.q, n)
    | _ => none)

/-- Idle issue slots of the beat of lane 0 in which SURVIDLE is being written are lost (15 R415, R416). -/
def State.loseIdle (s : State) (todo : List (Nat × Nat)) (wrote : List (Nat × Nat × DWord)) : State :=
  wrote.foldl (fun (s : State) e =>
    if e.2.1 = 0x111 ∧ (s.core e.1).survey.ctl.getLsbD 6 = true then
      let n := 32 - (todo.filter (fun t => t.1 == e.1 % 16)).length
      s.modCore e.1 (fun c => (List.range n).foldl (fun (c : Core) _ => c.loseInc) { c with survey := { c.survey with busy := c.survey.busy + n } })
    else s) s

/-- A group's position begins: the stamp of the next write is remembered with the last positions (07 R234). -/
def Group.mark (g : Group) (pos stamp : Nat) : Group :=
  if g.marks.any (fun m => m.1 == pos) then g else { g with marks := (pos, stamp) :: g.marks.take 2 }

/-- The positions that begin at run index `j` are marked. -/
def Reach.markAll (r : Reach) (todo : List (Nat × Nat)) (stamp : Nat) : Reach :=
  todo.foldl (fun (r : Reach) e =>
    match r.rgOf e.2 r.handling with
    | some rg => r.modCtb e.1 (fun c => c.modGroup e.2 (fun g => g.mark rg.pos stamp))
    | none => r) r

/-- Run index `j` of a reach begins: the register writes whose landing position is at it are performed (15 R424), then its
positions are issued. -/
def State.beginIndex (s : State) (r : Reach) (j : Nat) (todo : List (Nat × Nat)) : State :=
  let ws := s.sysw.filter (r.lands j)
  let wrote := s.toWrite ws
  let s1 := (s.performAll (r.lands j)).loseIdle todo wrote
  { s1.modReach r.row r.slot (fun r => r.markAll todo s.wseq) with
    issue := some (Issue.start r.row r.slot j todo (toArm ws) wrote) }

/-- What the run index in execution has changed in bindings and leaf entries governs from now on (12 R326, 13 R383). -/
def Reach.settleIndex (r : Reach) : Reach :=
  if r.ctbs.any (fun c => c.2.before.isSome) then { r with ctbs := r.ctbs.map (fun c => (c.1, { c.2 with before := none })) }
  else r

/-- The end of run index `j` of a visit. -/
def State.endIndex (s : State) (row slot j : Nat) : State :=
  let s := ({ s with issue := none, cur := none }.modReach row slot Reach.settleIndex).scheduleMatrix row slot j
  match s.reach? row slot with
  | none => s
  | some r =>
    let len := s.runLen r
    match r.hold with
    | some h =>
      if r.handling then
        if s.faults ≠ [] then (s.schedule s.time 0 (.op (.trapEntry row slot))).nextIndex r len len
        else
          let done := h.active.all (fun e => ((r.ctb? e.1).map (fun c => !c.live e.2 ||
            ((c.group? e.2).map (·.cursor == 32)).getD true)).getD true)
          let s1 := if h.rg.idx = j ∧ h.rg.head ∧ h.rg.wait = none ∧ done then
              s.modReach row slot (fun r => r.advanceHandler h j len) else s
          s1.nextIndex r j len
      else s.nextIndex r len len
    | none =>
      let skidding := r.stalled
      let r1 := (List.range r.rgs.length).foldl (fun r g =>
        if r.indexDone g j then { r.advanceGroup g j len with moving := true } else r) (r.pastTrap s.faults)
      let s1 := s.modReach row slot (fun _ => r1)
      let steps := (List.range r.rgs.length).find? (fun g => ((r1.rgs[g]?).map (fun rg => rg.steps.any (fun e => e.2.1 == 0))).getD false)
      if s1.faults = [] then
        match steps with
        | some g =>
          (s1.schedule s1.time 0 (.op (.stepCountReached row slot g))).nextIndex r j len
        | none => s1.nextIndex r1 j len
      else if skidding then (s1.stopReach r1 (j - 1)).nextIndex r1 len len
      else if skidOf s1.faults j len then
        match firstFault s1.faults with
        | some f =>
          let s2 := s1.modReach row slot (fun r => { r with stalled := true })
          let todo := r1.ctbs.flatMap (fun c => (List.range c.2.groups.length).filterMap (fun g =>
            match r1.rgs[g]? with
            | some rg => if c.2.live g ∧ rg.idx = j + 1 ∧ rg.wait = none ∧ g ≠ f.grp then some (c.1, g) else none
            | none => none))
          s2.beginIndex r1 (j + 1) (todo.filter (fun e => !s2.fenceHolds r1 e))
        | none => s1
      else (s1.stopReach r1 j).nextIndex r1 len len

/-! ### The end of a visit -/

/-- The groups that a run's end leaves without latches (02 R64, 15 R401): all of the reach; in a hold the handled ones. -/
def Reach.endRun (r : Reach) : Reach :=
  match r.hold with
  | none =>
    { r with
      run := r.run + 1
      rgs := r.rgs.map (fun rg => { rg with idx := 0 })
      ctbs := r.ctbs.map (fun c => (c.1, { c.2 with groups := c.2.groups.map Group.dropLatches })) }
  | some h =>
    if h.entered && !h.resume && !h.halted then
      { r with
        run := r.run + 1
        hold := some { h with rg := { h.rg with idx := 0 } }
        ctbs := r.ctbs.map (fun c => (c.1, (h.active.filter (fun e => e.1 == c.1)).foldl
          (fun b e => b.modGroup e.2 Group.dropLatches) c.2)) }
    else r

/-- A hold that has ended is left in the visit that follows. -/
def Reach.settleBack (r : Reach) : Reach :=
  { r with hold := r.hold.map (fun h => if h.resume && h.back.isNone then { h with back := some (r.visits + 1) } else h) }

/-- The groups of a reach whose wait is decided: those that hold one; in a hold only the handler's. -/
def Reach.waiting (r : Reach) : List Nat :=
  match r.hold with
  | some h => if h.rg.wait.isSome then [h.rg.grp] else []
  | none => (List.range r.rgs.length).filter (fun g => ((r.rgs[g]?).map (fun rg => rg.wait.isSome)).getD false)

/-- The end of a slot's visit: latches, the planned clock (10 R282, 12 R337, 15 R399), the samples (12 R335), the
decisions of the next visit and the next visit itself. -/
def State.endVisit (s : State) (row slot : Nat) : State :=
  match s.reach? row slot with
  | none => s
  | some r =>
    let waved := s.waveHolds r != []
    let counted := r.hold.isNone && !waved && !r.stalled && r.counted
    let r0 := if waved && r.hold.isNone then r else r.endRun
    let r1 := { r0.settleBack with
      frames := r.frames + (if counted then 1 else 0), visits := r.visits + 1, counted := true, tallied := counted,
      stalled := false, moved := r.moving, moving := false }
    let s1 := (s.modReach row slot (fun _ => r1)).schedule s.time 2 (.op (.readinessSample row slot))
    let t := max s.time (s.indexTide r (r.visits + 1) 0)
    let s2 := (if waved && r.hold.isNone then [] else r1.waiting).foldl (fun s g => s.schedule t 2 (.op (.waitDecision row slot g))) s1
    s2.schedule t 2 (.visit row slot 0)

/-- The reach is held before run index `j` for a fence (12 R334): as after a trap that has returned, the run goes on from this
index in the next visit, and this frame is not counted. In a handler its stream alone is held. -/
def State.holdFence (s : State) (r : Reach) (j : Nat) (e : Nat × Nat) : State :=
  match (if r.handling then none else r.rgs[e.2]?) with
  | none => s.beginIndex r j []
  | some rg =>
    let h : Hold := { wide := false, queue := [], rg := rg, visit := r.visits, j := j, run := r.run, halted := false, entered := true
                      resume := true, back := none, serial := 0 }
    (s.modReach r.row r.slot (fun r => { r with hold := some h })).nextIndex r (s.runLen r) (s.runLen r)

/-- A visit of a slot at run index `j`; `j` of the run length or more ends it. A resumed visit begins at the index of
the stop, and the run goes on (15 R400). -/
def State.visit (s : State) (row slot j : Nat) : State :=
  match s.reach? row slot with
  | none => s
  | some r =>
    if s.runLen r ≤ j then s.endVisit row slot
    else
      let hs := s.waveHolds r
      let wave := ((s.launch? r.launch).map (fun l => l.south)).getD false
      let r1 := match r.hold with
        | some h => if h.resume && j == 0 && (!wave || (h.back.isSome && hs == [])) then
            { r.stopped 8 0 with hold := none, run := h.run, stalled := false } else r
        | none => r
      let s0 := s.modReach row slot (fun _ => r1)
      let s1 := if r.hold.isSome && r1.hold.isNone then
          r.ctbs.foldl (fun (s : State) c => s.modMx (coreIx row c.1) (fun m => m.resumeQueue slot)) s0 else s0
      let todo := if r1.handling then r1.todo j else (r1.todo j).filter (fun e => r1.waveFree hs j e.2)
      match todo.find? (s1.fenceHolds r1) with
      | some e => s1.holdFence r1 j e
      | none => s1.beginIndex r1 j todo

/-- One position of one group on one core, of the run index in execution. -/
def State.turn (ex : Instr → State → Out1) (s : State) (i : Issue) (c g : Nat) (rest : List (Nat × Nat)) : Out1 :=
  let handler := ((s.reach? i.row i.slot).map Reach.handling).getD false
  let s1 := { s with
    issue := some { i with todo := rest }
    cur := some { row := i.row, slot := i.slot, col := c, grp := g, handler := handler, head := false, pc := 0,
                  ilen := 0, only := none } }
  match s1.here with
  | some h => s1.position ex h
  | none => .next s1

/-- The hits of beacons on the groups of a column at this run index, as an execution without their actions meets them
(15 R407). -/
def State.gather (ex : Instr → State → Out1) (s : State) (i : Issue) (c : Nat) : List BAct :=
  let mine := i.todo.filter (fun e => e.1 == c)
  let s0 : State := { s with issue := some { i with col := some c, mode := .gather, hits := [] } }
  let r := mine.foldl (fun (a : State) e =>
    match a.issue with
    | none => a
    | some k =>
      match a.turn ex k e.1 e.2 [] with
      | .next b => b
      | _ => a) s0
  (r.issue.map (fun k => k.hits)).getD []

/-- A column comes to its turn: its beacons count the hits of all its groups in beat order (15 R407). -/
def State.plan (ex : Instr → State → Out1) (s : State) (i : Issue) (c : Nat) : State :=
  let q := coreIx i.row c
  let core := s.core q
  let handler := ((s.reach? i.row i.slot).map Reach.handling).getD false
  if handler || !(core.bcnctl.any (fun b => b.getLsbD 31)) then { s with issue := some { i with col := some c, mode := .each } }
  else
    let a := bcnPlan (s.gather ex i c) core.bcnctl
    { s.setCore q { core with bcnctl := a.ctls } with issue := some { i with col := some c, mode := .planned a.acts } }

/-- The next (column, group) of the run index in execution. -/
def State.micro (ex : Instr → State → Out1) (s : State) (i : Issue) : Out1 :=
  match i.todo with
  | [] => .next (s.endIndex i.row i.slot i.j)
  | (c, g) :: rest =>
    let s1 := if i.col = some c then s else s.plan ex i c
    s1.turn ex (s1.issue.getD i) c g rest

/-- One step: the next position of the run index in execution; else the next task of the agenda, at its tide; else time
goes on by a tide (notes/assumptions/6). -/
def State.tick (ex : Instr → State → Out1) (s : State) : Out1 :=
  match s.issue with
  | some i => s.micro ex i
  | none =>
    match s.agenda with
    | [] => .next { s with time := s.time + 1 }
    | e :: l =>
      let s1 := { s with agenda := l, time := max s.time e.tide, cur := none }
      match e.task with
      | .op i => ex i s1
      | .visit row slot j => .next (s1.visit row slot j)
      | .dma d => .next (s1.hostDma d)

end Sys2Proof.Machine
end

