-- ==== Sys2Proof/Machine/Copy.lean ====
section
/-! DEFINITION. Transfers as the copy and gather engines take them (10 R290 to R311): the tide table's slots, promises,
the checks of the transfer instructions, what a transfer reads and writes in scratch, and refusals. -/
namespace Sys2Proof.Machine

/-! ### CTBs by launch and linear index -/

/-- A CTB of a launch, by linear index. -/
def State.ctbLin? (s : State) (launch lin : Nat) : Option Ctb :=
  s.reaches.findSome? (fun r =>
    if r.launch == launch then (r.ctbs.find? (fun c => c.2.lin == lin)).map (·.2) else none)

/-- Change a CTB of a launch, by linear index. -/
def State.modLin (s : State) (launch lin : Nat) (f : Ctb → Ctb) : State :=
  { s with reaches := s.reaches.map (fun r =>
      if r.launch == launch then
        { r with ctbs := r.ctbs.map (fun (c : Nat × Ctb) => if c.2.lin == lin then (c.1, f c.2) else c) }
      else r) }

def State.xfer? (s : State) (id : Nat) : Option Xfer := s.xfers.find? (fun x => x.id == id)

def State.modXfer (s : State) (id : Nat) (f : Xfer → Xfer) : State :=
  { s with xfers := s.xfers.map (fun x => if x.id == id then f x else x) }

/-- The group that issued a transfer. -/
def State.modIssuer (s : State) (x : Xfer) (f : Group → Group) : State :=
  s.modLin x.launch x.lin (fun c => c.modGroup x.grp f)

/-! ### Promise registers (10 R294) -/

/-- An empty and a refused promise. -/
def emptyP : DWord := 0xFFFFFFFFFFFFFFFF
def refusedP (code : Nat) : DWord := 0x8000000000000000 + BitVec.ofNat 64 code

/-- What a p register holds at a planned tide: the tracking of a lost transfer turns to LOST when its promise passes
(10 R457). -/
def State.pNow (s : State) (g : Group) (n planned : Nat) : DWord :=
  match (g.pTrack.getD n none).bind s.xfer? with
  | some x => if x.lost && decide (x.promise ≤ planned) then refusedP 5 else g.p.getD n emptyP
  | none => g.p.getD n emptyP

/-- Write a p register and what it tracks. -/
def Group.setP (g : Group) (n : Nat) (v : DWord) (track : Option Nat) : Group :=
  { g with p := g.p.set n v, pTrack := g.pTrack.set n track }

/-! ### Paths and views (12 R334) -/

/-- The destination bytes of transfers that have passed by a planned tide and that a group's path-1 or path-2 view holds (12
R334): those of its own, and in its CTB's allocation those of any CTB of its reach. -/
def State.passedXfers (s : State) (h : Here) (path planned : Nat) : List Seen :=
  let alloc : List Region := [{ core := some h.q, base := h.ctb.base, len := h.launch.record.scrbytes }]
  (s.passedOn h.reach h.ctb.lin h.cur.grp path planned).map (fun x =>
    if x.lin == h.ctb.lin && x.grp == h.cur.grp then Seen.of x.id else { Seen.of x.id with within := [alloc] })

/-- The view of a path of the executing group. -/
def State.pathView (s : State) (h : Here) (path planned : Nat) : List Seen :=
  if path = 0 then s.viewHere h
  else h.grp.pseen.getD path [] ++ (if path = 1 ∨ path = 2 then s.passedXfers h path planned else [])

/-! ### Rows (10 R308 to R310) -/

/-- The rows of an `xcopy` or `xred`: count, bytes, global address and pitch, CLUSTER offset and pitch. -/
structure Rect where
  rows : Nat
  len  : Nat
  ga   : DWord
  gp   : DWord
  so   : Nat
  sp   : Nat
  deriving DecidableEq, Repr

def Here.rect (h : Here) (a b : BitVec 6) (t : RowDesc) : Rect where
  rows := t.rows.toNat
  len := t.rbytes.toNat
  ga := h.k a
  gp := t.gpitch.signExtend 64
  so := (lo32 (h.k b)).toNat
  sp := (hi32 (h.k b)).toNat

def Rect.va (r : Rect) (i : Nat) : Nat := (r.ga + BitVec.ofNat 64 i * r.gp).toNat
def Rect.off (r : Rect) (i : Nat) : Nat := r.so + i * r.sp

/-- The core and physical byte of `n` bytes at a CLUSTER offset, or the first offset that leaves its stage's allocation
(10 R309 check 2). -/
def Here.stageAt (h : Here) (o n : Nat) : Except Nat (Nat × Nat) :=
  let st := o / 2097152
  let x := o % 2097152
  if h.launch.record.stageCount ≤ st ∨ h.launch.record.scrbytes ≤ x then .error o
  else if h.launch.record.scrbytes < x + n then .error (o - x + h.launch.record.scrbytes)
  else
    let col := h.cur.col - h.ctb.stage + st
    match h.reach.ctb? col with
    | some c => .ok (coreIx h.cur.row col, c.base + x)
    | none => .error o

/-- The first of several rows that fails check 2. -/
def Here.stageBad (h : Here) (n : Nat) (offs : List Nat) : Option DWord :=
  offs.findSome? (fun o => match h.stageAt o n with
    | .error x => some (clusterBase + BitVec.ofNat 64 x)
    | .ok _ => none)

/-- A run of bytes of one row that lies in one granule. -/
structure RowSeg where
  row  : Nat
  va   : Nat
  core : Nat
  scr  : Nat
  len  : Nat
  deriving DecidableEq, Repr

/-- The runs of one row, by granule. -/
def rowSegs (row va core scr len : Nat) : List RowSeg :=
  (List.range ((va % 64 + len + 63) / 64)).map (fun k =>
    let lo := if k = 0 then va else 64 * (va / 64 + k)
    let hi := min (va + len) (64 * (va / 64 + k + 1))
    { row := row, va := lo, core := core, scr := scr + (lo - va), len := hi - lo })

/-- All runs of a rectangle whose rows pass check 2. -/
def Here.rectSegs (h : Here) (r : Rect) : List RowSeg :=
  (List.range r.rows).flatMap (fun i => match h.stageAt (r.off i) r.len with
    | .ok (c, p) => rowSegs i (r.va i) c p r.len
    | .error _ => [])

/-- Whether the engines of a logical row may reach a physical address (07 R230). -/
def State.acctlOk (s : State) (row pa : Nat) (write : Bool) : Bool :=
  if write then s.acctlW (stackOf pa) row else s.acctlR (stackOf pa) row

/-- The stacks that ACCTL lets a row's engines reach. -/
def State.accMask (s : State) (row : Nat) (write : Bool) : BitVec 8 :=
  BitVec.ofNat 8 (((List.range 8).filter (fun n => if write then s.acctlW n row else s.acctlR n row)).map (2 ^ ·)).sum

/-- Whether a global byte lies in an ORD page of the launch. -/
def Launch.ordAt (l : Launch) (va : Nat) : Bool := (l.runs va).any (·.ord)

/-- Checks 1 and 2 of 10 R309 for rows. -/
def Here.rectBad (h : Here) (r : Rect) : Option (Nat × DWord) :=
  if r.ga.toNat % 8 ≠ 0 then some (cMisalign, r.ga)
  else if r.so % 8 ≠ 0 then some (cMisalign, clusterBase + BitVec.ofNat 64 r.so)
  else if r.sp % 8 ≠ 0 then some (cMisalign, clusterBase + BitVec.ofNat 64 (r.so + r.sp))
  else (h.stageBad r.len ((List.range r.rows).map r.off)).map (fun a => (cAperture, a))

/-- Checks 3 and 4 of 10 R309: translation, then permission, ACCTL and, where `red` says so, RED pages. -/
def State.segsBad (s : State) (h : Here) (write red : Bool) (gs : List RowSeg) : Option (Nat × DWord) :=
  let l := h.launch
  match gs.find? (fun g => (l.phys g.va).isNone) with
  | some g => some (cMapMiss, BitVec.ofNat 64 g.va)
  | none =>
    (gs.find? (fun g => !(if write then l.canW g.va else l.canR g.va) ||
      !s.acctlOk h.cur.row ((l.phys g.va).getD 0) write || (red && (l.redOf g.va).isSome))).map
      (fun g => (cAccess, BitVec.ofNat 64 g.va))

/-! ### What a transfer reads of scratch (10 R297, R457) -/

/-- The words of a range, each with the part of it that lies in the range. -/
def wordParts (a n : Nat) : List (Nat × Nat) :=
  (wordsOf a n).map (fun w => (max a w, min (a + n) (w + 8) - max a w))

/-- What the engine reads on a path: an aligned word that was written and that the view does not hold is old or new; a lost
byte reads 0. Answers whether a byte was lost. -/
def State.xferRead (s : State) (core a n path : Nat) (view : List Seen) : List Byte × Bool × State :=
  (wordParts a n).foldl (fun (x : List Byte × Bool × State) p =>
    let r := x.2.2.scrPick core p.1 p.2 path view x.2.2.wseq
    let c := r.2.2.core core
    let lost := (List.range p.2).map (fun i => c.lost (p.1 + i) 1)
    (x.1 ++ (r.1.zip lost).map (fun (e : Byte × Bool) => if e.2 then 0 else e.1), x.2.1 || lost.any id, r.2.2.bankLoss core p.1 p.2))
    ([], false, s)

/-! ### What a transfer writes in scratch (10 R299, R457) -/

/-- A later transfer of the same engine, or a later row of this one, has written the word (10 R299). -/
def State.overtaken (s : State) (x : Xfer) (row core w : Nat) : Bool :=
  s.xfers.any (fun y => y.q == x.q && y.kind.path == x.kind.path && y.kind.inbound && decide (x.id ≤ y.id) &&
    y.grans.any (fun g => g.done && g.pieces.any (fun p => p.core == core && decide (p.scr ≤ w) &&
      decide (w < p.scr + p.len) && (decide (x.id < y.id) || decide (row < p.row)))))

/-- The trace source of a transfer (15 Table 15.10). -/
def State.xferSrc (s : State) (x : Xfer) : TraceSrc :=
  let c := s.ctbLin? x.launch x.lin
  { planned := x.planned
    pc := x.pc
    x := (c.map (·.x)).getD 0
    y := (c.map (·.y)).getD 0
    z := (c.map (·.z)).getD 0
    stage := (c.map (·.stage)).getD 0
    grp := 255
    lane := 255
    phase := (c.map (·.bar.phase)).getD 0
    vector := false }

/-- A transfer writes bytes of a row into scratch; answers whether some were lost. -/
def State.xferWrite (s : State) (x : Xfer) (row core a : Nat) (bs : List Byte) : Bool × State :=
  (rowParts a bs.length).foldl (fun (acc : Bool × State) p =>
    let part := (bs.drop (p.1 - a)).take p.2
    let ws := wordParts p.1 p.2
    if ws.any (fun w => acc.2.overtaken x row core w.1) then
      ws.foldl (fun (b : Bool × State) w =>
        if acc.2.overtaken x row core w.1 then b
        else
          let (l, s1) := b.2.engineWriteRow core w.1 ((part.drop (w.1 - p.1)).take w.2) (s.xferSrc x) x.id x.kind.path
          (b.1 || l, s1)) acc
    else
      let (l, s1) := acc.2.engineWriteRow core p.1 part (s.xferSrc x) x.id x.kind.path
      (acc.1 || l, s1)) (false, s)

/-- A transfer met an uncorrectable column (10 R457): XFLAGS.LOST of the issuing group; a loss of a preload or writeback
is reported to the host with the CTB's linear index. -/
def State.xferLost (s : State) (x : Xfer) : State :=
  let s1 := s.modXfer x.id (fun y => { y with lost := true })
  match x.kind with
  | .preload l n _ => s1.report (.report 0x457 l n)
  | .writeback l n _ => s1.report (.report 0x457 l n)
  | .save => s1
  | .restore => s1
  | _ => s1.modIssuer x (fun g => { g with xflags := g.xflags ||| 2 })

/-! ### Promises (10 R295) -/

/-- Slots and landings of granules: number, slot and landing. `none` when an owned slot is missing in the frames searched. -/
def TideTable.plan (t : TideTable) (q : Nat) (reads : Bool) (a floor frames : Nat) :
    List Nat → List (Nat × Nat) → Option (List (Nat × Nat × Nat))
  | [], _ => some []
  | g :: gs, taken =>
    let n := channelOf (64 * g)
    let far := farFrom (q / 16) n
    let e := if reads then a else a + 256 + 48 * far
    match t.slotFrom (0x0100 + q) n (max e floor) frames taken with
    | none => none
    | some sl =>
      let land := if reads then 8192 * (sl / 8192) + 8000 + slotPhase n + 96 + 48 * far else sl + 24
      (t.plan q reads a floor frames gs ((n, sl) :: taken)).map (fun l => (g, sl, land) :: l)

/-- Add a piece to its granule, granules in the order of first touch. -/
def addPiece (g : Nat) (p : Piece) : List (Nat × List Piece) → List (Nat × List Piece)
  | [] => [(g, [p])]
  | (h, ps) :: l => if h = g then (h, ps ++ [p]) :: l else (h, ps) :: addPiece g p l

/-- Pieces by granule. -/
def groupPieces (ps : List Piece) : List (Nat × List Piece) := ps.foldl (fun l p => addPiece (p.dram / 64) p l) []

/-- Unlanded transfers of a slot's engine queue, by planned tide (10 Table 10.7). -/
def State.queued (s : State) (x : Xfer) : Nat :=
  (s.xfers.filter (fun y => y.q == x.q && y.slot == x.slot && y.kind.path == x.kind.path &&
    decide (x.planned < y.promise))).length

/-- The reach whose CTB a transfer belongs to, with its launch. -/
def State.issuerOf (s : State) (x : Xfer) : Option (Reach × Launch) :=
  (s.reaches.find? (fun r => r.launch == x.launch && r.ctbs.any (fun c => c.2.lin == x.lin))).bind (fun r =>
    (s.launch? x.launch).map (fun l => (r, l)))

/-- The access slots of granules in schedule tides. A time-sliced row's entries are read at the row's planned tide, and each
slot is where that tide falls on the row's timeline (18 R453); any other row takes the first free slots from the acceptance on,
of which a table that gave the planned ones always has some (10 R295). -/
def State.accessSlots (s : State) (t : TideTable) (x : Xfer) (floorAt : Nat) (nums : List Nat) (planned : List (Nat × Nat × Nat)) :
    Option (List (Nat × Nat × Nat)) :=
  let taken := (s.core x.q).takenAt
  match (if s.sliced (x.q / 16) && x.preg.isSome then s.issuerOf x else none) with
  | some (r, l) => some (planned.map (fun e => (e.1, max floorAt (s.tideOf r l e.2.1), e.2.2)))
  | none => t.plan x.q x.kind.inbound x.tide floorAt ((t.ntmpl + 1) * (1 + taken.length + nums.length)) nums taken

/-- Offer a transfer to the copy engine (10 R295): a refusal code, or its promise and the state in which its slots are
taken. `floor` and `floorAt` are the landings that a `fence.device` makes it wait for, planned and in schedule tides
(12 Table 12.4). -/
def State.offer (s : State) (x : Xfer) (floor floorAt : Nat) (ps : List Piece) : Except Nat (Nat × State) :=
  let c := s.core x.q
  let gs := groupPieces ps
  let nums := gs.map (·.1)
  let rdDram := x.kind.inbound
  if 256 ≤ s.queued x then .error 2
  else
    match s.tt with
    | none => .error 1
    | some t =>
      match (t.plan x.q rdDram (x.planned + 32) floor (t.ntmpl + 1) nums c.taken).bind (fun pl =>
          (s.accessSlots t x floorAt nums pl).map (fun ac => (pl, ac))) with
      | some (pl, ac) =>
        let grans := (gs.zip (pl.zip ac)).map (fun (e : (Nat × List Piece) × ((Nat × Nat × Nat) × (Nat × Nat × Nat))) =>
          ({ num := e.1.1, slot := e.2.1.2.1, land := e.2.1.2.2, at_ := e.2.2.2.1, pieces := e.1.2, data := [],
             done := false, fails := 0 } : Granule))
        let promise := (grans.map (·.land)).foldl max 0
        let tak (l : List (Nat × Nat × Nat)) : List (Nat × Nat) := l.map (fun e => (channelOf (64 * e.1), e.2.1))
        let s1 := s.setCore x.q { c with taken := c.taken ++ tak pl, takenAt := c.takenAt ++ tak ac }
        let s2 := { s1 with xfers := s1.xfers ++ [{ x with grans := grans, promise := promise }] }
        .ok (promise, (grans.zip (List.range grans.length)).foldl
          (fun (s : State) (e : Granule × Nat) => s.later e.1.at_ 0 (.dramSlotAccess x.id e.2)) s2)
      | none => .error 1

/-! ### The issue of a transfer -/

/-- The schedule tide of the executing position on its core. -/
def State.tideHere (s : State) (h : Here) : Nat :=
  let t0 := (s.rowOf h.cur.row).t0
  max s.time (planTide t0 (frameBeats h.launch.record.runExp * s.rowFrame h.cur.row h.reach.visits +
    32 * 2 ^ h.launch.record.runExp * h.cur.slot + 32 * h.rg.idx + 16 * h.cur.col +
    16 * h.launch.record.rowoff * h.cur.row))

/-- A transfer of the executing group before it has granules. -/
def State.newXfer (s : State) (h : Here) (kind : XKind) (p : Nat) (a b : DWord) (row : RowDesc) (idx : IdxDesc)
    (write : Bool) : Xfer where
  id := s.nextId + 1
  kind := kind
  q := h.q
  slot := h.cur.slot
  launch := h.launch.id
  lin := h.ctb.lin
  grp := h.cur.grp
  gen := h.reach.gen
  ordinal := h.grp.issuedX
  preg := some p
  promise := 0
  grans := []
  landed := false
  lost := false
  unreadable := false
  passed := 0
  told := 0
  acc := s.accMask h.cur.row write
  view := s.storesBefore h :: s.pathView h kind.path h.planned
  pc := h.cur.pc
  planned := h.planned
  row := row
  idx := idx
  a := a
  b := b
  batch := 0
  tide := s.tideHere h + 32

/-- The transfers that the group issued before its last `fence.device`. -/
def State.fenced (s : State) (h : Here) : List Xfer :=
  s.xfers.filter (fun y => y.launch == h.launch.id && y.lin == h.ctb.lin && y.grp == h.cur.grp &&
    decide (y.ordinal < h.grp.fenceX))

/-- Schedule tides less planned ones at the acceptance of a transfer. -/
def Xfer.lag (x : Xfer) : Nat := x.tide - (x.planned + 32)

/-- Every granule of a transfer has taken its slot: a gather or scatter has no batch left. -/
def Xfer.placed (x : Xfer) : Bool :=
  match x.kind with
  | .gather => decide (x.idx.n.toNat ≤ 32 * x.batch)
  | .scatter _ => decide (x.idx.n.toNat ≤ 32 * x.batch)
  | _ => true

/-- The landing of a transfer in schedule tides; that of its promise while batches are left. -/
def Xfer.landAt (x : Xfer) : Nat :=
  (x.grans.map (fun g =>
    g.at_ + (if x.kind.inbound then 96 + 48 * farFrom (x.q / 16) (channelOf (64 * g.num)) else 24))).foldl max
    (if x.placed then 0 else x.promise + x.lag)

/-- Their last landing, planned and in schedule tides. -/
def State.fenceFloor (s : State) (h : Here) : Nat := ((s.fenced h).map (·.promise)).foldl max 0
def State.fenceFloorAt (s : State) (h : Here) : Nat := ((s.fenced h).map Xfer.landAt).foldl max 0

/-- The end of a transfer instruction: p holds the promise or the refusal, and the group has issued one more. -/
def State.issued (s : State) (h : Here) (p : Nat) (v : DWord) (track : Option Nat) : State :=
  ({ s with nextId := s.nextId + 1 }.modG h (fun g => { g.setP p v track with issuedX := g.issuedX + 1 })).complete h

/-- A transfer instruction refused with a code. -/
def State.refuseX (s : State) (h : Here) (p code : Nat) : State := s.issued h p (refusedP code) none

/-- The piece of a run of a row, at its physical address. -/
def Here.piece (h : Here) (comb : Bool) (g : RowSeg) : Piece where
  row := g.row
  comb := comb
  dram := (h.launch.phys g.va).getD 0
  core := g.core
  scr := g.scr
  len := g.len
  old := []

/-- The pieces of rows that move as they are. -/
def Here.rowPieces (h : Here) (gs : List RowSeg) : List Piece := gs.map (h.piece false)

/-- Offer the pieces of an `xcopy` (10 R310). -/
def State.offerRows (s : State) (h : Here) (kind : XKind) (p : Nat) (r : Rect) (t : RowDesc) (b : DWord)
    (ps : List Piece) : State :=
  let x := s.newXfer h kind p r.ga b t { n := 0, rowb := 0, pitch := 0 } (!kind.inbound)
  match s.offer x (s.fenceFloor h) (s.fenceFloorAt h) ps with
  | .ok (pr, s1) => s1.issued h p (BitVec.ofNat 64 pr) (some x.id)
  | .error c => s.refuseX h p c

/-- 10 R309, R310, 13 R361: a RED page cannot be copied in. -/
def execXcopyIn (p : BitVec 3) (a b : BitVec 6) (t : RowDesc) (s : State) : Out1 :=
  s.withHere (fun h =>
    let r := h.rect a b t
    match h.rectBad r with
    | some (c, x) => s.raise h c x
    | none =>
      let gs := h.rectSegs r
      match s.segsBad h false true gs with
      | some (c, x) => s.raise h c x
      | none => s.offerRows h .copyIn p.toNat r t (h.k b) (h.rowPieces gs))

/-! ### Gathers and scatters (10 R296, R311) -/

/-- Granules that a gather or scatter occupies (10 R296). -/
def gatherTotal (any : Bool) (n rowb : Nat) : Nat :=
  if any then (n * rowb + 63) / 64 + n else n * ((rowb + 56 + 63) / 64)

/-- The bound that is a gather's promise (10 R296). -/
def gatherPromise (a total least : Nat) : Nat := 8192 * (a / 8192) + 8192 * ((total + least - 1) / least) + 8163

/-- Checks 1 and 2 of 10 R309 for an indexed transfer; the index array's own alignment is checked with them. -/
def Here.idxBad (h : Here) (a b : BitVec 6) (t : IdxDesc) : Option (Nat × DWord) :=
  let so := (lo32 (h.k b)).toNat
  let io := (hi32 (h.k b)).toNat
  if (h.k a).toNat % 8 ≠ 0 then some (cMisalign, h.k a)
  else if so % 8 ≠ 0 then some (cMisalign, clusterBase + BitVec.ofNat 64 so)
  else if io % 4 ≠ 0 then some (cMisalign, sharedBase + BitVec.ofNat 64 io)
  else
    match h.stageAt so (t.n.toNat * t.rowb.toNat) with
    | .error x => some (cAperture, clusterBase + BitVec.ofNat 64 x)
    | .ok _ =>
      if h.launch.record.scrbytes < io + 4 * t.n.toNat then
        some (cAperture, sharedBase + BitVec.ofNat 64 (max io h.launch.record.scrbytes))
      else none

/-- A gather or scatter (10 R311). -/
def State.indexed (s : State) (h : Here) (kind : XKind) (any : Bool) (p : Nat) (a b : BitVec 6) (t : IdxDesc) : State :=
  match h.idxBad a b t with
  | some (c, x) => s.raise h c x
  | none =>
    let x0 := s.newXfer h kind p (h.k a) (h.k b) { rows := 0, rbytes := 0, gpitch := 0 } t (kind != .gather)
    let least := (s.tt.map (·.least (0x0200 + h.q))).getD 0
    if 256 ≤ s.queued x0 then s.refuseX h p 2
    else if least = 0 then s.refuseX h p 1
    else
      let pr := gatherPromise (x0.planned + 32) (gatherTotal any t.n.toNat t.rowb.toNat) least
      let x := { x0 with promise := pr }
      let s1 := { s with xfers := s.xfers ++ [x] }
      (s1.later (max x.tide (s.fenceFloorAt h)) 0 (.gatherBatch x.id)).issued h p (BitVec.ofNat 64 pr) (some x.id)

/-- 10 R311. -/
def execXgather (p : BitVec 3) (a b : BitVec 6) (t : IdxDesc) (s : State) : Out1 :=
  s.withHere (fun h => s.indexed h .gather false p.toNat a b t)
/-- 10 R311. -/
def execXscatter (p : BitVec 3) (a b : BitVec 6) (t : IdxDesc) (s : State) : Out1 :=
  s.withHere (fun h => s.indexed h (.scatter false) false p.toNat a b t)
/-- 10 R311. -/
def execXscatterAny (p : BitVec 3) (a b : BitVec 6) (t : IdxDesc) (s : State) : Out1 :=
  s.withHere (fun h => s.indexed h (.scatter true) true p.toNat a b t)

/-! ### Reducing copies (10 R302 to R304, R312) -/

/-- The function of an `xred` form (10 R302). -/
def redF (op : RedOp) (ty : RedTy) (p q : Word) : Word :=
  match op, ty with
  | .add, .f32 => BitVec.ofNat 32 (fp32.add .rne p.toNat q.toNat).1
  | .add, .i32 => p + q
  | .min, .f32 => if fp32.totalLess q.toNat p.toNat then q else p
  | .min, .i32 => if q.slt p then q else p
  | .max, .f32 => if fp32.totalLess p.toNat q.toNat then q else p
  | .max, .i32 => if p.slt q then q else p

/-- Whether an element is staged (10 Table 10.8a). -/
def stagedElt (op : RedOp) (ty : RedTy) (any ord marked : Bool) : Bool :=
  if any then ord || !marked else if op = .add ∧ ty = .f32 then true else ord || !marked

/-- The physical base of the staging area of a position (10 R304). -/
def State.stageBase (s : State) (q slot : Nat) : Nat :=
  (s.regs.stagebase.extractLsb' 26 26).toNat * 67108864 + 16384 * (16 * q + slot)

/-- The elements of a staged contribution that a release of an object combines: bound to the object and in its view; at the
completion of the contributing launch those that are bound to no object, or to the one that it fires, `launch` with it
(10 R303). -/
def Staged.takes (e : Staged) (rel : Release) (launch : Option (Nat × Nat)) (x : DWord × Nat × Nat) : Bool :=
  match launch with
  | some (l, o) => (e.launch == l && (!e.tied.any (fun t => t.1 == x.2.1) || e.tied.contains (x.2.1, o))) ||
      (e.tied.contains (x.2.1, o) && sees rel.view (.engine e.xid) 0 none x.2.1)
  | none => rel.regs.any (fun r => r.core.isNone && decide (r.base ≤ x.2.1) && decide (x.2.1 < r.base + r.len)) &&
      sees rel.view (.engine e.xid) 0 none x.2.1

/-- What a fire completes, with its object. -/
def Fire.ends (f : Fire) : Option (Nat × Nat) := f.launch.map (fun l => (l, f.obj))

/-- The elements of a contribution that are uncombined at a planned tide (10 R304): neither combined by then nor taken by a
fire of a planned tide up to it. -/
def State.openElts (s : State) (e : Staged) (u : Nat) : Nat :=
  (e.elts.filter (fun x => !s.fires.any (fun f => decide (f.planned ≤ u) && e.takes f.comb f.ends x))).length +
    ((e.spent.filter (fun p => decide (u < p.1))).map (fun p => p.2)).sum

/-- The uncombined elements of a position at a planned tide; of one CTB only, where `lin` names it. -/
def State.stagedAt (s : State) (q slot u : Nat) (lin : Option (Nat × Nat)) : Nat :=
  ((s.staged.filter (fun e => e.q == q && e.slot == slot && (match lin with
    | some l => e.launch == l.1 && e.lin == l.2
    | none => true))).map (fun e => s.openElts e u)).sum

/-- The 4-byte words of runs: row, virtual address, core and scratch byte. -/
def segWords (gs : List RowSeg) : List RowSeg :=
  gs.flatMap (fun g => (List.range (g.len / 4)).map (fun i =>
    { g with va := g.va + 4 * i, scr := g.scr + 4 * i, len := 4 }))

/-- The bindings that govern the executing position: those of earlier positions (12 R326). -/
def Ctb.bindsNow (c : Ctb) : List Binding := (c.before.map (fun b => b.1)).getD c.binds

/-- What bindings and leaf entries were before this run index, kept until its end (12 R326, 13 R383). -/
def Ctb.keepBefore (c : Ctb) : Ctb := { c with before := some (c.before.getD (c.binds, c.leaves)) }

/-- The objects that the CTB has bound a global byte to (12 R325). -/
def Here.tiedTo (h : Here) (va : Nat) : List Nat :=
  h.ctb.bindsNow.filterMap (fun b => match b.tgt with
    | .obj n => if b.base.toNat ≤ va ∧ va < b.base.toNat + b.len.toNat then some n.toNat else none
    | _ => none)

/-- The pieces of an `xred` in the order of its rows (10 R295): the words of a staged run at their staging addresses, `place`,
and the others where they are combined. -/
def Here.redPieces (h : Here) (staged : RowSeg → Bool) : List RowSeg → List (RowSeg × Nat) → List Piece
  | [], _ => []
  | g :: gs, place =>
    if staged g then
      (place.take (g.len / 4)).map (fun (e : RowSeg × Nat) => { h.piece false e.1 with dram := e.2, len := 4 }) ++
        h.redPieces staged gs (place.drop (g.len / 4))
    else h.piece true g :: h.redPieces staged gs place

/-- An `xred` (10 R302 to R304, R312): staged elements go to the staging area at the fill offset, the others are combined
at their write slots. -/
def State.reduce (s : State) (h : Here) (op : RedOp) (ty : RedTy) (any : Bool) (p : Nat) (a b : BitVec 6) (t : RowDesc) :
    State :=
  let r := h.rect a b t
  match h.rectBad r with
  | some (c, x) => s.raise h c x
  | none =>
    let gs := h.rectSegs r
    match s.segsBad h true true gs with
    | some (c, x) => s.raise h c x
    | none =>
      let stg (g : RowSeg) : Bool := stagedElt op ty any (h.launch.ordAt g.va) h.launch.marked
      let ws := (segWords gs).filter stg
      let used := 4 * s.stagedAt h.q h.cur.slot h.planned (some (h.launch.id, h.ctb.lin))
      let f := if s.stagedAt h.q h.cur.slot h.planned none = 0 then 0 else (look s.fill (16 * h.q + h.cur.slot)).getD 0
      let base := s.stageBase h.q h.cur.slot
      let place := (ws.zip (List.range ws.length)).map (fun (e : RowSeg × Nat) => (e.1, base + (f + 4 * e.2) % 16384))
      if 16384 < used + 4 * ws.length then s.refuseX h p 3
      else
        let x := s.newXfer h (.red op ty any) p r.ga (h.k b) t { n := 0, rowb := 0, pitch := 0 } true
        match s.offer x (s.fenceFloor h) (s.fenceFloorAt h) (h.redPieces stg gs place) with
        | .error c => s.refuseX h p c
        | .ok (pr, s1) =>
          let e : Staged :=
            { xid := x.id, launch := x.launch, ident := h.launch.ident, lin := x.lin, grp := x.grp, ordinal := x.ordinal
              q := x.q, slot := x.slot, op := op, ty := ty
              elts := place.map (fun (e : RowSeg × Nat) => (BitVec.ofNat 64 e.1.va, (h.launch.phys e.1.va).getD 0, e.2))
              tied := place.flatMap (fun (e : RowSeg × Nat) => (h.tiedTo e.1.va).map (fun o =>
                ((h.launch.phys e.1.va).getD 0, o)))
              spent := [], promise := pr, landed := false }
          let s2 := if ws = [] then s1 else
            { s1 with staged := s1.staged ++ [e]
                      fill := bindAt s1.fill (16 * h.q + h.cur.slot) ((f + 4 * ws.length) % 16384) }
          (s2.modG h (fun g => { g with seen := Seen.of x.id :: g.seen })).issued h p
            (BitVec.ofNat 64 pr) (some x.id)

/-- 10 R312. -/
def execXred (op : RedOp) (ty : RedTy) (p : BitVec 3) (a b : BitVec 6) (t : RowDesc) (s : State) : Out1 :=
  s.withHere (fun h => s.reduce h op ty false p.toNat a b t)
/-- 10 R312. -/
def execXredAny (op : RedOp) (ty : RedTy) (p : BitVec 3) (a b : BitVec 6) (t : RowDesc) (s : State) : Out1 :=
  s.withHere (fun h => s.reduce h op ty true p.toNat a b t)

/-! ### Reading time (10 R314, R315) -/

/-- 10 R314. -/
def execTread (d : Dst) (s : State) : Out1 := s.withHere (fun h => s.putAll h d true (BitVec.ofNat 64 h.planned))

/-- The state of a promise at a planned tide (10 R315). -/
def xstatWord (v : DWord) (planned : Nat) : Word :=
  if v = emptyP then 0
  else if v.getLsbD 63 then 3 + 256 * (v.setWidth 32 &&& 0xFF)
  else if planned < v.toNat then 1 else 2

/-- 10 R315. -/
def execXstat (d : Dst) (p : BitVec 3) (s : State) : Out1 :=
  s.withHere (fun h => s.putAll h d false ((xstatWord (s.pNow h.grp p.toNat h.planned) h.planned).setWidth 64))

/-! ### Issuing a wait (12 R335) -/

/-- A wait at its issue: the destination's row must fit the group and is allocated (02 R59); the headland holds the group once, and the
core does its own part `eff`. -/
def State.issueWait (s : State) (h : Here) (kind : WaitKind) (texp : BitVec 5) (obj arg : DWord) (d : Dst)
    (bad : Option (Nat × DWord)) (eff : State → State) : State :=
  let w : Wait :=
    { kind := kind, texp := texp.toNat, obj := obj, arg := arg, dst := d, idle := 0, decided := false,
      frame := h.reach.frames, j := h.rg.idx, resynced := false }
  if h.grp.allocates [] (dstNames d false) && decide (h.limit < h.grp.wouldHold [] (dstNames d false)) then
    s.raise h cRegQuota (BitVec.ofNat 64 (h.grp.wouldHold [] (dstNames d false)))
  else
    match bad with
    | some (c, x) => s.raise h c x
    | none =>
      let s1 := s.modRG h (fun rg => if rg.wait.isSome then rg else { rg with wait := some w })
      (eff (s1.modG h (fun g => { (dstNames d false).foldl (fun g n => g.alloc n) g with ready := false, code := 0, owed := .none, target := 0 }))).complete h

/-- 10 R313. -/
def execTsleep (texp : BitVec 5) (d : Dst) (p : BitVec 3) (s : State) : Out1 :=
  s.withHere (fun h => s.issueWait h .tsleep texp (p.setWidth 64) 0 d none id)

/-- 10 R316: a schedule fault of cause 5 at the tide of the issue, then a wait for the resumption. -/
def execTresync (d : Dst) (s : State) : Out1 :=
  s.withHere (fun h => s.issueWait h .tresync 31 0 0 d none (fun s =>
    if h.cur.head ∧ s.freeze = none then s.later s.time 0 (.scheduleFault 5) else s))

end Sys2Proof.Machine
end

