-- ==== Sys2Proof/Machine/Collective.lean ====
section
/-! DEFINITION. The collective class (13 R358 to R383): descriptors, leaves, contributions, rounds, the canonical order of
their combination, binned sums, results, and the instructions `xcopy.out`, `cwait`, `cnext` and `cstat`. -/
namespace Sys2Proof.Machine

/-! ### Descriptors (13 R359, R360) -/

/-- The physical address of a descriptor. -/
def State.descAt (s : State) (rdx : Nat) : Nat := (s.regs.cdbase.extractLsb' 18 34).toNat * 262144 + 64 * rdx

/-- A descriptor as it stands in the table (13 Table 13.1). -/
def State.readDesc (s : State) (rdx : Nat) : CDesc :=
  let v (o n : Nat) : Nat := s.dramVal (s.descAt rdx + o) n
  { rbase := BitVec.ofNat 64 (v 0 8), respa := v 8 8, stg := v 16 8, elems := v 0x18 4, cset := v 0x1C 2,
    nmem := v 0x1E 2, rank := v 0x20 2, lpe := v 0x22 2, lpr := v 0x24 2, op := BitVec.ofNat 8 (v 0x26 1) }

/-- The limits of 13 Table 13.1 and its reserved bits. -/
def State.descOk (s : State) (rdx : Nat) : Bool :=
  let d := s.readDesc rdx
  decide (d.rbase.toNat % 4096 = 0 ∧ d.respa % 64 = 0 ∧ d.stg % 65536 = 0 ∧ 64 ≤ d.elems ∧ d.elems ≤ 262144 ∧
    d.elems % 64 = 0 ∧ 1 ≤ d.nmem ∧ d.nmem ≤ 2048 ∧ d.rank < d.nmem ∧ 1 ≤ d.lpe ∧ d.lpe ≤ 4096 ∧ 1 ≤ d.lpr ∧
    d.lpr ≤ 4096) &&
    d.op.extractLsb' 4 4 == 0 && d.op.extractLsb' 0 2 != 3 && s.dramVal (s.descAt rdx + 0x27) 25 == 0

/-- The operation, the type and the mode of a descriptor. -/
def CDesc.isF32 (d : CDesc) : Bool := !d.op.getLsbD 2
def CDesc.push (d : CDesc) : Bool := d.op.getLsbD 3
def CDesc.redOp (d : CDesc) : RedOp :=
  if d.op.extractLsb' 0 2 = 1 then .min else if d.op.extractLsb' 0 2 = 2 then .max else .add
def CDesc.redTy (d : CDesc) : RedTy := if d.isF32 then .f32 else .i32

def State.coll? (s : State) (rdx : Nat) : Option Coll := s.colls.find? (fun c => c.rdx == rdx)

def State.modColl (s : State) (rdx : Nat) (f : Coll → Coll) : State :=
  { s with colls := s.colls.map (fun c => if c.rdx == rdx then f c else c) }

def State.armed (s : State) (rdx : Nat) : Bool := ((s.coll? rdx).map (·.armed)).getD false
def State.broken (s : State) (rdx : Nat) : Bool := ((s.coll? rdx).map (·.broken)).getD false

/-! ### Rounds (13 R366, R367) -/

/-- The round of a descriptor, opened when it is first named. -/
def State.openRound (s : State) (rdx r : Nat) : State :=
  match s.coll? rdx with
  | none => s
  | some c =>
    if c.rounds.any (fun x => x.r == r) then s
    else
      { s with
        nextId := s.nextId + 1
        colls := s.colls.map (fun x => if x.rdx == rdx then
          { x with rounds := x.rounds ++ [{ r := r, wid := s.nextId + 1, contrib := [], arrived := [], parts := [], dup := false,
                                            nodes := [], exps := [], committed := [], flags := 0, tide := none, closers := [] }] } else x) }

def Coll.round? (c : Coll) (r : Nat) : Option Round := c.rounds.find? (fun x => x.r == r)

def State.modRound (s : State) (rdx r : Nat) (f : Round → Round) : State :=
  s.modColl rdx (fun c => { c with rounds := c.rounds.map (fun x => if x.r == r then f x else x) })

/-- The round flags in the order of 13 R381: INV, OVF, INX, DUP, BIN. -/
def Round.word (x : Round) (bin : Bool) : Nat :=
  (x.flags &&& 7).toNat + (if x.dup then 8 else 0) + (if bin then 16 else 0)

/-- Number-format conditions as round flags (13 R364). -/
def roundFlags3 (f : Word) : BitVec 8 :=
  (if f &&& fINV ≠ 0 then 1 else 0) ||| (if f &&& fOVF ≠ 0 then 2 else 0) ||| (if f &&& fINX ≠ 0 then 4 else 0)

/-! ### Leaves (13 R362, R366) -/

/-- The leaf entry of a CTB for a descriptor. -/
def Ctb.leaf? (c : Ctb) (rdx : Nat) : Option Leaf := c.leaves.find? (fun l => l.rdx == rdx)

/-- Its entry, created when it is first used. -/
def Ctb.withLeaf (c : Ctb) (rdx : Nat) : Ctb :=
  if (c.leaf? rdx).isSome then c else { c with leaves := c.leaves ++ [{ rdx := rdx, lr := 0, obs := 0, flags := 0 }] }

def Ctb.modLeaf (c : Ctb) (rdx : Nat) (f : Leaf → Leaf) : Ctb :=
  { c with leaves := c.leaves.map (fun l => if l.rdx == rdx then f l else l) }

/-- The CTB has 16 entries and none for this descriptor (13 R361, R380). -/
def Ctb.leafFull (c : Ctb) (rdx : Nat) : Bool := decide (16 ≤ c.leaves.length) && (c.leaf? rdx).isNone

/-- Lexicographic order of leaf keys (13 R362). -/
def keyLt (a b : Nat × Nat × Nat) : Bool :=
  decide (a.1 < b.1 ∨ (a.1 = b.1 ∧ (a.2.1 < b.2.1 ∨ (a.2.1 = b.2.1 ∧ a.2.2 < b.2.2))))

/-- Insert a contribution, keys ascending. -/
def insertKey (k : Nat × Nat × Nat) (v : Word) : List ((Nat × Nat × Nat) × Word) → List ((Nat × Nat × Nat) × Word)
  | [] => [(k, v)]
  | x :: l => if keyLt k x.1 then (k, v) :: x :: l else x :: insertKey k v l

/-- The contributions to an element, by ascending key. -/
def Round.leaves (x : Round) (e : Nat) : List Word :=
  ((x.contrib.filter (fun c => c.elem == e)).foldl (fun l c => insertKey c.key c.val l) []).map (·.2)

/-- A contribution is counted (13 R362): duplicates and excess are discarded and set DUP. -/
def Round.take (x : Round) (lpe : Nat) (c : Contribution) : Round :=
  let here := x.contrib.filter (fun y => y.elem == c.elem)
  if here.any (fun y => y.key == c.key) || decide (lpe ≤ here.length) then { x with dup := true }
  else { x with contrib := x.contrib ++ [c] }

/-- Insert a landing among those of one tide, keys ascending. -/
def insertLanding (c : Contribution) : List Contribution → List Contribution
  | [] => [c]
  | x :: l => if keyLt c.key x.key then c :: x :: l else x :: insertLanding c l

/-- The chunks that contributions belong to. -/
def chunksOf (cs : List Contribution) : List Nat := once (cs.map (fun c => c.elem / 64))

/-! ### The canonical order (13 R363) -/

/-- f of 13 R363 on values with the round flags met so far. -/
def nodeF (d : CDesc) (a b : Int × BitVec 8) : Int × BitVec 8 :=
  let p := BitVec.ofInt 32 a.1
  let q := BitVec.ofInt 32 b.1
  let fl : Word := if d.redOp = .add ∧ d.isF32 then (fp32.add .rne p.toNat q.toNat).2 else 0
  ((redF d.redOp d.redTy p q).toNat, a.2 ||| b.2 ||| roundFlags3 fl)

/-- The member partial of an element (13 R363). -/
def memberVal (d : CDesc) (c : List Word) : Int × BitVec 8 :=
  (treeOf (nodeF d) 13 (c.map (fun v => ((v.toNat : Int), (0 : BitVec 8))))).getD (0, 0)

/-- The nodes [lo, hi) with lowest rank `r` of the tree over [a, a + n), as (lo, mid, hi), in ascending size (13 R372). -/
def treeChain (r : Nat) : Nat → Nat → Nat → List (Nat × Nat × Nat)
  | 0, _, _ => []
  | fuel + 1, a, n =>
    if n ≤ 1 then []
    else
      let p := pow2Below n
      (if r < a + p then treeChain r fuel a p else treeChain r fuel (a + p) (n - p)) ++
        (if r = a then [(a, a + p, a + n)] else [])

/-- The node that a member sends: the greatest with its rank lowest. -/
def CDesc.chain (d : CDesc) : List (Nat × Nat × Nat) := treeChain d.rank 12 0 d.nmem
def CDesc.topHi (d : CDesc) : Nat := match d.chain.getLast? with
  | some x => x.2.2
  | none => d.rank + 1

def Round.node? (x : Round) (k : NodeKind) (lo hi chunk : Nat) : Option NodeVal :=
  x.nodes.find? (fun v => v.kind == k && v.lo == lo && v.hi == hi && v.chunk == chunk)

def Round.addNode (x : Round) (v : NodeVal) : Round :=
  if (x.node? v.kind v.lo v.hi v.chunk).isSome then x else { x with nodes := x.nodes ++ [v] }

/-! ### Binned sums (13 R365) -/

/-- The exponent of a set of contributions: floor(log2 |x|) of the greatest; in place of an exponent, 3000 for a NaN, 2002
for both infinities, 2000 and 2001 for one, -999 for zeros of which one is +0, -1000 for zeros that are all -0. -/
def expOf (c : Nat) : Int :=
  if fp32.isNaN c then 3000
  else if fp32.low c = fp32.infCode then (if fp32.neg c then 2001 else 2000)
  else if fp32.low c = 0 then (if fp32.neg c then -1000 else -999)
  else
    let m := fp32.g.mag (fp32.low c)
    (Nat.log2 m.1 : Int) + m.2

/-- Exponents combined by max; both infinities together are 2002. -/
def expJoin (a b : Int) : Int :=
  if (a = 2000 ∧ b = 2001) ∨ (a = 2001 ∧ b = 2000) then 2002 else max a b

/-- x / u rounded to an integer, ties to even, with u = 2^(E - 71), and whether it is inexact. -/
def binOf (e : Int) (c : Nat) : Int × Bool :=
  let m := fp32.g.mag (fp32.low c)
  roundInt .rne (fp32.neg c) m.1 (m.2 - (e - 71))

/-- The bins of a set of contributions under the exponent: their sum; in a NaN's case the first NaN, -1 for none. -/
def binsOf (e : Int) (cs : List Nat) : Int × BitVec 8 :=
  if e = 3000 then
    match cs.find? fp32.isNaN with
    | some c => ((fp32.quiet c : Int), if cs.any fp32.isSNaN then 1 else 0)
    | none => (-1, 0)
  else if 1000 ≤ e ∨ e ≤ -900 then (0, 0)
  else
    cs.foldl (fun (a : Int × BitVec 8) c =>
      let r := binOf e c
      (a.1 + r.1, if r.2 then a.2 ||| 4 else a.2)) (0, 0)

/-- Bins of two sets, the lower ranks first. -/
def binJoin (e : Int) (a b : Int × BitVec 8) : Int × BitVec 8 :=
  (if e = 3000 then (if a.1 = -1 then b.1 else a.1) else a.1 + b.1, a.2 ||| b.2)

/-- The result of an element from its bins (13 R365). -/
def binResult (e : Int) (a : Int × BitVec 8) : Int × BitVec 8 :=
  if e = 3000 then a
  else if e = 2002 then (0x7FC00000, a.2 ||| 1)
  else if e = 2000 then (0x7F800000, a.2)
  else if e = 2001 then (0xFF800000, a.2)
  else if e = -1000 then (0x80000000, a.2)
  else if e = -999 then (0, a.2)
  else
    let r := if a.1 = 0 then ((0 : Nat), (0 : Word)) else fp32.round .rne (decide (a.1 < 0)) a.1.natAbs (e - 71)
    ((r.1 : Int), a.2 ||| roundFlags3 r.2)

/-! ### Forming nodes (13 R372) -/

/-- Elements of a chunk. -/
def chunkElems (size chunk : Nat) : List Nat := (List.range size).map (fun i => size * chunk + i)

/-- Every element of a chunk holds its LPE contributions. -/
def Round.full (x : Round) (lpe : Nat) (es : List Nat) : Bool :=
  es.all (fun e => (x.contrib.filter (fun c => c.elem == e)).length == lpe)

/-- Pair two nodes element by element. -/
def joinVals (f : Nat → Int × BitVec 8 → Int × BitVec 8 → Int × BitVec 8) (a b : NodeVal) : List Int × BitVec 8 :=
  let rs := ((a.vals.zip b.vals).zip (List.range a.vals.length)).map (fun (e : (Int × Int) × Nat) =>
    f e.2 (e.1.1, 0) (e.1.2, 0))
  (rs.map (·.1), rs.foldl (fun w r => w ||| r.2) (a.flags ||| b.flags))

/-- Combine along the chain as far as the right operands have come. -/
def Round.climb (x : Round) (k : NodeKind) (chunk now : Nat)
    (f : Nat → Int × BitVec 8 → Int × BitVec 8 → Int × BitVec 8) : List (Nat × Nat × Nat) → Round
  | [] => x
  | (lo, mid, hi) :: l =>
    match x.node? k lo mid chunk, x.node? k mid hi chunk with
    | some a, some b =>
      if b.ready ≤ now then
        let v := joinVals f a b
        (x.addNode { kind := k, lo := lo, hi := hi, chunk := chunk, vals := v.1, flags := v.2,
                     ready := now }).climb k chunk now f l
      else x
    | _, _ => x

/-- A chunk's member partial may be formed: 40 tides have passed since its last contribution landed (13 Table 13.5). -/
def Round.partDue (x : Round) (chunk now : Nat) : Bool := x.parts.any (fun p => p.chunk == chunk && decide (p.ready ≤ now))

/-- The exponents of 64 elements of this member's own contributions. -/
def Round.ownExp (x : Round) (chunk : Nat) : List Int :=
  (chunkElems 64 chunk).map (fun e => (x.leaves e).foldl (fun a w => expJoin a (expOf w.toNat)) (-1000))

def Round.exp? (x : Round) (chunk : Nat) : Option ExpVal := x.exps.find? (fun e => e.chunk == chunk)

/-- Change the exponents of a chunk. -/
def Round.modExp (x : Round) (chunk : Nat) (f : ExpVal → ExpVal) : Round :=
  { x with exps := f ((x.exp? chunk).getD { chunk := chunk, own := none, got := [] }) :: x.exps.filter (fun y => y.chunk != chunk) }

/-- Exponents come on a link, once (13 R371). -/
def ExpVal.join (e : ExpVal) (link ready : Nat) (vs : List Int) : ExpVal :=
  if e.got.any (fun g => g.1 == link) then e else { e with got := e.got ++ [(link, ready, vs)] }

/-- The exponents of links that are ready. -/
def ExpVal.come (e : ExpVal) (now : Nat) : List (List Int) :=
  (e.got.filter (fun g => decide (g.2.1 ≤ now))).map (fun g => g.2.2)

/-- The members whose exponents come up to this one: in push mode the switch joins them (13 R372, R373). -/
def CDesc.below (d : CDesc) : Nat := if d.push then 0 else d.chain.length

/-- Own exponents are there, and those of the members below; and, but for the root, those that come down to this member
(notes/assumptions/24). -/
def ExpVal.upDone (e : ExpVal) (d : CDesc) (now : Nat) : Bool := e.own.isSome && decide (d.below ≤ (e.come now).length)
def ExpVal.final (e : ExpVal) (d : CDesc) (now : Nat) : Bool :=
  e.own.isSome && decide (d.below + (if d.rank = 0 ∧ d.push = false then 0 else 1) ≤ (e.come now).length)

/-- The exponents as joined so far. -/
def ExpVal.joined (e : ExpVal) (now : Nat) : List Int :=
  (e.come now).foldl (fun a vs => (a.zip vs).map (fun (x : Int × Int) => expJoin x.1 x.2))
    (e.own.getD (List.replicate 64 (-1000)))

/-- This member's part of one chunk of 64 elements in tree mode: its partial, then what it can combine; the root is the
result in direct mode. -/
def Round.formTree (x : Round) (d : CDesc) (chunk now : Nat) : Round :=
  let es := chunkElems 64 chunk
  let x1 :=
    if x.partDue chunk now && (x.node? .tree d.rank (d.rank + 1) chunk).isNone then
      let vs := es.map (fun e => memberVal d (x.leaves e))
      x.addNode { kind := .tree, lo := d.rank, hi := d.rank + 1, chunk := chunk, vals := vs.map (·.1),
                  flags := vs.foldl (fun w r => w ||| r.2) 0, ready := now }
    else x
  if d.push then x1
  else
    let x2 := x1.climb .tree chunk now (fun _ => nodeF d) d.chain
    match x2.node? .tree 0 d.nmem chunk with
    | some v => x2.addNode { v with kind := .result }
    | none => x2

/-- As `formTree`, in binned mode: exponents of the 64 elements, then bins by 16 elements, then the result. -/
def Round.formBins (x : Round) (d : CDesc) (chunk now : Nat) : Round :=
  if !x.partDue chunk now then x
  else
    let x1 := x.modExp chunk (fun e => if e.own.isSome then e else { e with own := some (x.ownExp chunk) })
    match x1.exp? chunk with
    | none => x1
    | some ex =>
      if !ex.final d now then x1
      else
        let vals := ex.joined now
        let x2 := (List.range 4).foldl (fun (y : Round) i =>
          let c16 := 4 * chunk + i
          let exp (k : Nat) : Int := vals.getD (16 * i + k) (-1000)
          let own := ((chunkElems 16 c16).zip (List.range 16)).map (fun (e : Nat × Nat) =>
            binsOf (exp e.2) ((y.leaves e.1).map (·.toNat)))
          let y1 := y.addNode { kind := .bins, lo := d.rank, hi := d.rank + 1, chunk := c16, vals := own.map (·.1),
                                flags := own.foldl (fun w r => w ||| r.2) 0, ready := now }
          if d.push then y1 else y1.climb .bins c16 now (fun k => binJoin (exp k)) d.chain) x1
        let roots := (List.range 4).filterMap (fun i => x2.node? .bins 0 d.nmem (4 * chunk + i))
        if roots.length = 4 ∧ d.push = false then
          let accs := roots.flatMap (fun v => v.vals)
          let rs := ((accs.zip vals).map (fun (e : Int × Int) => binResult e.2 (e.1, 0)))
          x2.addNode { kind := .result, lo := 0, hi := d.nmem, chunk := chunk, vals := rs.map (·.1),
                       flags := rs.foldl (fun w r => w ||| r.2) (roots.foldl (fun w v => w ||| v.flags) 0), ready := now }
        else x2

/-- The staging address of a word of an element for a leaf and a bank (13 R359: the layout is the device's own). -/
def CDesc.stagePa (d : CDesc) (e leaf bank : Nat) : Nat :=
  let area := (2 * d.elems * (4 * d.lpe + 32) + 65535) / 65536 * 65536
  d.stg + 64 * (Config.stageOffset e leaf bank % (area / 64)) + 4 * (e % 16)

/-- Break a descriptor. -/
def State.breakDesc (s : State) (rdx : Nat) : State := s.modColl rdx (fun c => { c with broken := true })

/-- The landings of the present tide are counted, in ascending key (13 R362); a chunk that becomes full has its member
partial ready 40 tides later. -/
def State.countLandings (s : State) (rdx r : Nat) : State :=
  match (s.coll? rdx).bind (fun c => (c.round? r).map (fun x => (c.desc.lpe, x))) with
  | none => s
  | some (lpe, x) =>
    let new := x.arrived.foldl (fun l c => insertLanding c l) []
    let y := { (new.foldl (fun (x : Round) c => x.take lpe c) x) with arrived := [] }
    let full := (chunksOf new).filter (fun n => y.full lpe (chunkElems 64 n) && !y.parts.any (fun p => p.chunk == n))
    let z := { y with parts := y.parts ++ full.map (fun n => { chunk := n, ready := s.time + 40, fails := 0 }) }
    full.foldl (fun (s : State) n => s.later (s.time + 40) 0 (.collectiveCombine rdx n)) (s.modRound rdx r (fun _ => z))

/-- The staging granules of a chunk's contributions. -/
def Round.stageGrans (x : Round) (d : CDesc) (chunk : Nat) : List Nat :=
  once ((x.contrib.filter (fun c => c.elem / 64 == chunk)).map (fun c => d.stagePa c.elem (16 * c.key.1 + c.key.2.1) (x.r % 2) / 64))

/-- The first of several granules whose read fails. -/
def State.readAll (s : State) (tries : Nat) (gs : List Nat) : Option Nat × State :=
  gs.foldl (fun (a : Option Nat × State) g =>
    let (ok, s1) := a.2.attempts g tries
    (if ok || a.1.isSome then a.1 else some g, s1)) (none, s)

/-- A staging read that fails for the `n`-th time (13 R378, 10 R287, R307): the first is retried in this frame's retry slot; a
second is a schedule fault, during which the granule is read again at most 8 times; then one retry follows in each of 8
frames, and after them the descriptor is broken. What is answered is the tide of the next read and the class of its event. -/
def State.stageFailed (s : State) (rdx g n : Nat) : Option (Nat × Nat) × State :=
  let key := (channelOf (64 * g), s.time / 8192)
  if n = 0 ∧ s.time < retrySlot s.time g ∧ s.phys.retried.contains key = false then
    (some (retrySlot s.time g, 0), { s with phys := { s.phys with retried := key :: s.phys.retried } })
  else if n ≤ 1 then (some (s.time + 40, 3), s.later (s.time + 40) 0 (.scheduleFault 1))
  else if n < 10 then (some (retrySlot (s.time + 8192) g, 0), s)
  else (none, (s.breakDesc rdx).report (.report 0x378 rdx (channelOf (64 * g))))

/-- Read the staging of a chunk's partial where it is due and not yet formed; a failure puts it off. -/
def State.readStage (s : State) (rdx chunk : Nat) (c : Coll) (x : Round) : State :=
  match x.parts.find? (fun p => p.chunk == chunk && decide (p.ready ≤ s.time)) with
  | none => s
  | some p =>
    if (x.node? .tree c.desc.rank (c.desc.rank + 1) chunk).isSome || (x.exp? chunk).any (fun e => e.own.isSome) then s
    else
      match s.readAll (if p.fails = 2 then 8 else 1) (x.stageGrans c.desc chunk) with
      | (none, s1) => s1
      | (some g, s1) =>
        let (at_, s2) := s1.stageFailed rdx g p.fails
        let fails := if p.fails = 0 ∧ (at_.map (·.2)) = some 3 then 2 else p.fails + 1
        let s3 := s2.modRound rdx x.r (fun y => { y with parts := y.parts.filterMap (fun q =>
          if q.chunk == chunk then at_.map (fun t => { q with ready := t.1, fails := fails }) else some q) })
        match at_ with
        | some (t, cls) => s3.later t cls (.collectiveCombine rdx chunk)
        | none => s3

/-- What a chunk of a descriptor's rounds can form now; a new result is committed 24 tides later (13 Table 13.5). -/
def State.formChunk (s : State) (rdx chunk : Nat) : State :=
  match s.coll? rdx with
  | none => s
  | some c =>
    let rounds := c.rounds.map (fun x => if c.bin then x.formBins c.desc chunk s.time else x.formTree c.desc chunk s.time)
    let s1 := s.modColl rdx (fun c => { c with rounds := rounds })
    let due := rounds.any (fun x => x.nodes.any (fun v => v.kind == .result && v.chunk == chunk) &&
      !x.committed.contains chunk)
    if due then s1.later (s1.time + 24) 0 (.resultCommit rdx chunk) else s1

/-- COLLECTIVE_COMBINE (13 R362, R363, R372): landings of the tide are counted once all have come, the staging of what is due
is read, and the nodes that have their operands are formed. -/
def execCollectiveCombine (rdx chunk : Nat) (s : State) : Out1 :=
  match s.coll? rdx with
  | none => .next s
  | some c =>
    let more := s.agenda.any (fun e => decide (e.tide ≤ s.time) && (match e.task with
      | .op (.dramWriteCommit _ _) => true
      | _ => false))
    let s1 := if more then s else c.rounds.foldl (fun (s : State) x => s.countLandings rdx x.r) s
    let s2 := match s1.coll? rdx with
      | some c => c.rounds.foldl (fun (s : State) x => s.readStage rdx chunk c x) s1
      | none => s1
    .next (s2.formChunk rdx chunk)

/-- Commit 64 elements into the result region, each word fresh until a view holds the round (13 R367, R379). -/
def State.commitWords (s : State) (pa wid : Nat) (vs : List Int) : State :=
  let bs := vs.flatMap (fun v => toBytes 4 (BitVec.ofInt 32 v).toNat)
  let news := (wordsOf pa bs.length).map (fun w =>
    ({ addr := w, old := BitVec.ofNat 64 (s.dramVal w 8), mask := 0xFF, by_ := .engine wid, path := 4, stamp := 0 } : Fresh))
  { s.dramWrite pa bs with dfresh := s.dfresh ++ news }

/-- A round that is complete and left by LPR leaves is closed (13 R367); its values stay until they are sent (13 R368). -/
def Coll.close (c : Coll) : Coll :=
  match c.round? c.openR with
  | some x => if x.tide.isSome && decide (c.desc.lpr ≤ x.closers.length) then { c with openR := c.openR + 1 } else c
  | none => c

/-- The granules that hold a value of a round: of the result region, or of staging (13 R359, R367, R371). -/
def CDesc.valueGrans (d : CDesc) (kind chunk r : Nat) : List Nat :=
  if kind = 2 then (List.range 4).map (fun i => (d.respa + 4 * d.elems * (r % 2) + 256 * chunk) / 64 + i)
  else (List.range 4).map (fun i => d.stagePa (64 * chunk + 16 * i) 0 (r % 2) / 64)

/-- RESULT_COMMIT (13 R367). -/
def execResultCommit (rdx chunk : Nat) (s : State) : Out1 :=
  match s.coll? rdx with
  | none => .next s
  | some c =>
    let d := c.desc
    .next (c.rounds.foldl (fun s x =>
      match x.nodes.find? (fun v => v.kind == .result && v.chunk == chunk && decide (v.ready + 24 ≤ s.time)) with
      | none => s
      | some v =>
        if x.committed.contains chunk then s
        else
          let s1 := (s.useSlots 0x0500 (d.valueGrans 2 chunk x.r)).commitWords (d.respa + 4 * d.elems * (x.r % 2) + 256 * chunk)
            x.wid v.vals
          let f (y : Round) : Round :=
            { y with committed := chunk :: y.committed, flags := y.flags ||| v.flags,
                     tide := if y.committed.length + 1 = d.elems / 64 then some s.time else none }
          (s1.modRound rdx x.r f).modColl rdx Coll.close) s)

/-! ### Arming and breaking (13 R369) -/

/-- A CTB that has not ended holds a leaf entry for the descriptor. -/
def State.leafHeld (s : State) (rdx : Nat) : Bool :=
  s.reaches.any (fun r => r.ctbs.any (fun c => c.2.ended.isNone && (c.2.leaf? rdx).isSome))

/-- DESCRIPTOR_ARM: OR = 0, flags, staging contents and any break cleared. -/
def execDescriptorArm (rdx : Nat) (s : State) : Out1 :=
  if s.leafHeld rdx then .next s
  else
    let c : Coll := { rdx := rdx, desc := s.readDesc rdx, armed := true, broken := false, bin := false, openR := 0,
                      rounds := [] }
    .next { s with
      colls := s.colls.filter (fun x => x.rdx != rdx) ++ [c]
      links := s.links.map (fun (k : Link) => { k with
        sent := k.sent.filter (fun v => v.rdx != rdx)
        lastOut := k.lastOut.filter (fun f => !f.what.any (fun v => v.rdx == rdx)) }) }

/-- DESCRIPTOR_BREAK. -/
def execDescriptorBreak (rdx : Nat) (s : State) : Out1 := .next (s.breakDesc rdx)

/-! ### Contributions (13 R358, R361) -/

/-- Check 4's additions for contributions (13 R361). -/
def State.contribBad (s : State) (h : Here) (rdx : Nat) (gs : List RowSeg) : Option (Nat × DWord) :=
  match gs.find? (fun g => h.launch.redOf g.va != some rdx) with
  | some g => some (cAccess, BitVec.ofNat 64 g.va)
  | none =>
    let first := ((gs.head?).map (·.va)).getD 0
    if !s.armed rdx || h.ctb.leafFull rdx then some (cAccess, BitVec.ofNat 64 first)
    else
      match s.coll? rdx with
      | none => some (cAccess, BitVec.ofNat 64 first)
      | some c =>
        ((segWords gs).find? (fun g => decide (g.va < c.desc.rbase.toNat ∨
          c.desc.rbase.toNat + 4 * c.desc.elems ≤ g.va))).map (fun g => (cAccess, BitVec.ofNat 64 g.va))

/-- A contribution (13 R361): its words go to staging through the copy slots of the core, in the round of the CTB's leaf
entry. -/
def State.contribute (s : State) (h : Here) (rdx p : Nat) (r : Rect) (t : RowDesc) (gs : List RowSeg) : State :=
  let s0 := s.modC h (fun c => c.withLeaf rdx)
  match s.coll? rdx with
  | none => s0.refuseX h p 6
  | some c =>
    if c.broken then s0.refuseX h p 6
    else
      let lr := ((h.ctb.leaf? rdx).map (·.lr)).getD 0
      let ps : List Piece := (segWords gs).map (fun g =>
        let e := (g.va - c.desc.rbase.toNat) / 4
        { h.piece false g with row := e, dram := c.desc.stagePa e (16 * h.q + h.cur.slot) (lr % 2) })
      let x := s0.newXfer h (.contribution rdx) p r.ga (BitVec.ofNat 64 lr) t { n := 0, rowb := 0, pitch := 0 } true
      let bin := (gs.head?.bind (fun g => (h.launch.runs g.va).find? (·.red))).map (·.bin)
      let sr := (s0.openRound rdx lr).modColl rdx (fun c => { c with bin := bin.getD c.bin })
      match sr.offer { x with id := s0.nextId + 2 } (s.fenceFloor h) (s.fenceFloorAt h) ps with
      | .ok (pr, s1) => ({ s1 with nextId := s1.nextId + 1 }).issued h p (BitVec.ofNat 64 pr) (some (s0.nextId + 2))
      | .error c => s0.refuseX h p c

/-- 10 R309, R310; into RED pages 13 R358, R361. -/
def execXcopyOut (p : BitVec 3) (a b : BitVec 6) (t : RowDesc) (s : State) : Out1 :=
  s.withHere (fun h =>
    let r := h.rect a b t
    match h.rectBad r with
    | some (c, x) => s.raise h c x
    | none =>
      let gs := h.rectSegs r
      match s.segsBad h true false gs with
      | some (c, x) => s.raise h c x
      | none =>
        match gs.findSome? (fun g => h.launch.redOf g.va) with
        | some rdx =>
          match s.contribBad h rdx gs with
          | some (c, x) => s.raise h c x
          | none => s.contribute h rdx p.toNat r t gs
        | none => s.offerRows h .copyOut p.toNat r t (h.k b) (h.rowPieces gs))

/-- A contribution's word lands (13 R362): it is counted in its round after the other landings of the tide. -/
def State.contribLand (s : State) (x : Xfer) (rdx e : Nat) (v : Word) : State :=
  (s.modRound rdx x.b.toNat (fun y =>
    { y with arrived := y.arrived ++ [{ key := (x.q, x.slot, x.gen), elem := e, val := v }] })).later s.time 3
    (.collectiveCombine rdx (e / 64))

/-! ### Instructions (13 R380 to R383) -/

/-- The descriptor that Uni(A) names, 0 where its page is no page of one. -/
def Here.collOf (h : Here) (a : BitVec 6) : Nat := (h.launch.redOf (h.k a).toNat).getD 0

/-- The checks of 13 R380: the cause and TRAPADDR. -/
def State.collBad (s : State) (h : Here) (a : BitVec 6) : Option (Nat × DWord) :=
  let x := h.k a
  if !h.inSpace .global x then some (cAperture, x)
  else if (h.launch.phys x.toNat).isNone then some (cMapMiss, x)
  else
    match h.launch.redOf x.toNat with
    | none => some (cAccess, x)
    | some rdx => if !s.armed rdx || h.ctb.leafFull rdx then some (cAccess, x) else none

/-- The executing CTB holds an entry for a descriptor from now on (13 R366). -/
def State.useLeaf (s : State) (h : Here) (rdx : Nat) : State := s.modC h (fun c => c.keepBefore.withLeaf rdx)

/-- 13 R381: the issue; the wait is decided in Waits.lean. -/
def execCwait (texp : BitVec 5) (d : Dst) (a : BitVec 6) (s : State) : Out1 :=
  s.withHere (fun h => s.issueWait h .coll texp (BitVec.ofNat 64 (h.collOf a)) 0 d (s.collBad h a)
    (fun s => s.useLeaf h (h.collOf a)))

/-- 13 R382: the entry advances once at a position, however many groups issue it, which its planned tide tells; each position of
a handler is one of its own. -/
def execCnext (a : BitVec 6) (s : State) : Out1 :=
  s.withHere (fun h =>
    match s.collBad h a with
    | some (c, x) => s.raise h c x
    | none =>
      let rdx := h.collOf a
      let s1 := s.useLeaf h rdx
      match h.ctb.leaf? rdx with
      | none => s1.raise h cIllegalOperand (h.k a)
      | some l =>
        let mark := if h.cur.handler then 0 else 2 + h.planned
        if l.obs = mark ∧ h.cur.handler = false then s1.complete h
        else if l.obs ≠ 1 then s1.raise h cIllegalOperand (h.k a)
        else
          let s2 := s1.modC h (fun c => c.modLeaf rdx (fun l => { l with lr := l.lr + 1, obs := mark }))
          let s3 := s2.modRound rdx l.lr (fun y =>
            if y.closers.contains (h.q, h.cur.slot, h.reach.gen) then y
            else { y with closers := (h.q, h.cur.slot, h.reach.gen) :: y.closers })
          (s3.modColl rdx Coll.close).complete h)

/-- 13 R383. -/
def cstatWord (l : Leaf) (broken : Bool) : Nat :=
  l.lr % 65536 + 65536 * (l.flags % 32) + (if l.obs = 1 then 2 ^ 24 else 0) + (if broken then 2 ^ 25 else 0)

/-- The leaf entry of a CTB as earlier positions left it (13 R383). -/
def Ctb.leafBefore (c : Ctb) (rdx : Nat) : Leaf :=
  (((c.before.map (fun b => b.2)).getD c.leaves).find? (fun l => l.rdx == rdx)).getD { rdx := rdx, lr := 0, obs := 0, flags := 0 }

/-- 13 R383. -/
def execCstat (d : Dst) (a : BitVec 6) (s : State) : Out1 :=
  s.withHere (fun h =>
    let rdx := h.collOf a
    s.putChecked h d false (BitVec.ofNat 64 (cstatWord (h.ctb.leafBefore rdx) (s.broken rdx))) (s.collBad h a)
      (fun s => s.useLeaf h rdx))

end Sys2Proof.Machine
end

