-- ==== Sys2Proof/Machine/Engine.lean ====
section
/-! DEFINITION. The copy and gather engines at work (10 R287 to R311, R457, R459): slots, landings, commits, failed reads
and their retries, batches of indexed rows, and requests of the engine on its own behalf. -/
namespace Sys2Proof.Machine

/-! ### Granules -/

def State.modGran (s : State) (x gr : Nat) (f : Granule → Granule) : State :=
  s.modXfer x (fun y => { y with grans := y.grans.modify gr f })

/-- Bytes of DRAM as a transfer with a view reads them: a word of a collective result that the view does not hold is old
or new (13 R379). -/
def State.dramRead (s : State) (a n : Nat) (view : List Seen) : List Byte × State :=
  if s.dfresh.any (fun f => decide (a / 8 * 8 ≤ f.addr) && decide (f.addr < a + n) && !f.seenBy view none f.addr) then
    (wordParts a n).foldl (fun (x : List Byte × State) p =>
      let w := p.1 / 8 * 8
      let r := pickWord (fun f b => f.seenBy view none b) w x.2.dfresh.reverse
        { word := BitVec.ofNat 64 (x.2.dramVal w 8), left := 0xFF, free := x.2.free, got := [] }
      (x.1 ++ ((toBytes 8 r.word.toNat).drop (p.1 - w)).take p.2, { x.2 with free := r.free })) ([], s)
  else (s.dramBytes a n, s)

/-- Tides from a read slot to the landing (10 Table 10.4). -/
def Xfer.readLat (x : Xfer) (num : Nat) : Nat := 96 + 48 * farFrom (x.q / 16) (channelOf (64 * num))

/-- Every granule is done, and no batch is left. -/
def Xfer.complete (x : Xfer) : Bool := x.grans.all (·.done) && x.placed

/-- What the landing of a whole transfer lets go on: staged contributions, writebacks and saves. -/
def State.finishXfer (s : State) (id : Nat) : State :=
  match s.xfer? id with
  | none => s
  | some x =>
    if !x.complete || x.landed then s
    else
      let s1 := s.modXfer id (fun y => { y with landed := true })
      match x.kind with
      | .red _ _ _ =>
        let s2 := { s1 with staged := s1.staged.map (fun (e : Staged) => if e.xid == id then { e with landed := true } else e) }
        (s2.fires.filter (fun (f : Fire) => f.xids.contains id)).foldl (fun (s : State) (f : Fire) => s.later s.time 0 (.stagedCombine f.id)) s2
      | .writeback l _ _ => s1.later s1.time 0 (.launchComplete l)
      | .save => (s1.later s1.time 0 (.launchComplete x.launch)).later s1.time 1 (.ctbSave (x.q / 16) x.slot)
      | .restore => s1.later s1.time 1 (.ctbRestore (x.q / 16) x.slot)
      | .preload l _ _ => (s1.later s1.time 0 (.preparationPromiseMet l)).later s1.time 1 (.ctbRestore (x.q / 16) x.slot)
      | _ => if (s1.ctbLin? x.launch x.lin).any (fun c => c.ended.isSome) then
          s1.later s1.time 0 (.writebackStart x.launch x.lin) else s1

/-- A granule is done. -/
def State.doneGran (s : State) (x gr : Nat) : State := (s.modGran x gr (fun g => { g with done := true })).finishXfer x

/-! ### Slots, landings and commits -/

/-- A read attempt at a slot: the data, and their landing; or a failure, detected 40 tides later. -/
def State.tryRead (s : State) (x : Xfer) (gr : Nat) (g : Granule) (fail : Instr) : State :=
  let (bad, s1) := s.readFails g.num
  if bad then s1.later (s1.time + 40) 0 fail
  else
    let (bs, s2) := s1.dramRead (64 * g.num) 64 x.view
    (s2.modGran x.id gr (fun g => { g with data := bs })).later (s2.time + x.readLat g.num) 0 (.granuleLanding x.id gr)

/-- What a write's slot carries: the bytes of its pieces, in order; a save's pieces hold them. -/
def State.gatherBytes (s : State) (x : Xfer) (g : Granule) : List Byte × Bool × State :=
  if x.kind = .save then (g.pieces.flatMap (·.old), false, s) else
  g.pieces.foldl (fun (a : List Byte × Bool × State) p =>
    let (bs, lost, s1) := a.2.2.xferRead p.core p.scr p.len x.kind.path x.view
    (a.1 ++ bs, a.2.1 || lost, s1)) ([], false, s)

/-- DRAM_SLOT_ACCESS (10 R290, R297): a read of a granule, or the read of the source bytes that a write carries. -/
def execDramSlotAccess (x gr : Nat) (s : State) : Out1 :=
  match s.xfer? x with
  | none => .next s
  | some t =>
    match t.grans[gr]? with
    | none => .next s
    | some g =>
      if t.kind.inbound then .next (s.tryRead t gr g (.eccFailure x gr))
      else
        let (bs, lost, s1) := s.gatherBytes t g
        let s2 := (s1.modGran x gr (fun g => { g with data := bs })).later (s1.time + 24) 0 (.dramWriteCommit x gr)
        .next (if lost then s2.xferLost t else s2)

/-- A transfer whose data stand ready until its CTB becomes resident: a preload or a restore (03 R99, R111). -/
def XKind.kept : XKind → Bool
  | .preload _ _ _ => true
  | .restore => true
  | _ => false

/-- GRANULE_LANDING (10 Table 10.4, R299, R457). -/
def execGranuleLanding (x gr : Nat) (s : State) : Out1 :=
  match s.xfer? x with
  | none => .next s
  | some t =>
    match t.grans[gr]? with
    | none => .next s
    | some g =>
      if t.kind.kept then .next (s.doneGran x gr) else
      let r := g.pieces.foldl (fun (a : Bool × State) p =>
        let (l, s1) := a.2.xferWrite t p.row p.core p.scr ((g.data.drop (p.dram % 64)).take p.len)
        (a.1 || l, s1)) (false, s)
      let s1 := if r.1 then r.2.xferLost t else r.2
      .next (s1.doneGran x gr)

/-- A writeback of a higher (CTB, entry) has written a byte of the same launch (03 R91). -/
def State.outranked (s : State) (x : Xfer) (a : Nat) : Bool :=
  match x.kind with
  | .writeback l n e =>
    s.xfers.any (fun y => match y.kind with
      | .writeback l2 n2 e2 => l2 == l && decide (n < n2 ∨ (n = n2 ∧ e < e2)) &&
          y.grans.any (fun g => g.done && g.pieces.any (fun p => decide (p.dram ≤ a) && decide (a < p.dram + p.len)))
      | _ => false)
  | _ => false

/-- Where two rows of an `xscatter.any` meet, any of their bytes may stand (10 R311). -/
def State.anyBytes (s : State) (x : Xfer) (row a : Nat) (bs : List Byte) : List Byte × State :=
  match x.kind with
  | .scatter true =>
    (bs.zip (List.range bs.length)).foldl (fun (r : List Byte × State) (e : Byte × Nat) =>
      let b := a + e.2
      if x.grans.any (fun g => g.done && g.pieces.any (fun p => p.row != row && decide (p.dram ≤ b) &&
          decide (b < p.dram + p.len))) then
        (r.1 ++ [if Config.laterRow r.2.free then e.1 else r.2.dramByte b], { r.2 with free := r.2.free + 1 })
      else (r.1 ++ [e.1], r.2)) ([], s)
  | _ => (bs, s)

/-- A later transfer of the same engine, or a later row of an ordered one, has written a byte of DRAM (10 R299). Of two
contributions that are combined neither displaces the other: `comb` says that this write is one. -/
def State.outdone (s : State) (x : Xfer) (row a : Nat) (comb : Bool) : Bool :=
  s.xfers.any (fun y => y.q == x.q && y.kind.path == x.kind.path && !y.kind.inbound && decide (x.id ≤ y.id) &&
    y.grans.any (fun g => g.done && g.pieces.any (fun p => !(comb && p.comb) && decide (p.dram ≤ a) && decide (a < p.dram + p.len) &&
      (decide (x.id < y.id) || (x.kind != .scatter true && decide (row < p.row))))))

/-- The words of a piece combined into DRAM (10 R302), but those that a later write has overtaken (R299). -/
def State.combineWords (s : State) (x : Xfer) (row a : Nat) : List Byte → Nat → State
  | _, 0 => s
  | bs, n + 1 =>
    match x.kind with
    | .red op ty _ =>
      if s.outdone x row a true then s.combineWords x row (a + 4) (bs.drop 4) n
      else
        let old := BitVec.ofNat 32 (s.dramVal a 4)
        let c := BitVec.ofNat 32 (ofBytes (bs.take 4))
        (s.dramWrite a (toBytes 4 (redF op ty old c).toNat)).combineWords x row (a + 4) (bs.drop 4) n
    | _ => s

/-- Write those bytes of DRAM that no write of the same engine or list has overtaken. -/
def State.writeLast (s : State) (x : Xfer) (row a : Nat) (bs : List Byte) : State :=
  let past (s : State) (b : Nat) : Bool := s.outranked x b || s.outdone x row b false
  if (List.range bs.length).any (fun i => past s (a + i)) then
    (bs.zip (List.range bs.length)).foldl (fun s (e : Byte × Nat) =>
      if past s (a + e.2) then s else s.dramWrite (a + e.2) [e.1]) s
  else s.dramWrite a bs

/-- One piece of a write reaches DRAM. -/
def State.commitPiece (s : State) (x : Xfer) (p : Piece) (bs : List Byte) : State :=
  match x.kind with
  | .contribution rdx => (s.writeLast x p.row p.dram bs).contribLand x rdx p.row (BitVec.ofNat 32 (ofBytes bs))
  | _ =>
    if p.comb then s.combineWords x p.row p.dram bs (p.len / 4)
    else
      let (b1, s1) := s.anyBytes x p.row p.dram bs
      s1.writeLast x p.row p.dram b1

/-- DRAM_WRITE_COMMIT (10 Table 10.4): the pieces of a granule in row order. -/
def execDramWriteCommit (x gr : Nat) (s : State) : Out1 :=
  match s.xfer? x with
  | none => .next s
  | some t =>
    match t.grans[gr]? with
    | none => .next s
    | some g =>
      let r := g.pieces.foldl (fun (a : List Byte × State) p =>
        (a.1.drop p.len, a.2.commitPiece t p (a.1.take p.len))) (g.data, s)
      .next (r.2.doneGran x gr)

/-! ### Failed reads (10 R287, R307) -/

/-- ECC_FAILURE (10 R287): the first failure of a granule is retried in this frame's retry slot, which serves one; any
other is a schedule fault. -/
def execEccFailure (x gr : Nat) (s : State) : Out1 :=
  match s.xfer? x with
  | none => .next s
  | some t =>
    match t.grans[gr]? with
    | none => .next s
    | some g =>
      let key := (channelOf (64 * g.num), s.time / 8192)
      if g.fails = 0 ∧ s.phys.retried.contains key = false then
        let s1 := s.modGran x gr (fun g => { g with fails := 1 })
        .next ({ s1 with phys := { s1.phys with retried := key :: s1.phys.retried } }.later (retrySlot s.time g.num) 0
          (.dramRetry x gr))
      else .next ((s.modGran x gr (fun g => { g with fails := 2 })).later s.time 0 (.scheduleFault 1))

/-- DRAM_RETRY (10 R287). -/
def execDramRetry (x gr : Nat) (s : State) : Out1 :=
  match s.xfer? x with
  | none => .next s
  | some t =>
    match t.grans[gr]? with
    | none => .next s
    | some g => .next (s.tryRead t gr g (.eccFailure x gr))

/-- Some granule of a transfer is still unreadable (10 R307): `fails` of 10 and more counts its frames of failure. -/
def Xfer.withUnreadable (x : Xfer) : Xfer := { x with unreadable := x.grans.any (fun g => decide (10 ≤ g.fails) && !g.done) }

/-- The planned landing of a retry in the retry slot of the frame that begins now (10 R307): in the planned frame of the issuer,
or where its planned clock is not at the beginning of one, the planned tide at which the next frame finds it. -/
def State.retryLand (s : State) (x : Xfer) (num : Nat) : Nat :=
  let here := retrySlot s.time num + x.readLat num
  match (if x.preg.isSome then s.issuerOf x else none) with
  | none => here
  | some (r, l) =>
    let p := s.plannedOf r l s.time
    let n := s.plannedOf r l (s.time + 8192)
    if !r.resident then p else if p % 8192 = 0 ∧ n = p + 8192 then p + (here - s.time) else n

/-- The retry in a frame moves a granule's planned landing and revises the promise (10 R307). -/
def State.revise (s : State) (x : Xfer) (gr num : Nat) : State :=
  let land := s.retryLand x num
  let s1 := s.modXfer x.id (fun y =>
    let z := { y with grans := y.grans.modify gr (fun g => { g with land := land }) }
    if y.promise < land then { z with promise := land, passed := y.promise } else z)
  match s1.xfer? x.id, x.preg with
  | some y, some p => s1.modIssuer x (fun g =>
      if g.pTrack.getD p none = some x.id then g.setP p (BitVec.ofNat 64 y.promise) (some x.id) else g)
  | _, _ => s1

/-- The transfer completes without the granule (10 R307): zeros, LOST, and a retirement request to the host; a
contribution's descriptor is broken (13 Table 13.8). -/
def State.giveUp (s : State) (x : Xfer) (gr : Nat) (g : Granule) : State :=
  let s1 := if x.kind.kept then s.modGran x.id gr (fun g => { g with data := List.replicate 64 0 })
    else (g.pieces.foldl (fun (a : Bool × State) p =>
      a.2.xferWrite x p.row p.core p.scr (List.replicate p.len 0)) (false, s)).2
  let s2 := (s1.xferLost x).report (.report 0x307 (channelOf (64 * g.num)) 0)
  let s3 := match x.kind with
    | .contribution rdx => s2.breakDesc rdx
    | _ => s2
  let s4 := s3.modIssuer x (fun h => match x.preg with
    | some p => if h.pTrack.getD p none = some x.id then h.setP p (refusedP 5) none else h
    | none => h)
  ((s4.modGran x.id gr (fun g => { g with done := true })).modXfer x.id Xfer.withUnreadable).finishXfer x.id

/-- GRANULE_RETRY_FRAME (10 R307): as a frame begins, the promise is revised to the landing of its retry, so that who waits for
the transfer finds the old promise missed and the p register revised; then one retry in the frame's retry slot. `fails` counts
10 and one for each frame of failure. A retry that finds the slot of its frame used waits for the next frame
(notes/assumptions/23). -/
def execGranuleRetryFrame (x gr : Nat) (s : State) : Out1 :=
  match s.xfer? x with
  | none => .next s
  | some t =>
    match t.grans[gr]? with
    | none => .next s
    | some g =>
      if frameOff s.time = 0 then .next ((s.revise t gr g.num).later (retrySlot s.time g.num) 0 (.granuleRetryFrame x gr))
      else
      let key := (channelOf (64 * g.num), s.time / 8192)
      let next := frameCeil s.time
      if s.phys.retried.contains key then .next (s.later next 0 (.granuleRetryFrame x gr))
      else
      let (bad, s1) := ({ s with phys := { s.phys with retried := key :: s.phys.retried } } : State).readFails g.num
      if bad then
        if 17 ≤ g.fails then .next (s1.giveUp t gr g)
        else .next ((s1.modGran x gr (fun g => { g with fails := g.fails + 1 })).later next 0 (.granuleRetryFrame x gr))
      else
        let (bs, s2) := s1.dramRead (64 * g.num) 64 t.view
        let s3 := (s2.modGran x gr (fun g => { g with data := bs, fails := 0 })).modXfer x Xfer.withUnreadable
        .next (s3.later (s3.time + t.readLat g.num) 0 (.granuleLanding x gr))

/-! ### The engine's own requests (10 R459) -/

/-- A transfer of the engine on its own behalf. -/
def State.ownXfer (s : State) (kind : XKind) (q slot launch lin : Nat) : Xfer where
  id := s.nextId + 1
  kind := kind
  q := q
  slot := slot
  launch := launch
  lin := lin
  grp := 0
  gen := 0
  ordinal := 0
  preg := none
  promise := 0
  grans := []
  landed := false
  lost := false
  unreadable := false
  passed := 0
  told := 0
  acc := 0xFF
  view := []
  pc := 0
  planned := s.time
  row := { rows := 0, rbytes := 0, gpitch := 0 }
  idx := { n := 0, rowb := 0, pitch := 0 }
  a := 0
  b := 0
  batch := 0
  tide := s.time + 32

/-- Offer a request: ACCTL is checked once, at its acceptance; what it denies does not move (07 R230;
notes/assumptions/31). -/
def State.offerOwn (s : State) (x : Xfer) (ps : List Piece) : Except Nat (Nat × State) :=
  s.offer { x with acc := s.accMask (x.q / 16) (!x.kind.inbound) } 0 0
    (ps.filter (fun p => s.acctlOk (x.q / 16) p.dram (!x.kind.inbound)))

/-- A request is kept for the start of the next frame, at which one event repeats all of its core in order. -/
def State.keepRequest (s : State) (x : Xfer) (ps : List Piece) : State :=
  let s1 := { s with requests := s.requests ++ [(Request.mk x ps)] }
  if s.requests.any (fun y => y.x.q == x.q) then s1 else s1.later (frameCeil (s.time + 1)) 0 (.engineRequestRetry x.q)

/-- Offer a request; a refused one is repeated at the start of the next frame. -/
def State.request (s : State) (x : Xfer) (ps : List Piece) : State :=
  if ps.all (fun p => !s.acctlOk (x.q / 16) p.dram (!x.kind.inbound)) then { s with nextId := s.nextId + 1 }
  else
    match s.offerOwn x ps with
    | .ok (_, s1) => { s1 with nextId := s1.nextId + 1 }
    | .error _ => ({ s with nextId := s.nextId + 1 } : State).keepRequest x ps

/-- ENGINE_REQUEST_RETRY: the requests of a core in order of first request; each takes its promise from this frame. -/
def execEngineRequestRetry (q : Nat) (s : State) : Out1 :=
  let mine := s.requests.filter (fun r => r.x.q == q)
  let s0 := { s with requests := s.requests.filter (fun r => r.x.q != q) }
  .next (mine.foldl (fun s r =>
    let x := { r.x with planned := s.time, tide := s.time + 32 }
    match s.offerOwn x r.pieces with
    | .ok (_, s1) => match r.x.kind with
      | .preload l _ _ => (s1.later s1.time 0 (.preparationPromiseMet l)).later s1.time 1 (.ctbRestore (q / 16) r.x.slot)
      | .restore => s1.later s1.time 1 (.ctbRestore (q / 16) r.x.slot)
      | _ => s1
    | .error _ => s.keepRequest x r.pieces) s0)

/-! ### Indexed rows (10 R311) -/

/-- The runs of a global row, or none when the row is skipped. -/
def State.rowRuns (s : State) (x : Xfer) (va len : Nat) (write : Bool) : Option (List RowSeg) :=
  match s.launch? x.launch with
  | none => none
  | some l =>
    let gs := rowSegs 0 va 0 0 len
    if gs.all (fun g => match l.phys g.va with
        | some pa => (if write then l.canW g.va else l.canR g.va) && x.acc.getLsbD (stackOf pa) && (l.redOf g.va).isNone
        | none => false) then
      some (gs.map (fun g => { g with va := (l.phys g.va).getD 0 }))
    else none

/-- The slot of a gather engine for a granule, at or after a schedule tide; a time-sliced row reads its entries at its planned
tide (18 R453). -/
def State.gatherSlot (s : State) (x : Xfer) (n e : Nat) : Nat :=
  let taken := (s.core x.q).gtaken
  match s.tt with
  | none => e
  | some t =>
    let frames := t.ntmpl + 1 + taken.length
    match (if s.sliced (x.q / 16) then s.issuerOf x else none) with
    | some (r, l) =>
      ((t.slotWhere (0x0200 + x.q) n (s.plannedOf r l e) frames (fun p =>
        decide (e ≤ s.tideOf r l p) && !taken.contains (n, s.tideOf r l p))).map (s.tideOf r l)).getD e
    | none => (t.slotFrom (0x0200 + x.q) n e frames taken).getD e

/-- The planned tide of a slot of a gather (10 R282). -/
def State.gatherLand (s : State) (x : Xfer) (sl : Nat) : Nat :=
  match s.issuerOf x with
  | some (r, l) => s.plannedOf r l sl
  | none => sl - x.lag

/-- One row of a batch: its granules with their slots, or the skipped row, which is written as a granule that is done. -/
def State.gatherRow (s : State) (x : Xfer) (i : Nat) (areaCore area ixBase : Nat) : State :=
  let write := x.kind != .gather
  let len := x.idx.rowb.toNat
  let scr := area + i * len
  let (ib, ilost, s1) := s.xferRead x.q (ixBase + 4 * i) 4 x.kind.path x.view
  let va := (x.a + BitVec.ofNat 64 (ofBytes ib) * x.idx.pitch.setWidth 64).toNat
  let skip (s : State) : State :=
    let s2 := s.modIssuer x (fun g => { g with xflags := g.xflags ||| xROWSKIP })
    if write then s2
    else
      let (lost, s3) := s2.xferWrite x i areaCore scr (List.replicate len 0)
      let p : Piece := { row := i, comb := false, dram := 0, core := areaCore, scr := scr, len := len, old := [] }
      let s4 := s3.modXfer x.id (fun y => { y with grans := y.grans ++
        [{ num := 0, slot := 0, land := 0, at_ := 0, pieces := [p], data := [], done := true, fails := 0 }] })
      if lost then s4.xferLost x else s4
  if ilost then skip (s1.xferLost x)
  else
    match s1.rowRuns x va len write with
    | none => skip s1
    | some gs =>
      gs.foldl (fun (s : State) (g : RowSeg) =>
        let num := g.va / 64
        let n := channelOf g.va
        let c := s.core x.q
        let far := farFrom (x.q / 16) n
        let e := if write then max s.time (x.tide + 256 + 48 * far) else s.time
        let sl := s.gatherSlot x n e
        let p : Piece :=
          { row := i, comb := false, dram := g.va, core := areaCore, scr := scr + g.scr, len := g.len,
            old := [] }
        let gr := ((s.xfer? x.id).map (·.grans.length)).getD 0
        let s2 := s.setCore x.q { c with gtaken := c.gtaken ++ [(n, sl)] }
        let ng : Granule :=
          { num := num, slot := s.gatherLand x sl, land := s.gatherLand x sl, at_ := sl, pieces := [p], data := [], done := false,
            fails := 0 }
        (s2.modXfer x.id (fun y => { y with grans := y.grans ++ [ng] })).later sl 0 (.dramSlotAccess x.id gr)) s1

/-- GATHER_BATCH (10 R311): the next 32 indices are read and their rows take slots; the next batch starts at the last of
them. -/
def execGatherBatch (x : Nat) (s : State) : Out1 :=
  match s.xfer? x with
  | none => .next s
  | some t =>
    let so := (lo32 t.b).toNat
    let st := so / 2097152
    let own := s.reaches.findSome? (fun r => if r.launch == t.launch then
      (r.ctbs.find? (fun c => c.2.lin == t.lin)).map (fun c => (r, c)) else none)
    match own with
    | none => .next s
    | some (r, c) =>
      let col := c.1 - c.2.stage + st
      let base := ((r.ctb? col).map (·.base)).getD 0
      let rows := (List.range 32).filterMap (fun k =>
        if 32 * t.batch + k < t.idx.n.toNat then some (32 * t.batch + k) else none)
      let s1 := rows.foldl (fun s i =>
        s.gatherRow t i (coreIx (t.q / 16) col) (base + so % 2097152) (c.2.base + (hi32 t.b).toNat)) s
      let s2 := s1.modXfer x (fun y => { y with batch := y.batch + 1 })
      let last := ((s2.xfer? x).map (fun y => ((y.grans.drop t.grans.length).map (·.at_)).foldl max s2.time)).getD s2.time
      if 32 * (t.batch + 1) < t.idx.n.toNat then .next (s2.later last 0 (.gatherBatch x))
      else .next (s2.finishXfer x)

end Sys2Proof.Machine
end

