-- ==== Sys2Proof/Machine/Sync.lean ====
section
/-! DEFINITION. The synchronisation class (12): atomics, the binding table, releases and acquires, device objects,
barriers, sounds and fences. The decisions of the waits stand in Waits.lean. -/
namespace Sys2Proof.Machine

/-! ### Atomics (12 R349 to R352) -/

/-- f of 12 R350. -/
def atomF (op : AtomOp) (ty : IntTy) (p q : DWord) : DWord :=
  match op with
  | .add => wrapW (it64 ty) (typed ty p + typed ty q)
  | .min => if typed ty q < typed ty p then q else p
  | .max => if typed ty p < typed ty q then q else p
  | .and => p &&& q
  | .or => p ||| q
  | .xor => p ^^^ q
  | .exch => q
  | .cas => q

/-- One lane of a set: its number, its data (for `cas` the compare value) and the new value of a `cas`. -/
structure AtomLane where
  lane : Nat
  d    : DWord
  new  : DWord
  deriving DecidableEq, Repr

/-- The values returned by add to xor: the running application in lane order. -/
def atomChain (f : DWord → DWord → DWord) : DWord → List AtomLane → List (Nat × DWord)
  | _, [] => []
  | cur, l :: ls => (l.lane, cur) :: atomChain f (f cur l.d) ls

/-- The values returned by `cas` and the value left. -/
def casChain : DWord → List AtomLane → List (Nat × DWord) × DWord
  | cur, [] => ([], cur)
  | cur, l :: ls =>
    let r := casChain (if cur = l.d then l.new else cur) ls
    ((l.lane, cur) :: r.1, r.2)

/-- The effect of a set on the memory value (12 R350): what the lanes receive and what stands after. -/
def atomSet (op : AtomOp) (ty : IntTy) (old : DWord) (ls : List AtomLane) : List (Nat × DWord) × DWord :=
  match op with
  | .cas => casChain old ls
  | .exch => (atomChain (fun _ d => d) old ls, (ls.getLast?.map (·.d)).getD old)
  | _ =>
    (atomChain (atomF op ty) old ls,
     match treeOf (atomF op ty) 6 (ls.map (·.d)) with
     | some v => atomF op ty old v
     | none => old)

/-- Add a lane to the set of its address, sets in the order of their lowest lanes. -/
def addAtom (ea : DWord) (l : AtomLane) : List (DWord × List AtomLane) → List (DWord × List AtomLane)
  | [] => [(ea, [l])]
  | (x, ls) :: r => if x = ea then (x, ls ++ [l]) :: r else (x, ls) :: addAtom ea l r

/-- The window of an atomic's address (12 R349). -/
def Here.atomWindow (h : Here) (ea : DWord) : Window := if h.inWindow .shared ea then .shared else .cluster

/-- The memory part of an atomic (12 R350, 07 R218): a lost column in any lane withholds every lane's result, and its row
takes nothing. -/
def atomEff (h : Here) (op : AtomOp) (ty : IntTy) (s : State) (_stop : Nat) (outs : List (Nat × LaneOut)) :
    State × List (Nat × DWord) :=
  let n := if it64 ty then 8 else 4
  let at_ (ea : DWord) : Nat × Nat :=
    let w := h.atomWindow ea
    h.place w (ea - windowBase w).toNat
  let bad := s.lostRows (outs.map (fun o => ((at_ (o.2.ea.getD 0)).1, (at_ (o.2.ea.getD 0)).2, n)))
  let sets := outs.foldl (fun l o =>
    addAtom (o.2.ea.getD 0) { lane := o.1, d := o.2.val, new := (o.2.store.map (·.1)).getD 0 } l) []
  let r := sets.foldl (fun (a : State × List (Nat × DWord)) e =>
    let t := at_ e.1
    let (bs, s1) := a.1.groupRead h t.1 t.2 n a.1.wseq
    let r := atomSet op ty (BitVec.ofNat 64 (ofBytes bs)) e.2
    let k := (e.2.head?.map (·.lane)).getD 0
    (s1.storeLane h bad t.1 t.2 k (toBytes n r.2.toNat) e.1 6 false, a.2 ++ r.1)) (s, [])
  match outs.find? (fun o => (s.core (at_ (o.2.ea.getD 0)).1).lost (at_ (o.2.ea.getD 0)).2 n) with
  | some o => ((r.1.modG h (fun g => { g with lateErr := g.lateErr.filter (fun e =>
      !(e.due == h.rg.pos + 6 && e.pc == h.cur.pc)) })).lostAt h 6 (o.2.ea.getD 0) o.1, [])
  | none => r

/-- The second operand of a 64-bit `cas`: the pair after the compare value (12 R352). -/
def casNew (c : Src) : Src :=
  match c with
  | .v n l => .v (n + 2) l
  | x => x

/-- The sources of an atomic: address, then data. -/
def atomOps (op : AtomOp) (ty : IntTy) (base : Src) (off : Option Src) (c : Src) : List Opnd :=
  addrOps base off ++
    (if op = .cas then (if it64 ty then [.src c true, .src (casNew c) true] else [.src c true])
     else [.src c (it64 ty)])

/-- The data of a lane from its source values after the address. -/
def atomData (op : AtomOp) (ty : IntTy) (vs : List DWord) : DWord × DWord :=
  if op = .cas then
    (if it64 ty then (arg vs 0, arg vs 1) else ((lo32 (arg vs 0)).setWidth 64, (hi32 (arg vs 0)).setWidth 64))
  else (arg vs 0, 0)

/-- An atomic of either class (12 R349 to R352). -/
def State.atomic (s : State) (op : AtomOp) (ty : IntTy) (d : Option Dst) (base : Src) (off : Option Src)
    (disp : BitVec 18) (c : Src) : Out1 :=
  s.withHere (fun h => s.vec h
    { ops := atomOps op ty base off c, dst := d, w64 := it64 ty, land := 6, steps := false
      lane := fun _ vs =>
        let ea := effAddr off (disp.signExtend 64) vs
        let x := atomData op ty (vs.drop (addrOps base off).length)
        match h.checkAccess (h.atomWindow ea) ea (if it64 ty then 8 else 4) with
        | .ok _ => { ea := some ea, val := x.1, store := some (x.2, true) }
        | .error e => { fault := some (e, ea) } } none (atomEff h op ty))

/-- 12 R352. -/
def execAtom (op : AtomOp) (ty : IntTy) (d : Dst) (base : Src) (off : Option Src) (disp : BitVec 18) (c : Src)
    (s : State) : Out1 := s.atomic op ty (some d) base off disp c

/-- The operation of a `red`. -/
def redAtom : ScrRedOp → AtomOp
  | .add => .add
  | .min => .min
  | .max => .max
  | .and => .and
  | .or => .or
  | .xor => .xor

/-- 12 R352. -/
def execRed (op : ScrRedOp) (ty : IntTy) (base : Src) (off : Option Src) (disp : BitVec 18) (c : Src) (s : State) :
    Out1 := s.atomic (redAtom op) ty none base off disp c

/-! ### The binding table (12 R325, R326) -/

/-- Where a region lies (12 R326 check 4). -/
inductive Lies where
  | scratch
  | global
  | bad
  deriving DecidableEq, Repr

/-- A byte range meets the window. -/
def Here.meets (h : Here) (w : Window) (base len : Nat) : Bool :=
  decide (base < (windowBase w).toNat + h.windowSize w) && decide ((windowBase w).toNat < base + len)

/-- 12 R326 check 4. -/
def Here.lies (h : Here) (base : DWord) (len : Nat) : Lies :=
  let scr := h.launch.record.scrbytes
  if h.inWindow .shared base then
    (if (base - sharedBase).toNat + len ≤ scr then .scratch else .bad)
  else if h.inWindow .cluster base then
    (if (base - clusterBase).toNat % 2097152 + len ≤ scr then .scratch else .bad)
  else if base.toNat + len ≤ 2 ^ 64 ∧ ¬ (h.meets .lane base.toNat len ∨ h.meets .shared base.toNat len ∨
      h.meets .cluster base.toNat len) then .global
  else .bad

def Ctb.sound? (c : Ctb) (n : Nat) : Option Sound := c.sounds.find? (fun x => x.n == n)
def Ctb.modSound (c : Ctb) (n : Nat) (f : Sound → Sound) : Ctb :=
  { c with sounds := c.sounds.map (fun x => if x.n == n then f x else x) }

/-- Whether a target may have a global region (12 R326 check 5). -/
def globalTgt : BindTgt → Bool
  | .obj _ => true
  | .none => true
  | _ => false

/-- The group-wide checks of `bind` (12 R326 checks 2 to 6). -/
def Here.bindBad (h : Here) (base len : DWord) (t : BindTgt) : Option (Nat × DWord) :=
  let undeclared := match t with
    | .snd n => if (h.ctb.sound? n.toNat).isNone then some n else none
    | _ => none
  match undeclared with
  | some n => some (cSound, n.setWidth 64)
  | none =>
    if len = 0 ∨ 0xFFFFFFFF < len.toNat then some (cIllegalOperand, 0)
    else
      match h.lies base len.toNat with
      | .bad => some (cAperture, base)
      | l =>
        if l = .global ∧ globalTgt t = false then some (cIllegalOperand, 0)
        else if t ≠ .none ∧ 16 ≤ h.ctb.binds.length ∧
            h.ctb.binds.any (fun b => b.base == base && b.len.toNat == len.toNat) = false then some (cIllegalOperand, 0)
        else none

/-- A table with the region bound to a target, or without it. -/
def rebind (l : List Binding) (base : DWord) (len : Word) (t : BindTgt) : List Binding :=
  if t = .none then l.filter (fun b => !(b.base == base && b.len == len))
  else if l.any (fun b => b.base == base && b.len == len) then
    l.map (fun b => if b.base == base && b.len == len then { b with tgt := t } else b)
  else l ++ [{ base := base, len := len, tgt := t }]

/-- 12 R326: bindings change at +1. -/
def execBind (a b : BitVec 6) (t : BindTgt) (s : State) : Out1 :=
  s.withHere (fun h =>
    match h.bindBad (h.k a) (h.k b) t with
    | some (c, x) => s.raise h c x
    | none => (s.modC h (fun c => { c.keepBefore with binds := rebind c.binds (h.k a) (lo32 (h.k b)) t })).complete h)

/-! ### Releases and acquires (12 R330, R331) -/

/-- The physical regions of a bound region of a CTB on a column (12 R325): in scratch where its base lies in the SHARED or the
CLUSTER window (07 R207), else in global memory. -/
def regionsOf (r : Reach) (l : Launch) (col : Nat) (c : Ctb) (b : Binding) : List Region :=
  let x := b.base.toNat
  let n := b.len.toNat
  if sharedBase.toNat ≤ x ∧ x < sharedBase.toNat + l.record.scrbytes then
    [{ core := some (coreIx r.row col), base := c.base + (x - sharedBase.toNat), len := n }]
  else if clusterBase.toNat ≤ x ∧ x < clusterBase.toNat + l.record.stageCount * 2097152 then
    let o := x - clusterBase.toNat
    let k := col - c.stage + o / 2097152
    match r.ctb? k with
    | some y => [{ core := some (coreIx r.row k), base := y.base + o % 2097152, len := n }]
    | none => []
  else
    l.trans.filterMap (fun g =>
      let lo := max x g.va
      let hi := min (x + n) (g.va + g.len)
      if lo < hi then some { core := none, base := g.pa + (lo - g.va), len := hi - lo } else none)

/-- The bytes that a CTB has bound to a target, by bindings of earlier positions (12 R326). -/
def boundTo (r : Reach) (l : Launch) (col : Nat) (c : Ctb) (t : BindTgt) : List Region :=
  (c.bindsNow.filter (fun b => b.tgt == t)).flatMap (regionsOf r l col c)

/-- What a release of a target by the executing group carries. -/
def State.releaseOf (s : State) (h : Here) (t : BindTgt) : Release :=
  { view := s.viewHere h, regs := boundTo h.reach h.launch h.cur.col h.ctb t }

/-- One entry of a view covers another. -/
def Seen.covers (v u : Seen) : Bool :=
  v.by_ == u.by_ && v.own == u.own && v.within == u.within && (match v.upto, u.upto with
    | none, _ => true
    | some n, some m => decide (m ≤ n)
    | some _, none => false)

/-- Add entries to a view, each once. -/
def addSeen (new old : List Seen) : List Seen :=
  new.foldl (fun l v => if l.any (fun u => u.covers v) then l else v :: l.filter (fun u => !v.covers u)) old

/-- A region set joins those that carried a write. -/
def addRegions (rs : List Region) (l : List (List Region)) : List (List Region) := if l.contains rs then l else rs :: l

/-- An acquire of a release by a party that has bound `own` (12 R330). -/
def acquire (rel : Release) (own : List Region) (view : List Seen) : List Seen :=
  if rel.regs = [] ∨ own = [] then view
  else addSeen (rel.view.map (fun v => { v with within := addRegions rel.regs (addRegions own v.within), own := false })) view

/-! ### Device objects (12 R324, R341) -/

/-- The completion count of an object. -/
def State.obj (s : State) (n : Nat) : BitVec 16 := (look s.objs n).getD 0

/-- Fire an object (12 R324): its count goes up by one, and the release stands with its planned tide. -/
def State.fireObj (s : State) (n planned : Nat) (rel : Release) : State :=
  { s with objs := bindAt s.objs n (s.obj n + 1), objRel := s.objRel ++ [(n, planned, rel)] }

/-- The staged contributions that a release combines. -/
def State.stagedFor (s : State) (rel : Release) (launch : Option (Nat × Nat)) : List Staged :=
  s.staged.filter (fun e => e.elts.any (e.takes rel launch))

/-- What a release combines by: its view, and those landed contributions that it is free to take without being ordered
after them (10 R303). -/
def State.combinesBy (s : State) (rel : Release) : Release × State :=
  (s.staged.filter (fun e => e.landed)).foldl (fun (a : Release × State) (e : Staged) =>
    e.elts.foldl (fun (a : Release × State) x =>
      if rel.regs.any (fun r => r.core.isNone && decide (r.base ≤ x.2.1) && decide (x.2.1 < r.base + r.len)) &&
          !sees rel.view (.engine e.xid) 0 none x.2.1 then
        let (b, s1) := a.2.freeBool
        if b then ({ a.1 with view := { Seen.of e.xid with within := [[{ core := none, base := x.2.1, len := 4 }]] } :: a.1.view }, s1)
        else (a.1, s1)
      else a) a) (rel, s)

/-- A release that fires an object: at once when it combines nothing, else after the combine (10 R303). -/
def State.releaseFire (s0 : State) (obj planned : Nat) (rel : Release) : State :=
  let (comb, s) := s0.combinesBy rel
  match s.stagedFor comb none with
  | [] => s.fireObj obj planned rel
  | l =>
    let id := s.nextId + 1
    let f : Fire :=
      { id := id, obj := obj, xids := l.map (·.xid), rel := rel, comb := comb, planned := (l.map (·.promise)).foldl max planned,
        launch := none }
    { s with nextId := id, fires := s.fires ++ [f] }.later s.time 0 (.stagedCombine id)

/-- 12 R341. -/
def execRel (a : BitVec 6) (s : State) : Out1 :=
  s.withHere (fun h =>
    let n := (h.k a).toNat
    if n = 0 ∨ 0xFFFF < n then s.raise h cIllegalOperand 0
    else ((s.modLaunch h.launch.id (fun l => { l with acted := true })).releaseFire n h.planned
      (s.releaseOf h (.obj (BitVec.ofNat 16 n)))).complete h)

/-- The order of staged contributions (10 R303): launch identity, CTB linear index, group, transfers issued before. -/
def stagedLt (a b : Staged) : Bool :=
  decide (a.ident < b.ident ∨ (a.ident = b.ident ∧ (a.lin < b.lin ∨ (a.lin = b.lin ∧ (a.grp < b.grp ∨
    (a.grp = b.grp ∧ a.ordinal < b.ordinal))))))

def insertStaged (e : Staged) : List Staged → List Staged
  | [] => [e]
  | x :: l => if stagedLt e x then e :: x :: l else x :: insertStaged e l

/-- Words by target address, in the order of first touch: the operation, the type and the contributions. -/
def addWord (pa : Nat) (op : RedOp) (ty : RedTy) (v : Word) :
    List (Nat × (RedOp × RedTy) × List Word) → List (Nat × (RedOp × RedTy) × List Word)
  | [] => [(pa, (op, ty), [v])]
  | (p, f, vs) :: l =>
    if p = pa ∧ f = (op, ty) then (p, f, vs ++ [v]) :: l else (p, f, vs) :: addWord pa op ty v l

/-- A contribution with the elements that a fire has combined spent. -/
def Staged.spend (e : Staged) (f : Fire) : Staged :=
  let n := (e.elts.filter (e.takes f.comb f.ends)).length
  if n = 0 then e
  else { e with elts := e.elts.filter (fun x => !e.takes f.comb f.ends x), spent := e.spent ++ [(f.planned, n)] }

/-- The combine of 10 R303: new = f(old, Tree(f, c)). -/
def State.combineStaged (s : State) (fire : Fire) : State :=
  let rel := fire.comb
  let launch := fire.ends
  let es := (s.stagedFor rel launch).foldl (fun l e => insertStaged e l) []
  let ws := es.foldl (fun l e => (e.elts.filter (e.takes rel launch)).foldl (fun l x =>
    addWord x.2.1 e.op e.ty (BitVec.ofNat 32 (s.dramVal x.2.2 4)) l) l) []
  let s1 := ws.foldl (fun s w =>
    let old := BitVec.ofNat 32 (s.dramVal w.1 4)
    match treeOf (redF w.2.1.1 w.2.1.2) 32 w.2.2 with
    | some c => s.dramWrite w.1 (toBytes 4 (redF w.2.1.1 w.2.1.2 old c).toNat)
    | none => s) s
  { s1 with staged := s1.staged.map (fun e => e.spend fire) }

/-- The slots of a combine, one for each granule that it writes (10 R303, owner 0x0500): the tide at which they are done. -/
def State.combineEnd (s : State) (rel : Release) (launch : Option (Nat × Nat)) : Option (Nat × State) :=
  (s.takeSlots 0x0500 (once ((s.stagedFor rel launch).flatMap (fun e =>
    (e.elts.filter (e.takes rel launch)).map (fun x => x.2.1 / 64))))).map (fun r => (r.1 + 24, r.2))

/-- STAGED_COMBINE (10 R303): once every contribution of the release has landed the combine takes its slots; at their end
the elements are combined and the release's fire follows. A request without a slot is repeated each frame (R459). -/
def execStagedCombine (fire : Nat) (s : State) : Out1 :=
  match s.fires.find? (fun f => f.id == fire) with
  | none => .next s
  | some f =>
    if f.xids ≠ [] then
      if s.staged.any (fun e => f.xids.contains e.xid && !e.landed) then .next s
      else
        match s.combineEnd f.comb f.ends with
        | none => .next (s.later (frameCeil (s.time + 1)) 0 (.stagedCombine fire))
        | some (t, s) =>
          .next ({ s with fires := s.fires.map (fun (x : Fire) => if x.id == fire then { x with xids := [] } else x) }.later t 0
            (.stagedCombine fire))
    else
      let s1 := s.combineStaged f
      let s2 := { s1 with fires := s1.fires.filter (fun x => x.id != fire) }
      .next (match f.launch with
        | some l => s2.later s2.time 0 (.launchComplete l)
        | none => s2.fireObj f.obj f.planned f.rel)

/-- The checks of `acq` and `wait`, then the wait (12 R341). -/
def State.objWait (s : State) (h : Here) (kind : WaitKind) (texp : BitVec 5) (d : Dst) (n t : DWord) : State :=
  s.issueWait h kind texp n t d
    (if n = 0 ∨ 0xFFFF < n.toNat ∨ 0xFFFF < t.toNat then some (cIllegalOperand, 0) else none) id

/-- 12 R341. -/
def execAcq (texp : BitVec 5) (d : Dst) (a b : BitVec 6) (s : State) : Out1 :=
  s.withHere (fun h => s.objWait h .acq texp d (h.k a) (h.k b))
/-- 12 R341. -/
def execWait (texp : BitVec 5) (d : Dst) (a : BitVec 6) (b : OpK) (s : State) : Out1 :=
  s.withHere (fun h => s.objWait h .wait texp d (h.k a) (h.uniZ b))

/-! ### Barriers (12 R342 to R345) -/

/-- A local arrival of the executing group (12 R342, R343). -/
def State.arrive (s : State) (h : Here) (relaxed : Bool) : State :=
  s.modC h (fun c =>
    let g := h.cur.grp
    if bit c.bar.arrived g then c
    else
      { c with
        bar := { c.bar with arrived := c.bar.arrived ||| maskOf (fun k => k == g)
                            arrph := c.bar.arrph.set g (some c.bar.phase) }
        barRel := if relaxed then c.barRel else c.barRel ++ [(c.bar.phase, s.releaseOf h (.bar 0))] })

/-- A remote or an edge arrival (12 R343). -/
def State.arriveAt (s : State) (h : Here) (relaxed : Bool) (d : Int) : State :=
  let st := (h.ctb.stage : Int) + d
  let add (f : Nat) (x : Option Release) (c : Ctb) : Ctb :=
    { c with bar := { c.bar with transit := c.bar.transit ++ [(f, x)] } }
  if st < 0 ∨ (h.launch.record.stageCount : Int) ≤ st then s.modC h (add h.reach.frames none)
  else
    s.modCtb h.cur.row h.cur.slot ((h.cur.col : Int) + d).toNat (fun c =>
      if c.ended.isSome then c
      else add (h.reach.frames + 1) (if relaxed then none else some (s.releaseOf h (.bar (BitVec.ofInt 16 d)))) c)

/-- Either form of `bar.arv`. -/
def State.arrival (s : State) (h : Here) (relaxed : Bool) (r : Option Word) : State :=
  (match r with
   | none => s.arrive h relaxed
   | some d => s.arriveAt h relaxed d.toInt).complete h

/-- 12 R345. -/
def execBarArv (r : Option Word) (s : State) : Out1 := s.withHere (fun h => s.arrival h false r)
/-- 12 R345. -/
def execBarArvRlx (r : Option Word) (s : State) : Out1 := s.withHere (fun h => s.arrival h true r)

/-- The phase that a barrier wait of a group targets (12 R344). -/
def Ctb.barTarget (c : Ctb) (g : Nat) : Word := (c.bar.arrph.getD g none).getD c.bar.phase

/-- A barrier wait of the executing group: its target, and EXR while that phase is incomplete (12 R344). -/
def State.barHold (s : State) (h : Here) (exr : Option (BitVec 16)) : State :=
  s.modC h (fun c =>
    let t := c.barTarget h.cur.grp
    let c1 := match exr with
      | some x => if t = c.bar.phase then
          { c with bar := { c.bar with exr := some (max x.toNat (c.bar.exr.getD 0)) } } else c
      | none => c
    c1.modGroup h.cur.grp (fun g => { g with target := t.toNat }))

/-- 12 R345: a local arrival, then the wait. -/
def execBarSync (texp : BitVec 5) (d : Dst) (exr : Option (BitVec 16)) (s : State) : Out1 :=
  s.withHere (fun h => s.issueWait h .bar texp 0 0 d none (fun s => (s.arrive h false).barHold h exr))
/-- 12 R345. -/
def execBarWait (texp : BitVec 5) (d : Dst) (exr : Option (BitVec 16)) (s : State) : Out1 :=
  s.withHere (fun h => s.issueWait h .bar texp 0 0 d none (fun s => s.barHold h exr))

/-! ### Sounds (12 R346 to R348) -/

/-- The generic SHARED address of a ring entry. -/
def ringAddr (x : Sound) (i : Nat) : DWord := sharedBase + BitVec.ofNat 64 (x.roff + 2 * (i % x.depth))

/-- Perform a push of a group, if its condition holds (12 R346, R347). -/
def State.tryPush (s : State) (row slot col g n : Nat) (handle : BitVec 16) (rel : Release) (t : TraceSrc) : State :=
  match s.ctb? row slot col with
  | none => s
  | some c =>
    match c.sound? n with
    | none => s
    | some x =>
      if x.allow = 0 then s.modGroup row slot col g (fun y => { y with owed := .push n handle })
      else
        let q := coreIx row col
        let i := x.head + x.count
        let a := c.base + x.roff + 2 * (i % x.depth)
        let lost := (s.core q).lost a 2
        let s1 := if lost then s.bankLoss q a 2 else s.scrWrite q a (toBytes 2 handle.toNat) t
          (.group (((s.reach? row slot).map (fun r => r.launch)).getD 0) c.lin g) 0
        s1.modCtb row slot col (fun c =>
          let c1 := c.modSound n (fun x => { x with count := x.count + 1, allow := x.allow - 1 })
          ({ c1 with sndRel := c1.sndRel ++ [(n, rel)] }).modGroup g (fun y =>
            { y with ready := true, code := 0, owed := if lost then .lost (ringAddr x i) else .none }))

/-- Perform a pop of a group, if its condition holds; `target` counts the pushes that its completion acquires. -/
def State.tryPop (s : State) (row slot col g n : Nat) : State :=
  match s.ctb? row slot col with
  | none => s
  | some c =>
    match c.sound? n with
    | none => s
    | some x =>
      if x.count = 0 then s.modGroup row slot col g (fun y => { y with owed := .pop n })
      else
        let q := coreIx row col
        let a := c.base + x.roff + 2 * x.head
        let core := s.core q
        let lost := core.lost a 2
        let handle := ofBytes (core.bytes a 2)
        let s1 := (s.countCorr q (core.corrections a 2)).bankLoss q a 2
        s1.modCtb row slot col (fun c =>
          (c.modSound n (fun x =>
            { x with head := (x.head + 1) % x.depth, count := x.count - 1, allow := x.allow + 1, pops := x.pops + 1 })).modGroup
            g (fun y =>
              { y with ready := true, code := BitVec.ofNat 32 (65536 * handle), target := x.pops + 1,
                       owed := if lost then .lost (ringAddr x x.head) else .none }))

/-- The checks of 12 R348: SOUND with Uni(A). -/
def Here.soundBad (h : Here) (n : DWord) (extra : Bool) : Option (Nat × DWord) :=
  if decide (15 < n.toNat) || (h.ctb.sound? n.toNat).isNone || extra then some (cSound, n) else none

/-- 12 R348. -/
def execSndPush (texp : BitVec 5) (d : Dst) (a b : BitVec 6) (s : State) : Out1 :=
  s.withHere (fun h =>
    let n := h.k a
    s.issueWait h .push texp n (h.k b) d (h.soundBad n (decide (0xFFFF < (h.k b).toNat))) (fun s =>
      s.tryPush h.cur.row h.cur.slot h.cur.col h.cur.grp n.toNat ((h.k b).setWidth 16)
        (s.releaseOf h (.snd (n.setWidth 16))) (h.src 255)))

/-- 12 R348. -/
def execSndPop (texp : BitVec 5) (d : Dst) (a : BitVec 6) (s : State) : Out1 :=
  s.withHere (fun h =>
    let n := h.k a
    s.issueWait h .pop texp n 0 d (h.soundBad n false) (fun s => s.tryPop h.cur.row h.cur.slot h.cur.col h.cur.grp n.toNat))

/-- 12 R348: the state at the last sample. -/
def execSndPeek (d : Dst) (a : BitVec 6) (s : State) : Out1 :=
  s.withHere (fun h =>
    let n := h.k a
    s.putChecked h d false ((((h.ctb.sound? n.toNat).map (fun (x : Sound) => x.sampled)).getD 0).setWidth 64)
      (h.soundBad n false) id)

/-- 12 R348. -/
def execSndCfg (a b : BitVec 6) (s : State) : Out1 :=
  s.withHere (fun h =>
    let n := h.k a
    match h.soundBad n (decide (0xFF < (h.k b).toNat)) with
    | some (c, x) => s.raise h c x
    | none => (s.modC h (fun c => c.modSound n.toNat (fun x =>
      { x with allow := min (h.k b).toNat (x.depth - x.count) }))).complete h)

/-! ### Fences (12 R333, R334) -/

/-- 12 R333: at device scope and beyond, later transfers start after the landings of the earlier ones (Table 12.4). -/
def execFence (sc : Scope) (s : State) : Out1 :=
  s.withHere (fun h =>
    match sc with
    | .device => (s.modG h (fun g => { g with fenceX := g.issuedX })).complete h
    | .pod => (s.modG h (fun g => { g with fenceX := g.issuedX })).complete h
    | _ => s.complete h)

/-- A transfer of the group on one of two paths that has missed its promise, with the promise (10 R301). -/
def State.missed (s : State) (h : Here) (ps : List Nat) : Option (Xfer × Nat) :=
  (s.xfers.filter (fun x => x.launch == h.launch.id && x.lin == h.ctb.lin && x.grp == h.cur.grp && x.preg.isSome &&
    ps.contains x.kind.path)).findSome? (fun x => (x.missedBy h.planned).map (fun p => (x, p)))

/-- 12 R334, 10 R301. While a write of the first path's view has passed its promise and has not landed, the reach is held before
this position (`State.fenceHolds`). -/
def execXfence (q1 q2 : BitVec 3) (s : State) : Out1 :=
  s.withHere (fun h =>
    match s.missed h [q1.toNat, q2.toNat] with
    | some (x, p) =>
      let s1 := (s.modXfer x.id (fun y => { y with told := p })).raise h cMissedPromise (BitVec.ofNat 64 p)
      { s1 with faults := s1.faults.modify (s1.faults.length - 1) (fun f => { f with late := true }) }
    | none =>
      let v := s.pathView h q1.toNat h.planned
      (s.modG h (fun g =>
        if q2 = 0 then { g with seen := addSeen v g.seen }
        else { g with pseen := g.pseen.modify q2.toNat (addSeen v) })).complete h)

end Sys2Proof.Machine
end

