-- ==== Sys2Proof/Machine/Waits.lean ====
section
/-! DEFINITION. The reach-synchronous waits (12 R335 to R348, 10 R300, R301, 03 R122, 13 R381): samples, decisions,
timeouts and completions. -/
namespace Sys2Proof.Machine

/-! ### A wait and its cores -/

/-- A wait that is held: the reach group's registers, the cores that evaluate it, and whether a handler holds it. -/
structure Held where
  rg      : RGroup
  w       : Wait
  grp     : Nat
  cols    : List Nat
  handler : Bool
  deriving DecidableEq, Repr

/-- The wait of a group of a reach; in a hold only the handler's. -/
def Reach.held (r : Reach) (g : Nat) : Option Held :=
  match r.hold with
  | some h =>
    match h.rg.wait with
    | some w => if h.rg.grp = g ∧ h.resume = false then
        some { rg := h.rg, w := w, grp := g, handler := true,
               cols := (h.active.filter (fun e => ((r.ctb? e.1).map (·.live e.2)).getD false)).map (·.1) }
      else none
    | none => none
  | none =>
    match r.rgs[g]? with
    | some rg => rg.wait.map (fun w => { rg := rg, w := w, grp := g, cols := r.liveCols g, handler := false })
    | none => none

/-- Change a held wait. -/
def Reach.modWait (r : Reach) (x : Held) (f : Wait → Wait) : Reach :=
  if x.handler then { r with hold := r.hold.map (fun h => { h with rg := { h.rg with wait := h.rg.wait.map f } }) }
  else { r with rgs := r.rgs.modify x.grp (fun rg => { rg with wait := rg.wait.map f }) }

/-- The planned tide of the wait on a column (10 R282). -/
def Held.planned (x : Held) (r : Reach) (l : Launch) (col : Nat) : Nat :=
  plannedAt { r with frames := x.w.frame } l col x.w.j

/-- The planned tide that the stream takes next on a column (10 R300). In a handler it is that of the stop. -/
def Held.next (x : Held) (r : Reach) (l : Launch) (col : Nat) : Nat :=
  plannedAt r l col (if x.handler then (r.hold.map (·.j)).getD 0 else 0)

/-- External waits (12 R337). -/
def WaitKind.external : WaitKind → Bool
  | .acq => true
  | .wait => true
  | .lwait => true
  | .coll => true
  | _ => false

/-! ### Children (03 R118) -/

/-- The launch that a reach group issued as its `ord`-th. -/
def State.childOf (s : State) (launch reach grp ord : Nat) : Option Launch :=
  s.launches.find? (fun l => match l.issuer with
    | .child a b c d => a == launch && b == reach && c == grp && d == ord
    | .host _ _ => false)

/-- What a handle names (03 R118). -/
inductive Handle where
  | null
  | invalid
  | valid (ord : Nat)
  deriving DecidableEq, Repr

/-- Reading a handle for a reach group (03 R118). A value with a nonzero bit in [63:41] is no handle that the group was
given, and is invalid (DESIGN CHOICE: the rule's conditions do not name those bits; notes/assumptions/31). -/
def readHandle (rg : RGroup) (x : DWord) : Handle :=
  let ord := (x.extractLsb' 37 4).toNat
  if x = BitVec.allOnes 64 then .null
  else if x.toNat < 2 ^ 41 ∧ (x.extractLsb' 0 32).toNat = rg.reach ∧ (x.extractLsb' 32 5).toNat = rg.grp ∧ ord < rg.issued then
    .valid ord
  else .invalid

/-! ### Readiness (12 R335, R344, R347, R341, 13 R381) -/

/-- A threshold is met (03 R100). -/
def metBy (count t : BitVec 16) : Bool := decide ((count - t).toNat < 32768)

/-- Every group of a CTB has ended. -/
def Ctb.allEnded (c : Ctb) : Bool := c.ended.isSome || c.groups.all (·.ended)

/-- Every group but one has ended. -/
def Ctb.othersEnded (c : Ctb) (g : Nat) : Bool :=
  (List.range c.groups.length).all (fun k => k == g || ((c.group? k).map (·.ended)).getD true)

/-- A barrier wait is ready, with its code (12 R344). -/
def Reach.barReady (r : Reach) (c : Ctb) (g : Group) : Option Word :=
  if g.target < c.bar.phase.toNat then some 0
  else
    match c.bar.exr with
    | some e =>
      if c.bar.remote.length + c.bar.carried.length < e ∧ c.bar.transit = [] ∧
          r.ctbs.all (fun x => x.2.blk != c.blk || x.2.lin == c.lin || x.2.allEnded) = true then some 6 else none
    | none => none

/-- A sound wait is ready: performed, or nothing can satisfy it any more (12 R347). -/
def Ctb.soundReady (c : Ctb) (k : Nat) (g : Group) : Option Word :=
  if g.ready then some g.code
  else
    match g.owed with
    | .push n _ => if c.othersEnded k ∧ ((c.sound? n).map (·.allow == 0)).getD false then some 6 else none
    | .pop n => if c.othersEnded k ∧ ((c.sound? n).map (·.count == 0)).getD false then some 6 else none
    | _ => none

/-- The leaf entry and the round that a `cwait` awaits. -/
def State.awaited (s : State) (c : Ctb) (rdx : Nat) : Option Round :=
  (s.coll? rdx).bind (fun x => x.round? (((c.leaf? rdx).map (·.lr)).getD 0))

/-- Readiness of a core for a wait, with the code in bits [7:0] and what else its status holds. -/
def State.readyOf (s : State) (r : Reach) (x : Held) (c : Ctb) (g : Group) : Option Word :=
  match x.w.kind with
  | .bar => r.barReady c g
  | .push => c.soundReady x.grp g
  | .pop => c.soundReady x.grp g
  | .acq => if metBy (s.obj x.w.obj.toNat) (x.w.arg.setWidth 16) then some 0 else none
  | .wait => if metBy (s.obj x.w.obj.toNat) (x.w.arg.setWidth 16) then some 0 else none
  | .lwait =>
    match readHandle x.rg x.w.obj with
    | .null => some 6
    | .invalid => some 8
    | .valid o =>
      match s.childOf r.launch x.rg.reach x.rg.grp o with
      | some l => if l.state = .done then some (BitVec.ofNat 32 l.status) else none
      | none => some 8
  | .coll =>
    if s.broken x.w.obj.toNat then some 7
    else if (s.awaited c x.w.obj.toNat).any (fun y => y.tide.isSome) then some 0 else none
  | .tsleep => none
  | .tresync => if x.w.resynced then some 0 else none

/-! ### The sample (12 R335, R344, R347) -/

/-- A barrier's sample (12 R344). `due` tells the arrivals that are registered at it. -/
def Ctb.sampleBarrier (c : Ctb) (due : Nat → Bool) : Ctb :=
  let b := c.bar
  let all := (List.range c.groups.length).all (fun g => bit b.arrived g || ((c.group? g).map (·.ended)).getD true)
  let e := b.exr.getD 0
  let carried := b.carried ++ (b.transit.filter (fun t => due t.1)).map (·.2)
  let transit := b.transit.filter (fun t => !due t.1)
  if all && decide (e ≤ b.remote.length) then
    { c with
      barRel := c.barRel ++ (b.remote.take e).filterMap (fun x => x.map (fun y => (b.phase, y)))
      bar := { b with phase := b.phase + 1, arrived := 0, remote := b.remote.drop e ++ carried, carried := [], exr := none,
                      transit := transit } }
  else { c with bar := { b with remote := b.remote ++ carried, carried := [], transit := transit } }

/-- The source of a pending push's record. -/
def Held.src (x : Held) (r : Reach) (l : Launch) (col : Nat) (c : Ctb) : TraceSrc where
  planned := x.planned r l col
  pc := x.rg.pc
  x := c.x
  y := c.y
  z := c.z
  stage := c.stage
  grp := x.grp
  lane := 255
  phase := c.bar.phase
  vector := false

/-- One pass over the pending operations of a CTB's sounds, groups ascending. -/
def State.servePass (s : State) (row slot col : Nat) (gs : List Nat) : State :=
  gs.foldl (fun s g =>
    match s.reach? row slot, s.ctb? row slot col with
    | some r, some c =>
      match c.group? g, r.held g, s.launch? r.launch with
      | some y, some x, some l =>
        match y.owed with
        | .push n v =>
          s.tryPush row slot col g n v { view := y.viewNow (.group l.id c.lin g) s.wseq, regs := boundTo r l col c (.snd (BitVec.ofNat 16 n)) }
            (x.src r l col c)
        | .pop n => s.tryPop row slot col g n
        | _ => s
      | _, _, _ => s
    | _, _ => s) s

/-- The service of the pending operations, until none can proceed (12 R347). -/
def State.serve (s : State) (row slot col : Nat) (gs : List Nat) : Nat → State
  | 0 => s
  | n + 1 => (s.servePass row slot col gs).serve row slot col gs n

/-- The state of a sound as `snd.peek` returns it (12 Table 12.9). -/
def State.peekWord (s : State) (q : Nat) (c : Ctb) (x : Sound) : Word :=
  let handle := if x.count = 0 then 0 else ofBytes ((s.core q).bytes (c.base + x.roff + 2 * x.head) 2)
  BitVec.ofNat 32 (handle + 65536 * (x.count % 256) + 16777216 * (x.allow % 256))

/-- The sample of one CTB: barrier, sounds, then readiness of the groups that wait. -/
def State.sampleCtb (s : State) (row slot col : Nat) : State :=
  match s.reach? row slot with
  | none => s
  | some r =>
    let handling := r.hold.isSome
    let internal := r.tallied || handling
    let due (f : Nat) : Bool := decide (f < r.frames) || (handling && decide (f ≤ r.frames))
    let s1 := if internal then s.modCtb row slot col (fun c => c.sampleBarrier due) else s
    let gs := match s1.ctb? row slot col with
      | some c => List.range c.groups.length
      | none => []
    let s2 := if internal then s1.serve row slot col gs 33 else s1
    let s3 := if internal then s2.modCtb row slot col (fun c =>
        { c with sounds := c.sounds.map (fun x => { x with sampled := s2.peekWord (coreIx row col) c x }) }) else s2
    gs.foldl (fun s g =>
      match s.reach? row slot with
      | none => s
      | some r =>
        match r.held g, r.ctb? col with
        | some x, some c =>
          if !x.cols.contains col || (!internal && !x.w.kind.external) then s
          else
            if x.w.kind = .tsleep then s else
            match (c.group? g).bind (s.readyOf r x c) with
            | some code => s.modGroup row slot col g (fun y => { y with ready := true, code := code })
            | none => s.modGroup row slot col g (fun y => { y with ready := false })
        | _, _ => s) s3

/-- READINESS_SAMPLE (12 R335). -/
def execReadinessSample (row slot : Nat) (s : State) : Out1 :=
  match s.reach? row slot with
  | none => .next s
  | some r =>
    if r.hold.isSome ∧ (r.hold.bind (fun h => h.rg.wait)).isNone then .next s
    else .next ((r.ctbs.filter (fun c => c.2.ended.isNone)).foldl (fun s c => s.sampleCtb row slot c.1) s)

/-! ### Completion (12 R339) -/

/-- The status of a wait is put in one group, landing after it (12 R339): the latch, whose run has ended, takes nothing. -/
def Group.putStatus (g : Group) (d : Dst) (pos run : Nat) (v : Word) : Group :=
  match dstReg d with
  | none => g
  | some n =>
    let g1 := g.alloc n
    { g1 with pend := g1.pend ++ [{ due := pos + 1, run := run, reg := some n, w64 := false, latch := none, lanes := g.active,
                                    vals := List.replicate 32 (v.setWidth 64), dead := [], rows := 0, flags := 0,
                                    see := none, item := 0 }] }

/-- The view that a completed wait leaves (12 Table 12.3, 10 R298, 03 R103, 13 R379); `u` limits the fires of a wait that
decides once. -/
def State.acquireView (s : State) (r : Reach) (l : Launch) (x : Held) (col : Nat) (c : Ctb) (g : Group) (u : Option Nat) :
    List Seen :=
  let fold (rs : List Release) (t : BindTgt) : List Seen :=
    let own := boundTo r l col c t
    rs.foldl (fun v y => acquire y own v) g.seen
  match x.w.kind with
  | .bar => fold ((c.barRel.filter (fun e => e.1.toNat == g.target)).map (·.2)) (.bar 0)
  | .pop =>
    let n := x.w.obj.toNat
    fold (((c.sndRel.filter (fun e => e.1 == n)).take g.target).map (·.2)) (.snd (BitVec.ofNat 16 n))
  | .acq =>
    let n := x.w.obj.toNat
    fold ((s.objRel.filter (fun e => e.1 == n && (match u with
      | some t => decide (e.2.1 < t)
      | none => true))).map (·.2.2)) (.obj (BitVec.ofNat 16 n))
  | .lwait =>
    match readHandle x.rg x.w.obj with
    | .valid o => ((s.childOf r.launch x.rg.reach x.rg.grp o).map (fun k =>
        k.doneView.foldl (fun v y => addSeen y.view v) g.seen)).getD g.seen
    | _ => g.seen
  | .tsleep =>
    match g.pTrack.getD x.w.obj.toNat none with
    | some id => addSeen [Seen.of id] g.seen
    | none => g.seen
  | _ => g.seen

/-- The status word of a completed wait: RESYNCED for a supervisor whose wait spanned a resynchronisation (12 Table 12.7);
what a `cwait` and a `tresync` add to it. -/
def State.statusWord (s : State) (l : Launch) (x : Held) (c : Ctb) (code : Word) : Word :=
  let super := x.handler || l.record.super
  let code1 := if code &&& 0xFF = 0 ∧ super = true ∧ x.w.resynced = true ∧ x.w.kind ≠ .lwait then code ||| 4 else code
  match x.w.kind with
  | .coll =>
    let lr := ((c.leaf? x.w.obj.toNat).map (·.lr)).getD 0
    let fl := if code &&& 0xFF = 0 then ((s.awaited c x.w.obj.toNat).map (fun y =>
      y.word (((s.coll? x.w.obj.toNat).map (·.bin)).getD false))).getD 0 else 0
    code1 ||| BitVec.ofNat 32 (256 * fl) ||| BitVec.ofNat 32 (65536 * (lr % 65536))
  | .tresync => 4 ||| BitVec.ofNat 32 (65536 * ((s.regs.rsyncstat.extractLsb' 16 8).toNat))
  | _ => code1

/-- What a `cwait` that returns OK leaves (13 R379, R381). -/
def State.collSeen (s : State) (row slot col g rdx : Nat) : State :=
  match s.ctb? row slot col with
  | none => s
  | some c =>
    match s.awaited c rdx with
    | none => s
    | some y =>
      let v : Seen := Seen.of y.wid
      let fl := y.word (((s.coll? rdx).map (·.bin)).getD false)
      s.modCtb row slot col (fun c => (c.modLeaf rdx (fun e => { e with obs := 1, flags := fl })).modGroup g (fun h =>
        { h with pseen := ((h.pseen.modify 4 (addSeen [v])).modify 1 (addSeen [v])).modify 2 (addSeen [v]) }))

/-- A launch whose final status the reach group has now observed (03 R122). -/
def State.observe (r : Reach) (s : State) (x : Held) : List (Nat × Word) :=
  match x.w.kind, readHandle x.rg x.w.obj with
  | .lwait, .valid o =>
    match s.childOf r.launch x.rg.reach x.rg.grp o with
    | some l => if l.state = .done then [(o, BitVec.ofNat 32 l.status)] else []
    | none => []
  | _, _ => []

/-- One core completes the wait with a code; a lost ring access raises its fault in place of the status (12 R347). -/
def State.finishCore (s : State) (row slot : Nat) (x : Held) (u : Option Nat) (col : Nat) (code : Word) : State :=
  match s.reach? row slot with
  | none => s
  | some r =>
    match r.ctb? col, s.launch? r.launch with
    | some c, some l =>
      match c.group? x.grp with
      | none => s
      | some g =>
        let ok : Bool := if x.w.kind = .lwait then (State.observe r s x != []) && code != 9 else code &&& 0xFF == 0
        let st := s.statusWord l x c code
        let len := s.lenAt l x.rg.pc
        let view := if ok then s.acquireView r l x col c g u else g.seen
        let s1 := s.modGroup row slot col x.grp (fun g =>
          let g1 := { g with seen := view, ready := false, code := 0, owed := .none }
          match g.owed with
          | .lost a => { g1 with lateErr := g1.lateErr ++
              [{ due := x.rg.pos + 1, planned := x.planned r l col, pc := x.rg.pc, addr := a, lane := 0, ilen := len }] }
          | _ => if code = skippedWait then g1 else g1.putStatus x.w.dst x.rg.pos r.run st)
        if ok && x.w.kind == .coll then s1.collSeen row slot col x.grp x.w.obj.toNat else s1
    | _, _ => s

/-- The wait is over: every core writes its status, and the group goes on to the next position. `u` limits, on each column, the
fires of a wait that decides once (12 R338). What a handler observes its reach group has observed (03 R122). -/
def State.finishWait (s : State) (row slot : Nat) (x : Held) (u : Nat → Option Nat) (codes : List (Nat × Word))
    (seen : Bool) : State :=
  match s.reach? row slot with
  | none => s
  | some r =>
    let s1 := codes.foldl (fun s e => s.finishCore row slot x (u e.1) e.1 e.2) s
    let obs := if seen then State.observe r s x else []
    let len := s.runLen r
    let s2 := s1.modReach row slot (fun r =>
      let fix (rg : RGroup) : RGroup := { rg with wait := none, idx := 0, observed := rg.observed ++ obs }
      if x.handler then
        match r.hold with
        | some h =>
          let r1 := r.advanceHandler h 0 len
          { r1 with
            hold := r1.hold.map (fun h => { h with rg := fix h.rg })
            rgs := r1.rgs.modify x.grp (fun rg => { rg with observed := rg.observed ++ obs }) }
        | none => r
      else
        let r1 := r.advanceGroup x.grp 0 len
        { r1 with rgs := r1.rgs.modify x.grp fix })
    match (s2.reach? row slot).bind (fun r => r.rgs[x.grp]?) with
    | some rg => if rg.steps.any (fun e => e.2.1 == 0) = true ∧ x.handler = false then s2.schedule s2.time 0 (.op (.stepCountReached row slot x.grp))
        else s2
    | none => s2

/-! ### Idle resident frames (12 R338, Table 12.6) -/

/-- A reach that is resident, not on hold, and issues no position other than held waits. -/
def Reach.quiet (r : Reach) : Bool := r.resident && r.hold.isNone && !r.moved && !r.moving

/-- Every unfinished reach of a launch is resident and quiet. -/
def State.launchQuiet (s : State) (l : Launch) : Bool :=
  (List.range l.record.numReaches).all (fun j => l.finished.contains j ||
    s.reaches.any (fun r => r.launch == l.id && r.j == j && r.quiet))

/-- Some CTB of a launch has bound a region to an object. -/
def State.bindsObj (s : State) (launch n : Nat) : Bool :=
  s.reaches.any (fun r => r.launch == launch && r.ctbs.any (fun c =>
    c.2.binds.any (fun b => b.tgt == .obj (BitVec.ofNat 16 n))))

/-- Whether the frame just past was an idle resident frame of the wait. -/
def State.idleFrame (s : State) (r : Reach) (x : Held) : Bool :=
  match x.w.kind with
  | .bar => r.tallied && !r.moved && !x.handler
  | .push => r.tallied && !r.moved && !x.handler
  | .pop => r.tallied && !r.moved && !x.handler
  | .lwait =>
    match readHandle x.rg x.w.obj with
    | .valid o => !x.handler && (s.childOf r.launch x.rg.reach x.rg.grp o).any (fun l => l.state == .running && s.launchQuiet l)
    | _ => false
  | .coll => !x.handler && s.reaches.all (fun y =>
      y.ctbs.all (fun c => c.2.ended.isSome || (c.2.leaf? x.w.obj.toNat).isNone || y.quiet))
  | .tsleep => false
  | .tresync => false
  | _ => !x.handler && s.launches.all (fun l =>
      !((l.state == .running || l.state == .draining) && (l.record.complete == x.w.obj.toNat || s.bindsObj l.id x.w.obj.toNat)) || s.launchQuiet l)

/-! ### Decisions of an external wait with e = 0 (12 R338, 03 R122, 13 R381) -/

/-- Some reach other than the waiting one has yet to pass a planned tide. -/
def State.behind (s : State) (r : Reach) (u : Nat) (among : Launch → Bool) : Bool :=
  s.launches.any (fun l => among l && (l.state == .running) && (List.range l.record.numReaches).any (fun j =>
    !l.finished.contains j && !(l.id == r.launch && j == r.j) &&
      (match s.reaches.find? (fun y => y.launch == l.id && y.j == j) with
       | some y => decide (plannedAt y l 0 0 < u)
       | none => true)))

/-- The fires of an object whose planned tide precedes `u`, as its count. -/
def State.countBefore (s : State) (n u : Nat) : BitVec 16 :=
  s.obj n - BitVec.ofNat 16 (s.objRel.filter (fun e => e.1 == n && decide (u ≤ e.2.1))).length

/-- What such a wait decides on a column: `none` while it is not known. A column decides at its own planned tide of the wait,
which comes 16 tides after its western neighbour's (DESIGN CHOICE: the rules speak of the wait's planned tide; a core's own is
the one R282 gives it; notes/assumptions/32). -/
def State.zeroCode (s : State) (r : Reach) (x : Held) (col u : Nat) : Option Word :=
  match x.w.kind with
  | .lwait =>
    match readHandle x.rg x.w.obj with
    | .null => some 6
    | .invalid => some 8
    | .valid o =>
      match s.childOf r.launch x.rg.reach x.rg.grp o with
      | none => some 8
      | some l =>
        if l.state = .done then some (if l.doneTide < u then BitVec.ofNat 32 l.status else 9)
        else if l.state = .draining then none
        else if l.state = .running then (if s.behind r u (fun k => k.id == l.id) then none else some 9)
        else if s.time < u then none else some 9
  | .coll =>
    if s.broken x.w.obj.toNat then some 7
    else
      match ((s.reach? r.row r.slot).bind (fun r => r.ctb? col)).bind (fun c => s.awaited c x.w.obj.toNat) with
      | some y =>
        match y.tide with
        | some t => some (if t < u then 0 else 1)
        | none => if s.time < u then none else some 1
      | none => if s.time < u then none else some 1
  | _ =>
    let n := x.w.obj.toNat
    let open1 := s.fires.any (fun f => f.obj == n && decide (f.planned < u)) ||
      s.launches.any (fun l => l.record.complete == n && (l.state == .draining ||
        ((l.state == .validating || l.state == .preparing || l.state == .ready) && decide (s.time < u)))) ||
      s.behind r u (fun _ => true)
    if open1 then none
    else some (if metBy (s.countBefore n u) (x.w.arg.setWidth 16) then 0 else 1)

/-! ### `tsleep` (10 R300, R301, R313) -/

/-- What a `tsleep` finds on one core; `late` tells a promise that has passed, and one that was missed, with its transfer. -/
inductive Sleep where
  | ready (code : Word)
  | early
  | late (missed : Option (Nat × Nat))
  deriving DecidableEq, Repr

/-- The state of a core's promise at the next planned tide. -/
def State.sleepOf (s : State) (r : Reach) (l : Launch) (x : Held) (col : Nat) (g : Group) : Sleep :=
  let n := x.w.obj.toNat
  let next := x.next r l col
  let v := s.pNow g n next
  let t := (g.pTrack.getD n none).bind s.xfer?
  let due := if x.w.texp = 0 then x.planned r l col else next
  if g.ready ∧ g.code = skippedWait then .ready skippedWait
  else if (t.bind (fun y => y.missedBy due)).isSome then .late (t.bind (fun y => (y.missedBy due).map (fun p => (y.id, p))))
  else if v = emptyP then .ready 2
  else if v.getLsbD 63 then
    (if v.setWidth 8 = (5 : BitVec 8) then .ready 5 else .ready (3 ||| ((v.setWidth 32 &&& 0xFF) <<< 8)))
  else if x.w.texp = 0 ∧ x.planned r l col < v.toNat then .ready 1
  else if next < v.toNat then .early
  else
    match t with
    | some t => if t.landed then .ready 0 else .late none
    | none => .ready 0

/-- The missed promises of columns stop the reach at the held `tsleep` (10 R301), each recorded on its own core. -/
def State.missedAt (s : State) (row slot : Nat) (x : Held) (ts : List (Nat × Nat × Nat)) : State :=
  match s.reach? row slot with
  | none => s
  | some r =>
    match s.launch? r.launch with
    | none => s
    | some l =>
      let fs : List FaultRec := ts.map (fun e =>
        { j := 0, col := e.1, grp := x.grp, lane := 0, tlane := 0, cause := cMissedPromise, addr := BitVec.ofNat 64 e.2.2,
          wide := false, late := true, planned := x.planned r l e.1, pc := x.rg.pc, ilen := s.lenAt l x.rg.pc, res := x.rg.pc,
          curs := 0 })
      let s1 := ts.foldl (fun (s : State) e => s.modXfer e.2.1 (fun y => { y with told := e.2.2 })) s
      if r.hold.isSome then { s1 with faults := fs }.schedule s1.time 0 (.op (.trapEntry row slot))
      else { s1 with faults := fs }.stopReach r 0

/-- The decision of a `tsleep`: a missed promise is a trap (10 R301); else it completes, idles, or holds the reach uncounted. -/
def State.decideSleep (s : State) (r : Reach) (l : Launch) (x : Held) : State :=
  let ss := x.cols.filterMap (fun c => ((r.ctb? c).bind (·.group? x.grp)).map (fun g => (c, s.sleepOf r l x c g)))
  let code (k : Sleep) : Word := match k with
    | .ready w => w
    | _ => 1
  let late (s : State) : State := if x.handler then s else s.modReach r.row r.slot (fun r => { r with stalled := true, counted := false })
  match ss.filterMap (fun e => match e.2 with
    | .late (some t) => some (e.1, t)
    | _ => none) with
  | t :: ts => (late s).missedAt r.row r.slot x (t :: ts)
  | [] =>
    if ss.all (fun e => match e.2 with | .ready _ => true | _ => false) then
      s.finishWait r.row r.slot x (fun _ => none) (ss.map (fun e => (e.1, code e.2))) false
    else if ss.any (fun e => e.2 == .early) then
      let idle := x.w.idle + 1
      if x.w.texp < 31 ∧ 2 ^ x.w.texp ≤ idle ∧ x.handler = false then
        s.modReach r.row r.slot (fun r => r.modWait x (fun w => { w with idle := idle })) |>.schedule s.time 1
          (.op (.waitTimeout r.row r.slot x.grp))
      else s.modReach r.row r.slot (fun r => r.modWait x (fun w =>
        { w with idle := if x.handler then w.idle else idle }))
    else late s

/-! ### Decisions (12 R335, R337, R338) -/

/-- Hold the reach, uncounted (12 R337). -/
def Reach.stall (r : Reach) (x : Held) : Reach :=
  if x.handler then r else { r with stalled := true, counted := false }

/-- Readiness at the last sample, by column; a broken descriptor tells at the decision (13 R378, R381). -/
def State.codes (s : State) (r : Reach) (x : Held) : List (Nat × Option Word) :=
  let broken := x.w.kind == .coll && s.broken x.w.obj.toNat
  x.cols.map (fun c => (c, ((r.ctb? c).bind (·.group? x.grp)).bind (fun g =>
    if g.ready && g.code == skippedWait then some g.code
    else if broken then some 7
    else if g.ready then some g.code else none)))

/-- The decision of a wait other than `tsleep`. -/
def State.judge (s : State) (r : Reach) (l : Launch) (x : Held) : State :=
  if x.w.texp = 0 ∧ x.w.kind.external = true then
    let zs := x.cols.map (fun c => (c, s.zeroCode r x c (x.planned r l c)))
    if zs.all (fun e => e.2.isSome) then
      s.finishWait r.row r.slot x (fun c => some (x.planned r l c))
        (zs.map (fun e => (e.1, e.2.getD 1))) (zs.all (fun e => e.2 != some 9))
    else s.modReach r.row r.slot (fun r => r.stall x)
  else
    let cs := s.codes r x
    if cs.all (fun e => e.2.isSome) then
      s.finishWait r.row r.slot x (fun _ => none) (cs.map (fun e => (e.1, e.2.getD 0))) true
    else
      let idle := x.w.idle + (if s.idleFrame r x then 1 else 0)
      let s1 := s.modReach r.row r.slot (fun r => r.modWait x (fun w => { w with idle := idle, decided := true }))
      if x.w.kind ≠ .tresync ∧ (x.w.texp = 0 ∨ (x.w.texp < 31 ∧ 2 ^ x.w.texp ≤ idle)) then
        s1.schedule s1.time 1 (.op (.waitTimeout r.row r.slot x.grp))
      else if x.w.kind.external then s1.modReach r.row r.slot (fun r => r.stall x)
      else s1

/-- WAIT_DECISION (12 R335). -/
def execWaitDecision (row slot group : Nat) (s : State) : Out1 :=
  match s.reach? row slot with
  | none => .next s
  | some r =>
    match r.held group, s.launch? r.launch with
    | some x, some l => .next (if x.w.kind = .tsleep then s.decideSleep r l x else s.judge r l x)
    | _, _ => .next s

/-- WAIT_TIMEOUT (12 R335, R338, R339): every core completes with its own status; a pending push or pop is withdrawn. -/
def execWaitTimeout (row slot group : Nat) (s : State) : Out1 :=
  match s.reach? row slot with
  | none => .next s
  | some r =>
    match r.held group, s.launch? r.launch with
    | some x, some l =>
      let late : Word := if x.w.kind = .lwait then 9 else 1
      let cs := if x.w.kind = .tsleep then
          x.cols.filterMap (fun c => ((r.ctb? c).bind (·.group? group)).map (fun g =>
            (c, match s.sleepOf r l x c g with
                | .ready w => w
                | _ => 1)))
        else (s.codes r x).map (fun e => (e.1, e.2.getD late))
      .next (s.finishWait row slot x (fun _ => none) cs false)
    | _, _ => .next s

end Sys2Proof.Machine
end

