-- ==== Sys2Proof/Machine/Launch.lean ====
section
/-! DEFINITION. Launches (03 R86 to R104, R117 to R125): the record and its validation, preparation, start conditions,
completion, and the instructions of the launch class. Rows and switches stand in Scheduler.lean. -/
namespace Sys2Proof.Machine

/-! ### Reading the record (03 R86, R87, Table 3.2 Reading) -/

/-- The physical address that the issuer of a launch reads at a virtual one: through its translation set, or for the host
through the page tables, as master 16. -/
def State.issuerAddr (s : State) (iss : Option Launch) (va : Nat) : Option Nat :=
  match iss with
  | some l => if l.canR va then l.phys va else none
  | none =>
    match s.walk va with
    | some (e, b) =>
      let pa := e.pa + (va - b)
      if e.r && s.acctlR (stackOf pa) 16 then some pa else none
    | none => none

def State.issuerCan (s : State) (iss : Option Launch) (va n : Nat) : Bool :=
  (List.range n).all (fun i => (s.issuerAddr iss (va + i)).isSome)

def State.issuerBytes (s : State) (iss : Option Launch) (va n : Nat) : List Byte :=
  (List.range n).map (fun i => match s.issuerAddr iss (va + i) with
    | some pa => s.dramByte pa
    | none => 0)

/-- Field of `n` bytes at offset `o` of a block of bytes. -/
def fieldOf (bs : List Byte) (o n : Nat) : Nat := ofBytes ((bs.drop o).take n)

/-- A record from its 256 bytes (03 Table 3.1). -/
def recordOf (bs : List Byte) : Record :=
  let v (o n : Nat) : Nat := fieldOf bs o n
  let d (o : Nat) : DWord := BitVec.ofNat 64 (v o 8)
  { entry := d 0x00, handler := d 0x08, args := d 0x10, gridx := v 0x18 4, gridy := v 0x1C 2, gridz := v 0x1E 2,
    stages := v 0x20 1, groups := v 0x21 1, lanes := v 0x22 1, runExp := v 0x23 1, rowoff := v 0x24 1, edge := v 0x25 1,
    detcls := v 0x26 1, prio := v 0x27 1 % 4, super := (BitVec.ofNat 8 (v 0x27 1)).getLsbD 2, budget := v 0x28 2,
    reserve := v 0x2A 2, lsbytes := v 0x2C 2, rowmask := BitVec.ofNat 16 (v 0x2E 2), scrbytes := v 0x30 4,
    childmax := v 0x34 2, complete := v 0x36 2, plane := BitVec.ofNat 8 (v 0x38 1), engshare := d 0x40,
    accmask := (List.range 16).map (fun n => BitVec.ofNat 16 (v (0x48 + 2 * n) 2)),
    fmt := (List.range 8).map (fun n => d (0x68 + 8 * n)), preload := d 0xA8, writeback := d 0xB0, mapset := d 0xB8,
    sounds := d 0xC0, npre := v 0xC8 2, nwb := v 0xCA 2, nmap := v 0xCC 2, sndmask := BitVec.ofNat 16 (v 0xCE 2),
    deps := (List.range 4).map (fun n => (BitVec.ofNat 16 (v (0xD0 + 4 * n) 2), BitVec.ofNat 16 (v (0xD2 + 4 * n) 2))),
    debug := d 0xE0, save := d 0xE8, mirror := d 0xF0, childarea := d 0xF8 }

/-- A preload or writeback entry (03 Table 3.3). -/
def entryOf (bs : List Byte) : ListEntry where
  gaddr := BitVec.ofNat 64 (fieldOf bs 0 8)
  bstride := BitVec.ofNat 64 (fieldOf bs 8 8)
  sstride := BitVec.ofNat 32 (fieldOf bs 16 4)
  soff := fieldOf bs 20 4
  bytes := fieldOf bs 24 4
  zero := fieldOf bs 28 4 % 2 == 1

/-- A map-set region (03 R92). -/
def regionOf (bs : List Byte) : MapRegion :=
  let acc := BitVec.ofNat 32 (fieldOf bs 12 4)
  { base := BitVec.ofNat 64 (fieldOf bs 0 8), len := fieldOf bs 8 4, r := acc.getLsbD 0, w := acc.getLsbD 1,
    x := acc.getLsbD 2 }

/-- Blocks of `size` bytes. -/
def blocksOf (size : Nat) (bs : List Byte) (n : Nat) : List (List Byte) :=
  (List.range n).map (fun i => (bs.drop (size * i)).take size)

/-! ### Validation (03 Table 3.2, R88 to R95) -/

/-- The limits of 03 Table 3.1 and the reserved bytes of the record. -/
def Record.limitsOk (r : Record) (bs : List Byte) : Bool :=
  decide (r.entry.toNat % 32 = 0 ∧ r.handler.toNat % 32 = 0 ∧ r.stages ≤ 4 ∧ 1 ≤ r.groups ∧ r.groups ≤ 32 ∧ 1 ≤ r.lanes ∧
    r.lanes ≤ 32 ∧ r.runExp ≤ 3 ∧ r.rowoff ≤ 2 ∧ r.edge ≤ 1 ∧ r.detcls ≤ 1) &&
  decide (1 ≤ r.budget ∧ r.budget ≤ 768 ∧ r.reserve ≤ 768 ∧ r.lsbytes % 8 = 0 ∧ r.lsbytes ≤ 1024 ∧ r.rowmask ≠ 0 ∧
    r.scrbytes % 64 = 0 ∧ r.scrbytes ≤ 2097152 ∧ r.childmax ≤ 15) &&
  decide (r.preload.toNat % 8 = 0 ∧ r.writeback.toNat % 8 = 0 ∧ r.mapset.toNat % 8 = 0 ∧ r.sounds.toNat % 8 = 0 ∧
    r.npre ≤ 256 ∧ r.nwb ≤ 256 ∧ 1 ≤ r.nmap ∧ r.nmap ≤ 4096 ∧ r.save.toNat % 65536 = 0 ∧
    (r.save = 0 ∨ r.mirror.toNat % 65536 = 0) ∧ (r.childmax = 0 ∨ r.childarea.toNat % 64 = 0)) &&
  decide (fieldOf bs 0x27 1 < 8 ∧ fieldOf bs 0x38 1 < 32 ∧ fieldOf bs 0x39 7 = 0)

/-- A byte range is covered by the regions that a permission selects. -/
def covered (ms : List MapRegion) (p : MapRegion → Bool) (a n : Nat) : Nat → Bool
  | 0 => decide (n = 0)
  | fuel + 1 =>
    if n = 0 then true
    else
      match ms.find? (fun m => p m && decide (m.base.toNat ≤ a) && decide (a < m.base.toNat + m.len)) with
      | some m => covered ms p (m.base.toNat + m.len) (a + n - (m.base.toNat + m.len)) fuel
      | none => false

def inMaps (ms : List MapRegion) (p : MapRegion → Bool) (a n : Nat) : Bool := covered ms p a n (ms.length + 1)

/-- The global address of an entry for a CTB (03 R90). -/
def ListEntry.addr (e : ListEntry) (b st : Nat) : Nat :=
  (e.gaddr + BitVec.ofNat 64 b * e.bstride + BitVec.ofNat 64 st * e.sstride.signExtend 64).toNat

/-- 03 R90, Table 3.3 and the reserved bits of an entry. Of an empty grid, whose corner b = B - 1 does not exist, block 0 is
checked (notes/assumptions/31: DESIGN CHOICE). -/
def ListEntry.ok (e : ListEntry) (r : Record) (ms : List MapRegion) (wb : Bool) (flags : Nat) : Bool :=
  let s := r.stageCount
  let b := r.blocks
  decide (e.gaddr.toNat % 8 = 0 ∧ e.bstride.toNat % 8 = 0 ∧ e.sstride.toNat % 8 = 0 ∧ e.soff % 8 = 0 ∧ 8 ≤ e.bytes ∧
    e.bytes ≤ 2097152 ∧ e.bytes % 8 = 0 ∧ e.soff + e.bytes ≤ r.scrbytes ∧ flags < (if wb then 1 else 2)) &&
  [(0, 0), (0, s - 1), (b - 1, 0), (b - 1, s - 1)].all (fun c =>
    inMaps ms (fun m => if wb then m.w else m.r) (e.addr c.1 c.2) e.bytes) &&
  (!wb || ((decide (s ≤ 1) || decide (e.bytes ≤ e.sstride.toInt.natAbs)) &&
    (decide (b ≤ 1) || decide (e.bytes + (s - 1) * e.sstride.toInt.natAbs ≤ e.bstride.toInt.natAbs))))

/-- Capacity (03 R89). -/
def Record.capacityOk (r : Record) (marked : Bool) : Bool :=
  let q := r.slotsQ
  decide (q * (if marked then r.budget else r.budget + r.reserve) ≤ 768) &&
    decide (q * r.lanes * r.lsbytes ≤ 32768) && decide (q * r.scrbytes ≤ 2097152)

/-- The engine map check of 03 Table 3.2. -/
def Record.engineOk (r : Record) : Bool :=
  let share (n : Nat) : Nat := (r.engshare.extractLsb' (4 * n) 4).toNat
  let acc (n : Nat) : BitVec 16 := r.accmask.getD n 0
  (List.range 16).all (fun i => (List.range 16).all (fun j => i == j || (acc i &&& acc j) == 0)) &&
  (List.range 16).all (fun i => share i != 0 || acc i == 0) &&
  decide (((List.range 16).map share).sum ≤ 16) &&
  (!r.plane.getLsbD 4 || share (r.plane.extractLsb' 0 4).toNat != 0)

/-- Bytes of a save slot (03 R114). -/
def Record.slotSize (r : Record) : Nat :=
  let n := 4096 + r.groups * (2560 + 128 * r.budget + r.lanes * r.lsbytes) + 128 * r.reserve + r.scrbytes + 167936
  (n + 65535) / 65536 * 65536

/-- The save check of 03 Table 3.2. -/
def State.saveOk (s : State) (r : Record) (ms : List MapRegion) : Bool :=
  let n := r.numCtbs * r.slotSize
  let st (a : DWord) : Option Nat := (s.walk a.toNat).map (fun e => stackOf (e.1.pa + (a.toNat - e.2)))
  inMaps ms (·.w) r.save.toNat n && inMaps ms (·.w) r.mirror.toNat n &&
    !((st r.save).isSome && st r.save == st r.mirror)

/-- What a launch's lists hold, as they were read at issue. -/
structure Lists where
  maps : List MapRegion
  acc  : List Nat
  pre  : List ListEntry
  wb   : List ListEntry
  fpre : List Nat
  fwb  : List Nat
  snds : List SoundDecl
  sbad : Bool
  deriving DecidableEq, Repr

/-- The sound declarations that SNDMASK selects, as 8-byte words (03 R93). -/
def soundOf (n : Nat) (bs : List Byte) : SoundDecl where
  n := n
  roff := fieldOf bs 0 3
  depth := fieldOf bs 3 1
  allow := fieldOf bs 4 2

/-- 03 R93. -/
def SoundDecl.ok (d : SoundDecl) (scr : Nat) (bs : List Byte) : Bool :=
  decide (d.roff % 8 = 0 ∧ 1 ≤ d.depth ∧ d.allow ≤ d.depth ∧ d.roff + 2 * d.depth ≤ scr ∧ fieldOf bs 6 2 = 0)

/-- Read the lists of a record; none when a byte cannot be read. -/
def State.readLists (s : State) (iss : Option Launch) (r : Record) : Option Lists :=
  let decl := (List.range 16).filter (fun n => r.sndmask.getLsbD n)
  if s.issuerCan iss r.mapset.toNat (16 * r.nmap) && s.issuerCan iss r.preload.toNat (32 * r.npre) &&
      s.issuerCan iss r.writeback.toNat (32 * r.nwb) &&
      decl.all (fun n => s.issuerCan iss (r.sounds.toNat + 8 * n) 8) then
    let mb := blocksOf 16 (s.issuerBytes iss r.mapset.toNat (16 * r.nmap)) r.nmap
    let pb := blocksOf 32 (s.issuerBytes iss r.preload.toNat (32 * r.npre)) r.npre
    let wb := blocksOf 32 (s.issuerBytes iss r.writeback.toNat (32 * r.nwb)) r.nwb
    let sb := decl.map (fun n => (n, s.issuerBytes iss (r.sounds.toNat + 8 * n) 8))
    some { maps := mb.map regionOf, acc := mb.map (fun b => fieldOf b 12 4), pre := pb.map entryOf, wb := wb.map entryOf,
           fpre := pb.map (fun b => fieldOf b 28 4), fwb := wb.map (fun b => fieldOf b 28 4),
           snds := sb.map (fun e => soundOf e.1 e.2), sbad := sb.any (fun e => !(soundOf e.1 e.2).ok r.scrbytes e.2) }
  else none

/-- The checks of 03 Table 3.2 on a record and its lists. -/
def State.recordOk (s : State) (iss : Option Launch) (super : Bool) (bs : List Byte) (r : Record) (x : Lists) : Bool :=
  let marked := s.regs.detcfg.getLsbD 0
  let zero := r.blocks == 0
  r.limitsOk bs && !x.sbad &&
  (x.maps.zip x.acc).all (fun m => decide (m.1.base.toNat % 4096 = 0 ∧ m.1.len ≠ 0 ∧ m.1.len % 4096 = 0 ∧ m.2 < 8)) &&
  inMaps x.maps (·.x) r.entry.toNat 4 && (r.handler == 0 || inMaps x.maps (·.x) r.handler.toNat 4) &&
  (!r.super || iss.isNone || super) && !(r.detcls == 0 && marked) && decide (r.numReaches ≤ 0xFFFFFFFF) &&
  (zero || r.capacityOk marked) && r.engineOk && r.fmt.all (fun d => d == 0 || slotValid d) &&
  (x.pre.zip x.fpre).all (fun e => e.1.ok r x.maps false e.2) &&
  (x.wb.zip x.fwb).all (fun e => e.1.ok r x.maps true e.2) &&
  r.deps.all (fun d => d.2 == 0 || d.1 != 0) && (zero || r.save == 0 || s.saveOk r x.maps) &&
  (zero || r.save != 0 || decide (r.numReaches ≤ r.positions)) &&
  (r.childmax == 0 || inMaps x.maps (·.w) r.childarea.toNat (64 * r.numReaches * r.groups * r.childmax))

/-- 03 R94. -/
def replayableMaps (ms : List MapRegion) : Bool :=
  !(ms.any (fun a => a.w && ms.any (fun b => b.r && decide (a.base.toNat < b.base.toNat + b.len) &&
    decide (b.base.toNat < a.base.toNat + a.len))))

/-- The launches from an issuer to the root (03 R110). -/
def State.chain (s : State) : Nat → Option Launch → List Launch
  | 0, _ => []
  | _, none => []
  | n + 1, some l =>
    l :: (match l.issuer with
      | .child p _ _ _ => s.chain n (s.launch? p)
      | .host _ _ => [])

/-- 03 R110. -/
def State.blocked (s : State) (iss : Option Launch) (r : Record) : Bool :=
  (s.chain s.launches.length iss).any (fun l => l.record.save == 0 && (l.record.rowmask &&& r.rowmask) != 0)

/-- A launch begins VALIDATING (03 R121, R98): its record and lists are read, and what validation will find is settled
(03 R87, R88). -/
def State.beginLaunch (s : State) (iss : Option Launch) (issuer : Issuer) (ident : Nat) (rec : DWord) (declared : Nat)
    (late super : Bool) (tide : Nat) (rel : List Release) : State :=
  let aligned := rec.toNat % 64 == 0
  let can := aligned && s.issuerCan iss rec.toNat 256
  let bs := if can then s.issuerBytes iss rec.toNat 256 else List.replicate 256 0
  let r := recordOf bs
  let x := if can then s.readLists iss r else none
  let code : Nat := match x with
    | none => 5
    | some y =>
      if !s.recordOk iss super bs r y then 5
      else if s.blocked iss r then 7
      else if declared % 8192 ≠ 0 then 0x0E
      else 0
  let y := x.getD { maps := [], acc := [], pre := [], wb := [], fpre := [], fwb := [], snds := [], sbad := false }
  let id := s.nextId + 1
  let l : Launch :=
    { id := id, ident := ident, issuer := issuer, recAddr := rec, late := late, declared := declared, issueTide := tide
      issuerSuper := super, state := .validating, status := code, record := r, pre := y.pre, wb := y.wb, maps := y.maps
      snds := y.snds, marked := s.regs.detcfg.getLsbD 0, replayable := replayableMaps y.maps, south := false
      refused := code != 0, cancelled := false, trans := [], promise := none, effective := none, ends := [], finished := []
      wbLeft := [], release := rel, doneView := [], doneTide := 0, replays := 0, acted := false }
  { s with launches := s.launches ++ [l], nextId := id }.later (workAfter tide 512) 1 (.validationSpanEnd id)

/-! ### Completion (03 R100, R103, R104, R120) -/

/-- The physical address of a launch's status entry (03 R120, 18 R442). -/
def State.statusAt (s : State) (l : Launch) : Option Nat :=
  match l.issuer with
  | .host _ pa => some pa
  | .child p _ _ _ => (s.launch? p).bind (fun x => if x.mayWrite l.ident then x.phys l.ident else none)

/-- The state of a launch becomes DONE: its status entry is written, and what belonged to it goes. -/
def State.doneLaunch (s : State) (l : Launch) (status tide : Nat) : State :=
  let bs := toBytes 4 status ++ toBytes 4 0 ++
    toBytes 8 (match l.effective with
      | some t => t
      | none => 2 ^ 64 - 1) ++ List.replicate 48 0
  let s1 := match s.statusAt l with
    | some pa => s.dramWrite pa bs
    | none => s
  { s1.modLaunch l.id (fun x => { x with state := .done, status := status, doneTide := tide }) with
    xfers := s1.xfers.filter (fun x => x.launch != l.id)
    requests := s1.requests.filter (fun x => x.x.launch != l.id)
    reaches := s1.reaches.filter (fun r => r.launch != l.id) }

/-- The completion fire (03 R100, R103). -/
def State.completionFire (s : State) (l : Launch) (tide : Nat) (view : List Seen) : State :=
  if l.record.complete = 0 then s
  else s.fireObj l.record.complete tide
    { view := view, regs := l.trans.map (fun g => { core := none, base := g.pa, len := g.len }) }

/-- A launch that runs nothing ends with a status; it fires unless it was refused (03 R88, R100). -/
def State.endUnrun (s : State) (l : Launch) (status tide : Nat) (fire : Bool) : State :=
  let s1 := s.doneLaunch l status tide
  if fire then s1.completionFire l tide [] else s1

/-- The final status of a launch that ran (03 R104): that of the lowest CTB that did not end normally. -/
def endCode : CtbEnd → Nat
  | .ok => 0
  | .faulted => 0x0A
  | .killed => 0x0D
  | .restoreLost => 0x0B
  | .debugRevoked => 0x0C

def finalStatus (ends : List (Nat × CtbEnd)) : Nat :=
  match (ends.foldl (fun (a : Option (Nat × CtbEnd)) e =>
    if e.2 = .ok then a
    else match a with
      | some x => if e.1 < x.1 then some e else a
      | none => some e) none) with
  | some e => endCode e.2
  | none => 0

/-- A CTB's writes and what its groups have seen: its stores, items and transfers (03 R103). -/
def State.ctbView (s : State) (launch : Nat) (c : Ctb) : List Seen :=
  let xs := (s.xfers.filter (fun x => x.launch == launch && x.lin == c.lin)).map (fun x => Seen.of x.id)
  (c.groups.zip (List.range c.groups.length)).foldl (fun v (e : Group × Nat) =>
    let items := (e.1.seen.filter (fun y => y.own && y.upto.isNone)).map (fun y => { y with own := false })
    addSeen (items ++ e.1.viewNow (.group launch c.lin e.2) s.wseq) v) xs

/-- The writes that a completion releases: those of the launch's CTBs and writebacks (03 R103). -/
def State.launchView (s : State) (id : Nat) : List Seen :=
  (s.reaches.filter (fun r => r.launch == id)).foldl (fun v r => r.ctbs.foldl (fun v c => addSeen (s.ctbView id c.2) v) v) []

/-- Some work of a launch's engines is left: a writeback, a dump, or another copy. -/
def State.launchBusy (s : State) (l : Launch) : Bool :=
  s.xfers.any (fun x => x.launch == l.id && !x.landed) || s.requests.any (fun r => r.x.launch == l.id) || l.wbLeft != []

/-- A copy of a CTB, or a request of the engine for it, is left. -/
def State.linBusy (s : State) (launch lin : Nat) : Bool :=
  s.xfers.any (fun x => x.launch == launch && x.lin == lin && !x.landed) ||
    s.requests.any (fun r => r.x.launch == launch && r.x.lin == lin)

/-- A reach is finished: its CTBs have ended and their writebacks and dumps have landed (notes/assumptions/18). -/
def State.reachOver (s : State) (l : Launch) (r : Reach) : Bool :=
  r.launch == l.id && r.ctbs.all (fun c => c.2.ended.isSome && !l.wbLeft.contains c.2.lin && !s.linBusy l.id c.2.lin)

/-- A task of a slot of a row. -/
def Task.of (row slot : Nat) : Task → Bool
  | .visit r s _ => r == row && s == slot
  | .op (.readinessSample r s) => r == row && s == slot
  | .op (.waitDecision r s _) => r == row && s == slot
  | .op (.waitTimeout r s _) => r == row && s == slot
  | .op (.trapEntry r s) => r == row && s == slot
  | .op (.stepCountReached r s _) => r == row && s == slot
  | .op (.ctbSave r s) => r == row && s == slot
  | _ => false

/-- Nothing more is scheduled for the reach of a slot. -/
def State.purge (s : State) (row slot : Nat) : State :=
  { s with agenda := s.agenda.filter (fun e => !e.task.of row slot) }

/-- Finished reaches leave their positions, and a launch whose CTBs have all ended is DRAINING (03 Table 3.5). The reaches
of a position stand in the order of their last residency. -/
def State.settle (s : State) (l : Launch) : State :=
  let gone := s.reaches.filter (s.reachOver l)
  let js := (gone.map (·.j)).filter (fun j => !l.finished.contains j)
  let s1 := s.modLaunch l.id (fun l =>
    { l with finished := l.finished ++ js
             state := if l.state = .running ∧ l.ends.length = l.record.numCtbs then .draining else l.state })
  let s2 := gone.foldl (fun s r =>
    if r.resident then (s.purge r.row r.slot).modReach r.row r.slot (fun r =>
      { r with resident := false, entering := false, leaving := false }) else s) s1
  let of (r : Reach) : Bool := r.launch == l.id && js.contains r.j
  { s2 with reaches := s2.reaches.filter (fun r => !of r) ++ s2.reaches.filter of }

/-- The planned tide of a launch's completion: the last end of a CTB or promise of a writeback. -/
def State.lastTide (s : State) (l : Launch) : Nat :=
  (s.xfers.filter (fun x => match x.kind with
    | .writeback n _ _ => n == l.id
    | _ => false)).foldl (fun t x => max t x.promise) l.doneTide

/-- LAUNCH_COMPLETE (03 R91, R100, R103, R104): when every CTB has ended and every writeback and dump has landed, the
staged contributions that are left are combined, and the completion object fires. -/
def execLaunchComplete (launch : Nat) (s0 : State) : Out1 :=
  let s := match s0.launch? launch with
    | some l => s0.settle l
    | none => s0
  match s.launch? launch with
  | none => .next s
  | some l0 =>
    let l := { l0 with doneTide := s.lastTide l0 }
    if l.state ≠ .draining ∨ s.launchBusy l = true then .next s
    else
      let rel : Release := { view := s.launchView l.id, regs := [] }
      match s.stagedFor rel (some (l.id, l.record.complete)) with
      | [] =>
        let st := finalStatus l.ends
        let s1 := (s.doneLaunch l st l.doneTide).modLaunch l.id (fun x => { x with doneView := [rel] })
        .next (s1.completionFire l l.doneTide rel.view)
      | es =>
        if s.fires.any (fun f => f.launch == some l.id) then .next s
        else
          let id := s.nextId + 1
          let t := (es.map (·.promise)).foldl max l.doneTide
          let f : Fire := { id := id, obj := l.record.complete, xids := es.map (·.xid), rel := rel, comb := rel, planned := t,
                            launch := some l.id }
          .next (({ s with nextId := id, fires := s.fires ++ [f] }.modLaunch l.id (fun x => { x with doneTide := t })).later s.time 0
            (.stagedCombine id))

/-! ### Validation, fill and preparation (03 R98, R99) -/

/-- The end of the validation span, and of translation fill, in planned tides (03 R99). -/
def Launch.validEnd (l : Launch) : Nat := workAfter l.issueTide 512
def Launch.fillEnd (l : Launch) : Nat := workAfter l.validEnd (64 * l.record.nmap)

/-- VALIDATION_SPAN_END: refusals take effect; a launch without LATE that is already due ends LATE, or CANCELLED where an
`lcancel` came first (03 R124); the others prepare. -/
def execValidationSpanEnd (launch : Nat) (s : State) : Out1 :=
  match s.launch? launch with
  | none => .next s
  | some l =>
    if l.state ≠ .validating then .next s
    else
      if l.refused then .next (s.endUnrun l l.status l.validEnd false)
      else if l.late = false ∧ l.declared ≤ l.validEnd then
        .next (if l.cancelled then s.endUnrun l 3 l.declared true else s.endUnrun l 2 l.validEnd true)
      else
        let s1 := s.modLaunch launch (fun l => { l with state := .preparing })
        let s2 := s1.later l.fillEnd 0 (.translationFillDone launch)
        .next (if l.late then s2 else s2.later l.declared 1 (.launchStart launch))

/-- A page may enter a translation set (13 R360): not a page of a collective descriptor that breaks a limit, lies wholly
outside the region, lacks W, asks for bins that the operation has not, or differs in BIN from those of the descriptor that the
walker filled before: what `filled` holds, and the pages of every launch that is not DONE. -/
def State.pageOk (s : State) (lf : Leaf4) (base : Nat) (filled : List Run) : Bool :=
  !lf.red ||
    (let d := s.readDesc lf.rdx
     s.descOk lf.rdx && decide (base < d.rbase.toNat + 4 * d.elems) && decide (d.rbase.toNat < base + lf.size) && lf.w &&
       (!lf.bin || (d.redOp == .add && d.isF32)) &&
       (filled ++ (s.launches.filter (fun l => l.state != .done)).flatMap (fun l => l.trans)).all (fun r =>
         !(r.red && r.rdx == lf.rdx) || r.bin == lf.bin))

/-- The runs of a region (07 R224): from a virtual address to the end, page after page, each joined to the run before it
where it continues it; `prev` are those of the regions before. The attributes that must be identical are the rights that
result, the intersection of the leaf's with ACC (notes/assumptions/31: DESIGN CHOICE). -/
def State.fillFrom (s : State) (m : MapRegion) (e : Nat) (prev : List Run) : Nat → Nat → List Run → List Run
  | 0, _, acc => acc
  | fuel + 1, va, acc =>
    if e ≤ va then acc
    else
      match s.walk va with
      | none => s.fillFrom m e prev fuel (va / 4096 * 4096 + 4096) acc
      | some (lf, base) =>
        let hi := min e (base + lf.size)
        if !s.pageOk lf base (acc ++ prev) then s.fillFrom m e prev fuel hi acc
        else
        let g : Run := { va := va, pa := lf.pa + (va - base), len := hi - va, r := lf.r && m.r, w := lf.w && m.w,
                         x := lf.x && m.x, ord := lf.ord, red := lf.red, bin := lf.bin, rdx := lf.rdx }
        let acc1 := match acc with
          | y :: ys =>
            if y.va + y.len = g.va ∧ y.pa + y.len = g.pa ∧ y = { g with va := y.va, pa := y.pa, len := y.len } then
              { y with len := y.len + g.len } :: ys
            else g :: acc
          | [] => [g]
        s.fillFrom m e prev fuel hi acc1

/-- The translation set of a map set: at most 16,384 runs (07 R224). -/
def State.fillSet (s : State) (ms : List MapRegion) : List Run :=
  (ms.foldl (fun acc m =>
    acc ++ (s.fillFrom m (m.base.toNat + m.len) acc (m.len / 4096 + 1) m.base.toNat []).reverse) []).take 16384

/-- The physical base of the allocation of a slot's CTB (07 R211: the core places it; notes/assumptions/19). -/
def Record.allocBase (r : Record) (slot : Nat) : Nat := slot * r.scrbytes

/-- The pieces of a list entry: its runs in pages that grant the permission (07 R227), a write's in none of a contribution region
(13 R358); no byte of any other page moves (notes/assumptions/31: DESIGN CHOICE). -/
def Launch.listPieces (l : Launch) (ix : Nat) (write : Bool) (gs : List RowSeg) : List Piece :=
  gs.filterMap (fun g =>
    if (if write then l.mayWrite g.va else l.canR g.va) then
      (l.phys g.va).map (fun pa =>
        ({ row := ix, comb := false, dram := pa, core := g.core, scr := g.scr, len := g.len, old := [] } : Piece))
    else none)

/-- The pieces of an entry for a CTB: runs of global bytes against scratch of its allocation. -/
def Launch.entryPieces (l : Launch) (e : ListEntry) (row col slot b st ix : Nat) : List Piece :=
  let va := e.addr b st
  l.listPieces ix false (rowSegs ix va (coreIx row col) (l.record.allocBase slot + e.soff) e.bytes)

/-- Request the preloads of the CTBs of reach `j` (03 R91, R99). -/
def State.requestPreloads (s : State) (l : Launch) (j tide : Nat) : State :=
  let r := l.record
  (r.ctbsOf j).foldl (fun s c =>
    ((l.pre.zip (List.range l.pre.length)).filter (fun e => !e.1.zero)).foldl (fun s e =>
      let lin := r.stageCount * c.2.1 + c.2.2
      let x := s.ownXfer (.preload l.id lin e.2) (coreIx (r.rowOf j) c.1) (r.slotOf j) l.id lin
      s.request { x with planned := tide, view := l.release.flatMap (·.view) } (l.entryPieces e.1 (r.rowOf j) c.1 (r.slotOf j) c.2.1 c.2.2 e.2)) s) s

/-- TRANSLATION_FILL_DONE (03 R99, 07 R224): the translation set stands, and the generation-0 preloads are requested. -/
def execTranslationFillDone (launch : Nat) (s : State) : Out1 :=
  match s.launch? launch with
  | none => .next s
  | some l =>
    if l.state ≠ .preparing then .next s
    else
      let s1 := s.modLaunch launch (fun l => { l with trans := s.fillSet l.maps })
      let l1 := { l with trans := s.fillSet l.maps }
      let s2 := (List.range (min l.record.numReaches l.record.positions)).foldl (fun s j =>
        s.requestPreloads l1 j (if l.replays = 0 then l.fillEnd else s.time)) s1
      .next (s2.later s2.time 0 (.preparationPromiseMet launch))

/-- The preload transfers of a launch. -/
def State.preloadsOf (s : State) (launch : Nat) : List Xfer :=
  s.xfers.filter (fun x => match x.kind with
    | .preload l _ _ => l == launch
    | _ => false)

/-- A request of a launch's preloads is still to be accepted. -/
def State.preloadWaits (s : State) (launch : Nat) : Bool :=
  s.requests.any (fun r => match r.x.kind with
    | .preload l _ _ => l == launch
    | _ => false)

/-- PREPARATION_PROMISE_MET (03 R98 to R100): the promise is the last landing of the preloads, or the end of fill; when it is
met and the preloads have landed the launch is READY. A launch with LATE then starts at a frame boundary, any other at its
declared tide, or at once where that has passed while the landings lagged behind their promises. -/
def execPreparationPromiseMet (launch : Nat) (s : State) : Out1 :=
  match s.launch? launch with
  | none => .next s
  | some l =>
    if l.state ≠ .preparing ∨ s.preloadWaits launch = true then .next s
    else
      let p := ((s.preloadsOf launch).map (·.promise)).foldl max l.fillEnd
      let s1 := s.modLaunch launch (fun l => { l with promise := some p })
      if s.time < p then .next (if l.promise = some p then s else s1.later p 0 (.preparationPromiseMet launch))
      else if (s.preloadsOf launch).any (fun x => !x.landed) then .next s1
      else
        let s2 := s1.modLaunch launch (fun l => { l with state := .ready })
        .next (if l.late then s2.later (max l.declared (frameCeil s.time)) 1 (.launchStart launch)
          else if l.declared ≤ s.time then s2.later s2.time 1 (.launchStart launch) else s2)

/-! ### The start (03 R100 to R102) -/

/-- A dependency is satisfied (03 R100). -/
def State.depsMet (s : State) (r : Record) : Bool := r.deps.all (fun d => d.2 == 0 || metBy (s.obj d.1.toNat) d.2)

/-- LAUNCH_LATE (03 R100): the launch runs nothing and fires; its preloads are discarded. -/
def execLaunchLate (launch : Nat) (s : State) : Out1 :=
  match s.launch? launch with
  | none => .next s
  | some l =>
    if l.state = .running ∨ l.state = .draining ∨ l.state = .done ∨ l.cancelled then .next s
    else .next (s.endUnrun l 2 (max l.declared l.validEnd) true)

/-- The resident reaches of a launch leave their positions. -/
def State.vacate (s : State) (l : Launch) : State :=
  (s.reaches.filter (fun r => r.launch == l.id && r.resident)).foldl (fun s r => s.purge r.row r.slot) s

/-- CANCEL_FIRE (03 R124): a cancelled launch goes to DONE at its declared start tide and fires. `lcancel` decides by planned
tides: where the issuer's planned clock trails the schedule, a launch that has begun to run stops running
(notes/assumptions/31: DESIGN CHOICE). -/
def execCancelFire (launch : Nat) (s : State) : Out1 :=
  match s.launch? launch with
  | none => .next s
  | some l =>
    if l.state = .done then .next s
    else .next ((s.vacate l).endUnrun { l with effective := none } 3 l.declared true)

/-- LAUNCH_START (03 R100 to R102): where the start condition holds the launch is RUNNING, and rows are granted at once; an
empty grid is done (R101); a launch without LATE whose condition fails ends LATE, the others try each frame boundary. The
condition is one of planned tides: a launch whose promise has passed waits for landings that lag behind it. -/
def execLaunchStart (launch : Nat) (s : State) : Out1 :=
  match s.launch? launch with
  | none => .next s
  | some l =>
    let met := l.late || l.promise.any (fun p => decide (p ≤ l.declared))
    if l.state = .running ∨ l.state = .draining ∨ l.state = .done ∨ l.cancelled then .next s
    else if l.state = .ready ∧ s.depsMet l.record = true ∧ met = true then
      let l1 : Launch :=
        { l with
          state := .running
          effective := some (if l.late then s.time else l.declared)
          south := s.southWave l
          starting := true }
      let s1 := s.modLaunch launch (fun _ => l1)
      if l.record.blocks = 0 then
        let t := if l.late then s.time else l.declared
        .next ((s1.doneLaunch l1 0 t).completionFire l1 t [])
      else .next (s1.later s1.time 1 .quantumBoundary)
    else if l.late then
      .next (if l.state = .ready then s.later (frameCeil (s.time + 1)) 1 (.launchStart launch) else s)
    else if l.state = .preparing ∧ met = true then .next s
    else .next (s.later s.time 1 (.launchLate launch))

/-! ### The instructions (03 R118 to R125) -/

/-- What the issuing reach group releases to its child (03 R103): its stores, and a copy whose promise has passed at the
launch's planned tide. -/
def State.childRelease (s : State) (h : Here) : List Release :=
  h.reach.ctbs.filterMap (fun c => (c.2.group? h.cur.grp).map (fun g =>
    let xs := s.xfers.filter (fun x => x.launch == h.launch.id && x.lin == c.2.lin && x.grp == h.cur.grp &&
      decide (x.promise ≤ h.planned0))
    ({ view := xs.map (fun x => Seen.of x.id) ++ g.viewNow (.group h.launch.id c.2.lin h.cur.grp) s.wseq, regs := [] } : Release)))

/-- 03 R121: the handle, or the null handle when CHILDMAX is exceeded. A solo handler counts toward its reach group
(15 R397). -/
def execLaunch (late : Bool) (d a b : BitVec 6) (s : State) : Out1 :=
  s.withHere (fun h =>
    let issued := ((h.reach.rgs[h.cur.grp]?).map (·.issued)).getD h.rg.issued
    let r := h.launch.record
    if r.childmax ≤ issued then s.setK h d (BitVec.allOnes 64)
    else
      let ident := r.childarea.toNat + 64 * ((h.rg.reach * r.groups + h.rg.grp) * r.childmax + issued)
      let s1 := s.setK h d (BitVec.ofNat 64 (2 ^ 37 * issued + 2 ^ 32 * h.rg.grp + h.rg.reach))
      let s2 := s1.modReach h.cur.row h.cur.slot (fun r =>
        { r with rgs := r.rgs.modify h.cur.grp (fun g => { g with issued := issued + 1 })
                 hold := r.hold.map (fun x => { x with rg := { x.rg with issued := issued + 1 } }) })
      (s2.modLaunch h.launch.id (fun l => { l with acted := true })).beginLaunch (some h.launch)
        (.child h.launch.id h.rg.reach h.rg.grp issued) ident (h.k a) (h.k b).toNat late h.super h.planned0 (s.childRelease h))

/-- 03 R122: the wait itself is decided in Waits.lean. -/
def execLwait (texp : BitVec 5) (d : Dst) (a : BitVec 6) (s : State) : Out1 :=
  s.withHere (fun h => s.issueWait h .lwait texp (h.k a) 0 d none id)

/-- The status word of `lstat` for an observed launch (03 R123). Of one whose record could not be read, which has no
positions, the number of generations reads 0 (notes/assumptions/31: DESIGN CHOICE). -/
def lstatWord (l : Launch) (st : Word) : Word :=
  let gens := if l.record.positions = 0 then 0
    else min 0xFFFF ((l.record.numReaches + l.record.positions - 1) / l.record.positions)
  (st &&& 0xFF) ||| (if l.replayable then 0x100 else 0) ||| (if l.record.save ≠ 0 then 0x200 else 0) |||
    BitVec.ofNat 32 (65536 * gens)

/-- 03 R123. -/
def execLstat (d : Dst) (a : BitVec 6) (s : State) : Out1 :=
  s.withHere (fun h =>
    let w : Word := match readHandle h.rg (h.k a) with
      | .null => 6
      | .invalid => 8
      | .valid o =>
        match look h.rg.observed o, s.childOf h.reach.launch h.rg.reach h.rg.grp o with
        | some st, some l => lstatWord l st
        | _, _ => 1
    s.putAll h d false (w.setWidth 64))

/-- 03 R124: the status of a cancel judged at a planned tide. A launch that its validation will refuse counts as refused from
its issue on (notes/assumptions/31: DESIGN CHOICE). -/
def cancelCode (l : Launch) (planned : Nat) : Nat :=
  if l.refused then l.status
  else if l.cancelled then 3
  else if planned < l.declared then 3
  else 4

/-- Cancel a launch where `cancelCode` allows it. -/
def State.cancel (s : State) (l : Launch) (planned : Nat) : State :=
  if l.refused = false ∧ l.cancelled = false ∧ planned < l.declared then
    (s.modLaunch l.id (fun l => { l with cancelled := true })).later l.declared 1 (.cancelFire l.id)
  else s

/-- 03 R124: once for the reach group. -/
def execLcancel (d : Dst) (a : BitVec 6) (s : State) : Out1 :=
  s.withHere (fun h =>
    match readHandle h.rg (h.k a) with
    | .null => s.putAll h d false 6
    | .invalid => s.putAll h d false 8
    | .valid o =>
      match s.childOf h.reach.launch h.rg.reach h.rg.grp o with
      | none => s.putAll h d false 8
      | some l => (s.cancel l h.planned).putAll h d false (BitVec.ofNat 64 (cancelCode l h.planned)))

/-- 03 R125. -/
def execFmtq (slot : BitVec 3) (d : Dst) (s : State) : Out1 :=
  s.withHere (fun h => s.putAll h d true (h.fmt slot))

end Sys2Proof.Machine
end

