-- ==== Sys2Proof/Machine/Ending.lean ====
section
/-! DEFINITION. Ends (04 R148, 15 R402, R403, R426, 03 R91): of a group, of a CTB, of a hold, and the writebacks that
follow a CTB's end. -/
namespace Sys2Proof.Machine

/-! ### Clock regions (10 R283, R284, 15 R399) -/

/-- The clock region of a logical row (10 R284). -/
def State.clockRegion (s : State) (row : Nat) : Nat :=
  let p := s.regs.proj.getD row 0
  (p.extractLsb' 0 4).toNat + (if p.getLsbD 11 then 11 else 0)

/-- A DEFSTAT with its deficit raised, `gone` beats into slack water (10 Table 10.1): DEF as stored stands for the start of
slack water. -/
def raiseDef (w : Word) (beats gone : Nat) : Word :=
  let d := min 0xFFFF (max gone (w.extractLsb' 0 16).toNat + beats)
  BitVec.ofNat 32 (65536 * max (d - gone) (w.extractLsb' 16 16).toNat + d)

/-- A clock region falls behind by some beats. -/
def State.delay (s : State) (region beats : Nat) : State :=
  { s with regs := { s.regs with defstat := s.regs.defstat.modify region (fun w => raiseDef w beats (slackGone s.time)) } }

/-! ### The hold goes on, or ends (15 R396, R400, R423, R426) -/

/-- The handled groups that are left after the one at the head of a hold. -/
def Reach.leftOf (r : Reach) (x : Hold) : List (Nat × Nat) :=
  if x.wide then [] else (x.queue.drop 1).filter (fun e => ((r.ctb? e.1).map (fun c => c.live e.2)).getD false)

/-- A group enters its handler, and the hold streams it (15 R396, R397). -/
def State.handle (s : State) (row slot : Nat) (x : Hold) (queue : List (Nat × Nat)) (rg : RGroup) (handler : DWord) : State :=
  let active := if x.wide then queue else queue.take 1
  s.modReach row slot (fun r =>
    active.foldl (fun r e => r.modCtb e.1 (fun c => c.modGroup e.2 (fun y => y.enterHandler y.trap rg.hstack rg.pos)))
      { r with hold := some { x with queue := queue, rg := rg.enterHandler handler, entered := true } })

/-- The hold passes to the next of its groups; after the last, the reach resumes in its next visit, and the headland
stalls for 16 beats (15 R399). -/
def State.passHold (s : State) (row slot : Nat) : State :=
  match s.reach? row slot with
  | none => s
  | some r =>
    match r.hold, s.launch? r.launch with
    | some x, some l =>
      let rest := r.leftOf x
      match rest.head?.bind (fun e => r.rgs[e.2]?) with
      | some rg => s.handle row slot x rest rg l.record.handler
      | none => (s.delay (s.clockRegion row) 16).modReach row slot (fun r => { r with hold := some { x with resume := true } })
    | _, _ => s

/-! ### The end of a group (04 R148) -/

/-- A group ends on its core: results in flight land; latches, divergence stack and register rows go. -/
def Group.finish (g : Group) (run lim : Nat) (kill : Bool) : Group :=
  { (g.landAll run lim).dropLatches with
    vregs := [], dstack := [], snaps := [], granted := 0, shadow := none, ended := true, killed := g.killed || kill,
    cursor := 32 }

/-- A group of a CTB ends; its granted rows return to the reserve (05 R173). -/
def Ctb.endGroup (c : Ctb) (g run lim : Nat) (kill : Bool) : Ctb :=
  match c.group? g with
  | none => c
  | some x =>
    if x.ended then c
    else { (c.modGroup g (fun y => y.finish run lim kill)) with reserve := c.reserve + x.granted }

/-- Record a CTB's end with its launch. -/
def Launch.addEnd (l : Launch) (lin : Nat) (st : CtbEnd) (tide : Nat) (left : Bool) : Launch :=
  { l with ends := l.ends ++ [(lin, st)], doneTide := max l.doneTide tide
           wbLeft := if left then lin :: l.wbLeft else l.wbLeft }

/-- A CTB whose groups have all ended ends (04 R148, 15 R403), and its writebacks follow (03 R91). -/
def State.closeCtb (s : State) (row slot col tide : Nat) : State :=
  match s.ctb? row slot col, (s.reach? row slot).bind (fun r => s.launch? r.launch) with
  | some c, some l =>
    if c.ended.isSome || !c.groups.all (fun g => g.ended) then s
    else
      let st : CtbEnd := if c.groups.any (fun g => g.killed) then .killed else .ok
      let s1 := s.modCtb row slot col (fun c => { c with ended := some st, endTide := tide, leaves := [] })
      let s2 := s1.modLaunch l.id (fun l => l.addEnd c.lin st tide (l.record.nwb != 0))
      (s2.later s2.time 0 (.writebackStart l.id c.lin)).later s2.time 0 (.launchComplete l.id)
  | _, _ => s

/-- The position that executes is the last of its run index. -/
def State.lastOfIndex (s : State) : Bool :=
  match s.issue with
  | some i => i.todo == []
  | none => true

/-- Nothing of a column or of one of its groups executes further at this run index. -/
def State.cutTodo (s : State) (f : Nat × Nat → Bool) : State :=
  { s with issue := s.issue.map (fun (i : Issue) => { i with todo := i.todo.filter f }) }

/-- The executing group ends; in a handler its hold goes on (15 R426). -/
def State.endHere (s : State) (h : Here) (kill : Bool) : State :=
  let s1 := s.modC h (fun c => c.endGroup h.cur.grp h.reach.run h.rg.pos kill)
  let s2 := s1.closeCtb h.cur.row h.cur.slot h.cur.col h.planned
  if h.cur.handler && s2.lastOfIndex then s2.passHold h.cur.row h.cur.slot else s2

/-- 04 R148. -/
def execEndG (s : State) : Out1 := s.withHere (fun h => s.endHere h false)

/-- 15 R426. -/
def execTkillGroup (s : State) : Out1 := s.withHere (fun h => s.endHere h true)

/-! ### Abnormal ends (15 R402, R403) -/

/-- The planned tide of a reach's stop on a column. -/
def Reach.stopTide (r : Reach) (l : Launch) (col : Nat) : Nat := plannedAt r l col ((r.hold.map (fun h => h.j)).getD 0)

/-- SAVETIDE of the dump of a CTB that ends on a fault (15 R404): the planned tide of the instruction at TRAPPC. -/
def Reach.saveTide (r : Reach) (l : Launch) (col grp : Nat) : Nat :=
  (((r.ctb? col).bind (fun c => c.group? grp)).map (fun g => g.trapTide)).getD (r.stopTide l col)

/-- A CTB ends abnormally with a status: every group stays at its stop, writebacks do not run, and a dump is written where
there is a save area, with `save` for its SAVETIDE. The CTB counts as ended at once; its dump waits for the copies that
target it (notes/assumptions/18). -/
def State.endAbnormal (s : State) (row slot col : Nat) (st : CtbEnd) (grp tide save : Nat) (dump : Bool) : State :=
  match s.ctb? row slot col, (s.reach? row slot).bind (fun r => s.launch? r.launch) with
  | some c, some l =>
    if c.ended.isSome then s
    else
      let left := dump && l.record.save != 0
      let run := ((s.reach? row slot).map (fun r => r.run)).getD 0
      let at_ : Option Stop := (s.reach? row slot).map (fun r => { rgs := r.rgs, hold := r.hold, tide := save })
      let s0 := (s.performReach row slot (some col)).modCtb row slot col (fun c =>
        { c with ended := some st, endTide := tide, stopGrp := grp, stop := at_
                 groups := c.groups.map (fun g => if g.ended then g else g.landAll run 0) })
      let s1 := if st = .faulted then s0.report (.report 0x403 l.id c.lin) else s0
      let s2 := s1.modLaunch l.id (fun l => l.addEnd c.lin st tide left)
      let s3 := if left then s2.later s2.time 0 (.dump row slot col) else s2
      s3.later s3.time 0 (.launchComplete l.id)
  | _, _ => s

/-- CTB_ABNORMAL_END (15 R403, R411, R417): a CTB that ends FAULTED or KILLED leaves a dump. -/
def execCtbAbnormalEnd (row slot col : Nat) (st : CtbEnd) (s : State) : Out1 :=
  match s.reach? row slot with
  | none => .next s
  | some r =>
    match s.launch? r.launch with
    | none => .next s
    | some l =>
      let g := ((r.hold.bind (fun h => h.queue.find? (fun e => e.1 == col))).map (fun e => e.2)).getD 0
      .next (s.endAbnormal row slot col st g (r.stopTide l col) (r.saveTide l col g) (st == .faulted || st == .killed))

/-- 15 R426: each core acts on its own CTB. -/
def execTkillCtb (s : State) : Out1 :=
  s.withHere (fun h =>
    let s1 := s.cutTodo (fun e => e.1 != h.cur.col)
    let save := if h.cur.handler then h.grp.trapTide else h.planned
    let s2 := s1.endAbnormal h.cur.row h.cur.slot h.cur.col .killed h.cur.grp h.planned save true
    if h.cur.handler && s2.lastOfIndex then s2.passHold h.cur.row h.cur.slot else s2)

/-! ### Writebacks (03 R91) -/

/-- The pieces of a writeback entry, in the order of its bytes. -/
def Launch.backPieces (l : Launch) (e : ListEntry) (q base b st ix : Nat) : List Piece :=
  l.listPieces ix true (rowSegs ix (e.addr b st) q (base + e.soff) e.bytes)

/-- The planned tide of a CTB's end and of the landing of its copies. -/
def State.copiesEnd (s : State) (launch : Nat) (c : Ctb) : Nat :=
  ((s.xfers.filter (fun x => x.launch == launch && x.lin == c.lin)).map (fun x => x.promise)).foldl max c.endTide

/-- Request the writebacks of an ended CTB, in list order. -/
def State.requestBacks (s : State) (l : Launch) (row slot col : Nat) (c : Ctb) : State :=
  let view := s.ctbView l.id c
  (l.wb.zip (List.range l.wb.length)).foldl (fun (s : State) (e : ListEntry × Nat) =>
    let q := coreIx row col
    let x := s.ownXfer (.writeback l.id c.lin e.2) q slot l.id c.lin
    s.request { x with planned := s.copiesEnd l.id c, view := view } (l.backPieces e.1 q c.base c.blk c.stage e.2)) s

/-- Where a CTB of a launch stands: row, slot and column. -/
def State.placeOf (s : State) (launch lin : Nat) : Option (Nat × Nat × Nat) :=
  s.reaches.findSome? (fun r =>
    if r.launch == launch && r.resident then (r.ctbs.find? (fun c => c.2.lin == lin)).map (fun c => (r.row, r.slot, c.1))
    else none)

/-- WRITEBACK_START (03 R91): once every group of the CTB has executed `end` and every copy that it issued has landed. -/
def execWritebackStart (launch lin : Nat) (s : State) : Out1 :=
  match s.launch? launch, s.placeOf launch lin with
  | some l, some (row, slot, col) =>
    match s.ctb? row slot col with
    | none => .next s
    | some c =>
      if !l.wbLeft.contains lin || c.ended.isNone || !c.groups.all (fun g => g.ended) || s.linBusy launch lin then .next s
      else
        let s1 := s.requestBacks l row slot col c
        let s2 := s1.modLaunch launch (fun l => { l with wbLeft := l.wbLeft.filter (fun n => n != lin) })
        .next (s2.later s2.time 0 (.launchComplete launch))
  | _, _ => .next s

end Sys2Proof.Machine
end

