-- ==== Sys2Proof/Machine/Trap.lean ====
section
/-! DEFINITION. Traps (15 R392 to R401, R422, R423, R429): their entry, DOUBLE, and what raises and ends them. -/
namespace Sys2Proof.Machine

/-! ### Entry (15 R394, R397, R398, R402) -/

/-- Results in flight of a group land at a trap of its reach (02 R69, 15 R394 step 4), in latches too where their landing
lies in the run (15 R401). -/
def Group.quiet (g : Group) (run : Nat) (lim : Option Nat) : Group := if g.ended then g else g.landAll run (lim.getD 0)

/-- Results in flight of every group of a reach land. -/
def State.quiesce (s : State) (row slot : Nat) : State :=
  match s.reach? row slot with
  | none => s
  | some r =>
    let lim (rg : RGroup) : Nat := rg.pos + (s.runLen r - rg.idx)
    s.modReach row slot (fun r => { r with ctbs := r.ctbs.map (fun (c : Nat × Ctb) =>
      (c.1, { c.2 with groups := (c.2.groups.zip (List.range c.2.groups.length)).map (fun (e : Group × Nat) =>
        e.1.quiet r.run ((r.rgs[e.2]?).map lim)) })) })

/-- The fault of a hold that a group records: the headland's, or that of its own core. -/
def faultOf (fs : List FaultRec) (e : Nat × Nat) : Option FaultRec :=
  match fs.find? (fun f => f.wide) with
  | some f => some f
  | none => fs.find? (fun f => f.col == e.1 && f.grp == e.2)

/-- What a reach has in flight when it traps comes to its end (02 R69, 08 R257): engine items, whose timeline stands still,
then register writes and results. -/
def State.drainReach (s : State) (r : Reach) : State :=
  (((r.ctbs.filter (fun c => c.2.ended.isNone)).foldl (fun (s : State) c =>
    (s.completeItems r.row r.slot c.1).modMx (coreIx r.row c.1) (fun m => m.holdQueue r.slot)) s).performReach
    r.row r.slot none).quiesce r.row r.slot

/-- A lost access has been reported (07 R218). -/
def dropLoss (f : FaultRec) : List LateErr → List LateErr
  | [] => []
  | e :: l => if e.pc = f.pc ∧ e.addr = f.addr ∧ e.lane = f.tlane then l else e :: dropLoss f l

/-- A group takes the trap record of a fault. -/
def Group.takeTrap (g : Group) (f : FaultRec) : Group :=
  { g with trap := trapRecOf f, trapTide := f.planned
           lateErr := if f.late ∧ f.cause = cScratchLost then dropLoss f g.lateErr else g.lateErr }

/-- The groups of a hold take their trap records. -/
def State.recordTraps (s : State) (r : Reach) (fs : List FaultRec) (queue : List (Nat × Nat)) : State :=
  queue.foldl (fun (s : State) (e : Nat × Nat) =>
    match faultOf fs e with
    | some f => s.modGroup r.row r.slot e.1 e.2 (fun g => g.takeTrap f)
    | none => s) (s.drainReach r)

/-- A trap without a handler (15 R402): debug-halted under a valid right, else every queued CTB ends FAULTED. -/
def State.unhandled (s : State) (row slot : Nat) (r : Reach) (l : Launch) (x : Hold) : State :=
  if s.debugRight l then
    s.modReach row slot (fun r => { r with hold := some { x with entered := true, halted := true } })
  else
    let s1 := x.queue.foldl (fun (s : State) (e : Nat × Nat) =>
      s.endAbnormal row slot e.1 .faulted e.2 (r.stopTide l e.1)
        (((s.reach? row slot).map (fun r => r.saveTide l e.1 e.2)).getD 0) true) s
    (s1.delay (s1.clockRegion row) 16).modReach row slot (fun r => { r with hold := some { x with resume := true } })

/-- The first trap of a hold. -/
def State.enterTrap (s : State) (r : Reach) (l : Launch) (x : Hold) (fs : List FaultRec) : State :=
  let s1 := (s.recordTraps r fs x.queue).delay (s.clockRegion r.row) 16
  if l.record.handler = 0 then s1.unhandled r.row r.slot r l x
  else
    match x.queue.head?.bind (fun e => r.rgs[e.2]?) with
    | some rg => s1.handle r.row r.slot x x.queue rg l.record.handler
    | none => s1

/-- A fault in a handler (15 R398): DOUBLE; the CTB ends FAULTED, and the hold goes on without it. -/
def State.doubleTrap (s : State) (r : Reach) (l : Launch) (x : Hold) (fs : List FaultRec) : State :=
  let s1 := x.active.foldl (fun (s : State) (e : Nat × Nat) =>
    match faultOf fs e with
    | some f =>
      (s.modGroup r.row r.slot e.1 e.2 (fun g => { g with trap := doubleRec g.trap f, trapTide := f.planned })).endAbnormal
        r.row r.slot e.1 .faulted e.2 (r.stopTide l e.1) f.planned true
    | none => s) (s.performReach r.row r.slot none)
  let left := x.active.filter (fun e => ((s1.ctb? r.row r.slot e.1).map (fun c => c.live e.2)).getD false)
  if x.wide && left != [] then s1 else s1.passHold r.row r.slot

/-- TRAP_ENTRY (15 R394). -/
def execTrapEntry (row slot : Nat) (s : State) : Out1 :=
  match s.reach? row slot with
  | none => .next s
  | some r =>
    match r.hold, s.launch? r.launch with
    | some x, some l =>
      let s1 := { s with faults := [] }
      .next (if x.entered then s1.doubleTrap r l x s.faults else s1.enterTrap r l x s.faults)
    | _, _ => .next s

/-! ### Resumption (15 R400, R423, R429) -/

/-- The interrupted program goes on at position `pos` (15 R400): what the handler's positions left of the streams' order is
forgotten. -/
def Group.rewind (g : Group) (pos : Nat) : Group :=
  { g with sd := g.sd.map (fun d => if pos < d.setAt then { d with setAt := 0 } else d) }

/-- After a reach-wide hold the reach group takes the handler's uniform registers, and goes on at TRAPRES. -/
def Reach.rejoin (r : Reach) (x : Hold) : Reach :=
  if x.wide then
    match x.queue.head? with
    | none => r
    | some e =>
      let res := (((r.ctb? e.1).bind (fun c => c.group? e.2)).map (fun g => g.trap.res)).getD x.rg.pc
      let moved := ((r.rgs[e.2]?).map (fun rg => rg.pc != res)).getD false
      { r with
        rgs := r.rgs.modify e.2 (fun rg =>
          { rg with k := x.rg.k, pc := res, npc := res, head := false, tstep := false
                    wait := if res = rg.pc then rg.wait else none })
        ctbs := r.ctbs.map (fun c => (c.1, c.2.modGroup e.2 (fun g => { g with again := g.again && !moved }))) }
  else r

/-- The position at which a solo hold's group stopped is complete for it: TRAPRES is past the instruction that others of its
reach group issue again (15 R400). -/
def State.pastStop (s : State) (r : Reach) (l : Launch) (g : Group) (grp : Nat) : Bool :=
  match r.hold, r.rgs[grp]? with
  | some x, some rg => !x.wide && s.skipPad l g.trap.res != s.skipPad l rg.pc
  | _, _ => false

/-- A column of a reach group is given an `hgo` count (15 R429). The index at which a column idles, for its position was
complete, `past` the stop, is no position of it. -/
def RGroup.count (rg : RGroup) (col n : Nat) (past : Bool) : RGroup :=
  let more := if past then 1 else 0
  if n = 0 then { rg with steps := rg.steps.map (fun e => if e.1 = col then (col, e.2.1 + more, e.2.2) else e) }
  else { rg with steps := rg.steps.filter (fun e => e.1 != col) ++ [(col, n + more, n)] }

/-- What an `mtile` issued in a handler still has to go before its landing, counted from the position `pos` of the resumption
(08 R267); `last` is the handler's last position. -/
def MtStep.rebase (m : MtStep) (grp pos last : Nat) : MtStep :=
  if m.grp = grp ∧ pos ≤ m.pos then { m with pos := pos - 1, land := m.land.map (fun d => pos + (d - (last + 1))) } else m

/-- A handled group leaves its handler; at the last of them the hold goes on, with the rest of an `hgo` count. -/
def State.leaveTrap (s : State) (h : Here) (n : Nat) : State :=
  let pos := ((h.reach.rgs[h.cur.grp]?).map (fun rg => rg.pos)).getD 0
  let past := s.pastStop h.reach h.launch h.grp h.cur.grp
  let s1 := (s.modG h (fun g => (g.leaveHandler h.reach.run past).rewind pos)).modC h (fun c =>
    { c with mtile := c.mtile.map (fun m => m.rebase h.cur.grp pos h.rg.pos) })
  let s2 := s1.modReach h.cur.row h.cur.slot (fun r =>
    { r with rgs := r.rgs.modify h.cur.grp (fun rg => rg.count h.cur.col n past) })
  if s2.lastOfIndex then
    (s2.modReach h.cur.row h.cur.slot (fun r => match r.hold with
      | some x => r.rejoin x
      | none => r)).passHold h.cur.row h.cur.slot
  else s2

/-- 15 R423. -/
def execTret (s : State) : Out1 :=
  s.withHere (fun h => if h.cur.handler then s.leaveTrap h 0 else s.raise h cIllegalOperand 0)

/-- 15 R429; outside a handler as `tret` (notes/assumptions/18). -/
def execHgo (a : Option (BitVec 6)) (s : State) : Out1 :=
  s.withHere (fun h =>
    let v : DWord := match a with
      | some k => h.k k
      | none => 0
    if !h.cur.handler || hi32 v != 0 then s.raise h cIllegalOperand 0
    else s.leaveTrap h (lo32 v).toNat)

/-! ### Raising (15 R422, R429) -/

/-- 15 R422: a headland fault; once it is recorded the position is complete, and resumption begins at the instruction that
follows. -/
def execTrap (code : Option Word) (s : State) : Out1 :=
  s.withHere (fun h =>
    let s1 := s.raiseWide h cSoftware ((code.getD 0).setWidth 64)
    { s1 with faults := s1.faults.modify (s1.faults.length - 1) (fun f => { f with res := h.after }) })

/-- STEP_COUNT_REACHED (15 R429): STEP at the groups that were given the count. -/
def execStepCountReached (row slot group : Nat) (s : State) : Out1 :=
  match s.reach? row slot with
  | none => .next s
  | some r =>
    match r.rgs[group]?, s.launch? r.launch with
    | some rg, some l =>
      if r.hold.isSome then .next s
      else
        let live := rg.steps.filter (fun e => e.2.1 == 0 && ((r.ctb? e.1).map (fun b => b.live group)).getD false)
        let fs : List FaultRec := live.map (fun e =>
          { j := rg.idx - 1, col := e.1, grp := group, lane := 0, tlane := 0, cause := cStep, addr := BitVec.ofNat 64 e.2.2
            wide := false, late := false, planned := plannedAt r l e.1 (rg.idx - 1), pc := rg.last, ilen := s.lenAt l rg.last, res := rg.pc, curs := 0 })
        let s1 := s.modReach row slot (fun r =>
          { r with rgs := r.rgs.modify group (fun rg => { rg with steps := rg.steps.filter (fun e => e.2.1 != 0) }) })
        match s1.reach? row slot with
        | some r1 => .next (if fs = [] then s1 else { s1 with faults := fs }.stopReach r1 (rg.idx - 1))
        | none => .next s1
    | _, _ => .next s

end Sys2Proof.Machine
end

