-- ==== Sys2Proof/Machine/System.lean ====
section
/-! DEFINITION. The instructions of system registers (15 R420, R424, R425), beacon arming (15 R430) and the trace
(15 R414, R431). -/
namespace Sys2Proof.Machine

/-! ### Reading -/

/-- DBGSTAT (15 Table 15.14). -/
def State.dbgstat (s : State) (h : Here) : DWord :=
  (if s.debugRight h.launch then 1 else 0) ||| (if h.ctb.edited then 2 else 0)

/-- What `sysrd` returns. -/
def State.srn (s : State) (h : Here) (n : Nat) : DWord :=
  if srnGroup n then h.grp.reg n
  else if n = 0x39 then s.dbgstat h
  else s.seenReg h n

/-- The checks of `sysrd` (02 R77, 15 R420). -/
def State.srnBad (s : State) (h : Here) (n : Nat) (write : Bool) : Option (Nat × DWord) :=
  if !h.super && !srnUser n then some (cPrivilege, BitVec.ofNat 64 n)
  else if h.super && srnDevice n && !(if write then s.acctlW 25 h.cur.row else s.acctlR 25 h.cur.row) then
    some (cAccess, BitVec.ofNat 64 n)
  else none

/-- 15 R424. -/
def execSysrd (d : Dst) (srn : BitVec 16) (s : State) : Out1 :=
  s.withHere (fun h =>
    let n := srn.toNat
    s.vec h { ops := [], dst := some d, w64 := srnWidth n == some .w64, steps := false,
              lane := fun _ _ => { val := s.srn h n } } (s.srnBad h n false) justVals)

/-- 15 R425. -/
def execTinfo (item : TinfoItem) (d : Dst) (s : State) : Out1 :=
  s.withHere (fun h =>
    let n : Nat := match item with
      | .cause => 0x10
      | .pc => 0x11
      | .addr => 0x12
      | .lane => 0x13
    s.putAll h d true (h.grp.reg n))

/-! ### `syswr` (15 R424) -/

/-- The group-wide checks of `syswr`. -/
def State.syswrBad (s : State) (h : Here) (n : Nat) : Option (Nat × DWord) :=
  match s.srnBad h n true with
  | some x => some x
  | none => if !h.cur.handler && decide (0x10 ≤ n ∧ n ≤ 0x14) then some (cIllegalOperand, BitVec.ofNat 64 n) else none

/-- A single value from the lowest active lane (15 R424, R427): that lane alone reads its source. -/
def lowestLane (h : Here) (o : Opnd) : VecIn where
  ops := [o]
  steps := false
  wide := some (fun vs => mkLanes (fun k =>
    if (h.lanes.head? == some k) then
      match o.latchLost h k with
      | some n => { fault := some (cLatchLost, BitVec.ofNat 64 n) }
      | none => { val := arg (vs k) 0 }
    else {}))

/-- A register write of the executing position, performed at its landing position +1 (15 R424, R430). -/
def State.sysLater (s : State) (h : Here) (a : SysAct) : State :=
  { s with sysw := s.sysw ++ [{ row := h.cur.row, slot := h.cur.slot, col := h.cur.col, grp := h.cur.grp
                                handler := h.cur.handler, due := h.rg.pos + 1
                                frame := s.rowTide h.cur.row (frameBeats h.launch.record.runExp * s.rowFrame h.cur.row (h.reach.visits + 1))
                                act := a }] }

/-- 15 R424. -/
def execSyswr (a : Src) (srn : BitVec 16) (s : State) : Out1 :=
  s.withHere (fun h =>
    let n := srn.toNat
    s.vec h (lowestLane h (.src a (srnWidth n == some .w64))) (s.syswrBad h n) (fun s _ outs =>
      (match outs.head? with
        | some o => s.sysLater h (.write n o.2.val)
        | none => s, [])))

/-! ### Beacons (15 R430) -/

/-- 15 R430. -/
def execBcnArm (a b : BitVec 6) (w : BcnWord) (s : State) : Out1 :=
  s.withHere (fun h => (s.sysLater h (.arm w.n.toNat w (h.k a) (h.k b))).complete h)

/-- 15 R430. -/
def execBcnOff (n : BitVec 4) (s : State) : Out1 :=
  s.withHere (fun h => (s.sysLater h (.off n.toNat)).complete h)

/-! ### The trace (15 R414, R431) -/

/-- 15 R431. -/
def execEmit (a : OpK) (s : State) : Out1 :=
  s.withHere (fun h =>
    (s.traceOut h.q (traceRec (h.src 255) h.q 3 0 ((lo32 (h.uniZ a)).setWidth 64) 0 0)).complete h)

/-- A core of a lower index drains at this tide too. -/
def State.drainsFirst (s : State) (q : Nat) : Bool :=
  s.agenda.any (fun e => decide (e.tide ≤ s.time) && (match e.task with
    | .op (.traceDrain p) => decide (p < q)
    | _ => false))

/-- TRACE_DRAIN (15 R414): the oldest record of a core goes to the buffer in the next free slot of owner 0x0400 of its
granule's pseudo-channel, cores in ascending order at equal tides, or is dropped when the buffer is full. -/
def execTraceDrain (q : Nat) (s : State) : Out1 :=
  let c := s.core q
  match c.fifo with
  | [] => .next s
  | r :: rest =>
    let again (s : State) (t : Nat) : State := if rest = [] then s else s.later t 0 (.traceDrain q)
    if s.regs.trsize.toNat < s.regs.trhead.toNat + 64 then
      .next (again ((s.setCore q { c with fifo := rest }).lossOne q) s.time)
    else
      let pa := s.regs.trbase.toNat + s.regs.trhead.toNat
      let used := (s.devTaken.filter (fun e => e.1 == 0x0400)).map (fun e => e.2)
      match s.tt.bind (fun t => t.slotFrom 0x0400 (channelOf pa) s.time (t.ntmpl + 1) used) with
      | none => .next (s.later (frameCeil (s.time + 1)) 0 (.traceDrain q))
      | some sl =>
        if s.time < sl then .next (s.later sl 0 (.traceDrain q))
        else if s.drainsFirst q then .next (s.later s.time 0 (.traceDrain q))
        else
          let s0 := s.setCore q { c with fifo := rest }
          let s1 := ({ s0 with devTaken := (0x0400, channelOf pa, sl) :: s0.devTaken } : State).dramWrite pa r
          .next (again { s1 with regs := { s1.regs with trhead := s1.regs.trhead + 64 } } (s.time + 1))

/-! ### The register writes that are steps of their own -/

/-- SCHEDCFG_WRITE (03 R106). -/
def execSchedcfgWrite (value : DWord) (s : State) : Out1 := .next (s.setSchedcfg value)

/-- DETCFG_WRITE (12 R353). -/
def execDetcfgWrite (value : DWord) (s : State) : Out1 := .next (s.setDev 0x20 value)

/-- TTEPOCH_WRITE (10 R292). -/
def execTtepochWrite (value : DWord) (s : State) : Out1 := .next (s.setTtepoch value)

/-- BANKMAP_WRITE (07 R219, R221). -/
def execBankmapWrite (q word : Nat) (value : DWord) (s : State) : Out1 :=
  .next (s.modCore q (fun c => c.setReg (0x50 + word % 4) value))

end Sys2Proof.Machine
end

