-- ==== Sys2Proof/Machine/Debug.lean ====
section
/-! DEFINITION. Halted state (15 R412, R427, R428): the items that `hread` and `hwrite` move, and the stepping of one lane
of a halted group. -/
namespace Sys2Proof.Machine

/-! ### The divergence stack as words (04 Tables 4.2, 4.3) -/

/-- A frame header. -/
def hdrWord : Hdr → Word
  | .thenSide => 0x40000000
  | .elseSide => 0x80000000
  | .walk brx e _ _ => 0xC0000000 ||| (brx.setWidth 32 <<< 8) ||| e.setWidth 32

/-- The entries of a frame, bottom first. -/
def frameWords (f : DFrame) (h : Hdr) : List Word :=
  (match h with
   | .walk _ _ _ _ => (List.range 8).map (fun n => BitVec.ofNat 32 (ofBytes
       ((List.range 4).map (fun i => (f.idx.getD []).getD (4 * n + i) 0xFF))))
   | _ => []) ++ [f.saved, hdrWord h]

/-- The entries of a stack, bottom first. Frames and headers are paired from the bottom: a core that faulted at a push holds no
frame yet for the header on top (04 R130). -/
def stackWords (ds : List DFrame) (hs : List Hdr) : List Word :=
  (ds.reverse.zip hs.reverse).flatMap (fun e => frameWords e.1 e.2)

/-! ### The target group (15 R412) -/

/-- A target: where it stands, whether it is the handled group, and the hold it is in. -/
structure Target where
  row     : Nat
  slot    : Nat
  col     : Nat
  grp     : Nat
  handled : Bool
  wide    : Bool
  serial  : Nat
  deriving DecidableEq, Repr

/-- The target that a handler's instruction names. -/
def Here.tgt (h : Here) (g : Nat) : Target where
  row := h.cur.row
  slot := h.cur.slot
  col := h.cur.col
  grp := g
  handled := g == h.cur.grp
  wide := (h.reach.hold.map (fun x => x.wide)).getD false
  serial := (h.reach.hold.map (fun x => x.serial)).getD 0

/-- The target's group. -/
def State.tgt? (s : State) (t : Target) : Option Group := (s.ctb? t.row t.slot t.col).bind (fun c => c.group? t.grp)

def State.modTgt (s : State) (t : Target) (f : Group → Group) : State := s.modGroup t.row t.slot t.col t.grp f

/-- The group is the handled one or a halted sibling. -/
def State.tgtOk (s : State) (t : Target) : Bool :=
  ((s.ctb? t.row t.slot t.col).map (fun c => c.live t.grp)).getD false

/-- The registers at the headland of the target, as the interrupted program has them. -/
def State.tgtRG (s : State) (t : Target) : Option RGroup :=
  (s.reach? t.row t.slot).bind (fun r =>
    match r.rgs[t.grp]?, r.hold with
    | some rg, some x => some (if t.wide && t.handled && x.entered && !x.halted then { rg with k := x.rg.k } else rg)
    | some rg, none => some rg
    | none, _ => none)

/-- A group with the EXM, stack and latches of its interrupted program in place, and those of its handler in the shadow;
done twice, nothing has changed. -/
def Group.exchange (g : Group) : Group :=
  match g.shadow with
  | none => g
  | some sh =>
    { g with
      prd := sh.prd
      div := sh.div
      dstack := sh.dstack
      latch := sh.latch
      shadow := some { sh with prd := g.prd, div := g.div, dstack := g.dstack, latch := g.latch } }

/-- Lane cursor of a target (15 R428): CURSOR for the handled group. -/
def Target.cursor (t : Target) (g : Group) : Nat := if t.handled then g.trap.cursor else min 32 g.cursor

/-- The instruction address at which a target goes on. -/
def Target.pc (t : Target) (g : Group) (rg : RGroup) : DWord := if t.handled then g.trap.res else rg.pc

/-- A trap record with another CURSOR. -/
def TrapRec.withCursor (r : TrapRec) (v : Nat) : TrapRec :=
  { r with lane := (r.lane &&& 0xFFFFC0FF) ||| BitVec.ofNat 32 (256 * v) }

/-- Set a target's cursor. -/
def Target.setCursor (t : Target) (v : Nat) (g : Group) : Group :=
  if t.handled then { g with trap := g.trap.withCursor v } else { g with cursor := if v = 32 then 33 else v }

/-! ### Items (15 Table 15.16) -/

/-- Items with a value for each lane. -/
def perLane (item : Nat) : Bool := item == 0x00 || item == 0x0C

/-- Items that hold uniform state. -/
def uniformItem (item : Nat) : Bool := item == 0x01 || item == 0x02 || item == 0x08 || item == 0x09

/-- Items that `hwrite` may never name. -/
def readOnlyItem (item : Nat) : Bool := item == 0x06 || item == 0x0A || item == 0x0B || item == 0x0D || item == 0x0E

/-- One half of a 64-bit value. -/
def half (hi : Bool) (v : DWord) : Word := if hi then hi32 v else lo32 v

/-- An item of a target, in a lane. -/
def State.haltedRead (s : State) (t : Target) (item ix lane planned : Nat) : Word :=
  match s.tgt? t, s.tgtRG t with
  | some g, some rg =>
    let x := g.exchange
    let st := stackWords x.dstack rg.hstack
    if item = 0x00 then g.vlane ix lane
    else if item = 0x01 ∨ item = 0x02 then half (item == 0x02) (t.pc g rg)
    else if item = 0x03 then x.div
    else if item = 0x04 then x.prd
    else if item = 0x05 then BitVec.ofNat 32 (t.cursor g + 256 * g.skid)
    else if item = 0x06 then g.hlm
    else if item = 0x07 then g.mask (BitVec.ofNat 4 ix)
    else if item = 0x08 ∨ item = 0x09 then half (item == 0x09) (rg.k.getD ix 0)
    else if item = 0x0A then st.getD ix 0
    else if item = 0x0B then BitVec.ofNat 32 st.length
    else if item = 0x0C then ((g.ix.getD ix []).getD lane 0).signExtend 32
    else half (item == 0x0E) (s.pNow g ix planned)
  | _, _ => 0

/-- A 64-bit value with one half replaced. -/
def setHalf (hi : Bool) (w : Word) (v : DWord) : DWord := if hi then pair w (lo32 v) else pair (hi32 v) w

/-- Change the registers at the headland of a target in a reach-wide hold. -/
def State.modTgtRG (s : State) (t : Target) (f : RGroup → RGroup) : State :=
  s.modReach t.row t.slot (fun r =>
    { r with rgs := r.rgs.modify t.grp f
             hold := r.hold.map (fun x => if t.handled then { x with rg := { x.rg with k := (f x.rg).k } } else x) })

/-- Write a group item of a target. -/
def State.haltedWrite (s : State) (l : Launch) (t : Target) (item ix : Nat) (w : Word) : State :=
  if item = 0x01 ∨ item = 0x02 then
    (if t.handled then s.modTgt t (fun g => { g with trap := { g.trap with res := setHalf (item == 0x02) w g.trap.res &&& ~~~3 } })
     else s.modTgtRG t (fun rg =>
       let v := setHalf (item == 0x02) w rg.pc &&& ~~~3
       { rg with pc := v, npc := v, head := false, tstep := false }))
  else if item = 0x03 then s.modTgt t (fun g => ({ g.exchange with div := w &&& g.present } : Group).exchange)
  else if item = 0x04 then s.modTgt t (fun g => ({ g.exchange with prd := w } : Group).exchange)
  else if item = 0x05 then
    (if t.handled then s.modTgt t (fun g => { g with trap := s.cursorWrite l g.trap (w.extractLsb' 0 6).toNat })
     else if (w.extractLsb' 0 6).toNat ≤ 32 then s.modTgt t (t.setCursor (w.extractLsb' 0 6).toNat) else s)
  else if item = 0x07 then s.modTgt t (fun g => g.setM (BitVec.ofNat 4 ix) w)
  else if item = 0x08 ∨ item = 0x09 then
    s.modTgtRG t (fun rg => { rg with k := rg.k.set ix (setHalf (item == 0x09) w (rg.k.getD ix 0)) })
  else s

/-- Write a per-lane item of a target in some lanes. -/
def State.lanesWrite (s : State) (t : Target) (item ix : Nat) (vs : List (Nat × DWord)) : State :=
  if vs = [] then s
  else if item = 0x00 then
    s.modTgt t (fun g =>
      let g1 := g.alloc ix
      { g1 with vregs := writeReg ix (laneMask vs) ((laneVals vs).map lo32) g1.vregs })
  else
    s.modTgt t (fun g => { g with ix := g.ix.modify ix (fun l => mkLanes (fun k => match look vs k with
      | some v => v.setWidth 16
      | none => l.getD k 0)) })

/-- The CTB of a target was edited (15 R412). -/
def State.markEdited (s : State) (t : Target) : State := s.modCtb t.row t.slot t.col (fun c => { c with edited := true })

/-- The rows that a target would hold after a write of an unwritten vector register that its budget and grants do not allow
(02 R59, 15 R427). -/
def Launch.overQuota (l : Launch) (g : Group) (item ix : Nat) : Option Nat :=
  if item = 0x00 ∧ (g.vreg? ix).isNone = true ∧ l.record.budget + g.granted < g.footprint + 1 then some (g.footprint + 1) else none

/-- The group-wide checks of `hread` and `hwrite` (15 R427). -/
def State.itemBad (s : State) (h : Here) (w : HItem) (write : Bool) : Option (Nat × DWord) :=
  let t := h.tgt w.group.toNat
  let item := w.item.toNat
  if !h.cur.handler || !s.tgtOk t || (write && (readOnlyItem item || (uniformItem item && !t.wide))) then
    some (cIllegalOperand, 0)
  else
    if write then
      ((s.tgt? t).bind (fun g => h.launch.overQuota g item w.index.toNat)).map (fun n => (cRegQuota, BitVec.ofNat 64 n))
    else none

/-- 15 R427. -/
def execHread (d : Dst) (w : HItem) (s : State) : Out1 :=
  s.withHere (fun h =>
    let t := h.tgt w.group.toNat
    s.vec h { ops := [], dst := some d, steps := false,
              lane := fun k _ => { val := (s.haltedRead t w.item.toNat w.index.toNat k h.planned).setWidth 64 } }
      (s.itemBad h w false) justVals)

/-- 15 R427. -/
def execHwrite (a : Src) (w : HItem) (s : State) : Out1 :=
  s.withHere (fun h =>
    let t := h.tgt w.group.toNat
    let item := w.item.toNat
    let ix := w.index.toNat
    if perLane item then
      s.vec h { ops := [.src a false], steps := false, lane := fun _ vs => { val := arg vs 0 } } (s.itemBad h w true)
        (fun s stop outs =>
          let s1 := s.lanesWrite t item ix (outs.map (fun o => (o.1, o.2.val)))
          (if stop = 32 ∨ outs ≠ [] then s1.markEdited t else s1, []))
    else
      s.vec h (lowestLane h (.src a false)) (s.itemBad h w true) (fun s stop outs =>
        (match outs.head? with
          | some o => (s.haltedWrite h.launch t item ix (lo32 o.2.val)).markEdited t
          | none => if stop = 32 then s.markEdited t else s, [])))

/-! ### Stepping (15 R428) -/

/-- The meaning of a steppable instruction (15 R407). -/
def stepExec (i : Instr) (s : State) : Out1 :=
  match i with
  | .add ty sat d a b => execAdd ty sat d a b s
  | .sub ty sat d a b => execSub ty sat d a b s
  | .mul ty d a b => execMul ty d a b s
  | .mulh ty d a b => execMulh ty d a b s
  | .mad ty sat d a b c => execMad ty sat d a b c s
  | .div ty d a b => execDiv ty d a b s
  | .rem ty d a b => execRem ty d a b s
  | .min ty d a b => execMin ty d a b s
  | .max ty d a b => execMax ty d a b s
  | .abs wd sat d a => execAbs wd sat d a s
  | .neg wd sat d a => execNeg wd sat d a s
  | .and wd d a b => execAnd wd d a b s
  | .or wd d a b => execOr wd d a b s
  | .xor wd d a b => execXor wd d a b s
  | .andn wd d a b => execAndn wd d a b s
  | .shl wd d a b => execShl wd d a b s
  | .shr ty d a b => execShr ty d a b s
  | .rot wd d a b => execRot wd d a b s
  | .popc wd d a => execPopc wd d a s
  | .clz wd d a => execClz wd d a s
  | .ctz wd d a => execCtz wd d a s
  | .brev wd d a => execBrev wd d a s
  | .bfx ty d a pos len => execBfx ty d a pos len s
  | .bfi wd d a b pos len => execBfi wd d a b pos len s
  | .cmp p ty d a b => execCmp p ty d a b s
  | .sel wd d a b c => execSel wd d a b c s
  | .mov wd d a => execMov wd d a s
  | .lea d a b disp => execLea d a b disp s
  | .acvTo w d a => execAcvTo w d a s
  | .acvFrom w d a => execAcvFrom w d a s
  | .ats sp d a => execAts sp d a s
  | .sreg item d => execSreg item d s
  | .vget ix d base disp len => execVget ix d base disp len s
  | .vput ix base b disp len => execVput ix base b disp len s
  | .fadd ty rm d a b => execFadd ty rm d a b s
  | .fsub ty rm d a b => execFsub ty rm d a b s
  | .fmul ty rm d a b => execFmul ty rm d a b s
  | .fma ty rm d a b c => execFma ty rm d a b c s
  | .fmin ty d a b => execFmin ty d a b s
  | .fmax ty d a b => execFmax ty d a b s
  | .fabs ty d a => execFabs ty d a s
  | .fneg ty d a => execFneg ty d a s
  | .fcopysign ty d a b => execFcopysign ty d a b s
  | .fcmp p ty d a b => execFcmp p ty d a b s
  | .frcp rm d a => execFrcp rm d a s
  | .frsq rm d a => execFrsq rm d a s
  | .fsqrt rm d a => execFsqrt rm d a s
  | .fexp2 rm d a => execFexp2 rm d a s
  | .flog2 rm d a => execFlog2 rm d a s
  | .fclass ty d a => execFclass ty d a s
  | .fscale ty rm d a b => execFscale ty rm d a b s
  | .frnd ty rm d a => execFrnd ty rm d a s
  | .fcvt dst src rm d a => execFcvt dst src rm d a s
  | .icvt toFloat ity fc rm d a => execIcvt toFloat ity fc rm d a s
  | .qcvtTo slot rm d a => execQcvtTo slot rm d a s
  | .qcvtFrom slot rm d a => execQcvtFrom slot rm d a s
  | .fpack bf rm d a b => execFpack bf rm d a b s
  | .funpack bf d a => execFunpack bf d a s
  | .fdot2 bf rm d a b c => execFdot2 bf rm d a b c s
  | .fdot4 slot rm d a b c => execFdot4 slot rm d a b c s
  | .ld ty d base off disp => execLd ty d base off disp s
  | .lld ty d base off disp => execLld ty d base off disp s
  | .cld ty d base off disp => execCld ty d base off disp s
  | .st ty base off disp c => execSt ty base off disp c s
  | .lst ty base off disp c => execLst ty base off disp c s
  | .cst ty base off disp c => execCst ty base off disp c s
  | _ => .next s

/-- Execute one lane of a steppable instruction for a target: the cause of its fault, if it faults. Its results land at
once; what the group had in flight stays in flight. -/
def State.stepLane (s : State) (t : Target) (pc : DWord) (i : Instr) (len lane : Nat) : Option Nat × State :=
  match s.tgt? t, s.tgtRG t, s.reach? t.row t.slot with
  | some g, some rg, some r =>
    let s1 := (s.modReach t.row t.slot (fun r => { r with rgs := r.rgs.set t.grp rg })).modTgt t (fun x =>
      { x.exchange with pend := [], cursor := 0 })
    let c : Cur := { row := t.row, slot := t.slot, col := t.col, grp := t.grp, handler := false, head := false, pc := pc
                     ilen := len, only := some lane }
    match stepExec i { s1 with cur := some c, faults := [] } with
    | .next s2 =>
      let cause := (s2.faults.head?).map (fun f => f.cause)
      let s3 : State := { s2 with cur := s.cur, faults := s.faults }
      (cause, s3.modTgt t (fun x =>
        { (x.landAll r.run (rg.pos + (s.runLen r - rg.idx))).exchange with pend := g.pend, cursor := g.cursor }))
    | _ => (none, s)
  | _, _, _ => (none, s)

/-- The status word of `hstep`. -/
def stepStatus (code cause cursor : Nat) : Word :=
  BitVec.ofNat 32 (code + 256 * cause + 65536 * cursor + (if cursor = 32 then 4194304 else 0))

/-- The instruction at an address for a stepped lane, or the cause of its fault (15 R428). -/
def State.stepFetch (s : State) (l : Launch) (pc : DWord) : Except Nat (Instr × DWord × Nat) :=
  match s.fetch l pc with
  | .fault c _ _ _ => .error c
  | .instr i p n => match s.modeCheck l.record.super l i with
    | some c => .error c
    | none => .ok (i, p, n)

/-- `hstep.lane` (15 R428): the status and the state. -/
def State.stepHalted (s : State) (l : Launch) (t : Target) (lane : Nat) : Word × State :=
  match s.tgt? t with
  | none => (stepStatus 1 0 0, s)
  | some g =>
    let cur := t.cursor g
    match g.snaps.find? (fun x => x.lane == lane && x.hold == t.serial) with
    | none => (stepStatus 1 0 cur, s)
    | some sn =>
      match s.stepFetch l sn.pc with
      | .error c => (stepStatus 2 c cur, s)
      | .ok (i, p, n) =>
        if !steppable i then (stepStatus 3 0 cur, s)
        else
          let b := maskOf (fun k => k == lane)
          let put (on : Bool) (w : Word) : Word := if on then w ||| b else w
          let back (x : Group) : Group :=
            let d := x.dstack.reverse.zip sn.stack
            { x with
              div := put sn.div x.div
              dstack := (d.map (fun (e : DFrame × Bool) => { e.1 with saved := put e.2 e.1.saved })).reverse
              hlm := x.hlm &&& ~~~b
              snaps := x.snaps.filter (fun y => y.lane != lane) }
          let s1 := s.modTgt t (fun x => (back x.exchange).exchange)
          match s1.stepLane t p i n lane with
          | (some c, s2) => (stepStatus 2 c cur, s2)
          | (none, s2) => (stepStatus 0 0 cur, s2)

/-- `hstep.cursor` (15 R428). -/
def State.stepCursor (s : State) (l : Launch) (t : Target) : Word × State :=
  match s.tgt? t, s.tgtRG t with
  | some g, some rg =>
    let cur := t.cursor g
    match s.stepFetch l (t.pc g rg) with
    | .error c => (stepStatus 2 c cur, s)
    | .ok (i, p, n) =>
      if !steppable i then (stepStatus 3 0 cur, s)
      else
        let act := g.exchange.active
        match (List.range 32).find? (fun k => decide (cur ≤ k) && bit act k) with
        | none => (stepStatus 0 0 32, s.modTgt t (t.setCursor 32))
        | some j =>
          match s.stepLane t p i n j with
          | (some c, s2) => (stepStatus 2 c j, s2.modTgt t (t.setCursor j))
          | (none, s2) =>
            let nxt := ((List.range 32).find? (fun k => decide (j < k) && bit act k)).getD 32
            (stepStatus 0 0 nxt, s2.modTgt t (t.setCursor nxt))
  | _, _ => (stepStatus 1 0 0, s)

/-- `hstep` after its checks: the step, whose status reaches the active lanes of the handler. -/
def State.stepInto (s : State) (h : Here) (d : Dst) (bad : Bool) (f : State → Word × State) : State :=
  s.vec h { ops := [], dst := some d, steps := false, lane := fun _ _ => { val := 0 } }
    (if bad then some (cIllegalOperand, 0) else none)
    (fun s _ outs => ((f s).2, outs.map (fun o => (o.1, (f s).1.setWidth 64))))

/-- The check of `hstep` (15 R428). -/
def State.stepBad (s : State) (h : Here) (v used : DWord) : Bool :=
  v &&& ~~~used != 0 || !h.cur.handler || !s.tgtOk (h.tgt (v.extractLsb' 0 5).toNat)

/-- 15 R428. -/
def execHstepLane (d : Dst) (a : BitVec 6) (s : State) : Out1 :=
  s.withHere (fun h =>
    let v := h.k a
    s.stepInto h d (s.stepBad h v 0x1F1F) (fun s =>
      s.stepHalted h.launch (h.tgt (v.extractLsb' 0 5).toNat) (v.extractLsb' 8 5).toNat))

/-- 15 R428. -/
def execHstepCursor (d : Dst) (a : BitVec 6) (s : State) : Out1 :=
  s.withHere (fun h =>
    let v := h.k a
    s.stepInto h d (s.stepBad h v 0x1F) (fun s => s.stepCursor h.launch (h.tgt (v.extractLsb' 0 5).toNat)))

end Sys2Proof.Machine
end

