-- ==== Sys2Proof/Machine/Place.lean ====
section
/-! DEFINITION. A program in place: groups, CTBs and reaches as a launch starts them (02 R55, 04 R126, 03 R106), and the
smallest running launch around given code bytes, which stands for the load of a program (notes/assumptions/5). -/
namespace Sys2Proof.Machine

/-- A group at its launch (02 R55, R59, 03 R106): `present` lanes, nothing written, an empty stack. -/
def Group.start (present : Word) : Group where
  present := present
  vregs := []
  m := List.replicate 16 0
  latch := List.replicate 4 { val := List.replicate 32 0, valid := 0 }
  ix := List.replicate 4 (List.replicate 32 0)
  sd := List.replicate 16 Stream.unset
  p := List.replicate 8 0xFFFFFFFFFFFFFFFF
  pTrack := List.replicate 8 none
  prd := 0xFFFFFFFF
  div := present
  dstack := []
  iflags := 0
  xflags := 0
  granted := 0
  pend := []
  trap := { cause := 0, pc := 0, addr := 0, lane := 0, res := 0 }
  trapTide := 0
  again := false
  halting := none
  shadow := none
  hlm := 0
  snaps := []
  lane := []
  cursor := 0
  skid := 0
  ended := false
  killed := false
  passed := none
  marks := []
  lateErr := []
  seen := []
  pseen := List.replicate 6 []
  ready := false
  code := 0
  owed := .none
  target := 0
  issuedX := 0
  fenceX := 0

/-- A barrier at launch (12 R342). -/
def Barrier.start : Barrier where
  phase := 0
  arrived := 0
  remote := []
  carried := []
  exr := none
  arrph := List.replicate 32 none
  transit := []

/-- A reach group at its launch: pc at ENTRY, every uniform register as given (03 R106). -/
def RGroup.start (entry : DWord) (k : List DWord) (reach grp : Nat) : RGroup where
  pc := entry
  npc := entry
  k := k
  hstack := []
  pos := 1
  idx := 0
  head := false
  tstep := false
  wait := none
  issued := 0
  observed := []
  steps := []
  last := 0
  reach := reach
  grp := grp

/-- The smallest record that runs one lane group (03 Table 3.1). -/
def Record.small (super : Bool) : Record where
  entry := 0x10000
  handler := 0
  args := 0
  gridx := 1
  gridy := 1
  gridz := 1
  stages := 0
  groups := 1
  lanes := 32
  runExp := 0
  rowoff := 0
  edge := 0
  detcls := 0
  prio := 0
  super := super
  budget := 64
  reserve := 0
  lsbytes := 0
  rowmask := 1
  scrbytes := 4096
  childmax := 0
  complete := 0
  plane := 0
  engshare := 0
  accmask := List.replicate 16 0
  fmt := List.replicate 8 0
  preload := 0
  writeback := 0
  mapset := 0
  sounds := 0
  npre := 0
  nwb := 0
  nmap := 0
  sndmask := 0
  deps := []
  debug := 0
  save := 0
  mirror := 0
  childarea := 0

/-- Launch 0, running on row 0, with one executable page. -/
def Launch.small (super : Bool) : Launch where
  id := 0
  ident := 0
  issuer := .host 0 0
  recAddr := 0
  late := false
  declared := 0
  issueTide := 0
  issuerSuper := super
  state := .running
  status := 0
  record := Record.small super
  pre := []
  wb := []
  maps := [{ base := 0x10000, len := 0x1000, r := true, w := true, x := true }]
  snds := []
  marked := false
  replayable := false
  south := false
  refused := false
  cancelled := false
  trans := [{ va := 0x10000, pa := 0x10000, len := 0x1000, r := true, w := true, x := true, ord := false, red := false,
              bin := false, rdx := 0 }]
  promise := none
  effective := some 0
  ends := []
  finished := []
  wbLeft := []
  release := []
  doneView := []
  doneTide := 0
  replays := 0
  acted := false

/-- Its CTB, with a scratch allocation at physical byte 0. -/
def Ctb.small : Ctb where
  x := 0
  y := 0
  z := 0
  blk := 0
  stage := 0
  lin := 0
  base := 0
  groups := [Group.start 0xFFFFFFFF]
  reserve := 0
  bar := Barrier.start
  barRel := []
  sounds := []
  sndRel := []
  binds := []
  leaves := []
  edited := false
  ended := none
  mtile := none
  endTide := 0
  stopGrp := 0
  stop := none
  hdr := []
  before := none

/-- Its reach, in slot 0 of row 0. -/
def Reach.small : Reach where
  row := 0
  slot := 0
  launch := 0
  j := 0
  gen := 0
  rgs := [RGroup.start 0x10000 (List.replicate 64 0) 0 0]
  ctbs := [(0, Ctb.small)]
  frames := 0
  run := 0
  visits := 0
  hold := none
  stalled := false
  counted := true
  tallied := true
  moving := false
  moved := false
  resident := true
  started := true
  saved := false
  entering := false
  leaving := false
  asked := 0

/-- Code bytes in place: launch 0 runs on row 0 with one group of 32 lanes, its code stands at ENTRY, and the first run
index of its slot is in execution. -/
def State.place (s : State) (super : Bool) (code : List Byte) : State :=
  { s.dramWrite 0x10000 code with
    issue := some (Issue.start 0 0 0 [(0, 0)] [] [])
    rows := s.rows.set 0 { holder := some 0, t0 := 0, wanted := none }
    launches := Launch.small super :: s.launches.filter (fun l => l.id != 0)
    reaches := Reach.small :: s.reaches.filter (fun r => !(r.row == 0 && r.slot == 0))
    nextId := max s.nextId 1 }

end Sys2Proof.Machine
end

