-- ==== Sys2Proof/Machine/Image.lean ====
section
/-! DEFINITION. The image of a CTB in a save slot (03 R114 to R116; 15 R404, R405, R417, R460): its sections byte for byte,
its header and TAG, and what a restore takes from it. -/
namespace Sys2Proof.Machine

/-! ### TAG (15 R417) -/

/-- One bit of CRC-64/XZ. -/
def crcBit (c : DWord) : DWord := if c.getLsbD 0 then (c >>> 1) ^^^ 0xC96C5795D7870F42 else c >>> 1

/-- One byte of CRC-64/XZ. -/
def crcByte (c : DWord) (b : Byte) : DWord := (List.range 8).foldl (fun c _ => crcBit c) (c ^^^ b.setWidth 64)

/-- CRC-64/XZ. -/
def crc64 (bs : List Byte) : DWord := ~~~(bs.foldl crcByte (BitVec.allOnes 64))

/-! ### Sections (03 Tables 3.12, 3.13) -/

/-- Bytes of a list of 32-bit words. -/
def wordBytes (ws : List Word) : List Byte := ws.flatMap (fun w => toBytes 4 w.toNat)

/-- ESZ of 07 Table 7.8. -/
def eszCode : Esz → Nat
  | .b32 => 0
  | .n16 => 1
  | .i16 => 2
  | .n8 => 3
  | .i8 => 4
  | .b64 => 5

def eszOf (n : Nat) : Esz :=
  match n with
  | 0 => .b32
  | 1 => .n16
  | 2 => .i16
  | 3 => .n8
  | 4 => .i8
  | _ => .b64

/-- A stream shape register: 64 bytes (07 Table 7.8). -/
def Stream.image (d : Stream) : List Byte :=
  let n (l : List Nat) (i : Nat) : List Byte := toBytes 2 (l.getD i 0)
  toBytes 4 d.base.toNat ++ toBytes 4 (eszCode d.esz + (if d.wrap then 8 else 0)) ++ wordBytes (d.stride.take 5) ++
    toBytes 2 (d.ext0 % 64) ++ n d.ext 0 ++ n d.ext 1 ++ n d.ext 2 ++ n d.ext 3 ++ n d.pos 0 ++ n d.pos 1 ++ n d.pos 2 ++
    n d.pos 3 ++ List.replicate 18 0

/-- Its contents, with the position of its last use as before. -/
def Stream.ofImage (bs : List Byte) (old : Stream) : Stream where
  base := BitVec.ofNat 32 (fieldOf bs 0 4)
  esz := eszOf (fieldOf bs 4 1 % 8)
  wrap := fieldOf bs 4 1 / 8 % 2 == 1
  stride := (List.range 5).map (fun i => BitVec.ofNat 32 (fieldOf bs (8 + 4 * i) 4))
  ext0 := fieldOf bs 28 1 % 64
  ext := (List.range 4).map (fun i => fieldOf bs (30 + 2 * i) 2)
  pos := (List.range 4).map (fun i => fieldOf bs (38 + 2 * i) 2)
  setAt := old.setAt

/-- A list of bytes brought to a length. -/
def fitTo (n : Nat) (bs : List Byte) : List Byte := (bs ++ List.replicate (n - bs.length) 0).take n

/-- A group control record: 2,304 bytes (03 Table 3.13). `pc` and `cursor` are where the group goes on. -/
def Group.record (g : Group) (rg : RGroup) (pc : DWord) (cursor : Nat) : List Byte :=
  let x := g.exchange
  let st := stackWords x.dstack rg.hstack
  toBytes 8 pc.toNat ++ toBytes 8 (x.reg 0).toNat ++ toBytes 8 st.length ++ toBytes 2 g.footprint ++ toBytes 2 g.granted ++
    toBytes 1 g.skid ++ toBytes 1 cursor ++ toBytes 2 0 ++ wordBytes ((g.m.drop 1).take 15) ++ toBytes 4 0 ++
    (g.p.take 8).flatMap (fun v => toBytes 8 v.toNat) ++ List.replicate 96 0 ++ fitTo 256 (wordBytes st) ++
    (rg.k.take 64).flatMap (fun v => toBytes 8 v.toNat) ++ (g.sd.take 16).flatMap Stream.image ++
    (g.ix.take 4).flatMap (fun l => (l.take 32).flatMap (fun v => toBytes 2 v.toNat))

/-- The written names of a group, ascending. -/
def Group.rows (g : Group) : List VReg := g.vregs.filter (fun v => v.written)

/-- Section 0x0002 of a group: the bitmap of its written names, then their rows. -/
def Group.regImage (g : Group) : List Byte :=
  let ns := g.rows.map (fun v => v.name)
  (List.range 256).map (fun i => BitVec.ofNat 8 (((List.range 8).filter (fun b => ns.contains (8 * i + b))).map (2 ^ ·)).sum) ++
    g.rows.flatMap (fun v => fitTo 128 (wordBytes v.val))

/-- Section 0x0003 of a group. -/
def Group.laneImage (g : Group) (lanes size : Nat) : List Byte :=
  (List.range lanes).flatMap (fun k => rdN g.lane (laneKey k 0) size)

/-- Section 0x0005: the tiles of the slot. -/
def Matrix.tileImage (m : Matrix) (acc : BitVec 16) : List Byte :=
  ((List.range 16).filter (fun n => acc.getLsbD n)).flatMap (fun n =>
    wordBytes ((List.range 2048).map (fun i => (m.tile n).elts.getD i 0)))

/-- Section 0x0006 (08 R274). -/
def Matrix.planeImage (m : Matrix) : List Byte :=
  rdN m.active.data 0 16384 ++ rdN m.active.md 0 2048 ++ rdN m.shadow.data 0 16384 ++ rdN m.shadow.md 0 2048

/-- A set of groups as a word. -/
def groupBits (gs : List Group) (f : Group → Bool) : Nat :=
  (((gs.zip (List.range gs.length)).filter (fun e => f e.1)).map (fun e => 2 ^ e.2)).sum

/-- A pending push or pop on a sound. -/
def Group.owesPush (n : Nat) (g : Group) : Bool :=
  match g.owed with
  | .push k _ => k == n
  | _ => false
def Group.owesPop (n : Nat) (g : Group) : Bool :=
  match g.owed with
  | .pop k => k == n
  | _ => false

/-- Section 0x0007 (12 Table 12.12). -/
def Ctb.soundImage (c : Ctb) : List Byte :=
  (List.range 16).flatMap (fun n =>
    match c.sounds.find? (fun x => x.n == n) with
    | none => List.replicate 32 0
    | some x =>
      toBytes 4 x.roff ++ toBytes 2 x.depth ++ toBytes 2 x.head ++ toBytes 2 x.count ++ toBytes 2 x.allow ++ toBytes 4 0 ++
        toBytes 4 (groupBits c.groups (Group.owesPush n)) ++ toBytes 4 (groupBits c.groups (Group.owesPop n)) ++ toBytes 8 0)

/-- The kinds of the wait record (12 Table 12.13); a `tresync` has none. -/
def WaitKind.code : WaitKind → Nat
  | .bar => 1
  | .push => 2
  | .pop => 3
  | .acq => 4
  | .wait => 5
  | .lwait => 6
  | .tsleep => 7
  | .coll => 8
  | .tresync => 0

/-- A wait record: 16 bytes. -/
def waitImage (w : Option Wait) (arrph : Option Word) : List Byte :=
  match w with
  | none => toBytes 8 0 ++ toBytes 4 (arrph.getD 0).toNat ++ toBytes 4 0
  | some w =>
    let obj : Nat := match w.kind with
      | .bar => 0
      | .lwait => 0
      | .tresync => 0
      | _ => w.obj.toNat
    let last : DWord := match w.kind with
      | .lwait => w.obj
      | .acq => w.arg
      | .wait => w.arg
      | .push => w.arg
      | _ => 0
    toBytes 1 w.kind.code ++ toBytes 1 w.texp ++ toBytes 2 obj ++ toBytes 4 w.idle ++ toBytes 4 (arrph.getD 0).toNat ++
      toBytes 4 (lo32 last).toNat

/-- Section 0x0008 (12 Table 12.13). -/
def Ctb.barImage (c : Ctb) (waits : List (Option Wait)) : List Byte :=
  let b := c.bar
  let exr : Nat := match b.exr with
    | some e => 2 ^ 31 + e % 65536
    | none => 0
  toBytes 4 b.arrived.toNat ++ toBytes 4 (groupBits c.groups (fun g => g.ended)) ++ toBytes 4 b.remote.length ++
    toBytes 4 b.carried.length ++ toBytes 4 exr ++ List.replicate 12 0 ++
    (List.range 16).flatMap (fun i => match c.binds[i]? with
      | some e => toBytes 8 e.base.toNat ++ toBytes 4 e.len.toNat ++ toBytes 4 e.tgt.word.toNat
      | none => List.replicate 16 0) ++
    (List.range c.groups.length).flatMap (fun g => waitImage (waits.getD g none) (b.arrph.getD g none))

/-- A tag as 2 bits (08 R243, R275): ANY 0, FP 1, INT 2. -/
def Tag.code : Tag → Nat
  | .any => 0
  | .fp => 1
  | .int => 2

def tagOf (n : Nat) : Tag := if n = 1 then .fp else if n = 2 then .int else .any

/-- The matrix record: 576 bytes (08 R275). `next` is the next step of an `mtile`. -/
def Matrix.record (m : Matrix) (acc : BitVec 16) (plane : Bool) (mt : Option MtStep) (next : Option Nat) : List Byte :=
  let own := (List.range 16).filter (fun n => acc.getLsbD n)
  let d (p : Plane) : Nat := if plane then (p.desc.getD 0).toNat else 0
  let sp (p : Plane) : Nat := if plane && p.sparse then 1 else 0
  let scl (p : Plane) : List Byte := if plane then rdN p.scale 0 256 else List.replicate 256 0
  let step : List Byte := match next, mt with
    | some n, some t =>
      let f := (encodeFields (.mtile t.form t.sat t.slot t.sd 0 t.desc)).getD (opc 0 0 0)
      toBytes 4 n ++ toBytes 4 (t.grp + 256 * t.sd.toNat + 4096 * f.fn.toNat + 262144 * f.mod.toNat) ++ toBytes 4 t.mask.toNat ++
        toBytes 4 0 ++ toBytes 8 (sharedOff t.base) ++ toBytes 8 t.desc.word.toNat
    | _, _ => toBytes 4 0xFFFFFFFF ++ List.replicate 28 0
  toBytes 8 (d m.active) ++ toBytes 8 (d m.shadow) ++ toBytes 4 (sp m.active + 2 * sp m.shadow) ++
    toBytes 4 ((own.map (fun n => (m.tile n).tag.code * 4 ^ n)).sum) ++
    toBytes 2 ((own.filter (fun n => (m.tile n).tsat)).map (2 ^ ·)).sum ++ List.replicate 6 0 ++ step ++
    scl m.active ++ scl m.shadow

/-- The queue of a saved CTB. -/
def Matrix.parkedQueue (m : Matrix) (launch lin : Nat) : Option ItemQueue :=
  (m.parked.find? (fun e => e.1 == launch && e.2.1 == lin)).map (fun e => e.2.2)

/-- An entry of the copy record: 64 bytes (10 R318). -/
def Xfer.entry (x : Xfer) : List Byte :=
  toBytes 8 x.idx.word.toNat ++ toBytes 8 x.a.toNat ++ toBytes 8 x.b.toNat ++ toBytes 4 x.batch ++ toBytes 2 x.grp ++
    toBytes 2 (x.preg.getD 0) ++ toBytes 8 x.promise ++ List.replicate 24 0

/-- The collective record: 256 bytes (13 Table 13.10). -/
def Ctb.leafImage (c : Ctb) : List Byte :=
  (List.range 16).flatMap (fun i => match c.leaves[i]? with
    | some l => toBytes 4 (2 ^ 31 + l.rdx % 4096) ++ toBytes 4 l.lr ++ toBytes 1 (l.flags % 32) ++ toBytes 1 (if l.obs = 1 then 1 else 0) ++
        List.replicate 6 0
    | none => List.replicate 16 0)

/-! ### The image of a CTB -/

/-- A section: its type, the bytes of one of its rows, its bytes, and how many of them can be read. -/
structure Sect where
  typ   : Nat
  row   : Nat
  bytes : List Byte
  whole : Bool
  good  : Nat
  deriving DecidableEq, Repr

/-- The first byte of a section that cannot be read (15 R405). -/
def Core.sectLost (c : Core) (slot typ base n : Nat) : Option Nat :=
  if typ = 4 then (if c.errs = [] then none else (List.range n).find? (fun i => c.lostByte (base + i)))
  else ((c.lostBits.filter (fun e => e.1 == 16 * slot + typ && decide (e.2 < n))).map (fun e => e.2)).min?

/-- A section with what can be read of it. -/
def Core.sect (c : Core) (slot base typ row : Nat) (bs : List Byte) : Sect :=
  match c.sectLost slot typ base bs.length with
  | none => { typ := typ, row := row, bytes := bs, whole := true, good := bs.length }
  | some i => { typ := typ, row := row, bytes := bs, whole := false, good := i / row * row }

/-- Where a group of a saved CTB goes on: its address and lane cursor (15 R404). -/
def Target.stopOf (t : Target) (g : Group) (rg : RGroup) (dump : Bool) : DWord × Nat :=
  if dump && t.handled then (g.trap.res, g.trap.cursor)
  else (rg.pc, if dump then min 32 g.cursor else if g.cursor < 32 then g.cursor else 0)

/-- A group of a slot as the debug instructions name it. -/
def Reach.targetOf (r : Reach) (col g : Nat) : Target where
  row := r.row
  slot := r.slot
  col := col
  grp := g
  handled := (r.hold.map (fun h => h.queue.contains (col, g))).getD false
  wide := (r.hold.map (fun h => h.wide)).getD false
  serial := (r.hold.map (fun h => h.serial)).getD 0

/-- The reach of an ended CTB as it stood when the CTB stopped (15 R403). -/
def Reach.atStop (r : Reach) (c : Ctb) : Reach :=
  match c.stop with
  | some x => { r with rgs := x.rgs, hold := x.hold }
  | none => r

/-- The gathers and scatters of a CTB with batches left (10 R318). -/
def State.gathersLeft (s : State) (launch lin : Nat) : List Xfer :=
  s.xfers.filter (fun x => x.launch == launch && x.lin == lin && !x.landed && x.kind.path == 2)

/-- The sections of a CTB in ascending type order, with the reach as it stands at the CTB's stop. -/
def State.sections (s0 : State) (r0 : Reach) (l : Launch) (col : Nat) (c : Ctb) (dump : Bool) : List Sect :=
  let r := r0.atStop c
  let s := s0.modReach r.row r.slot (fun _ => r)
  let q := coreIx r.row col
  let core := s.core q
  let rec_ := l.record
  let acc := rec_.accmask.getD r.slot 0
  let plane := rec_.planeSlot r.slot
  let gs := c.groups.zip (List.range c.groups.length)
  let rgs (g : Nat) : RGroup := (s.tgtRG (r.targetOf col g)).getD (RGroup.start 0 [] 0 0)
  let ctl := gs.flatMap (fun e =>
    let st := (r.targetOf col e.2).stopOf e.1 (rgs e.2) dump
    e.1.record (rgs e.2) st.1 st.2)
  let rest := ((core.mx.parkedQueue l.id c.lin).map (fun x => x.items)).getD []
  let next := rest.findSome? (fun i => i.step)
  let xs := s.gathersLeft l.id c.lin
  let steps := wordBytes (c.groups.map (fun g => g.iflags)) ++ core.mx.record acc plane c.mtile next ++
    wordBytes (c.groups.map (fun g => g.xflags)) ++ xs.flatMap Xfer.entry ++ c.leafImage
  let mk (typ row : Nat) (bs : List Byte) : Sect := core.sect r.slot c.base typ row bs
  [mk 1 2304 ctl, mk 2 128 (c.groups.flatMap Group.regImage),
   mk 3 (max 1 rec_.lsbytes) (c.groups.flatMap (fun g => g.laneImage rec_.lanes rec_.lsbytes)),
   mk 4 64 (core.bytes c.base rec_.scrbytes), mk 5 256 (core.mx.tileImage acc)] ++
  (if plane then [mk 6 128 core.mx.planeImage] else []) ++
  [mk 7 32 c.soundImage, mk 8 16 (c.barImage ((List.range c.groups.length).map (fun g => (rgs g).wait))), mk 9 4 steps]

/-- Sections with their offsets from the slot start. -/
def placeSects : List Sect → Nat → List (Nat × Sect)
  | [], _ => []
  | x :: l, o => (o, x) :: placeSects l (o + x.bytes.length)

/-- A section that DIR lists: written whole, and not empty (15 R405, 17 R439). -/
def Sect.listed (x : Sect) : Bool := x.whole && x.bytes != []

/-- TOTAL: the end of the last section listed. -/
def totalOf (ss : List (Nat × Sect)) : Nat :=
  (ss.filter (fun e => e.2.listed)).foldl (fun t e => max t (e.1 + e.2.bytes.length)) 256

/-- The fault word of a dump (15 Table 15.6); of a save, TRUNC alone. -/
def faultWord (dump trunc kill : Bool) (g : Nat) (t : TrapRec) : Nat :=
  if !dump then (if trunc then 2 ^ 30 else 0)
  else
    let code := (t.cause.extractLsb' 0 8).toNat
    let orig0 := (t.cause.extractLsb' 8 8).toNat
    let orig := if !trunc || code == cDouble || kill then orig0 else code
    2 ^ 31 + (if trunc then 2 ^ 30 else 0) + 2 ^ 25 * (t.lane.extractLsb' 0 5).toNat + 2 ^ 20 * (g % 32) + 256 * orig +
      (if trunc then cDouble else code)

/-- The header without its TAG: bytes 0x08 to 0xFF (03 Table 3.11). -/
def headerBody (c : Ctb) (ident saveTide fault : Nat) (trapAddr : DWord) (ss : List (Nat × Sect)) : List Byte :=
  let ws := ss.filter (fun e => e.2.listed)
  let arrived := (List.range 32).filter (fun g => bit c.bar.arrived g)
  toBytes 4 c.x ++ toBytes 2 c.y ++ toBytes 2 c.z ++ toBytes 1 c.stage ++ toBytes 1 c.groups.length ++
    toBytes 1 (if c.edited then 1 else 0) ++ toBytes 1 0 ++ toBytes 4 c.bar.phase.toNat ++
    toBytes 4 (arrived.length + c.bar.remote.length) ++ toBytes 4 fault ++ toBytes 8 ident ++ toBytes 8 saveTide ++
    toBytes 4 ws.length ++ toBytes 4 (totalOf ss) ++ toBytes 8 trapAddr.toNat ++
    fitTo 192 (ws.flatMap (fun e => toBytes 2 e.2.typ ++ toBytes 2 0 ++ toBytes 4 e.1))

/-- The virtual address of a CTB's slot in the area (0) or the mirror (1). -/
def Record.slotAt (r : Record) (copy lin : Nat) : Nat :=
  (if copy = 0 then r.save.toNat else r.mirror.toNat) + lin * r.slotSize

/-- Bytes of DRAM at a virtual address of a launch; 0 where nothing maps it. -/
def State.virtBytes (s : State) (l : Launch) (va n : Nat) : List Byte :=
  (List.range n).map (fun i => match l.phys (va + i) with
    | some pa => s.dramByte pa
    | none => 0)

/-- Every byte of a range can be written by the engines of a row. -/
def State.canSave (s : State) (l : Launch) (row va n : Nat) : Bool :=
  (rowSegs 0 va 0 0 n).all (fun g => match l.phys g.va with
    | some pa => l.mayWrite g.va && s.acctlOk row pa true
    | none => false)

/-- The header of a copy with its TAG; a copy that cannot be written carries it complemented (15 R417). -/
def State.headerOf (s : State) (l : Launch) (row copy lin : Nat) (body : List Byte) (ss : List (Nat × Sect)) : List Byte :=
  let at_ := l.record.slotAt copy lin
  let total := totalOf ss
  let data := ss.flatMap (fun e =>
    if e.2.whole then e.2.bytes
    else e.2.bytes.take e.2.good ++ s.virtBytes l (at_ + e.1 + e.2.good) (e.2.bytes.length - e.2.good))
  let tag := crc64 (body ++ data.take (total - 256))
  toBytes 8 (if s.canSave l row at_ total then tag else ~~~tag).toNat ++ body

/-! ### Restoring (03 R111 step 5, R112; 15 R417) -/

/-- A header's TAG matches its slot. -/
def imageOk (bs : List Byte) : Bool :=
  let total := fieldOf bs 0x34 4
  decide (256 ≤ total ∧ total ≤ bs.length) && BitVec.ofNat 64 (fieldOf bs 0 8) == crc64 ((bs.take total).drop 8)

/-- The bytes of a section from its offset on. -/
def sectAt (bs : List Byte) (typ : Nat) : Option (List Byte) :=
  ((List.range (min 24 (fieldOf bs 0x30 4))).find? (fun i => fieldOf bs (0x40 + 8 * i) 2 == typ)).map (fun i =>
    bs.drop (fieldOf bs (0x44 + 8 * i) 4))

/-- The frames of a divergence stack from its entries, the top first (04 Tables 4.2, 4.3). -/
def parseStack (walk : BitVec 22 → Option (DWord × BrxDesc)) : Nat → List Word → List DFrame × List Hdr
  | 0, _ => ([], [])
  | n + 1, ws =>
    match ws with
    | h :: sv :: rest =>
      let kind := (h.extractLsb' 30 2).toNat
      if kind = 3 then
        let ixs := (rest.take 8).reverse.flatMap (fun w => toBytes 4 w.toNat)
        let brx := h.extractLsb' 8 22
        let t := (walk brx).getD (0, { joff := 0, n := 0, toff := 0 })
        let r := parseStack walk n (rest.drop 8)
        ({ saved := sv, idx := some ixs } :: r.1, Hdr.walk brx (h.extractLsb' 0 8) t.1 t.2 :: r.2)
      else
        let r := parseStack walk n rest
        ({ saved := sv, idx := none } :: r.1, (if kind = 1 then Hdr.thenSide else Hdr.elseSide) :: r.2)
    | _ => ([], [])

/-- The `brx.v` that a walk's header names, as code holds it. -/
def State.walkOf (s : State) (l : Launch) (brx : BitVec 22) : Option (DWord × BrxDesc) :=
  let addr := l.record.entry + 4 * brx.signExtend 64
  match s.fetch l addr with
  | .instr (.brxV _ _ t) pc _ => some (pc, t)
  | _ => none

/-- The stack of a control record. -/
def State.recordStack (s : State) (l : Launch) (bs : List Byte) : List DFrame × List Hdr :=
  let n := fieldOf bs 0x10 1
  parseStack (s.walkOf l) 64 (((List.range n).map (fun i => BitVec.ofNat 32 (fieldOf bs (0x100 + 4 * i) 4))).reverse)

/-- A group from its control record. -/
def Group.ofRecord (g : Group) (bs : List Byte) (ds : List DFrame) : Group :=
  let exm := BitVec.ofNat 64 (fieldOf bs 8 8)
  { g with
    prd := hi32 exm
    div := lo32 exm
    granted := fieldOf bs 0x1A 2
    skid := fieldOf bs 0x1C 1
    cursor := if g.cursor = 0 then fieldOf bs 0x1D 1 else g.cursor
    m := g.m.take 1 ++ (List.range 15).map (fun i => BitVec.ofNat 32 (fieldOf bs (0x20 + 4 * i) 4))
    p := (List.range 8).map (fun i => BitVec.ofNat 64 (fieldOf bs (0x60 + 8 * i) 8))
    dstack := ds
    sd := (g.sd.zip (List.range 16)).map (fun (e : Stream × Nat) => Stream.ofImage ((bs.drop (0x400 + 64 * e.2)).take 64) e.1)
    ix := (List.range 4).map (fun n => (List.range 32).map (fun k => BitVec.ofNat 16 (fieldOf bs (0x800 + 64 * n + 2 * k) 2))) }

/-- The written names and rows of a group, and the bytes that follow them. -/
def parseRegs (bs : List Byte) : List (Nat × List Word) × List Byte :=
  let ns := (List.range 256).flatMap (fun i =>
    let b := (bs.getD i 0)
    (List.range 8).filterMap (fun k => if b.getLsbD k then some (8 * i + k) else none))
  let body := bs.drop 256
  ((ns.zip (List.range ns.length)).map (fun e =>
    (e.1, (List.range 32).map (fun k => BitVec.ofNat 32 (fieldOf body (128 * e.2 + 4 * k) 4)))), body.drop (128 * ns.length))

/-- The rows of a group as restored; names still in flight keep theirs. -/
def Group.ofRegs (g : Group) (rows : List (Nat × List Word)) : Group :=
  let kept := g.vregs.filter (fun v => !v.written)
  { g with vregs := rows.foldl (fun l e => insertReg { name := e.1, written := true, val := e.2 } l) kept }

/-- The registers of the groups of a CTB from section 0x0002. -/
def parseAllRegs : List Group → List Byte → List Group
  | [], _ => []
  | g :: gs, bs =>
    let r := parseRegs bs
    g.ofRegs r.1 :: parseAllRegs gs r.2

/-- A memory from bytes: each `n` bytes stand at a key. -/
def memOf (key : Nat → Nat) (n : Nat) (blocks : Nat) (bs : List Byte) : Memory :=
  (List.range blocks).foldl (fun m k => wrN m (key k) ((bs.drop (n * k)).take n)) []

/-- The lane store of a group from its part of section 0x0003. -/
def Group.ofLanes (g : Group) (lanes size : Nat) (bs : List Byte) : Group :=
  { g with lane := memOf (fun k => laneKey k 0) size lanes bs }

/-- Sounds from section 0x0007. -/
def Sound.ofImage (x : Sound) (bs : List Byte) : Sound :=
  let b := bs.drop (32 * x.n)
  { x with roff := fieldOf b 0 4, depth := fieldOf b 4 2, head := fieldOf b 6 2, count := fieldOf b 8 2, allow := fieldOf b 10 2 }

/-- The barrier and the bindings from section 0x0008; what remote arrivals release stays as it was. -/
def Barrier.ofImage (b : Barrier) (bs : List Byte) : Barrier :=
  let exr := fieldOf bs 0x10 4
  let fit (l : List (Option Release)) (n : Nat) : List (Option Release) := (l ++ List.replicate (n - l.length) none).take n
  { b with arrived := BitVec.ofNat 32 (fieldOf bs 0 4), remote := fit b.remote (fieldOf bs 8 4), carried := fit b.carried (fieldOf bs 12 4)
           exr := if 2 ^ 31 ≤ exr then some (exr % 65536) else none }

/-- The binding table from section 0x0008. -/
def bindsOf (bs : List Byte) : List Binding :=
  (List.range 16).filterMap (fun i =>
    let b := bs.drop (0x20 + 16 * i)
    if fieldOf b 8 4 = 0 then none
    else some { base := BitVec.ofNat 64 (fieldOf b 0 8), len := BitVec.ofNat 32 (fieldOf b 8 4)
                tgt := bindTgtOf (BitVec.ofNat 18 (fieldOf b 12 4)) })

/-- Leaf entries from the collective record. -/
def leavesOf (bs : List Byte) : List Leaf :=
  (List.range 16).filterMap (fun i =>
    let b := bs.drop (16 * i)
    if fieldOf b 0 4 < 2 ^ 31 then none
    else some { rdx := fieldOf b 0 4 % 4096, lr := fieldOf b 4 4, obs := fieldOf b 9 1 % 2, flags := fieldOf b 8 1 % 32 })

/-- The engine of a core from the tile, plane and step sections: the tiles of the slot, and the planes of the plane slot. -/
def Matrix.ofImage (m : Matrix) (acc : BitVec 16) (plane : Bool) (tiles planes : Option (List Byte)) (mr : List Byte) : Matrix :=
  let own := (List.range 16).filter (fun n => acc.getLsbD n)
  let tagW := fieldOf mr 0x14 4
  let m1 := (own.zip (List.range own.length)).foldl (fun (m : Matrix) (e : Nat × Nat) =>
    let b := (tiles.getD []).drop (8192 * e.2)
    m.modTile e.1 (fun _ =>
      { tag := tagOf (tagW / 4 ^ e.1 % 4), tsat := fieldOf mr 0x18 2 / 2 ^ e.1 % 2 == 1
        elts := (List.range 2048).map (fun i => BitVec.ofNat 32 (fieldOf b (4 * i) 4)) })) m
  if !plane then m1
  else
    let p (o od os bit : Nat) : Plane :=
      let b := (planes.getD []).drop o
      { desc := if fieldOf mr od 8 = 0 then none else some (BitVec.ofNat 64 (fieldOf mr od 8))
        sparse := fieldOf mr 0x10 4 / 2 ^ bit % 2 == 1
        data := wrN [] 0 (fitTo 16384 b), md := wrN [] 0 (fitTo 2048 (b.drop 16384)), scale := wrN [] 0 (fitTo 256 (mr.drop os)) }
    { m1 with active := p 0 0 0x40 0, shadow := p 0x4800 8 0x140 1 }

/-- A CTB as a restore leaves it. -/
def State.ctbOf (s : State) (l : Launch) (bs : List Byte) (c : Ctb) : Ctb :=
  let g := c.groups.length
  let sec (n : Nat) : List Byte := (sectAt bs n).getD []
  let ctl (i : Nat) : List Byte := ((sec 1).drop (2304 * i)).take 2304
  let st := sec 9
  let xs := st.drop (4 * g + 576)
  let n := (s.gathersLeft l.id c.lin).length
  let gs1 := (c.groups.zip (List.range g)).map (fun (e : Group × Nat) => e.1.ofRecord (ctl e.2) (s.recordStack l (ctl e.2)).1)
  let gs2 := parseAllRegs gs1 (sec 2)
  let size := l.record.lanes * l.record.lsbytes
  let gs3 := (gs2.zip (List.range g)).map (fun (e : Group × Nat) =>
    { e.1.ofLanes l.record.lanes l.record.lsbytes ((sec 3).drop (size * e.2)) with
      iflags := BitVec.ofNat 32 (fieldOf st (4 * e.2) 1), xflags := BitVec.ofNat 32 (fieldOf xs (4 * e.2) 1 % 4) })
  let b8 := sec 8
  { c with
    groups := gs3
    reserve := l.record.reserve - (gs3.map (fun x => x.granted)).sum
    edited := fieldOf bs 0x12 1 % 2 == 1
    sounds := c.sounds.map (fun x => x.ofImage (sec 7))
    bar := { c.bar.ofImage b8 with
      phase := BitVec.ofNat 32 (fieldOf bs 0x14 4)
      arrph := (c.bar.arrph.zip (List.range c.bar.arrph.length)).map (fun (e : Option Word × Nat) => e.1.map (fun _ =>
        if e.2 < g then BitVec.ofNat 32 (fieldOf b8 (0x128 + 16 * e.2) 4) else 0)) }
    binds := bindsOf b8
    leaves := leavesOf (xs.drop (4 * g + 64 * n)) }

/-- The registers of a reach group from the control record of a CTB of the reach; a held wait's idle frames from its wait
record. -/
def State.rgOf (s : State) (l : Launch) (bs : List Byte) (g : Nat) (rg : RGroup) : RGroup :=
  let b := ((sectAt bs 1).getD []).drop (2304 * g)
  let w := ((sectAt bs 8).getD []).drop (0x120 + 16 * g)
  let pc : DWord := BitVec.ofNat 64 (fieldOf b 0 8)
  { rg with
    pc := pc
    npc := if pc = rg.pc then rg.npc else pc
    k := (List.range 64).map (fun i => BitVec.ofNat 64 (fieldOf b (0x200 + 8 * i) 8))
    hstack := (s.recordStack l b).2
    wait := rg.wait.map (fun x => { x with idle := fieldOf w 4 4 }) }

/-- The `mtile` of a matrix record (08 R275). -/
def MtStep.ofImage (m : MtStep) (mr : List Byte) : MtStep :=
  let w := fieldOf mr 0x24 4
  { m with
    grp := w % 256
    sd := BitVec.ofNat 4 (w / 256)
    form := mmFormOf (w / 4096 % 64)
    sat := w / 262144 % 2 == 1
    slot := BitVec.ofNat 3 (w / 2097152)
    mask := BitVec.ofNat 32 (fieldOf mr 0x28 4)
    base := sharedBase + BitVec.ofNat 64 (fieldOf mr 0x30 8)
    desc := ((opc 2 0x73 0).withHi (BitVec.ofNat 64 (fieldOf mr 0x38 8))).mt }

/-- An item runs a pass. -/
def ItemOp.isPass : ItemOp → Bool
  | .pass _ => true
  | _ => false

/-- The steps that a restored CTB has left to run (08 R275, R276), as its image records them: from the next step on, with the
stream restored to the first pass among them. What else belongs to an item is that of the items parked. -/
def Launch.stepsLeft (l : Launch) (c : Ctb) (mr : List Byte) (items : List Item) : List Item :=
  let next := fieldOf mr 0x20 4
  if next = 0xFFFFFFFF then items.filter (fun i => i.step.isNone)
  else
    match c.mtile, items.findSome? (fun i => match i.op with
      | .pass ps => ps.head?
      | _ => none) with
    | some old, some p =>
      let m := old.ofImage mr
      let fmt (n : BitVec 3) : DWord := l.record.fmt.getD n.toNat 0
      let tmpl : Part := { p with grp := m.grp, form := m.form, sat := m.sat, aslot := fmt m.slot }
      let st := ((c.group? m.grp).map (fun g => g.stream m.sd)).getD Stream.unset
      let ops (shape : Nat → Stream) : List ItemOp := m.ops c.base (fmt m.desc.psl) tmpl shape
      let done := (((ops (fun _ => st)).take next).filter ItemOp.isPass).length
      let shapes := shapesFrom st m.blocks
      let all := ops (fun n => shapes.getD (n - done) st)
      (all.zip (List.range all.length)).filterMap (fun e =>
        if e.2 < next then none
        else ((items.find? (fun i => i.step == some e.2)).or items.head?).map (fun i =>
          { i with op := e.1, step := some e.2, last := e.2 + 1 == all.length }))
    | _, _ => items

end Sys2Proof.Machine
end

