-- ==== Sys2Proof/Machine/Scheduler.lean ====
section
/-! DEFINITION. The scheduler (03 R97, R102, R105 to R109): new reaches, the grant of rows, and the quantum boundary. The
switch itself stands in Save.lean. -/
namespace Sys2Proof.Machine

/-! ### A reach at its start (03 R96, R97; 02 Table 2.6) -/

/-- The lanes present in each group. -/
def Record.present (r : Record) : Word := BitVec.ofNat 32 (2 ^ r.lanes - 1)

/-- The uniform registers of a group at its start (03 Table 3.4). -/
def Launch.startK (l : Launch) (j g : Nat) : List DWord :=
  [l.record.args, BitVec.ofNat 64 g, BitVec.ofNat 64 j, BitVec.ofNat 64 (l.record.genOf j), BitVec.ofNat 64 (l.record.rowOf j),
   BitVec.ofNat 64 (l.record.slotOf j), l.recAddr] ++ List.replicate 57 0

/-- A declared sound at its start (12 R346). -/
def SoundDecl.start (d : SoundDecl) : Sound where
  n := d.n
  roff := d.roff
  depth := d.depth
  head := 0
  count := 0
  allow := d.allow
  sampled := BitVec.ofNat 32 (2 ^ 24 * (d.allow % 256))
  pops := 0

/-- A CTB at its start: block `b`, stage `st`. Its groups have acquired what the launch released (03 R103). -/
def Launch.startCtb (l : Launch) (slot b st : Nat) : Ctb where
  x := b % l.record.gridx
  y := b / l.record.gridx % l.record.gridy
  z := b / (l.record.gridx * l.record.gridy)
  blk := b
  stage := st
  lin := l.record.stageCount * b + st
  base := l.record.allocBase slot
  groups := List.replicate l.record.groups
    { Group.start l.record.present with seen := l.release.foldl (fun v x => addSeen x.view v) [] }
  reserve := l.record.reserve
  bar := Barrier.start
  barRel := []
  sounds := l.snds.map SoundDecl.start
  sndRel := []
  binds := []
  leaves := []
  edited := false
  ended := none
  mtile := none
  endTide := 0
  stopGrp := 0
  stop := none
  hdr := []
  before := none

/-- Reach `j` of a launch, before it becomes resident. -/
def Launch.startReach (l : Launch) (j : Nat) : Reach where
  row := l.record.rowOf j
  slot := l.record.slotOf j
  launch := l.id
  j := j
  gen := l.record.genOf j
  rgs := (List.range l.record.groups).map (fun g => RGroup.start l.record.entry (l.startK j g) j g)
  ctbs := (l.record.ctbsOf j).map (fun c => (c.1, l.startCtb (l.record.slotOf j) c.2.1 c.2.2))
  frames := 0
  run := 0
  visits := 0
  hold := none
  stalled := false
  counted := true
  tallied := true
  moving := false
  moved := false
  resident := false
  started := false
  saved := false
  entering := true
  leaving := false
  asked := 0

/-! ### Positions (03 R105 step 3) -/

/-- The unfinished reaches of a position, ascending. -/
def Launch.unfinishedAt (l : Launch) (row slot : Nat) : List Nat :=
  (List.range l.record.numReaches).filter (fun j =>
    l.record.rowOf j == row && l.record.slotOf j == slot && !l.finished.contains j)

/-- A launch has an unfinished reach on a row. -/
def Launch.unfinishedOn (l : Launch) (row : Nat) : Bool :=
  (List.range l.record.numReaches).any (fun j => l.record.rowOf j == row && !l.finished.contains j)

/-- The reach that a position takes next: the next generation in cyclic ascending order after the last resident one. -/
def State.nextReach (s : State) (l : Launch) (row slot : Nat) : Option Nat :=
  let js := l.unfinishedAt row slot
  let last := (s.reaches.filter (fun r => r.launch == l.id && r.row == row && r.slot == slot)).getLast?
  match last with
  | none => js.head?
  | some r => match js.find? (fun j => decide (r.j < j)) with
    | some j => some j
    | none => js.head?

/-- A position takes its next reach: a saved one, or a new one. -/
def State.enterNext (s : State) (l : Launch) (row slot : Nat) : State :=
  match s.nextReach l row slot with
  | none => s
  | some j =>
    let of (r : Reach) : Bool := r.launch == l.id && r.j == j
    let r := (s.reaches.find? of).getD (l.startReach j)
    let s1 := { s with reaches := s.reaches.filter (fun r => !of r) ++ [{ r with entering := true }] }
    s1.later s1.time 1 (.ctbRestore row slot)

/-! ### Rows (03 R102, R105) -/

/-- Where the rotation frames of a row that is granted now are counted from, and how many of its own precede its first: a row
of a time-sliced pair whose partner is held alternates with it on the frames of the shared row (01 R14). Launches of different
run lengths count those frames by their own (notes/assumptions/31: DESIGN CHOICE). -/
def State.rowStart (s : State) (l : Launch) (row : Nat) : Nat × Nat :=
  match (s.pairOf row).find? (fun n => (s.rowOf n).holder.isSome) with
  | none => (frameCeil s.time, 0)
  | some n =>
    let t0 := (s.rowOf n).t0
    let fb := frameBeats l.record.runExp
    let before := 7936 * ((frameCeil s.time - t0) / 8192) - (if (s.regs.proj.getD row 0).getLsbD 10 then fb else 0)
    (t0, (before + 2 * fb - 1) / (2 * fb))

/-- Grant a row to a launch: its rotation begins, and each position takes a reach. -/
def State.grantRow (s : State) (l : Launch) (row : Nat) : State :=
  let x := s.rowStart l row
  let s1 := { s with rows := s.rows.set row { holder := some l.id, t0 := x.1, wanted := none, skip := x.2 } }
  (List.range 16).foldl (fun (s : State) slot => s.enterNext l row slot) s1

/-- A launch may be granted a row at a boundary (03 R105 step 1). -/
def State.eligible (s : State) (row : Nat) (start : Bool) : List Launch :=
  s.launches.filter (fun l => l.state == .running && l.record.rowmask.getLsbD row && l.unfinishedOn row &&
    (!start || l.starting))

/-- The least of several launches by identity. -/
def leastIdent : List Launch → Option Launch
  | [] => none
  | l :: ls => match leastIdent ls with
    | none => some l
    | some x => if l.ident ≤ x.ident then some l else some x

/-- Steps 1 and 2 of 03 R105: the highest PRIO, and round-robin by identity after the holder. Where no launch holds the row
now, the round starts after the last one that held it (notes/assumptions/31: DESIGN CHOICE). -/
def State.chosen (s : State) (row : Nat) (ls : List Launch) : Option Launch :=
  let top := (ls.map (fun l => l.record.prio)).foldl max 0
  let best := ls.filter (fun l => l.record.prio == top)
  let holder := ((s.rowOf row).holder).bind s.launch?
  match holder.bind (fun h => leastIdent (best.filter (fun l => decide (h.ident < l.ident)))) with
  | some l => some l
  | none => leastIdent best

/-- The launch that holds an unfinished reach on a row. -/
def State.holderOf (s : State) (row : Nat) : Option Launch :=
  ((s.rowOf row).holder).bind (fun id =>
    (s.launch? id).bind (fun l => if (l.state == .running || l.state == .draining) && l.unfinishedOn row then some l else none))

/-- Grant a row to the launch that a boundary chose. The rows of a south-passing wave on which it has an unfinished reach are
granted only all together (04 R147 rule 1), at its start tide too (notes/assumptions/31: DESIGN CHOICE). -/
def State.grantTo (s : State) (l : Launch) (row : Nat) (start : Bool) : State :=
  if l.south then
    let rows := l.record.rows.filter l.unfinishedOn
    (if rows.all (fun n => (s.holderOf n).isNone && (s.chosen n (s.eligible n start)).map (fun x => x.id) == some l.id) then
      rows.foldl (fun (s : State) n => s.grantRow l n) s
    else s)
  else s.grantRow l row

/-- A reach can be switched out: it is not held, and it holds no staged contribution (03 Table 3.10, 10 R304). -/
def State.switchable (s : State) (r : Reach) : Bool :=
  r.hold.isNone && !s.staged.any (fun e => e.elts != [] && e.launch == r.launch && r.ctbs.any (fun c => c.2.lin == e.lin))

/-- The switch of a resident reach begins (03 R111). -/
def State.beginSwitch (s : State) (r : Reach) : State :=
  (s.modReach r.row r.slot (fun r => { r with leaving := true, asked := s.time, boundary := s.time })).later s.time 1 (.ctbSave r.row r.slot)

/-- The resident reaches of a launch on a row. -/
def State.residents (s : State) (l : Launch) (row : Nat) : List Reach :=
  s.reaches.filter (fun r => r.launch == l.id && r.row == row && r.resident)

/-- Step 3 of 03 R105 for one position. -/
def State.rotate (s : State) (l : Launch) (row slot : Nat) : State :=
  if s.reaches.any (fun r => r.row == row && r.slot == slot && r.entering) then s
  else
    match s.reach? row slot with
    | none => s.enterNext l row slot
    | some r =>
      if r.leaving || !s.switchable r || s.nextReach l row slot == some r.j then s else s.beginSwitch r

/-- A boundary for one row: a free row is granted; a held one changes holder, or its positions rotate. `real` tells a
quantum boundary from an effective start tide, at which only the launches that start are granted free rows (03 R102). While a
reach of the row still enters (its restore or preloads run), the holder does not change and its position does not rotate
(notes/assumptions/31: DESIGN CHOICE). -/
def State.boundaryRow (s : State) (real : Bool) (row : Nat) : State :=
  match s.holderOf row with
  | none =>
    match s.chosen row (s.eligible row (!real)) with
    | some l => s.grantTo l row (!real)
    | none => s
  | some h =>
    if !real then s
    else
      let rs := s.residents h row
      let other := match s.chosen row (s.eligible row false) with
        | some l => if l.id == h.id then none else some l
        | none => none
      match other with
      | some l =>
        let busy := s.reaches.any (fun r => r.row == row && r.entering)
        if s.regs.schedcfg.getLsbD 4 && h.record.save != 0 && !busy && rs.all s.switchable then
          let s1 := { s with rows := s.rows.modify row (fun (x : Row) => { x with wanted := some l.id }) }
          if rs = [] then s1.grantTo l row false else rs.foldl State.beginSwitch s1
        else (List.range 16).foldl (fun (s : State) slot => s.rotate h row slot) s
      | none => (List.range 16).foldl (fun (s : State) slot => s.rotate h row slot) s

/-- A task that settles first at a boundary: the starts of launches due now, and another boundary of the same tide. -/
def Task.beforeBoundary : Task → Bool
  | .op (.launchStart _) => true
  | .op (.preparationPromiseMet _) => true
  | _ => false

/-- Some launch is not done. -/
def State.anyLaunch (s : State) : Bool := s.launches.any (fun l => l.state != .done)

/-- The next quantum boundary is due while a launch is not done. -/
def State.keepBoundaries (s : State) : State :=
  if s.anyLaunch && !s.agenda.any (fun e => e.task.isQuantum && decide (s.time < e.tide)) then
    s.later s.nextQuantum 1 .quantumBoundary
  else s

/-- A reach whose row is not granted to its launch at the start keeps none of the preloads of preparation (03 R99). -/
def State.discardPreloads (s : State) : State :=
  let gone := s.launches.filter (fun l => l.starting)
  let keeps (l : Launch) (lin : Nat) : Bool :=
    s.reaches.any (fun r => r.launch == l.id && r.ctbs.any (fun c => c.2.lin == lin))
  { s with xfers := s.xfers.filter (fun x => match x.kind with
      | .preload id lin _ => !gone.any (fun l => l.id == id && !keeps l lin)
      | _ => true) }

/-- QUANTUM_BOUNDARY (03 R102, R105). -/
def execQuantumBoundary (s : State) : Out1 :=
  let now (e : Event) : Bool := decide (e.tide ≤ s.time)
  if s.agenda.any (fun e => now e && e.task.isQuantum) then .next s
  else if s.agenda.any (fun e => now e && e.task.beforeBoundary) then .next (s.later s.time 1 .quantumBoundary)
  else
    let real := s.time % s.quantum == 0
    let s1 := (List.range 16).foldl (fun (s : State) row => s.boundaryRow real row) s
    let s2 := s1.discardPreloads
    .next ({ s2 with launches := s2.launches.map (fun (l : Launch) => { l with starting := false }) } : State).keepBoundaries

/-! ### After a reach has left (03 R111) -/

/-- A position is free after a save: a row whose reaches are all saved goes to the launch that the boundary chose; else
the position takes its next reach. -/
def State.afterLeave (s : State) (l : Launch) (row slot : Nat) : State :=
  let x := s.rowOf row
  match x.wanted with
  | some id =>
    if (s.residents l row) != [] then s
    else
      match s.launch? id with
      | some w =>
        let s1 := { s with rows := s.rows.modify row (fun (x : Row) => { x with holder := none, wanted := none }) }
        s1.grantTo w row false
      | none => s.enterNext l row slot
  | none => s.enterNext l row slot

end Sys2Proof.Machine
end

