-- ==== Sys2Proof/Machine/Save.lean ====
section
/-! DEFINITION. The switch of a reach (03 R111 to R113, 08 R276, 10 R318, 12 R340, 15 R417, R460), and the dump of a CTB
that ended abnormally (15 R403 to R405). -/
namespace Sys2Proof.Machine

/-! ### Requests for a slot of the save area -/

/-- The pieces of a range of a slot, by granule, in pages that grant the permission (07 R227); `bs` are the bytes that a save
writes. -/
def Launch.slotPieces (l : Launch) (write : Bool) (va n : Nat) (bs : List Byte) : List Piece :=
  (rowSegs 0 va 0 0 n).filterMap (fun g =>
    if (if write then l.mayWrite g.va else l.canR g.va) then
      (l.phys g.va).map (fun pa =>
        ({ row := 0, comb := false, dram := pa, core := 0, scr := g.scr, len := g.len, old := (bs.drop g.scr).take g.len } : Piece))
    else none)

/-- The request of a granule: one granule of each 256 bytes over each MiB goes into one request
(notes/assumptions/18). -/
def Piece.turn (p : Piece) : Nat := 4 * (p.scr / 1048576) + p.dram / 64 % 4

/-- Request the transfers of a range. -/
def State.requestTurns (s : State) (kind : XKind) (batch q slot launch lin n : Nat) (ps : List Piece) : State :=
  (List.range (4 * (n / 1048576 + 1))).foldl (fun (s : State) k =>
    let mine := ps.filter (fun p => p.turn == k)
    if mine = [] then s else s.request { s.ownXfer kind q slot launch lin with batch := batch } mine) s

/-- The saving transfers of a CTB. -/
def State.saving (s : State) (launch lin : Nat) (batch : Nat) : Bool :=
  s.xfers.any (fun x => x.kind == .save && x.launch == launch && x.lin == lin && x.batch == batch) ||
    s.requests.any (fun r => r.x.kind == .save && r.x.launch == launch && r.x.lin == lin && r.x.batch == batch)

/-- Some of them have not landed. -/
def State.saveBusy (s : State) (launch lin : Nat) : Bool :=
  s.xfers.any (fun x => x.kind == .save && x.launch == launch && x.lin == lin && !x.landed) ||
    s.requests.any (fun r => r.x.kind == .save && r.x.launch == launch && r.x.lin == lin)

/-- The planned tide of the quantum boundary at which a reach was asked to leave (03 Table 3.11): that of the beat of its
planned clock that the boundary falls on. -/
def State.boundaryTide (s : State) (r : Reach) (l : Launch) : Nat := s.plannedOf r l r.boundary

/-- Write the sections of a CTB into its slot and its mirror, as far as they can be read, and keep their headers. -/
def State.captureCtb (s : State) (r : Reach) (l : Launch) (col : Nat) (c : Ctb) (dump : Bool) : State :=
  let ss := placeSects (s.sections r l col c dump) 256
  let trunc := ss.any (fun e => !e.2.whole)
  let t := ((c.group? c.stopGrp).map (fun g => g.trap)).getD { cause := 0, pc := 0, addr := 0, lane := 0, res := 0 }
  let body := headerBody c l.ident (if dump then (c.stop.map (fun x => x.tide)).getD c.endTide else s.boundaryTide r l) (faultWord dump trunc (c.ended == some .killed) c.stopGrp t)
    (if dump then t.addr else 0) ss
  let s1 := s.modCtb r.row r.slot col (fun c =>
    { c with hdr := s.headerOf l r.row 0 c.lin body ss ++ s.headerOf l r.row 1 c.lin body ss })
  [0, 1].foldl (fun (s : State) copy =>
    let ps := ss.flatMap (fun e => (l.slotPieces true (l.record.slotAt copy c.lin + e.1) e.2.good e.2.bytes).map (fun p =>
      { p with scr := e.1 + p.scr }))
    s.requestTurns .save 0 (coreIx r.row col) r.slot l.id c.lin l.record.slotSize ps) s1

/-- Write the headers of a CTB. -/
def State.headCtb (s : State) (r : Reach) (l : Launch) (col : Nat) (c : Ctb) : State :=
  let s1 := s.modCtb r.row r.slot col (fun c => { c with hdr := [] })
  [0, 1].foldl (fun (s : State) copy =>
    s.requestTurns .save 1 (coreIx r.row col) r.slot l.id c.lin 256
      (l.slotPieces true (l.record.slotAt copy c.lin) 256 (c.hdr.drop (256 * copy)))) s1

/-! ### What comes to an end before the save (03 R111 steps 1 to 4, Table 3.9) -/

/-- The last task of a run in progress, if one is left. -/
def State.runLeft (s : State) (row slot : Nat) : Option Nat :=
  let ts := (s.agenda.filter (fun e => match e.task with
    | .visit r x j => r == row && x == slot && j != 0
    | .op (.readinessSample r x) => r == row && x == slot
    | .op (.trapEntry r x) => r == row && x == slot
    | .op (.stepCountReached r x _) => r == row && x == slot
    | _ => false)).map (fun e => e.tide)
  if ts = [] then none else some (ts.foldl max 0)

/-- The gathers and scatters of a reach stop at the end of their batch (10 R318). -/
def State.stopGathers (s : State) (r : Reach) : State :=
  let ids := (r.ctbs.flatMap (fun c => s.gathersLeft r.launch c.2.lin)).map (fun x => x.id)
  { s with agenda := s.agenda.filter (fun e => match e.task with
      | .op (.gatherBatch x) => !ids.contains x
      | _ => true) }

/-- A transfer of the reach has not landed; a gather counts while a batch is in flight. -/
def State.copiesLeft (s : State) (r : Reach) (l : Launch) : Bool :=
  r.ctbs.any (fun c =>
    (c.2.ended.isSome && l.wbLeft.contains c.2.lin) ||
    s.xfers.any (fun x => x.launch == l.id && x.lin == c.2.lin && !x.landed && x.kind != .save &&
      (x.kind.path != 2 || x.grans.any (fun g => !g.done))) ||
    s.requests.any (fun q => q.x.launch == l.id && q.x.lin == c.2.lin && q.x.kind != .save))

/-- How many items of a queue complete before a save that was asked for at a tide: all, or those before the first step of an
`mtile` that had not started (08 R276). -/
def itemsBefore (asked : Nat) (is : List Item) : Nat := (stopsAt asked is).getD is.length

/-- When the items of a reach that complete before its save are done (03 Table 3.9). -/
def State.itemsEnd (s : State) (r : Reach) : Nat :=
  (r.ctbs.flatMap (fun c =>
    let is := ((s.core (coreIx r.row c.1)).mx.queue r.slot).items
    (is.take (itemsBefore r.asked is)).map (fun i => if i.sched then i.doneAt else 0))).foldl max 0

/-- A queue parked by a save that a schedule fault cut off stands in its slot again. -/
def Matrix.unpark (m : Matrix) (slot launch lin : Nat) : Matrix :=
  match m.parkedQueue launch lin with
  | some x => { m.setQueue slot x with parked := m.parked.filter (fun e => !(e.1 == launch && e.2.1 == lin)) }
  | none => m

/-- The queue of a CTB's slot comes to its stop and is kept, with what is left of it and where its timeline stands. -/
def State.quiesceItems (s : State) (row slot col launch lin asked : Nat) : State :=
  let q := coreIx row col
  let s1 := s.runItems row slot col (itemsBefore asked ((s.core q).mx.queue slot).items)
  s1.modMx q (fun m =>
    { m with queues := dropAt m.queues slot
             parked := m.parked.filter (fun e => !(e.1 == launch && e.2.1 == lin)) ++ [(launch, lin, m.queue slot)] })

/-- The live CTBs of a reach. -/
def Reach.liveCtbs (r : Reach) : List (Nat × Ctb) := r.ctbs.filter (fun c => c.2.ended.isNone)

/-- The reads of an allocation for a save or a dump: what they correct counts, and what they cannot is met (07 R217, R219). -/
def State.scanAlloc (s : State) (q a n : Nat) : State :=
  let c := s.core q
  (s.countCorr q (if c.errs = [] then [] else (rowParts a n).flatMap (fun p => c.corrections p.1 p.2))).bankLoss q a n

/-- Quiesce and capture a reach; register writes and results in flight land first (02 R69, 03 R111 step 3). -/
def State.captureReach (s : State) (r : Reach) (l : Launch) : State :=
  let s1 := r.liveCtbs.foldl (fun (s : State) c =>
    (s.quiesceItems r.row r.slot c.1 l.id c.2.lin r.asked).modCtb r.row r.slot c.1 (fun b =>
      { b with groups := b.groups.map (fun g => (g.landAll r.run 0).dropLatches) })) (s.performReach r.row r.slot none)
  match s1.reach? r.row r.slot with
  | none => s1
  | some r1 => (r1.liveCtbs.foldl (fun (s : State) c =>
      (s.captureCtb r1 l c.1 c.2 false).scanAlloc (coreIx r.row c.1) c.2.base l.record.scrbytes) s1).later s1.time 1 (.ctbSave r.row r.slot)

/-- The switch is abandoned for this boundary (03 Table 3.10); the matrix sequencer goes on. -/
def State.abandonSwitch (s : State) (row slot : Nat) : State :=
  let s1 := ({ s with rows := s.rows.modify row (fun (x : Row) => { x with wanted := none }) }).modReach row slot (fun r =>
    { r with leaving := false })
  (List.range 16).foldl (fun (s : State) col =>
    if ((s.core (coreIx row col)).mx.queue slot).items = [] then s
    else s.later s.time 0 (.engineItemDone (coreIx row col) slot)) s1

/-- A schedule fault meets a switch in progress: what its save has begun is dropped, and after the resumption it restarts at
step 1 (03 Table 3.10). The dump of a CTB that has ended goes on. -/
def State.restartSwitch (s : State) (r : Reach) : State :=
  let lins := r.liveCtbs.map (fun c => c.2.lin)
  let of (x : Xfer) : Bool := x.kind == .save && x.launch == r.launch && lins.contains x.lin
  let s1 := { s with xfers := s.xfers.filter (fun x => !of x), requests := s.requests.filter (fun q => !of q.x) }
  let s2 := s1.modReach r.row r.slot (fun r => { r with ctbs := r.ctbs.map (fun c =>
    (c.1, if c.2.ended.isSome then c.2 else { c.2 with hdr := [] })) })
  r.liveCtbs.foldl (fun (s : State) c => s.modMx (coreIx r.row c.1) (fun m => m.unpark r.slot r.launch c.2.lin)) s2

/-- The switches that a schedule fault cut off are asked for again. -/
def State.askAgain (s : State) : State :=
  (s.reaches.filter (fun r => r.resident && r.leaving)).foldl (fun (s : State) r =>
    (s.modReach r.row r.slot (fun r => { r with asked := s.time })).later s.time 1 (.ctbSave r.row r.slot)) s

/-- The bytes of an allocation no longer wait for an acquire. -/
def Core.settleFresh (c : Core) (a n : Nat) : Core :=
  { c with fresh := c.fresh.filter (fun f => decide (f.addr < a) || decide (a + n ≤ f.addr)) }

/-- The writes of an allocation since the earliest position that a group of its CTB has marked (07 R234). -/
def Core.keptOf (c : Core) (b : Ctb) (n : Nat) : List Fresh :=
  let ms := b.groups.flatMap (fun g => g.marks.map (fun m => m.2))
  match ms with
  | [] => []
  | m :: l =>
    (c.fresh.filter (fun f => decide (b.base ≤ f.addr) && decide (f.addr < b.base + n) && decide (l.foldl min m ≤ f.stamp))).map
      (fun f => { f with addr := f.addr - b.base })

/-- A saved reach leaves its position. -/
def State.park (s : State) (r : Reach) (l : Launch) : State :=
  let lins := r.ctbs.map (fun c => c.2.lin)
  let s1 := { s with
    xfers := s.xfers.filter (fun x => !(x.kind == .save && x.launch == l.id && lins.contains x.lin))
    reaches := s.reaches.filter (fun x => !(x.launch == r.launch && x.j == r.j)) ++
      [{ r with
          resident := false, saved := true, leaving := false
          ctbs := r.ctbs.map (fun c => (c.1, { c.2 with kept := (s.core (coreIx r.row c.1)).keptOf c.2 l.record.scrbytes })) }] }
  let s2 := r.ctbs.foldl (fun (s : State) c => s.modCore (coreIx r.row c.1) (fun k => k.settleFresh c.2.base l.record.scrbytes)) s1
  s2.afterLeave l r.row r.slot

/-- CTB_SAVE (03 R111): the run in progress ends, engines stop and copies land, then the sections are written, then the
headers; then the reach leaves. -/
def execCtbSave (row slot : Nat) (s : State) : Out1 :=
  match s.reach? row slot with
  | none => .next s
  | some r =>
    match s.launch? r.launch with
    | none => .next s
    | some l =>
      if !r.leaving then .next s
      else if r.liveCtbs.any (fun c => c.2.hdr != []) then
        (if r.liveCtbs.any (fun c => s.saveBusy l.id c.2.lin) then .next s
         else .next ((r.liveCtbs.foldl (fun (s : State) c => s.headCtb r l c.1 c.2) s).later s.time 1 (.ctbSave row slot)))
      else if r.liveCtbs.any (fun c => s.saving l.id c.2.lin 0) then
        (if r.liveCtbs.any (fun c => s.saveBusy l.id c.2.lin) then .next s else .next (s.park r l))
      else
        match s.runLeft row slot with
        | some t => .next (s.schedule (max t s.time) 3 (.op (.ctbSave row slot)))
        | none =>
          if r.hold.isSome then .next (s.abandonSwitch row slot)
          else
            let s1 := (s.purge row slot).stopGathers r
            if s1.copiesLeft r l || r.liveCtbs = [] then .next (s1.later (frameCeil (s1.time + 1)) 1 (.ctbSave row slot))
            else if s1.time < s1.itemsEnd r then .next (s1.later (s1.itemsEnd r) 1 (.ctbSave row slot))
            else .next (s1.captureReach r l)

/-! ### Reading a slot back (03 R111 step 5, R112; 15 R411, R417, R460) -/

/-- A copy of a slot as a restore finds it. -/
inductive CopyRead where
  | absent
  | pending
  | bad
  | good (bs : List Byte)
  deriving DecidableEq, Repr

/-- The bytes that the transfers of a restore have read. -/
def restoredBytes (xs : List Xfer) (n : Nat) : List Byte :=
  rdN (xs.foldl (fun m x => x.grans.foldl (fun m g => g.pieces.foldl (fun m p =>
    wrN m p.scr ((g.data.drop (p.dram % 64)).take p.len)) m) m) []) 0 n

/-- Copy `k` of a CTB's slot. -/
def State.copyRead (s : State) (l : Launch) (lin k : Nat) : CopyRead :=
  let xs := s.xfers.filter (fun x => x.kind == .restore && x.launch == l.id && x.lin == lin && x.batch == k)
  let waits := s.requests.any (fun r => r.x.kind == .restore && r.x.launch == l.id && r.x.lin == lin && r.x.batch == k)
  let z := l.record.slotSize
  if xs = [] ∧ waits = false then .absent
  else if waits || xs.any (fun x => !x.landed) then .pending
  else
    let bs := restoredBytes xs z
    if xs.any (fun x => x.lost) || (rowSegs 0 (l.record.slotAt k lin) 0 0 z).any (fun g => !l.canR g.va) ||
        !imageOk bs then .bad
    else .good bs

/-- What a restore finds for a CTB. -/
inductive Verdict where
  | wait
  | ask (copy : Nat)
  | ended (st : CtbEnd)
  | image (bs : List Byte)
  deriving DecidableEq, Repr

/-- Judge a copy that passed its test: a truncated save restores nothing, and an edited one needs its right. -/
def State.judgeImage (s : State) (l : Launch) (bs : List Byte) : Verdict :=
  if fieldOf bs 0x1C 4 / 2 ^ 30 % 2 = 1 then .ended .restoreLost
  else if fieldOf bs 0x12 1 % 2 = 1 ∧ s.debugRight l = false then .ended .debugRevoked
  else .image bs

def State.verdict (s : State) (l : Launch) (c : Ctb) : Verdict :=
  match s.copyRead l c.lin 0 with
  | .absent => .ask 0
  | .pending => .wait
  | .good bs => s.judgeImage l bs
  | .bad =>
    match s.copyRead l c.lin 1 with
    | .absent => .ask 1
    | .pending => .wait
    | .good bs => s.judgeImage l bs
    | .bad => .ended .restoreLost

/-- Request a copy of a slot; a slot that nothing maps is found at once. -/
def State.askCopy (s : State) (r : Reach) (l : Launch) (col : Nat) (c : Ctb) (k : Nat) : State :=
  let z := l.record.slotSize
  let ps := l.slotPieces false (l.record.slotAt k c.lin) z []
  if ps = [] then
    { s with nextId := s.nextId + 1
             xfers := s.xfers ++ [{ s.ownXfer .restore (coreIx r.row col) r.slot l.id c.lin with batch := k, landed := true, lost := true }]
      }.later s.time 1 (.ctbRestore r.row r.slot)
  else s.requestTurns .restore k (coreIx r.row col) r.slot l.id c.lin z ps

/-! ### The incoming reach -/

/-- The rows of an allocation that a fill leaves as they are (10 R457): they hold an uncorrectable column, and a transfer
writes them only in part. -/
def Core.keptRows (c : Core) (a n : Nat) (partly : Nat → Bool) : List Nat :=
  if c.errs = [] then [] else ((List.range ((n + 63) / 64)).map (fun k => a / 64 + k)).filter (fun r => c.lostRow (64 * r) && partly r)

/-- Fill an allocation: every row of it is written but those that a fill cannot write; a watched word is sounded (15 R413).
Answers the rows that were kept. -/
def State.fillAlloc (s : State) (q a n : Nat) (bs : List Byte) (partly : Nat → Bool) (t : TraceSrc) : List Nat × State :=
  let c := s.core q
  let kept := c.keptRows a n partly
  let full := wrN (zeroRange c.scratch a n) a (bs.take n)
  let c1 := { c.settleFresh a n with
    scratch := kept.foldl (fun m r => wrN m (64 * r) (rdN c.scratch (64 * r) 64)) full
    errs := c.errs.filter (fun e => decide (2048 * e.row + 64 * e.group < a) || decide (a + n ≤ 2048 * e.row + 64 * e.group) ||
      kept.contains (32 * e.row + e.group)) }
  (kept, (s.setCore q c1).sound q t c c1 a n)

/-- The trace source of what the device itself writes into a CTB's scratch: no instruction issues it (notes/assumptions/23). -/
def Ctb.fillSrc (c : Ctb) : TraceSrc where
  planned := 0
  pc := 0
  x := c.x
  y := c.y
  z := c.z
  stage := c.stage
  grp := 255
  lane := 255
  phase := c.bar.phase
  vector := false

/-- What the preloads of a CTB leave in its allocation, in list order (03 R91). -/
def State.preloaded (s : State) (l : Launch) (c : Ctb) : Memory :=
  (l.pre.zip (List.range l.pre.length)).foldl (fun (m : Memory) (e : ListEntry × Nat) =>
    if e.1.zero then zeroRange m (c.base + e.1.soff) e.1.bytes
    else
      (s.xfers.filter (fun x => x.kind == .preload l.id c.lin e.2)).foldl (fun m x => x.grans.foldl (fun m g =>
        g.pieces.foldl (fun m p => wrN m p.scr ((g.data.drop (p.dram % 64)).take p.len)) m) m) m) []

/-- The writes of a CTB's preload entries in list order, each with its parts by rows of scratch; a ZERO entry has no transfer. -/
def State.preWrites (s : State) (l : Launch) (c : Ctb) : List (Option Xfer × List (Nat × Nat)) :=
  (l.pre.zip (List.range l.pre.length)).flatMap (fun (e : ListEntry × Nat) =>
    if e.1.zero then [(none, rowParts (c.base + e.1.soff) e.1.bytes)]
    else (s.xfers.filter (fun x => x.kind == .preload l.id c.lin e.2)).map (fun x =>
      (some x, x.grans.flatMap (fun g => g.pieces.flatMap (fun p => rowParts p.scr p.len)))))

/-- The entries that a lost row withholds (10 R457): those that write it in part before one writes it whole. -/
def withheldOn (row : Nat) (ws : List (Option Xfer × List (Nat × Nat))) : List (Option Xfer) :=
  ((ws.takeWhile (fun w => !w.2.any (fun p => p.1 / 64 == row && p.2 == 64))).filter (fun w =>
    w.2.any (fun p => p.1 / 64 == row))).map (fun w => w.1)

/-- No entry writes a row whole, and some entry in part. -/
def rowKept (ws : List (Option Xfer × List (Nat × Nat))) (row : Nat) : Bool :=
  ws.all (fun w => !w.2.any (fun p => p.1 / 64 == row && p.2 == 64)) && ws.any (fun w => w.2.any (fun p => p.1 / 64 == row))

/-- A CTB starts on its core; a preload that could not write a row is reported (10 R457). -/
def State.startOn (s : State) (r : Reach) (l : Launch) (col : Nat) (c : Ctb) : State :=
  let q := coreIx r.row col
  let bs := rdN (s.preloaded l c) c.base l.record.scrbytes
  let ws := s.preWrites l c
  let held := ((s.core q).keptRows c.base l.record.scrbytes (fun _ => true)).flatMap (fun row => withheldOn row ws)
  let s1 := (s.fillAlloc q c.base l.record.scrbytes bs (rowKept ws) c.fillSrc).2
  let s2 := (ws.filter (fun w => held.contains w.1)).foldl (fun (s : State) w => match w.1 with
    | some x => s.xferLost x
    | none => s.report (.report 0x457 l.id c.lin)) s1
  s2.modMx q (fun m => m.startSlot r.slot (l.record.accmask.getD r.slot 0) (l.record.planeSlot r.slot))

/-- The first rotation frame of a reach's row that begins now or later. -/
def State.nextFrame (s : State) (r : Reach) (l : Launch) : Nat :=
  let t0 := (s.rowOf r.row).t0
  let d := s.time - t0
  let beats := 7936 * (d / 8192) + min 7936 (d % 8192) - 16 * l.record.rowoff * r.row
  let fb := frameBeats l.record.runExp
  let f := (beats + fb - 1) / fb
  if s.sliced r.row then (f + (if (s.regs.proj.getD r.row 0).getLsbD 10 then 0 else 1)) / 2 - (s.rowOf r.row).skip else f

/-- A resident reach takes up its visits (03 R111 step 5); a held wait is decided first (12 R340). -/
def State.beginVisits (s : State) (r : Reach) (l : Launch) : State :=
  let n := s.nextFrame r l
  let r1 := { r with visits := n, entering := false, saved := false, stalled := false, counted := true }
  let s1 := s.modReach r.row r.slot (fun _ => r1)
  let t := max s1.time (s1.indexTide r1 n 0)
  let s2 := r1.waiting.foldl (fun s g => s.schedule t 2 (.op (.waitDecision r.row r.slot g))) s1
  s2.schedule t 2 (.visit r.row r.slot 0)

/-- A reach stands in its position. -/
def State.makeResident (s : State) (r : Reach) : State :=
  { s with reaches := s.reaches.map (fun (x : Reach) => if x.launch == r.launch && x.j == r.j then { x with resident := true } else x) }

/-- A reach that was never resident: its preloads run, unless preparation ran them; then it starts. -/
def State.enterNew (s : State) (r : Reach) (l : Launch) : State :=
  let lins := r.ctbs.map (fun c => c.2.lin)
  let of (x : Xfer) : Bool := match x.kind with
    | .preload id n _ => id == l.id && lins.contains n
    | _ => false
  let asked := s.xfers.any of || s.requests.any (fun q => of q.x)
  let busy := s.xfers.any (fun x => of x && !x.landed) || s.requests.any (fun q => of q.x)
  if !asked && !r.started && l.pre.any (fun e => !e.zero) then
    let s1 := s.requestPreloads l r.j s.time
    { s1 with reaches := s1.reaches.map (fun (x : Reach) =>
        if x.launch == r.launch && x.j == r.j then { x with started := true } else x) }.later s1.time 1 (.ctbRestore r.row r.slot)
  else if busy then s
  else
    let s1 := (r.ctbs.foldl (fun (s : State) c => s.startOn r l c.1 c.2) s).makeResident r
    match s1.reach? r.row r.slot with
    | some r1 => s1.beginVisits { r1 with started := true } l
    | none => s1

/-- One CTB of a saved reach is restored from its image; the steps that its `mtile` has left run before the first visit (08
R276). Granules are rows of scratch where the section begins at one of them. -/
def State.restoreCtb (s : State) (r : Reach) (l : Launch) (col : Nat) (c : Ctb) (bs : List Byte) : State :=
  let q := coreIx r.row col
  let n := l.record.scrbytes
  let mr := ((sectAt bs 9).getD []).drop (4 * c.groups.length)
  let c1 := s.ctbOf l bs c
  let aligned := ((sectAt bs 4).map (fun b => (bs.length - b.length) % 64 == 0)).getD true
  let s0 := (s.fillAlloc q c.base n ((sectAt bs 4).getD []) (fun _ => !aligned) c1.fillSrc).2
  let s1 := s0.modCore q (fun k => { k with fresh := k.fresh ++ c.kept.map (fun f => { f with addr := c.base + f.addr }) })
  let s2 := s1.modMx q (fun m0 =>
    let m := (m0.unpark r.slot l.id c.lin).ofImage (l.record.accmask.getD r.slot 0) (l.record.planeSlot r.slot) (sectAt bs 5)
      (sectAt bs 6) mr
    m.setQueue r.slot { m.queue r.slot with items := l.stepsLeft c1 mr (m.queue r.slot).items })
  let s3 := s2.modReach r.row r.slot (fun x =>
    { x with rgs := (x.rgs.zip (List.range x.rgs.length)).map (fun (e : RGroup × Nat) => s.rgOf l bs e.2 e.1) })
  (s3.modCtb r.row r.slot col (fun _ => c1)).completeItems r.row r.slot col

/-- The gathers and scatters that a save recorded go on (10 R318). -/
def State.resumeGathers (s : State) (r : Reach) (l : Launch) : State :=
  (r.ctbs.flatMap (fun c => s.gathersLeft l.id c.2.lin)).foldl (fun (s : State) x => s.later s.time 0 (.gatherBatch x.id)) s

/-- A saved reach: each copy it needs is read, then every CTB is restored or ends. -/
def State.enterSaved (s : State) (r : Reach) (l : Launch) : State :=
  let vs := r.liveCtbs.map (fun c => (c, s.verdict l c.2))
  let asks := vs.filterMap (fun e => match e.2 with
    | .ask k => some (e.1, k)
    | _ => none)
  if asks != [] then asks.foldl (fun (s : State) e => s.askCopy r l e.1.1 e.1.2 e.2) s
  else if vs.any (fun e => e.2 == .wait) then s
  else
    let s1 := s.makeResident r
    let s2 : State := vs.foldl (fun (s : State) (e : (Nat × Ctb) × Verdict) => match e.2 with
      | .image bs => s.restoreCtb r l e.1.1 e.1.2 bs
      | .ended st => (s.endAbnormal r.row r.slot e.1.1 st 0 (r.stopTide l e.1.1) 0 false).report
          (.report 0x417 l.id e.1.2.lin)
      | _ => s) s1
    let lins := r.ctbs.map (fun c => c.2.lin)
    let s3 := { s2 with xfers := s2.xfers.filter (fun (x : Xfer) => !(x.kind == XKind.restore && x.launch == l.id && lins.contains x.lin)) }
    State.later (s3.resumeGathers r l) s3.time 1 (.ctbRestore r.row r.slot)

/-- CTB_RESTORE (03 R111 step 5): the incoming reach of a position is restored, or its preloads run; it resumes when its last
read, and the gathers that its save recorded, have landed. -/
def execCtbRestore (row slot : Nat) (s : State) : Out1 :=
  match s.reaches.find? (fun r => r.row == row && r.slot == slot && r.entering) with
  | none => .next s
  | some r =>
    match s.launch? r.launch with
    | none => .next s
    | some l =>
      if r.resident then
        (if r.ctbs.any (fun c => s.gathersLeft l.id c.2.lin != []) then
          .next (s.later (frameCeil (s.time + 1)) 1 (.ctbRestore row slot))
         else .next (s.beginVisits r l))
      else if (s.reach? row slot).isSome then .next s
      else if r.saved then .next (s.enterSaved r l)
      else .next (s.enterNew r l)

/-! ### Dumps (15 R403 to R405) -/

/-- A transfer targets a CTB's scratch: by its pieces, or a gather of the CTB with batches to come; a restore brings in its own
CTB alone. -/
def Xfer.into (x : Xfer) (q lin launch base n : Nat) : Bool :=
  x.launch == launch && x.kind.inbound && (x.kind != .restore || x.lin == lin) &&
    ((x.kind.path == 2 && x.lin == lin && !x.landed) || x.grans.any (fun g => g.pieces.any (fun p => p.core == q &&
      decide (base ≤ p.scr) && decide (p.scr < base + n))))

/-- The latest promise among the copies that target a CTB's scratch (17 R438). -/
def State.dumpStart (s : State) (q lin launch base n : Nat) : Nat :=
  ((s.xfers.filter (fun x => x.into q lin launch base n)).map (fun x => x.promise)).foldl max 0

/-- A copy that targets a CTB's scratch has not landed. -/
def State.copiesInto (s : State) (q lin launch base n : Nat) : Bool :=
  s.xfers.any (fun x => !x.landed && x.into q lin launch base n)

/-- The error that a dump meets first (15 R405), as cause and address: in scratch SCRATCH_LOST at the SHARED address of the
lowest byte of the lost column (17 R439); in another memory of the core no cause of 15 Table 15.1 names it, and both are 0
(notes/assumptions/18). -/
def State.innerFault (s : State) (row slot col : Nat) (l : Launch) (c : Ctb) (typ : Nat) : Nat × Nat :=
  if typ = 4 then
    match (s.core (coreIx row col)).sectLost slot 4 c.base l.record.scrbytes with
    | some i => (cScratchLost, (windowBase .shared).toNat + i)
    | none => (cScratchLost, 0)
  else (0, 0)

/-- A trap record with the DOUBLE of a dump (15 R392, R405): TRAPPC, TRAPLANE and TRAPADDR keep their values. -/
def TrapRec.dumped (t : TrapRec) (inner : Nat) (kill : Bool) : TrapRec :=
  let code := (t.cause.extractLsb' 0 8).toNat
  let orig := if code = cDouble ∨ kill then (t.cause.extractLsb' 8 8).toNat else code
  { t with cause := trapCause (t.cause.getLsbD 25) false inner orig cDouble }

/-- An error met by a dump in a section (15 R405): DOUBLE in the record of the group that stopped; the CTB ends FAULTED, and the
host hears of it with the inner cause and address, and of a second failed bank (15 R392, 17 R439, 07 R219). -/
def State.dumpLost (s : State) (row slot col : Nat) (l : Launch) (c : Ctb) (typ : Nat) : State :=
  let f := s.innerFault row slot col l c typ
  let s1 := s.modGroup row slot col c.stopGrp (fun g => { g with trap := g.trap.dumped f.1 (c.ended == some .killed) })
  let s2 := ((s1.modCtb row slot col (fun c => { c with ended := some .faulted })).modLaunch l.id (fun l =>
    { l with ends := l.ends.map (fun e => if e.1 = c.lin then (e.1, .faulted) else e) })).report (.report 0x405 l.id c.lin)
  (s2.report (.report 0x439 f.1 f.2)).scanAlloc (coreIx row col) c.base l.record.scrbytes

/-- DUMP (15 R403 to R405): the sections, then the header, into both copies. -/
def execDump (row slot col : Nat) (s : State) : Out1 :=
  match s.reach? row slot, s.ctb? row slot col with
  | some r, some c =>
    match s.launch? r.launch with
    | none => .next s
    | some l =>
      let again (s : State) : State := s.later (frameCeil (s.time + 1)) 0 (.dump row slot col)
      if !l.wbLeft.contains c.lin || c.ended.isNone then .next s
      else if c.hdr != [] then
        .next (again (if s.saveBusy l.id c.lin then s else s.headCtb r l col c))
      else if s.saving l.id c.lin 0 then
        (if s.saveBusy l.id c.lin then .next (again s)
         else .next ((s.modLaunch l.id (fun l => { l with wbLeft := l.wbLeft.filter (fun n => n != c.lin) })).later s.time 0
           (.launchComplete l.id)))
      else if s.time < s.dumpStart (coreIx row col) c.lin l.id c.base l.record.scrbytes then
        .next (s.later (s.dumpStart (coreIx row col) c.lin l.id c.base l.record.scrbytes) 0 (.dump row slot col))
      else if s.copiesInto (coreIx row col) c.lin l.id c.base l.record.scrbytes then .next (again s)
      else
        let s1 := s.captureCtb r l col c true
        .next (again (match (s.sections r l col c true).find? (fun e => !e.whole) with
          | some e => s1.dumpLost row slot col l c e.typ
          | none => s1.scanAlloc (coreIx row col) c.base l.record.scrbytes))
  | _, _ => .next s

end Sys2Proof.Machine
end

