-- ==== Sys2Proof/Machine/Pod.lean ====
section
/-! DEFINITION. What travels on the pod links (13 R368 to R376): the link sections of a tide table, flits and their values,
what is kept of a flit to be sent again, and the links at a frame's boundary. -/
namespace Sys2Proof.Machine

/-! ### LNKSTAT (13 Table 13.7) -/

def State.modLnk (s : State) (l : Nat) (f : DWord → DWord) : State :=
  { s with regs := { s.regs with lnkstat := s.regs.lnkstat.modify l f } }

/-- One more in a 16-bit counter of LNKSTAT; a wrap is recorded in CNTWRAP (15 Table 15.12). The field is noted with the
register, for a write of it at the same tide. -/
def State.bumpLnk (s : State) (l lo wrapBit : Nat) : State :=
  let old := (((s.regs.lnkstat.getD l 0).extractLsb' lo 16).toNat + 1)
  let s1 := (s.noteInc lo (0xA0 + l)).modLnk l (fun w => (w &&& ~~~((0xFFFF : DWord) <<< lo)) ||| (BitVec.ofNat 64 (old % 65536) <<< lo))
  if old = 65536 then { s1 with regs := { s1.regs with cntwrap := s1.regs.cntwrap ||| ((1 : DWord) <<< (wrapBit + l)) } } else s1

/-! ### Link sections of a tide table (13 R371) -/

/-- The part of an image for a device, if it has one. -/
def linkPart (image : Memory) (link podid : Nat) : Option Nat :=
  let d := rdVal image (link + 8 * podid) 8
  if d = 0 then none else some (link + d)

/-- The TX and RX words of a slot. -/
def slotTx (image : Memory) (part i l k : Nat) : Word := BitVec.ofNat 32 (rdVal image (part + 128 + 8 * (3527 * (16 * i + l) + k)) 4)
def slotRx (image : Memory) (part i l k : Nat) : Word := BitVec.ofNat 32 (rdVal image (part + 132 + 8 * (3527 * (16 * i + l) + k)) 4)

/-- Fields of a slot word (13 Table 13.3). -/
def lwKind (w : Word) : Nat := (w.extractLsb' 30 2).toNat
def lwNode (w : Word) : Nat := (w.extractLsb' 24 6).toNat
def lwRdx (w : Word) : Nat := (w.extractLsb' 12 12).toNat
def lwChunk (w : Word) : Nat := (w.extractLsb' 0 12).toNat

/-- A slot word breaks 13 Table 13.3. -/
def lwBad (w : Word) : Bool := if lwKind w = 1 then decide (11 < lwNode w) else lwNode w != 0

/-- A reroute entry (13 Table 13.4). -/
def rerouteOf (image : Memory) (part l : Nat) : DWord := BitVec.ofNat 64 (rdVal image (part + 8 * l) 8)

/-- A part is refused: a bad word, a bad entry, or a backup link that is not free. -/
def partBad (image : Memory) (part ntmpl : Nat) : Bool :=
  (List.range 16).any (fun l =>
    let e := rerouteOf image part l
    let b := (e.extractLsb' 0 4).toNat
    let resv := e.extractLsb' 5 3 != 0 || e.extractLsb' 16 48 != 0
    resv || (e.getLsbD 4 && b == l) ||
    (List.range ntmpl).any (fun i => (List.range 3527).any (fun k =>
      let t := slotTx image part i l k
      let r := slotRx image part i l k
      lwBad t || lwBad r || (e.getLsbD 4 && ((lwKind t != 0 && lwKind (slotTx image part i b k) != 0) ||
        (lwKind r != 0 && lwKind (slotRx image part i b k) != 0))))))

/-! ### Words (13 R371, R375) -/

/-- This device's part of the adopted table. -/
def State.part? (s : State) : Option (TideTable × Nat) :=
  s.tt.bind (fun t => (linkPart t.image t.link (s.regs.podid.extractLsb' 0 11).toNat).map (fun p => (t, p)))

/-- The word of a slot of a link in the frame of a tide, with the link that it belongs to: the link itself, or one that it
stands in for (13 R375). -/
def State.wordOf (s : State) (rx : Bool) (l k tide : Nat) : Nat × Word :=
  match s.part? with
  | none => (l, 0)
  | some (t, p) =>
    let w (n : Nat) : Word := if rx then slotRx t.image p (t.template tide) n k else slotTx t.image p (t.template tide) n k
    let sub := (List.range 16).find? (fun n => n != l && (s.regs.lnkstat.getD n 0).getLsbD 6 &&
      ((s.regs.lnkstat.getD n 0).extractLsb' 0 4).toNat == l && lwKind (w n) != 0 &&
      ((s.links[n]?).bind (fun k => k.rerouteAt)).any (fun f => decide (f ≤ tide / 8192)))
    if lwKind (w l) ≠ 0 then (l, w l)
    else match sub with
      | some n => (n, w n)
      | none => (l, 0)

def State.linkWord (s : State) (rx : Bool) (l k tide : Nat) : Word := (s.wordOf rx l k tide).2

/-- The frame offset at which a flit of an ordinal is sent (13 R370): 3,527 flit slots, then 28 resend slots. -/
def flitOff (k : Nat) : Nat := if k < 3527 then 9 * k / 4 else 7936 + 9 * (k - 3527) / 4

/-! ### Flits (13 R370, R371) -/

/-- Bits of a flit's framing: VALID, PAR, INV, OVF, INX, SKEW and the frame marker. -/
def flagValid (f : BitVec 8) : Bool := f.getLsbD 0
def flagPar (f : BitVec 8) : Nat := if f.getLsbD 1 then 1 else 0
def flagRound (f : BitVec 8) : BitVec 8 := (f >>> 2) &&& 7
def flagSkew (f : BitVec 8) : Bool := f.getLsbD 5
def flagMarker (f : BitVec 8) : Bool := f.getLsbD 6

/-- The framing of a value of round `r` with round flags. -/
def framing (r : Nat) (flags : BitVec 8) : BitVec 8 := 1 ||| BitVec.ofNat 8 (2 * (r % 2)) ||| ((flags &&& 7) <<< 2)

/-- 64 values of 32 bits, and 16 accumulators of 128 bits. -/
def payload32 (vs : List Int) : List Byte := fitTo 256 (vs.flatMap (fun v => toBytes 4 (v % 2 ^ 32).toNat))
def payload128 (vs : List Int) : List Byte := fitTo 256 (vs.flatMap (fun v => toBytes 16 (v % 2 ^ 128).toNat))

/-- Signed values of a payload. -/
def signedAt (bits : Nat) (n : Nat) : Int := if n < 2 ^ (bits - 1) then n else (n : Int) - 2 ^ bits
def words32 (signed : Bool) (bs : List Byte) : List Int :=
  (List.range 64).map (fun i => if signed then signedAt 32 (fieldOf bs (4 * i) 4) else fieldOf bs (4 * i) 4)
def words128 (bs : List Byte) : List Int := (List.range 16).map (fun i => signedAt 128 (fieldOf bs (16 * i) 16))

/-! ### Values (13 R372, R373) -/

/-- A link leads to the member that takes this member's operand: one of its TX words carries the descriptor with KIND 1. -/
def State.towardRoot (s : State) (l rdx : Nat) : Bool :=
  match s.part? with
  | none => false
  | some (t, p) => (List.range t.ntmpl).any (fun i => (List.range 3527).any (fun k =>
      let w := slotTx t.image p i l k
      lwKind w == 1 && lwRdx w == rdx))

/-- The value of a round that a TX word sends, when it is ready: its payload and its framing. -/
def Round.valueFor (x : Round) (c : Coll) (w : Word) (up : Bool) (now : Nat) : Option (List Byte × BitVec 8) :=
  let ch := lwChunk w
  let node (k : NodeKind) (lo hi : Nat) : Option NodeVal := (x.node? k lo hi ch).bind (fun v =>
    if v.ready ≤ now then some v else none)
  match lwKind w with
  | 1 =>
    if c.bin then
      (node .bins c.desc.rank (if c.desc.push then c.desc.rank + 1 else c.desc.topHi)).map (fun v =>
        (payload128 v.vals, framing x.r v.flags))
    else
      (node .tree c.desc.rank (if c.desc.push then c.desc.rank + 1 else c.desc.topHi)).map (fun v =>
        (payload32 v.vals, framing x.r v.flags))
  | 2 => (node .result 0 c.desc.nmem).map (fun v => (payload32 v.vals, framing x.r v.flags))
  | 3 =>
    (x.exp? ch).bind (fun e =>
      if e.final c.desc now || (up && e.upDone c.desc now) then some (payload32 (e.joined now), framing x.r 0) else none)
  | _ => none

/-- What names the value that a word sends in a round. -/
def sentBy (w : Word) (r : Nat) : Sent := { kind := lwKind w, rdx := lwRdx w, chunk := lwChunk w, r := r }

/-- The first round of a word's flow that is ready and that the words of the link have not sent. -/
def State.valueOf (s : State) (l : Nat) (w : Word) : Option (Nat × List Byte × BitVec 8) :=
  match s.coll? (lwRdx w), s.links[l]? with
  | some c, some k =>
    if c.broken then none
    else
      c.rounds.findSome? (fun x =>
        if k.sent.contains (sentBy w x.r) then none
        else (x.valueFor c w (s.towardRoot l (lwRdx w)) s.time).map (fun v => (x.r, v.1, v.2)))
  | _, _ => none

/-! ### Sending again (13 R368, R374 to R376) -/

/-- Values that did not arrive count as not sent: their words send them again. -/
def State.unsend (s : State) (fs : List OutFlit) : State :=
  fs.foldl (fun (s : State) f => match f.what with
    | none => s
    | some v => { s with links := s.links.modify f.origin (fun (k : Link) => { k with sent := k.sent.filter (fun x => x != v) }) }) s

/-- The flits that a link has sent in the frame of the present tide. -/
def State.flitsNow (s : State) (l : Nat) : List OutFlit :=
  ((s.links[l]?).map (fun k => k.lastOut.filter (fun f => f.frame == s.time / 8192))).getD []

/-- A flit is resent in the first free resend slot of a link in its frame that is late enough (13 R374); with none, a schedule
fault of cause 3 follows at offset 7,999 and its word sends the value again. -/
def State.resendOn (s : State) (dest frame from_ : Nat) (f : OutFlit) : State :=
  let used := ((s.links[dest]?).map (fun k => k.resend.map (fun x => x.1))).getD []
  let tide (j : Nat) : Nat := 8192 * frame + flitOff (3527 + j)
  match (List.range 28).find? (fun j => decide (from_ ≤ tide j ∧ s.time ≤ tide j) && !used.contains (3527 + j)) with
  | some j =>
    let s1 := { s with links := s.links.modify dest (fun (k : Link) => { k with resend := k.resend ++ [(3527 + j, f)] }) }
    s1.later (tide j) 0 (.flitSend dest (3527 + j))
  | none => (s.unsend [f]).later (8192 * frame + 7999) 0 (.scheduleFault 3)

/-- The link that carries a link's flows now. -/
def State.carrier (s : State) (l : Nat) : Nat :=
  let w := s.regs.lnkstat.getD l 0
  if w.getLsbD 6 then (w.extractLsb' 0 4).toNat else l

/-- The device still owes a value of a round to a link, or may have to send it again (13 R368). -/
def State.owes (s : State) (c : Coll) (x : Round) : Bool :=
  match s.part? with
  | none => false
  | some (t, p) => (List.range 16).any (fun l => (s.links[l]?).any (fun k =>
      k.lastOut.any (fun f => f.what.any (fun v => v.rdx == c.rdx && v.r == x.r)) ||
      (List.range t.ntmpl).any (fun i => (List.range 3527).any (fun n =>
        let w := slotTx t.image p i l n
        lwRdx w == c.rdx && !k.sent.contains (sentBy w x.r) && (x.valueFor c w true s.time).isSome))))

/-- Closed rounds are dropped once their values are sent (13 R368). -/
def State.dropRounds (s : State) : State :=
  { s with colls := s.colls.map (fun (c : Coll) => { c with
      rounds := c.rounds.filter (fun x => decide (c.openR ≤ x.r) || s.owes c x) }) }

/-! ### A frame's links (13 R370, R375) -/

/-- The flits of the frame that begins: one for every slot of every link. -/
def State.planFlits (s : State) : State :=
  if s.part?.isNone then s
  else
    (List.range 16).foldl (fun (s : State) l =>
      if (s.regs.lnkstat.getD l 0).getLsbD 5 then s
      else (List.range 3527).foldl (fun (s : State) k => s.later (s.time + flitOff k) 0 (.flitSend l k)) s) s

/-- The slots of a link's own words to receive in the frame of a tide. -/
def State.expected (s : State) (l tide : Nat) : List Nat :=
  (List.range 3527).filter (fun k => let w := s.wordOf true l k tide; w.1 == l && lwKind w.2 != 0)

/-- A link that is up is monitored, whatever its words are (13 R375), while the device has a part of an adopted table
(notes/assumptions/24: DESIGN CHOICE). -/
def State.monitored (s : State) (l : Nat) : Bool := s.part?.isSome && !(s.regs.lnkstat.getD l 0).getLsbD 5

/-- Markers are counted at a frame's end: two missed in a row put a link down, and the flits of a frame without a marker have
failed (13 R375). -/
def State.checkMarkers (s : State) : State :=
  (List.range 16).foldl (fun (s : State) l =>
    match s.links[l]? with
    | none => s
    | some k =>
      let missed := if k.marker then 0 else if s.monitored l then k.missed + 1 else 0
      let f := s.time / 8192
      let lost := if missed = 0 then [] else (s.expected l (8192 * (f - 1))).map (fun n => (f - 1, n))
      let s1 := { s with links := s.links.set l { k with
        missed := missed, marker := false, failed := k.failed ++ lost, resend := []
        lastOut := k.lastOut.filter (fun x => decide (f ≤ x.frame + 2)) } }
      if 2 ≤ missed then s1.later s1.time 0 (.linkDown l) else s1) s

end Sys2Proof.Machine
end

