-- ==== Sys2Proof/Machine/Slack.lean ====
section
/-! DEFINITION. Slack water (10 R283 to R289, 07 R220, 15 R415), failed banks (07 R219), droop, the adoption of a tide
table (10 R292, R293, 13 R371, 18 R453), schedule faults and resynchronisation (10 R305 to R307), and the time discipline
(18 R452, 13 R376). -/
namespace Sys2Proof.Machine

/-! ### Regions and counters -/

/-- The clock regions of the physical rows (10 R284). -/
def rowRegions : List Nat := List.range 9 ++ (List.range 9).map (· + 11)

/-- DEF of a DEFSTAT. -/
def defOf (w : Word) : Nat := (w.extractLsb' 0 16).toNat

/-- A DEFSTAT with another DEF; PEAK stands. -/
def withDef (w : Word) (d : Nat) : Word := (w &&& 0xFFFF0000) ||| BitVec.ofNat 32 (min 0xFFFF d)

def State.modDef (s : State) (n : Nat) (f : Word → Word) : State :=
  { s with regs := { s.regs with defstat := s.regs.defstat.modify n f } }

/-! ### Failed banks and the patrol scrub (07 R219, R220) -/

/-- One bank of a group is marked failed; a second is reported (07 R219). -/
def State.markBank (s : State) (q group bank : Nat) : State :=
  let c := s.core q
  let m := c.mark group
  if m = 15 then
    let map := (c.bankmap &&& ~~~(BitVec.ofNat 128 (15 * 16 ^ group))) ||| BitVec.ofNat 128 (bank % 10 * 16 ^ group)
    s.setCore q { c with bankmap := map }
  else if m = bank then s else s.report (.report 0x219 q group)

/-- BANK_MARK_FAILED (07 R219). -/
def execBankMarkFailed (q group bank : Nat) (s : State) : Out1 := .next (s.markBank q group bank)

/-- The scrubber's 8 rows of one frame on a core: correctable errors are written back corrected and counted. -/
def State.scrubCore (s : State) (q : Nat) : State :=
  let c := s.core q
  let mine := c.errs.filter (fun e => decide (c.patrol ≤ e.row) && decide (e.row < c.patrol + 8))
  let s1 := mine.foldl (fun (s : State) (e : SymErr) =>
    let a := 2048 * e.row + 64 * e.group + e.col
    let k := s.core q
    ((s.countCorr q (k.corrections a 1)).bankLoss q a 1).modCore q (fun k => k.reencode a 1)) s
  s1.modCore q (fun k => { k with patrol := (k.patrol + 8) % 1024, corr := if k.patrol + 8 = 1024 then [] else k.corr })

/-- IDLE_ISSUE_SLOT (15 R415): pipe beats without an instruction. -/
def execIdleIssueSlot (q beats : Nat) (s : State) : Out1 := .next (s.modCore q (fun c => c.addIdle beats))

/-- The clock regions that suppress with a region: those of a wave's rows suppress together (04 R147 rule 3). -/
def State.droopWith (s : State) (region : Nat) : List Nat :=
  let waves := s.launches.filter (fun l => l.south && l.state == .running &&
    l.record.rows.any (fun r => s.clockRegion r == region))
  (waves.flatMap (fun l => l.record.rows.map s.clockRegion)).foldl
    (fun (l : List Nat) n => if l.contains n then l else l ++ [n]) [region]

/-- The first tide of this frame, or of its slack water, at which a region's next edge can be suppressed: 8 tides after its
last one (01 R31). -/
def State.nextEdge (s : State) (region : Nat) : Nat :=
  max ((look s.phys.drooped region).getD 0) (s.time - (if 7936 ≤ frameOff s.time then slackGone s.time else frameOff s.time))

/-- The most edges that a region can have suppressed up to now: one in eight tides, from its next edge on (01 R31). -/
def State.droopLimit (s : State) (region : Nat) : Nat := (s.time + 8 - s.nextEdge region) / 8

/-- A region's suppressed edges. Those of slack water catch nothing up, and a deficit that is already 0 stays so
(10 R288). -/
def State.suppress (s : State) (region beats : Nat) : State :=
  let n := min beats (s.droopLimit region)
  let s1 := s.modDef region (fun w =>
    let d := min 0xFFFF (defOf w + n)
    BitVec.ofNat 32 (65536 * max (d - slackGone s.time) (w.extractLsb' 16 16).toNat + d))
  { s1 with phys := { s1.phys with drooped := bindAt s1.phys.drooped region (s.nextEdge region + 8 * n) } }

/-- DROOP_SUPPRESS (10 R283, R288, 18 R454, 01 R31): only row regions suppress. -/
def execDroopSuppress (region beats : Nat) (s : State) : Out1 :=
  if !rowRegions.contains region then .next s
  else .next ((s.droopWith region).foldl (fun (s : State) n => s.suppress n beats) s)

/-! ### Validation and adoption (10 R292, R293; 18 R453) -/

/-- An owner code of 10 Table 10.6. -/
def ownerOk (c : Nat) : Bool :=
  decide (c = 0 ∨ (0x0100 ≤ c ∧ c ≤ 0x02FF) ∨ c = 0x0300 ∨ c = 0x0400 ∨ c = 0x0500 ∨ (0x0600 ≤ c ∧ c ≤ 0x060F))

/-- The image that TTBASE names, as far as validation and use read it. -/
def State.imageOf (s : State) : Memory :=
  let base := (s.regs.ttbase.extractLsb' 12 40).toNat * 4096
  let n := s.dramVal base 8
  let tmpl := s.dramVal (base + 8) 8
  let link := s.dramVal (base + 16) 8
  let ds := (List.range 2048).map (fun d => s.dramVal (base + link + 8 * d) 8)
  let len := if n ≤ 64 then max (tmpl + 3244032 * n) (link + max 16384 ((ds.foldl max 0) + 128 + 8 * 3527 * 16 * n)) else 64
  if base + len ≤ dramSize then wrN [] 0 (s.dramBytes base len) else []

/-- Both rows of a time-sliced pair own slots of a pseudo-channel at one schedule tide (18 R453): row `a` runs on the even
frames of the pair and `b` on the odd ones, each in its own planned clock. -/
def State.pairClash (s : State) (t : TideTable) : Bool :=
  (List.range 16).any (fun a => (s.pairOf a).any (fun b => decide (a < b) &&
    (List.range t.ntmpl).any (fun i => (List.range 4096).any (fun n => (List.range 396).any (fun j =>
      let c := t.code i n j
      let owned (r : Nat) (c : Nat) : Bool := decide (0x0100 ≤ c ∧ c ≤ 0x02FF) && c / 16 % 16 == r
      owned a c && (List.range t.ntmpl).any (fun k => owned b (t.code k n j)))))))

/-- ERR of an armed switch (10 Table 10.5), 0 for none. -/
def State.ttErr (s : State) (epoch written : Nat) : Nat :=
  let m := s.imageOf
  let n := rdVal m 0 8
  let t : TideTable := { epoch := epoch / 8192, ntmpl := n, tmpl := rdVal m 8 8, link := rdVal m 16 8, image := m }
  let parts := (List.range 2048).filterMap (linkPart m t.link)
  if epoch % 8192 ≠ 0 then 1
  else if epoch < written + 64 * 8192 then 2
  else if n = 0 ∨ 64 < n ∨ rdVal m 24 40 ≠ 0 then 4
  else if (List.range n).any (fun i => (List.range 4096).any (fun c => (List.range 396).any (fun j => !ownerOk (t.code i c j)))) then 3
  else if parts.any (fun p => partBad m p n) || s.pairClash t then 4
  else 0

/-- The guard tides of a frame: an armed image is validated; one that passes is adopted at its epoch. -/
def State.guardTable (s : State) : State :=
  match s.ttNext with
  | none => s
  | some (epoch, written) =>
    match s.ttErr epoch written with
    | 0 =>
      if s.agenda.any (fun e => e.task == .op .tideTableAdopt && e.tide == epoch) then s else s.later epoch 0 .tideTableAdopt
    | e + 1 => { s with ttNext := none, regs := { s.regs with ttstat := BitVec.ofNat 32 (4 * (e + 1)) } }

/-- TIDE_TABLE_ADOPT (10 R292): with the table, the channels that RETIRE named are retired (18 R441). -/
def execTideTableAdopt (s : State) : Out1 :=
  match s.ttNext with
  | none => .next s
  | some (epoch, written) =>
    if epoch ≠ s.time then .next s
    else
      match s.ttErr epoch written with
      | 0 =>
        let m := s.imageOf
        .next { s with
          phys := { s.phys with
            retired := s.phys.retired.filter (fun n => !s.phys.retiring.contains n) ++ s.phys.retiring
            retiring := [] }
          ttNext := none
          tt := some { epoch := epoch / 8192, ntmpl := rdVal m 0 8, tmpl := rdVal m 8 8, link := rdVal m 16 8, image := m }
          regs := { s.regs with ttstat := 2 } }
      | e + 1 => .next { s with ttNext := none, regs := { s.regs with ttstat := BitVec.ofNat 32 (4 * (e + 1)) } }

/-! ### The frame's slack water -/

/-- Offset 7,936: the idle issue slots of the frame, and the patrol scrub; a frame without refresh keeps no DRAM contents
(10 R286). -/
def State.slackStart (s : State) : State :=
  let s1 := s.cores.foldl (fun (s : State) (c : Nat × Core) =>
    let k := s.core c.1
    let s2 := if k.survey.ctl.getLsbD 6 then
      s.later s.time 0 (.idleIssueSlot c.1 (k.issueSlots s.time - k.survey.busy)) else s
    let s3 := s2.modCore c.1 (fun k => { k.surveyed s.time with
      takenAt := k.takenAt.filter (fun e => decide (s.time ≤ e.2))
      gtaken := k.gtaken.filter (fun e => decide (s.time ≤ e.2)) })
    if s.regs.slackcfg.getLsbD 17 then s3.scrubCore c.1 else s3) s
  let s2 := { s1 with
    phys := { s1.phys with retried := s1.phys.retried.filter (fun e => decide (s.time / 8192 ≤ e.2)) }
    devTaken := s1.devTaken.filter (fun e => decide (s.time ≤ e.2.2)) }
  let s3 := if s.regs.slackcfg.getLsbD 16 then s2
    else { s2 with dram := [], scrambled := [(0, dramSize)], host := { s2.host with epoch := s2.host.epoch + 1 } }
  s3.later (8192 * (s.time / 8192) + 8180) 0 .slackWater

/-- The first tide of the next frame: 256 beats of catch-up are spent (10 R283, R288), links are checked, and the frame's
flits are planned. -/
def State.slackEnd (s : State) : State :=
  let s1 := { s with regs := { s.regs with defstat := s.regs.defstat.map (fun w => withDef w (defOf w - 256)) } }
  let s2 := if s1.regs.defstat.any (fun w => defOf w != 0) then s1.later s1.time 0 (.scheduleFault 2) else s1
  s2.checkMarkers.dropRounds.planFlits.later (s.time + 7936) 0 .slackWater

/-- The guard tides (10 Table 10.2): an armed table is validated. -/
def State.guardTides (s : State) : State := s.guardTable.later (8192 * (s.time / 8192) + 8192) 0 .slackWater

/-- SLACK_WATER (10 R285). -/
def execSlackWater (s : State) : Out1 :=
  .next (if frameOff s.time = 0 then s.slackEnd else if 8180 ≤ frameOff s.time then s.guardTides else s.slackStart)

/-! ### Schedule faults and resynchronisation (10 R305 to R307) -/

/-- SCHEDULE_FAULT (10 R305): its cause is recorded and it is announced to the pod; switches in progress are cut off (03
Table 3.10). A second one joins the resynchronisation in progress. -/
def execScheduleFault (cause : Nat) (s : State) : Out1 :=
  let s1 := ({ s with
    regs := { s.regs with rsyncstat := setBits 0xFF000000 (BitVec.ofNat 64 (cause % 256 * 2 ^ 24)) s.regs.rsyncstat } } : State).report
      (.report 0x305 cause 0)
  if s.freeze.isSome then .next s1
  else
    let s2 := (s1.reaches.filter (fun r => r.resident && r.leaving)).foldl State.restartSwitch s1
    .next (({ s2 with freeze := some { tf := s.time, cause := cause, delta := 2 } } : State).later s.time 0 .resynchronisation)

/-- The granules that caused the fault are read again, at most 8 times; one that stays unreadable goes on in the retry slots
of the following frames (10 R307). -/
def State.retryGranules (s : State) : State :=
  let bad := s.xfers.flatMap (fun x => ((x.grans.zip (List.range x.grans.length)).filter (fun g =>
    decide (2 ≤ g.1.fails) && decide (g.1.fails < 10) && !g.1.done && g.1.data == [])).map (fun g => (x, g.2, g.1)))
  bad.foldl (fun (s : State) (e : Xfer × Nat × Granule) =>
    let (ok, s1) := s.attempts e.2.2.num 8
    if ok then
      let (bs, s2) := s1.dramRead (64 * e.2.2.num) 64 e.1.view
      (s2.modGran e.1.id e.2.1 (fun g => { g with data := bs })).later s2.time 0 (.granuleLanding e.1.id e.2.1)
    else
      ((s1.modGran e.1.id e.2.1 (fun g => { g with fails := 10 })).modXfer e.1.id (fun x => { x with unreadable := true })).later
        (frameCeil (s1.time + 1)) 0 (.granuleRetryFrame e.1.id e.2.1)) s

/-- A step that ends an access whose slot came before the fault (10 Table 10.10 step 2). -/
def Task.endsAccess (t : Task) : Bool :=
  match t with
  | .op (.granuleLanding _ _) => true
  | .op (.dramWriteCommit _ _) => true
  | .op (.eccFailure _ _) => true
  | _ => false

/-- Granules with slots before the fault complete while schedule tides stand still. -/
def State.completeFrozen (s : State) : State :=
  (s.agenda.filter (fun e => e.task.endsAccess)).foldl (fun (s : State) e => s.schedule s.time 0 e.task)
    { s with agenda := s.agenda.filter (fun e => !e.task.endsAccess) }

/-- RESYNCHRONISATION (10 Table 10.10 steps 1 to 4): the pod agrees on Δ, 2 for a device alone. 01 R30 says that it changes
planned tides, 10 R306 that it leaves every one unchanged and moves the events on the tide counter: the model follows R306
and adds Δ to SHIFT (notes/assumptions/32: DESIGN CHOICE). -/
def execResynchronisation (s : State) : Out1 :=
  match s.freeze with
  | none => .next s
  | some f =>
    let d := if s.part?.isSome then max 2 (Config.podDelta s.free) else 2
    let s1 := s.completeFrozen.retryGranules
    let r := s1.regs.rsyncstat
    let n := (r.extractLsb' 0 16).toNat + 1
    let shift := (r.extractLsb' 32 32).toNat + d
    let s2 := { s1 with
      free := s1.free + 1
      freeze := some { f with delta := d }
      regs := { s1.regs with
        rsyncstat := setBits 0xFFFFFFFF00FFFFFF (BitVec.ofNat 64 (2 ^ 32 * shift + 65536 * (d % 256) + n % 65536)) r
        cntwrap := if n = 65536 then s1.regs.cntwrap ||| 0x100000000 else s1.regs.cntwrap } }
    .next ((s2.noteInc 0 0x23).later s2.time 1 .resyncResume)

/-- Waits that a resynchronisation spanned (12 Table 12.7). -/
def RGroup.spanned (rg : RGroup) : RGroup := { rg with wait := rg.wait.map (fun w => { w with resynced := true }) }

/-- RESYNC_RESUME (10 Table 10.10 step 6): schedule tides and planned clocks go on, every deficit is zero, a granule of a fault
that joined is read again, and the switches that were cut off restart. -/
def execResyncResume (s : State) : Out1 :=
  if s.freeze.isNone then .next s
  else
    .next ({ s with
      freeze := none
      regs := { s.regs with defstat := s.regs.defstat.map (fun w => withDef w 0) }
      reaches := s.reaches.map (fun (r : Reach) =>
        { r with rgs := r.rgs.map RGroup.spanned, hold := r.hold.map (fun h => { h with rg := h.rg.spanned }) }) } :
        State).retryGranules.askAgain

/-! ### Time discipline (18 R452, 13 R376) -/

/-- A signed offset in 16 bits, saturated at ±32,767. -/
def offset16 (o : Int) : Nat := ((max (-32767) (min 32767 o)) % 65536).toNat

/-- The measured offset stands in TIDESYNC, and the device is disciplined (18 Table 18.8). -/
def State.measureOffset (s : State) (offset : Int) : State :=
  { s with regs := { s.regs with
      tidesync := 0x80000000 ||| BitVec.ofNat 32 (256 * offset16 offset) ||| (s.regs.tidesync &&& 0xFF) } }

/-- The tides that can be corrected now: at most 8 in a frame, added ones within offsets 7,936 to 7,999 (18 R452). -/
def State.correction (s : State) (offset : Int) : Nat :=
  let used := if s.phys.adjusted.1 = s.time / 8192 then s.phys.adjusted.2 else 0
  min (min offset.natAbs (8 - used)) (if offset < 0 then 8000 - frameOff s.time else 8)

/-- The counter gains the tides that it lacks, or withholds those that it is ahead; CORR counts them (18 R452). A row region
falls behind by an added tide, and catches up in a withheld one. -/
def State.correct (s : State) (offset : Int) : State :=
  let n := s.correction offset
  let f := s.time / 8192
  let corr := ((s.regs.tidesync.extractLsb' 0 8).toNat + n) % 256
  let s1 : State := { s with
    regs := { s.regs with tidesync := (s.regs.tidesync &&& 0xFFFFFF00) ||| BitVec.ofNat 32 corr }
    phys := { s.phys with adjusted := (f, (if s.phys.adjusted.1 = f then s.phys.adjusted.2 else 0) + n) } }
  if offset < 0 then { (rowRegions.foldl (fun (s : State) r => s.delay r n) s1) with time := s.time + n }
  else rowRegions.foldl (fun (s : State) r => s.modDef r (fun w => withDef w (defOf w - n))) s1

/-- TIDE_CORRECTION (18 R452): `offset` is that of the device's counter from the adapter's time. It is recorded, and the
counter is corrected in the frame's window, offsets 7,936 to 7,999, for which a measurement before it waits. An offset
outside the slot guard follows 13 R376 at once, and is not corrected (notes/assumptions/32: DESIGN CHOICE). -/
def execTideCorrection (offset : Int) (s : State) : Out1 :=
  let s1 := s.measureOffset offset
  .next (
    if 64 < offset.natAbs then s1.later s1.time 0 (.skewGuard none)
    else if 7936 ≤ frameOff s.time ∧ frameOff s.time < 8000 then s1.correct offset
    else s1.later (8192 * ((s.time + 192) / 8192) + 7936) 0 (.tideCorrection offset))

/-- SKEW_GUARD (13 R376): this device is outside the guard, or the marker of a link is. -/
def execSkewGuard (link : Option Nat) (s : State) : Out1 :=
  match link with
  | none =>
    let s1 := (List.range 16).foldl (fun (s : State) l =>
      ((s.modLnk l (fun w => w ||| 0x80)).report (.flit l 0 (List.replicate 256 0) 0x60)).unsend (s.flitsNow l)) s
    .next (s1.later s1.time 0 (.scheduleFault 4))
  | some l =>
    let s1 := (s.modLnk l (fun w => w ||| 0x100))
    let s2 := { s1 with links := s1.links.modify l (fun (k : Link) => { k with drop := true }) }
    .next (s2.later s2.time 0 (.scheduleFault 4))

end Sys2Proof.Machine
end

