-- ==== Sys2Proof/Machine/Links.lean ====
section
/-! DEFINITION. The pod links (13 R370 to R377): sending, receiving and resending flits, and a link that goes down. -/
namespace Sys2Proof.Machine

/-! ### Sending (13 R371, R372) -/

/-- A die is lost: every link is silent (18 R451). -/
def State.silent (s : State) : Bool := s.phys.lostRows.any (fun r => r % 11 == 9 || r % 11 == 10)

/-- A flit goes out and is kept to be sent again; the frame marker stands on slot 0 alone. -/
def State.sendFlit (s : State) (l slot : Nat) (f : OutFlit) : State :=
  let s1 := s.report (.flit l slot f.payload (f.flags ||| (if slot = 0 then 0x40 else 0)))
  { s1 with links := s1.links.modify l (fun (k : Link) => { k with
      lastOut := k.lastOut ++ [{ f with frame := s.time / 8192, slot := slot }] }) }

/-- FLIT_SEND (13 R370, R372): the flit of a TX slot word, or VALID 0; a resend slot sends what was queued for it. -/
def execFlitSend (link slot : Nat) (s : State) : Out1 :=
  match s.links[link]? with
  | none => .next s
  | some k =>
    if (s.regs.lnkstat.getD link 0).getLsbD 5 || s.silent then .next s
    else if 3527 ≤ slot then
      match k.resend.find? (fun e => e.1 == slot) with
      | some e => .next (s.sendFlit link slot e.2)
      | none => .next s
    else
      let (o, w) := s.wordOf false link slot s.time
      match (if lwKind w = 0 then none else s.valueOf o w) with
      | none =>
        .next (s.sendFlit link slot
          { frame := 0, slot := 0, origin := o, payload := List.replicate 256 0, flags := 0, what := none })
      | some (r, bs, f) =>
        let gs := ((s.coll? (lwRdx w)).map (fun c => c.desc.valueGrans (lwKind w) (lwChunk w) r)).getD []
        let s1 : State := { s with links := s.links.modify o (fun (k : Link) => { k with sent := k.sent ++ [sentBy w r] }) }
        .next ((s1.useSlots (0x0600 + link) gs).sendFlit link slot
          { frame := 0, slot := 0, origin := o, payload := bs, flags := f, what := some (sentBy w r) })

/-- FLIT_RESEND (13 R374, R375): the peer reports a flit uncorrectable, by its ordinal: the last one sent in that slot. It is
resent, on the backup link where its link is down, in its frame's first free resend slot that is late enough. -/
def execFlitResend (link slot : Nat) (s : State) : Out1 :=
  match (s.links[link]?).bind (fun k => k.lastOut.reverse.find? (fun e => e.slot == slot)) with
  | none => .next s
  | some e => .next (s.resendOn (s.carrier link) e.frame (8192 * e.frame + flitOff slot + 2 * (Config.linkLat link).toNat + 32) e)

/-! ### Receiving (13 R370 to R376) -/

/-- The round that PAR names: the open one or the next (13 R367). -/
def Coll.roundOf (c : Coll) (par : Nat) : Nat := if c.openR % 2 = par then c.openR else c.openR + 1

/-- A value arrives for a flow of a link: ready 40 tides later (13 Table 13.5). One that ACCTL does not let pod peers write is
refused with a report (07 R229, R230). -/
def State.acceptFlit (s0 : State) (o : Nat) (w : Word) (bs : List Byte) (f : BitVec 8) : State :=
  let rdx := lwRdx w
  match s0.coll? rdx with
  | none => s0
  | some c =>
    let r := c.roundOf (flagPar f)
    if c.broken || !c.armed then s0
    else if (c.desc.valueGrans (lwKind w) (lwChunk w) r).any (fun g => !s0.acctlW (stackOf (64 * g)) 18) then
      s0.report (.report 0x230 rdx o)
    else
      let at_ := s0.time + 40
      let ch := lwChunk w
      let s1 := (s0.useSlots (0x0600 + o) (c.desc.valueGrans (lwKind w) ch r)).openRound rdx r
      match lwKind w with
      | 1 =>
        match c.desc.chain[lwNode w]? with
        | none => s1
        | some (_, mid, hi) =>
          let v : NodeVal := { kind := if c.bin then .bins else .tree, lo := mid, hi := hi, chunk := ch
                               vals := if c.bin then words128 bs else words32 false bs, flags := flagRound f, ready := at_ }
          (s1.modRound rdx r (fun x => x.addNode v)).later at_ 0 (.collectiveCombine rdx (if c.bin then ch / 4 else ch))
      | 2 =>
        let v : NodeVal := { kind := .result, lo := 0, hi := c.desc.nmem, chunk := ch, vals := words32 false bs
                             flags := flagRound f, ready := at_ }
        (s1.modRound rdx r (fun x => x.addNode v)).later (at_ + 24) 0 (.resultCommit rdx ch)
      | 3 =>
        (s1.modRound rdx r (fun x => x.modExp ch (fun e => e.join o at_ (words32 true bs)))).later at_ 0 (.collectiveCombine rdx ch)
      | _ => s1

/-- The frame in which a flit that arrives now was sent, by its ordinal (13 R370). -/
def State.sentFrame (s : State) (link slot : Nat) : Nat := (s.time + 4096 - (Config.linkLat link).toNat - flitOff slot) / 8192

/-- Tides by which a marker that arrives now is off its frame's schedule tide and the latency (13 R376). -/
def State.markerOff (s : State) (link : Nat) : Int := ((s.time + 4096 - (Config.linkLat link).toNat) % 8192 : Nat) - 4096

/-- The links whose failed flits are resent on a link: itself, and those that it stands in for (13 R374, R375). -/
def State.servedBy (s : State) (link : Nat) : List Nat :=
  link :: (List.range 16).filter (fun n => n != link && s.carrier n == link)

/-- The slot that a received flit serves, as link, frame and slot: a resent flit serves the first one that failed. -/
def State.rxPlace (s : State) (link slot : Nat) : Option (Nat × Nat × Nat) × State :=
  if slot < 3527 then (some (link, s.sentFrame link slot, slot), s)
  else
    match (s.servedBy link).findSome? (fun n => ((s.links[n]?).bind (fun k => k.failed.head?)).map (fun e => (n, e))) with
    | none => (none, s)
    | some (n, e) =>
      (some (n, e.1, e.2), { s with links := s.links.modify n (fun (k : Link) => { k with failed := k.failed.drop 1 }) })

/-- An uncorrectable flit is remembered; a resent one that fails again goes behind the others. -/
def State.failFlit (s : State) (link slot : Nat) : State :=
  match s.rxPlace link slot with
  | (none, s1) => s1
  | (some (n, f, k), s1) =>
    { s1 with links := s1.links.modify n (fun (x : Link) => { x with failed := x.failed ++ [(f, k)] }) }

/-- Slot 0 begins a frame of a link: nothing of it is dropped or has failed yet. -/
def Link.begins (k : Link) (slot : Nat) : Link := if slot = 0 then { k with drop := false, failed := [] } else k

/-- FLIT_RECEIVE (13 R370, R374, R376): `payload` and framing as they arrive, with the outcome of the CRC. -/
def execFlitReceive (link slot : Nat) (payload : List Byte) (flags : BitVec 8) (crcOk : Bool) (s : State) : Out1 :=
  match s.links[link]? with
  | none => .next s
  | some k0 =>
    let k := k0.begins slot
    if (s.regs.lnkstat.getD link 0).getLsbD 5 then .next s
    else if k.drop then .next (s.bumpLnk link 48 0)
    else if !crcOk then
      let s1 := { s with links := s.links.set link { k with bad := k.bad + 1 } }
      let s2 := ((s1.failFlit link slot).bumpLnk link 32 16).report (.report 0x374 link slot)
      .next (if 16 ≤ k.bad + 1 then s2.later s2.time 0 (.linkDown link) else s2)
    else
      let late := flagMarker flags && decide (64 < (s.markerOff link).natAbs)
      let s1 := { s with links := s.links.set link { k with bad := 0, marker := k.marker || flagMarker flags, drop := late } }
      if late then
        let s2 := (s1.modLnk link (fun w => w ||| 0x100)).bumpLnk link 48 0
        .next (s2.later s2.time 0 (.scheduleFault 4))
      else
        let s2 := if flagSkew flags then (s1.modLnk link (fun w => w ||| 0x100)).unsend (s1.flitsNow link) else s1
        match s2.rxPlace link slot with
        | (none, s3) => .next s3
        | (some (n, f, k), s3) =>
          if !flagValid flags then .next s3
          else
            let (o, w) := s3.wordOf true n k (8192 * f)
            .next (s3.acceptFlit o w payload flags)

/-- The values that a link without markers lost: those of its last frames (13 R375; notes/assumptions/24). -/
def State.lostFlits (s : State) (link : Nat) : List OutFlit :=
  ((s.links[link]?).map (fun k => if 2 ≤ k.missed then k.lastOut.filter (fun f => f.what.isSome) else [])).getD []

/-- LINK_DOWN (13 R375): DOWN, a report, and from the next frame boundary the backup of a valid reroute entry, in whose resend
slots the lost flits go out again. -/
def execLinkDown (link : Nat) (s : State) : Out1 :=
  if (s.regs.lnkstat.getD link 0).getLsbD 5 then .next s
  else
    let s1 := (s.modLnk link (fun w => w ||| 0x20)).report (.report 0x375 link 0)
    let e : DWord := match s1.part? with
      | some (t, p) => rerouteOf t.image p link
      | none => 0
    let b := (e.extractLsb' 0 4).toNat
    if e.getLsbD 4 && b != link then
      let s2 := s1.modLnk link (fun w => (w &&& ~~~0xF) ||| 0x40 ||| BitVec.ofNat 64 b)
      let s3 := { s2 with links := s2.links.modify link (fun (k : Link) => { k with rerouteAt := some (s2.time / 8192 + 1) }) }
      .next ((s.lostFlits link).foldl (fun (s : State) f => s.resendOn b (s.time / 8192) s.time f) s3)
    else .next s1

end Sys2Proof.Machine
end

