-- ==== Sys2Proof/Machine/Physical.lean ====
section
/-! DEFINITION. The physical device: the projection (01 R13 to R16, R32), uncorrectable core faults and device replay
(15 R418, R419), reference loss, trips and warnings (18 R451, R454, R455), entry to ERROR (18 R443), and boot (18 R447). -/
namespace Sys2Proof.Machine

/-! ### The projection (01 R13, R14, Table 1.2) -/

/-- The clock region of a physical row of a die (10 R284). -/
def rowRegion (die prow : Nat) : Nat := 11 * die + prow

/-- The uncore regions. -/
def uncoreRegions : List Nat := [9, 10, 20, 21]

/-- The fenced cores of a physical row. -/
def Phys.fencedIn (p : Phys) (die prow : Nat) : List Nat :=
  (p.fenced.filter (fun f => f.1 == die && f.2.1 == prow)).map (fun f => f.2.2)

/-- The usable physical rows of a die, ascending (01 R13). -/
def Phys.usable (p : Phys) (die : Nat) : List Nat :=
  (List.range 9).filter (fun r => !p.lostRows.contains (rowRegion die r) && decide ((p.fencedIn die r).length ≤ 1))

/-- A PROJ value (01 Table 1.2). -/
def projWord (die prow fcol : Nat) (ts : Bool) (phase : Nat) : Word :=
  BitVec.ofNat 32 (2048 * die + 1024 * phase + (if ts then 512 else 0) + 16 * fcol + prow)

/-- The entry of the `i`-th logical row of a die on its usable rows. With too few of them, pairs of the highest logical rows
share the highest rows, the lower one of a pair on the even frames. -/
def Phys.entry (p : Phys) (die i : Nat) : Word :=
  let us := p.usable die
  let pairs := 8 - us.length
  let plain := 8 - 2 * pairs
  let row := us.getD (if i < plain then i else plain + (i - plain) / 2) 0
  projWord die row ((p.fencedIn die row).headD 31) (decide (plain ≤ i)) (if i < plain then 0 else (i - plain) % 2)

/-- Rewrite PROJ from what is usable. A die with fewer than 4 usable rows keeps its entries, and the device reports itself
out of service. -/
def State.project (s : State) : State :=
  let proj := (List.range 16).map (fun n =>
    if 4 ≤ (s.phys.usable (n / 8)).length then s.phys.entry (n / 8) (n % 8) else s.regs.proj.getD n 0)
  let s1 : State := { s with regs := { s.regs with proj := proj } }
  [0, 1].foldl (fun (s : State) die => if (s.phys.usable die).length < 4 then s.report (.report 0x014 die 0) else s) s1

/-- The physical core of a logical one: die, row and column (01 R13). -/
def State.physCore (s : State) (row col : Nat) : Nat × Nat × Nat :=
  let p := s.regs.proj.getD row 0
  let f := (p.extractLsb' 4 5).toNat
  ((if p.getLsbD 11 then 1 else 0), (p.extractLsb' 0 4).toNat, (if col < f then col else col + 1))

/-! ### Uncorrectable core faults and replay (15 R418, R419) -/

/-- A launch has done what a replay may not repeat (15 R418). -/
def State.actedOutside (s : State) (l : Launch) : Bool :=
  l.acted || s.staged.any (fun e => e.elts != [] && e.launch == l.id) ||
    s.launches.any (fun x => match x.issuer with
      | .child p _ _ _ => p == l.id
      | .host _ _ => false) ||
    s.xfers.any (fun x => x.launch == l.id && (match x.kind with
      | .red _ _ _ => true
      | .contribution _ => true
      | _ => false))

/-- The device replays the launch (15 R418). -/
def State.replays (s : State) (l : Launch) (fenceable : Bool) : Bool :=
  l.replayable && !s.actedOutside l && s.regs.replcfg.getLsbD 0 &&
    decide (l.replays < (s.regs.replcfg.extractLsb' 4 4).toNat) && fenceable

/-- A core can be fenced without time-slicing a row that is not time-sliced. -/
def Phys.fenceable (p : Phys) (f : Nat × Nat × Nat) : Bool :=
  let n := (({ p with fenced := f :: p.fenced } : Phys).usable f.1).length
  decide (8 ≤ n) || n == (p.usable f.1).length

/-- An uncorrectable core fault meets the CTBs of a reach: the launch is replayed, or they end FAULTED without a dump and
the host hears of it. -/
def State.coreFault (s : State) (row slot : Nat) (fence : Option (Nat × Nat × Nat)) (fenceable : Bool) : State :=
  match s.reach? row slot with
  | none => s
  | some r =>
    match s.launch? r.launch with
    | none => s
    | some l =>
      if s.replays l fenceable then
        let s1 : State := { s with phys := { s.phys with fenced := s.phys.fenced ++ (match fence with
          | some f => if s.phys.fenced.contains f then [] else [f]
          | none => []) } }
        s1.later s1.time 0 (.deviceReplay l.id)
      else
        let s1 := r.ctbs.foldl (fun (s : State) (c : Nat × Ctb) =>
          s.endAbnormal row slot c.1 .faulted 0 (plannedAt r l c.1 0) 0 false) s
        s1.report (.report 0x418 l.id (coreIx row slot))

/-- UNCORRECTABLE_CORE_FAULT (15 R418): the core of a column fails under a reach. -/
def execUncorrectableCoreFault (row slot col : Nat) (s : State) : Out1 :=
  let f := s.physCore row col
  .next (s.coreFault row slot (some f) (s.phys.fenceable f))

/-- A resident reach stops for a replay: it issues nothing more, and cannot be switched. -/
def State.stopForReplay (s : State) (r : Reach) : State :=
  let rg := r.rgs.headD (RGroup.start 0 [] r.j 0)
  (s.purge r.row r.slot).modReach r.row r.slot (fun r => { r with
    leaving := false
    asked := 0
    hold := some { wide := true, queue := [], rg := rg, visit := r.visits, j := 0, run := r.run, halted := true, entered := true
                   resume := false, back := none, serial := 0 } })

/-- The launch goes back to PREPARING with its record, to start as with LATE. -/
def State.restartLaunch (s : State) (l : Launch) : State :=
  let s1 : State := { s with
    reaches := s.reaches.filter (fun r => r.launch != l.id)
    xfers := s.xfers.filter (fun x => x.launch != l.id)
    requests := s.requests.filter (fun x => x.x.launch != l.id)
    rows := s.rows.map (fun (x : Row) => if x.holder == some l.id then { x with holder := none, wanted := none } else x) }
  let s2 := s1.modLaunch l.id (fun l => { l with
    state := .preparing, late := true, trans := [], promise := none, effective := none, ends := [], finished := [], wbLeft := []
    doneTide := 0, replays := l.replays + 1 })
  ((s2.later (workAfter s2.time (64 * l.record.nmap)) 1 (.translationFillDone l.id)).report (.report 0x419 l.id 0)).project

/-- DEVICE_REPLAY (15 R419): every reach of the launch stops; once its copies have landed, the faulty core is fenced, PROJ is
rewritten and the launch prepares again. Nothing is written back or dumped, and nothing fires. -/
def execDeviceReplay (launch : Nat) (s : State) : Out1 :=
  match s.launch? launch with
  | none => .next s
  | some l =>
    if l.state ≠ .running ∧ l.state ≠ .draining then .next s
    else
      let s1 := (s.reaches.filter (fun r => r.launch == launch && r.resident)).foldl State.stopForReplay s
      let s2 : State := { s1 with requests := s1.requests.filter (fun x => x.x.launch != launch) }
      if s2.xfers.any (fun x => x.launch == launch && !x.landed) then
        .next (s2.later (frameCeil (s2.time + 1)) 0 (.deviceReplay launch))
      else .next (s2.restartLaunch l)

/-! ### ERROR (18 R443) -/

/-- Launches that are not DONE end with a status; nothing of them is written back or dumped. -/
def State.endAll (s : State) (status : Nat) (fire : Bool) : State :=
  (s.launches.filter (fun l => l.state != .done)).foldl (fun (s : State) l =>
    let view := s.launchView l.id
    let s1 := (s.reaches.filter (fun r => r.launch == l.id && r.resident)).foldl (fun (s : State) r => s.purge r.row r.slot) s
    let s2 := s1.doneLaunch l status s1.time
    if fire then s2.completionFire l s1.time view else s2) s

/-- Entry to ERROR: launches end FAULTED, and every descriptor is broken. -/
def State.enterError (s : State) : State :=
  let s1 := s.endAll 0x0A true
  { s1 with regs := { s1.regs with tdispst := 3 }, colls := s1.colls.map (fun (c : Coll) => { c with broken := true }) }

/-! ### Losses, trips and warnings (18 R451, R454, R455) -/

/-- The loss of a die (18 R451): its links fall silent, the device enters ERROR and reports the loss. -/
def State.dieLoss (s : State) (die : Nat) : State :=
  let s1 : State := { s with phys := { s.phys with lostRows := (11 * die + 9) :: s.phys.lostRows, dieLost := some s.time } }
  s1.enterError.report (.report 0x451 die 0)

/-- A loss of a die is due at the present tide. -/
def Task.isDieLoss : Task → Bool
  | .op (.dieReferenceLoss _) => true
  | .op (.rowReferenceLoss r) => uncoreRegions.contains r
  | .op (.uncoreSupplyLow _) => true
  | .op .thermalTrip => true
  | .op .powerTrip => true
  | _ => false

/-- ROW_REFERENCE_LOSS (18 R451): the row is fenced, and every CTB on it meets an uncorrectable core fault. A loss in an uncore
region is loss of the die; of two losses in one beat that of a die governs. -/
def execRowReferenceLoss (region : Nat) (s : State) : Out1 :=
  if uncoreRegions.contains region then .next (s.dieLoss (region / 11))
  else if s.phys.dieLost = some s.time ∨ s.agenda.any (fun e => decide (e.tide ≤ s.time) && e.task.isDieLoss) = true then .next s
  else
    let die := region / 11
    let rows := (List.range 16).filter (fun n => s.clockRegion n == region)
    let s1 : State := { s with phys := { s.phys with lostRows := region :: s.phys.lostRows } }
    let hit := s1.reaches.filter (fun r => r.resident && rows.contains r.row)
    let able := decide (8 ≤ (s1.phys.usable die).length)
    .next (hit.foldl (fun (s : State) r => s.coreFault r.row r.slot none able) s1.project)

/-- DIE_REFERENCE_LOSS (18 R451). -/
def execDieReferenceLoss (die : Nat) (s : State) : Out1 := .next (s.dieLoss die)

/-- UNCORE_SUPPLY_LOW (18 R454): treated as reference loss of the die. -/
def execUncoreSupplyLow (die : Nat) (s : State) : Out1 := .next (s.dieLoss die)

/-- A trip (18 R455, Table 18.10): as a reference loss on both dies. -/
def State.trip (s : State) : State :=
  let s1 : State := { s with regs := { s.regs with pwrstat := s.regs.pwrstat ||| 0x80000000 } }
  (s1.dieLoss 0).dieLoss 1

/-- What a meter shows at a tide: its readings stand latest first, each from a tide on; 0 before the first. -/
def readingAt (l : List (Nat × Nat)) (now : Nat) : Nat := ((l.find? (fun e => decide (e.1 ≤ now))).map (fun e => e.2)).getD 0

/-- The junction temperature and the module power from now on. -/
def State.heat (s : State) (tj : Nat) : State := { s with phys := { s.phys with tj := (s.time, tj) :: s.phys.tj } }
def State.draw (s : State) (power : Nat) : State := { s with phys := { s.phys with power := (s.time, power) :: s.phys.power } }

/-- Set bits of PWRSTAT. -/
def State.warn (s : State) (m : Word) : State := { s with regs := { s.regs with pwrstat := s.regs.pwrstat ||| m } }

/-- THERMAL_TRIP (18 R455): a junction has reached the trip temperature. -/
def execThermalTrip (s : State) : Out1 := .next (s.heat (max 110 (readingAt s.phys.tj s.time))).trip

/-- POWER_TRIP (18 R455): the 1 ms average has reached the trip power. -/
def execPowerTrip (s : State) : Out1 := .next (s.draw (max 2640 (readingAt s.phys.power s.time))).trip

/-- JUNCTION_WARNING (18 R455, Tables 18.9, 18.10): the hottest junction, sticky at 95 °C. -/
def execJunctionWarning (tj : BitVec 9) (s : State) : Out1 :=
  .next (if 95 ≤ tj.toNat then (s.heat tj.toNat).warn 0x40000000 else s.heat tj.toNat)

/-- POWER_WARNING (18 R455, Table 18.10): the 100 ms average is above its limit; `power` is the 1 ms average. -/
def execPowerWarning (power : BitVec 12) (s : State) : Out1 := .next ((s.draw power.toNat).warn 0x20000000)

/-- PWRSTAT (18 Table 18.10): the sticky bits, and what the meters show. -/
def State.pwrWord (s : State) : Word :=
  (s.regs.pwrstat &&& 0xE0000000) ||| BitVec.ofNat 32 (2 ^ 20 * (readingAt s.phys.tj s.time % 512) + readingAt s.phys.power s.time % 4096)

/-! ### Boot (18 R447, R448, R450, Table 18.4) -/

/-- The crossings of the device. -/
def crossings : List Crossing :=
  [0, 1].flatMap (fun d => (List.range 9).map (.rowUncore d) ++ (List.range 8).map (.rowRow d) ++ [.uncore d]) ++ [.bridge]

/-- The latency of a crossing in beats (18 Table 18.7). -/
def Crossing.beats : Crossing → Nat
  | .rowUncore _ _ => 8
  | .rowRow _ _ => 8
  | .uncore _ => 4
  | .bridge => 48

/-- The physical row that a failed crossing makes unusable, by its clock region; none for an uncore crossing. A crossing
between two rows fails the lower one (notes/assumptions/33: DESIGN CHOICE). -/
def Crossing.region : Crossing → Option Nat
  | .rowUncore d r => some (rowRegion d r)
  | .rowRow d r => some (rowRegion d r)
  | .uncore _ => none
  | .bridge => none

/-- What the receiver of a crossing counts from the marker. -/
def Phys.count (p : Phys) (c : Crossing) : Nat := ((p.counts.find? (fun e => e.1 == c)).map (fun e => e.2)).getD 0

/-- The crossings that take longer than Table 18.7 gives them. -/
def Phys.slow (p : Phys) : List Crossing := crossings.filter (fun c => decide (c.beats < p.count c))

/-- Training (18 R450): each FIFO depth is set so that the crossing takes its latency; rows of failed crossings are
unusable. -/
def Phys.train (p : Phys) : Phys :=
  { p with
    depths := (crossings.filter (fun c => decide (p.count c ≤ c.beats))).map (fun c => (c, c.beats - p.count c))
    lostRows := p.lostRows ++ (p.slow.filterMap Crossing.region).filter (fun r => !p.lostRows.contains r) }

/-- The bytes of an image from an offset on. -/
def imagePart (m : Memory) (lo n : Nat) : Memory :=
  (m.filter (fun c => decide (lo ≤ c.1 ∧ c.1 < lo + n))).map (fun c => (c.1 - lo, c.2))

/-- The firmware image passes step 3 (18 R447, R448, Table 18.5): magic, zero bytes, SVN, keys and both signatures. A key is
held against the key that its fuse word admits, and a bad magic or length fails as a nonzero byte does
(notes/assumptions/33: DESIGN CHOICE). -/
def Phys.imageOk (p : Phys) : Bool :=
  let m := p.image
  rdVal m 0 4 == 0x4B564F46 && rdVal m 8 8 % 64 == 0 && imagePart m 0x10 0x30 == [] && imagePart m 0x152D 0xD3 == [] &&
    decide (p.fuses.svn ≤ rdVal m 4 4) && imagePart m 0x40 32 == p.fuses.edKey && imagePart m 0x60 1952 == p.fuses.mldKey &&
    p.signed.1 && p.signed.2

/-- The failure code at which boot stops, 0 for none: a failure that the device meets, an uncore crossing that fails, an image
that does not pass, or too few usable rows. -/
def State.bootCode (s : State) : Nat :=
  let code := s.phys.bootFail
  if code = 1 ∨ s.phys.slow.any (fun c => c.region.isNone) then 1
  else if code = 2 then 2
  else if code = 3 ∨ s.phys.imageOk = false then 3
  else if (s.phys.usable 0).length < 4 ∨ (s.phys.usable 1).length < 4 then 4
  else if code = 5 then 5
  else 0

/-- BOOT: the crossings train; BOOTSTAT records the step reached; a failure stops boot at its step. A new DRAM key is drawn
(18 R446). Step 4 marks
the banks that fail the self-test and writes PROJ, in step 5 time is disciplined, and from step 6 on the frames of the device
run. -/
def execBoot (s0 : State) : Out1 :=
  let s : State := { s0 with phys := s0.phys.train }
  let code := s.bootCode
  let at_ := if code = 0 then 6 else code
  let s1 : State := { s with
    regs := { s.regs with bootstat := BitVec.ofNat 32 (at_ + 256 * code) }
    dram := [], dfresh := [], scrambled := [(0, dramSize)]
    host := { s.host with epoch := s.host.epoch + 1, fwOk := code == 0 || decide (4 ≤ code) } }
  let s2 := if 4 ≤ at_ then (s1.phys.badBanks.foldl (fun (s : State) b => s.markBank b.1 b.2.1 b.2.2) s1).project else s1
  if code ≠ 0 then .next s2
  else
    let s3 : State := { s2 with regs := { s2.regs with tidesync := s2.regs.tidesync ||| 0x80000000, tdispst := 0 } }
    .next (s3.later (8192 * (s3.time / 8192) + 7936) 0 .slackWater)

end Sys2Proof.Machine
end

