-- ==== Sys2Proof/Machine/Host.lean ====
section
/-! DEFINITION. The host's side (18 R441 to R446, R449; 15 R410, R411): commands and their statuses, the host registers, the
trusted device interface, and the scrub. -/
namespace Sys2Proof.Machine

/-! ### Statuses (18 R441, Table 18.3) -/

/-- A command's status word. -/
def State.answer (s : State) (code : Nat) (v : DWord) : State := s.report (.reply (BitVec.ofNat 32 code) v)

def stOk : Nat := 0x00
def stDenied : Nat := 0x10
def stBadArg : Nat := 0x11
def stNotHalted : Nat := 0x12

/-- TDISP state: 0 CONFIG_UNLOCKED, 1 CONFIG_LOCKED, 2 RUN, 3 ERROR. -/
def State.tdisp (s : State) : Nat := (s.regs.tdispst.extractLsb' 0 2).toNat

def State.setTdisp (s : State) (n : Nat) : State :=
  { s with regs := { s.regs with tdispst := BitVec.ofNat 32 n } }

/-- The interface accepts a command (18 Table 18.3): in the locked states on the stream keyed to the owner alone. -/
def State.accepts (s : State) : Bool := s.tdisp == 0 || (s.tdisp != 3 && s.host.key)

/-- The commands that wait for a scrub. -/
def State.setWaiting (s : State) (l : List Instr) : State := { s with host := { s.host with waiting := l } }

/-- The first command that waits comes to its turn. -/
def State.nextCommand (s : State) : State :=
  match s.host.waiting with
  | i :: _ => if s.host.scrubbing then s else s.later s.time 0 i
  | [] => s

/-- A command in the order of arrival (18 R441): one that meets a scrub, or others that wait for it, waits. -/
def State.inTurn (s : State) (i : Instr) (f : State → State) : Out1 :=
  if s.host.scrubbing then .next (s.setWaiting (s.host.waiting ++ [i]))
  else
    match s.host.waiting with
    | [] => .next (f s)
    | j :: l => if j = i then .next (f (s.setWaiting l)).nextCommand else .next (s.setWaiting (s.host.waiting ++ [i]))

/-- Run a command in its turn; one that the state does not permit is DENIED. -/
def State.command (s : State) (i : Instr) (f : State → State) : Out1 :=
  s.inTurn i (fun s => if s.accepts then f s else s.answer stDenied 0)

/-! ### Launches of the host (18 R442) -/

/-- Physical base of the host launch table. -/
def State.hltBase (s : State) : Nat := s.regs.hltbase.toNat

/-- The launch that owns an entry of the host launch table. -/
def State.owner (s : State) (e : Nat) : Option Launch := (look s.host.owned e).bind s.launch?

/-- A host handle (18 R442). -/
def hostHandle (e : Nat) : DWord := 0x8000000000000000 ||| BitVec.ofNat 64 e

/-- The launch of a host handle. -/
def State.hostLaunch (s : State) (h : DWord) : Option Launch :=
  let e := (h.extractLsb' 0 12).toNat
  if h = hostHandle e then s.owner e else none

/-- Accept a host launch for entry `e`. -/
def State.acceptLaunch (s : State) (rec_ start : DWord) (late : Bool) (e : Nat) : State :=
  let pa := s.hltBase + 64 * e
  let s1 := s.beginLaunch none (.host e pa) pa rec_ start.toNat late true s.time []
  let s2 : State := { s1 with host := { s1.host with owned := bindAt s1.host.owned e s1.nextId } }
  s2.keepBoundaries.answer stOk (hostHandle e)

/-- LAUNCH (18 R441, R442). -/
def execLaunchCmd (rec_ start : DWord) (late : Bool) (entry : Nat) (s : State) : Out1 :=
  s.command (.launchCmd rec_ start late entry) (fun s =>
    let busy := ((s.owner entry).map (fun l => l.state != .done)).getD false
    if s.regs.hltbase = 0 ∨ 4096 ≤ entry ∨ busy = true then s.answer stBadArg 0
    else s.acceptLaunch rec_ start late entry)

/-- LQUERY (18 R441): the final status, or PENDING. -/
def execLquery (handle : DWord) (s : State) : Out1 :=
  s.command (.lquery handle) (fun s =>
    match s.hostLaunch handle with
    | none => s.answer stBadArg 0
    | some l => s.answer stOk (BitVec.ofNat 64 (if l.state = .done then l.status else 1)))

/-- CANCEL (18 R441): as `lcancel`, judged on the schedule tide. -/
def execCancel (handle : DWord) (s : State) : Out1 :=
  s.command (.cancel handle) (fun s =>
    match s.hostLaunch handle with
    | none => s.answer stBadArg 0
    | some l => (s.cancel l s.time).answer stOk (BitVec.ofNat 64 (cancelCode l s.time)))

/-! ### DBGTOK (15 R410, R411) -/

/-- A held CTB is resolved when its launch loses its right: an edited one ends DEBUG_REVOKED without a dump, another resumes
as by `tret`. -/
def State.revokeCtb (s : State) (r : Reach) (l : Launch) (x : Hold) (e : Nat × Ctb) : State :=
  if e.2.ended.isSome then s
  else if e.2.edited then s.endAbnormal r.row r.slot e.1 .debugRevoked 0 (r.stopTide l e.1) 0 false
  else
    (x.queue.filter (fun q => q.1 == e.1)).foldl (fun (s : State) q =>
      s.modGroup r.row r.slot q.1 q.2 (fun g =>
        if g.ended then g
        else (g.leaveHandler r.run (s.pastStop r l g q.2)).rewind (((r.rgs[q.2]?).map (fun rg => rg.pos)).getD 0))) s

/-- A reach of a launch that lost its right leaves its hold. -/
def State.revokeReach (s : State) (r : Reach) (l : Launch) : State :=
  match r.hold with
  | none => s
  | some x =>
    if !x.entered || x.resume || x.queue == [] then s
    else
      let s1 := r.ctbs.foldl (fun (s : State) e => s.revokeCtb r l x e) s
      let s2 := s1.modReach r.row r.slot (fun r => { (r.rejoin x) with hold := some { x with queue := [], resume := true } })
      s2.delay (s2.clockRegion r.row) 16

/-- Write DBGTOK. -/
def State.setDbgtok (s : State) (v : DWord) : State :=
  let s1 : State := { s with regs := { s.regs with dbgtok := v } }
  let lost := s.launches.filter (fun l => s.debugRight l && !s1.debugRight l && l.state != .done)
  (s.reaches.filter (fun r => r.resident)).foldl (fun (s : State) r =>
    match lost.find? (fun l => l.id == r.launch) with
    | some l => s.revokeReach r l
    | none => s) s1

/-- DBGTOK_WRITE (15 R411). -/
def execDbgtokWrite (value : DWord) (s : State) : Out1 := .next (s.setDbgtok value)

/-! ### Registers (18 Table 18.2, 15 Table 15.14) -/

/-- A host launch is not DONE. -/
def State.hostBusy (s : State) : Bool :=
  s.launches.any (fun l => l.state != .done && (match l.issuer with
    | .host _ _ => true
    | .child _ _ _ _ => false))

/-- Write HLTBASE, unless a host launch is not DONE. -/
def State.setHltbase (s : State) (v : DWord) : State :=
  if s.hostBusy then s else { s with regs := { s.regs with hltbase := v &&& 0x000FFFFFFFFFFFC0 } }

/-- HLTBASE_WRITE (18 R442). -/
def execHltbaseWrite (value : DWord) (s : State) : Out1 := .next (s.setHltbase value)

/-- A number of 18 Table 18.2. -/
def hostReg (n : Nat) : Bool := decide (0x1000 ≤ n ∧ n ≤ 0x1005)

/-- A register that the host can name: a host, device or core register; a group register names no group here
(notes/assumptions/11). -/
def hostNames (n q : Nat) : Bool :=
  hostReg n || ((srnWidth n).isSome && !srnGroup n && n != 0x39 && (!srnCore n || decide (q < 256)))

/-- Read a host register. -/
def State.hostRead (s : State) (n : Nat) : DWord :=
  let r := s.regs
  if n = 0x1000 then r.dbgtok
  else if n = 0x1001 then r.tidesync.setWidth 64
  else if n = 0x1002 then s.pwrWord.setWidth 64
  else if n = 0x1003 then r.bootstat.setWidth 64
  else if n = 0x1004 then r.tdispst.setWidth 64
  else r.hltbase

/-- Write a register that the host names. -/
def State.hostWrite (s : State) (n q : Nat) (v : DWord) : State :=
  if n = 0x1000 then s.setDbgtok v
  else if n = 0x1001 then { s with regs := { s.regs with tidesync := on32 (clearBits 0xFF v) s.regs.tidesync } }
  else if n = 0x1002 then
    { s with regs := { s.regs with
        pwrstat := on32 (fun o => clearBits 0x40000000 v (clearBits 0x20000000 v o)) s.regs.pwrstat } }
  else if n = 0x1005 then s.setHltbase v
  else if hostReg n then s
  else if srnCore n then s.setCoreReg q n v
  else s.setDev n v

/-- REGRD (18 R441): as a supervisor `sysrd` of row 16. -/
def execRegrd (num q : Nat) (s : State) : Out1 :=
  s.command (.regrd num q) (fun s =>
    if !hostNames num q then s.answer stBadArg 0
    else if hostReg num then s.answer stOk (s.hostRead num)
    else if srnDevice num && !s.acctlR 25 16 then s.answer stDenied 0
    else s.answer stOk (if srnCore num then (s.core q).regAt s.time num else s.devReg num))

/-- REGWR (18 R441): as a supervisor `syswr` of row 16. -/
def execRegwr (num q : Nat) (value : DWord) (s : State) : Out1 :=
  s.command (.regwr num q value) (fun s =>
    if !hostNames num q then s.answer stBadArg 0
    else if (srnDevice num && !s.acctlW 25 16) || (num == 0x1005 && s.hostBusy) then s.answer stDenied 0
    else (s.hostWrite num q value).answer stOk 0)

/-- REGISTER_WRITE (15 R416, R420): a register takes the fields of a value that its map lets it take. -/
def execRegisterWrite (num q : Nat) (value : DWord) (s : State) : Out1 :=
  .next (if hostNames num q then s.hostWrite num q value else s)

/-! ### Objects and channels (18 R441) -/

/-- A RUNNING or DRAINING launch names an object in its record, or binds it. -/
def State.objInUse (s : State) (n : Nat) : Bool :=
  s.launches.any (fun l => (l.state == .running || l.state == .draining) &&
    (l.record.complete == n || l.record.deps.any (fun d => d.1.toNat == n) || s.bindsObj l.id n))

/-- OBJSET (18 R441). -/
def execObjset (obj : Nat) (count : BitVec 16) (s : State) : Out1 :=
  s.command (.objset obj count) (fun s =>
    if obj = 0 ∨ 65536 ≤ obj then s.answer stBadArg 0
    else if s.objInUse obj then s.answer stDenied 0
    else ({ s with objs := bindAt s.objs obj count, objRel := s.objRel.filter (fun e => e.1 != obj) } : State).answer stOk 0)

/-- The adopted table gives a pseudo-channel owned slots. -/
def State.slotsOwned (s : State) (n : Nat) : Bool :=
  (s.tt.map (fun t => (List.range t.ntmpl).any (fun i => (List.range 396).any (fun j => t.code i n j != 0)))).getD false

/-- RETIRE (18 R441): retired from the next adoption of a tide table. -/
def execRetire (n : Nat) (s : State) : Out1 :=
  s.command (.retire n) (fun s =>
    if 4096 ≤ n ∨ s.slotsOwned n = true then s.answer stBadArg 0
    else ({ s with phys := { s.phys with retiring := s.phys.retiring.filter (fun x => x != n) ++ [n] } } : State).answer stOk 0)

/-! ### DEBUG (18 R441, 15 R402, R427 to R429) -/

/-- The place of a CTB that is resident and has not ended: the reach and the column. -/
def State.debugPlace (s : State) (l : Launch) (lin : Nat) : Option (Reach × Nat) :=
  s.reaches.findSome? (fun r =>
    if r.launch == l.id && r.resident then
      (r.ctbs.find? (fun c => c.2.lin == lin && c.2.ended.isNone)).map (fun c => (r, c.1))
    else none)

/-- A target that the host names. -/
def hostTarget (r : Reach) (x : Hold) (col g : Nat) : Target where
  row := r.row
  slot := r.slot
  col := col
  grp := g
  handled := x.queue.contains (col, g)
  wide := x.wide
  serial := x.serial

/-- A group leaves the halted ones of a hold; after the last of them the reach goes on. -/
def State.leaveHalted (s : State) (r : Reach) (x : Hold) (col g : Nat) : State :=
  let left := (x.queue.filter (fun e => e != (col, g))).filter (fun e => ((r.ctb? e.1).map (fun c => c.live e.2)).getD false)
  if left = [] then
    (s.modReach r.row r.slot (fun r => { (r.rejoin { x with queue := [(col, g)] }) with
      hold := some { x with queue := [], resume := true } })).delay (s.clockRegion r.row) 16
  else s.modReach r.row r.slot (fun r => { r with hold := some { x with queue := left } })

/-- A write that the register quota does not allow is DOUBLE, and the CTB ends FAULTED (15 R427, R402); TRAPADDR is that of the
inner REG_QUOTA (R392), the rows `held` that the group would hold. -/
def State.doubleHalted (s : State) (r : Reach) (l : Launch) (x : Hold) (col g held : Nat) : State :=
  let s1 := s.modGroup r.row r.slot col g (fun y =>
    { y with trap := { y.trap.dumped cRegQuota false with addr := BitVec.ofNat 64 held } })
  (s1.endAbnormal r.row r.slot col .faulted g (r.stopTide l col) (r.saveTide l col g) true).leaveHalted r x col g

/-- A debug-halted group resumes, with a step count; the reach goes on after the last of them. -/
def State.goHalted (s : State) (r : Reach) (l : Launch) (x : Hold) (col g n : Nat) : State :=
  let pos := ((r.rgs[g]?).map (fun rg => rg.pos)).getD 0
  let past := ((s.ctb? r.row r.slot col).bind (fun c => c.group? g)).any (fun y => s.pastStop r l y g)
  let s1 := s.modGroup r.row r.slot col g (fun y => (y.leaveHandler r.run past).rewind pos)
  let s2 := s1.modReach r.row r.slot (fun r => { r with rgs := r.rgs.modify g (fun rg => rg.count col n past) })
  s2.leaveHalted r x col g

/-- The lane of a per-lane item: bits [4:0] of the value of a read, bits [36:32] of that of a write
(notes/assumptions/11). -/
def debugLane (write : Bool) (v : DWord) : Nat := (if write then v.extractLsb' 32 5 else v.extractLsb' 0 5).toNat

/-- The effect of a DEBUG operation on a debug-halted CTB. -/
def State.debugOp (s : State) (l : Launch) (r : Reach) (x : Hold) (col : Nat) (op : DebugOp) (word : Word) (v : DWord) : State :=
  let item := (word.extractLsb' 8 8).toNat
  let ix := (word.extractLsb' 16 16).toNat
  let w : HItem := { item := word.extractLsb' 8 8, index := word.extractLsb' 16 16, group := word.extractLsb' 0 5 }
  let g := match op with
    | .hread => (word.extractLsb' 0 5).toNat
    | .hwrite => (word.extractLsb' 0 5).toNat
    | _ => (v.extractLsb' 0 5).toNat
  let t := hostTarget r x col g
  match op with
  | .hread =>
    if word &&& 0xE0 ≠ 0 ∨ hitemOk w = false ∨ s.tgtOk t = false then s.answer stBadArg 0
    else s.answer stOk ((s.haltedRead t item ix (debugLane false v) (plannedAt r l col x.j)).setWidth 64)
  | .hwrite =>
    if word &&& 0xE0 ≠ 0 ∨ hitemOk w = false ∨ s.tgtOk t = false ∨ readOnlyItem item = true ∨
        (uniformItem item = true ∧ t.wide = false) then s.answer stBadArg 0
    else
      match (s.tgt? t).bind (fun y => l.overQuota y item ix) with
      | some held => (s.doubleHalted r l x col g held).answer stOk 0
      | none =>
        let s1 := if perLane item then s.lanesWrite t item ix [(debugLane true v, (lo32 v).setWidth 64)]
          else s.haltedWrite l t item ix (lo32 v)
        (s1.markEdited t).answer stOk 0
  | .hstepLane =>
    if v &&& ~~~(0x1F1F : DWord) ≠ 0 ∨ s.tgtOk t = false then s.answer stBadArg 0
    else
      let (st, s1) := s.stepHalted l t (v.extractLsb' 8 5).toNat
      s1.answer stOk (st.setWidth 64)
  | .hstepCursor =>
    if v &&& ~~~(0x1F : DWord) ≠ 0 ∨ s.tgtOk t = false then s.answer stBadArg 0
    else
      let (st, s1) := s.stepCursor l t
      s1.answer stOk (st.setWidth 64)
  | .hgo =>
    match x.queue.find? (fun e => e.1 == col) with
    | some e => if hi32 v ≠ 0 then s.answer stBadArg 0 else (s.goHalted r l x col e.2 (lo32 v).toNat).answer stOk 0
    | none => s.answer stNotHalted 0

/-- DEBUG (18 R441): BAD_ARG for an identity that no launch of the device has, DENIED without a valid right, NOT_HALTED unless
the CTB is debug-halted. -/
def execDebug (launch lin : Nat) (op : DebugOp) (word : Word) (value : DWord) (s : State) : Out1 :=
  s.command (.debug launch lin op word value) (fun s =>
    match s.launches.find? (fun l => l.ident == launch && l.state != .done) with
    | none => s.answer stBadArg 0
    | some l =>
      if !s.debugRight l then s.answer stDenied 0
      else
        match s.debugPlace l lin with
        | none => s.answer stNotHalted 0
        | some (r, col) =>
          match r.hold with
          | some x =>
            if x.halted && x.queue.any (fun e => e.1 == col) then s.debugOp l r x col op word value
            else s.answer stNotHalted 0
          | none => s.answer stNotHalted 0)

/-! ### The scrub (18 R444) -/

/-- What a scrub zeroes of a core: scratch and check banks, register files, lane stores, accumulators, planes, the trace
FIFO and every beacon. -/
def Core.scrubbed (c : Core) : Core :=
  { c with
    scratch := [], errs := [], fresh := [], mx := Core.reset.mx, fifo := [], lostBits := []
    bcnctl := List.replicate 16 0, bcnlo := List.replicate 16 0, bcnhi := List.replicate 16 0 }

/-- The steps of a scrub up to the new key; it completes within 1,024 frames. The staging areas, with what a link keeps of them
to send again, go with the rounds of every descriptor. -/
def State.scrub (s : State) (reply : Bool) : State :=
  let s1 := s.endAll 3 false
  let s2 : State := { s1 with
    cores := s1.cores.map (fun (c : Nat × Core) => (c.1, c.2.scrubbed))
    objs := [], objRel := [], staged := [], fill := [], fires := [], xfers := [], requests := []
    regs := { s1.regs with dbgtok := 0 }
    colls := s1.colls.map (fun (c : Coll) => { c with armed := false, rounds := [] })
    links := s1.links.map (fun (k : Link) => { k with failed := [], resend := [], lastOut := [], sent := [] })
    dram := [], dfresh := [], scrambled := [(0, dramSize)]
    host := { s1.host with epoch := s1.host.epoch + 1, scrubbing := true, stopReply := reply }
    free := s1.free + 1 }
  s2.later (s2.time + 8192 * min 1024 (Config.scrubFrames s.free)) 0 .scrubComplete

/-- HANDOVER (18 R444): accepted in every state, from any stream. -/
def execHandover (s : State) : Out1 := s.inTurn .handover (fun s => s.scrub false)

/-- STOP_INTERFACE_REQUEST (18 R444): in any state. -/
def execStopInterfaceRequest (s : State) : Out1 :=
  if s.host.scrubbing then .next (s.later (frameCeil (s.time + 1)) 0 .stopInterfaceRequest) else .next (s.scrub true)

/-- SCRUB_COMPLETE (18 R444 step 5): CONFIG_UNLOCKED; the status of HANDOVER or the STOP response is returned. -/
def execScrubComplete (s : State) : Out1 :=
  if !s.host.scrubbing then .next s
  else
    let s1 := s.setTdisp 0
    .next (({ s1 with host := { s1.host with scrubbing := false, key := false } } : State).answer stOk
      (if s.host.stopReply then 1 else 0)).nextCommand

/-! ### The trusted device interface (18 R443, R445, R449) -/

/-- What LOCK_INTERFACE_REQUEST measures (18 Table 18.6, block 4). -/
def State.lockedWords (s : State) : List DWord :=
  let r := s.regs
  [r.ptbase, r.stagebase, r.cdbase, r.podid.setWidth 64] ++ r.acctl ++
    [r.detcfg.setWidth 64, r.schedcfg.setWidth 64, r.slackcfg.setWidth 64, r.replcfg.setWidth 64]

/-- LOCK_INTERFACE_REQUEST (18 R443). -/
def execLockInterfaceRequest (s : State) : Out1 :=
  if s.tdisp ≠ 0 then .next (s.answer stDenied 0)
  else .next (({ s.setTdisp 1 with host := { s.host with measured := s.lockedWords } } : State).answer stOk 0)

/-- START_INTERFACE_REQUEST (18 R443). -/
def execStartInterfaceRequest (s : State) : Out1 :=
  if s.tdisp = 1 ∧ s.host.key = true then .next ((s.setTdisp 2).answer stOk 0) else .next (s.answer stDenied 0)

/-- KEY_EXCHANGE (18 R445): SPDM, accepted in every state; the stream is keyed and bound to the owner. -/
def execKeyExchange (s : State) : Out1 :=
  .next (({ s with host := { s.host with key := true } } : State).answer stOk 0)

/-- The body of the firmware image (18 Table 18.5), in words of 8 bytes. -/
def Phys.body (p : Phys) : List DWord :=
  (List.range (rdVal p.image 8 8 / 8)).map (fun i => BitVec.ofNat 64 (rdVal p.image (0x1600 + 8 * i) 8))

/-- The words that a measurement block covers (18 Table 18.6). -/
def State.blockWords (s : State) (n : Nat) : List DWord :=
  if n = 1 then Config.romWords
  else if n = 2 then s.phys.body
  else if n = 3 then [BitVec.ofNat 64 s.phys.fuses.svn, BitVec.ofNat 64 s.phys.fuses.lock]
  else if n = 4 then s.host.measured
  else if n = 5 then
    s.regs.proj.map (fun w => w.setWidth 64) ++
      (List.range 256).flatMap (fun q => let m := (s.core q).bankmap; [m.extractLsb' 0 64, m.extractLsb' 64 64])
  else []

/-- The digests of the measurement blocks. -/
def State.digests (s : State) : List Nat := [1, 2, 3, 4, 5].map (fun n => Config.digest n (s.blockWords n))

/-- MEASUREMENTS (18 R449): SPDM, accepted in every state. The five blocks are sent, with the Ed25519 certificate chain of slot 0
(report 0), the Ed25519 signature (6) and the ML-DSA-65 signature (7) over them (notes/assumptions/33). -/
def execMeasurements (s : State) : Out1 :=
  let s1 := ([1, 2, 3, 4, 5].zip s.digests).foldl (fun (s : State) (e : Nat × Nat) => s.report (.report 0x449 e.1 e.2)) s
  .next (((s1.report (.report 0x449 0 Config.certChain)).report (.report 0x449 6 (Config.edSign s.digests))).report
    (.report 0x449 7 (Config.mldSign s.digests)))

/-- A flit of the host link whose tag fails (18 R445): it is discarded, and the device enters ERROR. -/
def execHostFlitTagFail (s : State) : Out1 := .next s.enterError

end Sys2Proof.Machine
end

