-- ==== Sys2Proof/Machine/Dispatch.lean ====
section
/-! DEFINITION. The dispatch: one arm for each constructor of Instr. -/
namespace Sys2Proof.Machine

def exec (i : Instr) (s : State) : Host.Outcome State Fault Refusal :=
  match i with
  | .nop => Sys2Proof.Machine.execNop s
  | .br off => Sys2Proof.Machine.execBr off s
  | .brc cc a b off => Sys2Proof.Machine.execBrc cc a b off s
  | .loop d a off => Sys2Proof.Machine.execLoop d a off s
  | .call d off => Sys2Proof.Machine.execCall d off s
  | .callK d a => Sys2Proof.Machine.execCallK d a s
  | .ret a => Sys2Proof.Machine.execRet a s
  | .brxK a t => Sys2Proof.Machine.execBrxK a t s
  | .brxV a last t => Sys2Proof.Machine.execBrxV a last t s
  | .tableStep => Sys2Proof.Machine.execTableStep s
  | .mif neg a => Sys2Proof.Machine.execMif neg a s
  | .melse => Sys2Proof.Machine.execMelse s
  | .mend => Sys2Proof.Machine.execMend s
  | .mset a => Sys2Proof.Machine.execMset a s
  | .msetAll => Sys2Proof.Machine.execMsetAll s
  | .mrest a => Sys2Proof.Machine.execMrest a s
  | .msave d => Sys2Proof.Machine.execMsave d s
  | .mand d a b => Sys2Proof.Machine.execMand d a b s
  | .mor d a b => Sys2Proof.Machine.execMor d a b s
  | .mxor d a b => Sys2Proof.Machine.execMxor d a b s
  | .mandn d a b => Sys2Proof.Machine.execMandn d a b s
  | .mnot d a => Sys2Proof.Machine.execMnot d a s
  | .mmov d a => Sys2Proof.Machine.execMmov d a s
  | .mcnt d a => Sys2Proof.Machine.execMcnt d a s
  | .mfirst d a => Sys2Proof.Machine.execMfirst d a s
  | .passE d a last => Sys2Proof.Machine.execPassE d a last s
  | .passS d a last => Sys2Proof.Machine.execPassS d a last s
  | .endG => Sys2Proof.Machine.execEndG s
  | .add ty sat d a b => Sys2Proof.Machine.execAdd ty sat d a b s
  | .sub ty sat d a b => Sys2Proof.Machine.execSub ty sat d a b s
  | .mul ty d a b => Sys2Proof.Machine.execMul ty d a b s
  | .mulh ty d a b => Sys2Proof.Machine.execMulh ty d a b s
  | .mad ty sat d a b c => Sys2Proof.Machine.execMad ty sat d a b c s
  | .div ty d a b => Sys2Proof.Machine.execDiv ty d a b s
  | .rem ty d a b => Sys2Proof.Machine.execRem ty d a b s
  | .min ty d a b => Sys2Proof.Machine.execMin ty d a b s
  | .max ty d a b => Sys2Proof.Machine.execMax ty d a b s
  | .abs wd sat d a => Sys2Proof.Machine.execAbs wd sat d a s
  | .neg wd sat d a => Sys2Proof.Machine.execNeg wd sat d a s
  | .and wd d a b => Sys2Proof.Machine.execAnd wd d a b s
  | .or wd d a b => Sys2Proof.Machine.execOr wd d a b s
  | .xor wd d a b => Sys2Proof.Machine.execXor wd d a b s
  | .andn wd d a b => Sys2Proof.Machine.execAndn wd d a b s
  | .shl wd d a b => Sys2Proof.Machine.execShl wd d a b s
  | .shr ty d a b => Sys2Proof.Machine.execShr ty d a b s
  | .rot wd d a b => Sys2Proof.Machine.execRot wd d a b s
  | .popc wd d a => Sys2Proof.Machine.execPopc wd d a s
  | .clz wd d a => Sys2Proof.Machine.execClz wd d a s
  | .ctz wd d a => Sys2Proof.Machine.execCtz wd d a s
  | .brev wd d a => Sys2Proof.Machine.execBrev wd d a s
  | .bfx ty d a pos len => Sys2Proof.Machine.execBfx ty d a pos len s
  | .bfi wd d a b pos len => Sys2Proof.Machine.execBfi wd d a b pos len s
  | .cmp p ty d a b => Sys2Proof.Machine.execCmp p ty d a b s
  | .sel wd d a b c => Sys2Proof.Machine.execSel wd d a b c s
  | .mov wd d a => Sys2Proof.Machine.execMov wd d a s
  | .kadd d a b => Sys2Proof.Machine.execKadd d a b s
  | .ksub d a b => Sys2Proof.Machine.execKsub d a b s
  | .kmul d a b => Sys2Proof.Machine.execKmul d a b s
  | .kshl d a b => Sys2Proof.Machine.execKshl d a b s
  | .kshr d a b => Sys2Proof.Machine.execKshr d a b s
  | .kand d a b => Sys2Proof.Machine.execKand d a b s
  | .kor d a b => Sys2Proof.Machine.execKor d a b s
  | .kmov d a => Sys2Proof.Machine.execKmov d a s
  | .kli d v => Sys2Proof.Machine.execKli d v s
  | .lea d a b disp => Sys2Proof.Machine.execLea d a b disp s
  | .acvTo w d a => Sys2Proof.Machine.execAcvTo w d a s
  | .acvFrom w d a => Sys2Proof.Machine.execAcvFrom w d a s
  | .ats sp d a => Sys2Proof.Machine.execAts sp d a s
  | .sreg item d => Sys2Proof.Machine.execSreg item d s
  | .ixset ix a => Sys2Proof.Machine.execIxset ix a s
  | .ixadd ix a => Sys2Proof.Machine.execIxadd ix a s
  | .vget ix d base disp len => Sys2Proof.Machine.execVget ix d base disp len s
  | .vput ix base b disp len => Sys2Proof.Machine.execVput ix base b disp len s
  | .rgrow d a => Sys2Proof.Machine.execRgrow d a s
  | .rshrink d a => Sys2Proof.Machine.execRshrink d a s
  | .rquery d => Sys2Proof.Machine.execRquery d s
  | .fadd ty rm d a b => Sys2Proof.Machine.execFadd ty rm d a b s
  | .fsub ty rm d a b => Sys2Proof.Machine.execFsub ty rm d a b s
  | .fmul ty rm d a b => Sys2Proof.Machine.execFmul ty rm d a b s
  | .fma ty rm d a b c => Sys2Proof.Machine.execFma ty rm d a b c s
  | .fmin ty d a b => Sys2Proof.Machine.execFmin ty d a b s
  | .fmax ty d a b => Sys2Proof.Machine.execFmax ty d a b s
  | .fabs ty d a => Sys2Proof.Machine.execFabs ty d a s
  | .fneg ty d a => Sys2Proof.Machine.execFneg ty d a s
  | .fcopysign ty d a b => Sys2Proof.Machine.execFcopysign ty d a b s
  | .fcmp p ty d a b => Sys2Proof.Machine.execFcmp p ty d a b s
  | .frcp rm d a => Sys2Proof.Machine.execFrcp rm d a s
  | .frsq rm d a => Sys2Proof.Machine.execFrsq rm d a s
  | .fsqrt rm d a => Sys2Proof.Machine.execFsqrt rm d a s
  | .fexp2 rm d a => Sys2Proof.Machine.execFexp2 rm d a s
  | .flog2 rm d a => Sys2Proof.Machine.execFlog2 rm d a s
  | .fclass ty d a => Sys2Proof.Machine.execFclass ty d a s
  | .fscale ty rm d a b => Sys2Proof.Machine.execFscale ty rm d a b s
  | .frnd ty rm d a => Sys2Proof.Machine.execFrnd ty rm d a s
  | .fcvt dst src rm d a => Sys2Proof.Machine.execFcvt dst src rm d a s
  | .icvt toFloat ity fc rm d a => Sys2Proof.Machine.execIcvt toFloat ity fc rm d a s
  | .qcvtTo slot rm d a => Sys2Proof.Machine.execQcvtTo slot rm d a s
  | .qcvtFrom slot rm d a => Sys2Proof.Machine.execQcvtFrom slot rm d a s
  | .fpack bf rm d a b => Sys2Proof.Machine.execFpack bf rm d a b s
  | .funpack bf d a => Sys2Proof.Machine.execFunpack bf d a s
  | .fdot2 bf rm d a b c => Sys2Proof.Machine.execFdot2 bf rm d a b c s
  | .fdot4 slot rm d a b c => Sys2Proof.Machine.execFdot4 slot rm d a b c s
  | .gred op gt rm d a => Sys2Proof.Machine.execGred op gt rm d a s
  | .gscan op gt rm d a => Sys2Proof.Machine.execGscan op gt rm d a s
  | .gshuf mode d a b => Sys2Proof.Machine.execGshuf mode d a b s
  | .gbcast wd d a b => Sys2Proof.Machine.execGbcast wd d a b s
  | .ld ty d base off disp => Sys2Proof.Machine.execLd ty d base off disp s
  | .lld ty d base off disp => Sys2Proof.Machine.execLld ty d base off disp s
  | .cld ty d base off disp => Sys2Proof.Machine.execCld ty d base off disp s
  | .st ty base off disp c => Sys2Proof.Machine.execSt ty base off disp c s
  | .lst ty base off disp c => Sys2Proof.Machine.execLst ty base off disp c s
  | .cst ty base off disp c => Sys2Proof.Machine.execCst ty base off disp c s
  | .sdset esz sd a base ext0 => Sys2Proof.Machine.execSdset esz sd a base ext0 s
  | .sdget item d sd => Sys2Proof.Machine.execSdget item d sd s
  | .sdrd wd d sd => Sys2Proof.Machine.execSdrd wd d sd s
  | .sdwr wd sd b => Sys2Proof.Machine.execSdwr wd sd b s
  | .sdrew sd => Sys2Proof.Machine.execSdrew sd s
  | .mls slot a six => Sys2Proof.Machine.execMls slot a six s
  | .mlsSp slot a b six => Sys2Proof.Machine.execMlsSp slot a b six s
  | .mswap => Sys2Proof.Machine.execMswap s
  | .mmq form sat slot sd tile => Sys2Proof.Machine.execMmq form sat slot sd tile s
  | .mtile form sat slot sd b t => Sys2Proof.Machine.execMtile form sat slot sd b t s
  | .macz b => Sys2Proof.Machine.execMacz b s
  | .maczFill a b => Sys2Proof.Machine.execMaczFill a b s
  | .msum signed sat sd tile mult => Sys2Proof.Machine.execMsum signed sat sd tile mult s
  | .mdrain out slot a b tile vix rm => Sys2Proof.Machine.execMdrain out slot a b tile vix rm s
  | .mstat d => Sys2Proof.Machine.execMstat d s
  | .engineItemDone q slot => Sys2Proof.Machine.execEngineItemDone q slot s
  | .xcopyIn p a b t => Sys2Proof.Machine.execXcopyIn p a b t s
  | .xcopyOut p a b t => Sys2Proof.Machine.execXcopyOut p a b t s
  | .xgather p a b t => Sys2Proof.Machine.execXgather p a b t s
  | .xscatter p a b t => Sys2Proof.Machine.execXscatter p a b t s
  | .xscatterAny p a b t => Sys2Proof.Machine.execXscatterAny p a b t s
  | .xred op ty p a b t => Sys2Proof.Machine.execXred op ty p a b t s
  | .xredAny op ty p a b t => Sys2Proof.Machine.execXredAny op ty p a b t s
  | .tsleep texp d p => Sys2Proof.Machine.execTsleep texp d p s
  | .tread d => Sys2Proof.Machine.execTread d s
  | .xstat d p => Sys2Proof.Machine.execXstat d p s
  | .tresync d => Sys2Proof.Machine.execTresync d s
  | .atom op ty d base off disp c => Sys2Proof.Machine.execAtom op ty d base off disp c s
  | .red op ty base off disp c => Sys2Proof.Machine.execRed op ty base off disp c s
  | .acq texp d a b => Sys2Proof.Machine.execAcq texp d a b s
  | .rel a => Sys2Proof.Machine.execRel a s
  | .wait texp d a b => Sys2Proof.Machine.execWait texp d a b s
  | .bind a b t => Sys2Proof.Machine.execBind a b t s
  | .barSync texp d exr => Sys2Proof.Machine.execBarSync texp d exr s
  | .barArv r => Sys2Proof.Machine.execBarArv r s
  | .barArvRlx r => Sys2Proof.Machine.execBarArvRlx r s
  | .barWait texp d exr => Sys2Proof.Machine.execBarWait texp d exr s
  | .sndPush texp d a b => Sys2Proof.Machine.execSndPush texp d a b s
  | .sndPop texp d a => Sys2Proof.Machine.execSndPop texp d a s
  | .sndPeek d a => Sys2Proof.Machine.execSndPeek d a s
  | .sndCfg a b => Sys2Proof.Machine.execSndCfg a b s
  | .fence sc => Sys2Proof.Machine.execFence sc s
  | .xfence q1 q2 => Sys2Proof.Machine.execXfence q1 q2 s
  | .cwait texp d a => Sys2Proof.Machine.execCwait texp d a s
  | .cnext a => Sys2Proof.Machine.execCnext a s
  | .cstat d a => Sys2Proof.Machine.execCstat d a s
  | .launch late d a b => Sys2Proof.Machine.execLaunch late d a b s
  | .lwait texp d a => Sys2Proof.Machine.execLwait texp d a s
  | .lstat d a => Sys2Proof.Machine.execLstat d a s
  | .lcancel d a => Sys2Proof.Machine.execLcancel d a s
  | .fmtq slot d => Sys2Proof.Machine.execFmtq slot d s
  | .trap code => Sys2Proof.Machine.execTrap code s
  | .tret => Sys2Proof.Machine.execTret s
  | .sysrd d srn => Sys2Proof.Machine.execSysrd d srn s
  | .syswr a srn => Sys2Proof.Machine.execSyswr a srn s
  | .tinfo item d => Sys2Proof.Machine.execTinfo item d s
  | .tkillGroup => Sys2Proof.Machine.execTkillGroup s
  | .tkillCtb => Sys2Proof.Machine.execTkillCtb s
  | .hread d w => Sys2Proof.Machine.execHread d w s
  | .hwrite a w => Sys2Proof.Machine.execHwrite a w s
  | .hstepLane d a => Sys2Proof.Machine.execHstepLane d a s
  | .hstepCursor d a => Sys2Proof.Machine.execHstepCursor d a s
  | .hgo a => Sys2Proof.Machine.execHgo a s
  | .bcnArm a b w => Sys2Proof.Machine.execBcnArm a b w s
  | .bcnOff n => Sys2Proof.Machine.execBcnOff n s
  | .emit a => Sys2Proof.Machine.execEmit a s
  | .traceDrain q => Sys2Proof.Machine.execTraceDrain q s
  | .stepCountReached row slot group => Sys2Proof.Machine.execStepCountReached row slot group s
  | .trapEntry row slot => Sys2Proof.Machine.execTrapEntry row slot s
  | .ctbAbnormalEnd row slot col st => Sys2Proof.Machine.execCtbAbnormalEnd row slot col st s
  | .dump row slot col => Sys2Proof.Machine.execDump row slot col s
  | .uncorrectableCoreFault row slot col => Sys2Proof.Machine.execUncorrectableCoreFault row slot col s
  | .deviceReplay launch => Sys2Proof.Machine.execDeviceReplay launch s
  | .validationSpanEnd launch => Sys2Proof.Machine.execValidationSpanEnd launch s
  | .translationFillDone launch => Sys2Proof.Machine.execTranslationFillDone launch s
  | .preparationPromiseMet launch => Sys2Proof.Machine.execPreparationPromiseMet launch s
  | .launchStart launch => Sys2Proof.Machine.execLaunchStart launch s
  | .launchLate launch => Sys2Proof.Machine.execLaunchLate launch s
  | .cancelFire launch => Sys2Proof.Machine.execCancelFire launch s
  | .writebackStart launch lin => Sys2Proof.Machine.execWritebackStart launch lin s
  | .launchComplete launch => Sys2Proof.Machine.execLaunchComplete launch s
  | .ctbSave row slot => Sys2Proof.Machine.execCtbSave row slot s
  | .ctbRestore row slot => Sys2Proof.Machine.execCtbRestore row slot s
  | .dramSlotAccess x gr => Sys2Proof.Machine.execDramSlotAccess x gr s
  | .granuleLanding x gr => Sys2Proof.Machine.execGranuleLanding x gr s
  | .dramWriteCommit x gr => Sys2Proof.Machine.execDramWriteCommit x gr s
  | .eccFailure x gr => Sys2Proof.Machine.execEccFailure x gr s
  | .dramRetry x gr => Sys2Proof.Machine.execDramRetry x gr s
  | .granuleRetryFrame x gr => Sys2Proof.Machine.execGranuleRetryFrame x gr s
  | .engineRequestRetry q => Sys2Proof.Machine.execEngineRequestRetry q s
  | .gatherBatch x => Sys2Proof.Machine.execGatherBatch x s
  | .stagedCombine fire => Sys2Proof.Machine.execStagedCombine fire s
  | .readinessSample row slot => Sys2Proof.Machine.execReadinessSample row slot s
  | .waitDecision row slot group => Sys2Proof.Machine.execWaitDecision row slot group s
  | .waitTimeout row slot group => Sys2Proof.Machine.execWaitTimeout row slot group s
  | .bankMarkFailed q group bank => Sys2Proof.Machine.execBankMarkFailed q group bank s
  | .droopSuppress region beats => Sys2Proof.Machine.execDroopSuppress region beats s
  | .scheduleFault cause => Sys2Proof.Machine.execScheduleFault cause s
  | .tideCorrection offset => Sys2Proof.Machine.execTideCorrection offset s
  | .skewGuard link => Sys2Proof.Machine.execSkewGuard link s
  | .flitSend link slot => Sys2Proof.Machine.execFlitSend link slot s
  | .flitReceive link slot payload flags crcOk => Sys2Proof.Machine.execFlitReceive link slot payload flags crcOk s
  | .flitResend link slot => Sys2Proof.Machine.execFlitResend link slot s
  | .linkDown link => Sys2Proof.Machine.execLinkDown link s
  | .collectiveCombine rdx chunk => Sys2Proof.Machine.execCollectiveCombine rdx chunk s
  | .resultCommit rdx chunk => Sys2Proof.Machine.execResultCommit rdx chunk s
  | .rowReferenceLoss region => Sys2Proof.Machine.execRowReferenceLoss region s
  | .dieReferenceLoss die => Sys2Proof.Machine.execDieReferenceLoss die s
  | .uncoreSupplyLow die => Sys2Proof.Machine.execUncoreSupplyLow die s
  | .junctionWarning tj => Sys2Proof.Machine.execJunctionWarning tj s
  | .powerWarning power => Sys2Proof.Machine.execPowerWarning power s
  | .launchCmd record start late entry => Sys2Proof.Machine.execLaunchCmd record start late entry s
  | .lquery handle => Sys2Proof.Machine.execLquery handle s
  | .cancel handle => Sys2Proof.Machine.execCancel handle s
  | .regrd num q => Sys2Proof.Machine.execRegrd num q s
  | .objset obj count => Sys2Proof.Machine.execObjset obj count s
  | .debug launch lin op word value => Sys2Proof.Machine.execDebug launch lin op word value s
  | .retire n => Sys2Proof.Machine.execRetire n s
  | .regwr num q value => Sys2Proof.Machine.execRegwr num q value s
  | .descriptorArm rdx => Sys2Proof.Machine.execDescriptorArm rdx s
  | .descriptorBreak rdx => Sys2Proof.Machine.execDescriptorBreak rdx s
  | .ttepochWrite value => Sys2Proof.Machine.execTtepochWrite value s
  | .schedcfgWrite value => Sys2Proof.Machine.execSchedcfgWrite value s
  | .detcfgWrite value => Sys2Proof.Machine.execDetcfgWrite value s
  | .bankmapWrite q word value => Sys2Proof.Machine.execBankmapWrite q word value s
  | .dbgtokWrite value => Sys2Proof.Machine.execDbgtokWrite value s
  | .hltbaseWrite value => Sys2Proof.Machine.execHltbaseWrite value s
  | .registerWrite num q value => Sys2Proof.Machine.execRegisterWrite num q value s
  | .idleIssueSlot q beats => Sys2Proof.Machine.execIdleIssueSlot q beats s
  | .quantumBoundary => Sys2Proof.Machine.execQuantumBoundary s
  | .slackWater => Sys2Proof.Machine.execSlackWater s
  | .resynchronisation => Sys2Proof.Machine.execResynchronisation s
  | .resyncResume => Sys2Proof.Machine.execResyncResume s
  | .tideTableAdopt => Sys2Proof.Machine.execTideTableAdopt s
  | .thermalTrip => Sys2Proof.Machine.execThermalTrip s
  | .powerTrip => Sys2Proof.Machine.execPowerTrip s
  | .boot => Sys2Proof.Machine.execBoot s
  | .handover => Sys2Proof.Machine.execHandover s
  | .lockInterfaceRequest => Sys2Proof.Machine.execLockInterfaceRequest s
  | .startInterfaceRequest => Sys2Proof.Machine.execStartInterfaceRequest s
  | .stopInterfaceRequest => Sys2Proof.Machine.execStopInterfaceRequest s
  | .keyExchange => Sys2Proof.Machine.execKeyExchange s
  | .measurements => Sys2Proof.Machine.execMeasurements s
  | .hostFlitTagFail => Sys2Proof.Machine.execHostFlitTagFail s
  | .scrubComplete => Sys2Proof.Machine.execScrubComplete s

end Sys2Proof.Machine
end

