-- ==== Sys2Proof/Machine/Step.lean ====
section
/-! DEFINITION. The step, and the machine with an instruction placed where its next step fetches. -/
namespace Sys2Proof.Machine

/-- One step of the device (notes/assumptions/6). -/
def step (s : State) : Host.Outcome State Fault Refusal := s.tick exec

/-- The machine with the instruction whose bits are `w` placed as the first of a running launch
(notes/assumptions/5): the next step fetches and executes it. -/
def State.withFetchWord (s : State) (nbits w : Nat) : State :=
  s.place true (toBytes 16 (w % 2 ^ nbits))

end Sys2Proof.Machine
end

