-- ==== Sys2Proof/Safety.lean ====
section
/-! DEFINITION. What counts as a safe state and a safe run, in the terms the statements use. -/
namespace Sys2Proof.Machine

/-- The canonical form of a memory: addresses strictly rising, no entry equal to what an unlisted address reads as. -/
abbrev Memory.wf (m : Memory) : Bool := memWf m

/-- Every memory that the state holds directly has the canonical form. -/
def State.memsWf (s : State) : Bool := Memory.wf s.dram && s.cores.all (fun c => Memory.wf c.2.scratch)

/-- A step goes on: it neither faults nor is refused. -/
def goesOn (o : Host.Outcome State Fault Refusal) : Bool :=
  match o with
  | .next _ => true
  | _ => false

/-! ### An instruction that runs to its end -/

/-- A group of the device. -/
def State.grpAt (s : State) (row slot col g : Nat) : Option Group := (s.ctb? row slot col).bind (fun c => c.group? g)

/-- The group of an executing position, as a later state holds it. -/
def State.mine (s : State) (h : Here) : Option Group := s.grpAt h.cur.row h.cur.slot h.cur.col h.cur.grp

/-- The values that the lanes read from the sources of an instruction (02 R46). -/
def State.srcs (s : State) (h : Here) (ops : List Opnd) (k : Nat) : List DWord :=
  ops.map (fun o => o.val h (s.readStreams h (streamsOf ops)).1 k)

/-- No beacon sees the executing position (15 R407): a handler runs, or none of its core is armed, or acts where their hits are
counted already, and an interrupted part of the instruction owes nothing (15 R408). -/
def Quiet (s : State) (h : Here) : Prop :=
  h.cur.handler = true ∨ h.grp.halting = none ∧ match s.bcnMode h with
    | .planned acts => acts = []
    | _ => ∀ b ∈ (s.core h.q).bcnctl, b.getLsbD 31 = false

/-- No check stops an instruction with these sources and destination names before its lanes run (02 R72), its latches are
valid (02 R65), it starts at its first lane, and no beacon sees it. -/
def Runs (s : State) (h : Here) (ops : List Opnd) (dst : List Nat) : Prop :=
  s.here = some h ∧ h.grp.cursor = 0 ∧ h.cur.only = none ∧ h.undef ops = none ∧
    (h.grp.allocates (ops.flatMap Opnd.frees) dst = true → h.grp.wouldHold (ops.flatMap Opnd.frees) dst ≤ h.limit) ∧
    s.streamChecks h (streamsOf ops) = none ∧ (∀ k ∈ h.lanes, ∀ o ∈ ops, o.latchLost h k = none) ∧ Quiet s h

/-- Every memory reads the same. -/
def SameMem (s t : State) : Prop :=
  (∀ a, rd t.dram a = rd s.dram a) ∧ ∀ q a, rd (t.core q).scratch a = rd (s.core q).scratch a

/-- A core apart from its counts of corrections (07 R217, R219). -/
def Core.uncounted (c : Core) : Core := { c with scrcnt := 0, corr := [] }

/-- Reads of scratch change nothing but the counts of corrections that they make, the bank marks that these lead to, and the
count of free values that they take. -/
def Counted (s t : State) : Prop :=
  t = { s with cores := t.cores, free := t.free, agenda := t.agenda, bumped := t.bumped } ∧ ∀ q, (t.core q).uncounted = (s.core q).uncounted

/-- `t` is `s` with the executing group changed, and nothing else but what reads count: no other group, no register of the
headland, no special register, no memory. -/
def OnlyGroup (s t : State) (h : Here) (g : Group) : Prop :=
  ∃ (u : State) (f : Group → Group), Counted s u ∧ t = u.modG h f ∧ f h.grp = g

/-- A group apart from its vector registers, results in flight, number-format flags, streams, lane cursor and the writes
that it has seen. -/
def Group.bare (g : Group) : Group := { g with vregs := [], pend := [], iflags := 0, sd := [], cursor := 0, seen := [] }

/-- Reads add to what a group has seen the unseen writes that they delivered to it, and nothing else (12 R332). -/
def SeenMore (g0 g : Group) : Prop := ∃ l, g.seen = l ++ g0.seen ∧ ∀ v ∈ l, v.own = true

/-- What the sources of an instruction with destination names `dst` do to its group, and what it leaves: the streams that it
names advance (02 R50) and may deliver unseen writes, the sources it reads last are freed (02 R60), and every other register
name holds what it held. -/
def SourcesDone (g0 g : Group) (ops : List Opnd) (dst : List Nat) : Prop :=
  SeenMore g0 g ∧ (streamsOf ops = [] → g.seen = g0.seen) ∧
  g.sd = (streamsOf ops).foldl (fun l n => modAt l n.toNat Stream.advance) g0.sd ∧
    (∀ n, n ∉ dst → n ∉ ops.flatMap Opnd.frees → g.vreg? n = g0.vreg? n) ∧
    (∀ n, n ∉ dst → n ∈ ops.flatMap Opnd.frees → g.vreg? n = none)

/-- The result in flight of an instruction (02 R52, R66): due `n` positions on, in every lane that ran. -/
def InFlight (h : Here) (g : Group) (d : Dst) (w64 : Bool) (n : Nat) (val : Nat → DWord) (fl : Word) : Prop :=
  h.lanes ≠ [] ∨ dstReg d ≠ none → ∃ p, g.pend.getLast? = some p ∧ p.due = h.rg.pos + n ∧ p.run = h.reach.run ∧
    p.reg = dstReg d ∧ p.w64 = w64 ∧ p.latch = some (dstLatch d) ∧ p.dead = [] ∧ p.item = 0 ∧ p.flags = fl ∧
    (∀ k, k < 32 → bit p.lanes k = h.lanes.contains k) ∧ ∀ k ∈ h.lanes, laneOf p.vals k = val k

/-- An instruction of class V or V2 ran to its end without a fault: its result `val` is in flight, landing `n` positions on;
the flags `fl` are set at once when `n` is 1, else they land with the result; its sources are done; all else is as before. -/
def Delivers (s t : State) (h : Here) (ops : List Opnd) (d : Dst) (w64 : Bool) (n : Nat) (val : Nat → DWord)
    (fl : Word) : Prop :=
  t.faults = s.faults ∧ SameMem s t ∧ ∃ g, t.mine h = some g ∧ OnlyGroup s t h g ∧ g.bare = h.grp.bare ∧ g.cursor = 32 ∧
    g.iflags = (if n = 1 then h.grp.iflags ||| fl else h.grp.iflags) ∧ SourcesDone h.grp g ops (dstNames d w64) ∧
    InFlight h g d w64 n val (if n = 1 then 0 else fl)

/-- A group-wide instruction ran to its end: its result is in flight to the active lanes; with no lane active it writes nothing
and sets no flag (06 R203). -/
def DeliversWide (s t : State) (h : Here) (ops : List Opnd) (d : Dst) (w64 : Bool) (n : Nat) (val : Nat → DWord)
    (fl : Word) : Prop :=
  if h.lanes = [] then
    t.faults = s.faults ∧ SameMem s t ∧ ∃ g, t.mine h = some g ∧ OnlyGroup s t h g ∧ g.bare = h.grp.bare ∧ g.cursor = 32 ∧
      g.iflags = h.grp.iflags ∧ g.pend = h.grp.pend ∧ SourcesDone h.grp g ops []
  else Delivers s t h ops d w64 n val fl

/-- Instruction `i` with sources `ops` runs to its end in every state where no check stops it and `ok` holds: every active
lane k gets `f` of its source values, landing `n` positions on, and the flags `fl` of them are set. -/
def LaneInstr (i : Instr) (ops : List Opnd) (d : Dst) (w64 : Bool) (n : Nat) (ok : State → Here → Prop)
    (f : Here → Nat → List DWord → DWord) (fl : Here → Nat → List DWord → Word) : Prop :=
  ∀ s h, Runs s h ops (dstNames d w64) → ok s h → ∃ t, exec i s = .next t ∧
    Delivers s t h ops d w64 n (fun k => f h k (s.srcs h ops k))
      (h.lanes.foldl (fun x k => x ||| fl h k (s.srcs h ops k)) 0)

/-- Always. -/
def Always (_ : State) (_ : Here) : Prop := True

/-- A lane operation that lands at +1 and sets no flag. -/
def Lane1 (i : Instr) (ops : List Opnd) (d : Dst) (w64 : Bool) (f : List DWord → DWord) : Prop :=
  LaneInstr i ops d w64 1 Always (fun _ _ v => f v) (fun _ _ _ => 0)

/-- A lane operation that lands at +1 and sets flags. -/
def Lane1F (i : Instr) (ops : List Opnd) (d : Dst) (w64 : Bool) (f : List DWord → DWord) (fl : List DWord → Word) : Prop :=
  LaneInstr i ops d w64 1 Always (fun _ _ v => f v) (fun _ _ v => fl v)

/-- A lane operation whose result in each lane stands in relation `R` to its source values and flags. -/
def Lane1R (i : Instr) (ops : List Opnd) (d : Dst) (w64 : Bool) (R : List DWord → DWord → Word → Prop) : Prop :=
  ∃ f fl, Lane1F i ops d w64 f fl ∧ ∀ v, R v (f v) (fl v)

/-- An instruction as `LaneInstr`, whose result and flags in each lane stand in relation `R` to its source values. -/
def LaneR (i : Instr) (ops : List Opnd) (d : Dst) (w64 : Bool) (n : Nat) (ok : State → Here → Prop)
    (R : Here → Nat → List DWord → DWord → Word → Prop) : Prop :=
  ∃ f fl, LaneInstr i ops d w64 n ok f fl ∧ ∀ h k v, R h k v (f h k v) (fl h k v)

/-- A lane operation with a mask for its destination (05 R150): bit k is `p` in each active lane and 0 in every other; the
flags `fl` are set; every other mask register is as before. -/
def MaskInstr (i : Instr) (ops : List Opnd) (d : BitVec 4) (p : Here → List DWord → Bool) (fl : List DWord → Word) : Prop :=
  ∀ s h, Runs s h ops [] → ∃ t g, exec i s = .next t ∧ t.faults = s.faults ∧ SameMem s t ∧ t.mine h = some g ∧
    OnlyGroup s t h g ∧ { g.bare with m := [] } = { h.grp.bare with m := [] } ∧ g.cursor = 32 ∧
    g.iflags = h.grp.iflags ||| h.lanes.foldl (fun x k => x ||| fl (s.srcs h ops k)) 0 ∧ SourcesDone h.grp g ops [] ∧
    (∀ n, n ≠ d.toNat → g.m.getD n 0 = h.grp.m.getD n 0) ∧
    (d.toNat < h.grp.m.length → ∀ k, k < 32 → bit (g.m.getD d.toNat 0) k = (h.lanes.contains k && p h (s.srcs h ops k)))

/-- An instruction of the headland (04 R127) runs to its end in every state where a position executes and `ok` holds: it
changes the registers of its reach group by `f`, and nothing else. -/
def HeadInstr (i : Instr) (ok : State → Here → Prop) (f : State → Here → RGroup → RGroup) : Prop :=
  ∀ s h, s.here = some h → ok s h → ∃ t, exec i s = .next t ∧ t = s.modRG h (f s h) ∧
    t.here.map (fun x => x.rg) = some (f s h h.rg) ∧ t.faults = s.faults ∧ SameMem s t

/-- An instruction of a core runs to its end in every state where a position executes and `ok` holds: it changes the
executing group by `f`, and nothing else. -/
def GroupInstr (i : Instr) (ok : State → Here → Prop) (f : Here → Group → Group) : Prop :=
  ∀ s h, s.here = some h → ok s h → ∃ t, exec i s = .next t ∧ t = s.modG h (fun g => { f h g with cursor := 32 }) ∧
    t.mine h = some { f h h.grp with cursor := 32 } ∧ t.faults = s.faults ∧ SameMem s t

/-- An instruction with a part at the headland, done at the first column that executes it (04 R127), and one on each core:
it runs to its end in every state where a position executes and, at the headland, `ok` holds. -/
def BothInstr (i : Instr) (ok : State → Here → Prop) (f : State → Here → RGroup → RGroup) (g : State → Here → Group → Group) :
    Prop :=
  ∀ s h, s.here = some h → (h.cur.head = true → ok s h) → ∃ t, exec i s = .next t ∧
    t = (if h.cur.head then s.modRG h (f s h) else s).modG h (fun x => { g s h x with cursor := 32 }) ∧
    t.mine h = some { g s h h.grp with cursor := 32 } ∧
    t.here.map (fun x => x.rg) = some (if h.cur.head then f s h h.rg else h.rg) ∧ t.faults = s.faults ∧ SameMem s t

/-- An instruction that the headland refuses (04 R131, 02 R40): reach-wide, with cause and address; no other effect but that
the position is executed on no further core. -/
def RefusedWide (i : Instr) (ok : State → Here → Prop) (cause : Nat) (addr : Here → DWord) : Prop :=
  ∀ s h, s.here = some h → ok s h → exec i s = .next (s.raiseWide h cause (addr h))

/-- `t` is `s` with the executing group now `g` and the registers of its reach group now `rg`, and nothing else changed. -/
def OnlyHere (s t : State) (h : Here) (g : Group) (rg : RGroup) : Prop :=
  ∃ (f : Group → Group) (k : RGroup → RGroup), t = (s.modRG h k).modG h f ∧ f h.grp = g ∧ k h.rg = rg ∧
    t.mine h = some g ∧ t.here.map (fun x => x.rg) = some rg ∧ SameMem s t

/-- A core apart from what a store to its scratch changes: the bytes, the words that older views may still read, the trace and
the counts of corrections. -/
def Core.besides (c : Core) : Core :=
  { c with scratch := [], fresh := [], fifo := [], scrcnt := 0, corr := [] }

/-- `t` is `s` with the executing group now `g` and the bytes of `ws`, as (core, physical address, bytes), stored in turn:
nothing else changes but the trace of watched words and what reads count. -/
def Stores (s t : State) (h : Here) (g : Group) (ws : List (Nat × Nat × List Byte)) : Prop :=
  t.mine h = some g ∧ (∃ f : Group → Group, f h.grp = g ∧ t.reaches = (s.modG h f).reaches) ∧
    ({ t with reaches := [], cores := [], agenda := [], free := 0, wseq := 0, bumped := [], regs := { t.regs with trloss := 0 } } : State) =
      { s with reaches := [], cores := [], agenda := [], free := 0, wseq := 0, bumped := [], regs := { s.regs with trloss := 0 } } ∧
    (∀ q, (t.core q).besides = (s.core q).besides) ∧
    ∀ q, (t.core q).scratch = ws.foldl (fun m w => if w.1 = q then wrN m w.2.1 w.2.2 else m) (s.core q).scratch

/-- A store of lanes ran to its end: its sources are done, and the bytes of `ws` are stored. -/
def StoresLanes (s t : State) (h : Here) (ops : List Opnd) (ws : List (Nat × Nat × List Byte)) : Prop :=
  ∃ g, Stores s t h g ws ∧ g.bare = h.grp.bare ∧ g.cursor = 32 ∧
    g.iflags = h.grp.iflags ∧ SourcesDone h.grp g ops []

/-- Every byte outside those that the lanes `ks` store, `n` at the place `pl` of each, reads as before. -/
def OutsideSame (s t : State) (ks : List Nat) (pl : Nat → Nat × Nat) (n : Nat) : Prop :=
  (∀ a, rd t.dram a = rd s.dram a) ∧ ∀ q a, Memory.wf (s.core q).scratch = true →
    (∀ k ∈ ks, ¬ ((pl k).1 = q ∧ (pl k).2 ≤ a ∧ a < (pl k).2 + n)) → rd (t.core q).scratch a = rd (s.core q).scratch a

/-- Some of the `n` bytes at a place have been written by a write that the view of the executing group does not hold, and that
is not one of the vector path (12 R329, R332). -/
def unseenAt (s : State) (h : Here) (q a n : Nat) : Bool :=
  (s.core q).fresh.any (fun f => f.addr == 8 * (a / 8) && (decide (s.wseq ≤ f.stamp) ||
    (List.range n).any (fun i => !(f.path == 0 || sees h.grp.seen f.by_ f.stamp (some q) (a + i)))))

/-- `t` is `s` with the executing group now `g`, its CTB changed by `c` besides, and the engine items of `its`, as
(operation, cost in array beats), at the end of the queue of the executing slot; nothing else changes (08 R253). -/
def Queues (s t : State) (h : Here) (its : List (ItemOp × Nat)) (g : Group) (c : Ctb → Ctb) : Prop :=
  let m := (s.core h.q).mx
  let n := (t.core h.q).mx
  t.faults = s.faults ∧ SameMem s t ∧ t.mine h = some g ∧
    (∃ f : Group → Group, f h.grp = g ∧ t.reaches = ((s.modC h c).modG h f).reaches) ∧
    ({ t with reaches := [], cores := [], nextId := 0 } : State) = { s with reaches := [], cores := [], nextId := 0 } ∧
    (∀ q, q ≠ h.q → t.core q = s.core q) ∧ ({ t.core h.q with mx := m } : Core) = s.core h.q ∧
    { n with queues := [] } = { m with queues := [] } ∧ (∀ i, i ≠ h.cur.slot → n.queue i = m.queue i) ∧
    ∃ new : List Item, (n.queue h.cur.slot).items = (m.queue h.cur.slot).items ++ new ∧
      new.map (fun i => (i.op, i.cost)) = its ∧
      ∀ i ∈ new, i.grp = h.cur.grp ∧ i.pos = h.rg.pos ∧ i.run = h.reach.run ∧ i.pc = h.cur.pc ∧ i.sched = false

/-- An instruction of the matrix class queues its item, without any other effect, in every state where a position executes and
`ok` holds. -/
def QueuesItem (i : Instr) (ok : State → Here → Prop) (it : Here → ItemOp × Nat) : Prop :=
  ∀ s h, s.here = some h → ok s h → ∃ t, exec i s = .next t ∧ Queues s t h [it h] { h.grp with cursor := 32 } id

/-! ### Real numbers of the number formats (06) -/

/-- The number that a finite value stands for. -/
def FVal.rat : FVal → ℚ
  | .fin n m e => (if n then -1 else 1) * m * 2 ^ e
  | _ => 0

/-- A value is a number. -/
def FVal.finite : FVal → Bool
  | .fin _ _ _ => true
  | _ => false

/-- A number rounded to an integer in a mode (02 Table 2.10); in nearest-even a tie goes to the candidate q with q + o even. -/
def ratRound (rm : RM) (o : Int) (x : ℚ) : Int :=
  let q := ⌊x⌋
  let d := x - q
  match rm with
  | .rne => if d < 1 / 2 ∨ (d = 1 / 2 ∧ (q + o) % 2 = 0) then q else q + 1
  | .rna => if d < 1 / 2 ∨ (d = 1 / 2 ∧ x < 0) then q else q + 1
  | .rtz => if x < 0 then ⌈x⌉ else q
  | .rup => ⌈x⌉
  | .rdn => q

/-- `y` is x rounded to the significands of a grid, as if the exponent range were unbounded above, and `tiny` says that x is
tiny after rounding (06 R177, R181): u is the exponent of the last place, v the one it would be with no least exponent. -/
def OnGrid (g : Grid) (rm : RM) (x y : ℚ) (tiny : Prop) : Prop :=
  ∃ u v : Int, 2 ^ (v + g.t) ≤ |x| ∧ |x| < 2 ^ (v + g.t + 1) ∧ u = max v g.umin ∧
    y = ratRound rm ((u - g.umin) * 2 ^ g.t) (x / 2 ^ u) * 2 ^ u ∧
    (tiny ↔ |(ratRound rm ((v - g.umin) * 2 ^ g.t) (x / 2 ^ v) : ℚ) * 2 ^ v| < 2 ^ (1 - g.bias))

/-- The flags of a rounding of x to y (06 Table 6.2). -/
def RoundFlags (x y : ℚ) (tiny : Prop) (fl : Word) : Prop :=
  (y = x → fl = 0) ∧ (y ≠ x → tiny → fl = fINX ||| fUNF) ∧ (y ≠ x → ¬ tiny → fl = fINX)

/-- The overflow rule of IEEE 754-2019: the mode delivers an infinity of that sign, not the greatest finite value. -/
def overInf (rm : RM) (neg : Bool) : Bool := rm == .rne || rm == .rna || (rm == .rup && !neg) || (rm == .rdn && neg)

/-- 06 R177: r is the pattern and the flags of Round(x, f, rm), for x other than 0. -/
def RoundsTo (f : Ieee) (rm : RM) (x : ℚ) (r : Nat × Word) : Prop :=
  ∃ y tiny, OnGrid f.g rm x y tiny ∧ r.1 < 2 ^ f.w ∧ f.neg r.1 = decide (x < 0) ∧
    (|y| ≤ (f.val (f.infCode - 1)).rat → (f.val r.1).finite = true ∧ (f.val r.1).rat = y ∧ RoundFlags x y tiny r.2) ∧
    ((f.val (f.infCode - 1)).rat < |y| → r.2 = fOVF ||| fINX ∧
      f.low r.1 = if overInf rm (decide (x < 0)) then f.infCode else f.infCode - 1)

/-- Round(x, f, rm) with the sign of an exact zero. -/
def RoundsToZ (f : Ieee) (rm : RM) (x : ℚ) (neg : Bool) (r : Nat × Word) : Prop :=
  (x = 0 → r = (f.withSign neg 0, 0)) ∧ (x ≠ 0 → RoundsTo f rm x r)

/-- 06 R178 rule 1, R190: r is NaNOut of operands one of which is a NaN. -/
def NaNOut (f : Ieee) (l : List Nat) (r : Nat × Word) : Prop :=
  ∃ a ∈ l, l.find? f.isNaN = some a ∧ r = (f.quiet a, if l.any f.isSNaN then fINV else 0)

/-- 06 R190: r is the sum of a product value (`none`: an invalid one) and a value, none of them a NaN, with the sign `neg`
of the product. -/
def SumsTo (f : Ieee) (rm : RM) (p : Option FVal) (neg : Bool) (c : Nat) (r : Nat × Word) : Prop :=
  match p, f.val c with
  | none, _ => r = (f.dNaN, fINV)
  | some (.inf n), .inf m => r = if n = m then (f.withSign n f.infCode, 0) else (f.dNaN, fINV)
  | some (.inf n), _ => r = (f.withSign n f.infCode, 0)
  | _, .inf m => r = (f.withSign m f.infCode, 0)
  | some x, y => RoundsToZ f rm (x.rat + y.rat) (if neg = f.neg c then neg else rm == .rdn) r

/-- 06 R190: the operands of a product: one of them 0 and the other infinite is invalid. -/
def Multiplies (f : Ieee) (a b : Nat) (p : Option FVal) : Prop :=
  match f.val a, f.val b with
  | .inf n, .inf m => p = some (.inf (n != m))
  | .inf n, y => if y.rat = 0 then p = none else p = some (.inf (n != f.neg b))
  | x, .inf m => if x.rat = 0 then p = none else p = some (.inf (f.neg a != m))
  | x, y => ∃ n k e, p = some (.fin n k e) ∧ (FVal.fin n k e).rat = x.rat * y.rat

/-- An element-wise operation (06 R189): each element of the result, with its flags, stands in relation `R` to the elements
of the sources, in the format of the type. -/
def EltR (ty : FltTy) (R : Ieee → List Nat → Nat × Word → Prop) (v : List DWord) (y : DWord) (fl : Word) : Prop :=
  let at16 (p : Nat) : List Nat := v.map (fun x => (x.extractLsb' p 16).toNat)
  let two (f : Ieee) : Prop := ∃ r0 r1 : Nat × Word, R f (at16 0) r0 ∧ R f (at16 16) r1 ∧ r0.1 < 2 ^ 16 ∧ r1.1 < 2 ^ 16 ∧
    y = BitVec.ofNat 64 (r0.1 + 2 ^ 16 * r1.1) ∧ fl = r0.2 ||| r1.2
  match ty with
  | .f32 => ∃ r : Nat × Word, R fp32 (v.map (fun x => (lo32 x).toNat)) r ∧ r.1 < 2 ^ 32 ∧ y = BitVec.ofNat 64 r.1 ∧ fl = r.2
  | .f16x2 => two fp16
  | .bf16x2 => two Machine.bf16

/-- TotalLess (02 Table 2.24): by sign, then by magnitude pattern. -/
def TotalLess (f : Ieee) (a b : Nat) : Prop :=
  if f.neg a = f.neg b then (if f.neg a then f.low b < f.low a else f.low a < f.low b) else f.neg a = true

/-- 06 R198, R178 rule 3: r is the pattern c moved from a format to another. -/
def Converts (src dst : Ieee) (rm : RM) (c : Nat) (r : Nat × Word) : Prop :=
  match src.val c with
  | .nan => r.2 = (if src.isSNaN c then fINV else 0) ∧ dst.isNaN r.1 = true ∧ dst.neg r.1 = src.neg c ∧
      r.1 < 2 ^ dst.w ∧ r.1.testBit (dst.g.t - 1) = true ∧ (∀ k, k < src.g.t - 1 → k < dst.g.t - 1 →
        r.1.testBit (dst.g.t - 2 - k) = c.testBit (src.g.t - 2 - k)) ∧ ∀ k, k + src.g.t < dst.g.t → r.1.testBit k = false
  | .inf n => r = (dst.withSign n dst.infCode, 0)
  | x => RoundsToZ dst rm x.rat (src.neg c) r

/-- The code that an overflow of a small format delivers (06 R181 step 4). -/
def Mini.overflow (f : Mini) (sat : Bool) (rm : RM) (neg : Bool) : Nat :=
  if sat || !overInf rm neg then f.maxc + (if neg then f.sign else 0) else ((if neg then f.infn else f.infp).getD f.nan)

/-- 06 R181: r is the code of a small format and the flags of Round(x, F, rm), for a number x. -/
def MiniRounds (f : Mini) (sat : Bool) (rm : RM) (x : ℚ) (r : Nat × Word) : Prop :=
  (x = 0 → r = (0, 0)) ∧ (x ≠ 0 → ∃ z tiny, OnGrid f.g rm x z tiny ∧
    (z = 0 → r.1 = 0 ∧ RoundFlags x z tiny r.2) ∧
    (z ≠ 0 → f.sign = 0 ∧ x < 0 → r.1 = (if sat then 0 else f.nan) ∧ r.2 &&& (fINV ||| fINX) = fINV ||| fINX ∧
      ((f.val f.maxc).rat < |z| → r.2 &&& fOVF = fOVF)) ∧
    (z ≠ 0 → ¬ (f.sign = 0 ∧ x < 0) → |z| ≤ (f.val f.maxc).rat →
      (f.val r.1).finite = true ∧ (f.val r.1).rat = z ∧ RoundFlags x z tiny r.2) ∧
    (¬ (f.sign = 0 ∧ x < 0) → (f.val f.maxc).rat < |z| → r = (f.overflow sat rm (decide (x < 0)), fOVF ||| fINX)))

/-- 06 R181: the same for an infinity. -/
def MiniInf (f : Mini) (sat : Bool) (rm : RM) (neg : Bool) (r : Nat × Word) : Prop :=
  if f.sign = 0 ∧ neg = true then r.1 = (if sat then 0 else f.nan)
  else match (if neg then f.infn else f.infp) with
    | some c => r = (c, 0)
    | none => r.1 = f.overflow sat rm neg ∧ r.2 &&& fINV = fINV

/-- The sign of a value. -/
def FVal.neg : FVal → Bool
  | .fin n _ _ => n
  | .inf n => n
  | .nan => false

/-- 06 R202: r is the exact sum of products and an addend, none of them a NaN, rounded once to FP32. -/
def DotTo (rm : RM) (ps : List (FVal × FVal)) (c : FVal) (r : Nat × Word) : Prop :=
  let bad : Prop := ∃ p ∈ ps, (p.1.finite = false ∧ p.2.finite = true ∧ p.2.rat = 0) ∨ (p.2.finite = false ∧ p.1.finite = true ∧ p.1.rat = 0)
  let signs : List Bool := ps.map (fun p => p.1.neg != p.2.neg) ++ [c.neg]
  let infs : List Bool := (ps.filter (fun p => !(p.1.finite && p.2.finite))).map (fun p => p.1.neg != p.2.neg) ++
    (if c.finite then [] else [c.neg])
  (bad ∨ (true ∈ infs ∧ false ∈ infs) → r = (fp32.dNaN, fINV)) ∧
  (∀ n, ¬ bad → infs ≠ [] → (∀ m ∈ infs, m = n) → r = (fp32.withSign n fp32.infCode, 0)) ∧
  (infs = [] → RoundsToZ fp32 rm ((ps.map (fun p => p.1.rat * p.2.rat)).sum + c.rat)
    (if signs.contains false = false then true else if signs.contains true = false then false else rm == .rdn) r)

/-- The canonical tree (02 R84) over 2^n elements from i on, where absent elements drop out. -/
def tree {α : Type} (f : α → α → α) : Nat → Nat → (Nat → Option α) → Option α
  | 0, i, x => x i
  | n + 1, i, x => match tree f n i x, tree f n (i + 2 ^ n) x with
    | some a, some b => some (f a b)
    | some a, none => some a
    | none, b => b

/-! ### Transfers (10) and held waits (12) -/

/-- Two states agree in all but their reaches, cores, agenda and counters. -/
def SameBut (s t : State) : Prop :=
  ({ t with reaches := [], cores := [], agenda := [], nextId := 0, free := 0 } : State) =
    { s with reaches := [], cores := [], agenda := [], nextId := 0, free := 0 }

/-- 10 R290, R293: `x` is the first slot of pseudo-channel n, at or after tide e, that belongs to an owner and is not taken. -/
def FirstSlot (T : TideTable) (owner n e : Nat) (taken : List (Nat × Nat)) (x : Nat) : Prop :=
  let mine (y : Nat) : Prop := e ≤ y ∧ (n, y) ∉ taken ∧
    ∃ j, j < 396 ∧ y % 8192 = slotPhase n + 20 * j ∧ T.code (T.template y) n j = owner
  mine x ∧ ∀ y, mine y → x ≤ y

/-- 10 R295: the slots of granules offered by core q with A = a, each as (number, slot, landing): the first that is owned
and free, within a number of frames. -/
def Planned (T : TideTable) (q : Nat) (reads : Bool) (a floor frames : Nat) : List Nat → List (Nat × Nat) → List (Nat × Nat × Nat) → Prop
  | [], _, l => l = []
  | g :: gs, taken, l =>
    let n := channelOf (64 * g)
    let far := farFrom (q / 16) n
    let e := max (if reads then a else a + 256 + 48 * far) floor
    ∃ x rest, FirstSlot T (256 + q) n e taken x ∧ x < 8192 * (e / 8192 + frames) ∧
      l = (g, x, if reads then 8192 * (x / 8192) + 8000 + slotPhase n + 96 + 48 * far else x + 24) :: rest ∧
      Planned T q reads a floor frames gs ((n, x) :: taken) rest

/-- What a transfer instruction does when it is not refused by a fault: its p register holds `v`, the transfers `xs` are in
progress, and the position is complete; nothing else changes but the slots that they take and what is due. -/
def Issues (s t : State) (h : Here) (p : BitVec 3) (v : DWord) (track : Option Nat) (seen : List Seen) (xs : List Xfer) : Prop :=
  let g : Group := { h.grp.setP p.toNat v track with issuedX := h.grp.issuedX + 1, cursor := 32, seen := seen }
  t.mine h = some g ∧ t.faults = s.faults ∧ SameMem s t ∧ t.xfers = s.xfers ++ xs ∧
    (∃ f : Group → Group, f h.grp = g ∧ t.reaches = (s.modG h f).reaches) ∧
    SameBut { s with xfers := [], staged := [], fill := [] } { t with xfers := [], staged := [], fill := [] } ∧
    ∀ q, ({ t.core q with taken := [], takenAt := [] } : Core) = { s.core q with taken := [], takenAt := [] }

/-- A transfer is refused with a code (10 R294): only its p register says so. -/
def Refuses (s t : State) (h : Here) (p : BitVec 3) (code : Nat) : Prop :=
  Issues s t h p (0x8000000000000000 + BitVec.ofNat 64 code) none h.grp.seen [] ∧ t.cores = s.cores ∧ t.agenda = s.agenda ∧
    t.staged = s.staged ∧ t.fill = s.fill

/-- The access slots of planned granules, in schedule tides: those of a time-sliced row are where its timeline comes to the planned
ones (18 R453), those of another row the first that are free from the acceptance on (10 R295). -/
def Accessed (s : State) (h : Here) (T : TideTable) (x0 : Xfer) (nums : List Nat) (pl ac : List (Nat × Nat × Nat)) : Prop :=
  let taken := (s.core h.q).takenAt
  if s.sliced (h.q / 16) = true ∧ x0.preg ≠ none ∧ s.issuerOf x0 ≠ none then
    ∃ r l, s.issuerOf x0 = some (r, l) ∧ ac = pl.map (fun e => (e.1, max (s.fenceFloorAt h) (s.tideOf r l e.2.1), e.2.2))
  else Planned T h.q x0.kind.inbound x0.tide (s.fenceFloorAt h) ((T.ntmpl + 1) * (1 + taken.length + nums.length)) nums taken ac

/-- 10 R295: a run in state `s` offers the pieces `ps` of transfer `x0`, which `u` has made ready: a full queue refuses it with 2,
missing planned slots with 1; else its granules hold their slots, p their latest landing, and `more` holds of the transfer and the
state. -/
def OffersAt (run : Host.Outcome State Fault Refusal) (s u : State) (h : Here) (p : BitVec 3) (id : Nat) (x0 : Xfer) (ps : List Piece)
    (seen : List Seen) (more : Xfer → State → Prop) : Prop :=
  let nums := (ps.map (fun e => e.dram / 64)).eraseDups
  let c := s.core h.q
  let full : Prop := 256 ≤ s.xfers.countP (fun y => y.q == h.q && y.slot == h.cur.slot && y.kind.path == 1 &&
    decide (h.planned < y.promise))
  let free (T : TideTable) (pl : List (Nat × Nat × Nat)) : Prop :=
    Planned T h.q x0.kind.inbound (h.planned + 32) (s.fenceFloor h) (T.ntmpl + 1) nums c.taken pl
  (full → ∃ t, run = .next t ∧ Refuses s t h p 2) ∧
  (¬ full → (∀ T pl, s.tt = some T → ¬ free T pl) → ∃ t, run = .next t ∧ Refuses s t h p 1) ∧
  ∀ T pl ac, ¬ full → s.tt = some T → free T pl → Accessed s h T x0 nums pl ac → ∃ t x, run = .next t ∧
    Issues u t h p (BitVec.ofNat 64 x.promise) (some id) seen [x] ∧
    ({ x with grans := [], promise := 0 } : Xfer) = x0 ∧ x.id = id ∧
    x.grans.map (fun g => (g.num, g.slot, g.land)) = pl ∧ x.grans.map (fun g => (g.num, g.at_)) = ac.map (fun e => (e.1, e.2.1)) ∧
    (∀ g ∈ x.grans, g.pieces = ps.filter (fun e => e.dram / 64 == g.num) ∧ g.data = [] ∧ g.done = false ∧ g.fails = 0 ∧
      g.land ≤ x.promise) ∧
    (x.promise = 0 ∨ ∃ g ∈ x.grans, g.land = x.promise) ∧
    (t.core h.q).taken = c.taken ++ pl.map (fun e => (channelOf (64 * e.1), e.2.1)) ∧
    (t.core h.q).takenAt = c.takenAt ++ ac.map (fun e => (channelOf (64 * e.1), e.2.1)) ∧
    (∀ e ∈ s.agenda, e ∈ t.agenda) ∧
    (∀ n g, x.grans[n]? = some g → { tide := max g.at_ s.time, cls := 0, task := .op (.dramSlotAccess id n) } ∈ t.agenda) ∧
    more x t

/-- An instruction offers the pieces `ps` of its transfer `x0` (10 R295). -/
def Offers (i : Instr) (s : State) (h : Here) (p : BitVec 3) (x0 : Xfer) (ps : List Piece) (seen : List Seen)
    (more : Xfer → State → Prop) : Prop := OffersAt (exec i s) s s h p (s.nextId + 1) x0 ps seen more

/-- 10 R309: the rows of a transfer pass its checks: alignment, allocation, translation, permission and RED pages. -/
def RowsOk (s : State) (h : Here) (r : Rect) (write red : Bool) : Prop :=
  0 < r.len ∧ r.ga.toNat % 8 = 0 ∧ r.so % 8 = 0 ∧ r.sp % 8 = 0 ∧
  (∀ i, i < r.rows →
    let o := r.so + i * r.sp
    o / 2097152 < h.launch.record.stageCount ∧ o % 2097152 < h.launch.record.scrbytes ∧
      o % 2097152 + r.len ≤ h.launch.record.scrbytes ∧ (h.reach.ctb? (h.cur.col - h.ctb.stage + o / 2097152)).isSome = true) ∧
  ∀ i, i < r.rows → ∀ k, k < r.len →
    let v := (r.ga + BitVec.ofNat 64 i * r.gp).toNat + k
    ∃ a, h.launch.phys v = some a ∧ (if write then h.launch.canW v else h.launch.canR v) = true ∧ s.acctlOk h.cur.row a write = true ∧
      (red = true → h.launch.redOf v = none)

/-- The least number of slots of an owner in a frame, over pseudo-channels and templates, is n (10 R296). -/
def LeastSlots (T : TideTable) (owner n : Nat) : Prop :=
  let c (i m : Nat) : Nat := (List.range 396).countP (fun j => T.code i m j == owner)
  (∀ i m, i < T.ntmpl → m < 4096 → n ≤ c i m) ∧ ∃ i m, i < T.ntmpl ∧ m < 4096 ∧ c i m = n

/-- The destination of a wait fits its group (02 R59). -/
def Fits (h : Here) (d : Dst) : Prop :=
  h.grp.allocates [] (dstNames d false) = true → h.grp.wouldHold [] (dstNames d false) ≤ h.limit

/-- The registers of a reach group that holds a wait from now on, unless it holds one (12 R335). -/
def RGroup.holds (rg : RGroup) (h : Here) (kind : WaitKind) (texp : BitVec 5) (obj arg : DWord) (d : Dst) : RGroup :=
  if rg.wait.isSome then rg else
    { rg with wait := some { kind := kind, texp := texp.toNat, obj := obj, arg := arg, dst := d, idle := 0, decided := false,
                             frame := h.reach.frames, j := h.rg.idx, resynced := false } }

/-- A group that holds a wait from now on: the row of the wait's destination is allocated (02 R59), and its readiness is open. -/
def Group.holding (g : Group) (d : Dst) : Group :=
  { (dstNames d false).foldl (fun g n => g.alloc n) g with ready := false, code := 0, owed := .none, target := 0, cursor := 32 }

/-- 12 R335: an instruction issues a wait, in every state where its destination fits and `ok` holds: the reach group holds
it, the core's part is complete, and nothing else changes. -/
def IssuesWait (i : Instr) (kind : WaitKind) (texp : BitVec 5) (d : Dst) (ok : State → Here → Prop) (obj arg : Here → DWord) : Prop :=
  ∀ s h, s.here = some h → Fits h d → ok s h → ∃ t, exec i s = .next t ∧ t.faults = s.faults ∧
    OnlyHere s t h (h.grp.holding d)
      (h.rg.holds h kind texp (obj h) (arg h) d)

/-- `t` is `s` with the executing CTB now `c` and the registers of its reach group now `rg`, and nothing else changed. -/
def OnlyCtb (s t : State) (h : Here) (c : Ctb) (rg : RGroup) : Prop :=
  ∃ (f : Ctb → Ctb) (k : RGroup → RGroup), t = (s.modRG h k).modC h f ∧ f h.ctb = c ∧ k h.rg = rg ∧
    t.ctb? h.cur.row h.cur.slot h.cur.col = some c ∧ SameMem s t

/-! ### Steps of the device -/

/-- A step of the device is due at a tide, in a class. -/
def Due (t : State) (tide cls : Nat) (i : Instr) : Prop := { tide := tide, cls := cls, task := .op i } ∈ t.agenda

/-- The status entry of a launch (03 R120): status, zeros, the effective start tide or all ones, zeros. -/
def statusEntry (l : Launch) (status : Nat) : List Byte :=
  toBytes 4 status ++ toBytes 4 0 ++ toBytes 8 (l.effective.getD (2 ^ 64 - 1)) ++ List.replicate 48 0

/-- A launch ended with a status at a tide (03 R88, R100, R103, R120): it is DONE, its status entry is written where it has
one, what belonged to it is gone, and its completion object fires if it has one and `fire` says so; nothing else changes. -/
def Ended (s t : State) (l : Launch) (status tide : Nat) (fire : Bool) : Prop :=
  t = { s with launches := t.launches, xfers := t.xfers, requests := t.requests, reaches := t.reaches, dram := t.dram,
               dfresh := t.dfresh, scrambled := t.scrambled, objs := t.objs, objRel := t.objRel } ∧
  (∃ l', t.launch? l.id = some l' ∧
    { l' with doneView := [] } = { l with state := .done, status := status, doneTide := tide, doneView := [] }) ∧
  (∀ n, n ≠ l.id → t.launch? n = s.launch? n) ∧
  t.reaches = s.reaches.filter (fun r => r.launch != l.id) ∧ t.xfers = s.xfers.filter (fun x => x.launch != l.id) ∧
  t.requests = s.requests.filter (fun x => x.x.launch != l.id) ∧
  t.dram = (match s.statusAt l with
    | some pa => wrN s.dram pa (statusEntry l status)
    | none => s.dram) ∧
  ∀ n, t.obj n = if fire = true ∧ l.record.complete ≠ 0 ∧ n = l.record.complete then s.obj n + 1 else s.obj n

end Sys2Proof.Machine
end

