-- ==== Sys2Proof/Certificates/Slice0/Obligations.lean ====
section
/-! DEFINITION. The statements for the provers. -/

open Sys2Proof Sys2Proof.Machine

/-! ### The control and mask class (04) -/

/-- 05 R164: the uniform arithmetic of the headland: the value that each instruction writes to its destination register. -/
def Obligations.UniformArithmetic : Prop :=
  ∀ (d a : BitVec 6) (b : OpK),
    HeadInstr (.kadd d a b) Always (fun _ h rg => { rg with k := rg.k.set d.toNat (h.k a + h.uni b) }) ∧
    HeadInstr (.ksub d a b) Always (fun _ h rg => { rg with k := rg.k.set d.toNat (h.k a - h.uni b) }) ∧
    HeadInstr (.kmul d a b) Always (fun _ h rg => { rg with k := rg.k.set d.toNat (h.k a * h.uni b) }) ∧
    HeadInstr (.kshl d a b) Always (fun _ h rg => { rg with k := rg.k.set d.toNat (h.k a <<< (h.uni b).toNat) }) ∧
    HeadInstr (.kshr d a b) Always (fun _ h rg => { rg with k := rg.k.set d.toNat (h.k a >>> (h.uni b).toNat) }) ∧
    HeadInstr (.kand d a b) Always (fun _ h rg => { rg with k := rg.k.set d.toNat (h.k a &&& h.uni b) }) ∧
    HeadInstr (.kor d a b) Always (fun _ h rg => { rg with k := rg.k.set d.toNat (h.k a ||| h.uni b) }) ∧
    HeadInstr (.kmov d b) Always (fun _ h rg => { rg with k := rg.k.set d.toNat (h.uni b) }) ∧
    (∀ w : Word, HeadInstr (.kli d (.imm32 true w)) Always (fun _ _ rg => { rg with k := rg.k.set d.toNat (w.signExtend 64) })) ∧
    (∀ w : Word, HeadInstr (.kli d (.imm32 false w)) Always (fun _ _ rg => { rg with k := rg.k.set d.toNat (w.setWidth 64) })) ∧
    (∀ w : DWord, HeadInstr (.kli d (.imm64 w)) Always (fun _ _ rg => { rg with k := rg.k.set d.toNat w }))

/-- 04 R137; 04 R138, R139, 02 R40: where a branch goes on, for `br` and each condition of `brc`; a branch that is not taken changes nothing. `loop` counts down and branches while its count is not 0; `call`, `call.k` and `ret` go to their
targets, and a call writes the address of the instruction that follows it; an indirect target with bits [1:0] nonzero raises
ILLEGAL_OPERAND at the transfer, and nothing is written. -/
def Obligations.Transfers : Prop :=
  (
    ∀ (a b : BitVec 6) (off : Word),
      let go (h : Here) (rg : RGroup) : RGroup := { rg with npc := h.cur.pc + 4 * off.signExtend 64 }
      HeadInstr (.br off) Always (fun _ h rg => go h rg) ∧
      HeadInstr (.brc .eq a b off) Always (fun _ h rg => if h.k a = h.k b then go h rg else rg) ∧
      HeadInstr (.brc .ne a b off) Always (fun _ h rg => if h.k a = h.k b then rg else go h rg) ∧
      HeadInstr (.brc .lt a b off) Always (fun _ h rg => if (h.k a).toInt < (h.k b).toInt then go h rg else rg) ∧
      HeadInstr (.brc .ge a b off) Always (fun _ h rg => if (h.k b).toInt ≤ (h.k a).toInt then go h rg else rg) ∧
      HeadInstr (.brc .ltn a b off) Always (fun _ h rg => if (h.k a).toNat < (h.k b).toNat then go h rg else rg) ∧
      HeadInstr (.brc .gen a b off) Always (fun _ h rg => if (h.k b).toNat ≤ (h.k a).toNat then go h rg else rg) ∧
      HeadInstr (.brc .z a b off) Always (fun _ h rg => if h.k a = 0 then go h rg else rg) ∧
      HeadInstr (.brc .nz a b off) Always (fun _ h rg => if h.k a = 0 then rg else go h rg)) ∧
  (
    ∀ (d a : BitVec 6) (off : Word),
      let aligned (_ : State) (h : Here) : Prop := (h.k a).toNat % 4 = 0
      let next (h : Here) : DWord := h.cur.pc + BitVec.ofNat 64 h.cur.ilen
      HeadInstr (.loop d a off) Always (fun _ h rg =>
        if (h.k a).toNat ≤ 1 then { rg with k := rg.k.set d.toNat 0 }
        else { rg with k := rg.k.set d.toNat (h.k a - 1), npc := h.cur.pc + 4 * off.signExtend 64 }) ∧
      HeadInstr (.call d off) Always (fun _ h rg =>
        { rg with k := rg.k.set d.toNat (next h), npc := h.cur.pc + 4 * off.signExtend 64 }) ∧
      HeadInstr (.callK d a) aligned (fun _ h rg => { rg with k := rg.k.set d.toNat (next h), npc := h.k a }) ∧
      HeadInstr (.ret a) aligned (fun _ h rg => { rg with npc := h.k a }) ∧
      RefusedWide (.callK d a) (fun s h => ¬ aligned s h) cIllegalOperand (fun _ => 0) ∧
      RefusedWide (.ret a) (fun s h => ¬ aligned s h) cIllegalOperand (fun _ => 0))


/-- 04 R140, R141, R133: `brx.k` goes to entry i of its table, or to the join for i of N or more; `brx.v` opens a walk: a
header at the headland, and on the core the saved DIV, the captured indices, and DIV narrowed to the lanes of entry 0; its
source is freed by a last read; a table step goes on to the next entry and selects its lanes. -/
def Obligations.TableWalks : Prop :=
  ∀ (a6 : BitVec 6) (a : BitVec 11) (last : Bool) (t : BrxDesc),
    HeadInstr (.brxK a6 t) (fun _ h => t.n.toNat ≤ (h.k a6).toNat)
      (fun _ h rg => { rg with npc := h.cur.pc + 4 * t.joff.signExtend 64 }) ∧
    (∀ x : DWord, HeadInstr (.brxK a6 t)
      (fun s h => (h.k a6).toNat < t.n.toNat ∧ s.tableTarget h.launch h.cur.pc t (h.k a6).toNat = .ok x)
      (fun _ _ rg => { rg with npc := x })) ∧
    (∀ s h x, s.here = some h → h.grp.written a.toNat = true → h.grp.cursor < 32 → 0 < t.n.toNat →
      (h.cur.head = true → s.tableTarget h.launch h.cur.pc t 0 = .ok x ∧ stackDepth h.rg.hstack + 10 ≤ 64 ∧
        -2097152 ≤ brxOffset h.cur.pc h.launch.record.entry ∧ brxOffset h.cur.pc h.launch.record.entry ≤ 2097151) →
      ∃ u g, exec (.brxV a last t) s = .next u ∧
        OnlyHere s u h g (if h.cur.head then { h.rg with
          npc := x, hstack := .walk (BitVec.ofInt 22 (brxOffset h.cur.pc h.launch.record.entry)) 0 h.cur.pc t :: h.rg.hstack }
          else h.rg) ∧ g.cursor = 32 ∧
        ({ g with dstack := [], div := 0, vregs := [], pend := [], cursor := 0 } : Group) =
          { h.grp with dstack := [], div := 0, vregs := [], pend := [], cursor := 0 } ∧
        g.dstack = { saved := h.grp.div, idx := some (mkLanes (fun k =>
          if bit h.grp.active k = true ∧ (h.grp.vlane a.toNat k).toNat < t.n.toNat then (h.grp.vlane a.toNat k).setWidth 8
          else 0xFF)) } :: h.grp.dstack ∧
        (∀ k, k < 32 → bit g.div k = (bit h.grp.div k && bit h.grp.active k && h.grp.vlane a.toNat k == 0)) ∧
        (∀ n, n ≠ a.toNat ∨ last = false → g.vreg? n = h.grp.vreg? n) ∧ (last = true → g.vreg? a.toNat = none)) ∧
    (∀ s h brx e addr d rest f l x, s.here = some h → h.rg.hstack = .walk brx e addr d :: rest → h.grp.dstack = f :: l →
      (h.cur.head = true → s.tableTarget h.launch addr d (e.toNat + 1) = .ok x) →
      ∃ u g, exec .tableStep s = .next u ∧
        OnlyHere s u h g (if h.cur.head then
          { h.rg with npc := x, hstack := .walk brx (BitVec.ofNat 8 (e.toNat + 1)) addr d :: rest } else h.rg) ∧
        ({ g with div := 0 } : Group) = { h.grp with div := 0, cursor := 32 } ∧
        ∀ k, k < 32 → bit g.div k = (bit f.saved k &&
          ((f.idx.getD []).getD k 0xFF).toNat == (if h.cur.head then e.toNat + 1 else e.toNat)))

/-- 04 R142, R131: a masked region: `mif` saves DIV and keeps the lanes of its mask (or of the inverse), `melse` takes the
other side, `mend` restores; each changes the header of the stack at the headland, which refuses a region that is too deep
or out of place. -/
def Obligations.MaskedRegions : Prop :=
  ∀ (a : BitVec 4),
    let top (h : Here) : Option Hdr := h.rg.hstack.head?
    BothInstr (.mif false a) (fun _ h => stackDepth h.rg.hstack + 2 ≤ 64) (fun _ _ rg => { rg with hstack := .thenSide :: rg.hstack })
      (fun _ _ g => { g with dstack := { saved := g.div, idx := none } :: g.dstack, div := g.div &&& g.mask a &&& g.present }) ∧
    BothInstr (.mif true a) (fun _ h => stackDepth h.rg.hstack + 2 ≤ 64) (fun _ _ rg => { rg with hstack := .thenSide :: rg.hstack })
      (fun _ _ g => { g with
        dstack := { saved := g.div, idx := none } :: g.dstack, div := g.div &&& ~~~(g.mask a) &&& g.present }) ∧
    (∀ f l, BothInstr .melse (fun _ h => top h = some .thenSide) (fun _ _ rg => { rg with hstack := .elseSide :: rg.hstack.tail })
      (fun _ _ g => match g.dstack with
        | x :: _ => { g with div := x.saved &&& ~~~g.div }
        | [] => g) ∧
      (∀ s h, s.here = some h → top h = some .thenSide → h.grp.dstack = f :: l →
        ∃ t, exec .melse s = .next t ∧ t.mine h = some { h.grp with div := f.saved &&& ~~~h.grp.div, cursor := 32 }) ∧
      (∀ s h, s.here = some h → top h = some .thenSide ∨ top h = some .elseSide → h.grp.dstack = f :: l →
        ∃ t, exec .mend s = .next t ∧ t.mine h = some { h.grp with div := f.saved, dstack := l, cursor := 32 })) ∧
    BothInstr .mend (fun _ h => top h = some .thenSide ∨ top h = some .elseSide)
      (fun _ _ rg => { rg with hstack := rg.hstack.tail })
      (fun _ _ g => match g.dstack with
        | x :: l => { g with div := x.saved, dstack := l }
        | [] => g) ∧
    (∀ neg, RefusedWide (.mif neg a) (fun _ h => h.cur.head = true ∧ 64 < stackDepth h.rg.hstack + 2) cIllegalOperand (fun _ => 0)) ∧
    RefusedWide .melse (fun _ h => h.cur.head = true ∧ top h ≠ some .thenSide) cIllegalOperand (fun _ => 0) ∧
    RefusedWide .mend (fun _ h => h.cur.head = true ∧ top h ≠ some .thenSide ∧ top h ≠ some .elseSide) cIllegalOperand (fun _ => 0)

/-- 04 R136, R143, R144; 04 R145: `nop` changes no state but that its position is complete; the predicate instructions and the mask
logic act on the whole group. `mcnt` and `mfirst` deliver the number of 1 bits and the index of the lowest 1 bit of a mask, 32 for none. -/
def Obligations.PredicateAndMasks : Prop :=
  (
    ∀ (d a b : BitVec 4),
      let m (g : Group) (w : Word) : Group := { g with m := g.m.set d.toNat (w &&& g.present) }
      GroupInstr .nop Always (fun _ g => g) ∧
      GroupInstr (.mset a) Always (fun _ g => { g with prd := g.prd &&& g.mask a }) ∧
      GroupInstr .msetAll Always (fun _ g => { g with prd := 0xFFFFFFFF }) ∧
      GroupInstr (.mrest a) Always (fun _ g => { g with prd := g.mask a }) ∧
      GroupInstr (.msave d) Always (fun _ g => m g g.prd) ∧
      GroupInstr (.mand d a b) Always (fun _ g => m g (g.mask a &&& g.mask b)) ∧
      GroupInstr (.mor d a b) Always (fun _ g => m g (g.mask a ||| g.mask b)) ∧
      GroupInstr (.mxor d a b) Always (fun _ g => m g (g.mask a ^^^ g.mask b)) ∧
      GroupInstr (.mandn d a b) Always (fun _ g => m g (g.mask a &&& ~~~(g.mask b))) ∧
      GroupInstr (.mnot d a) Always (fun _ g => m g (~~~(g.mask a))) ∧
      GroupInstr (.mmov d a) Always (fun _ g => m g (g.mask a))) ∧
  (
    ∀ (d : Dst) (a : BitVec 4) (s : State) (h : Here), Runs s h [] (dstNames d false) →
      (∃ t, exec (.mcnt d a) s = .next t ∧ Delivers s t h [] d false 1
        (fun _ => BitVec.ofNat 64 ((List.range 32).countP (fun k => (h.grp.mask a).getLsbD k))) 0) ∧
      (∀ n, n < 32 → (h.grp.mask a).getLsbD n = true → (∀ k, k < n → (h.grp.mask a).getLsbD k = false) →
        ∃ t, exec (.mfirst d a) s = .next t ∧ Delivers s t h [] d false 1 (fun _ => BitVec.ofNat 64 n) 0) ∧
      (h.grp.mask a = 0 → ∃ t, exec (.mfirst d a) s = .next t ∧ Delivers s t h [] d false 1 (fun _ => 32) 0))


/-- 04 R146, R147: `pass.e` and `pass.s` deliver the sender's values, or in every lane 0 (EDGE 0) or the core's own value
(EDGE 1) where there is none; then the core has sent its own, unless it resumes there after a fault; `pass.s` is refused
outside a south-passing wave. -/
def Obligations.Passing : Prop :=
  ∀ (south : Bool) (d : Dst) (a : BitVec 11) (last : Bool) (s : State) (h : Here),
    let i : Instr := if south then .passS d a last else .passE d a last
    let ops : List Opnd := [.src (.v a last) false]
    (Runs s h ops (dstNames d false) → (south = true → h.launch.south = true) →
      ∃ u, Delivers s u h ops d false 1 (fun k => match s.delivered h south with
          | some l => (l.getD k 0).setWidth 64
          | none => if h.launch.record.edge = 0 then 0 else (h.grp.vlane a.toNat k).setWidth 64) 0 ∧
        exec i s = .next (if h.grp.again then u else u.modG h (fun g =>
          { g with passed := some (south, h.rg.pos, mkLanes (fun k => h.grp.vlane a.toNat k)) }))) ∧
    (s.here = some h → h.grp.cursor < 32 → h.launch.south = false →
      exec (.passS d a last) s = .next (s.raiseWide h cIllegalOperand 0))

/-! ### The integer, address and uniform class (05) -/

/-- 05 R153: sum, difference, product and multiply-add wrap to the width of the type; the high half of the product is that of
the exact product, signed or unsigned. -/
def Obligations.WrappingArithmetic : Prop :=
  ∀ (d : Dst) (a : Src) (b : OpB) (a' b' c' : Src),
    let n (f : Word → Word → Word) (v : List DWord) : DWord := (f (lo32 (arg v 0)) (lo32 (arg v 1))).setWidth 64
    let w (f : DWord → DWord → DWord) (v : List DWord) : DWord := f (arg v 0) (arg v 1)
    let two (x : Bool) : List Opnd := [.src a x, opndB b x]
    let srcs (x : Bool) : List Opnd := [.src a' x, .src b' x]
    let three (x : Bool) : List Opnd := [.src a' x, .src b' x, .src c' x]
    (∀ ty, it64 ty = false →
      Lane1 (.add ty false d a b) (two false) d false (n (fun x y => x + y)) ∧
      Lane1 (.sub ty false d a b) (two false) d false (n (fun x y => x - y)) ∧
      Lane1 (.mul ty d a b) (two false) d false (n (fun x y => x * y)) ∧
      Lane1 (.mad ty false d a' b' c') (three false) d false
        (fun v => (lo32 (arg v 0) * lo32 (arg v 1) + lo32 (arg v 2)).setWidth 64)) ∧
    (∀ ty, it64 ty = true →
      Lane1 (.add ty false d a b) (two true) d true (w (fun x y => x + y)) ∧
      Lane1 (.sub ty false d a b) (two true) d true (w (fun x y => x - y)) ∧
      Lane1 (.mul ty d a b) (two true) d true (w (fun x y => x * y)) ∧
      Lane1 (.mad ty false d a' b' c') (three true) d true (fun v => arg v 0 * arg v 1 + arg v 2)) ∧
    Lane1 (.mulh .i32 d a' b') (srcs false) d false
      (n (fun x y => (x.signExtend 64 * y.signExtend 64).extractLsb' 32 32)) ∧
    Lane1 (.mulh .n32 d a' b') (srcs false) d false (n (fun x y => (x.setWidth 64 * y.setWidth 64).extractLsb' 32 32)) ∧
    Lane1 (.mulh .i64 d a' b') (srcs true) d true (w (fun x y => (x.signExtend 128 * y.signExtend 128).extractLsb' 64 64)) ∧
    Lane1 (.mulh .n64 d a' b') (srcs true) d true (w (fun x y => (x.setWidth 128 * y.setWidth 128).extractLsb' 64 64))

/-- 05 R153, R156, R151: a saturating operation delivers the exact result clamped to the range of its type, and sets SATF in
a lane where the clamp changed it. -/
def Obligations.SaturatingArithmetic : Prop :=
  ∀ (ty : IntTy) (wd : Wd) (d : Dst) (a : Src) (b : OpB) (a' b' c' : Src),
    let bits (t : IntTy) : Nat := if it64 t then 64 else 32
    let least (t : IntTy) : Int := if itSigned t then -(2 ^ (bits t - 1)) else 0
    let most (t : IntTy) : Int := if itSigned t then 2 ^ (bits t - 1) - 1 else 2 ^ bits t - 1
    let clamp (t : IntTy) (x : Int) (y : DWord) (fl : Word) : Prop :=
      typed t y = max (least t) (min (most t) x) ∧ fl = (if least t ≤ x ∧ x ≤ most t then 0 else 1)
    Lane1R (.add ty true d a b) [.src a (it64 ty), opndB b (it64 ty)] d (it64 ty)
      (fun v => clamp ty (typed ty (arg v 0) + typed ty (arg v 1))) ∧
    Lane1R (.sub ty true d a b) [.src a (it64 ty), opndB b (it64 ty)] d (it64 ty)
      (fun v => clamp ty (typed ty (arg v 0) - typed ty (arg v 1))) ∧
    Lane1R (.mad ty true d a' b' c') [.src a' (it64 ty), .src b' (it64 ty), .src c' (it64 ty)] d (it64 ty)
      (fun v => clamp ty (typed ty (arg v 0) * typed ty (arg v 1) + typed ty (arg v 2))) ∧
    Lane1R (.abs wd true d a) [.src a (wd64 wd)] d (wd64 wd)
      (fun v => clamp (wdInt wd) |typed (wdInt wd) (arg v 0)|) ∧
    Lane1R (.neg wd true d a) [.src a (wd64 wd)] d (wd64 wd)
      (fun v => clamp (wdInt wd) (-typed (wdInt wd) (arg v 0)))

/-- 05 R154, Table 5.3: division truncates toward zero and the remainder takes the sign of the dividend; the most negative
number over -1 gives itself and remainder 0; division by zero delivers all ones and the dividend, and sets DIVZ. -/
def Obligations.Division : Prop :=
  ∀ (d : Dst) (a b : Src),
    let n (f : Word → Word → Word) (v : List DWord) : DWord := (f (lo32 (arg v 0)) (lo32 (arg v 1))).setWidth 64
    let w (f : DWord → DWord → DWord) (v : List DWord) : DWord := f (arg v 0) (arg v 1)
    let fn (v : List DWord) : Word := if lo32 (arg v 1) = 0 then 2 else 0
    let fw (v : List DWord) : Word := if arg v 1 = 0 then 2 else 0
    let ops (x : Bool) : List Opnd := [.src a x, .src b x]
    Lane1F (.div .i32 d a b) (ops false) d false (n (fun x y => if y = 0 then BitVec.allOnes 32 else x.sdiv y)) fn ∧
    Lane1F (.div .n32 d a b) (ops false) d false (n (fun x y => if y = 0 then BitVec.allOnes 32 else x / y)) fn ∧
    Lane1F (.div .i64 d a b) (ops true) d true (w (fun x y => if y = 0 then BitVec.allOnes 64 else x.sdiv y)) fw ∧
    Lane1F (.div .n64 d a b) (ops true) d true (w (fun x y => if y = 0 then BitVec.allOnes 64 else x / y)) fw ∧
    Lane1F (.rem .i32 d a b) (ops false) d false (n (fun x y => x.srem y)) fn ∧
    Lane1F (.rem .n32 d a b) (ops false) d false (n (fun x y => x % y)) fn ∧
    Lane1F (.rem .i64 d a b) (ops true) d true (w (fun x y => x.srem y)) fw ∧
    Lane1F (.rem .n64 d a b) (ops true) d true (w (fun x y => x % y)) fw

/-- 05 R155, R156: minimum, maximum, absolute value and negation without saturation. -/
def Obligations.MinMaxAbsNeg : Prop :=
  ∀ (d : Dst) (a : Src) (b : OpB),
    let n (f : Word → Word → Word) (v : List DWord) : DWord := (f (lo32 (arg v 0)) (lo32 (arg v 1))).setWidth 64
    let w (f : DWord → DWord → DWord) (v : List DWord) : DWord := f (arg v 0) (arg v 1)
    let ops (x : Bool) : List Opnd := [.src a x, opndB b x]
    Lane1 (.min .i32 d a b) (ops false) d false (n (fun x y => if x.slt y then x else y)) ∧
    Lane1 (.min .n32 d a b) (ops false) d false (n (fun x y => if x.ult y then x else y)) ∧
    Lane1 (.min .i64 d a b) (ops true) d true (w (fun x y => if x.slt y then x else y)) ∧
    Lane1 (.min .n64 d a b) (ops true) d true (w (fun x y => if x.ult y then x else y)) ∧
    Lane1 (.max .i32 d a b) (ops false) d false (n (fun x y => if x.slt y then y else x)) ∧
    Lane1 (.max .n32 d a b) (ops false) d false (n (fun x y => if x.ult y then y else x)) ∧
    Lane1 (.max .i64 d a b) (ops true) d true (w (fun x y => if x.slt y then y else x)) ∧
    Lane1 (.max .n64 d a b) (ops true) d true (w (fun x y => if x.ult y then y else x)) ∧
    Lane1 (.abs .w32 false d a) [.src a false] d false
      (fun v => (if (lo32 (arg v 0)).msb then -lo32 (arg v 0) else lo32 (arg v 0)).setWidth 64) ∧
    Lane1 (.abs .w64 false d a) [.src a true] d true (fun v => if (arg v 0).msb then -arg v 0 else arg v 0) ∧
    Lane1 (.neg .w32 false d a) [.src a false] d false (fun v => (-lo32 (arg v 0)).setWidth 64) ∧
    Lane1 (.neg .w64 false d a) [.src a true] d true (fun v => -arg v 0)

/-- 05 R157, R158: the bitwise operations; shifts read their amount in full, so that one of the width or more gives zeros, or
copies of the sign; a rotation takes it modulo the width. -/
def Obligations.BitsAndShifts : Prop :=
  ∀ (d : Dst) (a : Src) (b : OpB),
    let n (f : Word → Word → Word) (v : List DWord) : DWord := (f (lo32 (arg v 0)) (lo32 (arg v 1))).setWidth 64
    let w (f : DWord → DWord → DWord) (v : List DWord) : DWord := f (arg v 0) (arg v 1)
    let sn (f : Word → Nat → Word) (v : List DWord) : DWord := (f (lo32 (arg v 0)) (lo32 (arg v 1)).toNat).setWidth 64
    let sw (f : DWord → Nat → DWord) (v : List DWord) : DWord := f (arg v 0) (lo32 (arg v 1)).toNat
    let ops (x y : Bool) : List Opnd := [.src a x, opndB b y]
    Lane1R (.and .w32 d a b) (ops false false) d false (fun v y fl => lo32 y = lo32 (n (fun x y => x &&& y) v) ∧ fl = 0) ∧
    Lane1R (.or .w32 d a b) (ops false false) d false (fun v y fl => lo32 y = lo32 (n (fun x y => x ||| y) v) ∧ fl = 0) ∧
    Lane1R (.xor .w32 d a b) (ops false false) d false (fun v y fl => lo32 y = lo32 (n (fun x y => x ^^^ y) v) ∧ fl = 0) ∧
    Lane1R (.andn .w32 d a b) (ops false false) d false (fun v y fl => lo32 y = lo32 (n (fun x y => x &&& ~~~y) v) ∧ fl = 0) ∧
    Lane1 (.and .w64 d a b) (ops true true) d true (w (fun x y => x &&& y)) ∧
    Lane1 (.or .w64 d a b) (ops true true) d true (w (fun x y => x ||| y)) ∧
    Lane1 (.xor .w64 d a b) (ops true true) d true (w (fun x y => x ^^^ y)) ∧
    Lane1 (.andn .w64 d a b) (ops true true) d true (w (fun x y => x &&& ~~~y)) ∧
    Lane1 (.shl .w32 d a b) (ops false false) d false (sn (fun x k => x <<< k)) ∧
    Lane1 (.shl .w64 d a b) (ops true false) d true (sw (fun x k => x <<< k)) ∧
    Lane1 (.shr .n32 d a b) (ops false false) d false (sn (fun x k => x >>> k)) ∧
    Lane1 (.shr .i32 d a b) (ops false false) d false (sn (fun x k => x.sshiftRight k)) ∧
    Lane1 (.shr .n64 d a b) (ops true false) d true (sw (fun x k => x >>> k)) ∧
    Lane1 (.shr .i64 d a b) (ops true false) d true (sw (fun x k => x.sshiftRight k)) ∧
    Lane1 (.rot .w32 d a b) (ops false false) d false (sn (fun x k => x.rotateLeft (k % 32))) ∧
    Lane1 (.rot .w64 d a b) (ops true false) d true (sw (fun x k => x.rotateLeft (k % 64)))

/-- 05 R159, R160: counts of bits, the reversed pattern, and the fields of `bfx` and `bfi`. -/
def Obligations.CountsAndFields : Prop :=
  ∀ (wd : Wd) (d : Dst) (a b : Src) (pos len : BitVec 8),
    let W := wdW wd
    let one : List Opnd := [.src a (wd64 wd)]
    Lane1R (.popc wd d a) one d false (fun v y fl =>
      y.toNat = (List.range W).countP (fun k => (arg v 0).getLsbD k) ∧ fl = 0) ∧
    Lane1R (.clz wd d a) one d false (fun v y fl => y.toNat ≤ W ∧ fl = 0 ∧
      (∀ k, k < y.toNat → (arg v 0).getLsbD (W - 1 - k) = false) ∧
      (y.toNat < W → (arg v 0).getLsbD (W - 1 - y.toNat) = true)) ∧
    Lane1R (.ctz wd d a) one d false (fun v y fl => y.toNat ≤ W ∧ fl = 0 ∧
      (∀ k, k < y.toNat → (arg v 0).getLsbD k = false) ∧ (y.toNat < W → (arg v 0).getLsbD y.toNat = true)) ∧
    Lane1R (.brev wd d a) one d (wd64 wd) (fun v y fl => fl = 0 ∧
      ∀ k, k < W → y.getLsbD k = (arg v 0).getLsbD (W - 1 - k)) ∧
    (fieldOk (wd64 wd) pos len = true →
      Lane1R (.bfi wd d a b pos len) [.src a (wd64 wd), .src b (wd64 wd)] d (wd64 wd) (fun v y fl => fl = 0 ∧
        ∀ k, k < W → y.getLsbD k =
          if pos.toNat ≤ k ∧ k < pos.toNat + len.toNat then (arg v 1).getLsbD (k - pos.toNat) else (arg v 0).getLsbD k)) ∧
    (∀ ty, fieldOk (it64 ty) pos len = true →
      Lane1R (.bfx ty d a pos len) [.src a (it64 ty)] d (it64 ty) (fun v y fl => fl = 0 ∧
        typed ty y = if itSigned ty then ((arg v 0).extractLsb' pos.toNat len.toNat).toInt
          else ((arg v 0).extractLsb' pos.toNat len.toNat).toNat))

/-- 05 R161, R162, R163, R150: compare writes the truth of its predicate to every active lane's bit and 0 to every other;
select takes a where the mask's bit is 1 and b elsewhere; move copies its source or sign-extended immediate. -/
def Obligations.CompareSelectMove : Prop :=
  ∀ (ty : IntTy) (wd : Wd) (d4 c : BitVec 4) (d : Dst) (a b : Src) (x : OpB) (w : Word),
    let ops : List Opnd := [.src a (it64 ty), opndB x (it64 ty)]
    let p (r : Int → Int → Bool) (_ : Here) (v : List DWord) : Bool := r (typed ty (arg v 0)) (typed ty (arg v 1))
    MaskInstr (.cmp .eq ty d4 a x) ops d4 (p (fun i j => i == j)) (fun _ => 0) ∧
    MaskInstr (.cmp .ne ty d4 a x) ops d4 (p (fun i j => i != j)) (fun _ => 0) ∧
    MaskInstr (.cmp .lt ty d4 a x) ops d4 (p (fun i j => decide (i < j))) (fun _ => 0) ∧
    MaskInstr (.cmp .le ty d4 a x) ops d4 (p (fun i j => decide (i ≤ j))) (fun _ => 0) ∧
    MaskInstr (.cmp .gt ty d4 a x) ops d4 (p (fun i j => decide (i > j))) (fun _ => 0) ∧
    MaskInstr (.cmp .ge ty d4 a x) ops d4 (p (fun i j => decide (i ≥ j))) (fun _ => 0) ∧
    LaneInstr (.sel wd d a b c) [.src a (wd64 wd), .src b (wd64 wd)] d (wd64 wd) 1 Always
      (fun h k v => if c = 0 ∧ h.grp.present.getLsbD k = true ∨ c ≠ 0 ∧ (h.grp.m.getD c.toNat 0).getLsbD k = true then arg v 0
        else arg v 1) (fun _ _ _ => 0) ∧
    Lane1 (.mov wd d (.src a)) [.src a (wd64 wd)] d (wd64 wd) (fun v => arg v 0) ∧
    LaneInstr (.mov .w32 d (.imm w)) [.imm (w.setWidth 64)] d false 1 Always (fun _ _ _ => w.setWidth 64) (fun _ _ _ => 0) ∧
    LaneInstr (.mov .w64 d (.imm w)) [.imm (w.signExtend 64)] d true 1 Always (fun _ _ _ => w.signExtend 64) (fun _ _ _ => 0)

/-- 05 R166 to R169: the address of `lea`; conversion between a generic address and the offset in a window, all ones outside
it; the tests of a window; the identity of a lane. -/
def Obligations.AddressesAndIdentity : Prop :=
  ∀ (w : Window) (d : Dst) (d4 : BitVec 4) (a b : Src) (disp : Word) (item : SregItem),
    let inside (h : Here) (w : Window) (x : DWord) : Prop :=
      (windowBase w).toNat ≤ x.toNat ∧ x.toNat < (windowBase w).toNat + h.windowSize w
    Lane1 (.lea d a b disp) [.src a true, .src b false] d true
      (fun v => arg v 0 + (lo32 (arg v 1)).setWidth 64 + disp.signExtend 64) ∧
    LaneInstr (.acvTo w d a) [.src a true] d true 1 Always
      (fun h _ v => open Classical in if inside h w (arg v 0) then arg v 0 - windowBase w else BitVec.allOnes 64) (fun _ _ _ => 0) ∧
    LaneInstr (.acvFrom w d a) [.src a true] d true 1 Always
      (fun h _ v => if (arg v 0).toNat < h.windowSize w then windowBase w + arg v 0 else BitVec.allOnes 64) (fun _ _ _ => 0) ∧
    MaskInstr (.ats .lane d4 a) [.src a true] d4 (fun h v => open Classical in decide (inside h .lane (arg v 0))) (fun _ => 0) ∧
    MaskInstr (.ats .shared d4 a) [.src a true] d4 (fun h v => open Classical in decide (inside h .shared (arg v 0))) (fun _ => 0) ∧
    MaskInstr (.ats .cluster d4 a) [.src a true] d4 (fun h v => open Classical in decide (inside h .cluster (arg v 0))) (fun _ => 0) ∧
    MaskInstr (.ats .global d4 a) [.src a true] d4 (fun h v => open Classical in decide
      (¬ inside h .lane (arg v 0) ∧ ¬ inside h .shared (arg v 0) ∧ ¬ inside h .cluster (arg v 0))) (fun _ => 0) ∧
    LaneInstr (.sreg item d) [] d false 1 Always (fun h k _ => BitVec.ofNat 64 (match item with
      | .lane => k
      | .group => h.cur.grp
      | .stage => h.ctb.stage
      | .x => h.ctb.x
      | .y => h.ctb.y
      | .z => h.ctb.z
      | .row => h.cur.row
      | .col => h.cur.col
      | .slot => h.cur.slot
      | .block => h.ctb.blk % 2 ^ 32
      | .ngroups => h.launch.record.groups
      | .nlanes => h.launch.record.lanes)) (fun _ _ _ => 0)

/-- 05 R171; 05 R172: `ixset` and `ixadd` write the lanes that run in one index register, modulo 2^16; every other lane and register
is as before. `vget` delivers, and `vput` writes one position on, the register that lane k's index reaches in the window: its
base plus the sum of the index register and the displacement. -/
def Obligations.IndexedRegisters : Prop :=
  (
    ∀ (ix : BitVec 2) (a : OpB) (add : Bool) (s : State) (h : Here),
      let i : Instr := if add then .ixadd ix a else .ixset ix a
      let ops : List Opnd := [opndB a false]
      Runs s h ops [] → h.grp.ix.length = 4 → ∃ t g, exec i s = .next t ∧ t.faults = s.faults ∧ SameMem s t ∧
        t.mine h = some g ∧ OnlyGroup s t h g ∧ { g.bare with ix := [] } = { h.grp.bare with ix := [] } ∧ g.cursor = 32 ∧
        g.iflags = h.grp.iflags ∧ SourcesDone h.grp g ops [] ∧
        (∀ j, j ≠ ix.toNat → g.ix.getD j [] = h.grp.ix.getD j []) ∧
        ∀ k, k < 32 → (g.ix.getD ix.toNat []).getD k 0 =
          if k ∈ h.lanes then
            (if add then (h.grp.ix.getD ix.toNat []).getD k 0 else 0) + (arg (s.srcs h ops k) 0).setWidth 16
          else (h.grp.ix.getD ix.toNat []).getD k 0) ∧
  (
    ∀ (ix : BitVec 2) (d : Dst) (base : BitVec 11) (b : Src) (disp : BitVec 16) (len : BitVec 9),
      let e (h : Here) (k : Nat) : Int := ((h.grp.ix.getD ix.toNat []).getD k 0).toInt + disp.toInt
      let inside (_ : State) (h : Here) : Prop :=
        ∀ k ∈ h.lanes, 0 ≤ e h k ∧ e h k < len.toNat ∧ h.grp.written (base.toNat + (e h k).toNat) = true
      LaneInstr (.vget ix d base disp len) [] d false 1 inside
        (fun h k _ => (h.grp.vlane (base.toNat + (e h k).toNat) k).setWidth 64) (fun _ _ _ => 0) ∧
      ∀ s h, Runs s h [.src b false] [] → inside s h → ∃ t g l, exec (.vput ix base b disp len) s = .next t ∧
        t.faults = s.faults ∧ SameMem s t ∧ t.mine h = some g ∧ OnlyGroup s t h g ∧ g.bare = h.grp.bare ∧ g.cursor = 32 ∧
        g.iflags = h.grp.iflags ∧ SourcesDone h.grp g [.src b false] [] ∧
        g.pend.map (fun p => (p.due, p.reg, p.w64, p.latch, p.flags)) =
          l ++ h.lanes.map (fun k => (h.rg.pos + 1, some (base.toNat + (e h k).toNat), false, none, 0)) ∧
        (g.pend.drop l.length).map (fun p => (p.lanes, p.vals)) =
          h.lanes.map (fun k => (maskOf (fun j => j == k), mkLanes (fun _ => arg (s.srcs h [.src b false] k) 0))))


/-- 05 R175, R173: `rgrow` takes n rows from the reserve of its CTB when the reserve and the ceiling allow it, and else
nothing; `rshrink` returns granted rows that are not held; each delivers its status, and `rquery` the counts. -/
def Obligations.RegisterGrowth : Prop :=
  ∀ (d : Dst) (a : OpK) (imm : Option Word) (s : State) (h : Here), Runs s h [] (dstNames d false) →
    let n := (h.uniZ a).toNat
    let b := h.launch.record.budget
    let limit (g : Nat) : Nat := (b + g) % 1024 * 65536
    let grows := n ≤ h.ctb.reserve ∧ b + h.grp.granted + n ≤ h.launch.record.ceiling
    let m := min n (min h.grp.granted (b + h.grp.granted - h.grp.footprint))
    let after (u : State) (g r : Nat) : State :=
      (u.modG h (fun x => { x with granted := g })).modC h (fun c => { c with reserve := r })
    (grows → ∃ u, Delivers s u h [] d false 1 (fun _ => (BitVec.ofNat 32 (limit (h.grp.granted + n))).setWidth 64) 0 ∧
      exec (.rgrow d a) s = .next (after u (h.grp.granted + n) (h.ctb.reserve - n))) ∧
    (¬ grows → ∃ u, Delivers s u h [] d false 1 (fun _ => (BitVec.ofNat 32 (limit h.grp.granted + 1)).setWidth 64) 0 ∧
      exec (.rgrow d a) s = .next (after u h.grp.granted h.ctb.reserve)) ∧
    (∃ u, Delivers s u h [] d false 1 (fun _ => (BitVec.ofNat 32 (limit (h.grp.granted - m))).setWidth 64) 0 ∧
      exec (.rshrink d a) s = .next (after u (h.grp.granted - m) (h.ctb.reserve + m))) ∧
    (∃ t, exec (.rquery { dst := d, imm := imm }) s = .next t ∧ Delivers s t h [] d false 1 (fun _ => BitVec.ofNat 64 (h.grp.footprint % 1024 +
      (b + h.grp.granted) % 1024 * 1024 + h.ctb.reserve % 1024 * 2 ^ 20)) 0)

/-! ### The number-format and floating-point class (06) -/

/-- 06 R190: sum, difference, product and fused multiply-add: NaNOut, the invalid operations, infinities, and else the exact
value rounded once. -/
def Obligations.FloatArithmetic : Prop :=
  ∀ (ty : FltTy) (rm : RM) (d : Dst) (a : Src) (b : OpB) (a' b' c' : Src),
    let op (i : Instr) (ops : List Opnd) (R : Ieee → List Nat → Nat × Word → Prop) : Prop :=
      Lane1R i ops d false (EltR ty (fun f x r => if x.any f.isNaN then NaNOut f x r else R f x r))
    let two : List Opnd := [.src a false, opndB b false]
    op (.fadd ty rm d a b) two (fun f x r => SumsTo f rm (some (f.val (x.getD 0 0))) (f.neg (x.getD 0 0)) (x.getD 1 0) r) ∧
    op (.fsub ty rm d a b) two (fun f x r => SumsTo f rm (some (f.val (x.getD 0 0))) (f.neg (x.getD 0 0))
      (f.withSign (!f.neg (x.getD 1 0)) (f.low (x.getD 1 0))) r) ∧
    op (.fmul ty rm d a b) two (fun f x r => ∃ p, Multiplies f (x.getD 0 0) (x.getD 1 0) p ∧ match p with
      | none => r = (f.dNaN, fINV)
      | some (.inf n) => r = (f.withSign n f.infCode, 0)
      | some y => RoundsToZ f rm y.rat (f.neg (x.getD 0 0) != f.neg (x.getD 1 0)) r) ∧
    op (.fma ty rm d a' b' c') [.src a' false, .src b' false, .src c' false] (fun f x r =>
      ∃ p, Multiplies f (x.getD 0 0) (x.getD 1 0) p ∧ SumsTo f rm p (f.neg (x.getD 0 0) != f.neg (x.getD 1 0)) (x.getD 2 0) r)

/-- 06 R191, R192, R195: minimum and maximum by TotalLess deliver one operand's pattern; the sign operations change the sign
bit alone; `fclass` sets one bit of ten; none sets a flag. -/
def Obligations.FloatSelection : Prop :=
  ∀ (ty : FltTy) (d : Dst) (a b : Src),
    let op (i : Instr) (ops : List Opnd) (R : Ieee → Nat → Nat → Nat → Prop) : Prop :=
      Lane1R i ops d false (EltR ty (fun f x r => R f (x.getD 0 0) (x.getD 1 0) r.1 ∧ r.2 = 0))
    let one : List Opnd := [.src a false]
    let two : List Opnd := [.src a false, .src b false]
    op (.fmin ty d a b) two (fun f x y r => open Classical in r = if TotalLess f y x then y else x) ∧
    op (.fmax ty d a b) two (fun f x y r => open Classical in r = if TotalLess f x y then y else x) ∧
    op (.fabs ty d a) one (fun f x _ r => f.neg r = false ∧ f.low r = f.low x) ∧
    op (.fneg ty d a) one (fun f x _ r => f.neg r = !f.neg x ∧ f.low r = f.low x) ∧
    op (.fcopysign ty d a b) two (fun f x y r => f.neg r = f.neg y ∧ f.low r = f.low x) ∧
    op (.fclass ty d a) one (fun f x _ r => match f.val x with
      | .nan => r = if f.isSNaN x then 1 else 2
      | .inf n => r = if n then 4 else 512
      | y => r = if y.rat = 0 then (if f.neg x then 32 else 64)
        else if |y.rat| < 2 ^ (1 - f.g.bias) then (if f.neg x then 16 else 128) else if f.neg x then 8 else 256)

/-- 06 R193, Table 6.9: the predicates of `fcmp`, which for packed types hold when they hold for both elements; 0 to 7 set INV
for a signalling NaN, and the others set no flag. -/
def Obligations.FloatCompare : Prop :=
  ∀ (ty : FltTy) (d : BitVec 4) (a b : Src),
    let ops : List Opnd := [.src a false, .src b false]
    let both (R : Ieee → Nat → Nat → Prop) (v : List DWord) : Prop :=
      let half (f : Ieee) (p : Nat) : Prop := R f ((arg v 0).extractLsb' p 16).toNat ((arg v 1).extractLsb' p 16).toNat
      match ty with
      | .f32 => R fp32 (lo32 (arg v 0)).toNat (lo32 (arg v 1)).toNat
      | .f16x2 => half fp16 0 ∧ half fp16 16
      | .bf16x2 => half bf16 0 ∧ half bf16 16
    let cmp (p : FcmpPred) (R : Ieee → Nat → Nat → Prop) (quiet : Bool) : Prop :=
      MaskInstr (.fcmp p ty d a b) ops d (fun _ v => open Classical in decide (both R v))
        (fun v => open Classical in if quiet = true ∧ ¬ both (fun f x y => f.isSNaN x = false ∧ f.isSNaN y = false) v then fINV else 0)
    let un (f : Ieee) (x y : Nat) : Prop := f.isNaN x = true ∨ f.isNaN y = true
    let lt (f : Ieee) (x y : Nat) : Prop := match f.val x, f.val y with
      | .nan, _ => False
      | _, .nan => False
      | .inf n, .inf m => n = true ∧ m = false
      | .inf n, _ => n = true
      | _, .inf m => m = false
      | p, q => p.rat < q.rat
    cmp .eq (fun f x y => ¬ un f x y ∧ ¬ lt f x y ∧ ¬ lt f y x) true ∧ cmp .ne (fun f x y => un f x y ∨ lt f x y ∨ lt f y x) true ∧
    cmp .lt lt true ∧ cmp .le (fun f x y => ¬ un f x y ∧ ¬ lt f y x) true ∧
    cmp .gt (fun f x y => lt f y x) true ∧ cmp .ge (fun f x y => ¬ un f x y ∧ ¬ lt f x y) true ∧
    cmp .un un true ∧ cmp .ord (fun f x y => ¬ un f x y) true ∧
    cmp .tlt TotalLess false ∧ cmp .tle (fun f x y => TotalLess f x y ∨ x = y) false ∧ cmp .teq (fun _ x y => x = y) false

/-- 06 R194, Table 6.10; 06 R196, R197: the functions at their special operands, and the values that are exact or rational. `fscale` multiplies by a power of two and rounds once; `frnd` delivers the integral value of its mode and
sets no flag but INV for a signalling NaN; both return infinities and zeros unchanged. -/
def Obligations.FloatFunctions : Prop :=
  (
    ∀ (rm : RM) (d : Dst) (a : Src),
      let fn (i : Instr) (sp : List (Nat × Nat × Word)) (R : ℚ → Nat × Word → Prop) : Prop :=
        Lane1R i [.src a false] d false (EltR .f32 (fun f x r =>
          (f.isNaN (x.getD 0 0) = true → NaNOut f x r) ∧ (∀ e ∈ sp, x.getD 0 0 = e.1 → r = e.2) ∧
          ((f.val (x.getD 0 0)).finite = true → f.low (x.getD 0 0) ≠ 0 → R (f.val (x.getD 0 0)).rat r)))
      let bad : Nat × Word := (0x7FC00000, fINV)
      fn (.frcp rm d a) [(0xFF800000, 0x80000000, 0), (0x80000000, 0xFF800000, fDZ), (0, 0x7F800000, fDZ), (0x7F800000, 0, 0)]
        (fun x r => RoundsTo fp32 rm (1 / x) r) ∧
      fn (.frsq rm d a) [(0xFF800000, bad), (0x80000000, 0xFF800000, fDZ), (0, 0x7F800000, fDZ), (0x7F800000, 0, 0)]
        (fun x r => (x < 0 → r = bad) ∧ ∀ y : ℚ, 0 < y → y * y * x = 1 → RoundsTo fp32 rm y r) ∧
      fn (.fsqrt rm d a) [(0xFF800000, bad), (0x80000000, 0x80000000, 0), (0, 0, 0), (0x7F800000, 0x7F800000, 0)]
        (fun x r => (x < 0 → r = bad) ∧ ∀ y : ℚ, 0 < y → y * y = x → RoundsTo fp32 rm y r) ∧
      fn (.fexp2 rm d a) [(0xFF800000, 0, 0), (0x80000000, 0x3F800000, 0), (0, 0x3F800000, 0), (0x7F800000, 0x7F800000, 0)]
        (fun x r => ∀ n : Int, x = n → RoundsTo fp32 rm (2 ^ n) r) ∧
      fn (.flog2 rm d a) [(0xFF800000, bad), (0x80000000, 0xFF800000, fDZ), (0, 0xFF800000, fDZ), (0x7F800000, 0x7F800000, 0)]
        (fun x r => (x < 0 → r = bad) ∧ ∀ n : Int, x = 2 ^ n → RoundsToZ fp32 rm n false r)) ∧
  (
    ∀ (ty : FltTy) (rm : RM) (d : Dst) (a : Src) (b : OpB),
      let op (f : Ieee) (x : Nat) (r : Nat × Word) (R : ℚ → Prop) : Prop := match f.val x with
        | .nan => NaNOut f [x] r
        | .inf _ => r = (x, 0)
        | y => if y.rat = 0 then r = (x, 0) else R y.rat
      Lane1R (.fscale ty rm d a b) [.src a false, opndB b false] d false (fun v =>
        EltR ty (fun f x r => op f (x.getD 0 0) r (fun q => RoundsTo f rm (q * 2 ^ (lo32 (arg v 1)).toInt) r)) [arg v 0]) ∧
      Lane1R (.frnd ty rm d a) [.src a false] d false (EltR ty (fun f x r => op f (x.getD 0 0) r (fun q =>
        r.2 = 0 ∧ f.neg r.1 = f.neg (x.getD 0 0) ∧ (f.val r.1).finite = true ∧ (f.val r.1).rat = ratRound rm 0 q))))


/-- 06 R198, R199, R201: conversions between IEEE formats, to and from integers, and of packed pairs. -/
def Obligations.Conversions : Prop :=
  ∀ (dst src fc : CvtFmt) (ity : IntTy) (bf : Bool) (rm : RM) (d : Dst) (a b : Src),
    let half : Ieee := if bf then bf16 else fp16
    let fmt (c : CvtFmt) : Ieee := match c with
      | .f32 => fp32
      | .f16 => fp16
      | .bf16 => bf16
    let pat (f : Ieee) (x : DWord) : Nat := x.toNat % 2 ^ f.w
    let lo : Int := if itSigned ity then -(2 ^ (itW ity - 1)) else 0
    let hi : Int := if itSigned ity then 2 ^ (itW ity - 1) - 1 else 2 ^ itW ity - 1
    Lane1R (.fcvt dst src rm d a) [.src a false] d false (fun v y fl => y.toNat < 2 ^ (fmt dst).w ∧
      Converts (fmt src) (fmt dst) rm (pat (fmt src) (arg v 0)) (y.toNat, fl)) ∧
    Lane1R (.icvt true ity fc rm d a) [.src a (it64 ity)] d false (fun v y fl =>
      RoundsToZ (fmt fc) rm (typed ity (arg v 0)) false (y.toNat, fl)) ∧
    Lane1R (.icvt false ity fc rm d a) [.src a false] d (it64 ity) (fun v y fl =>
      match (fmt fc).val (pat (fmt fc) (arg v 0)) with
      | .nan => y = 0 ∧ fl = fINV
      | .inf n => typed ity y = (if n then lo else hi) ∧ fl = fINV
      | x => if ratRound rm 0 x.rat < lo then typed ity y = lo ∧ fl = fINV
        else if hi < ratRound rm 0 x.rat then typed ity y = hi ∧ fl = fINV
        else typed ity y = ratRound rm 0 x.rat ∧ fl = if x.rat = ratRound rm 0 x.rat then 0 else fINX) ∧
    Lane1R (.fpack bf rm d a b) [.src a false, .src b false] d false (fun v y fl => ∃ fa fb, y.toNat < 2 ^ 32 ∧ fl = fa ||| fb ∧
      Converts fp32 half rm (lo32 (arg v 0)).toNat (y.toNat % 2 ^ 16, fa) ∧
      Converts fp32 half rm (lo32 (arg v 1)).toNat (y.toNat / 2 ^ 16, fb)) ∧
    Lane1R (.funpack bf d a) [.src a false] d true (fun v y fl => ∃ fa fb, fl = fa ||| fb ∧
      Converts half fp32 .rne ((arg v 0).extractLsb' 0 16).toNat (y.toNat % 2 ^ 32, fa) ∧
      Converts half fp32 .rne ((arg v 0).extractLsb' 16 16).toNat (y.toNat / 2 ^ 32, fb))

/-- 06 R180, R182, R183: the number that each code of binary8pP, signed and unsigned, of fp4 and of INT4 stands for. -/
def Obligations.NarrowFormats : Prop :=
  (∀ (p : Nat) (inf : Bool) (c : Nat), 1 ≤ p → p ≤ 7 → c < 256 →
    let mag (bias : Int) (e f : Nat) : ℚ :=
      if e = 0 then f * 2 ^ (1 - bias - ((p - 1 : Nat) : Int)) else (2 ^ (p - 1) + f) * 2 ^ (e - bias - ((p - 1 : Nat) : Int))
    let e (c : Nat) : Nat := c / 2 ^ (p - 1)
    let f (c : Nat) : Nat := c % 2 ^ (p - 1)
    let s := (b8Of p false inf).val c
    let u := (b8Of p true inf).val c
    (if c = 0x80 then s = .nan
      else if inf = true ∧ c = 0x7F then s = .inf false
      else if inf = true ∧ c = 0xFF then s = .inf true
      else s.finite = true ∧ s.rat = (if c < 128 then 1 else -1) * mag (2 ^ (7 - p)) (e (c % 128)) (f (c % 128))) ∧
    (if c = 0xFF then u = .nan
      else if inf = true ∧ c = 0xFE then u = .inf false
      else u.finite = true ∧ u.rat = mag (2 ^ (8 - p)) (e c) (f c))) ∧
  (fp4Of.val 8 = .nan ∧ (List.range 8).map (fun c => (fp4Of.val c).rat) = [0, 1 / 4, 1 / 2, 3 / 4, 1, 3 / 2, 2, 3] ∧
    ∀ c, 1 ≤ c → c ≤ 7 → (fp4Of.val (8 + c)).rat = -(fp4Of.val c).rat) ∧
  int4Val 8 = (0, fINT4RSV) ∧ ∀ c, c < 16 → c ≠ 8 → int4Val c = ((BitVec.ofNat 4 c).toInt, 0)

/-- 06 R200, R181, R179: conversions through a bound format slot without per-column scales: to the slot's format, and from it,
with the rounding of R181 and the flags of Table 6.2, where a conversion that SAT clamps sets OVF with INX; a slot that
is unbound or has per-column scales raises ILLEGAL_OPERAND. The model's choice (notes/assumptions/20): the tie in the test for
tininess of binary8p1 just below the least normal, and the flags of a negative number in an unsigned format. -/
def Obligations.SlotConversions : Prop :=
  ∀ (slot : BitVec 3) (rm : RM) (d : Dst) (a : Src),
    let ops : List Opnd := [.src a false]
    let bound (h : Here) : Prop := h.fmt slot ≠ 0 ∧ (slotOf (h.fmt slot)).scale ≠ 2
    let scale (sl : Slot) : ℚ := if sl.scale = 1 then (fp32.val sl.scl).rat else 1
    LaneR (.qcvtTo slot rm d a) ops d false 1 (fun _ h => bound h) (fun h _ v y fl => slotValid (h.fmt slot) = true → bound h →
      let sl := slotOf (h.fmt slot)
      let c := (lo32 (arg v 0)).toNat
      let lo : Int := if sl.kind = .int4 then -7 else if sl.uns then 0 else -128
      let hi : Int := if sl.kind = .int4 then 7 else if sl.uns then 255 else 127
      let code (q : Int) : Nat := (q % 2 ^ sl.width).toNat
      match sl.kind, fp32.val c with
      | .b8, .nan => y.toNat = sl.mini.nan ∧ fl = if fp32.isSNaN c then fINV else 0
      | .fp4, .nan => y.toNat = sl.mini.nan ∧ fl = if fp32.isSNaN c then fINV else 0
      | .b8, .inf n => MiniInf sl.mini sl.sat rm n (y.toNat, fl)
      | .b8, x => MiniRounds sl.mini sl.sat rm (x.rat / scale sl) (y.toNat, fl)
      | .fp4, .inf n => MiniInf sl.mini sl.sat rm n (y.toNat, fl)
      | .fp4, x => MiniRounds sl.mini sl.sat rm (x.rat / scale sl) (y.toNat, fl)
      | .int4, .nan => y.toNat = code sl.zp ∧ fl = fINV
      | .int8, .nan => y.toNat = code sl.zp ∧ fl = fINV
      | .int4, .inf n => y.toNat = code (if n then lo else hi) ∧ fl = fINV
      | .int8, .inf n => y.toNat = code (if n then lo else hi) ∧ fl = fINV
      | k, x => if k = .int4 ∨ k = .int8 then
            let q := ratRound rm 0 (x.rat / scale sl) + sl.zp
            if lo ≤ q ∧ q ≤ hi then y.toNat = code q ∧ fl = (if x.rat / scale sl = ratRound rm 0 (x.rat / scale sl) then 0 else fINX)
            else y.toNat = code (if sl.sat then max lo (min hi q) else q) ∧ fl = if sl.sat then fINV ||| fOVF ||| fINX else fINV
          else ∃ f r, sl.ieee = some f ∧ fl = r.2 ∧ (match x with
            | .nan => Converts fp32 f rm c r ∧ y.toNat = r.1
            | .inf n => y.toNat = f.withSign n f.infCode ∧ fl = 0
            | x => RoundsToZ f rm (x.rat / scale sl) (fp32.neg c) r ∧
                y.toNat = if sl.sat = true ∧ r.2 &&& fOVF ≠ 0 then f.withSign (fp32.neg c) (f.infCode - 1) else r.1)) ∧
    LaneR (.qcvtFrom slot rm d a) ops d false 1 (fun _ h => bound h) (fun h _ v y fl => slotValid (h.fmt slot) = true → bound h →
      let sl := slotOf (h.fmt slot)
      let c := (arg v 0).toNat % 2 ^ sl.width
      match sl.kind with
      | .int4 => ∃ r, RoundsToZ fp32 rm ((if c = 8 then 0 else (BitVec.ofNat 4 c).toInt : Int) * scale sl) false r ∧
          y.toNat = r.1 ∧ fl = r.2 ||| if c = 8 then fINT4RSV else 0
      | .int8 => RoundsToZ fp32 rm (((if sl.uns then (c : Int) else (BitVec.ofNat 8 c).toInt) - sl.zp : Int) * scale sl) false (y.toNat, fl)
      | k => if k = .b8 ∨ k = .fp4 then (match sl.mini.val c with
            | .nan => y.toNat = 0x7FC00000 ∧ fl = 0
            | .inf n => y.toNat = fp32.withSign n fp32.infCode ∧ fl = 0
            | x => RoundsToZ fp32 rm (x.rat * scale sl) false (y.toNat, fl))
          else ∃ f, sl.ieee = some f ∧ match f.val c with
            | .nan => y.toNat = 0x7FC00000 ∧ fl = if f.isSNaN c then fINV else 0
            | .inf n => y.toNat = fp32.withSign n fp32.infCode ∧ fl = 0
            | x => RoundsToZ fp32 rm (x.rat * scale sl) (f.neg c) (y.toNat, fl)) ∧
    (∀ i, i = .qcvtTo slot rm d a ∨ i = .qcvtFrom slot rm d a → ∀ s h, Runs s h ops (dstNames d false) → ¬ bound h →
      exec i s = .next (s.raise h cIllegalOperand 0))

/-- 06 R202: dot products with one rounding; a NaN among the operands is delivered first in the order A, B, C. The sign of an exact
zero sum of several terms, which R202 does not give, is the model's reading (notes/assumptions/20: DEDUCED). -/
def Obligations.DotProducts : Prop :=
  ∀ (bf : Bool) (slot : BitVec 3) (rm : RM) (d : Dst) (a b c : Src),
    let ops : List Opnd := [.src a false, .src b false, .src c false]
    let f : Ieee := if bf then bf16 else fp16
    let half (x : DWord) : List Nat := [(x.extractLsb' 0 16).toNat, (x.extractLsb' 16 16).toNat]
    let byte (x : DWord) : List Nat := [0, 8, 16, 24].map (fun p => (x.extractLsb' p 8).toNat)
    Lane1R (.fdot2 bf rm d a b c) ops d false (fun v y fl =>
      let l := half (arg v 0) ++ half (arg v 1)
      let z := (lo32 (arg v 2)).toNat
      let sig : Word := if l.any f.isSNaN || fp32.isSNaN z then fINV else 0
      match l.find? f.isNaN with
      | some x => (∃ w, Converts f fp32 .rne x (y.toNat, w)) ∧ fl = sig
      | none => if fp32.isNaN z then y.toNat = fp32.quiet z ∧ fl = sig
        else DotTo rm (((half (arg v 0)).map f.val).zip ((half (arg v 1)).map f.val)) (fp32.val z) (y.toNat, fl)) ∧
    LaneR (.fdot4 slot rm d a b c) ops d false 1
      (fun _ h => h.fmt slot ≠ 0 ∧ (slotOf (h.fmt slot)).kind = .b8 ∧ (slotOf (h.fmt slot)).scale = 0)
      (fun h _ v y fl =>
        let m := (slotOf (h.fmt slot)).mini
        let z := (lo32 (arg v 2)).toNat
        let sig : Word := if fp32.isSNaN z then fINV else 0
        (slotOf (h.fmt slot)).kind = .b8 →
        if ((byte (arg v 0) ++ byte (arg v 1)).any (fun x => m.val x == .nan)) then y.toNat = 0x7FC00000 ∧ fl = sig
        else if fp32.isNaN z then y.toNat = fp32.quiet z ∧ fl = sig
        else DotTo rm (((byte (arg v 0)).map m.val).zip ((byte (arg v 1)).map m.val)) (fp32.val z) (y.toNat, fl)) ∧
    ∀ s h, Runs s h ops (dstNames d false) →
      h.fmt slot = 0 ∨ (slotOf (h.fmt slot)).kind ≠ .b8 ∨ (slotOf (h.fmt slot)).scale ≠ 0 →
      exec (.fdot4 slot rm d a b c) s = .next (s.raise h cIllegalOperand 0)

/-- 06 R203 to R205: a reduction over the active lanes, by the canonical tree for FP32 sums, and the lowest lane for the least
or greatest element; a scan in ascending lane order. Both land at +2; without an active lane they write nothing and set no
flag. -/
def Obligations.GroupReduceAndScan : Prop :=
  ∀ (gt : GrpTy) (rm : RM) (d : Dst) (a : Src) (s : State) (h : Here), Runs s h [.src a false] (dstNames d false) →
    let x (k : Nat) : Word := lo32 (arg (s.srcs h [.src a false] k) 0)
    let less (p q : Word) : Prop := match gt with
      | .f32 => TotalLess fp32 p.toNat q.toNat
      | .i32 => p.toInt < q.toInt
      | .n32 => p.toNat < q.toNat
    let plus (p q : Word) : Word × Word := match gt with
      | .f32 => (BitVec.ofNat 32 (fp32.add rm p.toNat q.toNat).1, (fp32.add rm p.toNat q.toNat).2)
      | _ => (p + q, 0)
    let lands (i : Instr) (Q : (Nat → DWord) → Word → Prop) : Prop :=
      ∃ t f fl, exec i s = .next t ∧ DeliversWide s t h [.src a false] d false 2 f fl ∧ (h.lanes = [] → fl = 0) ∧ Q f fl
    let best (lt : Word → Word → Prop) (k : Nat) : Prop :=
      k ∈ h.lanes ∧ ∀ j ∈ h.lanes, ¬ lt (x j) (x k) ∧ (j < k → lt (x k) (x j))
    let run (op : Word → Word → Word) (l : List Nat) : Word := match l with
      | [] => 0
      | k :: l => l.foldl (fun p j => op p (x j)) (x k)
    let before (k : Nat) : List Nat := h.lanes.filter (fun j => decide (j < k))
    lands (.gred .add gt rm d a) (fun f fl => h.lanes ≠ [] → ∃ y, (∀ k, f k = y.setWidth 64) ∧ some (y, fl) =
      tree (fun p q => ((plus p.1 q.1).1, p.2 ||| q.2 ||| (plus p.1 q.1).2)) 5 0 (fun k => if k ∈ h.lanes then some (x k, 0) else none)) ∧
    lands (.gred .min gt rm d a) (fun f fl => fl = 0 ∧ (h.lanes ≠ [] → ∃ k, best less k ∧ ∀ j, f j = (x k).setWidth 64)) ∧
    lands (.gred .max gt rm d a) (fun f fl => fl = 0 ∧ (h.lanes ≠ [] → ∃ k, best (fun p q => less q p) k ∧ ∀ j, f j = (x k).setWidth 64)) ∧
    lands (.gred .argmin gt rm d a) (fun f fl => fl = 0 ∧ (h.lanes ≠ [] → ∃ k, best less k ∧ ∀ j, f j = BitVec.ofNat 64 k)) ∧
    lands (.gred .argmax gt rm d a) (fun f fl => fl = 0 ∧
      (h.lanes ≠ [] → ∃ k, best (fun p q => less q p) k ∧ ∀ j, f j = BitVec.ofNat 64 k)) ∧
    lands (.gscan .add gt rm d a) (fun f fl => (∀ k ∈ h.lanes, f k = (run (fun p q => (plus p q).1) (before k ++ [k])).setWidth 64) ∧
      fl = h.lanes.tail.foldl (fun w k => w ||| (plus (run (fun p q => (plus p q).1) (before k)) (x k)).2) 0) ∧
    lands (.gscan .addx gt rm d a) (fun f fl => (∀ k ∈ h.lanes, f k = (run (fun p q => (plus p q).1) (before k)).setWidth 64) ∧
      (gt ≠ .f32 → fl = 0)) ∧
    lands (.gscan .min gt rm d a) (fun f fl => fl = 0 ∧
      ∀ k ∈ h.lanes, f k = (run (fun p q => open Classical in if less q p then q else p) (before k ++ [k])).setWidth 64) ∧
    lands (.gscan .max gt rm d a) (fun f fl => fl = 0 ∧
      ∀ k ∈ h.lanes, f k = (run (fun p q => open Classical in if less p q then q else p) (before k ++ [k])).setWidth 64)

/-- 06 R206: a shuffle delivers lane j of A to each active lane, or its own A where j is outside the group or not present; a
broadcast delivers one lane of A, or 0 where that lane is not present. Both land at +2 and set no flag; without an active lane
they write nothing (R203). -/
def Obligations.GroupExchange : Prop :=
  ∀ (mode : GshufMode) (wd : Wd) (d : Dst) (a : Src) (b : OpB) (c : OpK) (s : State) (h : Here),
    let ops : List Opnd := [.src a false, opndB b false]
    let ops1 : List Opnd := [.src a (wd64 wd)]
    let m (k : Nat) : Nat := (lo32 (arg (s.srcs h ops k) 1)).toNat
    let j (k : Nat) : Nat := match mode with
      | .idx => m k % 32
      | .up => if m k ≤ k then k - m k else 32
      | .down => k + m k
      | .xor => k ^^^ (m k % 32)
    let from_ (k : Nat) : Nat := if j k < 32 ∧ h.grp.present.getLsbD (j k) = true then j k else k
    let jb : Nat := (lo32 (h.uniZ c)).toNat % 32
    (Runs s h ops (dstNames d false) → (∀ k ∈ h.lanes, (Opnd.src a false).latchLost h (from_ k) = none) →
      ∃ t, exec (.gshuf mode d a b) s = .next t ∧ DeliversWide s t h ops d false 2 (fun k => arg (s.srcs h ops (from_ k)) 0) 0) ∧
    (Runs s h ops1 (dstNames d (wd64 wd)) → (h.grp.present.getLsbD jb = true → (Opnd.src a (wd64 wd)).latchLost h jb = none) →
      ∃ t, exec (.gbcast wd d a c) s = .next t ∧ DeliversWide s t h ops1 d (wd64 wd) 2
        (fun _ => if h.grp.present.getLsbD jb then arg (s.srcs h ops1 jb) 0 else 0) 0)

/-! ### The memory access class (07) -/

/-- 07 R207 to R210, R236: where every lane's access passes its checks, a load delivers its little-endian bytes, extended by
its type, at +2 through SHARED, +6 through CLUSTER and +1 through LANE. -/
def Obligations.LoadInstructions : Prop :=
  ∀ (cluster : Bool) (ty : LdTy) (d : Dst) (base : Src) (off : Option Src) (disp : Option Word) (s : State) (h : Here),
    let w : Window := if cluster then .cluster else .shared
    let i : Instr := if cluster then .cld ty d base off disp else .ld ty d base off disp
    let ops := addrOps base off
    let n : Nat := match ty with
      | .n8 | .i8 => 1
      | .n16 | .i16 => 2
      | .b32 => 4
      | .b64 => 8
    let ext (x : Nat) : DWord := match ty with
      | .i8 => ((BitVec.ofNat 8 x).signExtend 32).setWidth 64
      | .i16 => ((BitVec.ofNat 16 x).signExtend 32).setWidth 64
      | _ => BitVec.ofNat 64 x
    let ea (k : Nat) : DWord := arg (s.srcs h ops k) 0 +
      (if off.isSome then (lo32 (arg (s.srcs h ops k) 1)).setWidth 64 else 0) + (disp.getD 0).signExtend 64
    let pl (k : Nat) : Nat × Nat := h.place w (ea k - windowBase w).toNat
    Runs s h ops (dstNames d (ty == .b64)) →
      ((∀ k ∈ h.lanes, ∃ o, h.checkAccess w (ea k) n = .ok o) →
        ((∀ k ∈ h.lanes, (s.core (pl k).1).lost (pl k).2 n = false ∧ unseenAt s h (pl k).1 (pl k).2 n = false) →
          ∃ t, exec i s = .next t ∧ Delivers s t h ops d (ty == .b64) (if cluster then 6 else 2)
            (fun k => ext (ofBytes ((s.core (pl k).1).bytes (pl k).2 n))) 0) ∧
        (∀ q, (s.core q).errs = [] → ∀ a, (s.core q).bytes a n = rdN (s.core q).scratch a n) ∧
        (∀ k l, h.lanes = k :: l → (s.core (pl k).1).lost (pl k).2 n = true →
          ∃ t g, exec i s = .next t ∧ t.faults = s.faults ∧ SameMem s t ∧ t.mine h = some g ∧
            OnlyGroup { s with out := t.out } t h g ∧
            (∃ l, t.out = s.out ++ l ∧ ∀ o ∈ l, ∃ j b, j ∈ h.lanes ∧ o = .report 0x219 (pl j).1 b) ∧
            g.lateErr = h.grp.lateErr ++ [{ due := h.rg.pos + (if cluster then 6 else 2), planned := h.planned, pc := h.cur.pc,
                                            addr := ea k, lane := k, ilen := h.cur.ilen }] ∧
            ∀ p, g.pend.getLast? = some p → (∀ j, j < 32 → bit p.lanes j = false) ∨
              ∃ x ∈ h.grp.pend, x.due = p.due ∧ x.reg = p.reg ∧ x.lanes = p.lanes ∧ x.vals = p.vals)) ∧
      ((∀ k ∈ h.lanes, ∃ o, h.checkAccess .lane (ea k) n = .ok o) →
        ∃ t, exec (.lld ty d base off disp) s = .next t ∧ Delivers s t h ops d (ty == .b64) 1
          (fun k => ext (ofBytes (rdN h.grp.lane (1024 * k + (ea k - laneBase).toNat) n))) 0)

/-- 07 R237: where every lane's access passes its checks, a store writes the low bytes of its data, lane after lane, at the
place of each lane's address; every other byte reads as before. -/
def Obligations.StoreInstructions : Prop :=
  ∀ (cluster : Bool) (ty : StTy) (base : Src) (off : Option Src) (disp : BitVec 18) (c : Src) (s : State) (h : Here),
    let w : Window := if cluster then .cluster else .shared
    let i : Instr := if cluster then .cst ty base off disp c else .st ty base off disp c
    let ops := addrOps base off ++ [.src c (ty == .b64)]
    let n : Nat := match ty with
      | .b8 => 1
      | .b16 => 2
      | .b32 => 4
      | .b64 => 8
    let ea (k : Nat) : DWord := arg (s.srcs h ops k) 0 +
      (if off.isSome then (lo32 (arg (s.srcs h ops k) 1)).setWidth 64 else 0) + disp.signExtend 64
    let data (k : Nat) : List Byte := toBytes n (arg (s.srcs h ops k) (if off.isSome then 2 else 1)).toNat
    let pl (k : Nat) : Nat × Nat := h.place w (ea k - windowBase w).toNat
    Runs s h ops [] →
      ((∀ k ∈ h.lanes, ∃ o, h.checkAccess w (ea k) n = .ok o) → (∀ k ∈ h.lanes, (s.core (pl k).1).errs = []) →
        ∃ t, exec i s = .next t ∧ t.faults = s.faults ∧ OutsideSame s t h.lanes pl n ∧
          StoresLanes s t h ops (h.lanes.map (fun k => ((pl k).1, (pl k).2, data k)))) ∧
      ((∀ k ∈ h.lanes, ∃ o, h.checkAccess .lane (ea k) n = .ok o) →
        ∃ t g, exec (.lst ty base off disp c) s = .next t ∧ t.faults = s.faults ∧ SameMem s t ∧ t.mine h = some g ∧
          OnlyGroup s t h g ∧ { g.bare with lane := [] } = { h.grp.bare with lane := [] } ∧ g.cursor = 32 ∧
          g.iflags = h.grp.iflags ∧ SourcesDone h.grp g ops [] ∧
          g.lane = h.lanes.foldl (fun m k => wrN m (1024 * k + (ea k - laneBase).toNat) (data k)) h.grp.lane)

/-- 07 R209; 07 R216, R217: the checks of an access, in order; a lane that fails one raises the cause with its address, and nothing of a load
or store of the lowest active lane is performed when it is that lane. in a bank group without a marked bank, any error in one symbol of a column is corrected, and the read
delivers the data; with a marked bank, an error of that bank is rebuilt, and an error of another is found and loses the
column. -/
def Obligations.ScratchAccess : Prop :=
  (
    (∀ (h : Here) (w : Window) (ea : DWord) (n : Nat), 0 < n →
      let o := ea.toNat - (windowBase w).toNat
      h.checkAccess w ea n =
        if ea.toNat < (windowBase w).toNat ∨ (windowBase w).toNat + h.windowSize w ≤ ea.toNat then .error cAperture
        else if w = .lane ∧ h.launch.record.lsbytes ≤ o then .error cLaneStoreBound
        else if w = .cluster ∧ h.launch.record.scrbytes ≤ o % 2097152 then .error cAperture
        else if o % n = 0 then .ok o else .error cMisalign) ∧
    (windowBase .lane = 0xFFFFFF0000000000 ∧ windowBase .shared = 0xFFFFFF1000000000 ∧ windowBase .cluster = 0xFFFFFF2000000000) ∧
    (∀ h : Here, h.windowSize .lane = 1024 ∧ h.windowSize .shared = h.launch.record.scrbytes ∧
      h.windowSize .cluster = h.launch.record.stageCount * 2097152) ∧
    ∀ (lt : LdTy) (st : StTy) (d : Dst) (base c : Src) (off : Option Src) (x : Option Word) (y : BitVec 18) (i : Instr) (s : State)
      (h : Here) (k : Nat) (l : List Nat) (e : Nat) (ea : DWord),
      (∃ w, (i = .ld lt d base off x ∧ w = Window.shared ∨ i = .lld lt d base off x ∧ w = .lane ∨ i = .cld lt d base off x ∧ w = .cluster) ∧
        Runs s h (addrOps base off) (dstNames d (lt == .b64)) ∧ h.lanes = k :: l ∧
        ea = effAddr off ((x.getD 0).signExtend 64) (s.srcs h (addrOps base off) k) ∧ h.checkAccess w ea (ldSize lt) = .error e) ∨
      (∃ w, (i = .st st base off y c ∧ w = Window.shared ∨ i = .lst st base off y c ∧ w = .lane ∨ i = .cst st base off y c ∧ w = .cluster) ∧
        Runs s h (addrOps base off ++ [.src c (st == .b64)]) [] ∧ h.lanes = k :: l ∧
        ea = effAddr off (y.signExtend 64) (s.srcs h (addrOps base off ++ [.src c (st == .b64)]) k) ∧
        h.checkAccess w ea (stSize st) = .error e) →
      ∃ t f g, exec i s = .next t ∧ t.faults = s.faults ++ [f] ∧ f.cause = e ∧ f.addr = ea ∧ f.lane = k ∧ f.tlane = k ∧ f.wide = false ∧
        f.pc = h.cur.pc ∧ f.res = h.cur.pc ∧ SameMem s t ∧ t.mine h = some g ∧ g.cursor = k ∧ g.lane = h.grp.lane) ∧
  (
    ∀ (b c : Nat) (e f : Byte), b < 10 → c < 10 → e ≠ 0 →
      decodeCol 15 [] = some ([], none) ∧ decodeCol 15 [(b, e)] = some ([], some b) ∧ decodeCol b [(b, e)] = some ([], none) ∧
      (c ≠ b → f ≠ 0 → decodeCol b [(c, f)] = none ∧ decodeCol b [(b, e), (c, f)] = none) ∧
      (c ≠ b → f ≠ 0 → decodeCol 15 [(b, e), (c, f)] ≠ some ([], none)))


/-- 07 R232 to R234: the offsets of a stream, its odometer, and what naming it as a source delivers: the elements as they
stand, or as they stood before a write since the position before the last. -/
def Obligations.StreamShapes : Prop :=
  (∀ (b s0 s1 s2 s3 s4 : Word) (z : Esz) (w : Bool) (e0 a e1 e2 e3 e4 p1 p2 p3 p4 k : Nat),
    p1 < e1 → p2 < e2 → p3 < e3 → p4 < e4 →
    let d : Stream :=
      { base := b, esz := z, wrap := w, ext0 := e0, ext := [e1, e2, e3, e4], stride := [s0, s1, s2, s3, s4],
        pos := [p1, p2, p3, p4], setAt := a }
    let count (l : List Nat) : Nat := l.getD 0 0 + e1 * (l.getD 1 0 + e2 * (l.getD 2 0 + e3 * l.getD 3 0))
    d.off k = b.toNat + k * s0.toInt + p1 * s1.toInt + p2 * s2.toInt + p3 * s3.toInt + p4 * s4.toInt ∧
    count d.advance.pos = (count d.pos + 1) % (e1 * e2 * e3 * e4) ∧
    (d.advance.wrap = true ↔ w = true ∨ count d.pos + 1 = e1 * e2 * e3 * e4) ∧
    { d.advance with pos := d.pos, wrap := w } = d) ∧
  ∀ (s : State) (h : Here) (n : BitVec 4) (k : Nat), k < 32 →
    let d := h.grp.stream n
    let c := s.core h.q
    let ext (x : Nat) : DWord := match d.esz with
      | .i16 => ((BitVec.ofNat 16 x).signExtend 32).setWidth 64
      | .i8 => ((BitVec.ofNat 8 x).signExtend 32).setWidth 64
      | _ => BitVec.ofNat 64 x
    let a := h.ctb.base + (d.off k).toNat
    (k < d.ext0 → c.errs = [] → c.fresh = [] → (s.streamVec h n).1.getD k 0 = ext (rdVal c.scratch a (eszSize d.esz))) ∧
    (∀ f, k < d.ext0 → c.errs = [] → c.fresh = [f] → f.addr = 8 * (a / 8) → f.mask = 255 → a % 8 + eszSize d.esz ≤ 8 →
      h.grp.markAt (h.rg.pos - 2) s.wseq ≤ f.stamp →
      (s.streamVec h n).1.getD k 0 = ext (f.old.toNat / 2 ^ (8 * (a % 8)) % 2 ^ (8 * eszSize d.esz))) ∧
    (d.ext0 ≤ k → (s.streamVec h n).1.getD k 0 = 0)

/-- 07 R238 to R241: `sdset` gives a stream its shape, or raises STREAM; `sdget` reads a field; `sdrd` and `sdwr` read and
write the elements of the lanes below EXT0, and the stream advances, once where it is the data source too (02 R50); `sdrew`
rewinds it. -/
def Obligations.StreamInstructions : Prop :=
  ∀ (esz : Esz) (item : SdItem) (wd : Wd) (sd : BitVec 4) (a : BitVec 6) (base : Word) (ext0 : BitVec 6) (d : Dst) (b : Src),
    let u (h : Here) (x : BitVec 6) : Nat := (h.k (a + x)).toNat
    let strides (h : Here) : List Word := [BitVec.ofNat 32 (u h 0), BitVec.ofNat 32 (u h 0 / 2 ^ 32), BitVec.ofNat 32 (u h 1),
      BitVec.ofNat 32 (u h 1 / 2 ^ 32), BitVec.ofNat 32 (u h 2)]
    let exts (h : Here) : List Nat := [u h 2 / 2 ^ 32 % 2 ^ 16, u h 2 / 2 ^ 48, u h 3 % 2 ^ 16, u h 3 / 2 ^ 16 % 2 ^ 16]
    let z : Int := match esz with
      | .b32 => 4
      | .n16 | .i16 => 2
      | .n8 | .i8 => 1
      | .b64 => 8
    let last (h : Here) : List Int := (strides h).zipWith (fun x e => x.toInt * ((e : Int) - 1)) (ext0.toNat :: exts h)
    let ok (h : Here) : Prop := u h 3 / 2 ^ 32 = 0 ∧ 0 ∉ exts h ∧ (base.toNat : Int) % z = 0 ∧ (∀ x ∈ strides h, x.toInt % z = 0) ∧
      0 ≤ base.toNat + ((last h).map (fun x => min 0 x)).sum ∧
      base.toNat + ((last h).map (fun x => max 0 x)).sum + z ≤ h.launch.record.scrbytes
    let free (_ : State) (h : Here) : Prop := h.mtileHolds sd = false
    let upd (h : Here) (f : Stream → Stream) (g : Group) : Group :=
      { g with sd := g.sd.modify sd.toNat (fun x => { f x with setAt := h.rg.pos + 1 }) }
    GroupInstr (.sdset esz sd a base ext0) (fun s h => ok h ∧ free s h) (fun h g => upd h (fun _ =>
      { base := base, esz := esz, wrap := false, ext0 := ext0.toNat, ext := exts h, stride := strides h, pos := [0, 0, 0, 0],
        setAt := 0 }) g) ∧
    RefusedWide (.sdset esz sd a base ext0) (fun _ h => ¬ ok h) cStream (fun _ => sd.setWidth 64) ∧
    GroupInstr (.sdrew sd) free (fun h g => upd h (fun x => { x with pos := [0, 0, 0, 0], wrap := false }) g) ∧
    LaneInstr (.sdget item d sd) [] d true 1 Always (fun h _ _ =>
      let x := h.grp.stream sd
      match item with
      | .base => BitVec.ofNat 64 (x.base.toNat + 2 ^ 32 * (match x.esz with
          | .b32 => 0
          | .n16 => 1
          | .i16 => 2
          | .n8 => 3
          | .i8 => 4
          | .b64 => 5) + 2 ^ 35 * x.wrap.toNat)
      | .stride n => (x.stride.getD n 0).signExtend 64
      | .extent n => BitVec.ofNat 64 ((x.ext0 :: x.ext).getD n 0)
      | .pos => BitVec.ofNat 64 (x.pos.getD 0 0 + 2 ^ 16 * x.pos.getD 1 0 + 2 ^ 32 * x.pos.getD 2 0 + 2 ^ 48 * x.pos.getD 3 0))
      (fun _ _ _ => 0) ∧
    ∀ s h, let x := h.grp.stream sd
      let pl (k : Nat) : Nat × Nat := (h.q, h.ctb.base + (x.off k).toNat)
      let n := eszSize x.esz
      let ops : List Opnd := [.src b (wd64 wd)]
      let low : List Nat := h.lanes.filter (fun k => decide (k < x.ext0))
      let fits : Prop := 0 < x.ext0 ∧ (wd = .w64 ↔ x.esz = .b64) ∧ h.mtileHolds sd = false
      (Runs s h [] (dstNames d (wd64 wd)) → fits →
        (∀ k ∈ low, (s.core h.q).lost (pl k).2 n = false ∧ unseenAt s h h.q (pl k).2 n = false) →
        ∃ v, Delivers s v h [] d (wd64 wd) 2 (fun k =>
            if k < x.ext0 then eszExt x.esz (ofBytes ((s.core h.q).bytes (pl k).2 n)) else 0) 0 ∧
          exec (.sdrd wd d sd) s = .next (v.modG h (upd h Stream.advance))) ∧
      (Runs s h ops [] → fits → (s.core h.q).errs = [] →
        ∃ v, v.faults = s.faults ∧ OutsideSame s v low pl n ∧
          StoresLanes s v h ops (low.map (fun k => ((pl k).1, (pl k).2, toBytes n (arg (s.srcs h ops k) 0).toNat))) ∧
          exec (.sdwr wd sd b) s = .next (v.modG h (upd h (if sd ∈ streamsOf ops then id else Stream.advance))))

/-! ### The matrix class (08) -/

/-- 08 R253, R254, R262 to R264, R268 to R270, R273: what each instruction of the matrix class queues when its checks of R261
pass; `mmq` and `msum` also advance their stream, and open a fused item or join the one that their position opened. That a
tile's tag is checked as the queue will leave it is the model's reading (notes/assumptions/22: DEDUCED; R244 says it of planes). -/
def Obligations.MatrixItems : Prop :=
  ∀ (slot : BitVec 3) (six : BitVec 8) (a b : BitVec 6) (sd tile vix : BitVec 4) (out : DrainOut) (rm : RM) (d : Dst) (form : MmForm)
    (sat sg : Bool) (mult : BitVec 9),
    let off (x : DWord) : Nat := (x - 0xFFFFFF1000000000).toNat
    let share (h : Here) : Prop := (h.launch.record.engshare.extractLsb' (4 * h.cur.slot) 4).toNat ≠ 0
    let plane (h : Here) : Prop := share h ∧ h.launch.record.planeSlot h.cur.slot = true ∧ h.mtileBusy = false
    let fits (h : Here) (o n align : Nat) : Prop := o % align = 0 ∧ o + n ≤ h.launch.record.scrbytes
    let sl (h : Here) : Slot := slotOf (h.fmt slot)
    let bound (h : Here) : Prop := h.fmt slot ≠ 0
    let scales (h : Here) (n ix : Nat) : Prop := (sl h).scale = 2 → fits h ((sl h).scl + n * ix) n 1
    let vec (h : Here) (n ix : Nat) : Option Nat := if (sl h).scale = 2 then some (h.ctb.base + ((sl h).scl + n * ix)) else none
    let own (h : Here) (w : Word) : Prop := ∀ k, k < 16 → w.getLsbD k = true → h.accmask.getLsbD k = true
    let e : Nat := match out with
      | .f32 | .i32 => 4
      | .bf16 => 2
      | .i8 | .n8 => 1
    let pitch (h : Here) : Nat := (h.k b).toNat % 0x100000000
    let vlen : Nat := match out with
      | .f32 | .bf16 => 256
      | _ => 1024
    QueuesItem (.mls slot a six) (fun _ h => plane h ∧ bound h ∧ fillSlotOk (h.fmt slot) false = true ∧
        fits h (off (h.k a)) 16384 256 ∧ scales h 256 six.toNat)
      (fun h => (.fill false (h.fmt slot) (h.ctb.base + off (h.k a)) (h.ctb.base + off 0) (vec h 256 six.toNat), 0)) ∧
    QueuesItem (.mlsSp slot a b six) (fun _ h => plane h ∧ bound h ∧ (sl h).kind = .bf16 ∧ (sl h).scale = 0 ∧
        fits h (off (h.k a)) 16384 256 ∧ fits h (off (h.k b)) 2048 256)
      (fun h => (.fill true (h.fmt slot) (h.ctb.base + off (h.k a)) (h.ctb.base + off (h.k b)) none, 0)) ∧
    QueuesItem .mswap (fun _ h => plane h) (fun _ => (.swap, 1)) ∧
    QueuesItem (.macz b) (fun _ h => share h ∧ (h.k b).toNat < 0x10000 ∧ own h (lo32 (h.k b)))
      (fun h => (.clear ((h.k b).setWidth 16) 0, 1)) ∧
    QueuesItem (.maczFill a b) (fun _ h => share h ∧ (h.k b).toNat < 0x10000 ∧ own h (lo32 (h.k b)))
      (fun h => (.clear ((h.k b).setWidth 16) (lo32 (h.k a)), 1)) ∧
    QueuesItem (.mdrain out slot a b tile vix rm) (fun s h => share h ∧ bound h ∧ drainSlotOk out (h.fmt slot) = true ∧
        h.accmask.getLsbD tile.toNat = true ∧
        (((s.core h.q).mx.logical h.cur.slot).tags.getD tile.toNat .any = .fp → out = .f32 ∨ out = .bf16) ∧
        (h.k b).toNat < 0x100000000 ∧ pitch h % 64 = 0 ∧ 64 * e ≤ pitch h ∧ fits h (off (h.k a)) (31 * pitch h + 64 * e) 64 ∧
        scales h vlen vix.toNat)
      (fun h => (.drain out (h.fmt slot) (h.ctb.base + off (h.k a)) (pitch h) tile.toNat
        (h.ctb.base + ((sl h).scl + vlen * vix.toNat)) rm, 34)) ∧
    (∀ s h, Runs s h [] (dstNames d false) → share h → ∃ t g p, exec (.mstat d) s = .next t ∧
      Queues s t h [(.stat h.accmask (h.launch.record.planeSlot h.cur.slot), 1)] g id ∧ g.bare = h.grp.bare ∧ g.cursor = 32 ∧
      g.iflags = h.grp.iflags ∧ SourcesDone h.grp g [] (dstNames d false) ∧
      (h.lanes ≠ [] ∨ dstReg d ≠ none → g.pend.getLast? = some p ∧ p.item = s.nextId + 1 ∧ p.reg = dstReg d ∧
        p.latch = some (dstLatch d) ∧ ∀ k, k < 32 → bit p.lanes k = h.lanes.contains k)) ∧
    ∀ s h, s.here = some h →
      let st := h.grp.stream sd
      let lg := (s.core h.q).mx.logical h.cur.slot
      let q := (s.core h.q).mx.queue h.cur.slot
      let slices (len : Nat) : Prop := ∀ k, k < 32 → k < st.ext0 → h.grp.present.getLsbD k = true →
        0 ≤ st.off k ∧ st.off k % 256 = 0 ∧ st.off k + (len : Int) ≤ (h.launch.record.scrbytes : Int)
      let part (f : MmForm) (az : DWord) (sgn : Bool) (m : BitVec 9) : Part :=
        { grp := h.cur.grp, pos := h.rg.pos, rows := maskOf (fun k => h.grp.active.getLsbD k && decide (k < st.ext0)),
          offs := mkLanes (fun k => h.ctb.base + (st.off k).toNat), form := f, sat := sat, tile := tile.toNat, aslot := az,
          signed := sgn, mult := m, pc := h.cur.pc, ilen := h.cur.ilen, view := s.itemView h }
      let own1 : Prop := share h ∧ h.accmask.getLsbD tile.toNat = true ∧ h.shapeBad sd = false
      let f := 8 * ((h.launch.record.lanes + 7) / 8)
      let g : Group := { h.grp with sd := modAt h.grp.sd sd.toNat Stream.advance, cursor := 32 }
      (∀ pd sp x, plane h → bound h → lg.active = some (pd, sp) → mixOf form (h.fmt slot) pd sp = some x → own1 →
        lg.tags.getD tile.toNat .any ≠ (match form with
          | .int _ _ => .fp
          | _ => .int) → slices (256 * x.w) →
        let new := part form (h.fmt slot) false 0
        ((∀ i ∈ q.items, i.sched = true ∨ i.step.isSome = true ∨ ∀ ps, i.op ≠ .pass ps) →
          ∃ t, exec (.mmq form sat slot sd tile) s = .next t ∧ Queues s t h [(.pass [new], 2 + x.w * f)] g id) ∧
        (∀ l i ps, q.items = l ++ [i] → (∀ y ∈ l, y.sched = true) → i.sched = false → i.step = none → i.op = .pass ps →
          ∃ t j, exec (.mmq form sat slot sd tile) s = .next t ∧ t.faults = s.faults ∧ SameMem s t ∧ t.mine h = some g ∧
            ((t.core h.q).mx.queue h.cur.slot).items = l ++ [j] ∧ j.op = .pass (ps ++ [new]) ∧ j.cost = i.cost + x.w * f)) ∧
      (own1 → lg.tags.getD tile.toNat .any ≠ .fp → slices 256 →
        (∀ i ∈ q.items, i.sched = true ∨ i.step.isSome = true ∨ ∀ ps, i.op ≠ .sum ps) →
        ∃ t, exec (.msum sg sat sd tile mult) s = .next t ∧
          Queues s t h [(.sum [part (.int sg sg) 0 sg mult], 2 + f)] g id) ∧
      (own1 → lg.tags.getD tile.toNat .any ≠ .fp → slices 256 →
        ∀ l i ps, q.items = l ++ [i] → (∀ y ∈ l, y.sched = true) → i.sched = false → i.step = none → i.op = .sum ps →
          ∃ t j, exec (.msum sg sat sd tile mult) s = .next t ∧ t.faults = s.faults ∧ SameMem s t ∧ t.mine h = some g ∧
            ((t.core h.q).mx.queue h.cur.slot).items = l ++ [j] ∧ j.op = .sum (ps ++ [part (.int sg sg) 0 sg mult]) ∧
            j.cost = i.cost + f)

/-- 08 R265 to R267, Table 8.8: an `mtile` queues 3T steps over its T = KB x NB blocks: the first fill, and for each block a
swap, the fill of the next block and its pass; the CTB holds what it captured. That the tiles' tags are checked as the queue
will leave them is the model's reading (notes/assumptions/22: DEDUCED). -/
def Obligations.TileSequencer : Prop :=
  ∀ (form : MmForm) (sat : Bool) (slot : BitVec 3) (sd : BitVec 4) (b : BitVec 6) (d : MtDesc) (s : State) (h : Here) (x : Mix),
    let kb := d.kb.toNat
    let nb := d.nbm.toNat + 1
    let total := kb * nb
    let pd := h.fmt d.psl
    let ps := slotOf pd
    let block (n : Nat) : Nat := (h.k b - 0xFFFFFF1000000000).toNat + 16384 * (n % kb) + d.nstr.toNat * (n / kb)
    let shape (n : Nat) : Stream := Stream.advance^[n] (h.grp.stream sd)
    let vec (n : Nat) : Option Nat := if ps.scale = 2 then some (h.ctb.base + (ps.scl + 256 * (n / kb))) else none
    let lg := (s.core h.q).mx.logical h.cur.slot
    let f := 8 * ((h.launch.record.lanes + 7) / 8)
    s.here = some h → 0 < kb → (h.launch.record.engshare.extractLsb' (4 * h.cur.slot) 4).toNat ≠ 0 →
    h.launch.record.planeSlot h.cur.slot = true → h.mtileBusy = false → s.otherPlane h = false → h.fmt slot ≠ 0 → pd ≠ 0 →
    fillSlotOk pd false = true → mixOf form (h.fmt slot) pd false = some x → d.tile.toNat + nb ≤ 16 →
    (∀ n, n < nb → h.accmask.getLsbD (d.tile.toNat + n) = true ∧
      lg.tags.getD (d.tile.toNat + n) .any ≠ (match form with
        | .int _ _ => .fp
        | _ => .int)) →
    h.shapeBad sd = false → d.nstr.toNat % 256 = 0 →
    (∀ n, n < total → block n % 256 = 0 ∧ block n + 16384 ≤ h.launch.record.scrbytes) →
    (ps.scale = 2 → ∀ n, n < nb → ps.scl + 256 * n + 256 ≤ h.launch.record.scrbytes) →
    (∀ n, n < total → ∀ k, k < 32 → k < (shape n).ext0 → h.grp.present.getLsbD k = true →
      0 ≤ (shape n).off k ∧ (shape n).off k % 256 = 0 ∧ (shape n).off k + 256 * x.w ≤ h.launch.record.scrbytes) →
    ∃ t its, exec (.mtile form sat slot sd b d) s = .next t ∧
      Queues s t h its { h.grp with cursor := 32 } (fun c => { c with mtile := some (
        { grp := h.cur.grp, pos := h.rg.pos, form := form, sat := sat, slot := slot, sd := sd, desc := d, base := h.k b,
          mask := h.grp.active, land := none } : MtStep) }) ∧
      its.length = 3 * total ∧
      (∀ n, n < total → its[if n = 0 then 0 else 3 * n - 1]? = some (.fill false pd (h.ctb.base + block n) 0 (vec n), 0)) ∧
      (∀ n, n < total → its[3 * n + 1]? = some (.swap, 1)) ∧
      ∀ n, n < total → its[if n + 1 < total then 3 * n + 3 else 3 * n + 2]? = some (.pass [
        { grp := h.cur.grp, pos := h.rg.pos, rows := maskOf (fun k => h.grp.active.getLsbD k && decide (k < (shape n).ext0)),
          offs := mkLanes (fun k => h.ctb.base + ((shape n).off k).toNat), form := form, sat := sat,
          tile := d.tile.toNat + n / kb, aslot := h.fmt slot, signed := false, mult := 0, pc := h.cur.pc, ilen := h.cur.ilen,
          view := s.itemView h }],
        2 + x.w * f)

/-- 08 R249, R251, R269, R272: the pass of a row of FP and of integer elements, the row sum of `msum`, and the requantisation
of `mdrain`. The sign of an exact zero sum, and that a clamped `mdrain` raises the flags of R272 alone, are the model's readings
(notes/assumptions/20: DEDUCED). -/
def Obligations.MatrixArithmetic : Prop :=
  (∀ (acc : Nat) (ab : List (MElt × MElt)),
    let nan : Option (Nat × Bool) := (ab.findSome? (fun e => e.1.nan)).or (ab.findSome? (fun e => e.2.nan))
    (∀ c sn, nan = some (c, sn) → fpPass acc ab = (c, if sn then fINV else 0)) ∧
    (nan = none → fp32.isNaN acc = true → fpPass acc ab = (fp32.quiet acc, if fp32.isSNaN acc then fINV else 0)) ∧
    (nan = none → (∀ e ∈ ab, e.1.v ≠ .nan ∧ e.2.v ≠ .nan) → fp32.isNaN acc = false →
      DotTo .rne (ab.map (fun e => (e.1.v, e.2.v))) (fp32.val acc) (fpPass acc ab))) ∧
  ∀ (pl : Plane) (pd : DWord) (p : Part) (sl : Memory) (row : List Word) (n : Nat), row.length = 64 → n < 64 →
    let byte (signed : Bool) (x : Byte) : Int := if signed then x.toInt else x.toNat
    let fit (x : Int) (y : Word) : Prop :=
      if p.sat then y.toInt = max (-(2 ^ 31)) (min (2 ^ 31 - 1) x) else y = BitVec.ofInt 32 x
    let clamped (x : Int) : Bool := decide (p.sat = true ∧ (x < -(2 ^ 31) ∨ 2 ^ 31 - 1 < x))
    (∀ sa sb, p.form = .int sa sb →
      let x (n : Nat) : Int := (row.getD n 0).toInt +
        ((List.range 256).map (fun k => byte sa (rd sl k) * byte sb (rd pl.data (64 * k + n)))).sum
      fit (x n) ((passRow pl pd p sl row).1.getD n 0) ∧ (passRow pl pd p sl row).2.1 = 0 ∧
        ((passRow pl pd p sl row).2.2 = true ↔ ∃ j, j < 64 ∧ clamped (x j) = true)) ∧
    fit ((row.getD n 0).toInt + p.mult.toInt * ((List.range 256).map (fun k => byte p.signed (rd sl k))).sum)
      ((sumRow p sl row).1.getD n 0) ∧
    ∀ (sl : Slot) (tag : Tag) (rm : RM) (vec : Memory) (w : Word) (i8 : Bool),
      let t : Int := w.toInt + (BitVec.ofNat 32 (rdVal vec (16 * n) 4)).toInt
      let m : Int := (BitVec.ofNat 32 (rdVal vec (16 * n + 4) 4)).toInt
      let sh : Nat := min 63 (rd vec (16 * n + 8)).toNat
      let x : ℚ := (t * m : Int) / 2 ^ (31 + sh)
      let y := ratRound rm 0 x + sl.zp
      let lo : Int := if i8 then -128 else 0
      let hi : Int := if i8 then 127 else 255
      let r := drainElt (if i8 then .i8 else .n8) sl tag rm vec n w
      r.1 = ((if sl.sat then max lo (min hi y) else y) % 256).toNat ∧
        r.2 = (if x = ratRound rm 0 x then 0 else fINX) ||| (if y < lo ∨ hi < y then fINV else 0)

/-- 08 R253, R256, R259, R262 to R264, R268 to R270, R272, R273: when the first item of a slot's queue is done by now and the
next is not, that item alone takes effect, where no switch stops them: a swap exchanges the planes, a clear writes its tiles, a
fill loads the shadow plane, a pass or a sum accumulates into the rows of its tile, a drain writes its tile to scratch, and a
status word goes to its result in flight; flags are in flight to the landing. Without an item that is done, nothing. -/
def Obligations.EngineItems : Prop :=
  ∀ (q slot : Nat) (s : State),
    let c := s.core q
    let items := (c.mx.queue slot).items
    let done (i : Item) : Prop := i.sched = true ∧ i.doneAt ≤ s.time
    let whole (x : Tile) : Prop := x.elts = [] ∨ x.elts.length = 2048
    ((∀ i ∈ items, ¬ done i) → exec (.engineItemDone q slot) s = .next s) ∧
    ∀ i l, items = i :: l → done i → (∀ j ∈ l, ¬ done j) → (∀ r, s.reach? (q / 16) slot = some r → r.leaving = false) →
      let m (t : State) : Matrix := (t.core q).mx
      let flags (t : State) (grp due : Nat) (fl : Word) (see : Option Nat) : Prop :=
        ∀ g, s.grpAt (q / 16) slot (q % 16) grp = some g → g.ended = false → (s.standing (q / 16) slot grp).2 < due →
          ∃ g' y, t.grpAt (q / 16) slot (q % 16) grp = some g' ∧ y ∈ g'.pend ∧ y.due = due ∧ y.run = i.run ∧ y.reg = none ∧
            y.latch = none ∧ y.flags = fl ∧ y.see = see ∧ y.item = 0
      (i.op = .swap → ∃ t, exec (.engineItemDone q slot) s = .next t ∧ (m t).active = c.mx.shadow ∧ (m t).shadow = c.mx.active ∧
        (m t).tiles = c.mx.tiles ∧ ((m t).queue slot).items = l ∧ SameMem s t) ∧
      (∀ ts v, i.op = .clear ts v → c.mx.tiles.length = 16 → ∃ t, exec (.engineItemDone q slot) s = .next t ∧
        ((m t).queue slot).items = l ∧ (m t).active = c.mx.active ∧ (m t).shadow = c.mx.shadow ∧ SameMem s t ∧ ∀ n, n < 16 →
          if ts.getLsbD n then ((m t).tile n).tag = .any ∧ ((m t).tile n).tsat = false ∧
            ∀ r k, r < 32 → k < 64 → ((m t).tile n).elt r k = v
          else (m t).tile n = c.mx.tile n) ∧
      (∀ (p : Part) (f : Nat → Memory → List Word × Word × Bool) (n : Nat) (tag : Tag),
        let old := c.mx.tile p.tile
        (i.op = .pass [p] ∧ (∀ r sl, f r sl = passRow c.mx.active (c.mx.active.desc.getD 0) p sl (old.row r)) ∧
            tag = (match p.form with
              | .int _ _ => .int
              | _ => .fp) ∧
            ∃ x, mixOf p.form p.aslot (c.mx.active.desc.getD 0) c.mx.active.sparse = some x ∧ n = 256 * x.w) ∨
          (i.op = .sum [p] ∧ (∀ r sl, f r sl = sumRow p sl (old.row r)) ∧ tag = .int ∧ n = 256) →
        c.errs = [] → c.fresh = [] → Memory.wf c.scratch = true → c.mx.tiles.length = 16 → p.tile < 16 → whole old →
        ∃ (t : State) (sl : Nat → Memory), exec (.engineItemDone q slot) s = .next t ∧ ((m t).queue slot).items = l ∧ (m t).active = c.mx.active ∧
          (m t).shadow = c.mx.shadow ∧ SameMem s t ∧ (∀ k, k < 16 → k ≠ p.tile → (m t).tile k = c.mx.tile k) ∧
          (∀ r k, r < 32 → k < n → rd (sl r) k = rd c.scratch (p.offs.getD r 0 + k)) ∧ ((m t).tile p.tile).tag = tag ∧
          (((m t).tile p.tile).tsat = true ↔ old.tsat = true ∨ ∃ r, r < 32 ∧ bit p.rows r = true ∧ (f r (sl r)).2.2 = true) ∧
          (∀ r, r < 32 → ((m t).tile p.tile).row r = if bit p.rows r then (f r (sl r)).1 else old.row r) ∧
          ∀ r, r < 32 → bit p.rows r = true → (f r (sl r)).2.1 ≠ 0 →
            flags t p.grp (p.pos + (s.itemLand (q / 16) slot (q % 16) i - i.pos)) (f r (sl r)).2.1 none) ∧
      (∀ out d a pitch tile vec rm, i.op = .drain out d a pitch tile vec rm →
        let old := c.mx.tile tile
        let e : Nat := match out with
          | .f32 | .i32 => 4
          | .bf16 => 2
          | .i8 | .n8 => 1
        let vlen : Nat := match out with
          | .f32 | .bf16 => 256
          | _ => 1024
        c.errs = [] → c.fresh = [] → Memory.wf c.scratch = true → 64 * e ≤ pitch → whole old →
        ∃ t v, exec (.engineItemDone q slot) s = .next t ∧ ((m t).queue slot).items = l ∧ (m t).active = c.mx.active ∧
          (m t).shadow = c.mx.shadow ∧ (m t).tiles = c.mx.tiles ∧
          ((slotOf d).scale = 2 → ∀ k, k < vlen → rd v k = rd c.scratch (vec + k)) ∧
          let y (r k : Nat) : Nat × Word := drainElt out (slotOf d) old.tag rm v k ((old.row r).getD k 0)
          let fl : Word := (List.range 32).foldl (fun f r => (List.range 64).foldl (fun f k => f ||| (y r k).2) f) 0
          (∀ r k j, r < 32 → k < 64 → j < e →
            rd (t.core q).scratch (a + r * pitch + e * k + j) = (toBytes e (y r k).1).getD j 0) ∧
          (∀ x, (∀ r, r < 32 → ¬ (a + r * pitch ≤ x ∧ x < a + r * pitch + 64 * e)) →
            rd (t.core q).scratch x = rd c.scratch x) ∧
          (∀ p x, p ≠ q → rd (t.core p).scratch x = rd (s.core p).scratch x) ∧ (∀ x, rd t.dram x = rd s.dram x) ∧
          flags t i.grp i.land fl (some i.id)) ∧
      (∀ acc plane, i.op = .stat acc plane → ∃ t w, exec (.engineItemDone q slot) s = .next t ∧ SameMem s t ∧
        ((m t).queue slot).items = l ∧ (m t).active = c.mx.active ∧ (m t).shadow = c.mx.shadow ∧ (m t).tiles = c.mx.tiles ∧
        (∀ n, n < 16 → bit w n = (acc.getLsbD n && (c.mx.tile n).tsat)) ∧
        (let kind (p : Plane) : BitVec 4 := (p.desc.map (fun d => d.extractLsb' 0 4)).getD 0
         w.extractLsb' 24 4 = (if plane then kind c.mx.shadow else 0) ∧ w.extractLsb' 20 4 = (if plane then kind c.mx.active else 0) ∧
         bit w 19 = (plane && c.mx.shadow.desc.isSome && c.mx.shadow.sparse) ∧
         bit w 18 = (plane && c.mx.active.desc.isSome && c.mx.active.sparse)) ∧
        ∀ g p, s.grpAt (q / 16) slot (q % 16) i.grp = some g → p ∈ g.pend → p.item = i.id →
          (s.standing (q / 16) slot i.grp).2 < p.due → ∃ g' y, t.grpAt (q / 16) slot (q % 16) i.grp = some g' ∧ y ∈ g'.pend ∧
            y.item = 0 ∧ y.due = p.due ∧ y.reg = p.reg ∧ y.lanes = p.lanes ∧ ∀ k, k < 32 → laneOf y.vals k = w.setWidth 64) ∧
      ∀ sp d a md scl, i.op = .fill sp d a md scl → c.errs = [] → c.fresh = [] → ∃ t,
        exec (.engineItemDone q slot) s = .next t ∧ ((m t).queue slot).items = l ∧ (m t).active = c.mx.active ∧
        (m t).tiles = c.mx.tiles ∧ SameMem s t ∧ (m t).shadow.desc = some d ∧ (m t).shadow.sparse = sp ∧
        (Memory.wf c.scratch = true → (∀ k, k < 16384 → rd (m t).shadow.data k = rd c.scratch (a + k)) ∧
          (sp = true → ∀ k, k < 2048 → rd (m t).shadow.md k = rd c.scratch (md + k)) ∧
          ∀ x, scl = some x → ∀ k, k < 256 → rd (m t).shadow.scale k = rd c.scratch (x + k))

/-! ### The copy and time class (10) -/

/-- 10 R295, R302 to R304, R308 to R310, R312, 13 R358, R361, 18 R453: `xcopy` and `xred` offer their rows to the copy engine, a
granule at a time in the order of first touch: an `xred` combines the words that are not staged, and the staged ones go to the
staging area of the position, which refuses what it cannot hold; an `xcopy.out` into a RED page offers its words to the staging of
its collective, in the round of the CTB's leaf entry; an address that is not aligned is a fault. The transfers that QUEUE_FULL counts,
and the order of the refusals STAGE_FULL, QUEUE_FULL and NO_SLOT, are notes/assumptions/23. -/
def Obligations.CopyTransfers : Prop :=
  ∀ (p : BitVec 3) (a b : BitVec 6) (d : RowDesc) (s : State) (h : Here), s.here = some h →
    let r : Rect := { rows := d.rows.toNat, len := d.rbytes.toNat, ga := h.k a, gp := d.gpitch.signExtend 64,
                      so := (h.k b).toNat % 0x100000000, sp := (h.k b).toNat / 0x100000000 }
    let segs := h.rectSegs r
    let none0 : IdxDesc := { n := 0, rowb := 0, pitch := 0 }
    let piece (comb : Bool) (g : RowSeg) : Piece :=
      { row := g.row, comb := comb, dram := (h.launch.phys g.va).getD 0, core := g.core, scr := g.scr, len := g.len, old := [] }
    let x (k : XKind) (write : Bool) : Xfer := s.newXfer h k p.toNat r.ga (h.k b) d none0 write
    let seen : List Seen := { by_ := .engine (s.nextId + 1), upto := none, within := [], own := false } :: h.grp.seen
    (RowsOk s h r false true →
      Offers (.xcopyIn p a b d) s h p (x .copyIn false) (segs.map (piece false)) h.grp.seen
        (fun _ t => t.staged = s.staged ∧ t.fill = s.fill)) ∧
    (RowsOk s h r true true →
      Offers (.xcopyOut p a b d) s h p (x .copyOut true) (segs.map (piece false)) h.grp.seen
        (fun _ t => t.staged = s.staged ∧ t.fill = s.fill)) ∧
    (∀ op ty any,
      let i : Instr := if any then .xredAny op ty p a b d else .xred op ty p a b d
      let stg (g : RowSeg) : Bool :=
        if any = false ∧ op = .add ∧ ty = .f32 then true else h.launch.ordAt g.va || !h.launch.marked
      let ws := (segWords segs).filter stg
      let f := if s.stagedAt h.q h.cur.slot h.planned none = 0 then 0 else (look s.fill (16 * h.q + h.cur.slot)).getD 0
      let base := (s.regs.stagebase.toNat / 0x4000000 % 0x4000000) * 0x4000000 + 16384 * (16 * h.q + h.cur.slot)
      let place := ws.zipIdx.map (fun e => (e.1, base + (f + 4 * e.2) % 16384))
      let used := 4 * s.stagedAt h.q h.cur.slot h.planned (some (h.launch.id, h.ctb.lin))
      RowsOk s h r true true →
        (16384 < used + 4 * ws.length → ∃ t, exec i s = .next t ∧ Refuses s t h p 3) ∧
        (used + 4 * ws.length ≤ 16384 → Offers i s h p (x (.red op ty any) true)
          -- in the order of the rows, a staged run as its words in the staging area
          (segs.foldl (fun (a : List Piece × List (RowSeg × Nat)) g => if stg g
            then (a.1 ++ (a.2.take (g.len / 4)).map (fun e => { piece false e.1 with dram := e.2, len := 4 }), a.2.drop (g.len / 4))
            else (a.1 ++ [piece true g], a.2)) ([], place)).1
          seen
          (fun y t => (ws = [] → t.staged = s.staged ∧ t.fill = s.fill) ∧ (ws ≠ [] →
            t.fill = bindAt s.fill (16 * h.q + h.cur.slot) ((f + 4 * ws.length) % 16384) ∧
            ∃ e, t.staged = s.staged ++ [e] ∧ e.xid = y.id ∧ e.launch = h.launch.id ∧ e.ident = h.launch.ident ∧
              e.lin = h.ctb.lin ∧ e.grp = h.cur.grp ∧ e.ordinal = h.grp.issuedX ∧ e.q = h.q ∧ e.slot = h.cur.slot ∧
              e.op = op ∧ e.ty = ty ∧ e.promise = y.promise ∧ e.landed = false ∧ e.spent = [] ∧
              (∀ pa o, (pa, o) ∈ e.tied ↔ ∃ z ∈ place, pa = (h.launch.phys z.1.va).getD 0 ∧ o ∈ h.tiedTo z.1.va) ∧
              e.elts = place.map (fun z => (BitVec.ofNat 64 z.1.va, (h.launch.phys z.1.va).getD 0, z.2)))))) ∧
    -- a contribution to collective rdx
    (∀ rdx, RowsOk s h r true false → segs.findSome? (fun g => h.launch.redOf g.va) = some rdx →
      let i : Instr := .xcopyOut p a b d
      let va (g : RowSeg) : DWord := BitVec.ofNat 64 g.va
      let first : DWord := ((segs.head?).map va).getD 0
      (∀ g, segs.find? (fun g => h.launch.redOf g.va ≠ some rdx) = some g → exec i s = .next (s.raise h cAccess (va g))) ∧
      ((∀ g ∈ segs, h.launch.redOf g.va = some rdx) →
        let full : Prop := 16 ≤ h.ctb.leaves.length ∧ ∀ y ∈ h.ctb.leaves, y.rdx ≠ rdx
        (s.armed rdx = false ∨ full → exec i s = .next (s.raise h cAccess first)) ∧
        (¬ full → ∀ c, s.coll? rdx = some c → c.armed = true →
          let beyond (g : RowSeg) : Bool := decide (g.va < c.desc.rbase.toNat ∨ c.desc.rbase.toNat + 4 * c.desc.elems ≤ g.va)
          (∀ g, (segWords segs).find? beyond = some g → exec i s = .next (s.raise h cAccess (va g))) ∧
          ((segWords segs).find? beyond = none →
            let leaf := (h.ctb.leaves.find? (fun y => y.rdx == rdx)).getD { rdx := rdx, lr := 0, obs := 0, flags := 0 }
            let s0 := s.modC h (fun y => { y with leaves := if leaf ∈ y.leaves then y.leaves else y.leaves ++ [leaf] })
            (c.broken = true → ∃ t, exec i s = .next t ∧ Refuses s0 t h p 6) ∧
            (c.broken = false → ∀ run, (segs.head?.bind (fun g => (h.launch.runs g.va).find? (·.red))) = some run →
              OffersAt (exec i s) s0 ((s0.openRound rdx leaf.lr).modColl rdx (fun y => { y with bin := run.bin })) h p (s.nextId + 2)
                { s0.newXfer h (.contribution rdx) p.toNat r.ga (BitVec.ofNat 64 leaf.lr) d none0 true with id := s.nextId + 2 }
                ((segWords segs).map (fun g => let e := (g.va - c.desc.rbase.toNat) / 4
                  { piece false g with row := e, dram := c.desc.stagePa e (16 * h.q + h.cur.slot) (leaf.lr % 2) }))
                h.grp.seen (fun _ t => t.staged = s.staged ∧ t.fill = s.fill)))))) ∧
    (s.fires = [] → (∀ e ∈ s.staged, e.spent = []) → ∀ lin : Option (Nat × Nat), s.stagedAt h.q h.cur.slot h.planned lin =
      ((s.staged.filter (fun e => decide (e.q = h.q ∧ e.slot = h.cur.slot ∧ ∀ l, lin = some l → l = (e.launch, e.lin)))).map
        (fun e => e.elts.length)).sum) ∧
    ((h.k a).toNat % 8 ≠ 0 →
      exec (.xcopyIn p a b d) s = .next (s.raise h cMisalign (h.k a)) ∧
      exec (.xcopyOut p a b d) s = .next (s.raise h cMisalign (h.k a)) ∧
      ∀ op ty, exec (.xred op ty p a b d) s = .next (s.raise h cMisalign (h.k a)) ∧
        exec (.xredAny op ty p a b d) s = .next (s.raise h cMisalign (h.k a)))

/-- 10 R296, R309, R311: a gather or a scatter is accepted with the bound of R296 for its promise, refused by a full queue
with 2 and without gather slots with 1; its first batch follows; it keeps the view of its issue. The transfers that QUEUE_FULL counts,
the order of the refusals and a promise that does not wait for the floor of a fence are notes/assumptions/23. -/
def Obligations.IndexedTransfers : Prop :=
  ∀ (p : BitVec 3) (a b : BitVec 6) (d : IdxDesc) (s : State) (h : Here), s.here = some h →
    let so := (h.k b).toNat % 0x100000000
    let io := (h.k b).toNat / 0x100000000
    let n := d.n.toNat
    let bytes := d.rowb.toNat
    let rc := h.launch.record
    let col := h.cur.col - h.ctb.stage + so / 2097152
    let issue (i : Instr) (kind : XKind) (total : Nat) : Prop :=
      (h.k a).toNat % 8 = 0 → so % 8 = 0 → io % 4 = 0 → so / 2097152 < rc.stageCount → so % 2097152 < rc.scrbytes →
      so % 2097152 + n * bytes ≤ rc.scrbytes → io + 4 * n ≤ rc.scrbytes →
      (h.reach.ctb? col).isSome = true →
        let full : Prop := 256 ≤ s.xfers.countP (fun y => y.q == h.q && y.slot == h.cur.slot && y.kind.path == 2 &&
          decide (h.planned < y.promise))
        let x0 := s.newXfer h kind p.toNat (h.k a) (h.k b) { rows := 0, rbytes := 0, gpitch := 0 } d (kind != .gather)
        (full → ∃ t, exec i s = .next t ∧ Refuses s t h p 2) ∧
        (¬ full → (s.tt = none ∨ ∃ T, s.tt = some T ∧ LeastSlots T (512 + h.q) 0) → ∃ t, exec i s = .next t ∧ Refuses s t h p 1) ∧
        ∀ T k, ¬ full → s.tt = some T → LeastSlots T (512 + h.q) k → 0 < k →
          let bound := 8192 * ((h.planned + 32) / 8192) + 8192 * ((total + k - 1) / k) + 8163
          ∃ t x, exec i s = .next t ∧ Issues s t h p (BitVec.ofNat 64 bound) (some (s.nextId + 1)) h.grp.seen [x] ∧
            ({ x with promise := 0 } : Xfer) = x0 ∧ x.promise = bound ∧
            t.cores = s.cores ∧ t.agenda = insertEvent
              { tide := max (max x0.tide (s.fenceFloorAt h)) s.time, cls := 0, task := .op (.gatherBatch (s.nextId + 1)) }
              s.agenda
    issue (.xgather p a b d) .gather (n * ((bytes + 56 + 63) / 64)) ∧
    issue (.xscatter p a b d) (.scatter false) (n * ((bytes + 56 + 63) / 64)) ∧
    issue (.xscatterAny p a b d) (.scatter true) ((n * bytes + 63) / 64 + n) ∧
    ((h.k a).toNat % 8 ≠ 0 → ∀ i ∈ [Instr.xgather p a b d, .xscatter p a b d, .xscatterAny p a b d],
      exec i s = .next (s.raise h cMisalign (h.k a)))

/-- 10 R313 to R316, 02 R59, 12 R335, R341: `tread` delivers the planned tide and `xstat` the state of a promise; `tsleep`,
`tresync`, `acq` and `wait` issue their waits and allocate the row of the destination; a destination that does not fit, and
then an object number or target of `acq` or `wait` outside its range, is a fault, and the first `tresync` of a position brings about the schedule fault of cause 5. -/
def Obligations.TimeAndObjectWaits : Prop :=
  ∀ (d : Dst) (p : BitVec 3) (texp : BitVec 5) (a : BitVec 6) (b : BitVec 6) (o : OpK),
    let t16 (h : Here) : DWord := match o with
      | .k n => h.k n
      | .imm w => w.setWidth 64
    let ok (x y : Here → DWord) (_ : State) (h : Here) : Prop := 0 < (x h).toNat ∧ (x h).toNat ≤ 0xFFFF ∧ (y h).toNat ≤ 0xFFFF
    LaneInstr (.tread d) [] d true 1 Always (fun h _ _ => BitVec.ofNat 64 h.planned) (fun _ _ _ => 0) ∧
    (∀ s h, Runs s h [] (dstNames d false) →
      let v := h.grp.p.getD p.toNat emptyP
      let lost : Prop := ∃ id x, h.grp.pTrack.getD p.toNat none = some id ∧ s.xfer? id = some x ∧ x.lost = true ∧ x.promise ≤ h.planned
      let y : Word → Prop := fun w => ∃ t, exec (.xstat d p) s = .next t ∧ Delivers s t h [] d false 1 (fun _ => w.setWidth 64) 0
      (lost → y 0x503) ∧
      (¬ lost → v = emptyP → y 0) ∧
      (¬ lost → v ≠ emptyP → v.getLsbD 63 = true → y (BitVec.ofNat 32 (3 + 256 * (v.toNat % 256)))) ∧
      (¬ lost → v.getLsbD 63 = false → y (if h.planned < v.toNat then 1 else 2))) ∧
    IssuesWait (.tsleep texp d p) .tsleep texp d Always (fun _ => p.setWidth 64) (fun _ => 0) ∧
    IssuesWait (.acq texp d a b) .acq texp d (ok (fun h => h.k a) (fun h => h.k b)) (fun h => h.k a) (fun h => h.k b) ∧
    IssuesWait (.wait texp d a o) .wait texp d (ok (fun h => h.k a) t16) (fun h => h.k a) t16 ∧
    IssuesWait (.tresync d) .tresync 31 d (fun s h => h.cur.head = false ∨ s.freeze ≠ none) (fun _ => 0) (fun _ => 0) ∧
    (∀ s h, s.here = some h → Fits h d → h.cur.head = true → s.freeze = none → ∃ t u, exec (.tresync d) s = .next t ∧
      u = s.later s.time 0 (.scheduleFault 5) ∧ t.agenda = insertEvent { tide := s.time, cls := 0, task := .op (.scheduleFault 5) } s.agenda ∧
      OnlyHere u t h (h.grp.holding d) (h.rg.holds h .tresync 31 0 0 d)) ∧
    (∀ s h, s.here = some h → Fits h d → ¬ ok (fun h => h.k a) (fun h => h.k b) s h →
      exec (.acq texp d a b) s = .next (s.raise h cIllegalOperand 0)) ∧
    (∀ s h, s.here = some h → Fits h d → ¬ ok (fun h => h.k a) t16 s h →
      exec (.wait texp d a o) s = .next (s.raise h cIllegalOperand 0)) ∧
    ∀ s h, s.here = some h → ¬ Fits h d → ∀ i ∈ [Instr.acq texp d a b, .wait texp d a o, .tsleep texp d p, .tresync d],
      exec i s = .next (s.raise h cRegQuota (BitVec.ofNat 64 (h.grp.wouldHold [] (dstNames d false))))

/-! ### The synchronisation class (12) -/

/-- 12 R349 to R352: an atomic applies its operation to the word that each set of lanes addresses, lane after lane; each lane
of an `atom` receives, at +6, what stood there before its own turn, and `red` receives nothing. -/
def Obligations.Atomics : Prop :=
  ∀ (red : Bool) (rop : ScrRedOp) (aop : AtomOp) (ty : IntTy) (d : Dst) (base : Src) (off : Option Src) (disp : BitVec 18) (c : Src)
    (s : State) (h : Here),
    let op : AtomOp := if red then
      (match rop with
        | .add => .add
        | .min => .min
        | .max => .max
        | .and => .and
        | .or => .or
        | .xor => .xor) else aop
    let i : Instr := if red then .red rop ty base off disp c else .atom aop ty d base off disp c
    let w64 : Bool := ty == .i64 || ty == .n64
    let n := if w64 then 8 else 4
    let ops := addrOps base off ++
      (if op = .cas then (if w64 then [.src c true, .src (casNew c) true] else [.src c true]) else [.src c w64])
    let names := if red then [] else dstNames d w64
    let v (k j : Nat) : DWord := arg (s.srcs h ops k) ((if off.isSome then 2 else 1) + j)
    let ea (k : Nat) : DWord := arg (s.srcs h ops k) 0 +
      (if off.isSome then (lo32 (arg (s.srcs h ops k) 1)).setWidth 64 else 0) + disp.signExtend 64
    let win (k : Nat) : Window := if (windowBase .shared).toNat ≤ (ea k).toNat ∧
      (ea k).toNat < (windowBase .shared).toNat + h.launch.record.scrbytes then .shared else .cluster
    let pl (k : Nat) : Nat × Nat := h.place (win k) (ea k - windowBase (win k)).toNat
    let num (x : DWord) : Int := match ty with
      | .i32 => (lo32 x).toInt
      | .n32 => (lo32 x).toNat
      | .i64 => x.toInt
      | .n64 => x.toNat
    let turn (x : DWord) (k : Nat) : DWord := match op with
      | .add => if w64 then x + v k 0 else (lo32 (x + v k 0)).setWidth 64
      | .min => if num (v k 0) < num x then v k 0 else x
      | .max => if num x < num (v k 0) then v k 0 else x
      | .and => x &&& v k 0
      | .or => x ||| v k 0
      | .xor => x ^^^ v k 0
      | .exch => v k 0
      | .cas => if w64 then (if x = v k 0 then v k 1 else x)
          else if x = (lo32 (v k 0)).setWidth 64 then (hi32 (v k 0)).setWidth 64 else x
    let set (k : Nat) : List Nat := h.lanes.filter (fun j => ea j == ea k)
    let old (k : Nat) : DWord := BitVec.ofNat 64 (rdVal (s.core (pl k).1).scratch (pl k).2 n)
    Runs s h ops names →
    (∀ k ∈ h.lanes, (∃ o, h.checkAccess (win k) (ea k) n = .ok o) ∧ (s.core (pl k).1).errs = [] ∧
      Memory.wf (s.core (pl k).1).scratch = true ∧ unseenAt s h (pl k).1 (pl k).2 n = false) →
    (∀ j ∈ h.lanes, ∀ k ∈ h.lanes, ea j ≠ ea k →
      (pl j).1 ≠ (pl k).1 ∨ (pl j).2 + n ≤ (pl k).2 ∨ (pl k).2 + n ≤ (pl j).2) →
    ∃ t g ws, exec i s = .next t ∧ t.faults = s.faults ∧ Stores s t h g ws ∧ OutsideSame s t h.lanes pl n ∧
      g.bare = h.grp.bare ∧ g.cursor = 32 ∧ g.iflags = h.grp.iflags ∧
      SourcesDone h.grp g ops names ∧
      (red = false → InFlight h g d w64 6 (fun k => ((set k).filter (fun j => decide (j < k))).foldl turn (old k)) 0) ∧
      ∀ k ∈ h.lanes, rdN (t.core (pl k).1).scratch (pl k).2 n = toBytes n ((set k).foldl turn (old k)).toNat

/-- 12 R342 to R348: `bar.arv` registers an arrival, local or on its way to a stage of the block, with what it releases;
`bar.sync` and `bar.wait` issue a wait for the phase of the group's last arrival and raise EXR; a push or pop that its
sound can serve is performed at once and else owed; `snd.peek` and `snd.cfg` read and set a sound; one that is not
declared is a fault. -/
def Obligations.BarriersAndSounds : Prop :=
  ∀ (texp : BitVec 5) (d : Dst) (e : Option (BitVec 16)) (a b : BitVec 6) (s : State) (h : Here), s.here = some h →
    let me := h.cur.grp
    let br := h.ctb.bar
    let here (c : Ctb) (g : Group) : Ctb := { c with groups := c.groups.set me g }
    let done : Group := { h.grp with cursor := 32 }
    let held : Group := h.grp.holding d
    let arrive (rlx : Bool) : Ctb := if bit br.arrived me then h.ctb else
      { h.ctb with
        bar := { br with arrived := br.arrived ||| maskOf (fun k => k == me), arrph := br.arrph.set me (some br.phase) }
        barRel := if rlx then h.ctb.barRel else h.ctb.barRel ++ [(br.phase, s.releaseOf h (.bar 0))] }
    let wait (c : Ctb) : Ctb :=
      let ph := (c.bar.arrph.getD me none).getD c.bar.phase
      let x : Option Nat := match e with
        | some n => if ph = c.bar.phase then some (max n.toNat (c.bar.exr.getD 0)) else c.bar.exr
        | none => c.bar.exr
      here { c with bar := { c.bar with exr := x } } { held with target := ph.toNat }
    let arv (rlx : Bool) (r : Option Word) : Instr := if rlx then .barArvRlx r else .barArv r
    (∀ rlx, ∃ t, exec (arv rlx none) s = .next t ∧ t.faults = s.faults ∧ OnlyCtb s t h (here (arrive rlx) done) h.rg) ∧
    (∀ (rlx : Bool) (r : Word),
      let st := (h.ctb.stage : Int) + r.toInt
      (st < 0 ∨ (h.launch.record.stageCount : Int) ≤ st → ∃ t, exec (arv rlx (some r)) s = .next t ∧ t.faults = s.faults ∧
        OnlyCtb s t h (here { h.ctb with bar := { br with transit := br.transit ++ [(h.reach.frames, none)] } } done) h.rg) ∧
      (0 ≤ st → st < (h.launch.record.stageCount : Int) → 0 ≤ (h.cur.col : Int) + r.toInt →
        ∀ c, s.ctb? h.cur.row h.cur.slot ((h.cur.col : Int) + r.toInt).toNat = some c → c.ended = none →
        ∃ t, exec (arv rlx (some r)) s = .next t ∧ t.faults = s.faults ∧ SameMem s t ∧ t.mine h = some done ∧
          t.ctb? h.cur.row h.cur.slot ((h.cur.col : Int) + r.toInt).toNat = some (
            let c1 : Ctb := { c with bar := { c.bar with transit := c.bar.transit ++
              [(h.reach.frames + 1, if rlx then none else some (s.releaseOf h (.bar (BitVec.ofInt 16 r.toInt))))] } }
            if r = 0 then here c1 done else c1))) ∧
    (Fits h d →
      (∃ t, exec (.barSync texp d e) s = .next t ∧ t.faults = s.faults ∧
        OnlyCtb s t h (wait (arrive false)) (h.rg.holds h .bar texp 0 0 d)) ∧
      (∃ t, exec (.barWait texp d e) s = .next t ∧ t.faults = s.faults ∧ OnlyCtb s t h (wait h.ctb) (h.rg.holds h .bar texp 0 0 d))) ∧
    (15 < (h.k a).toNat ∨ h.ctb.sounds.find? (fun x => x.n == (h.k a).toNat) = none →
      exec (.sndCfg a b) s = .next (s.raise h cSound (h.k a)) ∧
      (Fits h d → (∀ i ∈ [Instr.sndPush texp d a b, .sndPop texp d a], exec i s = .next (s.raise h cSound (h.k a))) ∧
        (h.grp.cursor ≠ 33 → exec (.sndPeek d a) s = .next (s.raise h cSound (h.k a))))) ∧
    (¬ Fits h d → ∀ i ∈ [Instr.sndPush texp d a b, .sndPop texp d a], ∃ v, exec i s = .next (s.raise h cRegQuota v)) ∧
    ∀ x : Sound, (h.k a).toNat ≤ 15 → h.ctb.sounds.find? (fun x => x.n == (h.k a).toNat) = some x →
      let upd (f : Sound → Sound) (c : Ctb) : Ctb :=
        { c with sounds := c.sounds.map (fun y => if y.n == (h.k a).toNat then f y else y) }
      let core := s.core h.q
      (Runs s h [] (dstNames d false) →
        ∃ t, exec (.sndPeek d a) s = .next t ∧ Delivers s t h [] d false 1 (fun _ => x.sampled.setWidth 64) 0) ∧
      ((h.k b).toNat ≤ 255 → ∃ t, exec (.sndCfg a b) s = .next t ∧ t.faults = s.faults ∧
        OnlyCtb s t h (here (upd (fun y => { y with allow := min (h.k b).toNat (y.depth - y.count) }) h.ctb) done) h.rg) ∧
      (Fits h d → (h.k b).toNat ≤ 65535 → x.allow = 0 → ∃ t, exec (.sndPush texp d a b) s = .next t ∧ t.faults = s.faults ∧
        OnlyCtb s t h (here h.ctb { held with owed := .push x.n ((h.k b).setWidth 16) }) (h.rg.holds h .push texp (h.k a) (h.k b) d)) ∧
      (Fits h d → (h.k b).toNat ≤ 65535 → 0 < x.allow → core.errs = [] → ∃ t c, exec (.sndPush texp d a b) s = .next t ∧
        t.faults = s.faults ∧ t.here.map (fun y => y.rg) = some (h.rg.holds h .push texp (h.k a) (h.k b) d) ∧
        t.ctb? h.cur.row h.cur.slot h.cur.col = some (here c { held with ready := true }) ∧
        c = { upd (fun y => { y with count := y.count + 1, allow := y.allow - 1 }) h.ctb with
          sndRel := h.ctb.sndRel ++ [(x.n, s.releaseOf h (.snd ((h.k a).setWidth 16)))] } ∧
        (∀ q, (t.core q).besides = (s.core q).besides) ∧
        ∀ q, (t.core q).scratch = if q = h.q then
          wrN core.scratch (h.ctb.base + x.roff + 2 * ((x.head + x.count) % x.depth)) (toBytes 2 (h.k b).toNat) else (s.core q).scratch) ∧
      (Fits h d → x.count = 0 → ∃ t, exec (.sndPop texp d a) s = .next t ∧ t.faults = s.faults ∧
        OnlyCtb s t h (here h.ctb { held with owed := .pop x.n }) (h.rg.holds h .pop texp (h.k a) 0 d)) ∧
      (Fits h d → 0 < x.count → core.errs = [] → ∃ t, exec (.sndPop texp d a) s = .next t ∧ t.faults = s.faults ∧
        OnlyCtb s t h (here (upd (fun y =>
            { y with head := (y.head + 1) % y.depth, count := y.count - 1, allow := y.allow + 1, pops := y.pops + 1 }) h.ctb)
          { held with ready := true, target := x.pops + 1,
                      code := BitVec.ofNat 32 (65536 * rdVal core.scratch (h.ctb.base + x.roff + 2 * x.head) 2) })
          (h.rg.holds h .pop texp (h.k a) 0 d))

/-- 12 R324 to R326, R330, R333, R334, R341: `bind` adds, replaces or removes an entry of the CTB's table, `rel` fires its object, at
once or behind the staged contributions that it combines, `fence` orders the group's transfers at device scope and
beyond, and `xfence` adds what a path has seen to the view of another. -/
def Obligations.BindingsAndFences : Prop :=
  ∀ (a b : BitVec 6) (tgt : BindTgt) (sc : Scope) (q1 q2 : BitVec 3),
    GroupInstr (.fence sc) Always (fun _ g => if sc = .device ∨ sc = .pod then { g with fenceX := g.issuedX } else g) ∧
    ∀ s h, s.here = some h →
      let base := h.k a
      let len := (h.k b).toNat
      let n := (h.k a).toNat
      let done : Group := { h.grp with cursor := 32 }
      let same (x : Binding) : Bool := x.base == base && x.len.toNat == len
      let others := h.ctb.binds.filter (fun x => !same x)
      let size := h.launch.record.scrbytes
      let o := base.toNat - (windowBase .shared).toNat
      let oc := base.toNat - (windowBase .cluster).toNat
      let inScratch : Prop :=
        ((windowBase .shared).toNat ≤ base.toNat ∧ o + len ≤ size) ∨
        ((windowBase .cluster).toNat ≤ base.toNat ∧ oc < h.launch.record.stageCount * 2097152 ∧ oc % 2097152 + len ≤ size)
      let global : Prop := base.toNat + len ≤ (windowBase .lane).toNat
      let declared : Prop := ∀ k, tgt = .snd k → (h.ctb.sounds.find? (fun x => x.n == k.toNat)).isSome = true
      (declared → 0 < len → len < 2 ^ 32 → (inScratch ∨ global ∧ ((∃ k, tgt = .obj k) ∨ tgt = .none)) → size ≤ 2097152 →
        (tgt = .none ∨ h.ctb.binds.length < 16 ∨ h.ctb.binds.any same = true) →
        ∃ t bs, exec (.bind a b tgt) s = .next t ∧ t.faults = s.faults ∧
          OnlyCtb s t h { h.ctb.keepBefore with binds := bs, groups := h.ctb.groups.set h.cur.grp done } h.rg ∧
          bs.filter (fun x => !same x) = others ∧
          (tgt = .none → bs.filter same = []) ∧
          (tgt ≠ .none → bs.filter same ≠ [] ∧ ∀ x ∈ bs, same x = true → x.tgt = tgt)) ∧
      (¬ declared → ∃ t f, exec (.bind a b tgt) s = .next t ∧ t.faults = s.faults ++ [f] ∧ f.cause = cSound) ∧
      (declared → len = 0 ∨ 2 ^ 32 ≤ len → exec (.bind a b tgt) s = .next (s.raise h cIllegalOperand 0)) ∧
      (n = 0 ∨ 65535 < n → exec (.rel a) s = .next (s.raise h cIllegalOperand 0)) ∧
      (0 < n → n ≤ 65535 →
        let r : Release := { view := s.viewHere h, regs := boundTo h.reach h.launch h.cur.col h.ctb (.obj (BitVec.ofNat 16 n)) }
        ∃ t, exec (.rel a) s = .next t ∧ t.faults = s.faults ∧ SameMem s t ∧ t.mine h = some done ∧
          t.launches = (s.modLaunch h.launch.id (fun l => { l with acted := true })).launches ∧
          (s.staged = [] → t.obj n = s.obj n + 1 ∧ (∀ m, m ≠ n → t.obj m = s.obj m) ∧
            t.objRel = s.objRel ++ [(n, h.planned, r)] ∧ t.fires = s.fires ∧ t.agenda = s.agenda) ∧
          ((t.obj n = s.obj n + 1 ∧ t.objRel = s.objRel ++ [(n, h.planned, r)] ∧ t.fires = s.fires) ∨
            ∃ f : Fire, t.fires = s.fires ++ [f] ∧ f.obj = n ∧ f.rel = r ∧ f.launch = none ∧ f.xids ≠ [] ∧ h.planned ≤ f.planned ∧
              t.objs = s.objs ∧ t.objRel = s.objRel ∧
              { tide := s.time, cls := 0, task := .op (.stagedCombine f.id) } ∈ t.agenda)) ∧
      (∀ x p, s.missed h [q1.toNat, q2.toNat] = some (x, p) →
        let u := (s.modXfer x.id (fun y => { y with told := p })).raise h cMissedPromise (BitVec.ofNat 64 p)
        ∃ t f, exec (.xfence q1 q2) s = .next t ∧ u.faults = s.faults ++ [f] ∧
          t = { u with faults := s.faults ++ [{ f with late := true }] }) ∧
      (s.missed h [q1.toNat, q2.toNat] = none → ∃ t g, exec (.xfence q1 q2) s = .next t ∧ t.faults = s.faults ∧
        OnlyHere s t h g h.rg ∧ ({ g with seen := [], pseen := [] } : Group) = { done with seen := [], pseen := [] } ∧
        let view (g : Group) (q : Nat) : List Seen := if q = 0 then g.seen else g.pseen.getD q []
        let from_ : List Seen := if q1 = 0 then s.viewHere h else h.grp.pseen.getD q1.toNat [] ++
          (if q1 = 1 ∨ q1 = 2 then s.passedXfers h q1.toNat h.planned else [])
        (∀ q, q ≠ q2.toNat → view g q = view h.grp q) ∧
        (q2 = 0 ∨ q2.toNat < h.grp.pseen.length →
          (∀ v ∈ from_ ++ view h.grp q2.toNat, ∃ u ∈ view g q2.toNat, u.covers v = true) ∧
          ∀ u ∈ view g q2.toNat, u ∈ from_ ++ view h.grp q2.toNat))

/-! ### Held waits (12), collectives (13) and the launch class (03) -/

/-- 12 R335, R338, R339, R341, R344, R347, 10 R300, R301, R313, R316, 13 R381, 03 R122: a sample completes a barrier's phase,
serves a pending push or pop, and says which waits are ready, with their codes: ENDED where nothing can satisfy a barrier or a
sound any more. A decision lets a wait go on when every core is ready, writing its status into the destination of its active
lanes, RESYNCED for a supervisor; otherwise it counts the idle frames towards its timeout and holds the reach for an external
wait. A wait with e = 0 is decided by what precedes it. A `tsleep` finds its promise, and reports one that was missed. A timeout
ends a wait with TIMEOUT, with 9 for an `lwait`. -/
def Obligations.WaitDecisions : Prop :=
  ∀ (s : State) (row slot g col : Nat) (r : Reach) (c : Ctb) (rg : RGroup) (grp : Group) (w : Wait) (l : Launch),
    s.reach? row slot = some r → r.row = row → r.slot = slot → r.hold = none → r.ctbs = [(col, c)] → c.ended = none →
    r.rgs[g]? = some rg → c.groups[g]? = some grp → grp.ended = false → rg.wait = some w → s.launch? r.launch = some l →
    let doneWith (t : State) (v : Word) (more : Ctb → RGroup → Group → Prop) : Prop := ∃ r' c' rg' grp',
      t.reach? row slot = some r' ∧ r'.ctbs = [(col, c')] ∧
      r'.rgs[g]? = some rg' ∧ c'.groups[g]? = some grp' ∧ rg'.wait = none ∧ rg'.pos = rg.pos + 1 ∧ rg'.pc = rg.npc ∧ rg'.idx = 0 ∧
      rg'.k = rg.k ∧ rg'.head = false ∧ grp'.cursor = 0 ∧ grp'.ready = false ∧ grp'.m = grp.m ∧ grp'.p = grp.p ∧
      (∀ n, dstReg w.dst = some n → grp.pend = [] → ∃ x, grp'.vreg? n = some x ∧ x.written = true ∧
        ∀ k, k < 32 → x.val.getD k 0 = if bit grp.active k then v else if (grp.vreg? n).isSome then
          ((grp.vreg? n).map (fun y => laneOf y.val k)).getD 0 else 0) ∧
      (∀ n, dstReg w.dst ≠ some n → grp.pend = [] → grp'.vreg? n = grp.vreg? n) ∧ SameMem s t ∧ more c' rg' grp'
    let done (t : State) (v : Word) : Prop := doneWith t v (fun _ _ _ => True)
    let ends (i : Instr) (v : Word) : Prop := ∃ t, exec i s = .next t ∧ t.faults = s.faults ∧ done t v
    let decides : Word → Prop := ends (.waitDecision row slot g)
    let held : Prop := exec (.waitDecision row slot g) s =
      .next (s.modReach row slot (fun r => { r with stalled := true, counted := false }))
    let sound : Prop := w.kind = .push ∨ w.kind = .pop
    let plain : Prop := w.kind = .bar ∨ w.kind = .acq ∨ w.kind = .wait ∨ sound
    let inner : Prop := w.kind = .bar ∨ sound
    let rs (v : Word) : Word := if v &&& 0xFF = 0 ∧ l.record.super = true ∧ w.resynced = true then v ||| 4 else v
    let met : Prop := ((s.obj w.obj.toNat) - w.arg.setWidth 16).toNat < 32768
    let own := plannedAt { r with frames := w.frame } l col w.j
    let next := plannedAt r l col 0
    let b := c.bar
    let all : Bool := (List.range c.groups.length).all (fun k => bit b.arrived k || ((c.groups[k]?).map (·.ended)).getD true)
    let alone : Prop := ∀ k y, k ≠ g → c.groups[k]? = some y → y.ended = true
    let child : Option Launch := match readHandle rg w.obj with
      | .valid o => s.childOf r.launch rg.reach rg.grp o
      | _ => none
    let told : Option Word := match readHandle rg w.obj with
      | .null => some 6
      | .invalid => some 8
      | .valid _ => match child with
        | none => some 8
        | some k => if k.state = .done then some (BitVec.ofNat 32 k.status) else none
    let rdx := w.obj.toNat
    let lr := ((c.leaves.find? (fun e => e.rdx == rdx)).map (·.lr)).getD 0
    let round : Option Round := (s.coll? rdx).bind (fun x => x.rounds.find? (fun y => y.r == lr))
    let bin : Bool := ((s.coll? rdx).map (·.bin)).getD false
    let fl (y : Round) : Nat := (y.flags &&& 7).toNat + (if y.dup then 8 else 0) + (if bin then 16 else 0)
    let open_ : Prop := rg.steps = [] ∧ grp.owed = .none ∧ grp.code ≠ skippedWait
    -- the sample
    (r.tallied = true → (∀ y ∈ c.groups, y.owed = .none) →
      ∃ t c', exec (.readinessSample row slot) s = .next t ∧ SameMem s t ∧ t.ctb? row slot col = some c' ∧
        (all = true → b.exr.getD 0 ≤ b.remote.length → c'.bar.phase = b.phase + 1 ∧ c'.bar.arrived = 0 ∧ c'.bar.exr = none) ∧
        (all = false ∨ b.remote.length < b.exr.getD 0 → c'.bar.phase = b.phase ∧ c'.bar.arrived = b.arrived ∧ c'.bar.exr = b.exr) ∧
        let ready : Option Bool := (c'.groups[g]?).map (fun y => y.ready)
        let answer : Option (Bool × Word) := (c'.groups[g]?).map (fun y => (y.ready, y.code))
        (w.kind = .acq ∨ w.kind = .wait → (ready = some true ↔ met)) ∧
        (w.kind = .bar → grp.target < c'.bar.phase.toNat → answer = some (true, 0)) ∧
        (w.kind = .bar → ∀ e, b.exr = some e → b.transit = [] → b.remote.length + b.carried.length < e → b.phase.toNat ≤ grp.target →
          answer = some (true, 6)) ∧
        (w.kind = .lwait → match told with
          | some v => answer = some (true, v)
          | none => ready = some false) ∧
        (w.kind = .coll → if s.broken rdx then answer = some (true, 7)
          else if round.any (fun y => y.tide.isSome) then answer = some (true, 0) else ready = some false) ∧
        (w.kind = .tresync → if w.resynced then answer = some (true, 0) else ready = some false)) ∧
    -- the service of a sound
    (r.tallied = true → (∀ k y, k ≠ g → c.groups[k]? = some y → y.owed = .none) → grp.ready = false →
      (s.core (coreIx row col)).errs = [] → ∀ x, c.sounds.find? (fun y => y.n == x.n) = some x →
      let mem := (s.core (coreIx row col)).scratch
      let ring (i : Nat) : Nat := c.base + x.roff + 2 * (i % x.depth)
      let sampled (t : State) (y : Sound) : Prop := y.sampled.toNat = 2 ^ 16 * (y.count % 256) + 2 ^ 24 * (y.allow % 256) +
        (if y.count = 0 then 0 else rdVal (t.core (coreIx row col)).scratch (c.base + y.roff + 2 * y.head) 2)
      let serves (answer : Option (Bool × Word)) (P : State → Ctb → Group → Sound → Prop) : Prop :=
        ∃ t c' y z, exec (.readinessSample row slot) s = .next t ∧ t.ctb? row slot col = some c' ∧ c'.groups[g]? = some y ∧
          (∀ a, answer = some a → (y.ready, y.code) = a) ∧ (answer = none → y.ready = false ∧ y.owed = grp.owed) ∧
          c'.sounds.find? (fun y => y.n == x.n) = some z ∧ sampled t z ∧ P t c' y { z with sampled := x.sampled }
      (∀ v, w.kind = .push → grp.owed = .push x.n v →
        (0 < x.allow → serves (some (true, 0)) (fun t c' y z => y.owed = .none ∧ z = { x with count := x.count + 1, allow := x.allow - 1 } ∧
          (∃ rel, c'.sndRel = c.sndRel ++ [(x.n, rel)] ∧ rel.view = grp.viewNow (.group l.id c.lin g) s.wseq) ∧
          ∀ q, (t.core q).scratch = if q = coreIx row col then wrN mem (ring (x.head + x.count)) (toBytes 2 v.toNat)
            else (s.core q).scratch)) ∧
        (x.allow = 0 → alone → serves (some (true, 6)) (fun t _ _ z => z = x ∧ SameMem s t)) ∧
        (x.allow = 0 → ¬ alone → serves none (fun t _ _ z => z = x ∧ SameMem s t))) ∧
      (w.kind = .pop → grp.owed = .pop x.n →
        (0 < x.count → serves (some (true, BitVec.ofNat 32 (65536 * rdVal mem (c.base + x.roff + 2 * x.head) 2))) (fun t _ y z =>
          y.owed = .none ∧ y.target = x.pops + 1 ∧ SameMem s t ∧
          z = { x with head := (x.head + 1) % x.depth, count := x.count - 1, allow := x.allow + 1, pops := x.pops + 1 })) ∧
        (x.count = 0 → alone → serves (some (true, 6)) (fun t _ _ z => z = x ∧ SameMem s t)) ∧
        (x.count = 0 → ¬ alone → serves none (fun t _ _ z => z = x ∧ SameMem s t)))) ∧
    -- the decision of a wait that is ready
    (open_ → grp.ready = true →
      (plain → inner ∨ 0 < w.texp → decides (rs grp.code)) ∧
      (w.kind = .lwait → 0 < w.texp → ∃ t, exec (.waitDecision row slot g) s = .next t ∧ t.faults = s.faults ∧
        doneWith t grp.code (fun _ rg' _ => ∀ o k, readHandle rg w.obj = .valid o → child = some k → k.state = .done →
          rg'.observed = rg.observed ++ [(o, BitVec.ofNat 32 k.status)])) ∧
      (w.kind = .coll → 0 < w.texp →
        let v : Word := if s.broken rdx then 7 else grp.code
        let f : Nat := if v &&& 0xFF = 0 then (round.map fl).getD 0 else 0
        ∃ t, exec (.waitDecision row slot g) s = .next t ∧ t.faults = s.faults ∧
          doneWith t (rs v ||| BitVec.ofNat 32 (256 * f) ||| BitVec.ofNat 32 (65536 * (lr % 65536))) (fun c' _ _ =>
            ∀ y e, v &&& 0xFF = 0 → round = some y → c.leaves.find? (fun e => e.rdx == rdx) = some e →
              c'.leaves.find? (fun e => e.rdx == rdx) = some { e with obs := 1, flags := fl y })) ∧
      (w.kind = .tresync → decides (4 ||| BitVec.ofNat 32 (65536 * (s.regs.rsyncstat.extractLsb' 16 8).toNat)))) ∧
    -- the decision of one that is not
    (plain ∨ w.kind = .lwait ∨ w.kind = .tresync ∨ (w.kind = .coll ∧ s.broken rdx = false) → inner ∨ w.kind = .tresync ∨ 0 < w.texp →
      grp.ready = false →
      let idle := w.idle + (if s.idleFrame r { rg := rg, w := w, grp := g, cols := [col], handler := false } then 1 else 0)
      let expired : Prop := w.kind ≠ .tresync ∧ (w.texp = 0 ∨ (w.texp < 31 ∧ 2 ^ w.texp ≤ idle))
      ∃ t r', exec (.waitDecision row slot g) s = .next t ∧ t.faults = s.faults ∧ SameMem s t ∧ t.reach? row slot = some r' ∧
        r'.ctbs = r.ctbs ∧ (r'.rgs[g]?).map (fun x => x.wait) = some (some { w with idle := idle, decided := true }) ∧
        (expired → t.agenda = insertEvent { tide := s.time, cls := 1, task := .op (.waitTimeout row slot g) } s.agenda) ∧
        (¬ expired → t.agenda = s.agenda ∧
          (inner ∨ w.kind = .tresync → r'.stalled = r.stalled ∧ r'.counted = r.counted) ∧
          (¬ (inner ∨ w.kind = .tresync) → r'.stalled = true ∧ r'.counted = false))) ∧
    -- the one decision of an external wait with e = 0
    (w.texp = 0 → open_ →
      (w.kind = .acq ∨ w.kind = .wait →
        let others (k : Launch) (j : Nat) : Prop := j < k.record.numReaches ∧ k.finished.contains j = false ∧ ¬ (k.id = r.launch ∧ j = r.j)
        (s.fires = [] → (∀ k ∈ s.launches, k.record.complete ≠ rdx ∧ (k.state = .running → ∀ j, ¬ others k j)) →
          let late := (s.objRel.filter (fun e => e.1 == rdx && decide (own ≤ e.2.1))).length
          decides (rs (if ((s.obj rdx - BitVec.ofNat 16 late) - w.arg.setWidth 16).toNat < 32768 then 0 else 1))) ∧
        ((∃ k ∈ s.launches, k.state = .running ∧ ∃ j, others k j ∧ s.reaches.find? (fun y => y.launch == k.id && y.j == j) = none) → held)) ∧
      (w.kind = .lwait →
        (∀ v, told = some v → (∀ k, child ≠ some k) → decides v) ∧
        (∀ k, child = some k → k.state = .done → decides (if k.doneTide < own then BitVec.ofNat 32 k.status else 9)) ∧
        (∀ k, child = some k → k.state = .draining → held)) ∧
      (w.kind = .coll →
        let word (v : Word) (f : Nat) : Word := rs v ||| BitVec.ofNat 32 (256 * f) ||| BitVec.ofNat 32 (65536 * (lr % 65536))
        (s.broken rdx = true → decides (word 7 0)) ∧
        (s.broken rdx = false → ∀ y t, round = some y → y.tide = some t → decides (if t < own then word 0 (fl y) else word 1 0)) ∧
        (s.broken rdx = false → (∀ y, round = some y → y.tide = none) → (s.time < own → held) ∧ (own ≤ s.time → decides (word 1 0))))) ∧
    -- tsleep
    (w.kind = .tsleep → col < 16 → open_ → grp.ready = false →
      let x := (grp.pTrack.getD rdx none).bind s.xfer?
      let v : DWord := if x.any (fun x => x.lost && decide (x.promise ≤ next)) then 0x8000000000000005 else grp.p.getD rdx emptyP
      let due := if w.texp = 0 then own else next
      (∀ p, x.bind (fun x => x.missedBy due) = some p → ∃ t f, exec (.waitDecision row slot g) s = .next t ∧ t.faults = [f] ∧
        f.cause = cMissedPromise ∧ f.addr = BitVec.ofNat 64 p ∧ f.col = col ∧ f.grp = g ∧ f.wide = false ∧ f.pc = rg.pc ∧ f.res = rg.pc ∧
        ((t.reach? row slot).bind (fun r => r.hold)).isSome = true ∧ Due t s.time 0 (.trapEntry row slot) ∧ SameMem s t) ∧
      (x.bind (fun x => x.missedBy due) = none →
        (v = emptyP → decides 2) ∧
        (v ≠ emptyP → v.getLsbD 63 = true → decides (if v.toNat % 256 = 5 then 5 else BitVec.ofNat 32 (3 + 256 * (v.toNat % 256)))) ∧
        (v.getLsbD 63 = false →
          (w.texp = 0 → own < v.toNat → decides 1) ∧
          (v.toNat ≤ next → (w.texp = 0 → v.toNat ≤ own) → (∀ y, x = some y → y.landed = true) → ∃ t,
            exec (.waitDecision row slot g) s = .next t ∧ t.faults = s.faults ∧ doneWith t (rs 0) (fun _ _ g' =>
              ∀ y id, grp.pTrack.getD rdx none = some id → x = some y → ∃ u ∈ g'.seen, u.covers (Seen.of id) = true)) ∧
          (v.toNat ≤ next → (w.texp = 0 → v.toNat ≤ own) → ∀ y, x = some y → y.landed = false → held) ∧
          (next < v.toNat → 0 < w.texp → ∃ t r', exec (.waitDecision row slot g) s = .next t ∧ t.faults = s.faults ∧
            t.reach? row slot = some r' ∧ r'.ctbs = r.ctbs ∧ r'.stalled = r.stalled ∧
            (r'.rgs[g]?).map (fun x => x.wait) = some (some { w with idle := w.idle + 1 }) ∧
            t.agenda = if w.texp < 31 ∧ 2 ^ w.texp ≤ w.idle + 1 then
              insertEvent { tide := s.time, cls := 1, task := .op (.waitTimeout row slot g) } s.agenda else s.agenda) ∧
          (next < v.toNat → 0 < w.texp → ends (.waitTimeout row slot g) 1)))) ∧
    -- the timeout
    (plain ∨ w.kind = .lwait → grp.ready = false → rg.steps = [] → grp.owed = .none →
      ends (.waitTimeout row slot g) (if w.kind = .lwait then 9 else 1))

/-- 13 R380 to R383: where its address names an armed descriptor for which the CTB has or can take an entry, `cwait` issues
its wait, `cnext` goes on to the next round once the CTB has observed its own, and `cstat` delivers the state of the
entry; else each is the fault of R380. -/
def Obligations.CollectiveInstructions : Prop :=
  ∀ (texp : BitVec 5) (d : Dst) (a : BitVec 6) (s : State) (h : Here), s.here = some h →
    let x := h.k a
    let here (c : Ctb) (g : Group) : Ctb := { c with groups := c.groups.set h.cur.grp g }
    (∀ rdx co, h.inSpace .global x = true → (h.launch.phys x.toNat).isSome = true → h.launch.redOf x.toNat = some rdx →
      s.coll? rdx = some co → co.armed = true →
      (h.ctb.leaves.length < 16 ∨ h.ctb.leaves.any (fun e => e.rdx == rdx) = true) →
      let kept := h.ctb.before.getD (h.ctb.binds, h.ctb.leaves)
      let new : Leaf := { rdx := rdx, lr := 0, obs := 0, flags := 0 }
      let enter (c : Ctb) : Ctb := { c with
        before := some (c.before.getD (c.binds, c.leaves))
        leaves := if c.leaves.any (fun e => e.rdx == rdx) then c.leaves else c.leaves ++ [new] }
      let u := s.modC h enter
      let e : Leaf := (h.ctb.leaves.find? (fun e => e.rdx == rdx)).getD new
      let was : Leaf := (kept.2.find? (fun e => e.rdx == rdx)).getD new
      let stamp := if h.cur.handler then 0 else 2 + h.planned
      (Fits h d → ∃ t, exec (.cwait texp d a) s = .next t ∧ t.faults = s.faults ∧
        OnlyCtb s t h (here (enter h.ctb) (h.grp.holding d))
          (h.rg.holds h .coll texp (BitVec.ofNat 64 rdx) 0 d)) ∧
      (Runs s h [] (dstNames d false) → ∃ t, exec (.cstat d a) s = .next t ∧ Delivers u t h [] d false 1 (fun _ =>
        BitVec.ofNat 64 (was.lr % 65536 + 65536 * (was.flags % 32) + (if was.obs = 1 then 2 ^ 24 else 0) +
          (if co.broken then 2 ^ 25 else 0))) 0) ∧
      (e.obs = 1 → ∃ t c, exec (.cnext a) s = .next t ∧ t.faults = s.faults ∧ SameMem s t ∧
        t.mine h = some { h.grp with cursor := 32 } ∧ t.ctb? h.cur.row h.cur.slot h.cur.col = some c ∧
        c.leaves.find? (fun e => e.rdx == rdx) = some { e with lr := e.lr + 1, obs := stamp } ∧
        { c with leaves := [], groups := [], before := none } = { h.ctb with leaves := [], groups := [], before := none } ∧
        c.before = some kept) ∧
      (h.cur.handler = false → h.ctb.leaves.any (fun e => e.rdx == rdx) = true → e.obs = stamp → exec (.cnext a) s = .next (u.modG h (fun g => { g with cursor := 32 }))) ∧
      (h.ctb.leaves.any (fun e => e.rdx == rdx) = false ∨ (e.obs ≠ 1 ∧ (e.obs = stamp → h.cur.handler = true)) →
        exec (.cnext a) s = .next (u.raise h cIllegalOperand x))) ∧
    (let fails (i : Instr) : Prop :=
      (h.inSpace .global x = false → exec i s = .next (s.raise h cAperture x)) ∧
      (h.inSpace .global x = true → h.launch.phys x.toNat = none → exec i s = .next (s.raise h cMapMiss x)) ∧
      (h.inSpace .global x = true → (h.launch.phys x.toNat).isSome = true →
        (match h.launch.redOf x.toNat with
          | none => True
          | some rdx => s.armed rdx = false ∨ (16 ≤ h.ctb.leaves.length ∧ h.ctb.leaves.any (fun e => e.rdx == rdx) = false)) →
        exec i s = .next (s.raise h cAccess x))
     fails (.cnext a) ∧ (Fits h d → fails (.cwait texp d a)) ∧ (Fits h d → h.grp.cursor ≠ 33 → fails (.cstat d a))) ∧
    (¬ Fits h d → (∃ v, exec (.cwait texp d a) s = .next (s.raise h cRegQuota v)) ∧
      (h.grp.cursor ≠ 33 → ∃ v, exec (.cstat d a) s = .next (s.raise h cRegQuota v)))

/-- 03 R118, R121 to R125: `launch` begins a child launch and writes its handle, or the null handle when CHILDMAX have been
issued; `lwait` issues its wait; `lstat`, `lcancel` and `fmtq` deliver their words, and a cancel that comes before the
declared start takes effect. That a handle with a nonzero reserved bit is BAD_HANDLE, and that the cancel of a launch whose refusal is known
before its validation span ends returns the refusal, is notes/assumptions/31. -/
def Obligations.LaunchInstructions : Prop :=
  ∀ (late : Bool) (texp : BitVec 5) (dst : Dst) (d a b : BitVec 6) (slot : BitVec 3),
    IssuesWait (.lwait texp dst a) .lwait texp dst Always (fun h => h.k a) (fun _ => 0) ∧
    LaneInstr (.fmtq slot dst) [] dst true 1 Always (fun h _ _ => h.launch.record.fmt.getD slot.toNat 0) (fun _ _ _ => 0) ∧
    (∀ s h, s.here = some h → h.cur.handler = false →
      let rc := h.launch.record
      let n := h.rg.issued
      let id := s.nextId + 1
      (rc.childmax ≤ n → exec (.launch late d a b) s =
        .next (s.modRG h (fun rg => { rg with k := rg.k.set d.toNat (BitVec.allOnes 64) }))) ∧
      (n < rc.childmax → ∃ t l, exec (.launch late d a b) s = .next t ∧ t.faults = s.faults ∧ SameMem s t ∧
        t.launches = s.launches.map (fun x => if x.id = h.launch.id then { x with acted := true } else x) ++ [l] ∧
        t.here.map (fun x => x.rg) = some { h.rg with
          k := h.rg.k.set d.toNat (BitVec.ofNat 64 (2 ^ 37 * n + 2 ^ 32 * h.rg.grp + h.rg.reach)), issued := n + 1 } ∧
        t.mine h = some h.grp ∧ t.nextId = id ∧ l.id = id ∧ l.issuer = .child h.launch.id h.rg.reach h.rg.grp n ∧
        l.ident = rc.childarea.toNat + 64 * ((h.rg.reach * rc.groups + h.rg.grp) * rc.childmax + n) ∧
        l.recAddr = h.k a ∧ l.declared = (h.k b).toNat ∧ l.late = late ∧ l.issueTide = h.planned0 ∧ l.state = .validating ∧
        l.issuerSuper = h.super ∧ (l.refused = false ↔ l.status = 0) ∧
        t.agenda = insertEvent
          { tide := max (workAfter h.planned0 512) s.time, cls := 1, task := .op (.validationSpanEnd id) } s.agenda)) ∧
    (∀ t n, t % 8192 < 7936 → t % 8192 + n < 7936 → workAfter t n = t + n) ∧
    (∀ t n, t % 8192 < 7936 → workAfter t (n + (7936 - t % 8192)) = workAfter (8192 * (t / 8192 + 1)) n) ∧
    ∀ s h, Runs s h [] (dstNames dst false) →
      let x := h.k a
      let null : Prop := x = BitVec.allOnes 64
      let valid (o : Nat) : Prop := x.toNat = 2 ^ 37 * o + 2 ^ 32 * h.rg.grp + h.rg.reach ∧ o < 16 ∧ h.rg.grp < 32 ∧ h.rg.reach < 2 ^ 32 ∧
        o < h.rg.issued
      let child (o : Nat) (l : Launch) : Prop := s.childOf h.reach.launch h.rg.reach h.rg.grp o = some l
      let gives (i : Instr) (w : Nat) : Prop := ∃ t, exec i s = .next t ∧ Delivers s t h [] dst false 1 (fun _ => BitVec.ofNat 64 w) 0
      (null → gives (.lstat dst a) 6 ∧ gives (.lcancel dst a) 6) ∧
      (¬ null → (∀ o, ¬ valid o) → gives (.lstat dst a) 8 ∧ gives (.lcancel dst a) 8) ∧
      (∀ o, valid o → look h.rg.observed o = none → gives (.lstat dst a) 1) ∧
      (∀ o l st, valid o → look h.rg.observed o = some st → child o l → 0 < l.record.positions →
        gives (.lstat dst a) (st.toNat % 256 + (if l.replayable then 256 else 0) + (if l.record.save = 0 then 0 else 512) +
          65536 * min 65535 ((l.record.numReaches + l.record.positions - 1) / l.record.positions))) ∧
      (∀ o l, valid o → child o l →
        (l.refused = true → gives (.lcancel dst a) l.status) ∧
        (l.refused = false → l.cancelled = true → gives (.lcancel dst a) 3) ∧
        (l.refused = false → l.cancelled = false → l.declared ≤ h.planned → gives (.lcancel dst a) 4) ∧
        (l.refused = false → l.cancelled = false → h.planned < l.declared → ∃ t u, exec (.lcancel dst a) s = .next t ∧
          u = (s.modLaunch l.id (fun x => { x with cancelled := true })).later l.declared 1 (.cancelFire l.id) ∧
          Delivers u t h [] dst false 1 (fun _ => 3) 0))

/-! ### Traps, ends, system registers and debug (04, 15) -/

/-- 15 R392, R394, R396, R397, R399, R400, R422, R423, R429: `trap` is a headland fault that resumes after the instruction; the trap entry
writes the record of the fault, saves EXM, stack and latches, and starts the handler with every present lane; `tret` and
`hgo` restore them and the reach resumes, `hgo` with a count of positions after which STEP is raised; a count that is reached stops its
groups with STEP. That `hgo` outside a handler is ILLEGAL_OPERAND, the position and the resume index that `trap` completes, and when a
loss of an interrupted access is told are the model's, notes/assumptions/18. -/
def Obligations.Traps : Prop :=
  (∀ (code : Option Word) (s : State) (h : Here), s.here = some h → ∃ t g, exec (.trap code) s = .next t ∧ SameMem s t ∧
    OnlyHere { s with faults := t.faults, issue := t.issue } t h g h.rg ∧ g = { h.grp with cursor := 0 } ∧
    t.faults = s.faults ++ [{
      j := s.runIx, col := h.cur.col, grp := h.cur.grp, lane := 0, tlane := 0, cause := 0x21,
      addr := (code.getD 0).setWidth 64, wide := true, late := false, planned := h.planned, pc := h.cur.pc, ilen := h.cur.ilen,
      res := h.cur.pc + BitVec.ofNat 64 h.cur.ilen, curs := 0 }]) ∧
  (∀ (s : State) (row slot col : Nat) (r : Reach) (l : Launch) (c : Ctb) (g : Group) (rg : RGroup) (x : Hold) (f : FaultRec),
    s.reach? row slot = some r → r.row = row → r.slot = slot → r.hold = some x → x.entered = false → x.queue = [(col, f.grp)] →
    s.launch? r.launch = some l → l.record.handler ≠ 0 → r.ctb? col = some c → c.group? f.grp = some g → r.rgs[f.grp]? = some rg →
    s.faults = [f] → f.wide = true ∨ f.col = col → (∀ y ∈ r.ctbs, ((s.core (coreIx row y.1)).mx.queue slot).items = []) →
    (∀ w ∈ s.sysw, ¬ (w.row = row ∧ w.slot = slot)) → g.ended = false →
    g.pend = [] → f.cause < 256 → f.tlane < 256 → f.curs < 64 → f.ilen < 256 →
    ∃ t g' x', exec (.trapEntry row slot) s = .next t ∧ t.faults = [] ∧ SameMem s t ∧ t.grpAt row slot col f.grp = some g' ∧
      (t.reach? row slot).bind (fun r => r.hold) = some x' ∧
      g' = { g with prd := 0xFFFFFFFF, div := g.present, dstack := [], cursor := 0, latch := g'.latch, trap := g'.trap, trapTide := f.planned,
                    marks := g.marks.filter (fun m => decide (m.1 < rg.pos)), again := false, lateErr := [],
                    shadow := some { prd := g.prd, div := g.div, dstack := g.dstack, hstack := rg.hstack, latch := g.latch, marks := g.marks, again := g.again,
                                      lateErr := if f.late ∧ f.cause = cScratchLost then dropLoss f g.lateErr else g.lateErr } } ∧
      (∀ y ∈ g'.latch, y.valid = 0) ∧ g'.latch.length = g.latch.length ∧
      g'.trap.pc = f.pc ∧ g'.trap.addr = f.addr ∧ g'.trap.res = f.res ∧
      g'.trap.cause.toNat = f.cause + (if f.late then 2 ^ 24 else 0) + (if f.wide then 2 ^ 25 else 0) ∧
      g'.trap.lane.toNat = f.tlane + 256 * f.curs + 65536 * f.ilen ∧
      x'.entered = true ∧ { x' with entered := false, rg := x.rg } = { x with entered := false, rg := x.rg } ∧
      x'.rg = { rg with pc := l.record.handler, npc := l.record.handler, hstack := [], head := false, tstep := false, wait := none, steps := [], idx := 0 }) ∧
  (∀ (s : State) (h : Here) (a : BitVec 6), s.here = some h → hi32 (h.k a) ≠ 0 → exec (.hgo (some a)) s = .next (s.raise h cIllegalOperand 0)) ∧
  (∀ (s : State) (h : Here) (x : Hold) (sh : Shadow) (i : Instr) (n : Nat), s.here = some h →
    (i = .tret ∧ n = 0) ∨ (i = .hgo none ∧ n = 0) ∨ (∃ a, i = .hgo (some a) ∧ h.k a = BitVec.ofNat 64 n ∧ n < 2 ^ 32) →
    (h.cur.handler = false → exec i s = .next (s.raise h cIllegalOperand 0)) ∧
    (h.cur.handler = true → h.reach.hold = some x → x.queue = [(h.cur.col, h.cur.grp)] → s.lastOfIndex = true →
      h.grp.shadow = some sh → h.grp.pend = [] →
      let past : Bool := !x.wide && ((h.reach.rgs[h.cur.grp]?).map (fun rg =>
        s.skipPad h.launch h.grp.trap.res != s.skipPad h.launch rg.pc)).getD false
      let moved : Bool := x.wide && ((h.reach.rgs[h.cur.grp]?).map (fun rg => h.grp.trap.res != rg.pc)).getD false
      -- the counts that run: the column's own is replaced by a new one, and an index at which it idles is not counted
      let counted (rg : RGroup) : List (Nat × Nat × Nat) :=
        if n = 0 then rg.steps.map (fun e => if e.1 = h.cur.col ∧ past = true then (e.1, e.2.1 + 1, e.2.2) else e)
        else rg.steps.filter (fun e => e.1 != h.cur.col) ++ [(h.cur.col, n + (if past then 1 else 0), n)]
      ∃ t g r, exec i s = .next t ∧ t.faults = s.faults ∧ SameMem s t ∧ t.mine h = some g ∧
        t.reach? h.cur.row h.cur.slot = some r ∧ r.hold = some { x with resume := true } ∧
        { g with sd := [] } = { h.grp with sd := [], prd := sh.prd, div := sh.div, dstack := sh.dstack, latch := sh.latch, marks := sh.marks, shadow := none,
                                             again := sh.again && !past && !moved, lateErr := h.grp.lateErr.map (fun e => { e with due := 0 }) ++ sh.lateErr, cursor := if past then 32 else if h.grp.trap.cursor = 32 then 33 else h.grp.trap.cursor } ∧
        (x.wide = false → r.rgs = h.reach.rgs.modify h.cur.grp (fun rg => { rg with steps := counted rg })) ∧
        (x.wide = true → ∀ rg, h.reach.rgs[h.cur.grp]? = some rg → r.rgs[h.cur.grp]? = some { rg with
          steps := counted rg, k := x.rg.k, pc := h.grp.trap.res, npc := h.grp.trap.res, head := false, tstep := false,
          wait := if h.grp.trap.res = rg.pc then rg.wait else none }))) ∧
  ∀ (s : State) (row slot group col n : Nat) (r : Reach) (l : Launch) (rg : RGroup) (c : Ctb) (g : Group),
    s.reach? row slot = some r → r.row = row → r.slot = slot → r.hold = none → r.rgs[group]? = some rg → s.launch? r.launch = some l →
    rg.steps = [(col, 0, n)] → r.ctb? col = some c → c.ended = none → c.group? group = some g → g.ended = false → col < 16 → s.faults = [] →
    ∃ t f x, exec (.stepCountReached row slot group) s = .next t ∧ SameMem s t ∧ t.faults = [f] ∧ f.col = col ∧ f.grp = group ∧
      f.cause = 0x22 ∧ f.addr = BitVec.ofNat 64 n ∧ f.pc = rg.last ∧ f.res = rg.pc ∧ f.wide = false ∧
      (t.reach? row slot).bind (fun r => r.hold) = some x ∧ x.wide = false ∧ x.queue = [(col, group)] ∧ x.visit = r.visits ∧
      x.run = r.run ∧ x.entered = false ∧
      { tide := s.time, cls := 0, task := .op (.trapEntry row slot) } ∈ t.agenda

/-- 04 R148, 15 R402, R403, R426: `end` and `tkill.group` end their group on each core, whose results land and whose rows
return; the CTB ends with the last of its groups, normally unless one was killed; `tkill.ctb` and an abnormal end end it with
their status, at which every group stays, and a dump is due where there is a save area.
Report kinds are the model's own, notes/assumptions/26. -/
def Obligations.Ends : Prop :=
  (∀ (kill : Bool) (s : State) (h : Here), s.here = some h → h.cur.handler = false → h.grp.ended = false → h.ctb.ended = none →
    let i : Instr := if kill then .tkillGroup else .endG
    let others : Bool := (List.range h.ctb.groups.length).all (fun k => k == h.cur.grp || ((h.ctb.groups[k]?).map (·.ended)).getD true)
    let st : CtbEnd := if kill || h.grp.killed || h.ctb.groups.zipIdx.any (fun e => e.2 != h.cur.grp && e.1.killed) then .killed else .ok
    ∃ t c g, exec i s = .next t ∧ t.faults = s.faults ∧ SameMem s t ∧ t.ctb? h.cur.row h.cur.slot h.cur.col = some c ∧
      t.mine h = some g ∧ g.ended = true ∧ g.killed = (h.grp.killed || kill) ∧ g.vregs = [] ∧ g.dstack = [] ∧ g.granted = 0 ∧ g.cursor = 32 ∧
      (∀ y ∈ g.latch, y.valid = 0) ∧ (∀ p ∈ g.pend, p.item ≠ 0) ∧ c.reserve = h.ctb.reserve + h.grp.granted ∧
      (∀ k, k ≠ h.cur.grp → c.groups[k]? = h.ctb.groups[k]?) ∧
      (others = false → c.ended = none ∧ t.launches = s.launches ∧ t.agenda = s.agenda) ∧
      (others = true → c.ended = some st ∧ c.endTide = h.planned ∧ c.leaves = [] ∧
        (∃ l, t.launch? h.launch.id = some l ∧ l.ends = h.launch.ends ++ [(h.ctb.lin, st)] ∧
          l.wbLeft = (if h.launch.record.nwb = 0 then h.launch.wbLeft else h.ctb.lin :: h.launch.wbLeft)) ∧
        { tide := s.time, cls := 0, task := .op (.writebackStart h.launch.id h.ctb.lin) } ∈ t.agenda ∧
        { tide := s.time, cls := 0, task := .op (.launchComplete h.launch.id) } ∈ t.agenda)) ∧
  ∀ (s : State) (row slot col : Nat) (r : Reach) (l : Launch) (c : Ctb) (st : CtbEnd) (kill : Bool) (h : Here),
    s.reach? row slot = some r → s.launch? r.launch = some l → r.ctb? col = some c → c.ended = none →
    (kill = true → s.here = some h ∧ h.cur.handler = false ∧ h.cur.row = row ∧ h.cur.slot = slot ∧ h.cur.col = col ∧ st = .killed) →
    (∀ w ∈ s.sysw, ¬ (w.row = row ∧ w.slot = slot ∧ w.col = col)) →
    let left : Prop := l.record.save ≠ 0 ∧ (st = .faulted ∨ st = .killed)
    let i : Instr := if kill then .tkillCtb else .ctbAbnormalEnd row slot col st
    ∃ t, exec i s = .next t ∧ SameMem s t ∧ t.faults = s.faults ∧
      (kill = true → ∀ w, t.issue = some w → ∀ e ∈ w.todo, e.1 ≠ col) ∧
      (∃ c', t.ctb? row slot col = some c' ∧ c'.ended = some st ∧
        { c' with ended := none, endTide := 0, stopGrp := 0, stop := none, groups := [] } = { c with ended := none, endTide := 0, stopGrp := 0, stop := none, groups := [] } ∧
        c'.groups.length = c.groups.length ∧
        ∀ (k : Nat) (g g' : Group), c.groups[k]? = some g → c'.groups[k]? = some g' → g.pend = [] ∨ g.ended = true → g' = g) ∧
      (∃ l', t.launch? l.id = some l' ∧ l'.ends = l.ends ++ [(c.lin, st)] ∧ (¬ left → l'.wbLeft = l.wbLeft) ∧
        (left → l'.wbLeft = c.lin :: l.wbLeft ∧ { tide := s.time, cls := 0, task := .op (.dump row slot col) } ∈ t.agenda)) ∧
      { tide := s.time, cls := 0, task := .op (.launchComplete l.id) } ∈ t.agenda ∧
      (st = .faulted → .report 0x403 l.id c.lin ∈ t.out)

/-- 15 R410, R415, R416, R420, R424, R425, 13 R369, R377: `sysrd` and `tinfo` deliver a register of the group, of its core or of the device;
`syswr` writes it with the value of the lowest active lane, by the fields of its register map; user mode may read only the registers
marked for it; a write of a counter that meets its increment is counted in CNTLOST. LAT of LNKSTAT is a free value, notes/assumptions/14. -/
def Obligations.SystemRegisters : Prop :=
  ∀ (d : Dst) (n : BitVec 16) (a : Src) (item : TinfoItem) (s : State) (h : Here),
    let user : Prop := n.toNat ≤ 2 ∨ n.toNat = 0x39 ∨ (0x40 ≤ n.toNat ∧ n.toNat ≤ 0x4F)
    let group : Prop := n.toNat ≤ 2 ∨ (0x10 ≤ n.toNat ∧ n.toNat ≤ 0x14)
    let device : Prop := srnDevice n.toNat = true
    let w64 : Bool := srnWidth n.toNat == some .w64
    let c := s.core h.q
    let g := h.grp
    let z (w : Word) : DWord := w.setWidth 64
    let gives (v : DWord) : Prop := ∃ t, exec (.sysrd d n) s = .next t ∧ Delivers s t h [] d w64 1 (fun _ => v) 0
    let m := n.toNat
    (Runs s h [] (dstNames d true) → ∃ t, exec (.tinfo item d) s = .next t ∧ Delivers s t h [] d true 1 (fun _ => match item with
      | .cause => z g.trap.cause
      | .pc => g.trap.pc
      | .addr => g.trap.addr
      | .lane => z g.trap.lane) 0) ∧
    let me := (h.cur.row, h.cur.slot, h.cur.col, h.cur.grp)
    let home : Option Nat := if srnCore m = true then some h.q else none
    (Runs s h [] (dstNames d w64) →
      (h.super = false → ¬ user → exec (.sysrd d n) s = .next (s.raise h cPrivilege (n.setWidth 64))) ∧
      (h.super = true → device → s.acctlR 25 h.cur.row = false → exec (.sysrd d n) s = .next (s.raise h cAccess (n.setWidth 64))) ∧
      ((h.super = true ∧ (device → s.acctlR 25 h.cur.row = true)) ∨ (h.super = false ∧ user) →
        -- another group's write is seen from the writer's next rotation frame on
        (∀ e, s.sysOld = [e] → e.n = m → e.q = home → ¬ group → m ≠ 0x39 → e.by_ ≠ me → s.time < e.until_ → gives e.old) ∧
        ((∀ e ∈ s.sysOld, e.n = m → e.by_ = me ∨ e.until_ ≤ s.time) →
        (m = 0 → gives (g.prd ++ g.div)) ∧ (m = 1 → gives (z g.iflags)) ∧ (m = 2 → gives (z g.xflags)) ∧
        (m = 0x10 → gives (z g.trap.cause)) ∧ (m = 0x11 → gives g.trap.pc) ∧ (m = 0x12 → gives g.trap.addr) ∧
        (m = 0x13 → gives (z g.trap.lane)) ∧ (m = 0x14 → gives g.trap.res) ∧
        (m = 0x20 → gives (z s.regs.detcfg)) ∧ (m = 0x21 → gives (z s.regs.schedcfg)) ∧ (m = 0x22 → gives (z s.regs.slackcfg)) ∧
        (m = 0x23 → gives s.regs.rsyncstat) ∧ (m = 0x24 → gives s.regs.stagebase) ∧ (m = 0x25 → gives s.regs.ptbase) ∧
        (m = 0x26 → gives s.regs.cdbase) ∧ (m = 0x27 → gives (z s.regs.podid)) ∧ (m = 0x30 → gives s.regs.ttbase) ∧
        (m = 0x31 → gives s.regs.ttepoch) ∧ (m = 0x32 → gives (z s.regs.ttstat)) ∧ (m = 0x38 → gives (z s.regs.replcfg)) ∧
        (∀ k, k < 16 → m = 0x40 + k → gives (z (s.regs.proj.getD k 0))) ∧
        (∀ k, k < 4 → m = 0x50 + k → gives (BitVec.ofNat 64 (c.bankmap.toNat / 2 ^ (32 * k) % 2 ^ 32))) ∧
        (m = 0x54 → gives (z c.scrcnt)) ∧
        (∀ k, k < 22 → m = 0x60 + k → gives (let w := (s.regs.defstat.getD k 0).toNat
          BitVec.ofNat 64 (w / 65536 * 65536 + (w % 65536 - (s.time % 8192 - 7936))))) ∧
        (∀ k, k < 26 → m = 0x80 + k → gives (s.regs.acctl.getD k 0)) ∧ (m = 0x28 → gives s.regs.cdarm) ∧
        (∀ k, k < 16 → m = 0xA0 + k → gives (let w := (s.regs.lnkstat.getD k 0).toNat
          BitVec.ofNat 64 (w / 2 ^ 32 * 2 ^ 32 + (Config.linkLat k).toNat * 2 ^ 20 + w % 2 ^ 20))) ∧
        (m = 0xB0 → gives s.regs.cntwrap) ∧ (m = 0xB1 → gives (z c.cntlost)) ∧
        (m = 0x110 → gives c.survey.ctl) ∧ (m = 0x112 → gives c.survey.out) ∧
        (∀ k, k < 256 → m = 0x200 + k → gives ((look c.survey.bins k).getD 0)) ∧
        -- SURVIDLE counts, while EN is 1, the slots of 32 pipes that did not issue since it was last counted, slack water apart
        (m = 0x111 → gives (
          let work (t : Nat) : Nat := 7936 * (t / 8192) + min (t % 8192) 7936
          let i := c.survey.idle.toNat
          let n := i % 2 ^ 63 + (32 * (work s.time - work c.survey.since) - c.survey.busy)
          if c.survey.ctl.getLsbD 6 then BitVec.ofNat 64 (n % 2 ^ 63 + (if 2 ^ 63 ≤ i ∨ 2 ^ 63 ≤ n then 2 ^ 63 else 0)) else c.survey.idle)) ∧
        (∀ k, k < 16 → (m = 0xC0 + k → gives (c.bcnctl.getD k 0)) ∧ (m = 0xD0 + k → gives (c.bcnlo.getD k 0)) ∧
          (m = 0xE0 + k → gives (c.bcnhi.getD k 0))) ∧
        (∀ k, k < 4 → m = 0x100 + k → gives (c.watch.getD k 0)) ∧
        (m = 0x108 → gives s.regs.trbase) ∧ (m = 0x109 → gives s.regs.trsize) ∧ (m = 0x10A → gives s.regs.trhead) ∧
        (m = 0x10B → gives s.regs.trloss)) ∧
        (m = 0x39 → gives (BitVec.ofNat 64 ((if h.launch.record.debug ≠ 0 ∧ h.launch.record.debug = s.regs.dbgtok then 1 else 0) +
          (if h.ctb.edited then 2 else 0)))))) ∧
    (Runs s h [.src a w64] [] → h.super = true → (device → s.acctlW 25 h.cur.row = true) →
      (h.cur.handler = false → 0x10 ≤ m → m ≤ 0x14 → exec (.syswr a n) s = .next (s.raise h cIllegalOperand (n.setWidth 64))) ∧
      (h.cur.handler = true ∨ ¬ (0x10 ≤ m ∧ m ≤ 0x14) → ∀ k l, h.lanes = k :: l →
        let v := arg (s.srcs h [.src a w64] k) 0
        ∃ t g' w, exec (.syswr a n) s = .next t ∧ t.faults = s.faults ∧ SameMem s t ∧ t.mine h = some g' ∧ g'.cursor = 32 ∧
          SourcesDone g g' [.src a w64] [] ∧ g'.bare = g.bare ∧ g'.iflags = g.iflags ∧ t.regs = s.regs ∧ t.cores = s.cores ∧
          t.sysw = s.sysw ++ [w] ∧ w = {
            row := h.cur.row, slot := h.cur.slot, col := h.cur.col, grp := h.cur.grp,
            handler := h.cur.handler, due := h.rg.pos + 1, frame := w.frame, act := .write m v })) ∧
    -- a write in flight is performed at the first run index that its group comes to, from its landing position on
    (∀ r j todo, (s.beginIndex r j todo).sysw = s.sysw.filter (fun w => !r.lands j w)) ∧
    (∀ (r : Reach) (j : Nat) (w : SysWrite) (rg : RGroup), r.rgOf w.grp w.handler = some rg →
      (r.lands j w = true ↔ w.row = r.row ∧ w.slot = r.slot ∧ r.stalled = false ∧ rg.idx = j ∧ w.due ≤ rg.pos ∧ rg.wait = none)) ∧
    ∀ (w : SysWrite) (v : DWord), w.act = .write m v →
      let t := s.perform w
      let c := s.core w.q
      let onGroup (f : Group → Group) : Prop := t = s.modGroup w.row w.slot w.col w.grp f
      t.faults = s.faults ∧ SameMem s t ∧ (¬ group → t.reaches = s.reaches) ∧ (group ∨ srnCore m = true → t.regs = s.regs) ∧
      (m = 1 → onGroup (fun g => { g with iflags := BitVec.ofNat 32 (v.toNat % 256) })) ∧
      (m = 2 → onGroup (fun g => { g with xflags := BitVec.ofNat 32 (v.toNat % 4) })) ∧
      (m = 0x22 → t.regs.slackcfg.toNat = s.regs.slackcfg.toNat - s.regs.slackcfg.toNat / 65536 % 4 * 65536 + v.toNat / 65536 % 4 * 65536) ∧
      (m = 0x25 → t.regs = { s.regs with ptbase := BitVec.ofNat 64 (v.toNat % 2 ^ 52 / 4096 * 4096) }) ∧
      (m = 0x27 → t.regs = { s.regs with podid := BitVec.ofNat 32 (v.toNat % 2 ^ 11) }) ∧
      (m = 0x30 → t.regs = { s.regs with ttbase := BitVec.ofNat 64 (v.toNat % 2 ^ 52 / 4096 * 4096) }) ∧
      (∀ k, k < 26 → m = 0x80 + k → t.regs = { s.regs with acctl := s.regs.acctl.set k (v &&& 0x0007FFFF0007FFFF) }) ∧
      (∀ k, k < 16 → (m = 0xD0 + k → (t.core w.q).bcnlo = c.bcnlo.set k v) ∧ (m = 0xE0 + k → (t.core w.q).bcnhi = c.bcnhi.set k v)) ∧
      (∀ k, k < 4 → m = 0x100 + k → (t.core w.q).watch = c.watch.set k (v &&& 0x800003FFFFFFFFFF)) ∧
      (m = 0 ∨ (0x10 ≤ m ∧ m ≤ 0x12) → t = s) ∧
      (∀ r l, s.reach? w.row w.slot = some r → s.launch? r.launch = some l →
        -- CURSOR takes 0 to 31, TRAPRES a write in a reach-wide hold
        (m = 0x13 → let x := v.toNat / 256 % 64
          (x < 32 → onGroup (fun g => { g with trap := { g.trap with lane := (g.trap.lane &&& 0xFFFFC0FF) ||| BitVec.ofNat 32 (256 * x) } })) ∧
          (32 < x → onGroup id)) ∧
        (m = 0x14 → if r.hold.any (fun x => x.wide) then onGroup (fun g => { g with trap := { g.trap with res := v &&& ~~~3 } }) else t = s)) ∧
      -- a field of bits lo to lo + n - 1 that is "cleared by `syswr`": zero clears it, another value leaves it
      let cleared (x : DWord) (lo n : Nat) : Nat := if v.toNat / 2 ^ lo % 2 ^ n = 0 then 0 else x.toNat / 2 ^ lo % 2 ^ n * 2 ^ lo
      let count (x : DWord) : DWord := BitVec.ofNat 64 (v.toNat % 2 ^ 63 + cleared x 63 1)
      (m = 0x20 → t.regs = { s.regs with detcfg := if s.regs.detcfg.getLsbD 1 then s.regs.detcfg else BitVec.ofNat 32 (v.toNat % 4) }) ∧
      (m = 0x21 → t.regs = { s.regs with schedcfg := t.regs.schedcfg } ∧
        t.regs.schedcfg.toNat = s.regs.schedcfg.toNat / 32 * 32 + v.toNat / 16 % 2 * 16 + (if v.toNat % 16 ≤ 10 then v.toNat % 16 else s.regs.schedcfg.toNat % 16)) ∧
      (m = 0x23 → t.regs = { s.regs with rsyncstat := BitVec.ofNat 64 (s.regs.rsyncstat.toNat / 65536 * 65536 + cleared s.regs.rsyncstat 0 16) }) ∧
      (m = 0x24 → t.regs = { s.regs with stagebase := BitVec.ofNat 64 (v.toNat % 2 ^ 52 / 2 ^ 26 * 2 ^ 26) }) ∧
      (m = 0x26 → t.regs = { s.regs with cdbase := BitVec.ofNat 64 (v.toNat % 2 ^ 52 / 2 ^ 18 * 2 ^ 18) }) ∧
      (m = 0x28 → t.regs = { s.regs with cdarm := BitVec.ofNat 64 (v.toNat % 4096) } ∧
        (∀ e, e ∈ t.agenda ↔ e ∈ s.agenda ∨ (v.toNat / 2 ^ 30 % 4 = 1 ∧ e = { tide := s.time, cls := 0, task := .op (.descriptorArm (v.toNat % 4096)) }) ∨
          (v.toNat / 2 ^ 30 % 4 = 2 ∧ e = { tide := s.time, cls := 0, task := .op (.descriptorBreak (v.toNat % 4096)) }))) ∧
      (m = 0x31 → t.regs = { s.regs with ttepoch := v, ttstat := 1 } ∧ t.ttNext = some (v.toNat, s.time)) ∧
      (m = 0x38 → t.regs = { s.regs with replcfg := BitVec.ofNat 32 (s.regs.replcfg.toNat / 256 * 256 + v.toNat / 16 % 16 * 16 +
        s.regs.replcfg.toNat / 2 % 8 * 2 + v.toNat % 2) }) ∧
      (∀ k, k < 22 → m = 0x60 + k → t.regs = { s.regs with defstat := s.regs.defstat.modify k (fun x =>
        BitVec.ofNat 32 (x.toNat % 65536 + cleared (x.setWidth 64) 16 16)) }) ∧
      (∀ k, k < 16 → m = 0xA0 + k → t.regs = { s.regs with lnkstat := s.regs.lnkstat.modify k (fun x => BitVec.ofNat 64
        (x.toNat % 128 + cleared x 7 1 + cleared x 8 1 + x.toNat / 512 % 2 ^ 23 * 512 + cleared x 32 16 + cleared x 48 16)) }) ∧
      (m = 0xB0 → t.regs = { s.regs with cntwrap := s.regs.cntwrap &&& ~~~v }) ∧
      (m = 0x108 → t.regs = { s.regs with trbase := BitVec.ofNat 64 (v.toNat % 2 ^ 52 / 64 * 64) }) ∧
      (m = 0x109 → t.regs = { s.regs with trsize := BitVec.ofNat 64 (v.toNat / 64 * 64) }) ∧
      (m = 0x10A → t.regs = { s.regs with trhead := BitVec.ofNat 64 (v.toNat / 64 * 64) }) ∧
      (m = 0x10B → t.regs = { s.regs with trloss := count s.regs.trloss }) ∧
      (m = 0x32 ∨ (0x40 ≤ m ∧ m ≤ 0x4F) → t.regs = s.regs) ∧
      -- BANKMAP takes a mark 0 to 9 of a group without one
      (∀ k, k < 4 → m = 0x50 + k → ∀ i, i < 32 → let o := c.bankmap.toNat / 16 ^ i % 16; let x := v.toNat / 16 ^ (i - 8 * k) % 16
        (t.core w.q).bankmap.toNat / 16 ^ i % 16 = if i / 8 = k ∧ o = 15 ∧ x ≤ 9 then x else o) ∧
      (m = 0x54 → (t.core w.q).scrcnt.toNat = v.toNat % 2 ^ 31 + cleared (z c.scrcnt) 31 1) ∧
      (m = 0x110 → (t.core w.q).survey.ctl.toNat = v.toNat / 4096 * 4096 + c.survey.ctl.toNat / 128 % 32 * 128 + v.toNat / 64 % 2 * 64 +
        (if 2 ≤ v.toNat % 64 ∧ v.toNat % 64 ≤ 40 then v.toNat % 64 else c.survey.ctl.toNat % 64)) ∧
      (m = 0x111 → (t.core w.q).survey.idle = count (c.countIdle s.time).survey.idle) ∧ (m = 0x112 → (t.core w.q).survey.out = count c.survey.out) ∧
      (∀ k, k < 256 → m = 0x200 + k → ∀ i, (look (t.core w.q).survey.bins i).getD 0 =
        if i = k then count ((look c.survey.bins k).getD 0) else (look c.survey.bins i).getD 0) ∧
      (∀ k, k < 16 → m = 0xC0 + k → (t.core w.q).bcnctl = c.bcnctl.modify k (fun x =>
        (x &&& 0x0000FFFF0007F01F) ||| (v &&& 0xFFFF0000BFF80FE0) ||| BitVec.ofNat 64 (cleared x 30 1))) ∧
      -- an increment at the tide of a write of its count is lost, and counted
      let met : Prop := ∃ e ∈ s.bumped, e.2.1 = m ∧ e.2.2 = s.time ∧ if ¬ device then e.1 = w.q else
        (m = 0x23 → v.toNat % 65536 = 0) ∧ (0xA0 ≤ m ∧ m ≤ 0xAF → v.toNat / 2 ^ e.1 % 65536 = 0)
      (¬ group → m ≠ 0x39 → m ≠ 0xB1 → met → (t.core w.q).cntlost.toNat = (c.cntlost.toNat + 1) % 2 ^ 31 + (if 2 ^ 31 ≤ c.cntlost.toNat + 1 then 2 ^ 31 else 0)) ∧
      (m ≠ 0xB1 → ¬ met → (t.core w.q).cntlost = c.cntlost) ∧
      (m = 0xB1 → ¬ met → (t.core w.q).cntlost.toNat = v.toNat % 2 ^ 31 + cleared (z c.cntlost) 31 1)

/-- 15 R412 to R414, R427, R428, R430, R431: `hread` and `hwrite` move items of a halted group, each item of Table 15.16 as its kind says, `hstep` executes one lane of it, `bcn.arm` and
`bcn.off` arm a beacon of the core for the slot and disarm it, and `emit` logs a record, which a drain moves to the trace
buffer. -/
def Obligations.DebugInstructions : Prop :=
  ∀ (d : Dst) (w : HItem) (a b : BitVec 6) (src : Src) (bw : BcnWord) (n : BitVec 4) (k : OpK) (s : State) (h : Here),
    let t := h.tgt w.group.toNat
    let queued (a : SysAct) (u : State) : Prop := u.faults = s.faults ∧ u.mine h = some { h.grp with cursor := 32 } ∧
      SameMem s u ∧ u.cores = s.cores ∧ u.regs = s.regs ∧ ∃ x : SysWrite, u.sysw = s.sysw ++ [x] ∧ x = {
        row := h.cur.row, slot := h.cur.slot, col := h.cur.col, grp := h.cur.grp, handler := h.cur.handler, due := h.rg.pos + 1, frame := x.frame, act := a }
    (Runs s h [] (dstNames d false) → h.cur.handler = true → s.tgtOk t = true → ∀ g rg, s.tgt? t = some g → s.tgtRG t = some rg →
      let x := match g.shadow with
        | some sh => (sh.prd, sh.div)
        | none => (g.prd, g.div)
      let gives (f : Nat → Word) : Prop := ∃ u, exec (.hread d w) s = .next u ∧ Delivers s u h [] d false 1 (fun k => (f k).setWidth 64) 0
      let pc : DWord := if t.handled then g.trap.res else rg.pc
      (w.item = 0 → gives (fun k => g.vlane w.index.toNat k)) ∧ (w.item = 1 → gives (fun _ => lo32 pc)) ∧
      (w.item = 2 → gives (fun _ => hi32 pc)) ∧ (w.item = 3 → gives (fun _ => x.2)) ∧ (w.item = 4 → gives (fun _ => x.1)) ∧
      (w.item = 6 → gives (fun _ => g.hlm)) ∧ (w.item = 8 → gives (fun _ => lo32 (rg.k.getD w.index.toNat 0))) ∧
      (w.item = 9 → gives (fun _ => hi32 (rg.k.getD w.index.toNat 0))) ∧
      (w.item = 5 → gives (fun _ => BitVec.ofNat 32 ((if t.handled then g.trap.cursor else min 32 g.cursor) + 256 * g.skid))) ∧
      (w.item = 7 → gives (fun _ => g.mask (BitVec.ofNat 4 w.index.toNat))) ∧
      (w.item = 0xC → gives (fun k => ((g.ix.getD w.index.toNat []).getD k 0).signExtend 32)) ∧
      (w.item = 0xD → gives (fun _ => lo32 (s.pNow g w.index.toNat h.planned))) ∧
      (w.item = 0xE → gives (fun _ => hi32 (s.pNow g w.index.toNat h.planned)))) ∧
    (Runs s h [.src src false] [] → h.cur.handler = true → s.tgtOk t = true → ∀ g rg, s.tgt? t = some g → s.tgtRG t = some rg →
      let ix := w.index.toNat
      let limit := h.launch.record.budget + g.granted
      let x (k : Nat) : Word := lo32 (arg (s.srcs h [.src src false] k) 0)
      let uniform : Prop := w.item = 1 ∨ w.item = 2 ∨ w.item = 8 ∨ w.item = 9
      -- the write ends with CTB EDITED, the target's group is `f` of what it was, its registers at the headland are `k` of theirs,
      -- and the handled group itself, which ends its position, has its sources done
      let writes (f : Group → Group) (k : RGroup → RGroup) : Prop := ∃ u g0 g1 c, exec (.hwrite src w) s = .next u ∧ u.faults = s.faults ∧ SameMem s u ∧
        u.tgt? t = some g1 ∧ g1 = f g0 ∧ (t.handled = false → g0 = g) ∧ u.tgtRG t = some (k rg) ∧
        (t.handled = true → SourcesDone g g0 [.src src false] [] ∧ g0.bare = g.bare ∧ g0.cursor = 32 ∧ g0.iflags = g.iflags) ∧
        u.ctb? h.cur.row h.cur.slot h.cur.col = some c ∧ c.edited = true
      let half (v old : DWord) (hi : Bool) : DWord := if hi then (v &&& 0xFFFFFFFF) <<< 32 ||| (old &&& 0xFFFFFFFF) else (v &&& 0xFFFFFFFF) ||| (old &&& ~~~0xFFFFFFFF)
      -- items that no `hwrite` may name, and uniform items of a solo hold
      (w.item = 6 ∨ w.item = 0xA ∨ w.item = 0xB ∨ w.item = 0xD ∨ w.item = 0xE ∨ (uniform ∧ t.wide = false) →
        exec (.hwrite src w) s = .next (s.raise h cIllegalOperand 0)) ∧
      -- per-lane items
      (w.item = 0 → ((g.vreg? ix).isNone = true → g.footprint + 1 ≤ limit) → h.lanes ≠ [] → (t.handled = true → ix ∉ (Opnd.src src false).frees) →
        ∃ u g1 c, exec (.hwrite src w) s = .next u ∧ u.faults = s.faults ∧ SameMem s u ∧ u.tgt? t = some g1 ∧ u.tgtRG t = some rg ∧
          g1.vreg? ix = some { name := ix, written := true, val := mkLanes (fun k => if k ∈ h.lanes then x k else g.vlane ix k) } ∧
          (∀ n, n ≠ ix → t.handled = false ∨ n ∉ (Opnd.src src false).frees → g1.vreg? n = g.vreg? n) ∧ g1.bare = g.bare ∧
          u.ctb? h.cur.row h.cur.slot h.cur.col = some c ∧ c.edited = true) ∧
      (w.item = 0 → (g.vreg? ix).isNone = true → limit < g.footprint + 1 → exec (.hwrite src w) s = .next (s.raise h cRegQuota (BitVec.ofNat 64 (g.footprint + 1)))) ∧
      (w.item = 0xC → h.lanes ≠ [] → writes (fun g => { g with ix := g.ix.modify ix (fun l =>
        mkLanes (fun k => if k ∈ h.lanes then (x k).setWidth 16 else l.getD k 0)) }) id) ∧
      -- group items: the value of the lowest active lane
      (∀ j l, h.lanes = j :: l → let v := (x j).setWidth 64
        (w.item = 3 → writes (fun g => match g.shadow with
          | none => { g with div := x j &&& g.present }
          | some sh => { g with shadow := some { sh with div := x j &&& g.present } }) id) ∧
        (w.item = 4 → writes (fun g => match g.shadow with
          | none => { g with prd := x j }
          | some sh => { g with shadow := some { sh with prd := x j } }) id) ∧
        (w.item = 5 → v.toNat % 64 < 32 → writes (fun g => if t.handled
          then { g with trap := { g.trap with lane := (g.trap.lane &&& 0xFFFFC0FF) ||| BitVec.ofNat 32 (256 * (v.toNat % 64)) } }
          else { g with cursor := v.toNat % 64 }) id) ∧
        (w.item = 5 → 32 < v.toNat % 64 → writes id id) ∧
        (w.item = 5 → v.toNat % 64 = 32 → t.handled = false → writes (fun g => { g with cursor := 33 }) id) ∧
        (w.item = 7 → writes (fun g => { g with m := g.m.set ix (x j &&& g.present) }) id) ∧
        (t.wide = true → h.reach.hold.isSome = true → ∀ hi, (w.item = (if hi then 2 else 1) → if t.handled
            then writes (fun g => { g with trap := { g.trap with res := half v g.trap.res hi &&& ~~~3 } }) id
            else writes id (fun rg => let p := half v rg.pc hi &&& ~~~3; { rg with pc := p, npc := p, head := false, tstep := false })) ∧
          (w.item = (if hi then 9 else 8) → writes id (fun rg => { rg with k := rg.k.set ix (half v (rg.k.getD ix 0) hi) })))) ∧
      (h.lanes = [] → ¬ (w.item = 6 ∨ w.item = 0xA ∨ w.item = 0xB ∨ w.item = 0xD ∨ w.item = 0xE ∨ (uniform ∧ t.wide = false)) →
        (w.item = 0 → (g.vreg? ix).isNone = true → g.footprint + 1 ≤ limit) → writes id id)) ∧
    (s.here = some h → h.cur.handler = false →
      (Runs s h [] (dstNames d false) → exec (.hread d w) s = .next (s.raise h cIllegalOperand 0)) ∧
      (Runs s h [.src src false] [] → exec (.hwrite src w) s = .next (s.raise h cIllegalOperand 0)) ∧
      (Runs s h [] (dstNames d false) → exec (.hstepLane d a) s = .next (s.raise h cIllegalOperand 0) ∧
        exec (.hstepCursor d a) s = .next (s.raise h cIllegalOperand 0))) ∧
    (Runs s h [] (dstNames d false) → h.cur.handler = true → ∀ i, (i = .hstepLane d a ∧ h.k a &&& ~~~0x1F1F = 0) ∨ (i = .hstepCursor d a ∧ h.k a &&& ~~~0x1F = 0) →
      let v := h.tgt ((h.k a).toNat % 32)
      s.tgtOk v = true → ∀ g rg, s.tgt? v = some g → s.tgtRG v = some rg →
        let cur := v.cursor g
        let lane := (h.k a).toNat / 256 % 32
        let found := g.snaps.find? (fun x => x.lane == lane && x.hold == v.serial)
        let gives1 (u : State) (w : Word) : Prop := Delivers s u h [] d false 1 (fun _ => w.setWidth 64) 0
        let next (j : Nat) : Nat := ((List.range 32).find? (fun k => decide (j ≤ k) && bit g.exchange.active k)).getD 32
        let told (u s2 : State) (w : Word) : Prop := ∃ h2, s2.here = some h2 ∧ Delivers s2 u h2 [] d false 1 (fun _ => w.setWidth 64) 0
        (i = .hstepLane d a → found = none → ∃ u, exec i s = .next u ∧ gives1 u (stepStatus 1 0 cur)) ∧
        (i = .hstepLane d a → ∀ sn c, found = some sn → s.stepFetch h.launch sn.pc = .error c →
          ∃ u, exec i s = .next u ∧ gives1 u (stepStatus 2 c cur)) ∧
        (i = .hstepLane d a → ∀ sn e p l, found = some sn → s.stepFetch h.launch sn.pc = .ok (e, p, l) →
          (steppable e = false → ∃ u, exec i s = .next u ∧ gives1 u (stepStatus 3 0 cur)) ∧
          (steppable e = true → ∃ u f s2 c, exec i s = .next u ∧ (s.modTgt v f).stepLane v p e l lane = (c, s2) ∧
            told u s2 (match c with
              | some c => stepStatus 2 c cur
              | none => stepStatus 0 0 cur) ∧
            let x := g.exchange
            let y := (f g).exchange
            (∀ k, k < 32 → bit y.div k = if k = lane then bit x.div k || sn.div else bit x.div k) ∧
            (∀ k, k < 32 → bit y.hlm k = (bit x.hlm k && k != lane)) ∧ y.snaps = x.snaps.filter (fun z => z.lane != lane) ∧
            { y with div := 0, hlm := 0, dstack := [], snaps := [] } = { x with div := 0, hlm := 0, dstack := [], snaps := [] })) ∧
        (i = .hstepCursor d a → ∀ e p l, s.stepFetch h.launch (v.pc g rg) = .ok (e, p, l) →
          (steppable e = false → ∃ u, exec i s = .next u ∧ gives1 u (stepStatus 3 0 cur)) ∧
          (steppable e = true → next cur = 32 → ∃ u, exec i s = .next u ∧ told u (s.modTgt v (v.setCursor 32)) (stepStatus 0 0 32)) ∧
          (steppable e = true → next cur < 32 → ∃ u s2 c, exec i s = .next u ∧ s.stepLane v p e l (next cur) = (c, s2) ∧
            told u (s2.modTgt v (v.setCursor (match c with
              | some _ => next cur
              | none => next (next cur + 1)))) (match c with
              | some c => stepStatus 2 c (next cur)
              | none => stepStatus 0 0 (next (next cur + 1)))))) ∧
    (∀ e, steppable e = true → stepExec e s = exec e s) ∧
    (∀ code cause cur, code < 256 → cause < 256 → cur ≤ 32 →
      (stepStatus code cause cur).toNat = code + 256 * cause + 65536 * cur + (if cur = 32 then 2 ^ 22 else 0)) ∧
    (s.here = some h →
      (∃ u, exec (.bcnArm a b bw) s = .next u ∧ queued (.arm bw.n.toNat bw (h.k a) (h.k b)) u) ∧
      (∃ u, exec (.bcnOff n) s = .next u ∧ queued (.off n.toNat) u) ∧
      ∃ u, exec (.emit k) s = .next u ∧ u.faults = s.faults ∧ u.mine h = some { h.grp with cursor := 32 } ∧ SameMem s u ∧
        (256 ≤ (s.core h.q).fifo.length → u.cores = s.cores) ∧
        ((s.core h.q).fifo.length < 256 → ∃ r, (u.core h.q).fifo = (s.core h.q).fifo ++ [r] ∧ r.length = 64 ∧
          r.take 8 = toBytes 8 h.planned ∧ (r.drop 24).take 8 = toBytes 8 ((match k with
            | .k m => h.k m
            | .imm x => x.setWidth 64).toNat % 2 ^ 32))) ∧
    (∀ (x : SysWrite) (m : BitVec 4), let u := s.perform x
      let on (f : DWord → DWord) : Core := { s.core x.q with bcnctl := (s.core x.q).bcnctl.modify m.toNat f }
      (∀ lo hi, x.act = .arm m.toNat bw lo hi → x.slot < 16 → SameMem s u ∧ u.faults = s.faults ∧ u.reaches = s.reaches ∧ u.regs = s.regs ∧
        u.core x.q = { on (fun o => BitVec.ofNat 64 (o.toNat / 2 ^ 25 % 32 * 2 ^ 25 + 2 ^ 31 + 2 ^ 19 + bw.count.toNat * 2 ^ 48 +
            x.slot * 2 ^ 20 + bw.action.toNat * 2 ^ 10 + bw.cmp.toNat * 2 ^ 7 + bw.kind.toNat * 2 ^ 5)) with
          bcnlo := (s.core x.q).bcnlo.set m.toNat lo, bcnhi := (s.core x.q).bcnhi.set m.toNat hi }) ∧
      (x.act = .off m.toNat → SameMem s u ∧ u.faults = s.faults ∧ u.reaches = s.reaches ∧ u.regs = s.regs ∧
        u.core x.q = on (fun o => o &&& 0xFFFFFFFF7FFFFFFF))) ∧
    (∀ q, (s.core q).fifo = [] → exec (.traceDrain q) s = .next s) ∧
    ∀ q r rest, (s.core q).fifo = r :: rest →
      let room : Prop := s.regs.trhead.toNat + 64 ≤ s.regs.trsize.toNat
      let pa := s.regs.trbase.toNat + s.regs.trhead.toNat
      let used := (s.devTaken.filter (fun e => e.1 == 0x400)).map (fun e => e.2)
      let lower : Prop := ∃ e ∈ s.agenda, e.tide ≤ s.time ∧ ∃ p, p < q ∧ e.task = .op (.traceDrain p)
      (¬ room → ∃ u, exec (.traceDrain q) s = .next u ∧ (u.core q).fifo = rest ∧ SameMem s u ∧
        u.regs = { s.regs with trloss := bump63 s.regs.trloss }) ∧
      ∀ T, room → s.tt = some T → FirstSlot T 0x400 (channelOf pa) s.time used s.time →
        (lower → ∃ u, exec (.traceDrain q) s = .next u ∧ u = { s with agenda := u.agenda } ∧ Due u s.time 0 (.traceDrain q)) ∧
        (¬ lower → ∃ u, exec (.traceDrain q) s = .next u ∧ (u.core q).fifo = rest ∧
          u.regs = { s.regs with trhead := s.regs.trhead + 64 } ∧ u.dram = wrN s.dram pa r ∧
          u.devTaken = (0x400, channelOf pa, s.time) :: s.devTaken)

/-! ### Launches and residency (03, 15 R403) -/

/-- 03 R88, R98, R99, R100, R101, R102, R104, R91, R124: a launch after its validation span is refused, late, or prepares; its fill and its
promise end preparation; it starts where its start condition holds, and is LATE or tries again where it does not; a cancelled
one fires at its declared start; an ended CTB is written back, and the launch completes with the status of its lowest
CTB that did not end normally. That a cancelled launch which runs already stops as well is notes/assumptions/31. -/
def Obligations.LaunchLifecycle : Prop :=
  (∀ (s : State) (id : Nat) (l : Launch), s.launch? id = some l →
    let now := workAfter l.issueTide 512
    let fresh : Prop := l.state ≠ .running ∧ l.state ≠ .draining ∧ l.state ≠ .done
    let filled := workAfter now (64 * l.record.nmap)
    let ev (tide cls : Nat) (i : Instr) : Event := { tide := max tide s.time, cls := cls, task := .op i }
    let becomes (i : Instr) (l' : Launch) (evs : List Event) : Prop := ∃ t, exec i s = .next t ∧
      t = { s with launches := t.launches, agenda := t.agenda } ∧ t.launch? id = some l' ∧
      (∀ n, n ≠ id → t.launch? n = s.launch? n) ∧ ∀ e, e ∈ t.agenda ↔ e ∈ s.agenda ∨ e ∈ evs
    let ends (i : Instr) (st tide : Nat) (fire : Bool) : Prop := ∃ t, exec i s = .next t ∧ Ended s t l st tide fire
    (l.state = .validating →
      (l.refused = true → ends (.validationSpanEnd id) l.status now false) ∧
      (l.refused = false → l.late = false → l.declared ≤ now →
        if l.cancelled then ends (.validationSpanEnd id) 3 l.declared true else ends (.validationSpanEnd id) 2 now true) ∧
      (l.refused = false → l.late = true ∨ now < l.declared → becomes (.validationSpanEnd id) { l with state := .preparing }
        (ev filled 0 (.translationFillDone id) :: (if l.late then [] else [ev l.declared 1 (.launchStart id)])))) ∧
    (l.state = .preparing →
      ((∀ e ∈ l.pre, e.zero = true) → becomes (.translationFillDone id) { l with trans := s.fillSet l.maps }
        [ev s.time 0 (.preparationPromiseMet id)]) ∧
      ∀ p, s.preloadWaits id = false → filled ≤ p → (∀ x ∈ s.preloadsOf id, x.promise ≤ p) →
        (p = filled ∨ ∃ x ∈ s.preloadsOf id, x.promise = p) →
        (s.time < p → l.promise ≠ some p →
          becomes (.preparationPromiseMet id) { l with promise := some p } [ev p 0 (.preparationPromiseMet id)]) ∧
        (p ≤ s.time → (∀ x ∈ s.preloadsOf id, x.landed = true) →
          becomes (.preparationPromiseMet id) { l with state := .ready, promise := some p }
            (if l.late then [ev (max l.declared (frameCeil s.time)) 1 (.launchStart id)]
             else if l.declared ≤ s.time then [ev s.time 1 (.launchStart id)] else []))) ∧
    (fresh →
      let met : Prop := l.late = true ∨ ∃ p, l.promise = some p ∧ p ≤ l.declared
      let ok : Prop := l.state = .ready ∧ s.depsMet l.record = true ∧ met
      let start := if l.late then s.time else l.declared
      let l1 : Launch := { l with state := .running, effective := some start, south := s.southWave l, starting := true }
      (l.cancelled = true → becomes (.launchStart id) l [] ∧ becomes (.launchLate id) l []) ∧
      (l.cancelled = false →
        (ok → l.record.blocks = 0 → ∃ t, exec (.launchStart id) s = .next t ∧
          Ended (s.modLaunch id (fun _ => l1)) t l1 0 start true) ∧
        (ok → l.record.blocks ≠ 0 → becomes (.launchStart id) l1 [ev s.time 1 .quantumBoundary]) ∧
        (¬ ok → l.late = true → becomes (.launchStart id) l
          (if l.state = .ready then [ev (frameCeil (s.time + 1)) 1 (.launchStart id)] else [])) ∧
        (¬ ok → l.late = false → (l.state = .preparing ∧ met → becomes (.launchStart id) l []) ∧
          (¬ (l.state = .preparing ∧ met) → becomes (.launchStart id) l [ev s.time 1 (.launchLate id)])) ∧
        ends (.launchLate id) 2 (max l.declared now) true) ∧
      (l.effective = none → (∀ r ∈ s.reaches, r.launch ≠ id) → ends (.cancelFire id) 3 l.declared true)) ∧
    (l.state ≠ .done → ∃ t l', exec (.cancelFire id) s = .next t ∧ t.launch? id = some l' ∧ l'.state = .done ∧ l'.status = 3 ∧
      ∀ r ∈ t.reaches, r.launch ≠ id) ∧
    (∀ lin row slot col c, s.placeOf id lin = some (row, slot, col) → s.ctb? row slot col = some c → lin ∈ l.wbLeft →
      c.ended ≠ none → (∀ g ∈ c.groups, g.ended = true) → s.linBusy id lin = false →
      ∃ t, exec (.writebackStart id lin) s = .next t ∧ t.faults = s.faults ∧
        t.launch? id = some { l with wbLeft := l.wbLeft.filter (fun n => n != lin) } ∧ Due t s.time 0 (.launchComplete id) ∧
        (l.wb = [] → t = { s with launches := t.launches, agenda := t.agenda }) ∧
        ∀ e, l.wb = [e] → l.backPieces e (coreIx row col) c.base c.blk c.stage 0 ≠ [] →
          ∃ x, x.kind = .writeback id c.lin 0 ∧ (x ∈ t.xfers ∨ ∃ ps, Request.mk x ps ∈ t.requests)) ∧
    (l.state = .running ∨ l.state = .draining → l.ends.length = l.record.numCtbs → l.wbLeft = [] → s.xfers = [] →
      s.requests = [] → s.staged = [] → (∀ r ∈ s.reaches, r.launch ≠ id) →
      ends (.launchComplete id) (finalStatus l.ends) l.doneTide true)) ∧
  (∀ es : List (Nat × CtbEnd), (∀ e ∈ es, e.2 = .ok) → finalStatus es = 0) ∧
  ∀ (es : List (Nat × CtbEnd)) (e : Nat × CtbEnd), e ∈ es → e.2 ≠ .ok → (∀ f ∈ es, f.2 ≠ .ok → f = e ∨ e.1 < f.1) →
    finalStatus es = match e.2 with
      | .ok => 0
      | .faulted => 0x0A
      | .restoreLost => 0x0B
      | .debugRevoked => 0x0C
      | .killed => 0x0D

/-- 03 R99, R102, R105, R111, 15 R403: a quantum boundary grants a free row to the launch that waits for it, as its start does at once,
and its next reaches enter its positions; a reach that the start does not place keeps no preload of preparation; a reach that leaves is saved, or stays where it is held; one that enters begins its visits, a new
one with the whole of its allocations written; a dump that has landed lets its launch complete. -/
def Obligations.Residency : Prop :=
  (∀ (s : State) (l : Launch) (row : Nat), s.time % s.quantum = 0 ∨ l.starting = true → (∀ e ∈ s.agenda, s.time < e.tide) → s.launches = [l] →
    l.state = .running → l.south = false → row < 16 → l.record.rowmask.toNat = 2 ^ row → l.unfinishedOn row = true →
    s.reaches = [] → s.rows.length = 16 → (∀ r ∈ s.rows, r.holder = none) →
    ∃ t, exec .quantumBoundary s = .next t ∧
      t = { s with rows := t.rows, reaches := t.reaches, agenda := t.agenda, xfers := t.xfers, launches := [{ l with starting := false }] } ∧
      t.rows[row]? = some { holder := some l.id, t0 := frameCeil s.time, wanted := none, skip := 0 } ∧
      (∀ x, x ∈ t.xfers ↔ x ∈ s.xfers ∧ ∀ lin e, x.kind = .preload l.id lin e → l.starting = true →
        ∃ r ∈ t.reaches, r.launch = l.id ∧ ∃ c ∈ r.ctbs, c.2.lin = lin) ∧
      (∀ k, k ≠ row → t.rows[k]? = s.rows[k]?) ∧
      ∀ slot j js, slot < 16 → l.unfinishedAt row slot = j :: js →
        { l.startReach j with entering := true } ∈ t.reaches ∧ Due t s.time 1 (.ctbRestore row slot)) ∧
  (∀ (s : State) (row slot : Nat) (r : Reach) (l : Launch), s.reach? row slot = some r → s.launch? r.launch = some l →
    r.leaving = true →
    ((∀ c ∈ r.liveCtbs, c.2.hdr = [] ∧ s.saveBusy l.id c.2.lin = false) →
      (∃ c ∈ r.liveCtbs, s.saving l.id c.2.lin 0 = true) →
      ∃ t r', exec (.ctbSave row slot) s = .next t ∧ r' ∈ t.reaches ∧ t.launches = s.launches ∧ t.faults = s.faults ∧ SameMem s t ∧
        { r' with entering := r.entering } = { r with resident := false, saved := true, leaving := false }) ∧
    ((∀ c ∈ r.liveCtbs, c.2.hdr = [] ∧ s.saving l.id c.2.lin 0 = false) → s.runLeft row slot = none → r.hold ≠ none →
      ∃ t, exec (.ctbSave row slot) s = .next t ∧ t = { s with rows := t.rows, reaches := t.reaches, agenda := t.agenda } ∧
        t.reach? row slot = some { r with leaving := false } ∧ ∀ x, t.rows[row]? = some x → x.wanted = none)) ∧
  (∀ (s : State) (r : Reach) (l : Launch), s.reaches = [r] → s.launch? r.launch = some l → r.entering = true →
    let n := s.nextFrame r l
    let r1 : Reach := { r with resident := true, visits := n, entering := false, saved := false, stalled := false, counted := true }
    let starts (t : State) (r' : Reach) : Prop := t.reach? r.row r.slot = some r' ∧ t.launches = s.launches ∧ t.dram = s.dram ∧
      t.faults = s.faults ∧ { tide := max s.time (s.indexTide r n 0), cls := 2, task := .visit r.row r.slot 0 } ∈ t.agenda
    (r.resident = true → (∀ c ∈ r.ctbs, s.gathersLeft l.id c.2.lin = []) →
      ∃ t, exec (.ctbRestore r.row r.slot) s = .next t ∧ starts t r1 ∧ t.cores = s.cores) ∧
    (r.resident = false → r.saved = false → l.pre = [] → s.xfers = [] → s.requests = [] → s.memsWf = true →
      ∃ t, exec (.ctbRestore r.row r.slot) s = .next t ∧ starts t { r1 with started := true } ∧
        ∀ c ∈ r.ctbs, ∀ a, c.2.base ≤ a → a < c.2.base + l.record.scrbytes →
          rd (t.core (coreIx r.row c.1)).scratch a = 0)) ∧
  ∀ (s : State) (row slot col : Nat) (r : Reach) (l : Launch) (c : Ctb), s.reach? row slot = some r → s.launch? r.launch = some l →
    s.ctb? row slot col = some c → c.lin ∈ l.wbLeft → c.ended ≠ none → c.hdr = [] → s.saving l.id c.lin 0 = true →
    s.saveBusy l.id c.lin = false →
    ∃ t, exec (.dump row slot col) s = .next t ∧ t = { s with launches := t.launches, agenda := t.agenda } ∧
      t.launch? l.id = some { l with wbLeft := l.wbLeft.filter (fun n => n != c.lin) } ∧ Due t s.time 0 (.launchComplete l.id)

/-! ### Engines, links and slack water (10, 13, 07 R219, 18 R452) -/

/-- 10 R287, R290, R297, R299, R302, R303, R307, R311, R459: a granule is read at its slot and lands, or is gathered and committed; a read that
fails is retried once in its frame, then the schedule has a fault and the retries go on frame by frame, until the granule is
given up; a gather goes on batch by batch; staged contributions are combined before their fire; a refused request of
the engine is offered again. A retry that waits for the next frame where its frame's retry slot is used is notes/assumptions/23.
Report kinds are the model's own, notes/assumptions/26. -/
def Obligations.TransferSteps : Prop :=
  (∀ (s : State) (n k : Nat) (x : Xfer) (g : Granule), s.xfer? n = some x → x.id = n → x.grans[k]? = some g →
    let gran (t : State) (f : Granule → Granule) : Prop := ∃ x', t.xfer? n = some x' ∧ x'.grans = x.grans.modify k f ∧
      x'.kind = x.kind ∧ x'.id = n
    let still (t : State) : Prop := SameMem s t ∧ t.faults = s.faults ∧ t.launches = s.launches ∧ t.regs = s.regs
    let key := (channelOf (64 * g.num), s.time / 8192)
    let data := s.dramBytes (64 * g.num) 64
    let landing := s.time + 96 + 48 * farFrom (x.q / 16) (channelOf (64 * g.num))
    -- a read at its slot, or at its retry
    (∀ i, (i = .dramSlotAccess n k ∧ x.kind.inbound = true) ∨ i = .dramRetry n k → s.dfresh = [] →
      (look s.phys.eccFail g.num = none → ∃ t, exec i s = .next t ∧ still t ∧ gran t (fun g => { g with data := data }) ∧
        Due t landing 0 (.granuleLanding n k)) ∧
      (∀ m, look s.phys.eccFail g.num = some (m + 1) → ∃ t, exec i s = .next t ∧ still t ∧ t.xfers = s.xfers ∧
        Due t (s.time + 40) 0 (.eccFailure n k))) ∧
    -- what a write carries
    (∀ bs : List Byte, (x.kind = .save ∧ bs = g.pieces.flatMap (·.old)) ∨
        (x.kind = .copyOut ∧ (∀ p ∈ g.pieces, (s.core p.core).fresh = [] ∧ (s.core p.core).errs = []) ∧
          bs = g.pieces.flatMap (fun p => (s.core p.core).bytes p.scr p.len)) →
      ∃ t, exec (.dramSlotAccess n k) s = .next t ∧ still t ∧ gran t (fun g => { g with data := bs }) ∧
        Due t (s.time + 24) 0 (.dramWriteCommit n k)) ∧
    -- a landing of an input transfer, and one that is kept for its CTB
    (∀ p, x.kind = .copyIn → g.pieces = [p] → 0 < p.len → p.scr % 64 + p.len ≤ 64 → (s.core p.core).errs = [] →
      s.xfers = [x] → (∀ y ∈ x.grans, y.done = false) → g.data.length = 64 → p.dram % 64 + p.len ≤ 64 →
      ∃ t, exec (.granuleLanding n k) s = .next t ∧ t.dram = s.dram ∧ t.faults = s.faults ∧ gran t (fun g => { g with done := true }) ∧
        (t.core p.core).scratch = wrN (s.core p.core).scratch p.scr ((g.data.drop (p.dram % 64)).take p.len) ∧
        ∀ q, q ≠ p.core → (t.core q).scratch = (s.core q).scratch) ∧
    (x.kind.kept = true → ∃ t, exec (.granuleLanding n k) s = .next t ∧ still t ∧ gran t (fun g => { g with done := true })) ∧
    -- a commit: bytes that a later transfer of the engine has written stay
    (∀ p, g.pieces = [p] → g.data.length = p.len → (p.comb = false ∧ (x.kind = .copyOut ∨ x.kind = .save)) →
      ∃ t, exec (.dramWriteCommit n k) s = .next t ∧ t.cores = s.cores ∧ t.faults = s.faults ∧ gran t (fun g => { g with done := true }) ∧
        ((∀ i, i < p.len → s.outdone x p.row (p.dram + i) false = false) → t.dram = wrN s.dram p.dram g.data) ∧
        ((∀ i, i < p.len → s.outdone x p.row (p.dram + i) false = true) → 0 < p.len → t.dram = s.dram)) ∧
    (∀ p op ty any, g.pieces = [p] → p.comb = true → p.len = 4 → g.data.length = 4 → x.kind = .red op ty any →
      ∃ t, exec (.dramWriteCommit n k) s = .next t ∧ t.cores = s.cores ∧ gran t (fun g => { g with done := true }) ∧
        t.dram = if s.outdone x p.row p.dram true then s.dram else
          wrN s.dram p.dram (toBytes 4 (redF op ty (BitVec.ofNat 32 (s.dramVal p.dram 4))
            (BitVec.ofNat 32 (ofBytes g.data))).toNat)) ∧
    -- a failed read
    (g.fails = 0 → key ∉ s.phys.retried → ∃ t, exec (.eccFailure n k) s = .next t ∧ still t ∧
      gran t (fun g => { g with fails := 1 }) ∧ t.phys = { s.phys with retried := key :: s.phys.retried } ∧
      Due t (max (8192 * (s.time / 8192) + 8000 + slotPhase (channelOf (64 * g.num))) s.time) 0 (.dramRetry n k)) ∧
    (g.fails ≠ 0 ∨ key ∈ s.phys.retried → ∃ t, exec (.eccFailure n k) s = .next t ∧ still t ∧
      gran t (fun g => { g with fails := 2 }) ∧ t.phys = s.phys ∧ Due t s.time 0 (.scheduleFault 1)) ∧
    -- the retries in the following frames, one of a pseudo-channel in a frame: the promise is revised as the frame begins
    (let slot := 8192 * (s.time / 8192) + 8000 + slotPhase (channelOf (64 * g.num))
     let readable (x' : Xfer) : Prop := x'.unreadable = x'.grans.any (fun g => decide (10 ≤ g.fails) && !g.done)
     let next := 8192 * (s.time / 8192) + 8192
     let nl := s.retryLand x g.num
     let here := slot + 96 + 48 * farFrom (x.q / 16) (channelOf (64 * g.num))
     (x.preg = none ∨ s.issuerOf x = none → nl = here) ∧
     (∀ r l, x.preg ≠ none → s.issuerOf x = some (r, l) → r.resident = true → s.plannedOf r l s.time % 8192 = 0 →
       s.plannedOf r l (s.time + 8192) = s.plannedOf r l s.time + 8192 → nl = s.plannedOf r l s.time + (here - s.time)) ∧
     (s.time % 8192 = 0 → ∃ t x', exec (.granuleRetryFrame n k) s = .next t ∧ still t ∧ gran t (fun g => { g with land := nl }) ∧
       t.phys = s.phys ∧ t.xfer? n = some x' ∧ x'.promise = max x.promise nl ∧ x'.passed = (if x.promise < nl then x.promise else x.passed) ∧
       Due t slot 0 (.granuleRetryFrame n k) ∧
       ∀ row sl col r c g0 pr, s.reach? row sl = some r → r.launch = x.launch → s.ctb? row sl col = some c → c.lin = x.lin →
         c.group? x.grp = some g0 → x.preg = some pr → pr < g0.p.length → g0.pTrack.getD pr none = some n →
         ∃ g', t.grpAt row sl col x.grp = some g' ∧ g'.p.getD pr 0 = BitVec.ofNat 64 x'.promise) ∧
     (0 < s.time % 8192 → key ∈ s.phys.retried → ∃ t, exec (.granuleRetryFrame n k) s = .next t ∧ t = { s with agenda := t.agenda } ∧
       Due t next 0 (.granuleRetryFrame n k)) ∧
     (0 < s.time % 8192 → key ∉ s.phys.retried → look s.phys.eccFail g.num = none → s.dfresh = [] →
       ∃ t x', exec (.granuleRetryFrame n k) s = .next t ∧
       still t ∧ gran t (fun g => { g with data := data, fails := 0 }) ∧ t.phys.retried = key :: s.phys.retried ∧
       t.xfer? n = some x' ∧ readable x' ∧ Due t landing 0 (.granuleLanding n k)) ∧
     (∀ m, 0 < s.time % 8192 → key ∉ s.phys.retried → look s.phys.eccFail g.num = some (m + 1) → g.fails < 17 →
       ∃ t x', exec (.granuleRetryFrame n k) s = .next t ∧
       still t ∧ gran t (fun g => { g with fails := g.fails + 1 }) ∧ t.phys.retried = key :: s.phys.retried ∧
       t.xfer? n = some x' ∧ x'.unreadable = x.unreadable ∧ x'.promise = x.promise ∧ Due t next 0 (.granuleRetryFrame n k)) ∧
     ∀ m, 0 < s.time % 8192 → key ∉ s.phys.retried → look s.phys.eccFail g.num = some (m + 1) → 17 ≤ g.fails →
       ∃ t x', exec (.granuleRetryFrame n k) s = .next t ∧
       t.xfer? n = some x' ∧ x'.lost = true ∧ readable x' ∧ (∀ y, x'.grans[k]? = some y → y.done = true) ∧
       t.dram = s.dram ∧ .report 0x307 (channelOf (64 * g.num)) 0 ∈ t.out)) ∧
  (∀ (s : State) (n : Nat) (x : Xfer) (r : Reach) (c : Nat × Ctb), s.xfer? n = some x → x.id = n → r ∈ s.reaches →
    r.launch = x.launch → c ∈ r.ctbs → c.2.lin = x.lin → ∃ t x', exec (.gatherBatch n) s = .next t ∧ t.dram = s.dram ∧
      t.xfer? n = some x' ∧ x'.batch = x.batch + 1 ∧ x.grans <+: x'.grans ∧
      (32 * (x.batch + 1) < x.idx.n.toNat → ∃ tide, s.time ≤ tide ∧ Due t tide 0 (.gatherBatch n))) ∧
  (∀ (s : State) (f : Fire), s.fires.find? (fun x => x.id == f.id) = some f →
    (f.xids ≠ [] → (∀ e ∈ s.staged, e.xid ∈ f.xids → e.landed = true) →
      (s.combineEnd f.comb f.ends = none → ∃ t, exec (.stagedCombine f.id) s = .next t ∧ t = { s with agenda := t.agenda } ∧
        Due t (frameCeil (s.time + 1)) 0 (.stagedCombine f.id)) ∧
      ∀ e u, s.combineEnd f.comb f.ends = some (e, u) → ∃ t, exec (.stagedCombine f.id) s = .next t ∧
        t = { s with agenda := t.agenda, fires := t.fires, devTaken := u.devTaken } ∧
        t.fires.find? (fun x => x.id == f.id) = some { f with xids := [] } ∧ Due t (max e s.time) 0 (.stagedCombine f.id)) ∧
    (f.xids ≠ [] → (∃ e ∈ s.staged, e.xid ∈ f.xids ∧ e.landed = false) → exec (.stagedCombine f.id) s = .next s) ∧
    ∀ e va pa sp, f.xids = [] → f.launch = none → s.staged = [e] → e.elts = [(va, pa, sp)] → e.takes f.comb none (va, pa, sp) = true →
      ∃ t, exec (.stagedCombine f.id) s = .next t ∧ t.cores = s.cores ∧ t.faults = s.faults ∧
        t.staged = [{ e with elts := [], spent := e.spent ++ [(f.planned, 1)] }] ∧
        t.fires = s.fires.filter (fun x => x.id != f.id) ∧ (∀ n, t.obj n = if n = f.obj then s.obj n + 1 else s.obj n) ∧
        t.dram = wrN s.dram pa (toBytes 4 (redF e.op e.ty (BitVec.ofNat 32 (s.dramVal pa 4)) (BitVec.ofNat 32 (s.dramVal sp 4))).toNat)) ∧
  ∀ (s : State) (r : Request), s.requests = [r] →
    -- its promise is from the frame of its acceptance, and one event repeats the requests of a core
    let x : Xfer := { r.x with planned := s.time, tide := s.time + 32 }
    ∃ t, exec (.engineRequestRetry r.x.q) s = .next t ∧ SameMem s t ∧ t.faults = s.faults ∧
    match ({ s with requests := [] } : State).offerOwn x r.pieces with
    | .ok _ => t.requests = [] ∧ ∃ y ∈ t.xfers, y.id = r.x.id ∧ y.kind = r.x.kind
    | .error _ => t.requests = [{ r with x := x }] ∧ t.xfers = s.xfers ∧ Due t (frameCeil (s.time + 1)) 0 (.engineRequestRetry r.x.q)

/-- 07 R219, 10 R283, R285, R288, R292, R305, R306, 13 R376, 15 R415, 18 R452: a bank is marked once in its group, and a second one
is reported; idle slots are counted; suppressed beats and corrections raise the deficit of their regions, and slack water
spends it; a schedule fault begins a resynchronisation, after which every deficit is zero; an armed table is validated in the
guard tides and adopted at its epoch; a device or a link outside the guard is marked.
That the values of the frame are sent again at skewGuard is notes/assumptions/24, the free Δ of a pod notes/assumptions/12, contents under
REFEN 0 notes/assumptions/9, what is corrected of an offset notes/assumptions/32, and report kinds are the model's own, notes/assumptions/26. -/
def Obligations.SlackSteps : Prop :=
  ∀ (s : State),
    let rows : List Nat := List.range 9 ++ (List.range 9).map (· + 11)
    let deficit (t : State) (n : Nat) : Nat := (t.regs.defstat.getD n 0).toNat % 65536
    let peak (t : State) (n : Nat) : Nat := (t.regs.defstat.getD n 0).toNat / 65536
    let gone := s.time % 8192 - 7936
    -- region n of t has the deficit d, of which slack water has spent what is gone
    let raised (t : State) (n d : Nat) : Prop := deficit t n = min 65535 d ∧ peak t n = max (peak s n) (min 65535 d - gone)
    let resynced (r : Reach) : Prop := ∀ g ∈ r.rgs, ∀ w, g.wait = some w → w.resynced = true
    let readable : Prop := ∀ x ∈ s.xfers, ∀ g ∈ x.grans, g.fails < 2
    let leaves (r : Reach) : Prop := r ∈ s.reaches ∧ r.resident = true ∧ r.leaving = true
    let zeros : List Byte := List.replicate 256 0
    (∀ q g b, g < 32 → b < 10 → ∃ t, exec (.bankMarkFailed q g b) s = .next t ∧ t = { s with cores := t.cores, out := t.out } ∧
      (∀ p, p ≠ q → t.core p = s.core p) ∧ { t.core q with bankmap := 0 } = { s.core q with bankmap := 0 } ∧
      (∀ n, n < 32 → (t.core q).mark n = if n = g ∧ (s.core q).mark g = 15 then b else (s.core q).mark n) ∧
      t.out = if (s.core q).mark g = 15 ∨ (s.core q).mark g = b then s.out else s.out ++ [.report 0x219 q g]) ∧
    (∀ q n, ∃ t, exec (.idleIssueSlot q n) s = .next t ∧ t = { s with cores := t.cores } ∧ (∀ p, p ≠ q → t.core p = s.core p) ∧
      (let c := s.core q
       let sum := c.survey.idle.toNat % 0x8000000000000000 + n
       if c.survey.ctl.getLsbD 6 then ∃ w, t.core q = { c with survey := { c.survey with idle := w } } ∧
         w.toNat % 0x8000000000000000 = sum % 0x8000000000000000 ∧ w.getLsbD 63 = (c.survey.idle.getLsbD 63 || decide (0x8000000000000000 ≤ sum))
       else t.core q = c)) ∧
    (∀ n b, n ∉ rows → exec (.droopSuppress n b) s = .next s) ∧
    (∀ n b, n ∈ rows → s.regs.defstat.length = 22 → ∃ t, exec (.droopSuppress n b) s = .next t ∧
      t = { s with regs := { s.regs with defstat := t.regs.defstat }, phys := { s.phys with drooped := t.phys.drooped } } ∧
      ∀ m, m < 22 →
        -- one edge in eight of the tides from the region's next edge on, in this frame or in its slack water
        let edge := max ((look s.phys.drooped m).getD 0) (if 7936 ≤ s.time % 8192 then s.time - gone else s.time - s.time % 8192)
        let e := min b ((s.time + 8 - edge) / 8)
        if m ∈ s.droopWith n then raised t m (deficit s m + e) ∧ look t.phys.drooped m = some (edge + 8 * e)
        else t.regs.defstat.getD m 0 = s.regs.defstat.getD m 0 ∧ look t.phys.drooped m = look s.phys.drooped m) ∧
    (∀ c, c < 256 → ∃ t, exec (.scheduleFault c) s = .next t ∧ SameMem s t ∧ t.out = s.out ++ [.report 0x305 c 0] ∧
      t.regs = { s.regs with rsyncstat := t.regs.rsyncstat } ∧
      t.regs.rsyncstat.toNat = s.regs.rsyncstat.toNat / 0x100000000 * 0x100000000 + c * 0x1000000 + s.regs.rsyncstat.toNat % 0x1000000 ∧
      (s.freeze ≠ none → t = { s with regs := t.regs, out := t.out }) ∧
      (s.freeze = none → t.freeze = some { tf := s.time, cause := c, delta := 2 } ∧ Due t s.time 0 .resynchronisation ∧
        t = { s with freeze := t.freeze, regs := t.regs, out := t.out, agenda := t.agenda, xfers := t.xfers, requests := t.requests
                     reaches := t.reaches, cores := t.cores } ∧
        ((∀ r, ¬ leaves r) → t.xfers = s.xfers ∧ t.requests = s.requests ∧ t.reaches = s.reaches ∧ t.cores = s.cores) ∧
        ∀ r, leaves r → ∀ x ∈ t.xfers, x.kind = .save → x.launch = r.launch → ∀ c ∈ r.ctbs, c.2.ended = none → x.lin ≠ c.2.lin)) ∧
    (s.freeze = none → exec .resynchronisation s = .next s ∧ exec .resyncResume s = .next s) ∧
    (∀ f, s.freeze = some f →
      let d := if s.part?.isSome then max 2 (Config.podDelta s.free) else 2
      let r := s.regs.rsyncstat.toNat
      ∃ t, exec .resynchronisation s = .next t ∧ SameMem s t ∧ t.freeze = some { f with delta := d } ∧
        t.regs = { s.regs with rsyncstat := t.regs.rsyncstat, cntwrap := t.regs.cntwrap } ∧
        t.regs.rsyncstat.toNat =
          (r / 0x100000000 + d) % 0x100000000 * 0x100000000 + r / 0x1000000 % 256 * 0x1000000 + d % 256 * 0x10000 + (r % 0x10000 + 1) % 0x10000 ∧
        (r % 0x10000 + 1 < 0x10000 → t.regs.cntwrap = s.regs.cntwrap) ∧ Due t s.time 1 .resyncResume ∧
        -- accesses whose slots came before the fault complete while schedule tides stand still
        (∀ e ∈ s.agenda, (∃ n k, e.task = .op (.granuleLanding n k) ∨ e.task = .op (.dramWriteCommit n k) ∨ e.task = .op (.eccFailure n k)) →
          { tide := s.time, cls := 0, task := e.task } ∈ t.agenda) ∧
        (readable → t = { s with freeze := t.freeze, regs := t.regs, free := s.free + 1, agenda := t.agenda, bumped := t.bumped })) ∧
    (s.freeze ≠ none → ∃ t, exec .resyncResume s = .next t ∧ SameMem s t ∧ t.freeze = none ∧
      t.regs = { s.regs with defstat := t.regs.defstat } ∧ (∀ n, deficit t n = 0 ∧ peak t n = peak s n) ∧
      (∀ r ∈ t.reaches, resynced r) ∧
      (readable → (∀ r, ¬ leaves r) → t = { s with freeze := none, regs := t.regs, reaches := t.reaches })) ∧
    ((∀ w, s.ttNext ≠ some (s.time, w)) → exec .tideTableAdopt s = .next s) ∧
    (∀ e w, s.ttNext = some (e, w) → e = s.time → ∃ t, exec .tideTableAdopt s = .next t ∧ t = { s with ttNext := none, tt := t.tt, regs := t.regs, phys := t.phys } ∧
      t.regs = { s.regs with ttstat := t.regs.ttstat } ∧
      -- channels that are retired are so from the adoption on
      (s.ttErr e w = 0 → t.regs.ttstat = 2 ∧ t.phys = { s.phys with retired := t.phys.retired, retiring := [] } ∧
        (∀ n, n ∈ t.phys.retired ↔ n ∈ s.phys.retired ∨ n ∈ s.phys.retiring) ∧ ∃ T, t.tt = some T ∧ T.epoch = e / 8192 ∧ T.image = s.imageOf ∧ T.ntmpl = rdVal s.imageOf 0 8 ∧
        T.tmpl = rdVal s.imageOf 8 8 ∧ T.link = rdVal s.imageOf 16 8) ∧
      (s.ttErr e w ≠ 0 → t.tt = s.tt ∧ t.phys = s.phys ∧ t.regs.ttstat = BitVec.ofNat 32 (4 * s.ttErr e w))) ∧
    -- the offset is recorded; one outside the guard is not corrected, and a correction waits for the window of offsets 7,936 to 7,999
    (∀ o : Int, s.regs.defstat.length = 22 → ∃ t, exec (.tideCorrection o) s = .next t ∧
      let off := s.time % 8192
      let old := s.regs.tidesync.toNat % 256
      let stat (corr : Nat) : Prop := t.regs.tidesync.toNat = 0x80000000 + 256 * (max (-32767) (min 32767 o) % 65536).toNat + corr % 256
      (64 < o.natAbs → t = { s with regs := { s.regs with tidesync := t.regs.tidesync }, agenda := t.agenda } ∧ stat old ∧ Due t s.time 0 (.skewGuard none)) ∧
      (o.natAbs ≤ 64 → ¬ (7936 ≤ off ∧ off < 8000) → t = { s with regs := { s.regs with tidesync := t.regs.tidesync }, agenda := t.agenda } ∧ stat old ∧
        Due t ((if off < 7936 then 8192 * (s.time / 8192) else 8192 * (s.time / 8192) + 8192) + 7936) 0 (.tideCorrection o)) ∧
      (o.natAbs ≤ 64 → 7936 ≤ off → off < 8000 →
        let used := if s.phys.adjusted.1 = s.time / 8192 then s.phys.adjusted.2 else 0
        let n := if o < 0 then min (min o.natAbs (8 - used)) (8000 - off) else min o.natAbs (8 - used)
        t = { s with regs := t.regs, phys := { s.phys with adjusted := (s.time / 8192, used + n) }, time := t.time } ∧ stat (old + n) ∧
        t.regs = { s.regs with tidesync := t.regs.tidesync, defstat := t.regs.defstat } ∧
        t.time = (if o < 0 then s.time + n else s.time) ∧
        (∀ m ∈ rows, o < 0 → raised t m (max gone (deficit s m) + n)) ∧
        (∀ m ∈ rows, 0 ≤ o → deficit t m = deficit s m - n ∧ peak t m = peak s m) ∧
        (∀ m, m ∉ rows → t.regs.defstat.getD m 0 = s.regs.defstat.getD m 0))) ∧
    (s.regs.lnkstat.length = 16 → ∃ t, exec (.skewGuard none) s = .next t ∧
      t = { s with regs := { s.regs with lnkstat := s.regs.lnkstat.map (fun w => w ||| 0x80) }
                   out := s.out ++ (List.range 16).map (fun l => .flit l 0 zeros 0x60), links := t.links, agenda := t.agenda } ∧
      -- what the links have sent in this frame is sent again
      (∀ l k, s.links[l]? = some k → ∃ k', t.links[l]? = some k' ∧ { k' with sent := [] } = { k with sent := [] } ∧
        ∀ v, v ∈ k'.sent ↔ v ∈ k.sent ∧
          ∀ m, m < 16 → ∀ j, s.links[m]? = some j → ∀ f ∈ j.lastOut, f.frame = s.time / 8192 → f.origin = l → f.what ≠ some v) ∧
      Due t s.time 0 (.scheduleFault 4)) ∧
    (∀ l, ∃ t, exec (.skewGuard (some l)) s = .next t ∧
      t = { s with regs := { s.regs with lnkstat := s.regs.lnkstat.modify l (fun w => w ||| 0x100) }
                   links := s.links.modify l (fun k => { k with drop := true }), agenda := t.agenda } ∧
      Due t s.time 0 (.scheduleFault 4)) ∧
    -- the first tide of a frame
    (s.time % 8192 = 0 → ∃ t, exec .slackWater s = .next t ∧
      t = { s with regs := { s.regs with defstat := t.regs.defstat }, links := t.links, colls := t.colls, agenda := t.agenda } ∧
      (∀ n, deficit t n = deficit s n - 256 ∧ peak t n = peak s n) ∧ Due t (s.time + 7936) 0 .slackWater ∧
      ((∃ n, 256 < deficit s n) → Due t s.time 0 (.scheduleFault 2)) ∧
      t.colls.map (fun c => { c with rounds := [] }) = s.colls.map (fun c => { c with rounds := [] })) ∧
    -- slack water
    (0 < s.time % 8192 → s.time % 8192 < 8180 → ∃ t, exec .slackWater s = .next t ∧ t.regs = s.regs ∧ t.reaches = s.reaches ∧
      Due t (s.time / 8192 * 8192 + 8180) 0 .slackWater ∧
      (s.regs.slackcfg.getLsbD 16 = true → t.dram = s.dram ∧ t.scrambled = s.scrambled ∧ t.host = s.host) ∧
      (s.regs.slackcfg.getLsbD 16 = false → t.dram = [] ∧ t.scrambled = [(0, dramSize)]) ∧
      ∀ q c, s.cores = [(q, c)] → c.survey.ctl.getLsbD 6 = true →
        Due t s.time 0 (.idleIssueSlot q (32 * (workBeats s.time - workBeats c.survey.since) - c.survey.busy))) ∧
    -- the guard tides
    (8180 ≤ s.time % 8192 → ∃ t, exec .slackWater s = .next t ∧ Due t (s.time / 8192 * 8192 + 8192) 0 .slackWater ∧
      t = { s with ttNext := t.ttNext, regs := t.regs, agenda := t.agenda } ∧
      (s.ttNext = none → t = { s with agenda := t.agenda }) ∧
      ∀ e w, s.ttNext = some (e, w) →
        (s.ttErr e w = 0 → t = { s with agenda := t.agenda } ∧ ∃ v ∈ t.agenda, v.task = .op .tideTableAdopt ∧ e ≤ v.tide) ∧
        (s.ttErr e w ≠ 0 → t.ttNext = none ∧ t.regs = { s.regs with ttstat := BitVec.ofNat 32 (4 * s.ttErr e w) }))

/-- 13 R362, R363, R367, R369, R370, R371, R372, R374, R375, R376, 07 R230: a slot with a word sends its value or an idle flit; a
flit that fails its CRC is counted and reported, and 16 in a row take the link down; a flit reported uncorrectable is resent in
its frame; a value that arrives goes to its round, unless ACCTL refuses it; a marker that is late ends the frame of its link; a
member counts contributions, forms and combines its node in the canonical order, and the result is committed; arming starts a
descriptor afresh, and breaking marks it.
That the values of a frame are sent again after a flagged flit, and that a commit through master 18 is refused, is notes/assumptions/24;
report kinds are the model's own, notes/assumptions/26. -/
def Obligations.PodLinks : Prop :=
  (∀ (s : State) (l slot : Nat) (k : Link), s.links[l]? = some k →
    let lnk := s.regs.lnkstat.getD l 0
    let down := lnk.getLsbD 5
    let o := (s.wordOf false l slot s.time).1
    let w := (s.wordOf false l slot s.time).2
    let mark : BitVec 8 := if slot = 0 then 0x40 else 0
    let flit (bs : List Byte) (f : BitVec 8) (v : Option Sent) : OutFlit :=
      { frame := s.time / 8192, slot := slot, origin := o, payload := bs, flags := f, what := v }
    let keep (e : OutFlit) (k : Link) : Link := { k with lastOut := k.lastOut ++ [e] }
    let zeros : List Byte := List.replicate 256 0
    let k1 : Link := if slot = 0 then { k with drop := false, failed := [] } else k
    let late (f : BitVec 8) : Prop := f.getLsbD 6 = true ∧ 64 < (s.markerOff l).natAbs
    let count (t : State) (b : Nat) : Nat := (t.regs.lnkstat.getD l 0).toNat / 2 ^ b % 2 ^ 16
    -- sending
    (down = true ∨ s.silent = true → exec (.flitSend l slot) s = .next s) ∧
    (down = false → s.silent = false → slot < 3527 →
      (lwKind w = 0 ∨ s.valueOf o w = none → exec (.flitSend l slot) s =
        .next { s with out := s.out ++ [.flit l slot zeros mark], links := s.links.modify l (keep (flit zeros 0 none)) }) ∧
      (∀ r bs f, lwKind w ≠ 0 → s.valueOf o w = some (r, bs, f) →
        let v : Sent := { kind := lwKind w, rdx := lwRdx w, chunk := lwChunk w, r := r }
        ∃ t, exec (.flitSend l slot) s = .next t ∧
          t = { s with out := s.out ++ [.flit l slot bs (f ||| mark)], devTaken := t.devTaken
                       links := (s.links.modify o (fun k => { k with sent := k.sent ++ [v] })).modify l (keep (flit bs f (some v))) })) ∧
    (∀ e, down = false → s.silent = false → 3527 ≤ slot → k.resend.find? (fun e => e.1 == slot) = some e →
      exec (.flitSend l slot) s = .next { s with
        out := s.out ++ [.flit l slot e.2.payload e.2.flags]
        links := s.links.modify l (keep { e.2 with frame := s.time / 8192, slot := slot }) }) ∧
    -- receiving
    (∀ bs f ok, down = true → exec (.flitReceive l slot bs f ok) s = .next s) ∧
    (∀ bs f ok, down = false → k1.drop = true → ∃ t, exec (.flitReceive l slot bs f ok) s = .next t ∧
      t = { s with regs := t.regs, bumped := t.bumped } ∧ (l < s.regs.lnkstat.length → count t 48 = (count s 48 + 1) % 2 ^ 16)) ∧
    (∀ bs f, down = false → k1.drop = false → ∃ t, exec (.flitReceive l slot bs f false) s = .next t ∧
      t = { s with regs := t.regs, links := t.links, out := s.out ++ [.report 0x374 l slot], agenda := t.agenda, bumped := t.bumped } ∧
      (slot < 3527 → t.links[l]? = some { k1 with bad := k.bad + 1, failed := k1.failed ++ [(s.sentFrame l slot, slot)] }) ∧
      (∀ e rest, 3527 ≤ slot → s.servedBy l = [l] → k.failed = e :: rest →
        t.links[l]? = some { k with bad := k.bad + 1, failed := rest ++ [e] }) ∧
      (l < s.regs.lnkstat.length → count t 32 = (count s 32 + 1) % 2 ^ 16) ∧
      (16 ≤ k.bad + 1 → Due t s.time 0 (.linkDown l)) ∧ (k.bad + 1 < 16 → t.agenda = s.agenda)) ∧
    (∀ bs f, down = false → k1.drop = false → ¬ late f → f.getLsbD 5 = false → f.getLsbD 0 = false → slot < 3527 →
      exec (.flitReceive l slot bs f true) s =
        .next { s with links := s.links.set l { k1 with bad := 0, marker := k.marker || f.getLsbD 6, drop := false } }) ∧
    (∀ bs f, down = false → k1.drop = false → late f → ∃ t, exec (.flitReceive l slot bs f true) s = .next t ∧
      t = { s with regs := t.regs, agenda := t.agenda, bumped := t.bumped, links := s.links.set l { k1 with bad := 0, marker := true, drop := true } } ∧
      (l < s.regs.lnkstat.length → (t.regs.lnkstat.getD l 0).getLsbD 8 = true ∧ count t 48 = (count s 48 + 1) % 2 ^ 16) ∧
      Due t s.time 0 (.scheduleFault 4)) ∧
    (∀ bs f, down = false → k1.drop = false → ¬ late f → f.getLsbD 5 = true → f.getLsbD 0 = false → slot < 3527 →
      ∃ t, exec (.flitReceive l slot bs f true) s = .next t ∧
        t = { s with regs := { s.regs with lnkstat := s.regs.lnkstat.modify l (fun w => w ||| 0x100) }, links := t.links } ∧
        ∃ k', t.links[l]? = some k' ∧ k'.bad = 0 ∧ ∀ e ∈ k.lastOut, e.frame = s.time / 8192 → e.origin = l → ∀ v, e.what = some v → v ∉ k'.sent) ∧
    (∀ bs f c, let p := (s.wordOf true l slot (8192 * s.sentFrame l slot)).1
      let v := (s.wordOf true l slot (8192 * s.sentFrame l slot)).2
      let r := if c.openR % 2 = (if f.getLsbD 1 then 1 else 0) then c.openR else c.openR + 1
      let allowed := ∀ i, i < 4 → s.acctlW (stackOf (64 * ((c.desc.respa + 4 * c.desc.elems * (r % 2) + 256 * lwChunk v) / 64 + i))) 18 = true
      down = false → k1.drop = false → ¬ late f → f.getLsbD 0 = true → f.getLsbD 5 = false → slot < 3527 →
      lwKind v = 2 → s.coll? (lwRdx v) = some c → c.broken = false → c.armed = true →
      (allowed → ∃ t c' x y, exec (.flitReceive l slot bs f true) s = .next t ∧ SameMem s t ∧ t.coll? (lwRdx v) = some c' ∧ x ∈ c'.rounds ∧ x.r = r ∧
        x.node? .result 0 c.desc.nmem (lwChunk v) = some y ∧ Due t (s.time + 64) 0 (.resultCommit (lwRdx v) (lwChunk v)) ∧
        ((∀ z ∈ c.rounds, z.r ≠ r) → y.vals = (List.range 64).map (fun i => ((fieldOf bs (4 * i) 4 : Nat) : Int)))) ∧
      (¬ allowed → exec (.flitReceive l slot bs f true) s = .next { s with
        links := s.links.set l { k1 with bad := 0, marker := k.marker || f.getLsbD 6, drop := false }
        out := s.out ++ [.report 0x230 (lwRdx v) p] })) ∧
    -- a link that goes down
    (down = false → l < s.regs.lnkstat.length → ∃ t, exec (.linkDown l) s = .next t ∧ t.out = s.out ++ [.report 0x375 l 0] ∧
      t = { s with regs := t.regs, links := t.links, out := t.out, agenda := t.agenda } ∧ (t.regs.lnkstat.getD l 0).getLsbD 5 = true ∧
      (s.part? = none → t.regs.lnkstat = s.regs.lnkstat.modify l (fun w => w ||| 0x20) ∧ t.links = s.links ∧ t.agenda = s.agenda) ∧
      ∀ T p, s.part? = some (T, p) →
        let e := rerouteOf T.image p l
        let b := e.toNat % 16
        e.getLsbD 4 = true → b ≠ l → (t.regs.lnkstat.getD l 0).toNat % 16 = b ∧ (t.regs.lnkstat.getD l 0).getLsbD 6 = true ∧
          (k.missed < 2 → t.links = s.links.modify l (fun k => { k with rerouteAt := some (s.time / 8192 + 1) }) ∧ t.agenda = s.agenda) ∧
          ∀ f kb, 2 ≤ k.missed → k.lastOut = [f] → f.what ≠ none → s.links[b]? = some kb → kb.resend = [] → s.time % 8192 ≤ 7936 →
            t.links[l]? = some { k with rerouteAt := some (s.time / 8192 + 1) } ∧
            t.links[b]? = some { kb with resend := [(3527, f)] } ∧ Due t (s.time / 8192 * 8192 + 7936) 0 (.flitSend b 3527)) ∧
    (down = true → exec (.linkDown l) s = .next s) ∧
    -- a flit to be resent
    (∀ e d kd, k.lastOut.reverse.find? (fun e => e.slot == slot) = some e → d = (if lnk.getLsbD 6 then lnk.toNat % 16 else l) →
      s.links[d]? = some kd →
      let tide (j : Nat) : Nat := 8192 * e.frame + 7936 + 9 * j / 4
      let fit (j : Nat) : Prop := 8192 * e.frame + flitOff slot + 2 * (Config.linkLat l).toNat + 32 ≤ tide j ∧ s.time ≤ tide j ∧
        ∀ x ∈ kd.resend, x.1 ≠ 3527 + j
      (∀ j, j < 28 → fit j → (∀ m, m < j → ¬ fit m) → ∃ t, exec (.flitResend l slot) s = .next t ∧
        t = { s with agenda := t.agenda, links := s.links.modify d (fun k => { k with resend := k.resend ++ [(3527 + j, e)] }) } ∧
        Due t (tide j) 0 (.flitSend d (3527 + j))) ∧
      ((∀ m, m < 28 → ¬ fit m) → ∃ t, exec (.flitResend l slot) s = .next t ∧ t = { s with links := t.links, agenda := t.agenda } ∧
        Due t (max (8192 * e.frame + 7999) s.time) 0 (.scheduleFault 3)))) ∧
  (∀ (s : State) (rdx chunk : Nat) (c : Coll) (x : Round), s.coll? rdx = some c → c.rounds = [x] →
    let d := c.desc
    let own := (List.range 64).map (fun i => (memberVal d (x.leaves (64 * chunk + i))).1)
    let forms (hi : Nat) (vals : List Int) : Prop := ∃ t x' v, exec (.collectiveCombine rdx chunk) s = .next t ∧
      t = { s with colls := t.colls, agenda := t.agenda } ∧ t.coll? rdx = some { c with rounds := [x'] } ∧
      x'.node? .result 0 hi chunk = some v ∧ v.vals = vals ∧ Due t (s.time + 24) 0 (.resultCommit rdx chunk)
    -- a contribution that has landed is counted, unless it is a duplicate or excess
    (∀ a, x.arrived = [a] → x.parts = [] →
      (∀ e ∈ s.agenda, e.tide ≤ s.time → ∀ m n, e.task ≠ .op (.dramWriteCommit m n)) →
      ∃ t x', exec (.collectiveCombine rdx chunk) s = .next t ∧ t = { s with colls := t.colls, agenda := t.agenda } ∧
        t.coll? rdx = some { c with rounds := [x'] } ∧ x'.arrived = [] ∧
        if a.key ∈ (x.contrib.filter (fun y => y.elem == a.elem)).map (·.key) ∨ d.lpe ≤ x.contrib.countP (fun y => y.elem == a.elem)
        then x'.dup = true ∧ x'.contrib = x.contrib else x'.dup = x.dup ∧ x'.contrib = x.contrib ++ [a]) ∧
    -- a chunk whose member partial is ready
    (x.arrived = [] → s.phys.eccFail = [] → (∃ p ∈ x.parts, p.chunk = chunk ∧ p.ready ≤ s.time) →
      c.bin = false → d.push = false → d.rank = 0 → chunk ∉ x.committed →
      (d.nmem = 1 → x.nodes = [] → forms 1 own) ∧
      ∀ b, d.nmem = 2 → x.nodes = [b] → b.kind = .tree → b.lo = 1 → b.hi = 2 → b.chunk = chunk → b.ready ≤ s.time → b.vals.length = 64 →
        forms 2 (List.zipWith (fun p q => (nodeF d (p, 0) (q, 0)).1) own b.vals)) ∧
    (∀ v, x.nodes.find? (fun v => v.kind == .result && v.chunk == chunk && decide (v.ready + 24 ≤ s.time)) = some v →
      chunk ∉ x.committed →
      ∃ t x', exec (.resultCommit rdx chunk) s = .next t ∧ t.cores = s.cores ∧
        t.coll? rdx = some { c with rounds := [x'], openR :=
          if x.r = c.openR ∧ x'.tide.isSome = true ∧ d.lpr ≤ x.closers.length then c.openR + 1 else c.openR } ∧
        t.dram = wrN s.dram (d.respa + 4 * d.elems * (x.r % 2) + 256 * chunk) (v.vals.flatMap (fun n => toBytes 4 (BitVec.ofInt 32 n).toNat)) ∧
        x' = { x with committed := chunk :: x.committed, flags := x.flags ||| v.flags,
                      tide := if x.committed.length + 1 = d.elems / 64 then some s.time else none })) ∧
  ∀ (s : State) (rdx : Nat),
    (s.leafHeld rdx = true → exec (.descriptorArm rdx) s = .next s) ∧
    (s.leafHeld rdx = false → ∃ t, exec (.descriptorArm rdx) s = .next t ∧
      t = { s with colls := t.colls, links := s.links.map (fun k => { k with
        sent := k.sent.filter (fun v => v.rdx != rdx), lastOut := k.lastOut.filter (fun f => !f.what.any (fun v => v.rdx == rdx)) }) } ∧
      (∀ n, n ≠ rdx → t.coll? n = s.coll? n) ∧ ∃ c, t.coll? rdx = some c ∧ c.desc = s.readDesc rdx ∧ c.armed = true ∧
        c.broken = false ∧ c.openR = 0 ∧ c.rounds = []) ∧
    ∃ t, exec (.descriptorBreak rdx) s = .next t ∧ t = { s with colls := t.colls } ∧ (∀ n, n ≠ rdx → t.coll? n = s.coll? n) ∧
      t.coll? rdx = (s.coll? rdx).map (fun c => { c with broken := true })

/-! ### The physical device and the host (15 R418, R419, 18) -/

/-- 15 R418, R419, 07 R219, 18 R443, R446, R447, R448, R450, R451, R454, R455: an uncorrectable core fault replays its launch or ends its CTBs; a replay prepares the launch again;
a lost row leaves the projection, a lost die or a trip puts the device in ERROR; warnings set their fields; boot trains the
crossings and checks the firmware image, draws a new key, marks the banks that fail the self-test, and sets its fields.
What a crossing between rows fails, and what stands for the key digests and signatures of the image, is notes/assumptions/33; scrambled
contents are notes/assumptions/9; report kinds are the model's own, notes/assumptions/26. -/
def Obligations.PhysicalEvents : Prop :=
  (∀ (s : State) (row slot col : Nat) (r : Reach) (l : Launch), s.reach? row slot = some r → s.launch? r.launch = some l →
    let f := s.physCore row col
    let again := s.replays l (s.phys.fenceable f)
    ∃ t, exec (.uncorrectableCoreFault row slot col) s = .next t ∧ t.faults = s.faults ∧ SameMem s t ∧
      (again = true → t = { s with phys := { s.phys with fenced := t.phys.fenced }, agenda := t.agenda } ∧ f ∈ t.phys.fenced ∧
        Due t s.time 0 (.deviceReplay l.id)) ∧
      (again = false → t.phys = s.phys ∧ .report 0x418 l.id (coreIx row slot) ∈ t.out ∧
        ∀ n c, r.ctb? n = some c → ∃ c', t.ctb? row slot n = some c' ∧ c'.ended = some (c.ended.getD .faulted))) ∧
  (∀ (s : State) (id : Nat) (l : Launch), s.launch? id = some l → l.state = .running ∨ l.state = .draining →
    (∀ x ∈ s.xfers, x.launch = id → x.landed = true) →
    ∃ t, exec (.deviceReplay id) s = .next t ∧ t.faults = s.faults ∧ SameMem s t ∧ (∀ r ∈ t.reaches, r.launch ≠ id) ∧
      (∀ x ∈ t.rows, x.holder ≠ some id) ∧ (∀ n, n ≠ id → t.launch? n = s.launch? n) ∧ .report 0x419 id 0 ∈ t.out ∧
      t.launch? id = some { l with
        state := .preparing, late := true, trans := [], promise := none, effective := none, ends := [], finished := [],
        wbLeft := [], doneTide := 0, replays := l.replays + 1 } ∧
      Due t (max (workAfter s.time (64 * l.record.nmap)) s.time) 1 (.translationFillDone id)) ∧
  ∀ (s : State),
    let error (t : State) (die : Nat) : Prop := t.regs.tdispst = 3 ∧ .report 0x451 die 0 ∈ t.out ∧ 11 * die + 9 ∈ t.phys.lostRows ∧ t.phys.dieLost = some s.time ∧
      t.faults = s.faults ∧ t.cores = s.cores ∧ (∀ c ∈ t.colls, c.broken = true) ∧
      ∀ id l, s.launch? id = some l → ∃ l', t.launch? id = some l' ∧ l'.state = .done ∧
        (l.state ≠ .done → l'.status = 0x0A)
    (∀ n, n = 9 ∨ n = 10 ∨ n = 20 ∨ n = 21 → ∃ t, exec (.rowReferenceLoss n) s = .next t ∧ error t (n / 11)) ∧
    (∀ n, n < 22 → n % 11 < 9 → s.phys.dieLost = some s.time → exec (.rowReferenceLoss n) s = .next s) ∧
    (∀ n, n < 22 → n % 11 < 9 → s.reaches = [] → (∀ e ∈ s.agenda, s.time < e.tide) → s.phys.dieLost ≠ some s.time → (∀ f ∈ s.phys.fenced, f.2.2 < 17) →
      ∃ t, exec (.rowReferenceLoss n) s = .next t ∧ t = { s with regs := t.regs, phys := t.phys, out := t.out } ∧
        t.regs = { s.regs with proj := t.regs.proj } ∧ t.phys = { s.phys with lostRows := n :: s.phys.lostRows } ∧
        ∀ k, k < 16 → (4 ≤ (t.phys.usable (k / 8)).length → t.clockRegion k ≠ n) ∧
          ((t.phys.usable (k / 8)).length < 4 → t.regs.proj.getD k 0 = s.regs.proj.getD k 0 ∧ .report 0x014 (k / 8) 0 ∈ t.out)) ∧
    (∀ d, (∃ t, exec (.dieReferenceLoss d) s = .next t ∧ error t d) ∧ ∃ t, exec (.uncoreSupplyLow d) s = .next t ∧ error t d) ∧
    -- PWRSTAT as it reads: bits 31 to 29, the junction temperature and the power
    let tj (t : State) : BitVec 9 := t.pwrWord.extractLsb' 20 9
    let power (t : State) : BitVec 12 := t.pwrWord.extractLsb' 0 12
    let sticky (t : State) (trip twarn pwarn : Bool) : Prop :=
      t.pwrWord.getLsbD 31 = trip ∧ t.pwrWord.getLsbD 30 = twarn ∧ t.pwrWord.getLsbD 29 = pwarn
    let was (k : Nat) : Bool := s.pwrWord.getLsbD k
    (∀ i, i = .thermalTrip ∨ i = .powerTrip → ∃ t, exec i s = .next t ∧ error t 0 ∧ error t 1 ∧ sticky t true (was 30) (was 29) ∧
      (i = .thermalTrip → (s.phys.tj = [] → tj t = 110) ∧ power t = power s) ∧ (i = .powerTrip → (s.phys.power = [] → power t = 2640) ∧ tj t = tj s)) ∧
    (∀ v, ∃ t, exec (.junctionWarning v) s = .next t ∧
      t = { s with regs := { s.regs with pwrstat := t.regs.pwrstat }, phys := { s.phys with tj := (s.time, v.toNat) :: s.phys.tj } } ∧
      tj t = v ∧ power t = power s ∧ sticky t (was 31) (decide (95 ≤ v.toNat) || was 30) (was 29)) ∧
    (∀ p, ∃ t, exec (.powerWarning p) s = .next t ∧
      t = { s with regs := { s.regs with pwrstat := t.regs.pwrstat }, phys := { s.phys with power := (s.time, p.toNat) :: s.phys.power } } ∧
      power t = p ∧ tj t = tj s ∧ sticky t (was 31) (was 30) true) ∧
    let b : State := { s with phys := s.phys.train }
    let m := s.phys.image
    let fz := s.phys.fuses
    let image : Prop := rdVal m 0 4 = 0x4B564F46 ∧ rdVal m 8 8 % 64 = 0 ∧ (∀ a, 0x10 ≤ a → a < 0x40 → rd m a = 0) ∧
      (∀ a, 0x152D ≤ a → a < 0x1600 → rd m a = 0) ∧ fz.svn ≤ rdVal m 4 4 ∧ imagePart m 0x40 32 = fz.edKey ∧ imagePart m 0x60 1952 = fz.mldKey ∧
      s.phys.signed = (true, true)
    let slow (c : Crossing) : Prop := c.beats < s.phys.count c
    let cut : Prop := ∃ c ∈ crossings, slow c ∧ c.region = none
    let few : Prop := (b.phys.usable 0).length < 4 ∨ (b.phys.usable 1).length < 4
    -- the least of the failures that the device meets
    (Memory.wf m = true → s.phys.bootFail = 0 → (cut → b.bootCode = 1) ∧ (¬ cut → ¬ image → b.bootCode = 3) ∧
      (¬ cut → image → few → b.bootCode = 4) ∧ (¬ cut → image → ¬ few → b.bootCode = 0)) ∧
    (∀ k, k < 6 → s.phys.bootFail = k → ¬ cut → image → ¬ few → Memory.wf m = true → k ≠ 4 → b.bootCode = k) ∧
    ∃ t, exec .boot s = .next t ∧ t.reaches = s.reaches ∧ t.launches = s.launches ∧ t.faults = s.faults ∧
      -- a crossing takes its latency, or fails its row
      (∀ c ∈ crossings, (¬ slow c → (c, c.beats - s.phys.count c) ∈ t.phys.depths) ∧ (slow c → ∀ n, c.region = some n → n ∈ t.phys.lostRows)) ∧
      (∀ n, n ∈ t.phys.lostRows → n ∈ s.phys.lostRows ∨ ∃ c ∈ crossings, slow c ∧ c.region = some n) ∧
      (∀ q, (t.core q).scratch = (s.core q).scratch) ∧
      t.dram = [] ∧ t.scrambled = [(0, dramSize)] ∧ t.host.epoch = s.host.epoch + 1 ∧
      (b.bootCode = 0 ∨ 4 ≤ b.bootCode → ∀ b ∈ s.phys.badBanks, b.2.1 < 32 → (t.core b.1).mark b.2.1 ≠ 15) ∧
      (b.bootCode = 0 → t.regs.bootstat = 6 ∧ t.regs.tidesync = s.regs.tidesync ||| 0x80000000 ∧ t.regs.tdispst = 0 ∧ t.host.fwOk = true ∧
        Due t (max (8192 * (s.time / 8192) + 7936) s.time) 0 .slackWater) ∧
      (b.bootCode ≠ 0 → t.regs.bootstat = BitVec.ofNat 32 (257 * b.bootCode) ∧ t.host.fwOk = decide (4 ≤ b.bootCode) ∧ t.agenda = s.agenda)

/-- 18 R441, R442, R443, R444, R445, R449, 03 R106, R124, 10 R292, 12 R353, 15 R411, R416: a command that the interface accepts has its effect and its status word, and is else
DENIED; the interface requests move the device between its states; a scrub clears the device, and completes unlocked.
Status words, orders and handles that the spec leaves open are the model's own, notes/assumptions/11; what the cancel of a launch
returns whose refusal is known before its validation span ends is notes/assumptions/31, the scrambled DRAM of a scrub notes/assumptions/9, and
the reports of a MEASUREMENTS response notes/assumptions/33. -/
def Obligations.HostCommands : Prop :=
  ∀ (s : State),
    let idle : Prop := s.host.scrubbing = false ∧ s.host.waiting = []
    let waits (i : Instr) (l : List Instr) : State := { s with host := { s.host with waiting := l ++ [i] } }
    let open' : Prop := idle ∧ s.accepts = true
    let told (t : State) (code : Nat) (v : DWord) : Prop := t.out.getLast? = some (.reply (BitVec.ofNat 32 code) v)
    -- the answer to a command that changes nothing else
    let replies (i : Instr) (code : Nat) (v : DWord) : Prop := exec i s = .next { s with out := s.out ++ [.reply (BitVec.ofNat 32 code) v] }
    let command : List Instr := [.launchCmd 0 0 false 0, .lquery 0, .cancel 0, .regrd 0 0, .regwr 0 0 0, .objset 0 0, .retire 0, .debug 0 0 .hread 0 0]
    (idle → s.accepts = false → ∀ i ∈ command, replies i 0x10 0) ∧
    -- a command that meets a scrub, or others that wait for it, waits; those that wait run in order
    (∀ i ∈ .handover :: command, (s.host.scrubbing = true → exec i s = .next (waits i s.host.waiting)) ∧
      (∀ j l, s.host.scrubbing = false → s.host.waiting = j :: l → j ≠ i → exec i s = .next (waits i s.host.waiting))) ∧
    (∀ i ∈ command, ∀ l, s.host.scrubbing = false → s.host.waiting = i :: l → s.accepts = false → ∃ t, exec i s = .next t ∧
      t = { s with host := { s.host with waiting := l }, out := s.out ++ [.reply 0x10 0], agenda := t.agenda } ∧
      ∀ j r, l = j :: r → Due t s.time 0 j) ∧
    (s.host.scrubbing = true → ∃ t, exec .stopInterfaceRequest s = .next t ∧ t = { s with agenda := t.agenda } ∧
      Due t (frameCeil (s.time + 1)) 0 .stopInterfaceRequest) ∧
    (∀ rcd start late e, open' →
      (s.regs.hltbase = 0 ∨ 4096 ≤ e → replies (.launchCmd rcd start late e) 0x11 0) ∧
      (∀ l, s.owner e = some l → l.state ≠ .done → replies (.launchCmd rcd start late e) 0x11 0) ∧
      (s.regs.hltbase ≠ 0 → e < 4096 → (∀ l, s.owner e = some l → l.state = .done) → ∃ t l, exec (.launchCmd rcd start late e) s = .next t ∧ SameMem s t ∧
        told t 0 (0x8000000000000000 + BitVec.ofNat 64 e) ∧ t.launches = s.launches ++ [l] ∧ l.id = s.nextId + 1 ∧ l.state = .validating ∧
        l.recAddr = rcd ∧ l.declared = start.toNat ∧ l.late = late ∧ l.issueTide = s.time ∧ look t.host.owned e = some l.id ∧
        Due t (max (workAfter s.time 512) s.time) 1 (.validationSpanEnd l.id))) ∧
    (∀ h l, open' → s.hostLaunch h = some l →
      replies (.lquery h) 0 (BitVec.ofNat 64 (if l.state = .done then l.status else 1)) ∧
      (l.refused = false → l.cancelled = false → s.time < l.declared → s.launch? l.id = some l → ∃ t, exec (.cancel h) s = .next t ∧ told t 0 3 ∧
        t.launch? l.id = some { l with cancelled := true } ∧ Due t l.declared 1 (.cancelFire l.id)) ∧
      (l.refused = true → replies (.cancel h) 0 (BitVec.ofNat 64 l.status)) ∧
      (l.refused = false → l.cancelled = true → replies (.cancel h) 0 3) ∧
      (l.refused = false → l.cancelled = false → l.declared ≤ s.time → replies (.cancel h) 0 4)) ∧
    (∀ h, open' → s.hostLaunch h = none → replies (.lquery h) 0x11 0 ∧ replies (.cancel h) 0x11 0) ∧
    (∀ q v, open' →
      replies (.regrd 0x1000 q) 0 s.regs.dbgtok ∧ replies (.regrd 0x1001 q) 0 (s.regs.tidesync.setWidth 64) ∧
      replies (.regrd 0x1002 q) 0 (s.pwrWord.setWidth 64) ∧ replies (.regrd 0x1003 q) 0 (s.regs.bootstat.setWidth 64) ∧
      replies (.regrd 0x1004 q) 0 (s.regs.tdispst.setWidth 64) ∧ replies (.regrd 0x1005 q) 0 s.regs.hltbase ∧
      (q < 256 → replies (.regrd 0x54 q) 0 ((s.core q).scrcnt.setWidth 64)) ∧
      (s.acctlR 25 16 = true → replies (.regrd 0x30 q) 0 s.regs.ttbase) ∧ (s.acctlR 25 16 = false → replies (.regrd 0x30 q) 0x10 0) ∧
      replies (.regrd 0x10 q) 0x11 0 ∧ replies (.regwr 0x10 q v) 0x11 0 ∧
      (s.acctlW 25 16 = false → replies (.regwr 0x30 q v) 0x10 0) ∧
      (s.acctlW 25 16 = true → ∃ t, exec (.regwr 0x30 q v) s = .next t ∧ told t 0 0 ∧
        t = { s with regs := { s.regs with ttbase := BitVec.ofNat 64 (v.toNat % 2 ^ 52 / 4096 * 4096) }, out := t.out })) ∧
    (∀ q v, ∃ t, exec (.registerWrite 0x30 q v) s = .next t ∧
      t = { s with regs := { s.regs with ttbase := BitVec.ofNat 64 (v.toNat % 2 ^ 52 / 4096 * 4096) } }) ∧
    (∀ n c, open' →
      (n = 0 ∨ 65536 ≤ n → replies (.objset n c) 0x11 0) ∧ (0 < n → n < 65536 → s.objInUse n = true → replies (.objset n c) 0x10 0) ∧
      (0 < n → n < 65536 → s.objInUse n = false → ∃ t, exec (.objset n c) s = .next t ∧ told t 0 0 ∧
        t = { s with objs := t.objs, objRel := t.objRel, out := t.out } ∧ ∀ m, t.obj m = if m = n then c else s.obj m) ∧
      (4096 ≤ n ∨ s.slotsOwned n = true → replies (.retire n) 0x11 0) ∧
      (n < 4096 → s.slotsOwned n = false → ∃ t, exec (.retire n) s = .next t ∧ told t 0 0 ∧
        (∀ m, m ∈ t.phys.retiring ↔ m = n ∨ m ∈ s.phys.retiring) ∧
        t = { s with phys := { s.phys with retiring := t.phys.retiring }, out := t.out })) ∧
    (∀ id lin op w v, open' →
      let found := s.launches.find? (fun l => l.ident == id && l.state != .done)
      (found = none → replies (.debug id lin op w v) 0x11 0) ∧
      ∀ l, found = some l →
        (s.debugRight l = false → replies (.debug id lin op w v) 0x10 0) ∧
        (s.debugRight l = true → s.debugPlace l lin = none → replies (.debug id lin op w v) 0x12 0) ∧
        ∀ r col, s.debugRight l = true → s.debugPlace l lin = some (r, col) →
          ((∀ x, r.hold = some x → x.halted = false ∨ ∀ e ∈ x.queue, e.1 ≠ col) → replies (.debug id lin op w v) 0x12 0) ∧
          ∀ x, r.hold = some x → x.halted = true → (∃ e ∈ x.queue, e.1 = col) → op = .hread → w = 0x400 + (BitVec.ofNat 32 (w.toNat % 32)) →
            let g := hostTarget r x col (w.toNat % 32)
            s.tgtOk g = true →
              replies (.debug id lin op w v) 0 ((s.haltedRead g 4 0 (v.toNat % 32) (plannedAt r l col x.j)).setWidth 64)) ∧
    (∀ v, exec (.ttepochWrite v) s = .next { s with regs := { s.regs with ttepoch := v, ttstat := 1 }, ttNext := some (v.toNat, s.time) }) ∧
    (∀ v, (∀ e ∈ s.agenda, e.task ≠ .op .quantumBoundary) → ∃ t, exec (.schedcfgWrite v) s = .next t ∧
      t = { s with regs := { s.regs with schedcfg := t.regs.schedcfg } } ∧ t.regs.schedcfg.getLsbD 4 = v.getLsbD 4 ∧
      t.regs.schedcfg.toNat % 16 = if v.toNat % 16 ≤ 10 then v.toNat % 16 else s.regs.schedcfg.toNat % 16) ∧
    (∀ v, ∃ t, exec (.detcfgWrite v) s = .next t ∧ t = { s with regs := { s.regs with detcfg := t.regs.detcfg } } ∧
      (s.regs.detcfg.getLsbD 1 = true → t = s) ∧ (s.regs.detcfg.getLsbD 1 = false → t.regs.detcfg.toNat = v.toNat % 4)) ∧
    (∀ q w v, w < 4 → ∃ t, exec (.bankmapWrite q w v) s = .next t ∧ t = { s with cores := t.cores } ∧ (∀ p, p ≠ q → t.core p = s.core p) ∧
      ({ t.core q with bankmap := 0 } : Core) = { s.core q with bankmap := 0 } ∧
      ∀ g, g < 32 → (t.core q).mark g = if g / 8 = w ∧ (s.core q).mark g = 15 ∧ v.toNat / 16 ^ (g % 8) % 16 ≤ 9
        then v.toNat / 16 ^ (g % 8) % 16 else (s.core q).mark g) ∧
    (∀ v, (∀ l ∈ s.launches, l.state = .done ∨ l.record.debug = 0) →
      exec (.dbgtokWrite v) s = .next { s with regs := { s.regs with dbgtok := v } }) ∧
    (∀ v, (s.hostBusy = true → exec (.hltbaseWrite v) s = .next s) ∧ (s.hostBusy = false → ∃ t, exec (.hltbaseWrite v) s = .next t ∧
      t = { s with regs := { s.regs with hltbase := BitVec.ofNat 64 (v.toNat % 2 ^ 52 / 64 * 64) } })) ∧
    -- the trusted device interface
    (s.tdisp = 0 → ∃ t, exec .lockInterfaceRequest s = .next t ∧ told t 0 0 ∧ t.regs = { s.regs with tdispst := 1 } ∧
      t = { s with regs := t.regs, host := { s.host with measured := t.host.measured }, out := t.out }) ∧
    (s.tdisp ≠ 0 → replies .lockInterfaceRequest 0x10 0) ∧
    (s.tdisp = 1 → s.host.key = true → ∃ t, exec .startInterfaceRequest s = .next t ∧ told t 0 0 ∧
      t = { s with regs := { s.regs with tdispst := 2 }, out := t.out }) ∧
    (s.tdisp ≠ 1 ∨ s.host.key = false → replies .startInterfaceRequest 0x10 0) ∧
    (∃ t, exec .keyExchange s = .next t ∧ told t 0 0 ∧ t = { s with host := { s.host with key := true }, out := t.out }) ∧
    (∃ t, exec .measurements s = .next t ∧ t = { s with out := t.out } ∧
      t.out = s.out ++ [1, 2, 3, 4, 5].map (fun n => .report 0x449 n (Config.digest n (s.blockWords n))) ++
        [.report 0x449 0 Config.certChain, .report 0x449 6 (Config.edSign s.digests), .report 0x449 7 (Config.mldSign s.digests)]) ∧
    (∃ t, exec .hostFlitTagFail s = .next t ∧ t.regs.tdispst = 3 ∧ t.cores = s.cores ∧ (∀ c ∈ t.colls, c.broken = true) ∧
      ∀ id l, s.launch? id = some l → ∃ l', t.launch? id = some l' ∧ l'.state = .done) ∧
    (idle → ∀ i, i = .handover ∨ i = .stopInterfaceRequest → ∃ t, exec i s = .next t ∧ t.host.scrubbing = true ∧
      t.host.stopReply = decide (i = .stopInterfaceRequest) ∧ t.host.epoch = s.host.epoch + 1 ∧ t.regs = { s.regs with dbgtok := 0 } ∧
      t.dram = [] ∧ t.objs = [] ∧ t.xfers = [] ∧ t.staged = [] ∧ (∀ q a, rd (t.core q).scratch a = 0) ∧
      (∀ q, (t.core q).fifo = [] ∧ ∀ b ∈ (t.core q).bcnctl, b = 0) ∧ (∀ c ∈ t.colls, c.armed = false ∧ c.rounds = []) ∧
      t.fill = [] ∧ (∀ k ∈ t.links, k.failed = [] ∧ k.resend = [] ∧ k.lastOut = [] ∧ k.sent = []) ∧
      (∀ id l, s.launch? id = some l → ∃ l', t.launch? id = some l' ∧ l'.state = .done) ∧
      ∃ n, n ≤ 1024 ∧ Due t (s.time + 8192 * n) 0 .scrubComplete) ∧
    (s.host.scrubbing = true → ∃ t, exec .scrubComplete s = .next t ∧ told t 0 (if s.host.stopReply then 1 else 0) ∧
      t = { s with regs := { s.regs with tdispst := 0 }, host := { s.host with scrubbing := false, key := false }, out := t.out, agenda := t.agenda } ∧
      (s.host.waiting = [] → t.agenda = s.agenda) ∧ ∀ i l, s.host.waiting = i :: l → Due t s.time 0 i) ∧
    (s.host.scrubbing = false → exec .scrubComplete s = .next s)

/-! ### The step, decoding, and the whole machine -/

/-- 02 R37, R38, R40, 04 R127: where the bytes at the program counter of a group decode to an instruction that its mode may run, the step runs that
instruction: the headland's part stands ready, with its next address, and the rest of the run index follows; a step of the
device that is due runs as the next task, at its tide, as a visit of a slot and a host DMA do; with nothing due, time goes on. -/
def Obligations.StepRunsDecoded : Prop :=
  (∀ (s : State) (w : Issue) (c g pa n : Nat) (rest : List (Nat × Nat)) (h : Here) (i : Instr) (t : State),
    s.issue = some w → w.todo = (c, g) :: rest →
    let handler : Bool := ((s.reach? w.row w.slot).map Reach.handling).getD false
    -- no beacon of a column that comes to its turn is armed
    w.col = some c ∨ handler = true ∨ (∀ b ∈ (s.core (coreIx w.row c)).bcnctl, b.getLsbD 31 = false) →
    let w1 : Issue := if w.col = some c then w else { w with col := some c, mode := .each }
    let at0 : State := { s with
      issue := some { w1 with todo := rest }
      cur := some { row := w.row, slot := w.slot, col := c, grp := g, pc := 0, ilen := 0, head := false, only := none,
                    handler := handler } }
    at0.here = some h →
    let pc := h.rg.pc
    let first : Bool := !h.rg.head
    let set : State := if first then at0.modRG h (fun rg =>
      { rg with pc := pc, npc := pc + BitVec.ofNat 64 n, head := true, tstep := false }) else at0
    let ready : State := ({ set with cur := some { h.cur with head := first, pc := pc, ilen := n } } : State)
    h.grp.lateDue h.rg.pos = none → pc.toNat % 32 ≠ 28 → pc.toNat % 32 + n ≤ 32 → h.launch.phys pc.toNat = some pa →
    h.launch.canX pc.toNat = true → decodeBytes (s.dramBytes pa n) = .ok (i, n) → i ≠ .tableStep → s.modeCheck h.super h.launch i = none →
    (first = false → h.rg.tstep = false ∧ headOnly i = false) → (first = true → h.rg.joinStep pc = none) →
    h.grp.cursor ≠ 33 ∨ byLanes i = true → exec i ready = .next t →
    let done : State := if headOnly i && !(t.faults.any (fun f => f.grp == g && f.wide)) then t.complete h else t
    step s = .next (done.surveyPos h.q pc h.grp (done.reached h))) ∧
  (∀ (s : State) (e : Event) (l : List Event) (i : Instr), s.issue = none → s.agenda = e :: l → e.task = .op i →
    step s = exec i { s with agenda := l, time := max s.time e.tide, cur := none }) ∧
  (∀ (s : State) (e : Event) (l : List Event), s.issue = none → s.agenda = e :: l →
    let s1 : State := { s with agenda := l, time := max s.time e.tide, cur := none }
    (∀ row slot j, e.task = .visit row slot j → step s = .next (s1.visit row slot j)) ∧
    (∀ d, e.task = .dma d → step s = .next (s1.hostDma d))) ∧
  ∀ (s : State), s.issue = none → s.agenda = [] → step s = .next { s with time := s.time + 1 }

/-- 02 R36, R71, R76, 05 R152, R164, 07 R235, R238, 08 R263, 15 R425: the words that the spec writes out decode to the instructions that they stand for, and a word
with a length code of 3 or an opcode that no table assigns is refused. -/
def Obligations.DecodedWords : Prop :=
  decodeTableWord 64 0x0000300080040054 = some (.div .i32 (.reg 4 0) (.v 2 false) (.v 3 false)) ∧
  decodeTableWord 96 0x10_0000_3400_880A_1141 = some (.ld .b32 (.reg 10 1) (.k 2) (some (.v 3 false)) (some 0x10)) ∧
  decodeTableWord 64 0x1C4 = some .mswap ∧
  decodeTableWord 96 0x4_0000_0000_0008_209D = some (.kli 8 (.imm32 false 4)) ∧
  decodeTableWord 64 0x80B10 = some (.tinfo .addr (.reg 8 0)) ∧
  decodeTableWord 128 0x0000006000000400_000004050004015A = some (.sdset .n16 4 20 0x400 32) ∧
  decodeTableWord 64 0x1C7 = none ∧ decodeTableWord 64 0x3FC = none

/-- 02 R36, R42 to R52: the encoder and the decoder agree: every well-formed instruction that has words decodes from them, with its length, and from
their bytes; and every word that decodes is the one that encodes its instruction, which is well-formed. -/
def Obligations.RoundTrip : Prop :=
  (∀ (i : Instr) (n : Nat) (w : BitVec 128), wf i = true → encode i = some (n, w) →
    decode w = .ok i ∧ decodeBytes (encodeBytes i) = .ok (i, n) ∧ (n = 8 ∨ n = 12 ∨ n = 16)) ∧
  ∀ (i : Instr) (w : BitVec 128), decode w = .ok i →
    wf i = true ∧ ∃ n v, encode i = some (n, v) ∧ n = lenBytes (unpack w).len ∧ v.toNat = w.toNat % 2 ^ (8 * n)

/-- 01 R26, 07 R211: every step keeps the canonical form of DRAM and of each core's scratch: addresses strictly rising, and no entry equal
to what an unlisted address reads as (the model's form of a memory, notes/assumptions/2 and 3). -/
def Obligations.MemoriesKept : Prop := ∀ s t : State, s.memsWf = true → step s = .next t → t.memsWf = true

/-- 01 R16, 03 R106, 07 R221, R229, 10 R284, R289, R292, R305, 12 R353, 15 R406, R413, R415, R416, R419: reset leaves the registers at the values that their tables state, cores
with no bank marked and no beacon armed, no row granted, and memories in canonical form. -/
def Obligations.ResetState : Prop :=
  let r := State.reset.regs
  r.detcfg = 0 ∧ r.schedcfg = 0x16 ∧ r.slackcfg = 0x00031F00 ∧ r.rsyncstat = 0 ∧ r.ttepoch = 0 ∧ r.ttstat = 0 ∧ r.replcfg = 0x11 ∧
  (∀ n, n < 8 → r.proj.getD n 0 = BitVec.ofNat 32 (0x1F0 + n) ∧ r.proj.getD (8 + n) 0 = BitVec.ofNat 32 (0x9F0 + n)) ∧
  (∀ n, r.defstat.getD n 0 = 0) ∧ (∀ n, n < 26 → r.acctl.getD n 0 = 0x0005FFFF0005FFFF) ∧ r.cntwrap = 0 ∧
  (∀ q, let c := State.reset.core q
    (∀ g, g < 32 → c.mark g = 15) ∧ c.scrcnt = 0 ∧ (∀ n, c.bcnctl.getD n 0 = 0 ∧ c.bcnlo.getD n 0 = 0 ∧ c.bcnhi.getD n 0 = 0) ∧
      (∀ n, c.watch.getD n 0 = 0) ∧ c.survey.ctl = 2 ∧ c.fifo = []) ∧
  (∀ x ∈ State.reset.rows, x.holder = none) ∧ State.reset.reaches = [] ∧ State.reset.launches = [] ∧ State.reset.tt = none ∧ (∀ n, State.reset.obj n = 0) ∧ State.reset.memsWf = true
end

