-- ==== Sys2Proof/Laws/Memory.lean ====
section
/-! SUPPORT. Memory: read after write, and the canonical form that every memory operation keeps. -/
namespace Sys2Proof.Machine

theorem memWfFrom_mono {lo lo' : Nat} {m : Memory} (h : lo' ≤ lo) (hm : memWfFrom lo m = true) : memWfFrom lo' m = true := by
  cases m with
  | nil => rfl
  | cons c m => simp only [memWfFrom, Bool.and_eq_true, decide_eq_true_eq] at hm ⊢; exact ⟨⟨by omega, hm.1.2⟩, hm.2⟩

theorem rd_below {lo a : Nat} {m : Memory} (hm : memWfFrom lo m = true) (h : a < lo) : rd m a = 0 := by
  cases m with
  | nil => rfl
  | cons c m =>
    simp only [memWfFrom, Bool.and_eq_true, decide_eq_true_eq] at hm
    simp only [rd]; rw [if_pos (by omega)]

theorem memWfFrom_wr {lo a : Nat} {m : Memory} (v : Byte) (hm : memWfFrom lo m = true) (ha : lo ≤ a) :
    memWfFrom lo (wr m a v) = true := by
  induction m generalizing lo with
  | nil =>
    simp only [wr]
    split
    · rfl
    · rename_i h; simp only [memWfFrom, Bool.and_eq_true, decide_eq_true_eq, bne_iff_ne]; exact ⟨⟨ha, h⟩, trivial⟩
  | cons c m ih =>
    obtain ⟨i, b⟩ := c
    simp only [memWfFrom, Bool.and_eq_true, decide_eq_true_eq] at hm
    simp only [wr]
    split
    · split
      · simp only [memWfFrom, Bool.and_eq_true, decide_eq_true_eq]; exact hm
      · rename_i h1 h2
        simp only [memWfFrom, Bool.and_eq_true, decide_eq_true_eq, bne_iff_ne]
        exact ⟨⟨ha, h2⟩, ⟨by omega, by simpa using hm.1.2⟩, hm.2⟩
    · split
      · split
        · exact memWfFrom_mono (by omega) hm.2
        · rename_i h1 h2 h3
          simp only [memWfFrom, Bool.and_eq_true, decide_eq_true_eq, bne_iff_ne]
          exact ⟨⟨ha, h3⟩, by subst h2; exact hm.2⟩
      · rename_i h1 h2
        simp only [memWfFrom, Bool.and_eq_true, decide_eq_true_eq]
        exact ⟨⟨hm.1.1, hm.1.2⟩, ih hm.2 (by omega)⟩

/-- A write keeps the canonical form. -/
theorem memWf_wr {m : Memory} (a : Nat) (v : Byte) (hm : memWf m = true) : memWf (wr m a v) = true :=
  memWfFrom_wr v hm (Nat.zero_le a)

/-- Writing bytes keeps the canonical form. -/
theorem memWf_wrN {m : Memory} (a : Nat) (bs : List Byte) (hm : memWf m = true) : memWf (wrN m a bs) = true := by
  induction bs generalizing m a with
  | nil => exact hm
  | cons b bs ih => exact ih (a + 1) (memWf_wr a b hm)

/-- Zeroing a range keeps the canonical form. -/
theorem memWfFrom_zeroRange {lo : Nat} {m : Memory} (a n : Nat) (hm : memWfFrom lo m = true) :
    memWfFrom lo (zeroRange m a n) = true := by
  induction m generalizing lo with
  | nil => rfl
  | cons c m ih =>
    simp only [memWfFrom, Bool.and_eq_true, decide_eq_true_eq] at hm
    simp only [zeroRange, List.filter_cons]
    split
    · simp only [memWfFrom, Bool.and_eq_true, decide_eq_true_eq]; exact ⟨hm.1, ih hm.2⟩
    · exact memWfFrom_mono (by omega) (ih hm.2)

theorem memWf_zeroRange {m : Memory} (a n : Nat) (hm : memWf m = true) : memWf (zeroRange m a n) = true :=
  memWfFrom_zeroRange a n hm

theorem rd_wrFrom {lo a : Nat} {m : Memory} (v : Byte) (x : Nat) (hm : memWfFrom lo m = true) :
    rd (wr m a v) x = if x = a then v else rd m x := by
  induction m generalizing lo with
  | nil =>
    simp only [wr]
    split
    · rename_i h; subst h; simp [rd]
    · simp only [rd]; split
      · rw [if_neg (by omega)]
      · rfl
  | cons c m ih =>
    obtain ⟨i, b⟩ := c
    simp only [memWfFrom, Bool.and_eq_true, decide_eq_true_eq] at hm
    simp only [wr]
    split
    · rename_i h1
      split
      · rename_i h2
        split
        · rename_i h3; subst h3; simp [rd, h1, h2]
        · rfl
      · rename_i h2
        simp only [rd]
        by_cases hx : x = a
        · subst hx; simp
        · rw [if_neg hx]
          by_cases hlt : x < a
          · rw [if_pos hlt, if_pos (by omega)]
          · rw [if_neg hlt]
    · split
      · rename_i h1 h2
        subst h2
        split
        · rename_i h3
          by_cases hx : x = a
          · subst hx; rw [if_pos rfl, h3]; exact rd_below hm.2 (by omega)
          · rw [if_neg hx]; simp only [rd]
            by_cases hlt : x < a
            · rw [if_pos hlt]; exact rd_below hm.2 (by omega)
            · rw [if_neg hlt, if_neg hx]
        · rename_i h3
          simp only [rd]
          by_cases hx : x = a
          · subst hx; simp
          · simp [hx]
      · rename_i h1 h2
        simp only [rd]
        by_cases hlt : x < i
        · rw [if_pos hlt, if_pos hlt, if_neg (by omega)]
        · rw [if_neg hlt, if_neg hlt]
          by_cases hx : x = i
          · rw [if_pos hx, if_pos hx, if_neg (by omega)]
          · rw [if_neg hx, if_neg hx]; exact ih hm.2

/-- Read after write: the byte written, and every other byte as before. -/
theorem rd_wr {m : Memory} (a x : Nat) (v : Byte) (hm : memWf m = true) : rd (wr m a v) x = if x = a then v else rd m x :=
  rd_wrFrom v x hm

/-- Read after a write of bytes: the byte written at an address in the range, and every other byte as before. -/
theorem rd_wrN {m : Memory} (a x : Nat) (bs : List Byte) (hm : memWf m = true) :
    rd (wrN m a bs) x = if a ≤ x ∧ x < a + bs.length then bs.getD (x - a) 0 else rd m x := by
  induction bs generalizing m a with
  | nil => simp only [wrN, List.length_nil]; rw [if_neg (by omega)]
  | cons b bs ih =>
    simp only [wrN, List.length_cons]
    rw [ih (a + 1) (memWf_wr a b hm), rd_wr a x b hm]
    by_cases hx : x = a
    · subst hx; rw [if_neg (by omega), if_pos rfl, if_pos (by omega)]; simp
    · by_cases h1 : a + 1 ≤ x ∧ x < a + 1 + bs.length
      · rw [if_pos h1, if_pos (by omega)]
        obtain ⟨n, hn⟩ : ∃ n, x - a = n + 1 := ⟨x - a - 1, by omega⟩
        rw [hn, show x - (a + 1) = n by omega]; simp
      · rw [if_neg h1, if_neg hx, if_neg (by omega)]

/-- Writing bytes leaves every byte outside their range. -/
theorem rd_wrN_outside {m : Memory} {a x : Nat} {bs : List Byte} (hm : memWf m = true) (h : x < a ∨ a + bs.length ≤ x) :
    rd (wrN m a bs) x = rd m x := by
  rw [rd_wrN a x bs hm, if_neg (by omega)]

theorem toBytes_length (n v : Nat) : (toBytes n v).length = n := by
  induction n generalizing v with
  | zero => rfl
  | succ n ih => simp [toBytes, ih]

/-- The bytes of a value give it back (00 R3). -/
theorem ofBytes_toBytes (n v : Nat) : ofBytes (toBytes n v) = v % 256 ^ n := by
  induction n generalizing v with
  | zero => simp [toBytes, ofBytes, Nat.mod_one]
  | succ n ih =>
    simp only [toBytes, ofBytes, ih, BitVec.toNat_ofNat]
    rw [show 256 ^ (n + 1) = 256 * 256 ^ n by rw [Nat.pow_succ, Nat.mul_comm], Nat.mod_mul]

theorem rdN_length (m : Memory) (a n : Nat) : (rdN m a n).length = n := by
  induction n generalizing a with
  | zero => rfl
  | succ n ih => simp [rdN, ih]

theorem rdN_getD (m : Memory) (a n i : Nat) (h : i < n) : (rdN m a n).getD i 0 = rd m (a + i) := by
  induction n generalizing a i with
  | zero => omega
  | succ n ih =>
    cases i with
    | zero => simp [rdN]
    | succ i =>
      have := ih (a + 1) i (by omega)
      simp only [rdN, List.getD_cons_succ, this]
      congr 1; omega

end Sys2Proof.Machine
end

