-- ==== Sys2Proof/Laws/State.lean ====
section
/-! SUPPORT. What each update of the state leaves alone: one lemma per field per update, so that no proof unfolds an
update. -/
namespace Sys2Proof.Machine


/-! `setCore` -/
@[simp] theorem State.setCore_time (s : State) (q : Nat) (c : Core) : (s.setCore q c).time = s.time := rfl
@[simp] theorem State.setCore_agenda (s : State) (q : Nat) (c : Core) : (s.setCore q c).agenda = s.agenda := rfl
@[simp] theorem State.setCore_issue (s : State) (q : Nat) (c : Core) : (s.setCore q c).issue = s.issue := rfl
@[simp] theorem State.setCore_cur (s : State) (q : Nat) (c : Core) : (s.setCore q c).cur = s.cur := rfl
@[simp] theorem State.setCore_faults (s : State) (q : Nat) (c : Core) : (s.setCore q c).faults = s.faults := rfl
@[simp] theorem State.setCore_dram (s : State) (q : Nat) (c : Core) : (s.setCore q c).dram = s.dram := rfl
@[simp] theorem State.setCore_scrambled (s : State) (q : Nat) (c : Core) : (s.setCore q c).scrambled = s.scrambled := rfl
@[simp] theorem State.setCore_dfresh (s : State) (q : Nat) (c : Core) : (s.setCore q c).dfresh = s.dfresh := rfl
@[simp] theorem State.setCore_reaches (s : State) (q : Nat) (c : Core) : (s.setCore q c).reaches = s.reaches := rfl
@[simp] theorem State.setCore_rows (s : State) (q : Nat) (c : Core) : (s.setCore q c).rows = s.rows := rfl
@[simp] theorem State.setCore_launches (s : State) (q : Nat) (c : Core) : (s.setCore q c).launches = s.launches := rfl
@[simp] theorem State.setCore_objs (s : State) (q : Nat) (c : Core) : (s.setCore q c).objs = s.objs := rfl
@[simp] theorem State.setCore_objRel (s : State) (q : Nat) (c : Core) : (s.setCore q c).objRel = s.objRel := rfl
@[simp] theorem State.setCore_regs (s : State) (q : Nat) (c : Core) : (s.setCore q c).regs = s.regs := rfl
@[simp] theorem State.setCore_tt (s : State) (q : Nat) (c : Core) : (s.setCore q c).tt = s.tt := rfl
@[simp] theorem State.setCore_ttNext (s : State) (q : Nat) (c : Core) : (s.setCore q c).ttNext = s.ttNext := rfl
@[simp] theorem State.setCore_xfers (s : State) (q : Nat) (c : Core) : (s.setCore q c).xfers = s.xfers := rfl
@[simp] theorem State.setCore_requests (s : State) (q : Nat) (c : Core) : (s.setCore q c).requests = s.requests := rfl
@[simp] theorem State.setCore_staged (s : State) (q : Nat) (c : Core) : (s.setCore q c).staged = s.staged := rfl
@[simp] theorem State.setCore_fill (s : State) (q : Nat) (c : Core) : (s.setCore q c).fill = s.fill := rfl
@[simp] theorem State.setCore_fires (s : State) (q : Nat) (c : Core) : (s.setCore q c).fires = s.fires := rfl
@[simp] theorem State.setCore_colls (s : State) (q : Nat) (c : Core) : (s.setCore q c).colls = s.colls := rfl
@[simp] theorem State.setCore_links (s : State) (q : Nat) (c : Core) : (s.setCore q c).links = s.links := rfl
@[simp] theorem State.setCore_freeze (s : State) (q : Nat) (c : Core) : (s.setCore q c).freeze = s.freeze := rfl
@[simp] theorem State.setCore_host (s : State) (q : Nat) (c : Core) : (s.setCore q c).host = s.host := rfl
@[simp] theorem State.setCore_phys (s : State) (q : Nat) (c : Core) : (s.setCore q c).phys = s.phys := rfl
@[simp] theorem State.setCore_trace (s : State) (q : Nat) (c : Core) : (s.setCore q c).trace = s.trace := rfl
@[simp] theorem State.setCore_out (s : State) (q : Nat) (c : Core) : (s.setCore q c).out = s.out := rfl
@[simp] theorem State.setCore_nextId (s : State) (q : Nat) (c : Core) : (s.setCore q c).nextId = s.nextId := rfl
@[simp] theorem State.setCore_free (s : State) (q : Nat) (c : Core) : (s.setCore q c).free = s.free := rfl

/-! `modCore` -/
@[simp] theorem State.modCore_time (s : State) (q : Nat) (f : Core → Core) : (s.modCore q f).time = s.time := rfl
@[simp] theorem State.modCore_agenda (s : State) (q : Nat) (f : Core → Core) : (s.modCore q f).agenda = s.agenda := rfl
@[simp] theorem State.modCore_issue (s : State) (q : Nat) (f : Core → Core) : (s.modCore q f).issue = s.issue := rfl
@[simp] theorem State.modCore_cur (s : State) (q : Nat) (f : Core → Core) : (s.modCore q f).cur = s.cur := rfl
@[simp] theorem State.modCore_faults (s : State) (q : Nat) (f : Core → Core) : (s.modCore q f).faults = s.faults := rfl
@[simp] theorem State.modCore_dram (s : State) (q : Nat) (f : Core → Core) : (s.modCore q f).dram = s.dram := rfl
@[simp] theorem State.modCore_scrambled (s : State) (q : Nat) (f : Core → Core) : (s.modCore q f).scrambled = s.scrambled := rfl
@[simp] theorem State.modCore_dfresh (s : State) (q : Nat) (f : Core → Core) : (s.modCore q f).dfresh = s.dfresh := rfl
@[simp] theorem State.modCore_reaches (s : State) (q : Nat) (f : Core → Core) : (s.modCore q f).reaches = s.reaches := rfl
@[simp] theorem State.modCore_rows (s : State) (q : Nat) (f : Core → Core) : (s.modCore q f).rows = s.rows := rfl
@[simp] theorem State.modCore_launches (s : State) (q : Nat) (f : Core → Core) : (s.modCore q f).launches = s.launches := rfl
@[simp] theorem State.modCore_objs (s : State) (q : Nat) (f : Core → Core) : (s.modCore q f).objs = s.objs := rfl
@[simp] theorem State.modCore_objRel (s : State) (q : Nat) (f : Core → Core) : (s.modCore q f).objRel = s.objRel := rfl
@[simp] theorem State.modCore_regs (s : State) (q : Nat) (f : Core → Core) : (s.modCore q f).regs = s.regs := rfl
@[simp] theorem State.modCore_tt (s : State) (q : Nat) (f : Core → Core) : (s.modCore q f).tt = s.tt := rfl
@[simp] theorem State.modCore_ttNext (s : State) (q : Nat) (f : Core → Core) : (s.modCore q f).ttNext = s.ttNext := rfl
@[simp] theorem State.modCore_xfers (s : State) (q : Nat) (f : Core → Core) : (s.modCore q f).xfers = s.xfers := rfl
@[simp] theorem State.modCore_requests (s : State) (q : Nat) (f : Core → Core) : (s.modCore q f).requests = s.requests := rfl
@[simp] theorem State.modCore_staged (s : State) (q : Nat) (f : Core → Core) : (s.modCore q f).staged = s.staged := rfl
@[simp] theorem State.modCore_fill (s : State) (q : Nat) (f : Core → Core) : (s.modCore q f).fill = s.fill := rfl
@[simp] theorem State.modCore_fires (s : State) (q : Nat) (f : Core → Core) : (s.modCore q f).fires = s.fires := rfl
@[simp] theorem State.modCore_colls (s : State) (q : Nat) (f : Core → Core) : (s.modCore q f).colls = s.colls := rfl
@[simp] theorem State.modCore_links (s : State) (q : Nat) (f : Core → Core) : (s.modCore q f).links = s.links := rfl
@[simp] theorem State.modCore_freeze (s : State) (q : Nat) (f : Core → Core) : (s.modCore q f).freeze = s.freeze := rfl
@[simp] theorem State.modCore_host (s : State) (q : Nat) (f : Core → Core) : (s.modCore q f).host = s.host := rfl
@[simp] theorem State.modCore_phys (s : State) (q : Nat) (f : Core → Core) : (s.modCore q f).phys = s.phys := rfl
@[simp] theorem State.modCore_trace (s : State) (q : Nat) (f : Core → Core) : (s.modCore q f).trace = s.trace := rfl
@[simp] theorem State.modCore_out (s : State) (q : Nat) (f : Core → Core) : (s.modCore q f).out = s.out := rfl
@[simp] theorem State.modCore_nextId (s : State) (q : Nat) (f : Core → Core) : (s.modCore q f).nextId = s.nextId := rfl
@[simp] theorem State.modCore_free (s : State) (q : Nat) (f : Core → Core) : (s.modCore q f).free = s.free := rfl

/-! `modReach` -/
@[simp] theorem State.modReach_time (s : State) (row slot : Nat) (f : Reach → Reach) : (s.modReach row slot f).time = s.time := rfl
@[simp] theorem State.modReach_agenda (s : State) (row slot : Nat) (f : Reach → Reach) : (s.modReach row slot f).agenda = s.agenda := rfl
@[simp] theorem State.modReach_issue (s : State) (row slot : Nat) (f : Reach → Reach) : (s.modReach row slot f).issue = s.issue := rfl
@[simp] theorem State.modReach_cur (s : State) (row slot : Nat) (f : Reach → Reach) : (s.modReach row slot f).cur = s.cur := rfl
@[simp] theorem State.modReach_faults (s : State) (row slot : Nat) (f : Reach → Reach) : (s.modReach row slot f).faults = s.faults := rfl
@[simp] theorem State.modReach_dram (s : State) (row slot : Nat) (f : Reach → Reach) : (s.modReach row slot f).dram = s.dram := rfl
@[simp] theorem State.modReach_scrambled (s : State) (row slot : Nat) (f : Reach → Reach) : (s.modReach row slot f).scrambled = s.scrambled := rfl
@[simp] theorem State.modReach_dfresh (s : State) (row slot : Nat) (f : Reach → Reach) : (s.modReach row slot f).dfresh = s.dfresh := rfl
@[simp] theorem State.modReach_cores (s : State) (row slot : Nat) (f : Reach → Reach) : (s.modReach row slot f).cores = s.cores := rfl
@[simp] theorem State.modReach_rows (s : State) (row slot : Nat) (f : Reach → Reach) : (s.modReach row slot f).rows = s.rows := rfl
@[simp] theorem State.modReach_launches (s : State) (row slot : Nat) (f : Reach → Reach) : (s.modReach row slot f).launches = s.launches := rfl
@[simp] theorem State.modReach_objs (s : State) (row slot : Nat) (f : Reach → Reach) : (s.modReach row slot f).objs = s.objs := rfl
@[simp] theorem State.modReach_objRel (s : State) (row slot : Nat) (f : Reach → Reach) : (s.modReach row slot f).objRel = s.objRel := rfl
@[simp] theorem State.modReach_regs (s : State) (row slot : Nat) (f : Reach → Reach) : (s.modReach row slot f).regs = s.regs := rfl
@[simp] theorem State.modReach_tt (s : State) (row slot : Nat) (f : Reach → Reach) : (s.modReach row slot f).tt = s.tt := rfl
@[simp] theorem State.modReach_ttNext (s : State) (row slot : Nat) (f : Reach → Reach) : (s.modReach row slot f).ttNext = s.ttNext := rfl
@[simp] theorem State.modReach_xfers (s : State) (row slot : Nat) (f : Reach → Reach) : (s.modReach row slot f).xfers = s.xfers := rfl
@[simp] theorem State.modReach_requests (s : State) (row slot : Nat) (f : Reach → Reach) : (s.modReach row slot f).requests = s.requests := rfl
@[simp] theorem State.modReach_staged (s : State) (row slot : Nat) (f : Reach → Reach) : (s.modReach row slot f).staged = s.staged := rfl
@[simp] theorem State.modReach_fill (s : State) (row slot : Nat) (f : Reach → Reach) : (s.modReach row slot f).fill = s.fill := rfl
@[simp] theorem State.modReach_fires (s : State) (row slot : Nat) (f : Reach → Reach) : (s.modReach row slot f).fires = s.fires := rfl
@[simp] theorem State.modReach_colls (s : State) (row slot : Nat) (f : Reach → Reach) : (s.modReach row slot f).colls = s.colls := rfl
@[simp] theorem State.modReach_links (s : State) (row slot : Nat) (f : Reach → Reach) : (s.modReach row slot f).links = s.links := rfl
@[simp] theorem State.modReach_freeze (s : State) (row slot : Nat) (f : Reach → Reach) : (s.modReach row slot f).freeze = s.freeze := rfl
@[simp] theorem State.modReach_host (s : State) (row slot : Nat) (f : Reach → Reach) : (s.modReach row slot f).host = s.host := rfl
@[simp] theorem State.modReach_phys (s : State) (row slot : Nat) (f : Reach → Reach) : (s.modReach row slot f).phys = s.phys := rfl
@[simp] theorem State.modReach_trace (s : State) (row slot : Nat) (f : Reach → Reach) : (s.modReach row slot f).trace = s.trace := rfl
@[simp] theorem State.modReach_out (s : State) (row slot : Nat) (f : Reach → Reach) : (s.modReach row slot f).out = s.out := rfl
@[simp] theorem State.modReach_nextId (s : State) (row slot : Nat) (f : Reach → Reach) : (s.modReach row slot f).nextId = s.nextId := rfl
@[simp] theorem State.modReach_free (s : State) (row slot : Nat) (f : Reach → Reach) : (s.modReach row slot f).free = s.free := rfl

/-! `modCtb` -/
@[simp] theorem State.modCtb_time (s : State) (row slot col : Nat) (f : Ctb → Ctb) : (s.modCtb row slot col f).time = s.time := rfl
@[simp] theorem State.modCtb_agenda (s : State) (row slot col : Nat) (f : Ctb → Ctb) : (s.modCtb row slot col f).agenda = s.agenda := rfl
@[simp] theorem State.modCtb_issue (s : State) (row slot col : Nat) (f : Ctb → Ctb) : (s.modCtb row slot col f).issue = s.issue := rfl
@[simp] theorem State.modCtb_cur (s : State) (row slot col : Nat) (f : Ctb → Ctb) : (s.modCtb row slot col f).cur = s.cur := rfl
@[simp] theorem State.modCtb_faults (s : State) (row slot col : Nat) (f : Ctb → Ctb) : (s.modCtb row slot col f).faults = s.faults := rfl
@[simp] theorem State.modCtb_dram (s : State) (row slot col : Nat) (f : Ctb → Ctb) : (s.modCtb row slot col f).dram = s.dram := rfl
@[simp] theorem State.modCtb_scrambled (s : State) (row slot col : Nat) (f : Ctb → Ctb) : (s.modCtb row slot col f).scrambled = s.scrambled := rfl
@[simp] theorem State.modCtb_dfresh (s : State) (row slot col : Nat) (f : Ctb → Ctb) : (s.modCtb row slot col f).dfresh = s.dfresh := rfl
@[simp] theorem State.modCtb_cores (s : State) (row slot col : Nat) (f : Ctb → Ctb) : (s.modCtb row slot col f).cores = s.cores := rfl
@[simp] theorem State.modCtb_rows (s : State) (row slot col : Nat) (f : Ctb → Ctb) : (s.modCtb row slot col f).rows = s.rows := rfl
@[simp] theorem State.modCtb_launches (s : State) (row slot col : Nat) (f : Ctb → Ctb) : (s.modCtb row slot col f).launches = s.launches := rfl
@[simp] theorem State.modCtb_objs (s : State) (row slot col : Nat) (f : Ctb → Ctb) : (s.modCtb row slot col f).objs = s.objs := rfl
@[simp] theorem State.modCtb_objRel (s : State) (row slot col : Nat) (f : Ctb → Ctb) : (s.modCtb row slot col f).objRel = s.objRel := rfl
@[simp] theorem State.modCtb_regs (s : State) (row slot col : Nat) (f : Ctb → Ctb) : (s.modCtb row slot col f).regs = s.regs := rfl
@[simp] theorem State.modCtb_tt (s : State) (row slot col : Nat) (f : Ctb → Ctb) : (s.modCtb row slot col f).tt = s.tt := rfl
@[simp] theorem State.modCtb_ttNext (s : State) (row slot col : Nat) (f : Ctb → Ctb) : (s.modCtb row slot col f).ttNext = s.ttNext := rfl
@[simp] theorem State.modCtb_xfers (s : State) (row slot col : Nat) (f : Ctb → Ctb) : (s.modCtb row slot col f).xfers = s.xfers := rfl
@[simp] theorem State.modCtb_requests (s : State) (row slot col : Nat) (f : Ctb → Ctb) : (s.modCtb row slot col f).requests = s.requests := rfl
@[simp] theorem State.modCtb_staged (s : State) (row slot col : Nat) (f : Ctb → Ctb) : (s.modCtb row slot col f).staged = s.staged := rfl
@[simp] theorem State.modCtb_fill (s : State) (row slot col : Nat) (f : Ctb → Ctb) : (s.modCtb row slot col f).fill = s.fill := rfl
@[simp] theorem State.modCtb_fires (s : State) (row slot col : Nat) (f : Ctb → Ctb) : (s.modCtb row slot col f).fires = s.fires := rfl
@[simp] theorem State.modCtb_colls (s : State) (row slot col : Nat) (f : Ctb → Ctb) : (s.modCtb row slot col f).colls = s.colls := rfl
@[simp] theorem State.modCtb_links (s : State) (row slot col : Nat) (f : Ctb → Ctb) : (s.modCtb row slot col f).links = s.links := rfl
@[simp] theorem State.modCtb_freeze (s : State) (row slot col : Nat) (f : Ctb → Ctb) : (s.modCtb row slot col f).freeze = s.freeze := rfl
@[simp] theorem State.modCtb_host (s : State) (row slot col : Nat) (f : Ctb → Ctb) : (s.modCtb row slot col f).host = s.host := rfl
@[simp] theorem State.modCtb_phys (s : State) (row slot col : Nat) (f : Ctb → Ctb) : (s.modCtb row slot col f).phys = s.phys := rfl
@[simp] theorem State.modCtb_trace (s : State) (row slot col : Nat) (f : Ctb → Ctb) : (s.modCtb row slot col f).trace = s.trace := rfl
@[simp] theorem State.modCtb_out (s : State) (row slot col : Nat) (f : Ctb → Ctb) : (s.modCtb row slot col f).out = s.out := rfl
@[simp] theorem State.modCtb_nextId (s : State) (row slot col : Nat) (f : Ctb → Ctb) : (s.modCtb row slot col f).nextId = s.nextId := rfl
@[simp] theorem State.modCtb_free (s : State) (row slot col : Nat) (f : Ctb → Ctb) : (s.modCtb row slot col f).free = s.free := rfl

/-! `modGroup` -/
@[simp] theorem State.modGroup_time (s : State) (row slot col g : Nat) (f : Group → Group) : (s.modGroup row slot col g f).time = s.time := rfl
@[simp] theorem State.modGroup_agenda (s : State) (row slot col g : Nat) (f : Group → Group) : (s.modGroup row slot col g f).agenda = s.agenda := rfl
@[simp] theorem State.modGroup_issue (s : State) (row slot col g : Nat) (f : Group → Group) : (s.modGroup row slot col g f).issue = s.issue := rfl
@[simp] theorem State.modGroup_cur (s : State) (row slot col g : Nat) (f : Group → Group) : (s.modGroup row slot col g f).cur = s.cur := rfl
@[simp] theorem State.modGroup_faults (s : State) (row slot col g : Nat) (f : Group → Group) : (s.modGroup row slot col g f).faults = s.faults := rfl
@[simp] theorem State.modGroup_dram (s : State) (row slot col g : Nat) (f : Group → Group) : (s.modGroup row slot col g f).dram = s.dram := rfl
@[simp] theorem State.modGroup_scrambled (s : State) (row slot col g : Nat) (f : Group → Group) : (s.modGroup row slot col g f).scrambled = s.scrambled := rfl
@[simp] theorem State.modGroup_dfresh (s : State) (row slot col g : Nat) (f : Group → Group) : (s.modGroup row slot col g f).dfresh = s.dfresh := rfl
@[simp] theorem State.modGroup_cores (s : State) (row slot col g : Nat) (f : Group → Group) : (s.modGroup row slot col g f).cores = s.cores := rfl
@[simp] theorem State.modGroup_rows (s : State) (row slot col g : Nat) (f : Group → Group) : (s.modGroup row slot col g f).rows = s.rows := rfl
@[simp] theorem State.modGroup_launches (s : State) (row slot col g : Nat) (f : Group → Group) : (s.modGroup row slot col g f).launches = s.launches := rfl
@[simp] theorem State.modGroup_objs (s : State) (row slot col g : Nat) (f : Group → Group) : (s.modGroup row slot col g f).objs = s.objs := rfl
@[simp] theorem State.modGroup_objRel (s : State) (row slot col g : Nat) (f : Group → Group) : (s.modGroup row slot col g f).objRel = s.objRel := rfl
@[simp] theorem State.modGroup_regs (s : State) (row slot col g : Nat) (f : Group → Group) : (s.modGroup row slot col g f).regs = s.regs := rfl
@[simp] theorem State.modGroup_tt (s : State) (row slot col g : Nat) (f : Group → Group) : (s.modGroup row slot col g f).tt = s.tt := rfl
@[simp] theorem State.modGroup_ttNext (s : State) (row slot col g : Nat) (f : Group → Group) : (s.modGroup row slot col g f).ttNext = s.ttNext := rfl
@[simp] theorem State.modGroup_xfers (s : State) (row slot col g : Nat) (f : Group → Group) : (s.modGroup row slot col g f).xfers = s.xfers := rfl
@[simp] theorem State.modGroup_requests (s : State) (row slot col g : Nat) (f : Group → Group) : (s.modGroup row slot col g f).requests = s.requests := rfl
@[simp] theorem State.modGroup_staged (s : State) (row slot col g : Nat) (f : Group → Group) : (s.modGroup row slot col g f).staged = s.staged := rfl
@[simp] theorem State.modGroup_fill (s : State) (row slot col g : Nat) (f : Group → Group) : (s.modGroup row slot col g f).fill = s.fill := rfl
@[simp] theorem State.modGroup_fires (s : State) (row slot col g : Nat) (f : Group → Group) : (s.modGroup row slot col g f).fires = s.fires := rfl
@[simp] theorem State.modGroup_colls (s : State) (row slot col g : Nat) (f : Group → Group) : (s.modGroup row slot col g f).colls = s.colls := rfl
@[simp] theorem State.modGroup_links (s : State) (row slot col g : Nat) (f : Group → Group) : (s.modGroup row slot col g f).links = s.links := rfl
@[simp] theorem State.modGroup_freeze (s : State) (row slot col g : Nat) (f : Group → Group) : (s.modGroup row slot col g f).freeze = s.freeze := rfl
@[simp] theorem State.modGroup_host (s : State) (row slot col g : Nat) (f : Group → Group) : (s.modGroup row slot col g f).host = s.host := rfl
@[simp] theorem State.modGroup_phys (s : State) (row slot col g : Nat) (f : Group → Group) : (s.modGroup row slot col g f).phys = s.phys := rfl
@[simp] theorem State.modGroup_trace (s : State) (row slot col g : Nat) (f : Group → Group) : (s.modGroup row slot col g f).trace = s.trace := rfl
@[simp] theorem State.modGroup_out (s : State) (row slot col g : Nat) (f : Group → Group) : (s.modGroup row slot col g f).out = s.out := rfl
@[simp] theorem State.modGroup_nextId (s : State) (row slot col g : Nat) (f : Group → Group) : (s.modGroup row slot col g f).nextId = s.nextId := rfl
@[simp] theorem State.modGroup_free (s : State) (row slot col g : Nat) (f : Group → Group) : (s.modGroup row slot col g f).free = s.free := rfl

/-! `modG` -/
@[simp] theorem State.modG_time (s : State) (h : Here) (f : Group → Group) : (s.modG h f).time = s.time := rfl
@[simp] theorem State.modG_agenda (s : State) (h : Here) (f : Group → Group) : (s.modG h f).agenda = s.agenda := rfl
@[simp] theorem State.modG_issue (s : State) (h : Here) (f : Group → Group) : (s.modG h f).issue = s.issue := rfl
@[simp] theorem State.modG_cur (s : State) (h : Here) (f : Group → Group) : (s.modG h f).cur = s.cur := rfl
@[simp] theorem State.modG_faults (s : State) (h : Here) (f : Group → Group) : (s.modG h f).faults = s.faults := rfl
@[simp] theorem State.modG_dram (s : State) (h : Here) (f : Group → Group) : (s.modG h f).dram = s.dram := rfl
@[simp] theorem State.modG_scrambled (s : State) (h : Here) (f : Group → Group) : (s.modG h f).scrambled = s.scrambled := rfl
@[simp] theorem State.modG_dfresh (s : State) (h : Here) (f : Group → Group) : (s.modG h f).dfresh = s.dfresh := rfl
@[simp] theorem State.modG_cores (s : State) (h : Here) (f : Group → Group) : (s.modG h f).cores = s.cores := rfl
@[simp] theorem State.modG_rows (s : State) (h : Here) (f : Group → Group) : (s.modG h f).rows = s.rows := rfl
@[simp] theorem State.modG_launches (s : State) (h : Here) (f : Group → Group) : (s.modG h f).launches = s.launches := rfl
@[simp] theorem State.modG_objs (s : State) (h : Here) (f : Group → Group) : (s.modG h f).objs = s.objs := rfl
@[simp] theorem State.modG_objRel (s : State) (h : Here) (f : Group → Group) : (s.modG h f).objRel = s.objRel := rfl
@[simp] theorem State.modG_regs (s : State) (h : Here) (f : Group → Group) : (s.modG h f).regs = s.regs := rfl
@[simp] theorem State.modG_tt (s : State) (h : Here) (f : Group → Group) : (s.modG h f).tt = s.tt := rfl
@[simp] theorem State.modG_ttNext (s : State) (h : Here) (f : Group → Group) : (s.modG h f).ttNext = s.ttNext := rfl
@[simp] theorem State.modG_xfers (s : State) (h : Here) (f : Group → Group) : (s.modG h f).xfers = s.xfers := rfl
@[simp] theorem State.modG_requests (s : State) (h : Here) (f : Group → Group) : (s.modG h f).requests = s.requests := rfl
@[simp] theorem State.modG_staged (s : State) (h : Here) (f : Group → Group) : (s.modG h f).staged = s.staged := rfl
@[simp] theorem State.modG_fill (s : State) (h : Here) (f : Group → Group) : (s.modG h f).fill = s.fill := rfl
@[simp] theorem State.modG_fires (s : State) (h : Here) (f : Group → Group) : (s.modG h f).fires = s.fires := rfl
@[simp] theorem State.modG_colls (s : State) (h : Here) (f : Group → Group) : (s.modG h f).colls = s.colls := rfl
@[simp] theorem State.modG_links (s : State) (h : Here) (f : Group → Group) : (s.modG h f).links = s.links := rfl
@[simp] theorem State.modG_freeze (s : State) (h : Here) (f : Group → Group) : (s.modG h f).freeze = s.freeze := rfl
@[simp] theorem State.modG_host (s : State) (h : Here) (f : Group → Group) : (s.modG h f).host = s.host := rfl
@[simp] theorem State.modG_phys (s : State) (h : Here) (f : Group → Group) : (s.modG h f).phys = s.phys := rfl
@[simp] theorem State.modG_trace (s : State) (h : Here) (f : Group → Group) : (s.modG h f).trace = s.trace := rfl
@[simp] theorem State.modG_out (s : State) (h : Here) (f : Group → Group) : (s.modG h f).out = s.out := rfl
@[simp] theorem State.modG_nextId (s : State) (h : Here) (f : Group → Group) : (s.modG h f).nextId = s.nextId := rfl
@[simp] theorem State.modG_free (s : State) (h : Here) (f : Group → Group) : (s.modG h f).free = s.free := rfl

/-! `modC` -/
@[simp] theorem State.modC_time (s : State) (h : Here) (f : Ctb → Ctb) : (s.modC h f).time = s.time := rfl
@[simp] theorem State.modC_agenda (s : State) (h : Here) (f : Ctb → Ctb) : (s.modC h f).agenda = s.agenda := rfl
@[simp] theorem State.modC_issue (s : State) (h : Here) (f : Ctb → Ctb) : (s.modC h f).issue = s.issue := rfl
@[simp] theorem State.modC_cur (s : State) (h : Here) (f : Ctb → Ctb) : (s.modC h f).cur = s.cur := rfl
@[simp] theorem State.modC_faults (s : State) (h : Here) (f : Ctb → Ctb) : (s.modC h f).faults = s.faults := rfl
@[simp] theorem State.modC_dram (s : State) (h : Here) (f : Ctb → Ctb) : (s.modC h f).dram = s.dram := rfl
@[simp] theorem State.modC_scrambled (s : State) (h : Here) (f : Ctb → Ctb) : (s.modC h f).scrambled = s.scrambled := rfl
@[simp] theorem State.modC_dfresh (s : State) (h : Here) (f : Ctb → Ctb) : (s.modC h f).dfresh = s.dfresh := rfl
@[simp] theorem State.modC_cores (s : State) (h : Here) (f : Ctb → Ctb) : (s.modC h f).cores = s.cores := rfl
@[simp] theorem State.modC_rows (s : State) (h : Here) (f : Ctb → Ctb) : (s.modC h f).rows = s.rows := rfl
@[simp] theorem State.modC_launches (s : State) (h : Here) (f : Ctb → Ctb) : (s.modC h f).launches = s.launches := rfl
@[simp] theorem State.modC_objs (s : State) (h : Here) (f : Ctb → Ctb) : (s.modC h f).objs = s.objs := rfl
@[simp] theorem State.modC_objRel (s : State) (h : Here) (f : Ctb → Ctb) : (s.modC h f).objRel = s.objRel := rfl
@[simp] theorem State.modC_regs (s : State) (h : Here) (f : Ctb → Ctb) : (s.modC h f).regs = s.regs := rfl
@[simp] theorem State.modC_tt (s : State) (h : Here) (f : Ctb → Ctb) : (s.modC h f).tt = s.tt := rfl
@[simp] theorem State.modC_ttNext (s : State) (h : Here) (f : Ctb → Ctb) : (s.modC h f).ttNext = s.ttNext := rfl
@[simp] theorem State.modC_xfers (s : State) (h : Here) (f : Ctb → Ctb) : (s.modC h f).xfers = s.xfers := rfl
@[simp] theorem State.modC_requests (s : State) (h : Here) (f : Ctb → Ctb) : (s.modC h f).requests = s.requests := rfl
@[simp] theorem State.modC_staged (s : State) (h : Here) (f : Ctb → Ctb) : (s.modC h f).staged = s.staged := rfl
@[simp] theorem State.modC_fill (s : State) (h : Here) (f : Ctb → Ctb) : (s.modC h f).fill = s.fill := rfl
@[simp] theorem State.modC_fires (s : State) (h : Here) (f : Ctb → Ctb) : (s.modC h f).fires = s.fires := rfl
@[simp] theorem State.modC_colls (s : State) (h : Here) (f : Ctb → Ctb) : (s.modC h f).colls = s.colls := rfl
@[simp] theorem State.modC_links (s : State) (h : Here) (f : Ctb → Ctb) : (s.modC h f).links = s.links := rfl
@[simp] theorem State.modC_freeze (s : State) (h : Here) (f : Ctb → Ctb) : (s.modC h f).freeze = s.freeze := rfl
@[simp] theorem State.modC_host (s : State) (h : Here) (f : Ctb → Ctb) : (s.modC h f).host = s.host := rfl
@[simp] theorem State.modC_phys (s : State) (h : Here) (f : Ctb → Ctb) : (s.modC h f).phys = s.phys := rfl
@[simp] theorem State.modC_trace (s : State) (h : Here) (f : Ctb → Ctb) : (s.modC h f).trace = s.trace := rfl
@[simp] theorem State.modC_out (s : State) (h : Here) (f : Ctb → Ctb) : (s.modC h f).out = s.out := rfl
@[simp] theorem State.modC_nextId (s : State) (h : Here) (f : Ctb → Ctb) : (s.modC h f).nextId = s.nextId := rfl
@[simp] theorem State.modC_free (s : State) (h : Here) (f : Ctb → Ctb) : (s.modC h f).free = s.free := rfl

/-! `modRG` -/
@[simp] theorem State.modRG_time (s : State) (h : Here) (f : RGroup → RGroup) : (s.modRG h f).time = s.time := rfl
@[simp] theorem State.modRG_agenda (s : State) (h : Here) (f : RGroup → RGroup) : (s.modRG h f).agenda = s.agenda := rfl
@[simp] theorem State.modRG_issue (s : State) (h : Here) (f : RGroup → RGroup) : (s.modRG h f).issue = s.issue := rfl
@[simp] theorem State.modRG_cur (s : State) (h : Here) (f : RGroup → RGroup) : (s.modRG h f).cur = s.cur := rfl
@[simp] theorem State.modRG_faults (s : State) (h : Here) (f : RGroup → RGroup) : (s.modRG h f).faults = s.faults := rfl
@[simp] theorem State.modRG_dram (s : State) (h : Here) (f : RGroup → RGroup) : (s.modRG h f).dram = s.dram := rfl
@[simp] theorem State.modRG_scrambled (s : State) (h : Here) (f : RGroup → RGroup) : (s.modRG h f).scrambled = s.scrambled := rfl
@[simp] theorem State.modRG_dfresh (s : State) (h : Here) (f : RGroup → RGroup) : (s.modRG h f).dfresh = s.dfresh := rfl
@[simp] theorem State.modRG_cores (s : State) (h : Here) (f : RGroup → RGroup) : (s.modRG h f).cores = s.cores := rfl
@[simp] theorem State.modRG_rows (s : State) (h : Here) (f : RGroup → RGroup) : (s.modRG h f).rows = s.rows := rfl
@[simp] theorem State.modRG_launches (s : State) (h : Here) (f : RGroup → RGroup) : (s.modRG h f).launches = s.launches := rfl
@[simp] theorem State.modRG_objs (s : State) (h : Here) (f : RGroup → RGroup) : (s.modRG h f).objs = s.objs := rfl
@[simp] theorem State.modRG_objRel (s : State) (h : Here) (f : RGroup → RGroup) : (s.modRG h f).objRel = s.objRel := rfl
@[simp] theorem State.modRG_regs (s : State) (h : Here) (f : RGroup → RGroup) : (s.modRG h f).regs = s.regs := rfl
@[simp] theorem State.modRG_tt (s : State) (h : Here) (f : RGroup → RGroup) : (s.modRG h f).tt = s.tt := rfl
@[simp] theorem State.modRG_ttNext (s : State) (h : Here) (f : RGroup → RGroup) : (s.modRG h f).ttNext = s.ttNext := rfl
@[simp] theorem State.modRG_xfers (s : State) (h : Here) (f : RGroup → RGroup) : (s.modRG h f).xfers = s.xfers := rfl
@[simp] theorem State.modRG_requests (s : State) (h : Here) (f : RGroup → RGroup) : (s.modRG h f).requests = s.requests := rfl
@[simp] theorem State.modRG_staged (s : State) (h : Here) (f : RGroup → RGroup) : (s.modRG h f).staged = s.staged := rfl
@[simp] theorem State.modRG_fill (s : State) (h : Here) (f : RGroup → RGroup) : (s.modRG h f).fill = s.fill := rfl
@[simp] theorem State.modRG_fires (s : State) (h : Here) (f : RGroup → RGroup) : (s.modRG h f).fires = s.fires := rfl
@[simp] theorem State.modRG_colls (s : State) (h : Here) (f : RGroup → RGroup) : (s.modRG h f).colls = s.colls := rfl
@[simp] theorem State.modRG_links (s : State) (h : Here) (f : RGroup → RGroup) : (s.modRG h f).links = s.links := rfl
@[simp] theorem State.modRG_freeze (s : State) (h : Here) (f : RGroup → RGroup) : (s.modRG h f).freeze = s.freeze := rfl
@[simp] theorem State.modRG_host (s : State) (h : Here) (f : RGroup → RGroup) : (s.modRG h f).host = s.host := rfl
@[simp] theorem State.modRG_phys (s : State) (h : Here) (f : RGroup → RGroup) : (s.modRG h f).phys = s.phys := rfl
@[simp] theorem State.modRG_trace (s : State) (h : Here) (f : RGroup → RGroup) : (s.modRG h f).trace = s.trace := rfl
@[simp] theorem State.modRG_out (s : State) (h : Here) (f : RGroup → RGroup) : (s.modRG h f).out = s.out := rfl
@[simp] theorem State.modRG_nextId (s : State) (h : Here) (f : RGroup → RGroup) : (s.modRG h f).nextId = s.nextId := rfl
@[simp] theorem State.modRG_free (s : State) (h : Here) (f : RGroup → RGroup) : (s.modRG h f).free = s.free := rfl

/-! `setK` -/
@[simp] theorem State.setK_time (s : State) (h : Here) (n : BitVec 6) (v : DWord) : (s.setK h n v).time = s.time := rfl
@[simp] theorem State.setK_agenda (s : State) (h : Here) (n : BitVec 6) (v : DWord) : (s.setK h n v).agenda = s.agenda := rfl
@[simp] theorem State.setK_issue (s : State) (h : Here) (n : BitVec 6) (v : DWord) : (s.setK h n v).issue = s.issue := rfl
@[simp] theorem State.setK_cur (s : State) (h : Here) (n : BitVec 6) (v : DWord) : (s.setK h n v).cur = s.cur := rfl
@[simp] theorem State.setK_faults (s : State) (h : Here) (n : BitVec 6) (v : DWord) : (s.setK h n v).faults = s.faults := rfl
@[simp] theorem State.setK_dram (s : State) (h : Here) (n : BitVec 6) (v : DWord) : (s.setK h n v).dram = s.dram := rfl
@[simp] theorem State.setK_scrambled (s : State) (h : Here) (n : BitVec 6) (v : DWord) : (s.setK h n v).scrambled = s.scrambled := rfl
@[simp] theorem State.setK_dfresh (s : State) (h : Here) (n : BitVec 6) (v : DWord) : (s.setK h n v).dfresh = s.dfresh := rfl
@[simp] theorem State.setK_cores (s : State) (h : Here) (n : BitVec 6) (v : DWord) : (s.setK h n v).cores = s.cores := rfl
@[simp] theorem State.setK_rows (s : State) (h : Here) (n : BitVec 6) (v : DWord) : (s.setK h n v).rows = s.rows := rfl
@[simp] theorem State.setK_launches (s : State) (h : Here) (n : BitVec 6) (v : DWord) : (s.setK h n v).launches = s.launches := rfl
@[simp] theorem State.setK_objs (s : State) (h : Here) (n : BitVec 6) (v : DWord) : (s.setK h n v).objs = s.objs := rfl
@[simp] theorem State.setK_objRel (s : State) (h : Here) (n : BitVec 6) (v : DWord) : (s.setK h n v).objRel = s.objRel := rfl
@[simp] theorem State.setK_regs (s : State) (h : Here) (n : BitVec 6) (v : DWord) : (s.setK h n v).regs = s.regs := rfl
@[simp] theorem State.setK_tt (s : State) (h : Here) (n : BitVec 6) (v : DWord) : (s.setK h n v).tt = s.tt := rfl
@[simp] theorem State.setK_ttNext (s : State) (h : Here) (n : BitVec 6) (v : DWord) : (s.setK h n v).ttNext = s.ttNext := rfl
@[simp] theorem State.setK_xfers (s : State) (h : Here) (n : BitVec 6) (v : DWord) : (s.setK h n v).xfers = s.xfers := rfl
@[simp] theorem State.setK_requests (s : State) (h : Here) (n : BitVec 6) (v : DWord) : (s.setK h n v).requests = s.requests := rfl
@[simp] theorem State.setK_staged (s : State) (h : Here) (n : BitVec 6) (v : DWord) : (s.setK h n v).staged = s.staged := rfl
@[simp] theorem State.setK_fill (s : State) (h : Here) (n : BitVec 6) (v : DWord) : (s.setK h n v).fill = s.fill := rfl
@[simp] theorem State.setK_fires (s : State) (h : Here) (n : BitVec 6) (v : DWord) : (s.setK h n v).fires = s.fires := rfl
@[simp] theorem State.setK_colls (s : State) (h : Here) (n : BitVec 6) (v : DWord) : (s.setK h n v).colls = s.colls := rfl
@[simp] theorem State.setK_links (s : State) (h : Here) (n : BitVec 6) (v : DWord) : (s.setK h n v).links = s.links := rfl
@[simp] theorem State.setK_freeze (s : State) (h : Here) (n : BitVec 6) (v : DWord) : (s.setK h n v).freeze = s.freeze := rfl
@[simp] theorem State.setK_host (s : State) (h : Here) (n : BitVec 6) (v : DWord) : (s.setK h n v).host = s.host := rfl
@[simp] theorem State.setK_phys (s : State) (h : Here) (n : BitVec 6) (v : DWord) : (s.setK h n v).phys = s.phys := rfl
@[simp] theorem State.setK_trace (s : State) (h : Here) (n : BitVec 6) (v : DWord) : (s.setK h n v).trace = s.trace := rfl
@[simp] theorem State.setK_out (s : State) (h : Here) (n : BitVec 6) (v : DWord) : (s.setK h n v).out = s.out := rfl
@[simp] theorem State.setK_nextId (s : State) (h : Here) (n : BitVec 6) (v : DWord) : (s.setK h n v).nextId = s.nextId := rfl
@[simp] theorem State.setK_free (s : State) (h : Here) (n : BitVec 6) (v : DWord) : (s.setK h n v).free = s.free := rfl

/-! `goto` -/
@[simp] theorem State.goto_time (s : State) (h : Here) (npc : DWord) : (s.goto h npc).time = s.time := rfl
@[simp] theorem State.goto_agenda (s : State) (h : Here) (npc : DWord) : (s.goto h npc).agenda = s.agenda := rfl
@[simp] theorem State.goto_issue (s : State) (h : Here) (npc : DWord) : (s.goto h npc).issue = s.issue := rfl
@[simp] theorem State.goto_cur (s : State) (h : Here) (npc : DWord) : (s.goto h npc).cur = s.cur := rfl
@[simp] theorem State.goto_faults (s : State) (h : Here) (npc : DWord) : (s.goto h npc).faults = s.faults := rfl
@[simp] theorem State.goto_dram (s : State) (h : Here) (npc : DWord) : (s.goto h npc).dram = s.dram := rfl
@[simp] theorem State.goto_scrambled (s : State) (h : Here) (npc : DWord) : (s.goto h npc).scrambled = s.scrambled := rfl
@[simp] theorem State.goto_dfresh (s : State) (h : Here) (npc : DWord) : (s.goto h npc).dfresh = s.dfresh := rfl
@[simp] theorem State.goto_cores (s : State) (h : Here) (npc : DWord) : (s.goto h npc).cores = s.cores := rfl
@[simp] theorem State.goto_rows (s : State) (h : Here) (npc : DWord) : (s.goto h npc).rows = s.rows := rfl
@[simp] theorem State.goto_launches (s : State) (h : Here) (npc : DWord) : (s.goto h npc).launches = s.launches := rfl
@[simp] theorem State.goto_objs (s : State) (h : Here) (npc : DWord) : (s.goto h npc).objs = s.objs := rfl
@[simp] theorem State.goto_objRel (s : State) (h : Here) (npc : DWord) : (s.goto h npc).objRel = s.objRel := rfl
@[simp] theorem State.goto_regs (s : State) (h : Here) (npc : DWord) : (s.goto h npc).regs = s.regs := rfl
@[simp] theorem State.goto_tt (s : State) (h : Here) (npc : DWord) : (s.goto h npc).tt = s.tt := rfl
@[simp] theorem State.goto_ttNext (s : State) (h : Here) (npc : DWord) : (s.goto h npc).ttNext = s.ttNext := rfl
@[simp] theorem State.goto_xfers (s : State) (h : Here) (npc : DWord) : (s.goto h npc).xfers = s.xfers := rfl
@[simp] theorem State.goto_requests (s : State) (h : Here) (npc : DWord) : (s.goto h npc).requests = s.requests := rfl
@[simp] theorem State.goto_staged (s : State) (h : Here) (npc : DWord) : (s.goto h npc).staged = s.staged := rfl
@[simp] theorem State.goto_fill (s : State) (h : Here) (npc : DWord) : (s.goto h npc).fill = s.fill := rfl
@[simp] theorem State.goto_fires (s : State) (h : Here) (npc : DWord) : (s.goto h npc).fires = s.fires := rfl
@[simp] theorem State.goto_colls (s : State) (h : Here) (npc : DWord) : (s.goto h npc).colls = s.colls := rfl
@[simp] theorem State.goto_links (s : State) (h : Here) (npc : DWord) : (s.goto h npc).links = s.links := rfl
@[simp] theorem State.goto_freeze (s : State) (h : Here) (npc : DWord) : (s.goto h npc).freeze = s.freeze := rfl
@[simp] theorem State.goto_host (s : State) (h : Here) (npc : DWord) : (s.goto h npc).host = s.host := rfl
@[simp] theorem State.goto_phys (s : State) (h : Here) (npc : DWord) : (s.goto h npc).phys = s.phys := rfl
@[simp] theorem State.goto_trace (s : State) (h : Here) (npc : DWord) : (s.goto h npc).trace = s.trace := rfl
@[simp] theorem State.goto_out (s : State) (h : Here) (npc : DWord) : (s.goto h npc).out = s.out := rfl
@[simp] theorem State.goto_nextId (s : State) (h : Here) (npc : DWord) : (s.goto h npc).nextId = s.nextId := rfl
@[simp] theorem State.goto_free (s : State) (h : Here) (npc : DWord) : (s.goto h npc).free = s.free := rfl

/-! `complete` -/
@[simp] theorem State.complete_time (s : State) (h : Here) : (s.complete h).time = s.time := rfl
@[simp] theorem State.complete_agenda (s : State) (h : Here) : (s.complete h).agenda = s.agenda := rfl
@[simp] theorem State.complete_issue (s : State) (h : Here) : (s.complete h).issue = s.issue := rfl
@[simp] theorem State.complete_cur (s : State) (h : Here) : (s.complete h).cur = s.cur := rfl
@[simp] theorem State.complete_faults (s : State) (h : Here) : (s.complete h).faults = s.faults := rfl
@[simp] theorem State.complete_dram (s : State) (h : Here) : (s.complete h).dram = s.dram := rfl
@[simp] theorem State.complete_scrambled (s : State) (h : Here) : (s.complete h).scrambled = s.scrambled := rfl
@[simp] theorem State.complete_dfresh (s : State) (h : Here) : (s.complete h).dfresh = s.dfresh := rfl
@[simp] theorem State.complete_cores (s : State) (h : Here) : (s.complete h).cores = s.cores := rfl
@[simp] theorem State.complete_rows (s : State) (h : Here) : (s.complete h).rows = s.rows := rfl
@[simp] theorem State.complete_launches (s : State) (h : Here) : (s.complete h).launches = s.launches := rfl
@[simp] theorem State.complete_objs (s : State) (h : Here) : (s.complete h).objs = s.objs := rfl
@[simp] theorem State.complete_objRel (s : State) (h : Here) : (s.complete h).objRel = s.objRel := rfl
@[simp] theorem State.complete_regs (s : State) (h : Here) : (s.complete h).regs = s.regs := rfl
@[simp] theorem State.complete_tt (s : State) (h : Here) : (s.complete h).tt = s.tt := rfl
@[simp] theorem State.complete_ttNext (s : State) (h : Here) : (s.complete h).ttNext = s.ttNext := rfl
@[simp] theorem State.complete_xfers (s : State) (h : Here) : (s.complete h).xfers = s.xfers := rfl
@[simp] theorem State.complete_requests (s : State) (h : Here) : (s.complete h).requests = s.requests := rfl
@[simp] theorem State.complete_staged (s : State) (h : Here) : (s.complete h).staged = s.staged := rfl
@[simp] theorem State.complete_fill (s : State) (h : Here) : (s.complete h).fill = s.fill := rfl
@[simp] theorem State.complete_fires (s : State) (h : Here) : (s.complete h).fires = s.fires := rfl
@[simp] theorem State.complete_colls (s : State) (h : Here) : (s.complete h).colls = s.colls := rfl
@[simp] theorem State.complete_links (s : State) (h : Here) : (s.complete h).links = s.links := rfl
@[simp] theorem State.complete_freeze (s : State) (h : Here) : (s.complete h).freeze = s.freeze := rfl
@[simp] theorem State.complete_host (s : State) (h : Here) : (s.complete h).host = s.host := rfl
@[simp] theorem State.complete_phys (s : State) (h : Here) : (s.complete h).phys = s.phys := rfl
@[simp] theorem State.complete_trace (s : State) (h : Here) : (s.complete h).trace = s.trace := rfl
@[simp] theorem State.complete_out (s : State) (h : Here) : (s.complete h).out = s.out := rfl
@[simp] theorem State.complete_nextId (s : State) (h : Here) : (s.complete h).nextId = s.nextId := rfl
@[simp] theorem State.complete_free (s : State) (h : Here) : (s.complete h).free = s.free := rfl

/-! `modLaunch` -/
@[simp] theorem State.modLaunch_time (s : State) (id : Nat) (f : Launch → Launch) : (s.modLaunch id f).time = s.time := rfl
@[simp] theorem State.modLaunch_agenda (s : State) (id : Nat) (f : Launch → Launch) : (s.modLaunch id f).agenda = s.agenda := rfl
@[simp] theorem State.modLaunch_issue (s : State) (id : Nat) (f : Launch → Launch) : (s.modLaunch id f).issue = s.issue := rfl
@[simp] theorem State.modLaunch_cur (s : State) (id : Nat) (f : Launch → Launch) : (s.modLaunch id f).cur = s.cur := rfl
@[simp] theorem State.modLaunch_faults (s : State) (id : Nat) (f : Launch → Launch) : (s.modLaunch id f).faults = s.faults := rfl
@[simp] theorem State.modLaunch_dram (s : State) (id : Nat) (f : Launch → Launch) : (s.modLaunch id f).dram = s.dram := rfl
@[simp] theorem State.modLaunch_scrambled (s : State) (id : Nat) (f : Launch → Launch) : (s.modLaunch id f).scrambled = s.scrambled := rfl
@[simp] theorem State.modLaunch_dfresh (s : State) (id : Nat) (f : Launch → Launch) : (s.modLaunch id f).dfresh = s.dfresh := rfl
@[simp] theorem State.modLaunch_cores (s : State) (id : Nat) (f : Launch → Launch) : (s.modLaunch id f).cores = s.cores := rfl
@[simp] theorem State.modLaunch_reaches (s : State) (id : Nat) (f : Launch → Launch) : (s.modLaunch id f).reaches = s.reaches := rfl
@[simp] theorem State.modLaunch_rows (s : State) (id : Nat) (f : Launch → Launch) : (s.modLaunch id f).rows = s.rows := rfl
@[simp] theorem State.modLaunch_objs (s : State) (id : Nat) (f : Launch → Launch) : (s.modLaunch id f).objs = s.objs := rfl
@[simp] theorem State.modLaunch_objRel (s : State) (id : Nat) (f : Launch → Launch) : (s.modLaunch id f).objRel = s.objRel := rfl
@[simp] theorem State.modLaunch_regs (s : State) (id : Nat) (f : Launch → Launch) : (s.modLaunch id f).regs = s.regs := rfl
@[simp] theorem State.modLaunch_tt (s : State) (id : Nat) (f : Launch → Launch) : (s.modLaunch id f).tt = s.tt := rfl
@[simp] theorem State.modLaunch_ttNext (s : State) (id : Nat) (f : Launch → Launch) : (s.modLaunch id f).ttNext = s.ttNext := rfl
@[simp] theorem State.modLaunch_xfers (s : State) (id : Nat) (f : Launch → Launch) : (s.modLaunch id f).xfers = s.xfers := rfl
@[simp] theorem State.modLaunch_requests (s : State) (id : Nat) (f : Launch → Launch) : (s.modLaunch id f).requests = s.requests := rfl
@[simp] theorem State.modLaunch_staged (s : State) (id : Nat) (f : Launch → Launch) : (s.modLaunch id f).staged = s.staged := rfl
@[simp] theorem State.modLaunch_fill (s : State) (id : Nat) (f : Launch → Launch) : (s.modLaunch id f).fill = s.fill := rfl
@[simp] theorem State.modLaunch_fires (s : State) (id : Nat) (f : Launch → Launch) : (s.modLaunch id f).fires = s.fires := rfl
@[simp] theorem State.modLaunch_colls (s : State) (id : Nat) (f : Launch → Launch) : (s.modLaunch id f).colls = s.colls := rfl
@[simp] theorem State.modLaunch_links (s : State) (id : Nat) (f : Launch → Launch) : (s.modLaunch id f).links = s.links := rfl
@[simp] theorem State.modLaunch_freeze (s : State) (id : Nat) (f : Launch → Launch) : (s.modLaunch id f).freeze = s.freeze := rfl
@[simp] theorem State.modLaunch_host (s : State) (id : Nat) (f : Launch → Launch) : (s.modLaunch id f).host = s.host := rfl
@[simp] theorem State.modLaunch_phys (s : State) (id : Nat) (f : Launch → Launch) : (s.modLaunch id f).phys = s.phys := rfl
@[simp] theorem State.modLaunch_trace (s : State) (id : Nat) (f : Launch → Launch) : (s.modLaunch id f).trace = s.trace := rfl
@[simp] theorem State.modLaunch_out (s : State) (id : Nat) (f : Launch → Launch) : (s.modLaunch id f).out = s.out := rfl
@[simp] theorem State.modLaunch_nextId (s : State) (id : Nat) (f : Launch → Launch) : (s.modLaunch id f).nextId = s.nextId := rfl
@[simp] theorem State.modLaunch_free (s : State) (id : Nat) (f : Launch → Launch) : (s.modLaunch id f).free = s.free := rfl

/-! `schedule` -/
@[simp] theorem State.schedule_time (s : State) (tide cls : Nat) (t : Task) : (s.schedule tide cls t).time = s.time := rfl
@[simp] theorem State.schedule_issue (s : State) (tide cls : Nat) (t : Task) : (s.schedule tide cls t).issue = s.issue := rfl
@[simp] theorem State.schedule_cur (s : State) (tide cls : Nat) (t : Task) : (s.schedule tide cls t).cur = s.cur := rfl
@[simp] theorem State.schedule_faults (s : State) (tide cls : Nat) (t : Task) : (s.schedule tide cls t).faults = s.faults := rfl
@[simp] theorem State.schedule_dram (s : State) (tide cls : Nat) (t : Task) : (s.schedule tide cls t).dram = s.dram := rfl
@[simp] theorem State.schedule_scrambled (s : State) (tide cls : Nat) (t : Task) : (s.schedule tide cls t).scrambled = s.scrambled := rfl
@[simp] theorem State.schedule_dfresh (s : State) (tide cls : Nat) (t : Task) : (s.schedule tide cls t).dfresh = s.dfresh := rfl
@[simp] theorem State.schedule_cores (s : State) (tide cls : Nat) (t : Task) : (s.schedule tide cls t).cores = s.cores := rfl
@[simp] theorem State.schedule_reaches (s : State) (tide cls : Nat) (t : Task) : (s.schedule tide cls t).reaches = s.reaches := rfl
@[simp] theorem State.schedule_rows (s : State) (tide cls : Nat) (t : Task) : (s.schedule tide cls t).rows = s.rows := rfl
@[simp] theorem State.schedule_launches (s : State) (tide cls : Nat) (t : Task) : (s.schedule tide cls t).launches = s.launches := rfl
@[simp] theorem State.schedule_objs (s : State) (tide cls : Nat) (t : Task) : (s.schedule tide cls t).objs = s.objs := rfl
@[simp] theorem State.schedule_objRel (s : State) (tide cls : Nat) (t : Task) : (s.schedule tide cls t).objRel = s.objRel := rfl
@[simp] theorem State.schedule_regs (s : State) (tide cls : Nat) (t : Task) : (s.schedule tide cls t).regs = s.regs := rfl
@[simp] theorem State.schedule_tt (s : State) (tide cls : Nat) (t : Task) : (s.schedule tide cls t).tt = s.tt := rfl
@[simp] theorem State.schedule_ttNext (s : State) (tide cls : Nat) (t : Task) : (s.schedule tide cls t).ttNext = s.ttNext := rfl
@[simp] theorem State.schedule_xfers (s : State) (tide cls : Nat) (t : Task) : (s.schedule tide cls t).xfers = s.xfers := rfl
@[simp] theorem State.schedule_requests (s : State) (tide cls : Nat) (t : Task) : (s.schedule tide cls t).requests = s.requests := rfl
@[simp] theorem State.schedule_staged (s : State) (tide cls : Nat) (t : Task) : (s.schedule tide cls t).staged = s.staged := rfl
@[simp] theorem State.schedule_fill (s : State) (tide cls : Nat) (t : Task) : (s.schedule tide cls t).fill = s.fill := rfl
@[simp] theorem State.schedule_fires (s : State) (tide cls : Nat) (t : Task) : (s.schedule tide cls t).fires = s.fires := rfl
@[simp] theorem State.schedule_colls (s : State) (tide cls : Nat) (t : Task) : (s.schedule tide cls t).colls = s.colls := rfl
@[simp] theorem State.schedule_links (s : State) (tide cls : Nat) (t : Task) : (s.schedule tide cls t).links = s.links := rfl
@[simp] theorem State.schedule_freeze (s : State) (tide cls : Nat) (t : Task) : (s.schedule tide cls t).freeze = s.freeze := rfl
@[simp] theorem State.schedule_host (s : State) (tide cls : Nat) (t : Task) : (s.schedule tide cls t).host = s.host := rfl
@[simp] theorem State.schedule_phys (s : State) (tide cls : Nat) (t : Task) : (s.schedule tide cls t).phys = s.phys := rfl
@[simp] theorem State.schedule_trace (s : State) (tide cls : Nat) (t : Task) : (s.schedule tide cls t).trace = s.trace := rfl
@[simp] theorem State.schedule_out (s : State) (tide cls : Nat) (t : Task) : (s.schedule tide cls t).out = s.out := rfl
@[simp] theorem State.schedule_nextId (s : State) (tide cls : Nat) (t : Task) : (s.schedule tide cls t).nextId = s.nextId := rfl
@[simp] theorem State.schedule_free (s : State) (tide cls : Nat) (t : Task) : (s.schedule tide cls t).free = s.free := rfl

/-! `later` -/
@[simp] theorem State.later_time (s : State) (tide cls : Nat) (i : Instr) : (s.later tide cls i).time = s.time := rfl
@[simp] theorem State.later_issue (s : State) (tide cls : Nat) (i : Instr) : (s.later tide cls i).issue = s.issue := rfl
@[simp] theorem State.later_cur (s : State) (tide cls : Nat) (i : Instr) : (s.later tide cls i).cur = s.cur := rfl
@[simp] theorem State.later_faults (s : State) (tide cls : Nat) (i : Instr) : (s.later tide cls i).faults = s.faults := rfl
@[simp] theorem State.later_dram (s : State) (tide cls : Nat) (i : Instr) : (s.later tide cls i).dram = s.dram := rfl
@[simp] theorem State.later_scrambled (s : State) (tide cls : Nat) (i : Instr) : (s.later tide cls i).scrambled = s.scrambled := rfl
@[simp] theorem State.later_dfresh (s : State) (tide cls : Nat) (i : Instr) : (s.later tide cls i).dfresh = s.dfresh := rfl
@[simp] theorem State.later_cores (s : State) (tide cls : Nat) (i : Instr) : (s.later tide cls i).cores = s.cores := rfl
@[simp] theorem State.later_reaches (s : State) (tide cls : Nat) (i : Instr) : (s.later tide cls i).reaches = s.reaches := rfl
@[simp] theorem State.later_rows (s : State) (tide cls : Nat) (i : Instr) : (s.later tide cls i).rows = s.rows := rfl
@[simp] theorem State.later_launches (s : State) (tide cls : Nat) (i : Instr) : (s.later tide cls i).launches = s.launches := rfl
@[simp] theorem State.later_objs (s : State) (tide cls : Nat) (i : Instr) : (s.later tide cls i).objs = s.objs := rfl
@[simp] theorem State.later_objRel (s : State) (tide cls : Nat) (i : Instr) : (s.later tide cls i).objRel = s.objRel := rfl
@[simp] theorem State.later_regs (s : State) (tide cls : Nat) (i : Instr) : (s.later tide cls i).regs = s.regs := rfl
@[simp] theorem State.later_tt (s : State) (tide cls : Nat) (i : Instr) : (s.later tide cls i).tt = s.tt := rfl
@[simp] theorem State.later_ttNext (s : State) (tide cls : Nat) (i : Instr) : (s.later tide cls i).ttNext = s.ttNext := rfl
@[simp] theorem State.later_xfers (s : State) (tide cls : Nat) (i : Instr) : (s.later tide cls i).xfers = s.xfers := rfl
@[simp] theorem State.later_requests (s : State) (tide cls : Nat) (i : Instr) : (s.later tide cls i).requests = s.requests := rfl
@[simp] theorem State.later_staged (s : State) (tide cls : Nat) (i : Instr) : (s.later tide cls i).staged = s.staged := rfl
@[simp] theorem State.later_fill (s : State) (tide cls : Nat) (i : Instr) : (s.later tide cls i).fill = s.fill := rfl
@[simp] theorem State.later_fires (s : State) (tide cls : Nat) (i : Instr) : (s.later tide cls i).fires = s.fires := rfl
@[simp] theorem State.later_colls (s : State) (tide cls : Nat) (i : Instr) : (s.later tide cls i).colls = s.colls := rfl
@[simp] theorem State.later_links (s : State) (tide cls : Nat) (i : Instr) : (s.later tide cls i).links = s.links := rfl
@[simp] theorem State.later_freeze (s : State) (tide cls : Nat) (i : Instr) : (s.later tide cls i).freeze = s.freeze := rfl
@[simp] theorem State.later_host (s : State) (tide cls : Nat) (i : Instr) : (s.later tide cls i).host = s.host := rfl
@[simp] theorem State.later_phys (s : State) (tide cls : Nat) (i : Instr) : (s.later tide cls i).phys = s.phys := rfl
@[simp] theorem State.later_trace (s : State) (tide cls : Nat) (i : Instr) : (s.later tide cls i).trace = s.trace := rfl
@[simp] theorem State.later_out (s : State) (tide cls : Nat) (i : Instr) : (s.later tide cls i).out = s.out := rfl
@[simp] theorem State.later_nextId (s : State) (tide cls : Nat) (i : Instr) : (s.later tide cls i).nextId = s.nextId := rfl
@[simp] theorem State.later_free (s : State) (tide cls : Nat) (i : Instr) : (s.later tide cls i).free = s.free := rfl

/-! `report` -/
@[simp] theorem State.report_time (s : State) (o : Out) : (s.report o).time = s.time := rfl
@[simp] theorem State.report_agenda (s : State) (o : Out) : (s.report o).agenda = s.agenda := rfl
@[simp] theorem State.report_issue (s : State) (o : Out) : (s.report o).issue = s.issue := rfl
@[simp] theorem State.report_cur (s : State) (o : Out) : (s.report o).cur = s.cur := rfl
@[simp] theorem State.report_faults (s : State) (o : Out) : (s.report o).faults = s.faults := rfl
@[simp] theorem State.report_dram (s : State) (o : Out) : (s.report o).dram = s.dram := rfl
@[simp] theorem State.report_scrambled (s : State) (o : Out) : (s.report o).scrambled = s.scrambled := rfl
@[simp] theorem State.report_dfresh (s : State) (o : Out) : (s.report o).dfresh = s.dfresh := rfl
@[simp] theorem State.report_cores (s : State) (o : Out) : (s.report o).cores = s.cores := rfl
@[simp] theorem State.report_reaches (s : State) (o : Out) : (s.report o).reaches = s.reaches := rfl
@[simp] theorem State.report_rows (s : State) (o : Out) : (s.report o).rows = s.rows := rfl
@[simp] theorem State.report_launches (s : State) (o : Out) : (s.report o).launches = s.launches := rfl
@[simp] theorem State.report_objs (s : State) (o : Out) : (s.report o).objs = s.objs := rfl
@[simp] theorem State.report_objRel (s : State) (o : Out) : (s.report o).objRel = s.objRel := rfl
@[simp] theorem State.report_regs (s : State) (o : Out) : (s.report o).regs = s.regs := rfl
@[simp] theorem State.report_tt (s : State) (o : Out) : (s.report o).tt = s.tt := rfl
@[simp] theorem State.report_ttNext (s : State) (o : Out) : (s.report o).ttNext = s.ttNext := rfl
@[simp] theorem State.report_xfers (s : State) (o : Out) : (s.report o).xfers = s.xfers := rfl
@[simp] theorem State.report_requests (s : State) (o : Out) : (s.report o).requests = s.requests := rfl
@[simp] theorem State.report_staged (s : State) (o : Out) : (s.report o).staged = s.staged := rfl
@[simp] theorem State.report_fill (s : State) (o : Out) : (s.report o).fill = s.fill := rfl
@[simp] theorem State.report_fires (s : State) (o : Out) : (s.report o).fires = s.fires := rfl
@[simp] theorem State.report_colls (s : State) (o : Out) : (s.report o).colls = s.colls := rfl
@[simp] theorem State.report_links (s : State) (o : Out) : (s.report o).links = s.links := rfl
@[simp] theorem State.report_freeze (s : State) (o : Out) : (s.report o).freeze = s.freeze := rfl
@[simp] theorem State.report_host (s : State) (o : Out) : (s.report o).host = s.host := rfl
@[simp] theorem State.report_phys (s : State) (o : Out) : (s.report o).phys = s.phys := rfl
@[simp] theorem State.report_trace (s : State) (o : Out) : (s.report o).trace = s.trace := rfl
@[simp] theorem State.report_nextId (s : State) (o : Out) : (s.report o).nextId = s.nextId := rfl
@[simp] theorem State.report_free (s : State) (o : Out) : (s.report o).free = s.free := rfl

/-! `raise` -/
@[simp] theorem State.raise_time (s : State) (h : Here) (c : Nat) (a : DWord) : (s.raise h c a).time = s.time := rfl
@[simp] theorem State.raise_agenda (s : State) (h : Here) (c : Nat) (a : DWord) : (s.raise h c a).agenda = s.agenda := rfl
@[simp] theorem State.raise_issue (s : State) (h : Here) (c : Nat) (a : DWord) : (s.raise h c a).issue = s.issue := rfl
@[simp] theorem State.raise_cur (s : State) (h : Here) (c : Nat) (a : DWord) : (s.raise h c a).cur = s.cur := rfl
@[simp] theorem State.raise_dram (s : State) (h : Here) (c : Nat) (a : DWord) : (s.raise h c a).dram = s.dram := rfl
@[simp] theorem State.raise_scrambled (s : State) (h : Here) (c : Nat) (a : DWord) : (s.raise h c a).scrambled = s.scrambled := rfl
@[simp] theorem State.raise_dfresh (s : State) (h : Here) (c : Nat) (a : DWord) : (s.raise h c a).dfresh = s.dfresh := rfl
@[simp] theorem State.raise_cores (s : State) (h : Here) (c : Nat) (a : DWord) : (s.raise h c a).cores = s.cores := rfl
@[simp] theorem State.raise_rows (s : State) (h : Here) (c : Nat) (a : DWord) : (s.raise h c a).rows = s.rows := rfl
@[simp] theorem State.raise_launches (s : State) (h : Here) (c : Nat) (a : DWord) : (s.raise h c a).launches = s.launches := rfl
@[simp] theorem State.raise_objs (s : State) (h : Here) (c : Nat) (a : DWord) : (s.raise h c a).objs = s.objs := rfl
@[simp] theorem State.raise_objRel (s : State) (h : Here) (c : Nat) (a : DWord) : (s.raise h c a).objRel = s.objRel := rfl
@[simp] theorem State.raise_regs (s : State) (h : Here) (c : Nat) (a : DWord) : (s.raise h c a).regs = s.regs := rfl
@[simp] theorem State.raise_tt (s : State) (h : Here) (c : Nat) (a : DWord) : (s.raise h c a).tt = s.tt := rfl
@[simp] theorem State.raise_ttNext (s : State) (h : Here) (c : Nat) (a : DWord) : (s.raise h c a).ttNext = s.ttNext := rfl
@[simp] theorem State.raise_xfers (s : State) (h : Here) (c : Nat) (a : DWord) : (s.raise h c a).xfers = s.xfers := rfl
@[simp] theorem State.raise_requests (s : State) (h : Here) (c : Nat) (a : DWord) : (s.raise h c a).requests = s.requests := rfl
@[simp] theorem State.raise_staged (s : State) (h : Here) (c : Nat) (a : DWord) : (s.raise h c a).staged = s.staged := rfl
@[simp] theorem State.raise_fill (s : State) (h : Here) (c : Nat) (a : DWord) : (s.raise h c a).fill = s.fill := rfl
@[simp] theorem State.raise_fires (s : State) (h : Here) (c : Nat) (a : DWord) : (s.raise h c a).fires = s.fires := rfl
@[simp] theorem State.raise_colls (s : State) (h : Here) (c : Nat) (a : DWord) : (s.raise h c a).colls = s.colls := rfl
@[simp] theorem State.raise_links (s : State) (h : Here) (c : Nat) (a : DWord) : (s.raise h c a).links = s.links := rfl
@[simp] theorem State.raise_freeze (s : State) (h : Here) (c : Nat) (a : DWord) : (s.raise h c a).freeze = s.freeze := rfl
@[simp] theorem State.raise_host (s : State) (h : Here) (c : Nat) (a : DWord) : (s.raise h c a).host = s.host := rfl
@[simp] theorem State.raise_phys (s : State) (h : Here) (c : Nat) (a : DWord) : (s.raise h c a).phys = s.phys := rfl
@[simp] theorem State.raise_trace (s : State) (h : Here) (c : Nat) (a : DWord) : (s.raise h c a).trace = s.trace := rfl
@[simp] theorem State.raise_out (s : State) (h : Here) (c : Nat) (a : DWord) : (s.raise h c a).out = s.out := rfl
@[simp] theorem State.raise_nextId (s : State) (h : Here) (c : Nat) (a : DWord) : (s.raise h c a).nextId = s.nextId := rfl
@[simp] theorem State.raise_free (s : State) (h : Here) (c : Nat) (a : DWord) : (s.raise h c a).free = s.free := rfl

/-! `dramWrite` -/
@[simp] theorem State.dramWrite_time (s : State) (a : Nat) (bs : List Byte) : (s.dramWrite a bs).time = s.time := rfl
@[simp] theorem State.dramWrite_agenda (s : State) (a : Nat) (bs : List Byte) : (s.dramWrite a bs).agenda = s.agenda := rfl
@[simp] theorem State.dramWrite_issue (s : State) (a : Nat) (bs : List Byte) : (s.dramWrite a bs).issue = s.issue := rfl
@[simp] theorem State.dramWrite_cur (s : State) (a : Nat) (bs : List Byte) : (s.dramWrite a bs).cur = s.cur := rfl
@[simp] theorem State.dramWrite_faults (s : State) (a : Nat) (bs : List Byte) : (s.dramWrite a bs).faults = s.faults := rfl
@[simp] theorem State.dramWrite_cores (s : State) (a : Nat) (bs : List Byte) : (s.dramWrite a bs).cores = s.cores := rfl
@[simp] theorem State.dramWrite_reaches (s : State) (a : Nat) (bs : List Byte) : (s.dramWrite a bs).reaches = s.reaches := rfl
@[simp] theorem State.dramWrite_rows (s : State) (a : Nat) (bs : List Byte) : (s.dramWrite a bs).rows = s.rows := rfl
@[simp] theorem State.dramWrite_launches (s : State) (a : Nat) (bs : List Byte) : (s.dramWrite a bs).launches = s.launches := rfl
@[simp] theorem State.dramWrite_objs (s : State) (a : Nat) (bs : List Byte) : (s.dramWrite a bs).objs = s.objs := rfl
@[simp] theorem State.dramWrite_objRel (s : State) (a : Nat) (bs : List Byte) : (s.dramWrite a bs).objRel = s.objRel := rfl
@[simp] theorem State.dramWrite_regs (s : State) (a : Nat) (bs : List Byte) : (s.dramWrite a bs).regs = s.regs := rfl
@[simp] theorem State.dramWrite_tt (s : State) (a : Nat) (bs : List Byte) : (s.dramWrite a bs).tt = s.tt := rfl
@[simp] theorem State.dramWrite_ttNext (s : State) (a : Nat) (bs : List Byte) : (s.dramWrite a bs).ttNext = s.ttNext := rfl
@[simp] theorem State.dramWrite_xfers (s : State) (a : Nat) (bs : List Byte) : (s.dramWrite a bs).xfers = s.xfers := rfl
@[simp] theorem State.dramWrite_requests (s : State) (a : Nat) (bs : List Byte) : (s.dramWrite a bs).requests = s.requests := rfl
@[simp] theorem State.dramWrite_staged (s : State) (a : Nat) (bs : List Byte) : (s.dramWrite a bs).staged = s.staged := rfl
@[simp] theorem State.dramWrite_fill (s : State) (a : Nat) (bs : List Byte) : (s.dramWrite a bs).fill = s.fill := rfl
@[simp] theorem State.dramWrite_fires (s : State) (a : Nat) (bs : List Byte) : (s.dramWrite a bs).fires = s.fires := rfl
@[simp] theorem State.dramWrite_colls (s : State) (a : Nat) (bs : List Byte) : (s.dramWrite a bs).colls = s.colls := rfl
@[simp] theorem State.dramWrite_links (s : State) (a : Nat) (bs : List Byte) : (s.dramWrite a bs).links = s.links := rfl
@[simp] theorem State.dramWrite_freeze (s : State) (a : Nat) (bs : List Byte) : (s.dramWrite a bs).freeze = s.freeze := rfl
@[simp] theorem State.dramWrite_host (s : State) (a : Nat) (bs : List Byte) : (s.dramWrite a bs).host = s.host := rfl
@[simp] theorem State.dramWrite_phys (s : State) (a : Nat) (bs : List Byte) : (s.dramWrite a bs).phys = s.phys := rfl
@[simp] theorem State.dramWrite_trace (s : State) (a : Nat) (bs : List Byte) : (s.dramWrite a bs).trace = s.trace := rfl
@[simp] theorem State.dramWrite_out (s : State) (a : Nat) (bs : List Byte) : (s.dramWrite a bs).out = s.out := rfl
@[simp] theorem State.dramWrite_nextId (s : State) (a : Nat) (bs : List Byte) : (s.dramWrite a bs).nextId = s.nextId := rfl
@[simp] theorem State.dramWrite_free (s : State) (a : Nat) (bs : List Byte) : (s.dramWrite a bs).free = s.free := rfl

end Sys2Proof.Machine
end

