-- ==== Sys2Proof/Laws/Place.lean ====
section
/-! SUPPORT. Looking up cores, reaches, CTBs and groups after an update of one of them. -/
namespace Sys2Proof.Machine

/-! ### Association lists -/

@[simp] theorem look_bindAt_same {α : Type} (l : List (Nat × α)) (k : Nat) (a : α) : look (bindAt l k a) k = some a := by
  induction l with
  | nil => simp [bindAt, look]
  | cons e l ih =>
    obtain ⟨i, b⟩ := e
    simp only [bindAt]
    split
    · simp [look]
    · split
      · simp [look]
      · rename_i h1 h2; simp only [look]; rw [if_neg (fun h => h2 h.symm)]; exact ih

theorem look_bindAt_other {α : Type} (l : List (Nat × α)) {k j : Nat} (a : α) (h : j ≠ k) :
    look (bindAt l k a) j = look l j := by
  induction l with
  | nil => simp [bindAt, look, Ne.symm h]
  | cons e l ih =>
    obtain ⟨i, b⟩ := e
    simp only [bindAt]
    split
    · simp only [look]; rw [if_neg (Ne.symm h)]
    · split
      · rename_i h1 h2; subst h2; simp only [look]; rw [if_neg (Ne.symm h), if_neg (Ne.symm h)]
      · simp only [look, ih]

theorem bindAt_bindAt {α : Type} (l : List (Nat × α)) (k : Nat) (a b : α) : bindAt (bindAt l k a) k b = bindAt l k b := by
  induction l with
  | nil => simp [bindAt]
  | cons e l ih =>
    obtain ⟨i, c⟩ := e
    simp only [bindAt]
    split
    · simp [bindAt]
    · split
      · simp [bindAt]
      · rename_i h1 h2; simp only [bindAt, if_neg h1, if_neg h2, ih]

/-! ### Cores -/

@[simp] theorem State.core_setCore_same (s : State) (q : Nat) (c : Core) : (s.setCore q c).core q = c := by
  simp [State.core, State.setCore]

theorem State.core_setCore_other (s : State) {p q : Nat} (c : Core) (h : p ≠ q) : (s.setCore q c).core p = s.core p := by
  simp [State.core, State.setCore, look_bindAt_other _ _ h]

@[simp] theorem State.core_modReach (s : State) (row slot : Nat) (f : Reach → Reach) (q : Nat) :
    (s.modReach row slot f).core q = s.core q := rfl
@[simp] theorem State.core_modCtb (s : State) (row slot col : Nat) (f : Ctb → Ctb) (q : Nat) :
    (s.modCtb row slot col f).core q = s.core q := rfl
@[simp] theorem State.core_modG (s : State) (h : Here) (f : Group → Group) (q : Nat) : (s.modG h f).core q = s.core q := rfl
@[simp] theorem State.core_modC (s : State) (h : Here) (f : Ctb → Ctb) (q : Nat) : (s.modC h f).core q = s.core q := rfl
@[simp] theorem State.core_modRG (s : State) (h : Here) (f : RGroup → RGroup) (q : Nat) :
    (s.modRG h f).core q = s.core q := rfl
@[simp] theorem State.core_complete (s : State) (h : Here) (q : Nat) : (s.complete h).core q = s.core q := rfl

/-! ### Reaches -/

/-- A change of a reach that leaves where it stands. -/
def Reach.Keeps (f : Reach → Reach) : Prop :=
  ∀ r : Reach, (f r).row = r.row ∧ (f r).slot = r.slot ∧ (f r).resident = r.resident

theorem Reach.keeps_modCtb (col : Nat) (f : Ctb → Ctb) : Reach.Keeps (fun r => r.modCtb col f) := by
  intro r; simp only [Reach.modCtb]; split <;> simp

theorem Reach.keeps_comp {f g : Reach → Reach} (hf : Reach.Keeps f) (hg : Reach.Keeps g) : Reach.Keeps (fun r => g (f r)) := by
  intro r
  have h1 := hf r
  have h2 := hg (f r)
  exact ⟨h2.1.trans h1.1, h2.2.1.trans h1.2.1, h2.2.2.trans h1.2.2⟩

/-- Finding an element after the elements that satisfy `p` were changed. -/
theorem find?_map_if {α : Type} (p q : α → Bool) (f : α → α) (hp : ∀ a, p a = true → q (f a) = q a) (l : List α) :
    (l.map (fun a => if p a then f a else a)).find? q = (l.find? q).map (fun a => if p a then f a else a) := by
  induction l with
  | nil => rfl
  | cons a l ih =>
    have hq : q (if p a then f a else a) = q a := by
      by_cases ha : p a = true
      · rw [if_pos ha, hp a ha]
      · rw [if_neg ha]
    rw [List.map_cons, List.find?_cons, List.find?_cons, hq]
    cases q a
    · exact ih
    · rfl

/-- The key of a reach. -/
def Reach.isAt (row slot : Nat) (r : Reach) : Bool := r.row == row && r.slot == slot && r.resident

theorem Reach.isAt_of_keeps {f : Reach → Reach} (hf : Reach.Keeps f) (row slot : Nat) (r : Reach) :
    (f r).isAt row slot = r.isAt row slot := by
  obtain ⟨h1, h2, h3⟩ := hf r; simp only [Reach.isAt, h1, h2, h3]

theorem State.reach?_modReach (s : State) (row slot row' slot' : Nat) {f : Reach → Reach} (hf : Reach.Keeps f) :
    (s.modReach row slot f).reach? row' slot' =
      (s.reach? row' slot').map (fun r => if r.isAt row slot then f r else r) :=
  find?_map_if (Reach.isAt row slot) (Reach.isAt row' slot') f (fun r _ => Reach.isAt_of_keeps hf row' slot' r) s.reaches

theorem State.reach?_isAt {s : State} {row slot : Nat} {r : Reach} (h : s.reach? row slot = some r) : r.isAt row slot = true :=
  List.find?_some (p := Reach.isAt row slot) h

/-- The reach that a change of it leaves in its place. -/
theorem State.reach?_modReach_same (s : State) (row slot : Nat) {f : Reach → Reach} (hf : Reach.Keeps f) :
    (s.modReach row slot f).reach? row slot = (s.reach? row slot).map f := by
  rw [State.reach?_modReach s row slot row slot hf]
  cases h : s.reach? row slot with
  | none => rfl
  | some r => simp [State.reach?_isAt h]

/-- A change of a reach leaves every other reach. -/
theorem State.reach?_modReach_other (s : State) {row slot row' slot' : Nat} {f : Reach → Reach} (hf : Reach.Keeps f)
    (h : row' ≠ row ∨ slot' ≠ slot) : (s.modReach row slot f).reach? row' slot' = s.reach? row' slot' := by
  rw [State.reach?_modReach s row slot row' slot' hf]
  cases hr : s.reach? row' slot' with
  | none => rfl
  | some r =>
    have h1 := State.reach?_isAt hr
    have h2 : r.isAt row slot = false := by
      simp only [Reach.isAt, Bool.and_eq_true, beq_iff_eq] at h1
      simp only [Reach.isAt, h1.1.1, h1.1.2]
      rcases h with h | h
      · simp [h]
      · simp [h]
    simp [h2]

/-- Two changes of one reach are one. -/
theorem State.modReach_modReach (s : State) (row slot : Nat) {f : Reach → Reach} (g : Reach → Reach) (hf : Reach.Keeps f) :
    (s.modReach row slot f).modReach row slot g = s.modReach row slot (fun r => g (f r)) := by
  simp only [State.modReach, List.map_map]
  congr 1
  apply List.map_congr_left
  intro r _
  obtain ⟨h1, h2, h3⟩ := hf r
  simp only [Function.comp]
  by_cases hb : (r.row == row && r.slot == slot && r.resident) = true
  · simp [hb, h1, h2, h3]
  · simp only [Bool.not_eq_true] at hb; simp [hb]

@[simp] theorem State.launch?_modReach (s : State) (row slot : Nat) (f : Reach → Reach) (id : Nat) :
    (s.modReach row slot f).launch? id = s.launch? id := rfl

/-! ### CTBs and groups -/

theorem Reach.ctb?_modCtb_same (r : Reach) (col : Nat) (f : Ctb → Ctb) : (r.modCtb col f).ctb? col = (r.ctb? col).map f := by
  simp only [Reach.modCtb, Reach.ctb?]
  cases h : look r.ctbs col with
  | none => simp [h]
  | some c => simp

theorem Reach.ctb?_modCtb_other (r : Reach) {col col' : Nat} (f : Ctb → Ctb) (hc : col' ≠ col) :
    (r.modCtb col f).ctb? col' = r.ctb? col' := by
  simp only [Reach.modCtb, Reach.ctb?]
  cases h : look r.ctbs col with
  | none => rfl
  | some c => simp [look_bindAt_other _ _ hc]

theorem Reach.modCtb_modCtb (r : Reach) (col : Nat) (f g : Ctb → Ctb) :
    (r.modCtb col f).modCtb col g = r.modCtb col (fun c => g (f c)) := by
  simp only [Reach.modCtb]
  cases h : look r.ctbs col with
  | none => simp [h]
  | some c => simp [bindAt_bindAt]

@[simp] theorem Reach.modCtb_launch (r : Reach) (col : Nat) (f : Ctb → Ctb) : (r.modCtb col f).launch = r.launch := by
  simp only [Reach.modCtb]; split <;> rfl
@[simp] theorem Reach.modCtb_hold (r : Reach) (col : Nat) (f : Ctb → Ctb) : (r.modCtb col f).hold = r.hold := by
  simp only [Reach.modCtb]; split <;> rfl
@[simp] theorem Reach.modCtb_rgs (r : Reach) (col : Nat) (f : Ctb → Ctb) : (r.modCtb col f).rgs = r.rgs := by
  simp only [Reach.modCtb]; split <;> rfl
@[simp] theorem Reach.rgOf_modCtb (r : Reach) (col : Nat) (f : Ctb → Ctb) (g : Nat) (b : Bool) :
    (r.modCtb col f).rgOf g b = r.rgOf g b := by simp [Reach.rgOf]

theorem Ctb.modGroup_modGroup (c : Ctb) (g : Nat) (f k : Group → Group) :
    (c.modGroup g f).modGroup g k = c.modGroup g (fun x => k (f x)) := by
  simp only [Ctb.modGroup]; congr 1
  apply List.ext_getElem
  · simp
  · intro i h1 h2; simp only [List.getElem_modify]; split <;> rfl

theorem Ctb.group?_modGroup_same (c : Ctb) (g : Nat) (f : Group → Group) : (c.modGroup g f).group? g = (c.group? g).map f := by
  simp [Ctb.group?, Ctb.modGroup]

theorem Ctb.group?_modGroup_other (c : Ctb) {g g' : Nat} (f : Group → Group) (h : g' ≠ g) :
    (c.modGroup g f).group? g' = c.group? g' := by
  simp [Ctb.group?, Ctb.modGroup, Ne.symm h]

/-! ### The executing group -/

/-- Two changes of the executing group are one. -/
theorem State.modG_modG (s : State) (h : Here) (f g : Group → Group) :
    (s.modG h f).modG h g = s.modG h (fun x => g (f x)) := by
  simp only [State.modG, State.modGroup, State.modCtb]
  rw [State.modReach_modReach _ _ _ _ (Reach.keeps_modCtb _ _)]
  simp only [Reach.modCtb_modCtb, Ctb.modGroup_modGroup]

/-- Where a position stands, as its parts. -/
theorem State.here_parts {s : State} {h : Here} (hh : s.here = some h) :
    s.cur = some h.cur ∧ s.reach? h.cur.row h.cur.slot = some h.reach ∧ h.reach.ctb? h.cur.col = some h.ctb ∧
      h.reach.rgOf h.cur.grp h.cur.handler = some h.rg ∧ s.launch? h.reach.launch = some h.launch ∧
      h.ctb.group? h.cur.grp = some h.grp := by
  simp only [State.here] at hh
  split at hh
  · cases hh
  · rename_i c hc
    split at hh
    · cases hh
    · rename_i r hr
      split at hh
      · rename_i b rg l hb hrg hl
        split at hh
        · rename_i g hg
          cases hh
          exact ⟨hc, hr, hb, hrg, hl, hg⟩
        · cases hh
      · cases hh

theorem State.here_of_parts {s : State} {h : Here} (h1 : s.cur = some h.cur) (h2 : s.reach? h.cur.row h.cur.slot = some h.reach)
    (h3 : h.reach.ctb? h.cur.col = some h.ctb) (h4 : h.reach.rgOf h.cur.grp h.cur.handler = some h.rg)
    (h5 : s.launch? h.reach.launch = some h.launch) (h6 : h.ctb.group? h.cur.grp = some h.grp) : s.here = some h := by
  simp only [State.here, h1, h2, h3, h4, h5, h6]

/-- The executing position after a change of its group: the same, with the group changed. -/
theorem State.here_modG {s : State} {h : Here} (f : Group → Group) (hh : s.here = some h) :
    (s.modG h f).here = some { h with
      reach := h.reach.modCtb h.cur.col (fun c => c.modGroup h.cur.grp f), ctb := h.ctb.modGroup h.cur.grp f, grp := f h.grp } := by
  obtain ⟨h1, h2, h3, h4, h5, h6⟩ := State.here_parts hh
  apply State.here_of_parts
  · exact h1
  · simp only [State.modG, State.modGroup, State.modCtb]
    rw [State.reach?_modReach_same _ _ _ (Reach.keeps_modCtb _ _), h2]; rfl
  · simp [Reach.ctb?_modCtb_same, h3]
  · simpa using h4
  · simpa [State.modG, State.modGroup, State.modCtb] using h5
  · simp [Ctb.group?_modGroup_same, h6]

/-! ### The headland's registers -/

/-- A reach with the registers of a reach group changed (15 R397: those of a handler are the hold's). -/
def Reach.modRg (r : Reach) (grp : Nat) (handler : Bool) (f : RGroup → RGroup) : Reach :=
  if handler then { r with hold := r.hold.map (fun x => { x with rg := f x.rg }) }
  else { r with rgs := r.rgs.modify grp f }

theorem State.modRG_eq (s : State) (h : Here) (f : RGroup → RGroup) :
    s.modRG h f = s.modReach h.cur.row h.cur.slot (fun r => r.modRg h.cur.grp h.cur.handler f) := rfl

theorem Reach.keeps_modRg (grp : Nat) (handler : Bool) (f : RGroup → RGroup) : Reach.Keeps (fun r => r.modRg grp handler f) := by
  intro r; simp only [Reach.modRg]; split <;> simp

theorem Reach.rgOf_modRg (r : Reach) (grp : Nat) (handler : Bool) (f : RGroup → RGroup) :
    (r.modRg grp handler f).rgOf grp handler = (r.rgOf grp handler).map f := by
  cases handler
  · simp [Reach.modRg, Reach.rgOf]
  · simp only [Reach.modRg, Reach.rgOf, if_true]
    cases r.hold <;> rfl

@[simp] theorem Reach.ctb?_modRg (r : Reach) (grp : Nat) (handler : Bool) (f : RGroup → RGroup) (col : Nat) :
    (r.modRg grp handler f).ctb? col = r.ctb? col := by
  simp only [Reach.modRg]; split <;> rfl

@[simp] theorem Reach.modRg_launch (r : Reach) (grp : Nat) (handler : Bool) (f : RGroup → RGroup) :
    (r.modRg grp handler f).launch = r.launch := by
  simp only [Reach.modRg]; split <;> rfl

/-- The executing position after a change of its reach group's registers. -/
theorem State.here_modRG {s : State} {h : Here} (f : RGroup → RGroup) (hh : s.here = some h) :
    (s.modRG h f).here = some { h with reach := h.reach.modRg h.cur.grp h.cur.handler f, rg := f h.rg } := by
  obtain ⟨h1, h2, h3, h4, h5, h6⟩ := State.here_parts hh
  apply State.here_of_parts
  · exact h1
  · rw [State.modRG_eq, State.reach?_modReach_same _ _ _ (Reach.keeps_modRg _ _ _), h2]; rfl
  · simpa using h3
  · rw [Reach.rgOf_modRg, h4]; rfl
  · simpa [State.modRG_eq] using h5
  · exact h6

theorem State.modRG_id (s : State) (h : Here) : s.modRG h (fun rg => rg) = s := by
  have : ∀ r : Reach, r.modRg h.cur.grp h.cur.handler (fun rg => rg) = r := by
    intro r
    simp only [Reach.modRg]
    split
    · cases hr : r.hold <;> cases r <;> simp_all
    · have : r.rgs.modify h.cur.grp (fun rg => rg) = r.rgs := by
        apply List.ext_getElem
        · simp
        · intro i h1 h2; simp [List.getElem_modify]
      rw [this]
  rw [State.modRG_eq]
  simp only [State.modReach, this, ite_self, List.map_id']

/-- Two changes of the executing reach group's registers are one. -/
theorem State.modRG_modRG (s : State) (h : Here) (f g : RGroup → RGroup) :
    (s.modRG h f).modRG h g = s.modRG h (fun x => g (f x)) := by
  rw [State.modRG_eq, State.modRG_eq, State.modRG_eq, State.modReach_modReach _ _ _ _ (Reach.keeps_modRg _ _ _)]
  congr 1
  funext r
  simp only [Reach.modRg]
  split
  · cases r.hold <;> rfl
  · congr 1
    apply List.ext_getElem
    · simp
    · intro i h1 h2; simp only [List.getElem_modify]; split <;> rfl

end Sys2Proof.Machine
end

