-- ==== Sys2Proof/Laws/Lanes.lean ====
section
/-! SUPPORT. What an instruction that no check stops does to the state: reads of scratch, lanes, last reads, results and the
end of the instruction. -/
namespace Sys2Proof.Machine

/-! ### Reads of scratch -/

theorem Counted.refl (s : State) : Counted s s := ⟨rfl, fun _ => rfl⟩

theorem Counted.trans {s t u : State} (h1 : Counted s t) (h2 : Counted t u) : Counted s u := by
  refine ⟨?_, fun q => (h2.2 q).trans (h1.2 q)⟩
  rw [h2.1]
  conv_lhs => rw [h1.1]

theorem Counted.setCore {s : State} {q : Nat} {c : Core} (h : c.uncounted = (s.core q).uncounted) : Counted s (s.setCore q c) := by
  refine ⟨rfl, fun p => ?_⟩
  by_cases hp : p = q
  · subst hp; simpa using h
  · rw [State.core_setCore_other s c hp]

theorem Counted.later (s : State) (t c : Nat) (i : Instr) : Counted s (s.later t c i) := ⟨rfl, fun _ => rfl⟩

theorem Counted.noteInc (s : State) (q n : Nat) : Counted s (s.noteInc q n) := by
  simp only [State.noteInc]; split
  · exact Counted.refl s
  · exact ⟨rfl, fun _ => rfl⟩

theorem counted_countCorr (q : Nat) (cs : List (Nat × Nat)) (s : State) : Counted s (s.countCorr q cs) := by
  simp only [State.countCorr]
  induction cs generalizing s with
  | nil => exact Counted.refl s
  | cons c cs ih =>
    rw [List.foldl_cons]
    refine Counted.trans ?_ (ih _)
    have h1 : Counted s (s.setCore q { s.core q with
        scrcnt := bump31 (s.core q).scrcnt,
        corr := bindAt (s.core q).corr (10 * c.1 + c.2) ((look (s.core q).corr (10 * c.1 + c.2)).getD 0 + 1) }) :=
      Counted.setCore rfl
    split
    · exact (h1.trans (Counted.noteInc _ _ _)).trans (Counted.later _ _ _ _)
    · exact h1.trans (Counted.noteInc _ _ _)

theorem counted_free (s : State) (n : Nat) : Counted s { s with free := n } := ⟨rfl, fun _ => rfl⟩

theorem counted_scrPick (s : State) (q a n path : Nat) (view : List Seen) (stamp : Nat) :
    Counted s (s.scrPick q a n path view stamp).2.2 := by
  simp only [State.scrPick]
  split
  · exact (counted_countCorr q _ s).trans (counted_free _ _)
  · exact counted_countCorr q _ s

/-- The executing group has seen the writes of `l` besides. -/
def Group.addSeen (l : List Seen) (g : Group) : Group := { g with seen := l ++ g.seen }

@[simp] theorem Group.addSeen_m (l : List Seen) (g : Group) : (g.addSeen l).m = g.m := rfl

/-- Reads of the executing group, which delivered the unseen writes of `l`, lead from `s` to `t`. -/
def Reads (s : State) (h : Here) (l : List Seen) (t : State) : Prop :=
  (∀ v ∈ l, v.own = true) ∧ ∃ u, Counted s u ∧ (l = [] ∧ t = u ∨ t = u.modG h (Group.addSeen l))

theorem Reads.refl (s : State) (h : Here) : Reads s h [] s := ⟨by simp, s, Counted.refl s, .inl ⟨rfl, rfl⟩⟩

/-- Counting commutes with a change of the executing group. -/
theorem Counted.modG_out {u w : State} {h : Here} {f : Group → Group} (hc : Counted (u.modG h f) w) :
    ∃ v, Counted u v ∧ w = v.modG h f :=
  ⟨{ u with cores := w.cores, free := w.free, agenda := w.agenda, bumped := w.bumped }, ⟨rfl, fun q => hc.2 q⟩, hc.1⟩

theorem Reads.trans {s t u : State} {h : Here} {l m : List Seen} (h1 : Reads s h l t) (h2 : Reads t h m u) : Reads s h (m ++ l) u := by
  obtain ⟨o1, v, c1, e1⟩ := h1
  obtain ⟨o2, w, c2, e2⟩ := h2
  refine ⟨fun x hx => (List.mem_append.mp hx).elim (o2 x) (o1 x), ?_⟩
  rcases e1 with ⟨rfl, rfl⟩ | rfl
  · exact ⟨w, c1.trans c2, by simpa using e2⟩
  · obtain ⟨v', c3, rfl⟩ := c2.modG_out
    refine ⟨v', c1.trans c3, .inr ?_⟩
    rcases e2 with ⟨rfl, rfl⟩ | rfl
    · rfl
    · rw [State.modG_modG]; congr 1; funext g; simp [Group.addSeen]

/-- What follows reads of the executing group, as a change of it, is one after counting alone. -/
theorem Reads.modG {s t : State} {h : Here} {l : List Seen} (hr : Reads s h l t) (f : Group → Group) :
    ∃ u, Counted s u ∧ t.modG h f = u.modG h (fun g => f (g.addSeen l)) := by
  obtain ⟨_, u, hc, e⟩ := hr
  refine ⟨u, hc, ?_⟩
  rcases e with ⟨rfl, rfl⟩ | rfl
  · rfl
  · rw [State.modG_modG]

theorem reads_groupRead (s : State) (h : Here) (q a n stamp : Nat) : ∃ l, Reads s h l (s.groupRead h q a n stamp).2 := by
  simp only [State.groupRead]
  generalize hr : s.scrPick q a n 0 _ stamp = r
  have hc : Counted s r.2.2 := by rw [← hr]; exact counted_scrPick ..
  split
  · exact ⟨[], by simp, _, hc, .inl ⟨rfl, rfl⟩⟩
  · refine ⟨seenWords q r.2.1, ?_, _, hc, .inr rfl⟩
    intro v hv
    obtain ⟨f, _, rfl⟩ := List.mem_map.mp hv
    rfl

theorem reads_fold {α β : Type} (l : List α) (s : State) (h : Here) (acc : β) (F : β × State → α → β × State)
    (hF : ∀ a x, ∃ m, Reads a.2 h m (F a x).2) : ∃ m, Reads s h m (l.foldl F (acc, s)).2 := by
  suffices hs : ∀ a : β × State, ∃ m, Reads a.2 h m (l.foldl F a).2 from hs (acc, s)
  induction l with
  | nil => exact fun a => ⟨[], Reads.refl _ h⟩
  | cons x l ih =>
    intro a
    obtain ⟨m, h1⟩ := hF a x
    obtain ⟨m', h2⟩ := ih (F a x)
    exact ⟨_, h1.trans h2⟩

theorem reads_streamVec (s : State) (h : Here) (n : BitVec 4) : ∃ m, Reads s h m (s.streamVec h n).2 :=
  reads_fold _ s h [] _ (fun a _ => reads_groupRead a.2 h _ _ _ _)

/-- Reading streams changes nothing but what reads count and what the group has seen. -/
theorem reads_readStreams (s : State) (h : Here) (ns : List (BitVec 4)) : ∃ m, Reads s h m (s.readStreams h ns).2 ∧ (ns = [] → m = []) := by
  cases ns with
  | nil => exact ⟨[], Reads.refl s h, fun _ => rfl⟩
  | cons n ns =>
    obtain ⟨m, hm⟩ := reads_fold (n :: ns) s h [] (fun (a : List (BitVec 4 × List DWord) × State) n =>
      let (l, s1) := a.2.streamVec h n
      (a.1 ++ [(n, l)], s1)) (fun a x => reads_streamVec a.2 h x)
    exact ⟨m, hm, by simp⟩

theorem Counted.fields {s t : State} (h : Counted s t) :
    t.faults = s.faults ∧ t.dram = s.dram ∧ t.reaches = s.reaches ∧ t.launches = s.launches ∧ t.cur = s.cur ∧ t.regs = s.regs ∧
      t.issue = s.issue ∧ t.time = s.time := by
  rw [h.1]; simp

theorem Counted.here {s t : State} (h : Counted s t) : t.here = s.here := by
  rw [h.1]; rfl

theorem Counted.scratch {s t : State} (h : Counted s t) (q : Nat) : (t.core q).scratch = (s.core q).scratch :=
  show (t.core q).uncounted.scratch = (s.core q).uncounted.scratch by rw [h.2 q]

theorem Counted.bcnctl {s t : State} (h : Counted s t) (q : Nat) : (t.core q).bcnctl = (s.core q).bcnctl :=
  show (t.core q).uncounted.bcnctl = (s.core q).uncounted.bcnctl by rw [h.2 q]

theorem Reads.core {s t : State} {h : Here} {l : List Seen} (hr : Reads s h l t) :
    (∀ q, (t.core q).scratch = (s.core q).scratch ∧ (t.core q).bcnctl = (s.core q).bcnctl) ∧ t.dram = s.dram ∧ t.faults = s.faults := by
  obtain ⟨_, u, hc, e⟩ := hr
  rcases e with ⟨_, rfl⟩ | rfl
  · exact ⟨fun q => ⟨hc.scratch q, hc.bcnctl q⟩, hc.fields.2.1, hc.fields.1⟩
  · exact ⟨fun q => ⟨hc.scratch q, hc.bcnctl q⟩, hc.fields.2.1, hc.fields.1⟩

/-! ### Lanes -/

/-- Lanes that nothing stops all run. -/
theorem runLanes_all (h : Here) (v : VecIn) (sv : List (BitVec 4 × List DWord)) (c : Core) (mode : BMode) (fresh : List Nat) (ks : List Nat)
    (a : Lanes) (hl : ∀ k ∈ ks, v.lost h k = none) (hf : ∀ k ∈ ks, (v.out h sv k).fault = none) (hu : v.unseen h c mode = true)
    (ha : a.fault = none) : runLanes h v sv c mode fresh ks a = { a with outs := a.outs ++ ks.map (fun k => (k, v.out h sv k)) } := by
  induction ks generalizing a with
  | nil => simp [runLanes]
  | cons k ks ih =>
    have h1 := hl k (by simp)
    have h2 := hf k (by simp)
    simp only [runLanes, h1, h2, hu, if_true]
    rw [if_neg (by simp [ha])]
    rw [ih { a with outs := a.outs ++ [(k, v.out h sv k)] } (fun j hj => hl j (by simp [hj])) (fun j hj => hf j (by simp [hj])) ha]
    simp

/-! ### Registers -/

theorem Group.vreg?_free (g : Group) (n m : Nat) : (g.free n).vreg? m = if m = n then none else g.vreg? m := by
  have h1 : (g.free n).vregs = g.vregs.filter (fun v => v.name != n) := by
    simp only [Group.free]; split <;> rfl
  simp only [Group.vreg?, h1]
  induction g.vregs with
  | nil => simp
  | cons v l ih =>
    by_cases hv : v.name = n
    · subst hv
      simp only [List.filter_cons, bne_self_eq_false, Bool.false_eq_true, if_false, ih, List.find?_cons]
      by_cases hm : m = v.name
      · simp [hm]
      · have : (v.name == m) = false := by simpa using Ne.symm hm
        simp [hm, this]
    · simp only [List.filter_cons, bne_iff_ne, ne_eq, hv, not_false_eq_true, if_true, List.find?_cons]
      by_cases hm : v.name = m
      · subst hm; simp [hv]
      · have : (v.name == m) = false := by simpa using hm
        simp only [this, ih]

theorem insertReg_find (v : VReg) (l : List VReg) (m : Nat) (hm : m ≠ v.name) :
    (insertReg v l).find? (fun x => x.name == m) = l.find? (fun x => x.name == m) := by
  have hv : (v.name == m) = false := by simpa using Ne.symm hm
  induction l with
  | nil => simp [insertReg, hv]
  | cons x l ih =>
    simp only [insertReg]
    split
    · simp [List.find?_cons, hv]
    · split
      · rename_i h1 h2
        have : (x.name == m) = false := by rw [← h2]; exact hv
        simp [hv, this]
      · simp only [List.find?_cons, ih]

theorem Group.vreg?_alloc (g : Group) {n m : Nat} (hm : m ≠ n) : (g.alloc n).vreg? m = g.vreg? m := by
  simp only [Group.alloc]
  split
  · rfl
  · exact insertReg_find { name := n, written := false, val := List.replicate 32 0 } g.vregs m hm

/-- What the end of an instruction does to its group's last reads, at the first lane. -/
def Group.freeAll (g : Group) (frees dst : List Nat) : Group :=
  (once frees).foldl (fun g n => if dst.contains n then (g.free n).alloc n else g.free n) g

theorem freeSources_eq {h : Here} (hc : h.grp.cursor = 0) (s : State) (frees dst : List Nat) :
    s.freeSources h frees dst = s.modG h (fun g => g.freeAll frees dst) := by
  simp only [State.freeSources, hc, Group.freeAll]
  congr 1

theorem mem_once {l : List Nat} {n : Nat} : n ∈ once l ↔ n ∈ l := by
  induction l with
  | nil => simp [once]
  | cons m l ih =>
    simp only [once]
    split
    · rename_i h
      simp only [List.contains_iff_mem] at h
      constructor
      · intro hn; exact List.mem_cons_of_mem _ (ih.mp hn)
      · intro hn
        rcases List.mem_cons.mp hn with rfl | hn
        · exact h
        · exact ih.mpr hn
    · simp [ih]

theorem freeFold_vreg? (l dst : List Nat) (g : Group) (m : Nat) (hm : m ∉ dst) :
    (l.foldl (fun g n => if dst.contains n then (g.free n).alloc n else g.free n) g).vreg? m =
      if m ∈ l then none else g.vreg? m := by
  induction l generalizing g with
  | nil => simp
  | cons n l ih =>
    rw [List.foldl_cons, ih]
    have hstep : (if dst.contains n = true then (g.free n).alloc n else g.free n).vreg? m = if m = n then none else g.vreg? m := by
      split
      · rename_i hn
        have hmn : m ≠ n := by
          rintro rfl; exact hm (List.contains_iff_mem.mp hn)
        rw [Group.vreg?_alloc _ hmn, Group.vreg?_free]
      · exact Group.vreg?_free g n m
    rw [hstep]
    by_cases h1 : m ∈ l
    · simp [h1]
    · by_cases h2 : m = n
      · simp [h2]
      · simp [h1, h2]

theorem Group.freeAll_vreg? (g : Group) (frees dst : List Nat) (m : Nat) (hm : m ∉ dst) :
    (g.freeAll frees dst).vreg? m = if m ∈ frees then none else g.vreg? m := by
  simp only [Group.freeAll, freeFold_vreg? _ _ _ _ hm, mem_once]

/-- What last reads leave of a group: all but its registers and the results in flight to them. -/
theorem Group.free_rest (g : Group) (n : Nat) : { g.free n with vregs := [], pend := [] } = { g with vregs := [], pend := [] } := by
  simp only [Group.free]; split <;> rfl
theorem Group.alloc_rest (g : Group) (n : Nat) : { g.alloc n with vregs := [], pend := [] } = { g with vregs := [], pend := [] } := by
  simp only [Group.alloc]; split <;> rfl
theorem Group.alloc_pend (g : Group) (n : Nat) : (g.alloc n).pend = g.pend := by
  simp only [Group.alloc]; split <;> rfl

theorem Group.freeAll_rest (g : Group) (frees dst : List Nat) :
    { g.freeAll frees dst with vregs := [], pend := [] } = { g with vregs := [], pend := [] } := by
  simp only [Group.freeAll]
  generalize once frees = l
  induction l generalizing g with
  | nil => rfl
  | cons n l ih =>
    rw [List.foldl_cons, ih]
    split
    · rw [Group.alloc_rest, Group.free_rest]
    · rw [Group.free_rest]

theorem Group.allocs_rest (g : Group) (ns : List Nat) :
    { ns.foldl (fun g n => g.alloc n) g with vregs := [], pend := [] } = { g with vregs := [], pend := [] } := by
  induction ns generalizing g with
  | nil => rfl
  | cons n l ih => rw [List.foldl_cons, ih, Group.alloc_rest]

theorem Group.allocs_pend (g : Group) (ns : List Nat) : (ns.foldl (fun g n => g.alloc n) g).pend = g.pend := by
  induction ns generalizing g with
  | nil => rfl
  | cons n l ih => rw [List.foldl_cons, ih, Group.alloc_pend]

theorem Group.allocs_vreg? (g : Group) (ns : List Nat) (m : Nat) (hm : m ∉ ns) :
    (ns.foldl (fun g n => g.alloc n) g).vreg? m = g.vreg? m := by
  induction ns generalizing g with
  | nil => rfl
  | cons n l ih =>
    rw [List.foldl_cons, ih _ (fun h => hm (by simp [h])), Group.vreg?_alloc _ (fun h => hm (by simp [h]))]

/-! ### The lanes of a position and masks -/

theorem getLsbD_maskFold (f : Nat → Bool) (n i k : Nat) :
    ((List.range' i n).foldr (fun k m => 2 * m + (if f k then 1 else 0)) 0).testBit k =
      (decide (k < n) && f (i + k)) := by
  induction n generalizing i k with
  | zero => simp
  | succ n ih =>
    rw [List.range'_succ, List.foldr_cons]
    cases k with
    | zero =>
      rw [Nat.testBit_zero]
      cases f i <;> simp
    | succ k =>
      rw [Nat.testBit_succ]
      have h2 : ∀ x : Nat, (2 * x + (if f i = true then 1 else 0)) / 2 = x := by
        intro x; split <;> omega
      rw [h2, ih]
      simp [Nat.add_comm, Nat.add_left_comm]

/-- Bit `k` of a mask of lanes. -/
theorem bit_maskOf (f : Nat → Bool) (k : Nat) (hk : k < 32) : bit (maskOf f) k = f k := by
  simp only [bit, maskOf, List.range_eq_range', BitVec.getLsbD_ofNat, getLsbD_maskFold]
  simp [hk]

theorem laneOf_mkLanes {α : Type} [Inhabited α] (f : Nat → α) (k : Nat) (hk : k < 32) : laneOf (mkLanes f) k = f k := by
  simp [laneOf, mkLanes, List.getD_eq_getElem?_getD, hk]

theorem Here.lanes_lt {h : Here} (ho : h.cur.only = none) {k : Nat} (hk : k ∈ h.lanes) : k < 32 := by
  simp only [Here.lanes, ho] at hk
  have := (List.mem_filter.mp hk).1
  simpa using this

theorem look_map_pair {α : Type} (l : List Nat) (f : Nat → α) (k : Nat) (hk : k ∈ l) :
    look (l.map (fun j => (j, f j))) k = some (f k) := by
  induction l with
  | nil => simp at hk
  | cons j l ih =>
    simp only [List.map_cons, look]
    by_cases hj : j = k
    · simp [hj]
    · rw [if_neg hj]; exact ih (by rcases List.mem_cons.mp hk with h | h; exact absurd h.symm hj; exact h)

/-! ### The end of an instruction -/

theorem VecIn.dst_of_result {v : VecIn} {g : Group} {d : Dst} (h : v.result g = some d) : v.dst = some d := by
  unfold VecIn.result at h
  split at h
  · cases h
  · exact h

theorem VecIn.not_written {v : VecIn} (g : Group) {n : Nat} (h : n ∉ v.names) : n ∉ v.written g := by
  unfold VecIn.written
  split
  · simp
  · exact h

theorem VecIn.result_lane {v : VecIn} (hw : v.wide = none) (g : Group) : v.result g = v.dst := by simp [VecIn.result, hw]

/-- What the end of an instruction, after its effect, does to its group: flags, last reads, the result, streams and the
lane cursor. -/
def Here.ending (h : Here) (v : VecIn) (fl : Word) (rs : List (Nat × DWord)) (g : Group) : Group :=
  let dst := v.written h.grp
  let g1 : Group := if v.land = 1 then { g with iflags := g.iflags ||| fl } else g
  let g2 : Group := g1.freeAll (v.ops.flatMap Opnd.frees) dst
  let g3 : Group := match v.result h.grp with
    | none => g2
    | some d =>
      if laneMask rs = 0 ∧ dstReg d = none then g2 else
      let g : Group := (dstNames d v.w64).foldl (fun (g : Group) n => g.alloc n) g2
      { g with pend := g.pend ++ [{ due := h.rg.pos + v.land, run := h.reach.run, reg := dstReg d, w64 := v.w64
                                    latch := some (dstLatch d), lanes := laneMask rs, vals := laneVals rs, dead := []
                                    rows := 0, flags := if v.land = 1 then 0 else fl, see := none, item := 0 }] }
  { g3 with sd := (streamsOf v.ops).foldl (fun l (n : BitVec 4) => modAt l n.toNat Stream.advance) g3.sd, cursor := 32 }

theorem Group.orFlags_zero (g : Group) {fl : Word} (h : fl = 0) : ({ g with iflags := g.iflags ||| fl } : Group) = g := by
  subst h; simp

theorem modG_congr (s : State) (h : Here) {f g : Group → Group} (hfg : ∀ x, f x = g x) : s.modG h f = s.modG h g := by
  have : f = g := funext hfg
  rw [this]

/-- The effect and the end of an instruction whose lanes all ran. -/
theorem vecEnd_all (s : State) (h : Here) (v : VecIn) (outs : List (Nat × LaneOut)) (eff)
    (hc : h.grp.cursor = 0) (ho : h.cur.only = none) (hh : h.cur.handler = true ∨ h.grp.halting = none) :
    s.vecEnd h v { Lanes.start (s.core h.q).bcnctl with outs := outs } eff =
      (eff s 32 outs).1.modG h (h.ending v (outs.foldl (fun f o => f ||| o.2.flags) 0) (eff s 32 outs).2) := by
  have hfilter : outs.filter (fun o => !(([] : List (Nat × Nat)).any (fun x => x.1 == o.1))) = outs := by simp
  have howed : (if h.cur.handler then none else h.grp.halting) = none := by rcases hh with hh | hh <;> simp [hh]
  simp only [State.vecEnd, Lanes.start, Lanes.halted, ho, beq_self_eq_true, if_true, State.logBeacons, List.foldl_nil, hfilter,
    Option.isNone_none, Bool.and_self, Option.isSome_none, Bool.false_eq_true, if_false, Option.map_none, Option.getD_none,
    Bool.or_self, howed, Halting.join, List.head?_nil, State.endHalts]
  rw [freeSources_eq hc]
  generalize (eff s 32 outs) = e
  generalize hfl : outs.foldl (fun (f : Word) (o : Nat × LaneOut) => f ||| o.2.flags) 0 = fl
  simp only [State.setFlags, State.put, State.advance, State.complete]
  by_cases h1 : v.land = 1
  · simp only [h1, if_true]
    by_cases h2 : fl = 0
    · simp only [h2, if_true]
      cases hd : v.result h.grp with
      | none =>
        simp only [State.modG_modG]
        exact modG_congr _ _ (fun x => by simp only [Here.ending, h1, hd, if_true, Group.orFlags_zero x rfl])
      | some d =>
        by_cases h3 : laneMask e.2 = 0 ∧ dstReg d = none
        · dsimp only
          rw [if_pos h3]
          simp only [State.modG_modG]
          exact modG_congr _ _ (fun x => by simp only [Here.ending, h1, hd, if_true, if_pos h3, Group.orFlags_zero x rfl])
        · dsimp only
          rw [if_neg h3]
          simp only [State.modG_modG]
          exact modG_congr _ _ (fun x => by simp only [Here.ending, h1, hd, if_true, if_neg h3, Group.orFlags_zero x rfl])
    · simp only [h2, if_false]
      cases hd : v.result h.grp with
      | none =>
        simp only [State.modG_modG]
        exact modG_congr _ _ (fun x => by simp only [Here.ending, h1, hd, if_true])
      | some d =>
        by_cases h3 : laneMask e.2 = 0 ∧ dstReg d = none
        · dsimp only
          rw [if_pos h3]
          simp only [State.modG_modG]
          exact modG_congr _ _ (fun x => by simp only [Here.ending, h1, hd, if_true, if_pos h3])
        · dsimp only
          rw [if_neg h3]
          simp only [State.modG_modG]
          exact modG_congr _ _ (fun x => by simp only [Here.ending, h1, hd, if_true, if_neg h3])
  · simp only [h1, if_false]
    cases hd : v.result h.grp with
    | none =>
      simp only [State.modG_modG]
      exact modG_congr _ _ (fun x => by simp only [Here.ending, h1, hd, if_false])
    | some d =>
      by_cases h3 : laneMask e.2 = 0 ∧ dstReg d = none
      · dsimp only
        rw [if_pos h3]
        simp only [State.modG_modG]
        exact modG_congr _ _ (fun x => by simp only [Here.ending, h1, hd, if_false, if_pos h3])
      · dsimp only
        rw [if_neg h3]
        simp only [State.modG_modG]
        exact modG_congr _ _ (fun x => by simp only [Here.ending, h1, hd, if_false, if_neg h3])

/-- An instruction that nothing stops: every lane runs, the effect takes place and the instruction ends. -/
theorem vec_all {s : State} {h : Here} {v : VecIn} {eff}
    (hr : Runs s h v.ops v.names)
    (hf : ∀ k ∈ h.lanes, (v.out h (s.readStreams h (streamsOf v.ops)).1 k).fault = none) :
    let sr := s.readStreams h (streamsOf v.ops)
    let outs := h.lanes.map (fun k => (k, v.out h sr.1 k))
    s.vec h v none eff =
      (eff sr.2 32 outs).1.modG h (h.ending v (outs.foldl (fun f o => f ||| o.2.flags) 0) (eff sr.2 32 outs).2) := by
  obtain ⟨_, hc, ho, hu, hq, hs, hl, hb⟩ := hr
  obtain ⟨_, hreads, _⟩ := reads_readStreams s h (streamsOf v.ops)
  have hnq : (h.grp.allocates (v.ops.flatMap Opnd.frees) (v.written h.grp) &&
      decide (h.limit < h.grp.wouldHold (v.ops.flatMap Opnd.frees) (v.written h.grp))) = false := by
    unfold VecIn.written
    split
    · simp [Group.allocates]
    · cases ha : h.grp.allocates (v.ops.flatMap Opnd.frees) v.names with
      | false => rfl
      | true => simpa using hq ha
  have hlost : ∀ k ∈ h.lanes, v.lost h k = none := by
    intro k hk
    simp only [VecIn.lost]
    split
    · rfl
    · rw [List.findSome?_eq_none_iff]; exact hl k hk
  have hunseen : v.unseen h ((s.readStreams h (streamsOf v.ops)).2.core h.q) (s.bcnMode h) = true := by
    simp only [VecIn.unseen, (hreads.core.1 h.q).2]
    rcases hb with hb | ⟨_, hb⟩
    · simp [hb]
    · have hnone : (∀ b ∈ (s.core h.q).bcnctl, b.getLsbD 31 = false) → (s.core h.q).bcnctl.any (fun b => b.getLsbD 31) = false := by
        intro hall; rw [List.any_eq_false]; intro b hbm; rw [hall b hbm]; exact Bool.false_ne_true
      cases hm : s.bcnMode h <;> simp only [hm] at hb
      · rw [hnone hb]; simp
      · rw [hnone hb]; simp
      · simp [hb]
  have hh : h.cur.handler = true ∨ h.grp.halting = none := hb.imp id (fun h => h.1)
  have h33 : ¬ h.grp.cursor = 33 := by omega
  simp only [State.vec, h33, if_false, hu, hnq, Bool.false_eq_true, hs]
  rw [runLanes_all h v _ _ _ _ h.lanes _ hlost hf hunseen rfl]
  simp only [Lanes.start, List.nil_append, State.keepHits, if_true]
  exact vecEnd_all _ h v _ eff hc ho hh

/-! ### What it delivers -/

theorem State.mine_modG {s : State} {h : Here} (f : Group → Group) (hh : s.here = some h) : (s.modG h f).mine h = some (f h.grp) := by
  obtain ⟨_, h2, h3, _, _, h6⟩ := State.here_parts (State.here_modG f hh)
  simp only [State.mine, State.grpAt, State.ctb?] at *
  rw [h2]; simp only [Option.bind_some]; rw [h3]; exact h6

/-- A change of the executing group and of what reads count keeps every memory. -/
theorem sameMem_onlyGroup {s t : State} {h : Here} {g : Group} (ho : OnlyGroup s t h g) : SameMem s t := by
  obtain ⟨u, f, hu, rfl, _⟩ := ho
  exact ⟨fun a => by simp only [State.modG_dram, hu.fields.2.1], fun q a => by simp only [State.core_modG, hu.scratch]⟩

theorem Here.ending_bare (h : Here) (v : VecIn) (fl : Word) (rs : List (Nat × DWord)) (g : Group) :
    (h.ending v fl rs g).bare = g.bare := by
  have hfree : ∀ (g : Group) (a b : List Nat), (g.freeAll a b).bare = g.bare := by
    intro g a b
    have := congrArg (fun x : Group => ({ x with iflags := 0, sd := [], cursor := 0, seen := [] } : Group)) (Group.freeAll_rest g a b)
    simpa [Group.bare] using this
  have halloc : ∀ (g : Group) (a : List Nat), (a.foldl (fun (g : Group) n => g.alloc n) g).bare = g.bare := by
    intro g a
    have := congrArg (fun x : Group => ({ x with iflags := 0, sd := [], cursor := 0, seen := [] } : Group)) (Group.allocs_rest g a)
    simpa [Group.bare] using this
  have hset : ∀ (g : Group) (w : Word) (p : List Pending) (l : List Stream) (n : Nat),
      ({ g with sd := l, cursor := n } : Group).bare = g.bare ∧ ({ g with pend := p } : Group).bare = g.bare ∧
        ({ g with iflags := w } : Group).bare = g.bare := fun _ _ _ _ _ => ⟨rfl, rfl, rfl⟩
  simp only [Here.ending]
  rw [(hset _ 0 [] _ 32).1]
  have h1 : (if v.land = 1 then ({ g with iflags := g.iflags ||| fl } : Group) else g).bare = g.bare := by
    split
    · exact (hset _ _ [] [] 0).2.2
    · rfl
  split
  · rw [hfree, h1]
  · split
    · rw [hfree, h1]
    · rw [(hset _ 0 _ [] 0).2.1, halloc, hfree, h1]

theorem Group.freeAll_sd (g : Group) (a b : List Nat) : (g.freeAll a b).sd = g.sd := by
  have := congrArg (fun x : Group => x.sd) (Group.freeAll_rest g a b); simpa using this
theorem Group.allocs_sd (g : Group) (ns : List Nat) : (ns.foldl (fun (g : Group) n => g.alloc n) g).sd = g.sd := by
  have := congrArg (fun x : Group => x.sd) (Group.allocs_rest g ns); simpa using this
theorem Group.freeAll_iflags (g : Group) (a b : List Nat) : (g.freeAll a b).iflags = g.iflags := by
  have := congrArg (fun x : Group => x.iflags) (Group.freeAll_rest g a b); simpa using this
theorem Group.allocs_iflags (g : Group) (ns : List Nat) : (ns.foldl (fun (g : Group) n => g.alloc n) g).iflags = g.iflags := by
  have := congrArg (fun x : Group => x.iflags) (Group.allocs_rest g ns); simpa using this
theorem Group.freeAll_pend (g : Group) (dst : List Nat) : (g.freeAll [] dst).pend = g.pend := by
  simp [Group.freeAll, once]

theorem Here.ending_iflags (h : Here) (v : VecIn) (fl : Word) (rs : List (Nat × DWord)) (g : Group) :
    (h.ending v fl rs g).iflags = if v.land = 1 then g.iflags ||| fl else g.iflags := by
  have h1 : (if v.land = 1 then ({ g with iflags := g.iflags ||| fl } : Group) else g).iflags =
      if v.land = 1 then g.iflags ||| fl else g.iflags := by split <;> rfl
  simp only [Here.ending]
  split
  · rw [Group.freeAll_iflags, h1]
  · split
    · rw [Group.freeAll_iflags, h1]
    · show (List.foldl _ _ _ : Group).iflags = _
      rw [Group.allocs_iflags, Group.freeAll_iflags, h1]

theorem Group.freeAll_seen (g : Group) (a b : List Nat) : (g.freeAll a b).seen = g.seen := by
  have := congrArg (fun x : Group => x.seen) (Group.freeAll_rest g a b); simpa using this
theorem Group.allocs_seen (g : Group) (ns : List Nat) : (ns.foldl (fun (g : Group) n => g.alloc n) g).seen = g.seen := by
  have := congrArg (fun x : Group => x.seen) (Group.allocs_rest g ns); simpa using this

theorem Here.ending_seen (h : Here) (v : VecIn) (fl : Word) (rs : List (Nat × DWord)) (g : Group) :
    (h.ending v fl rs g).seen = g.seen := by
  have h1 : (if v.land = 1 then ({ g with iflags := g.iflags ||| fl } : Group) else g).seen = g.seen := by split <;> rfl
  simp only [Here.ending]
  split
  · rw [Group.freeAll_seen, h1]
  · split
    · rw [Group.freeAll_seen, h1]
    · show (List.foldl _ _ _ : Group).seen = _
      rw [Group.allocs_seen, Group.freeAll_seen, h1]

theorem Here.ending_sources (h : Here) (v : VecIn) (fl : Word) (rs : List (Nat × DWord)) (g0 g : Group) (l : List Seen)
    (hl : ∀ x ∈ l, x.own = true) (hn : streamsOf v.ops = [] → l = []) (hg : g.vregs = g0.vregs ∧ g.sd = g0.sd ∧ g.seen = l ++ g0.seen) :
    SourcesDone g0 (h.ending v fl rs g) v.ops v.names := by
  suffices hs : _ ∧ _ from ⟨⟨l, by rw [Here.ending_seen, hg.2.2], hl⟩, fun h0 => by rw [Here.ending_seen, hg.2.2, hn h0]; rfl, hs⟩
  have hvr : ∀ n, g0.vreg? n = g.vreg? n := fun n => by simp only [Group.vreg?, hg.1]
  rw [← hg.2.1]
  simp only [hvr]
  have h1 : (if v.land = 1 then ({ g with iflags := g.iflags ||| fl } : Group) else g).sd = g.sd := by split <;> rfl
  have h2 : ∀ n, (if v.land = 1 then ({ g with iflags := g.iflags ||| fl } : Group) else g).vreg? n = g.vreg? n := by
    intro n; split <;> rfl
  have hv : ∀ n, n ∉ v.names → (h.ending v fl rs g).vreg? n = if n ∈ v.ops.flatMap Opnd.frees then none else g.vreg? n := by
    intro n hn
    have hfree : ∀ x : Group, (∀ m, x.vreg? m = g.vreg? m) → (x.freeAll (v.ops.flatMap Opnd.frees) (v.written h.grp)).vreg? n =
        if n ∈ v.ops.flatMap Opnd.frees then none else g.vreg? n := by
      intro x hx; rw [Group.freeAll_vreg? _ _ _ _ (VecIn.not_written _ hn), hx]
    simp only [Here.ending]
    cases hd : v.result h.grp with
    | none => exact hfree _ h2
    | some d =>
      dsimp only
      split
      · exact hfree _ h2
      · show (List.foldl _ _ _ : Group).vreg? n = _
        rw [Group.allocs_vreg? _ _ _ (by simpa [VecIn.names, VecIn.dst_of_result hd] using hn)]
        exact hfree _ h2
  refine ⟨?_, fun n hn hm => ?_, fun n hn hm => ?_⟩
  · have hsd : ∀ x : Group, x.sd = g.sd → ((x.freeAll (v.ops.flatMap Opnd.frees) (v.written h.grp)).sd) = g.sd := by
      intro x hx; rw [Group.freeAll_sd, hx]
    simp only [Here.ending]
    congr 1
    split
    · exact hsd _ h1
    · split
      · exact hsd _ h1
      · show (List.foldl _ _ _ : Group).sd = _
        rw [Group.allocs_sd, hsd _ h1]
  · rw [hv n hn, if_neg hm]
  · rw [hv n hn, if_pos hm]

theorem laneMask_bit (ks : List Nat) (f : Nat → DWord) (k : Nat) (hk : k < 32) :
    bit (laneMask (ks.map (fun j => (j, f j)))) k = ks.contains k := by
  rw [laneMask, bit_maskOf _ _ hk]
  induction ks with
  | nil => rfl
  | cons j ks ih =>
    rw [List.map_cons, List.any_cons, ih, List.contains_cons]
    simp only [Bool.beq_comm (a := k)]

theorem laneVals_at (ks : List Nat) (f : Nat → DWord) (k : Nat) (hk : k < 32) (hm : k ∈ ks) :
    laneOf (laneVals (ks.map (fun j => (j, f j)))) k = f k := by
  rw [laneVals, laneOf_mkLanes _ _ hk, look_map_pair ks f k hm]; rfl

theorem Here.ending_inFlight (h : Here) (v : VecIn) (fl : Word) (f : Nat → DWord) (g : Group) (d : Dst)
    (hd : v.result h.grp = some d) (ho : h.cur.only = none) :
    InFlight h (h.ending v fl (h.lanes.map (fun k => (k, f k))) g) d v.w64 v.land f (if v.land = 1 then 0 else fl) := by
  intro hne
  have hlt : ∀ k ∈ h.lanes, k < 32 := fun k hk => Here.lanes_lt ho hk
  have hcond : ¬ (laneMask (h.lanes.map (fun k => (k, f k))) = 0 ∧ dstReg d = none) := by
    rintro ⟨hz, hreg⟩
    rcases hne with hne | hne
    · obtain ⟨k, hk⟩ := List.exists_mem_of_ne_nil _ hne
      have := laneMask_bit h.lanes f k (hlt k hk)
      rw [hz, List.contains_iff_mem.mpr hk] at this
      simp [bit] at this
    · exact hne hreg
  refine ⟨{ due := h.rg.pos + v.land, run := h.reach.run, reg := dstReg d, w64 := v.w64, latch := some (dstLatch d)
            lanes := laneMask (h.lanes.map (fun k => (k, f k))), vals := laneVals (h.lanes.map (fun k => (k, f k)))
            dead := [], rows := 0, flags := if v.land = 1 then 0 else fl, see := none, item := 0 },
    ?_, rfl, rfl, rfl, rfl, rfl, rfl, rfl, rfl, fun k hk => laneMask_bit _ f k hk, fun k hk => laneVals_at _ f k (hlt k hk) hk⟩
  simp only [Here.ending, hd]
  rw [if_neg hcond]
  simp

theorem OnlyGroup.mk' {s u : State} {h : Here} (hu : Counted s u) (f : Group → Group) : OnlyGroup s (u.modG h f) h (f h.grp) :=
  ⟨u, f, hu, rfl, rfl⟩

/-- An instruction of class V or V2 without an effect beside its result: what it delivers when nothing stops it. -/
theorem vec_delivers {s : State} {h : Here} {v : VecIn} {d : Dst} (hd : v.dst = some d) (hw : v.wide = none)
    (hr : Runs s h v.ops (dstNames d v.w64))
    (hf : ∀ k ∈ h.lanes, (v.out h (s.readStreams h (streamsOf v.ops)).1 k).fault = none) :
    Delivers s (s.vec h v none justVals) h v.ops d v.w64 v.land
      (fun k => (v.out h (s.readStreams h (streamsOf v.ops)).1 k).val)
      (h.lanes.foldl (fun x k => x ||| (v.out h (s.readStreams h (streamsOf v.ops)).1 k).flags) 0) := by
  have hn : v.names = dstNames d v.w64 := by simp [VecIn.names, hd]
  obtain ⟨l, hreads, hnone⟩ := reads_readStreams s h (streamsOf v.ops)
  have hall := vec_all (eff := justVals) (hn ▸ hr) hf
  dsimp only [justVals] at hall
  rw [List.map_map, List.foldl_map] at hall
  obtain ⟨u, hu, hmod⟩ := hreads.modG (h.ending v
    (h.lanes.foldl (fun x k => x ||| (v.out h (s.readStreams h (streamsOf v.ops)).1 k).flags) 0)
    (h.lanes.map (fun k => (k, (v.out h (s.readStreams h (streamsOf v.ops)).1 k).val))))
  change s.vec h v none justVals = _ at hall
  rw [hall]
  refine (congrArg (fun t => Delivers s t h v.ops d v.w64 v.land _ _) hmod).mpr ?_
  have hhere : u.here = some h := by rw [hu.here]; exact hr.1
  have honly := OnlyGroup.mk' hu (h := h) (fun g => h.ending v
    (h.lanes.foldl (fun x k => x ||| (v.out h (s.readStreams h (streamsOf v.ops)).1 k).flags) 0)
    (h.lanes.map (fun k => (k, (v.out h (s.readStreams h (streamsOf v.ops)).1 k).val))) (g.addSeen l))
  refine ⟨by rw [State.modG_faults, hu.fields.1], sameMem_onlyGroup honly, _, State.mine_modG _ hhere, honly, ?_, rfl, ?_, ?_, ?_⟩
  · rw [Here.ending_bare]; rfl
  · rw [Here.ending_iflags]; rfl
  · rw [← hn]; exact Here.ending_sources _ _ _ _ _ _ l hreads.1 hnone ⟨rfl, rfl, rfl⟩
  · exact Here.ending_inFlight _ _ _ _ _ d ((VecIn.result_lane hw _).trans hd) hr.2.2.1

theorem exec_withHere {s : State} {h : Here} (hh : s.here = some h) (f : Here → State) : s.withHere f = .next (f h) := by
  simp [State.withHere, hh]

/-- An instruction that the skeleton runs without an effect beside its results. -/
theorem laneInstr_of_vec {i : Instr} {ops : List Opnd} {d : Dst} {w64 st : Bool} {n : Nat} {ok : State → Here → Prop}
    {F : State → Here → Nat → List DWord → LaneOut} {f : Here → Nat → List DWord → DWord} {fl : Here → Nat → List DWord → Word}
    (hi : ∀ s h, s.here = some h → ok s h → exec i s = .next (s.vec h
      { ops := ops, dst := some d, w64 := w64, land := n, steps := st, lane := F s h } none justVals))
    (h0 : ∀ s h, ok s h → ∀ k ∈ h.lanes, (F s h k (s.srcs h ops k)).fault = none)
    (hv : ∀ s h, ok s h → ∀ k ∈ h.lanes, (F s h k (s.srcs h ops k)).val = f h k (s.srcs h ops k))
    (hfl : ∀ s h, ok s h → ∀ k ∈ h.lanes, (F s h k (s.srcs h ops k)).flags = fl h k (s.srcs h ops k)) :
    LaneInstr i ops d w64 n ok f fl := by
  intro s h hr hok
  refine ⟨_, hi s h hr.1 hok, ?_⟩
  have := vec_delivers (v := { ops := ops, dst := some d, w64 := w64, land := n, steps := st, lane := F s h }) rfl rfl hr
    (h0 s h hok)
  have e1 : h.lanes.foldl (fun x k => x ||| (F s h k (s.srcs h ops k)).flags) 0 =
      h.lanes.foldl (fun x k => x ||| fl h k (s.srcs h ops k)) 0 := by
    have : ∀ (l : List Nat) (a : Word), (∀ k ∈ l, (F s h k (s.srcs h ops k)).flags = fl h k (s.srcs h ops k)) →
        l.foldl (fun x k => x ||| (F s h k (s.srcs h ops k)).flags) a = l.foldl (fun x k => x ||| fl h k (s.srcs h ops k)) a := by
      intro l
      induction l with
      | nil => intro a _; rfl
      | cons k l ih =>
        intro a hl
        rw [List.foldl_cons, List.foldl_cons, hl k (by simp), ih _ (fun j hj => hl j (by simp [hj]))]
    exact this _ _ (hfl s h hok)
  change Delivers s _ h ops d w64 n (fun k => (F s h k (s.srcs h ops k)).val)
    (h.lanes.foldl (fun x k => x ||| (F s h k (s.srcs h ops k)).flags) 0) at this
  rw [e1] at this
  obtain ⟨h1, h2, g, h3, h4, h5, h6, h7, h8, h9⟩ := this
  refine ⟨h1, h2, g, h3, h4, h5, h6, h7, h8, fun hne => ?_⟩
  obtain ⟨p, a1, a2, a3, a4, a5, a6, a7, a8, a9, a10, a11⟩ := h9 hne
  exact ⟨p, a1, a2, a3, a4, a5, a6, a7, a8, a9, a10, fun k hk => (a11 k hk).trans (hv s h hok k hk)⟩

/-- An operation of class V or V2 on lane values. -/
theorem lane1F_of_lanewise {i : Instr} {ops : List Opnd} {d : Dst} {w64 : Bool} {F : List DWord → LaneOut}
    {f : List DWord → DWord} {fl : List DWord → Word} (hi : ∀ s, exec i s = s.lanewise ops d w64 F)
    (h0 : ∀ vs, (F vs).fault = none) (hv : ∀ vs, (F vs).val = f vs) (hfl : ∀ vs, (F vs).flags = fl vs) :
    Lane1F i ops d w64 f fl :=
  laneInstr_of_vec (st := true) (F := fun _ _ _ vs => F vs)
    (fun s h hh _ => by rw [hi, State.lanewise, State.compute, exec_withHere hh]) (fun _ _ _ _ _ => h0 _) (fun _ _ _ _ _ => hv _)
    (fun _ _ _ _ _ => hfl _)

theorem lane1_of_lanewise {i : Instr} {ops : List Opnd} {d : Dst} {w64 : Bool} {F : List DWord → LaneOut}
    {f : List DWord → DWord} (hi : ∀ s, exec i s = s.lanewise ops d w64 F)
    (h0 : ∀ vs, (F vs).fault = none) (hv : ∀ vs, (F vs).val = f vs) (hfl : ∀ vs, (F vs).flags = 0) :
    Lane1 i ops d w64 f := lane1F_of_lanewise hi h0 hv hfl

/-- The same value in every lane. -/
theorem putAll_delivers {s : State} {h : Here} {d : Dst} {w : Bool} (v : DWord) (hr : Runs s h [] (dstNames d w)) :
    Delivers s (s.putAll h d w v) h [] d w 1 (fun _ => v) 0 := by
  have := vec_delivers (v := { ops := [], dst := some d, w64 := w, steps := false, lane := fun _ _ => { val := v } }) rfl rfl hr
      (fun k _ => rfl)
  have e : ∀ (l : List Nat) (a : Word), l.foldl (fun x _ => x ||| 0) a = a := by
    intro l; induction l with
    | nil => intro a; rfl
    | cons k l ih => intro a; rw [List.foldl_cons, ih]; simp
  change Delivers s _ h [] d w 1 (fun _ => v) (h.lanes.foldl (fun x _ => x ||| 0) 0) at this
  rw [e] at this
  exact this

theorem Here.lanes_contains {h : Here} (ho : h.cur.only = none) (hc : h.grp.cursor = 0) {k : Nat} (hk : k < 32) :
    h.lanes.contains k = bit h.grp.active k := by
  simp only [Here.lanes, ho, hc]
  cases hb : bit h.grp.active k with
  | true => rw [List.contains_iff_mem]; simp [hk, hb]
  | false =>
    rw [← Bool.not_eq_true, List.contains_iff_mem]
    simp [hb]

theorem foldl_or_congr (l : List Nat) (f g : Nat → Word) (hl : ∀ k ∈ l, f k = g k) (a : Word) :
    l.foldl (fun x k => x ||| f k) a = l.foldl (fun x k => x ||| g k) a := by
  induction l generalizing a with
  | nil => rfl
  | cons k l ih => rw [List.foldl_cons, List.foldl_cons, hl k (by simp), ih (fun j hj => hl j (by simp [hj]))]

/-- An instruction whose effect is a change of its group without a result to put. -/
theorem vec_group {s : State} {h : Here} {v : VecIn} {eff} {f : Group → Group} (hd : v.dst = none)
    (hr : Runs s h v.ops [])
    (hf : ∀ k ∈ h.lanes, (v.out h (s.readStreams h (streamsOf v.ops)).1 k).fault = none)
    (he : ∀ u : State, eff u 32 (h.lanes.map (fun k =>
      (k, v.out h (s.readStreams h (streamsOf v.ops)).1 k))) = (u.modG h f, [])) :
    let fl := h.lanes.foldl (fun x k => x ||| (v.out h (s.readStreams h (streamsOf v.ops)).1 k).flags) 0
    let t := s.vec h v none eff
    ∃ l, (∀ x ∈ l, Seen.own x = true) ∧ (streamsOf v.ops = [] → l = []) ∧
      let g := h.ending v fl [] (f (h.grp.addSeen l))
      t.faults = s.faults ∧ SameMem s t ∧ t.mine h = some g ∧ OnlyGroup s t h g := by
  have hn : v.names = [] := by simp [VecIn.names, hd]
  obtain ⟨l, hreads, hnone⟩ := reads_readStreams s h (streamsOf v.ops)
  have hall := vec_all (eff := eff) (hn.symm ▸ hr) hf
  dsimp only at hall
  rw [he _, State.modG_modG, List.foldl_map] at hall
  obtain ⟨u, hu, hmod⟩ := hreads.modG (fun x => h.ending v
    (h.lanes.foldl (fun x k => x ||| (v.out h (s.readStreams h (streamsOf v.ops)).1 k).flags) 0) [] (f x))
  rw [hmod] at hall
  have hhere : u.here = some h := by rw [hu.here]; exact hr.1
  have honly := OnlyGroup.mk' hu (h := h) (fun g => h.ending v
    (h.lanes.foldl (fun x k => x ||| (v.out h (s.readStreams h (streamsOf v.ops)).1 k).flags) 0) [] (f (g.addSeen l)))
  dsimp only
  rw [hall]
  exact ⟨l, hreads.1, hnone, by rw [State.modG_faults, hu.fields.1], sameMem_onlyGroup honly, State.mine_modG _ hhere, honly⟩

theorem Here.ending_m (h : Here) (v : VecIn) (fl : Word) (rs : List (Nat × DWord)) (g : Group) :
    (h.ending v fl rs g).m = g.m := by
  have := Here.ending_bare h v fl rs g
  show (h.ending v fl rs g).bare.m = g.bare.m
  rw [this]

theorem look_map_none {α : Type} (l : List Nat) (f : Nat → α) (k : Nat) (hk : k ∉ l) :
    look (l.map (fun j => (j, f j))) k = none := by
  induction l with
  | nil => rfl
  | cons j l ih =>
    simp only [List.map_cons, look]
    rw [if_neg (fun hj => hk (by simp [hj])), ih (fun hm => hk (by simp [hm]))]

/-- A lane operation with a mask for its destination. -/
theorem maskInstr_of_vec {i : Instr} {ops : List Opnd} {d : BitVec 4} {F : Here → Nat → List DWord → LaneOut}
    {p : Here → List DWord → Bool} {fl : List DWord → Word}
    (hi : ∀ s h, s.here = some h → exec i s = .next (s.vec h { ops := ops, lane := F h } none (toMask h d)))
    (h0 : ∀ h k vs, (F h k vs).fault = none) (hv : ∀ h k vs, ((F h k vs).val != 0) = p h vs)
    (hfl : ∀ h k vs, (F h k vs).flags = fl vs) : MaskInstr i ops d p fl := by
  intro s h hr
  obtain ⟨l, hl, hnone, h1, h2, h3, h4⟩ := vec_group (v := { ops := ops, lane := F h }) (eff := toMask h d) rfl hr (fun k _ => h0 _ _ _)
    (fun u => rfl)
  have hc := hr.2.1
  have ho := hr.2.2.1
  refine ⟨_, _, hi s h hr.1, h1, h2, h3, h4, ?_, rfl, ?_, ?_, ?_, ?_⟩
  · rw [Here.ending_bare]; rfl
  · rw [Here.ending_iflags, if_pos rfl]
    show h.grp.iflags ||| _ = _
    congr 1
    exact foldl_or_congr _ _ _ (fun k _ => hfl _ _ _) 0
  · exact Here.ending_sources h { ops := ops, lane := F h } _ [] h.grp _ l hl hnone ⟨rfl, rfl, rfl⟩
  · intro n hn
    rw [Here.ending_m]
    simp [Group.putMask, Group.addSeen_m, List.getD_eq_getElem?_getD, Ne.symm hn]
  · intro hlt k hk
    rw [Here.ending_m]
    simp only [Group.putMask, Group.addSeen_m, List.getD_eq_getElem?_getD, List.getElem?_set, hlt, if_true, Option.getD_some, bit_maskOf _ _ hk]
    have hcov : h.covers 32 k = true := by simp [Here.covers, ho, hc, hk]
    rw [if_pos hcov]
    by_cases hmem : k ∈ h.lanes
    · rw [look_map_pair h.lanes _ k hmem, List.contains_iff_mem.mpr hmem]
      simp only [VecIn.out, hv, Bool.true_and]; rfl
    · have hact : bit h.grp.active k = false := by
        rw [← Here.lanes_contains ho hc hk, ← Bool.not_eq_true, List.contains_iff_mem]; exact hmem
      rw [look_map_none h.lanes _ k hmem, hact]
      rw [show h.lanes.contains k = false by rw [← Bool.not_eq_true, List.contains_iff_mem]; exact hmem]
      rfl

/-! ### Instructions without lanes -/

theorem State.mine_of_here {s : State} {h h' : Here} (hh : s.here = some h') (hc : h'.cur.row = h.cur.row ∧
    h'.cur.slot = h.cur.slot ∧ h'.cur.col = h.cur.col ∧ h'.cur.grp = h.cur.grp) : s.mine h = some h'.grp := by
  obtain ⟨_, h2, h3, _, _, h6⟩ := State.here_parts hh
  simp only [State.mine, State.grpAt, State.ctb?, ← hc.1, ← hc.2.1, ← hc.2.2.1, ← hc.2.2.2, h2, Option.bind_some, h3, h6]

/-- Changes of the executing group and of its reach group's registers: what they leave. -/
theorem onlyHere_mod {s : State} {h : Here} (hh : s.here = some h) (k : RGroup → RGroup) (f : Group → Group) :
    OnlyHere s ((s.modRG h k).modG h f) h (f h.grp) (k h.rg) := by
  refine ⟨f, k, rfl, rfl, rfl, ?_, ?_, fun a => rfl, fun q a => rfl⟩
  · exact State.mine_of_here (State.here_modG (h := { h with reach := h.reach.modRg h.cur.grp h.cur.handler k, rg := k h.rg })
      f (State.here_modRG k hh)) ⟨rfl, rfl, rfl, rfl⟩
  · exact congrArg (Option.map (fun x => x.rg)) (State.here_modG
      (h := { h with reach := h.reach.modRg h.cur.grp h.cur.handler k, rg := k h.rg }) f (State.here_modRG k hh))

/-- An instruction of the headland whose meaning is a change of its registers. -/
theorem headInstr_of {i : Instr} {ok : State → Here → Prop} {f : State → Here → RGroup → RGroup}
    (hi : ∀ s h, s.here = some h → ok s h → exec i s = .next (s.modRG h (f s h))) : HeadInstr i ok f := by
  intro s h hh hok
  exact ⟨_, hi s h hh hok, rfl, by rw [State.here_modRG _ hh]; rfl, rfl, fun a => rfl, fun q a => rfl⟩

/-- An instruction whose meaning is a change of the executing group. -/
theorem groupInstr_of {i : Instr} {ok : State → Here → Prop} {f : Here → Group → Group}
    (hi : ∀ s h, s.here = some h → ok s h → exec i s = .next (s.modG h (fun g => { f h g with cursor := 32 }))) :
    GroupInstr i ok f := by
  intro s h hh hok
  exact ⟨_, hi s h hh hok, rfl, State.mine_modG _ hh, rfl, fun a => rfl, fun q a => rfl⟩

/-- An instruction with both parts. -/
theorem bothInstr_of {i : Instr} {ok : State → Here → Prop} {f : State → Here → RGroup → RGroup}
    {g : State → Here → Group → Group}
    (hi : ∀ s h, s.here = some h → (h.cur.head = true → ok s h) →
      exec i s = .next ((if h.cur.head then s.modRG h (f s h) else s).modG h (fun x => { g s h x with cursor := 32 }))) :
    BothInstr i ok f g := by
  intro s h hh hok
  refine ⟨_, hi s h hh hok, rfl, ?_⟩
  cases hc : h.cur.head
  · refine ⟨State.mine_modG _ hh, ?_, rfl, fun a => rfl, fun q a => rfl⟩
    simp only [Bool.false_eq_true, if_false]
    rw [State.here_modG _ hh]; rfl
  · obtain ⟨_, _, _, _, _, h1, h2, h3⟩ := onlyHere_mod hh (f s h) (fun x => { g s h x with cursor := 32 })
    exact ⟨h1, h2, rfl, h3⟩

end Sys2Proof.Machine
end

