-- ==== Sys2Proof/Tests/Slice0.lean ====
section
/-! SUPPORT. The model's own tests: ill-formed terms, words written out from the spec's encoding tables, one step from a
placed instruction, and, for each statement with hypotheses, a state and operands that meet them. -/
namespace Sys2Proof.Tests
open Sys2Proof Sys2Proof.Machine

set_option Elab.async false

/-! ### WellFormed: an ill-formed term for each check, which the check refuses -/

theorem test_wf_control : [Instr.brc .z 1 2 0, .brxK 1 { joff := 0, n := 0, toff := 0 }, .brxV 1 false { joff := 0, n := 0, toff := 0 },
    .msave 0, .mand 0 1 2, .mor 0 1 2, .mxor 0 1 2, .mandn 0 1 2, .mnot 0 1, .mmov 0 1].all (fun i => !wf i) = true := by decide

theorem test_wf_integer : [Instr.add .i64 false (.reg 3 0) (.v 2 false) (.imm 0), .sub .n64 false (.latch 0) (.v 3 false) (.imm 0),
    .mul .i64 (.latch 0) (.sd 1) (.imm 0), .min .i64 (.latch 0) (.k 0) (.src (.v 5 false)), .max .n64 (.reg 5 0) (.k 0) (.imm 0),
    .mulh .i64 (.latch 0) (.k 0) (.sd 0), .div .i64 (.reg 1 0) (.k 0) (.k 0), .rem .n64 (.reg 2 0) (.v 1 false) (.k 0),
    .mad .i64 false (.reg 2 0) (.k 0) (.k 0) (.sd 0), .abs .w64 false (.reg 1 0) (.k 0), .neg .w64 false (.reg 2 0) (.sd 0),
    .and .w64 (.reg 1 0) (.k 0) (.imm 0), .or .w64 (.reg 1 0) (.k 0) (.imm 0), .xor .w64 (.reg 1 0) (.k 0) (.imm 0),
    .andn .w64 (.reg 1 0) (.k 0) (.imm 0), .shl .w64 (.reg 1 0) (.k 0) (.imm 0), .rot .w64 (.reg 1 0) (.k 0) (.imm 0),
    .shr .n64 (.reg 1 0) (.k 0) (.imm 0), .popc .w64 (.reg 2 0) (.sd 0), .clz .w64 (.reg 2 0) (.sd 0), .ctz .w64 (.reg 2 0) (.v 1 false),
    .brev .w64 (.reg 1 0) (.k 0), .bfx .n32 (.reg 1 0) (.k 0) 0 0, .bfx .n32 (.reg 1 0) (.k 0) 32 1, .bfi .w32 (.reg 1 0) (.k 0) (.k 0) 1 32,
    .cmp .eq .i32 0 (.k 0) (.imm 0), .sel .w64 (.reg 1 0) (.k 0) (.k 0) 0, .mov .w64 (.reg 1 0) (.imm 0), .lea (.reg 1 0) (.k 0) (.k 0) 0,
    .lea (.reg 2 0) (.v 1 false) (.k 0) 0, .acvTo .lane (.reg 1 0) (.k 0), .acvFrom .lane (.reg 2 0) (.sd 0), .ats .global 0 (.k 0),
    .vget 0 (.reg 1 0) 0 0 0, .vget 0 (.reg 1 0) 2000 0 49, .vput 0 0 (.k 0) 0 257].all (fun i => !wf i) = true := by decide

theorem test_wf_float : [Instr.fcmp .eq .f32 0 (.k 0) (.k 0), .fcvt .f16 .f16 .rne (.reg 1 0) (.k 0), .icvt true .i64 .f32 .rne (.reg 1 0) (.sd 0),
    .icvt false .i64 .f32 .rne (.reg 1 0) (.k 0), .funpack false (.reg 1 0) (.k 0), .gred .min .f32 .rtz (.reg 1 0) (.k 0),
    .gscan .add .i32 .rtz (.reg 1 0) (.k 0), .gshuf .up (.reg 1 0) (.k 0) (.src (.v 1 false)), .gbcast .w64 (.reg 1 0) (.k 0) (.k 0)].all
    (fun i => !wf i) = true := by decide

theorem test_wf_memory : [Instr.ld .b64 (.reg 1 0) (.k 0) none none, .ld .b32 (.reg 1 0) (.v 1 false) none none,
    .ld .b32 (.reg 1 0) (.k 0) (some (.v 0 false)) none, .lld .b64 (.reg 1 0) (.k 0) none none, .cld .b32 (.reg 1 0) (.sd 0) none none,
    .st .b64 (.k 0) none 0 (.v 1 false), .lst .b32 (.sd 0) none 0 (.k 0), .cst .b32 (.k 0) (some (.v 0 true)) 0 (.k 0),
    .sdset .b32 0 61 0 1, .sdset .b32 0 0 0 0, .sdset .b32 0 0 0 33, .sdget .base (.reg 1 0) 0, .sdrd .w64 (.reg 1 0) 0,
    .sdwr .w64 0 (.sd 0)].all (fun i => !wf i) = true := by decide

theorem test_wf_matrix_copy : [Instr.mmq .bf16 true 0 0 0, .mtile .b8 true 0 0 0 { kb := 1, nbm := 0, tile := 0, psl := 0, nstr := 0 },
    .mtile .bf16 false 0 0 0 { kb := 0, nbm := 0, tile := 0, psl := 0, nstr := 0 }, .xcopyIn 0 0 0 { rows := 0, rbytes := 8, gpitch := 8 },
    .xcopyOut 0 0 0 { rows := 1, rbytes := 0, gpitch := 8 }, .xred .add .f32 0 0 0 { rows := 1, rbytes := 4, gpitch := 8 },
    .xredAny .add .f32 0 0 0 { rows := 1, rbytes := 8, gpitch := 4 }, .xgather 0 0 0 { n := 0, rowb := 8, pitch := 8 },
    .xscatter 0 0 0 { n := 1, rowb := 0, pitch := 8 }, .xscatterAny 0 0 0 { n := 1, rowb := 8, pitch := 4 }, .tread (.reg 1 0)].all
    (fun i => !wf i) = true := by decide

theorem test_wf_sync_system : [Instr.atom .add .i64 (.reg 1 0) (.k 0) none 0 (.k 0), .atom .cas .i64 (.reg 2 0) (.k 0) none 0 (.v 2 false),
    .atom .cas .i32 (.reg 2 0) (.k 0) none 0 (.k 0), .red .add .i64 (.k 0) none 0 (.sd 0), .wait 0 (.reg 1 0) 0 (.imm 65536), .bind 0 0 (.obj 0),
    .bind 0 0 (.bar 16), .bind 0 0 (.bar (-16)), .bind 0 0 (.snd 16), .barArv (some 0), .barArvRlx (some 16), .xfence 1 1, .xfence 6 1, .xfence 1 7,
    .fmtq 0 (.reg 1 0), .sysrd (.reg 2 0) 3, .sysrd (.reg 1 0) 0, .syswr (.k 0) 0x300, .syswr (.sd 0) 1, .syswr (.v 1 false) 0x30,
    .tinfo .pc (.reg 1 0), .hread (.reg 1 0) { index := 2048, item := 0, group := 0 }, .hwrite (.k 0) { index := 0, item := 0xFF, group := 0 }].all
    (fun i => !wf i) = true := by decide

/-! ### Words written out from 02 Tables 2.2 to 2.5 and 2.12 to 2.21 and the classes' encoding tables -/

/-- The fields of 02 Table 2.2; `hi` is what stands above bit 63. -/
structure Fields where
  len : Nat := 0
  maj : Nat := 0
  fn  : Nat := 0
  d   : Nat := 0
  dl  : Nat := 0
  wb  : Nat := 0
  a   : Nat := 0
  ak  : Nat := 0
  al  : Nat := 0
  b   : Nat := 0
  bk  : Nat := 0
  bl  : Nat := 0
  md  : Nat := 0
  hi  : Nat := 0

/-- The word of 02 Table 2.2. -/
def Fields.word (f : Fields) : Nat :=
  f.len + 2 ^ 2 * f.maj + 2 ^ 10 * f.fn + 2 ^ 16 * f.d + 2 ^ 27 * f.dl + 2 ^ 29 * f.wb + 2 ^ 30 * f.a + 2 ^ 41 * f.ak + 2 ^ 43 * f.al +
    2 ^ 44 * f.b + 2 ^ 55 * f.bk + 2 ^ 57 * f.bl + 2 ^ 58 * f.md + 2 ^ 64 * f.hi

/-- The C form of 02 Table 2.3. -/
def cForm (c ck cl imm : Nat) : Nat := c + 2 ^ 11 * ck + 2 ^ 13 * cl + 2 ^ 14 * imm

/-- The word of these fields decodes to the instruction. -/
def reads (e : Fields × Instr) : Bool :=
  decodeTableWord (if e.1.len = 0 then 64 else if e.1.len = 1 then 96 else 128) e.1.word == some e.2

theorem test_words_control : List.all [
    (({ } : Fields), Instr.nop),
    ({ len := 1, maj := 1, hi := 0xFFFFFFFF }, .br 0xFFFFFFFF),
    ({ len := 1, maj := 2, fn := 2, a := 3, ak := 2, b := 4, bk := 2, hi := 0xFFFFFFF8 }, .brc .lt 3 4 0xFFFFFFF8),
    ({ len := 1, maj := 2, fn := 7, a := 3, ak := 2, hi := 8 }, .brc .nz 3 0 8),
    ({ len := 1, maj := 3, d := 7, a := 7, ak := 2, hi := 5 }, .loop 7 7 5),
    ({ len := 1, maj := 4, d := 9, hi := 5 }, .call 9 5),
    ({ maj := 4, fn := 1, d := 9, a := 10, ak := 2 }, .callK 9 10),
    ({ maj := 5, a := 10, ak := 2 }, .ret 10),
    ({ len := 2, maj := 6, a := 63, ak := 2, hi := 2 ^ 40 * 0xABCDEF + 2 ^ 32 * 255 + 0x12345678 }, .brxK 63 { joff := 0xABCDEF, n := 255, toff := 0x12345678 }),
    ({ len := 2, maj := 6, fn := 1, a := 2047, al := 1, hi := 2 ^ 32 }, .brxV 2047 true { joff := 0, n := 1, toff := 0 }),
    ({ maj := 7, a := 15 }, .mif false 15), ({ maj := 7, fn := 1, a := 2 }, .mif true 2), ({ maj := 8 }, .melse), ({ maj := 9 }, .mend),
    ({ maj := 10, a := 3 }, .mset 3), ({ maj := 10, fn := 1 }, .msetAll), ({ maj := 11, d := 1, a := 2, b := 3 }, .mand 1 2 3),
    ({ maj := 11, fn := 1, d := 1, a := 2, b := 3 }, .mor 1 2 3), ({ maj := 11, fn := 2, d := 1, a := 2, b := 3 }, .mxor 1 2 3),
    ({ maj := 11, fn := 3, d := 1, a := 2, b := 3 }, .mandn 1 2 3), ({ maj := 11, fn := 4, d := 15, a := 0 }, .mnot 15 0),
    ({ maj := 11, fn := 5, d := 15, a := 4 }, .mmov 15 4), ({ maj := 12, d := 4 }, .msave 4), ({ maj := 12, fn := 1, a := 4 }, .mrest 4),
    ({ maj := 13, d := 8, dl := 3, a := 4 }, .mcnt (.reg 8 3) 4), ({ maj := 13, fn := 1, wb := 1, dl := 2, a := 4 }, .mfirst (.latch 2) 4),
    ({ maj := 14, d := 8, a := 4, al := 1 }, .passE (.reg 8 0) 4 true), ({ maj := 14, fn := 1, d := 8, a := 4 }, .passS (.reg 8 0) 4 false),
    ({ maj := 15 }, .endG)] reads = true := by decide +kernel

theorem test_words_integer : List.all [
    (({ maj := 0x10, d := 5, dl := 2, a := 7, al := 1, b := 3, bk := 2 } : Fields), Instr.add .i32 false (.reg 5 2) (.v 7 true) (.src (.k 3))),
    ({ len := 1, maj := 0x10, d := 9, a := 9, hi := 0xFFFFFFFC }, .add .i32 false (.reg 9 0) (.v 9 false) (.imm 0xFFFFFFFC)),
    ({ maj := 0x11, fn := 1, d := 5, a := 1, ak := 1, b := 4, bk := 3, md := 1 }, .sub .n32 true (.reg 5 0) (.b 1) (.src (.sd 4))),
    ({ maj := 0x12, fn := 2, d := 6, a := 2, b := 4, bl := 1 }, .mul .i64 (.reg 6 0) (.v 2 false) (.src (.v 4 true))),
    ({ maj := 0x13, fn := 3, d := 6, a := 2, b := 4 }, .mulh .n64 (.reg 6 0) (.v 2 false) (.v 4 false)),
    ({ len := 1, maj := 0x14, fn := 1, d := 6, a := 2, b := 3, md := 1, hi := cForm 5 2 0 0 }, .mad .n32 true (.reg 6 0) (.v 2 false) (.v 3 false) (.k 5)),
    ({ maj := 0x15, d := 4, a := 2, b := 3 }, .div .i32 (.reg 4 0) (.v 2 false) (.v 3 false)),
    ({ maj := 0x16, fn := 2, d := 4, a := 2, b := 6 }, .rem .i64 (.reg 4 0) (.v 2 false) (.v 6 false)),
    ({ maj := 0x17, fn := 1, d := 4, a := 2, b := 6 }, .min .n32 (.reg 4 0) (.v 2 false) (.src (.v 6 false))),
    ({ len := 1, maj := 0x18, d := 4, a := 2, hi := 7 }, .max .i32 (.reg 4 0) (.v 2 false) (.imm 7)),
    ({ maj := 0x19, fn := 2, d := 4, a := 2, md := 1 }, .abs .w64 true (.reg 4 0) (.v 2 false)),
    ({ maj := 0x19, fn := 4, d := 4, a := 2 }, .neg .w32 false (.reg 4 0) (.v 2 false)),
    ({ maj := 0x1A, d := 4, a := 2, b := 3 }, .and .w32 (.reg 4 0) (.v 2 false) (.src (.v 3 false))),
    ({ maj := 0x1B, fn := 1, d := 4, a := 2, b := 6 }, .or .w64 (.reg 4 0) (.v 2 false) (.src (.v 6 false))),
    ({ maj := 0x1C, d := 4, a := 2, b := 3 }, .xor .w32 (.reg 4 0) (.v 2 false) (.src (.v 3 false))),
    ({ maj := 0x1D, d := 4, a := 2, b := 3 }, .andn .w32 (.reg 4 0) (.v 2 false) (.src (.v 3 false))),
    ({ maj := 0x1E, fn := 1, d := 4, a := 2, b := 3 }, .shl .w64 (.reg 4 0) (.v 2 false) (.src (.v 3 false))),
    ({ maj := 0x1F, fn := 1, d := 4, a := 2, b := 3 }, .shr .n32 (.reg 4 0) (.v 2 false) (.src (.v 3 false))),
    ({ maj := 0x20, d := 4, a := 2, b := 3 }, .rot .w32 (.reg 4 0) (.v 2 false) (.src (.v 3 false))),
    ({ maj := 0x21, fn := 1, d := 5, a := 2 }, .popc .w64 (.reg 5 0) (.v 2 false)), ({ maj := 0x21, fn := 4, d := 5, a := 3 }, .clz .w32 (.reg 5 0) (.v 3 false)),
    ({ maj := 0x21, fn := 8, d := 5, a := 3 }, .ctz .w32 (.reg 5 0) (.v 3 false)), ({ maj := 0x21, fn := 13, d := 6, a := 2 }, .brev .w64 (.reg 6 0) (.v 2 false)),
    ({ len := 1, maj := 0x22, fn := 1, d := 9, a := 8, hi := 0x01810000 }, .bfx .n32 (.reg 9 0) (.v 8 false) 4 6),
    ({ len := 1, maj := 0x23, fn := 1, d := 8, a := 2, b := 4, hi := cForm 0 0 0 (256 * 64) }, .bfi .w64 (.reg 8 0) (.v 2 false) (.v 4 false) 0 64),
    ({ len := 1, maj := 0x24, fn := 0x11, d := 1, a := 1, hi := 1 }, .cmp .gt .n32 1 (.v 1 false) (.imm 1)),
    ({ len := 1, maj := 0x25, d := 4, a := 2, b := 3, hi := cForm 15 0 0 0 }, .sel .w32 (.reg 4 0) (.v 2 false) (.v 3 false) 15),
    ({ maj := 0x26, fn := 1, d := 4, a := 7, ak := 2 }, .mov .w64 (.reg 4 0) (.src (.k 7))), ({ len := 1, maj := 0x26, d := 4, hi := 9 }, .mov .w32 (.reg 4 0) (.imm 9)),
    ({ maj := 0x27, d := 4, a := 7, ak := 2, b := 8, bk := 2 }, .kadd 4 7 (.k 8)), ({ len := 1, maj := 0x27, fn := 1, d := 4, a := 7, ak := 2, hi := 8 }, .ksub 4 7 (.imm 8)),
    ({ maj := 0x27, fn := 2, d := 4, a := 7, ak := 2, b := 8, bk := 2 }, .kmul 4 7 (.k 8)), ({ maj := 0x27, fn := 3, d := 4, a := 7, ak := 2, b := 8, bk := 2 }, .kshl 4 7 (.k 8)),
    ({ maj := 0x27, fn := 4, d := 4, a := 7, ak := 2, b := 8, bk := 2 }, .kshr 4 7 (.k 8)), ({ maj := 0x27, fn := 5, d := 4, a := 7, ak := 2, b := 8, bk := 2 }, .kand 4 7 (.k 8)),
    ({ maj := 0x27, fn := 6, d := 4, a := 7, ak := 2, b := 8, bk := 2 }, .kor 4 7 (.k 8)), ({ len := 1, maj := 0x27, fn := 7, d := 4, hi := 5 }, .kmov 4 (.imm 5)),
    ({ len := 1, maj := 0x27, fn := 8, d := 8, a := 1, hi := 4 }, .kli 8 (.imm32 true 4)), ({ len := 2, maj := 0x27, fn := 8, d := 8, hi := 2 ^ 63 + 1 }, .kli 8 (.imm64 0x8000000000000001)),
    ({ len := 1, maj := 0x28, d := 4, a := 7, ak := 2, b := 3, hi := 5 }, .lea (.reg 4 0) (.k 7) (.v 3 false) 5),
    ({ maj := 0x29, fn := 2, d := 4, a := 2 }, .acvTo .shared (.reg 4 0) (.v 2 false)), ({ maj := 0x29, fn := 7, d := 4, a := 2 }, .acvFrom .cluster (.reg 4 0) (.v 2 false)),
    ({ maj := 0x2A, fn := 1, d := 4, a := 2 }, .ats .lane 4 (.v 2 false)), ({ maj := 0x2B, fn := 11, d := 4 }, .sreg .nlanes (.reg 4 0)),
    ({ len := 1, maj := 0x2C, fn := 1, d := 40, a := 100, hi := 8 }, .vget 1 (.reg 40 0) 100 0 8),
    ({ len := 1, maj := 0x2D, fn := 3, a := 100, b := 4, hi := 0xFFFF0008 }, .vput 3 100 (.v 4 false) (-1) 8),
    ({ maj := 0x2E, fn := 2, a := 4 }, .ixset 2 (.src (.v 4 false))), ({ len := 1, maj := 0x2E, fn := 7, hi := 1 }, .ixadd 3 (.imm 1)),
    ({ maj := 0x2F, d := 4, a := 5, ak := 2 }, .rgrow (.reg 4 0) (.k 5)), ({ len := 1, maj := 0x2F, fn := 1, d := 4, hi := 2 }, .rshrink (.reg 4 0) (.imm 2)),
    ({ maj := 0x2F, fn := 2, d := 4 }, .rquery { dst := .reg 4 0 }),
    ({ len := 1, maj := 0x2F, fn := 2, d := 4, hi := 7 }, .rquery { dst := .reg 4 0, imm := some 7 })] reads = true := by decide +kernel

theorem test_words_float : List.all [
    (({ maj := 0x30, d := 5, a := 2, b := 3, md := 4 } : Fields), Instr.fadd .f32 .rdn (.reg 5 0) (.v 2 false) (.src (.v 3 false))),
    ({ len := 1, maj := 0x31, fn := 1, d := 5, a := 2, md := 1, hi := 0x3C003C00 }, .fsub .f16x2 .rna (.reg 5 0) (.v 2 false) (.imm 0x3C003C00)),
    ({ maj := 0x32, fn := 2, d := 5, a := 2, b := 3, md := 3 }, .fmul .bf16x2 .rup (.reg 5 0) (.v 2 false) (.src (.v 3 false))),
    ({ len := 1, maj := 0x33, d := 10, a := 4, b := 5, md := 2, hi := 6 }, .fma .f32 .rtz (.reg 10 0) (.v 4 false) (.v 5 false) (.v 6 false)),
    ({ maj := 0x34, d := 5, a := 2, b := 3 }, .fmin .f32 (.reg 5 0) (.v 2 false) (.v 3 false)), ({ maj := 0x35, fn := 2, d := 5, a := 2, b := 3 }, .fmax .bf16x2 (.reg 5 0) (.v 2 false) (.v 3 false)),
    ({ maj := 0x36, d := 5, a := 2 }, .fabs .f32 (.reg 5 0) (.v 2 false)), ({ maj := 0x36, fn := 5, d := 5, a := 2 }, .fneg .f16x2 (.reg 5 0) (.v 2 false)),
    ({ maj := 0x36, fn := 8, d := 5, a := 2, b := 3 }, .fcopysign .f32 (.reg 5 0) (.v 2 false) (.v 3 false)),
    ({ maj := 0x37, fn := 0x20, d := 2, a := 3, b := 4 }, .fcmp .tlt .f32 2 (.v 3 false) (.v 4 false)),
    ({ maj := 0x38, d := 5, a := 2 }, .frcp .rne (.reg 5 0) (.v 2 false)), ({ maj := 0x39, d := 5, a := 2, md := 1 }, .frsq .rna (.reg 5 0) (.v 2 false)),
    ({ maj := 0x3A, d := 5, a := 2, md := 2 }, .fsqrt .rtz (.reg 5 0) (.v 2 false)), ({ maj := 0x3B, d := 5, a := 2, md := 3 }, .fexp2 .rup (.reg 5 0) (.v 2 false)),
    ({ maj := 0x3C, d := 5, a := 2, md := 4 }, .flog2 .rdn (.reg 5 0) (.v 2 false)), ({ maj := 0x3D, fn := 1, d := 5, a := 2 }, .fclass .f16x2 (.reg 5 0) (.v 2 false)),
    ({ len := 1, maj := 0x3E, d := 5, a := 2, hi := 0xFFFFFFFF }, .fscale .f32 .rne (.reg 5 0) (.v 2 false) (.imm 0xFFFFFFFF)),
    ({ maj := 0x3F, d := 5, a := 2, md := 2 }, .frnd .f32 .rtz (.reg 5 0) (.v 2 false)), ({ maj := 0x40, fn := 0x11, d := 5, a := 2 }, .fcvt .bf16 .f16 .rne (.reg 5 0) (.v 2 false)),
    ({ maj := 0x41, fn := 9, d := 4, a := 2 }, .icvt false .i64 .f16 .rne (.reg 4 0) (.v 2 false)), ({ maj := 0x41, fn := 0x24, d := 4, a := 2 }, .icvt true .n32 .f32 .rne (.reg 4 0) (.v 2 false)),
    ({ maj := 0x42, d := 9, a := 8, md := 0x10 }, .qcvtTo 2 .rne (.reg 9 0) (.v 8 false)), ({ maj := 0x42, fn := 1, d := 9, a := 8, md := 0x3A }, .qcvtFrom 7 .rtz (.reg 9 0) (.v 8 false)),
    ({ maj := 0x43, fn := 1, d := 5, a := 2, b := 3 }, .fpack false .rne (.reg 5 0) (.v 2 false) (.v 3 false)), ({ maj := 0x43, fn := 6, d := 6, a := 2 }, .funpack true (.reg 6 0) (.v 2 false)),
    ({ len := 1, maj := 0x44, fn := 2, d := 5, a := 2, b := 3, hi := cForm 4 0 1 0 }, .fdot2 true .rne (.reg 5 0) (.v 2 false) (.v 3 false) (.v 4 true)),
    ({ len := 1, maj := 0x44, fn := 4, d := 5, a := 2, b := 3, md := 0x19, hi := cForm 4 0 0 0 }, .fdot4 3 .rna (.reg 5 0) (.v 2 false) (.v 3 false) (.v 4 false)),
    ({ maj := 0x45, d := 5, a := 2, md := 2 }, .gred .add .f32 .rtz (.reg 5 0) (.v 2 false)), ({ maj := 0x45, fn := 0x12, d := 5, a := 2 }, .gred .argmax .n32 .rne (.reg 5 0) (.v 2 false)),
    ({ maj := 0x46, fn := 4, d := 5, a := 2, md := 3 }, .gscan .addx .f32 .rup (.reg 5 0) (.v 2 false)), ({ maj := 0x46, fn := 0xD, d := 5, a := 2 }, .gscan .max .i32 .rne (.reg 5 0) (.v 2 false)),
    ({ maj := 0x47, d := 5, a := 2, b := 3 }, .gshuf .idx (.reg 5 0) (.v 2 false) (.src (.v 3 false))), ({ len := 1, maj := 0x47, fn := 3, d := 5, a := 2, hi := 16 }, .gshuf .xor (.reg 5 0) (.v 2 false) (.imm 16)),
    ({ maj := 0x48, fn := 1, d := 4, a := 2, b := 3, bk := 2 }, .gbcast .w64 (.reg 4 0) (.v 2 false) (.k 3))] reads = true := by decide +kernel

theorem test_words_memory_matrix : List.all [
    (({ len := 1, maj := 0x50, fn := 4, d := 10, dl := 1, a := 2, ak := 2, b := 3, hi := 0x10 } : Fields), Instr.ld .b32 (.reg 10 1) (.k 2) (some (.v 3 false)) (some 0x10)),
    ({ maj := 0x52, fn := 1, d := 10, a := 2, ak := 2 }, .lld .i8 (.reg 10 0) (.k 2) none none), ({ maj := 0x54, fn := 5, d := 10, a := 2, b := 3 }, .cld .b64 (.reg 10 0) (.v 2 false) (some (.v 3 false)) none),
    ({ len := 1, maj := 0x51, fn := 4, a := 2, ak := 2, b := 3, hi := 0x0002200C }, .st .b32 (.k 2) (some (.v 3 false)) 8 (.v 12 true)),
    ({ len := 1, maj := 0x53, fn := 0, a := 2, ak := 2, hi := cForm 4 0 0 0x3FFFF }, .lst .b8 (.k 2) none (-1) (.v 4 false)),
    ({ len := 1, maj := 0x55, fn := 2, a := 2, ak := 2, hi := cForm 4 0 0 0 }, .cst .b16 (.k 2) none 0 (.v 4 false)),
    ({ len := 2, maj := 0x56, d := 4, a := 20, ak := 2, hi := 0x0000006000000400 }, .sdset .n16 4 20 0x400 32),
    ({ maj := 0x57, fn := 8, d := 6, a := 4, ak := 3 }, .sdget (.extent 2) (.reg 6 0) 4), ({ maj := 0x58, fn := 1, d := 6, a := 4, ak := 3 }, .sdrd .w64 (.reg 6 0) 4),
    ({ maj := 0x59, a := 4, ak := 3, b := 7 }, .sdwr .w32 4 (.v 7 false)), ({ maj := 0x5A, a := 15, ak := 3 }, .sdrew 15),
    ({ len := 1, maj := 0x70, a := 9, ak := 2, md := 0x38, hi := cForm 0 0 0 255 }, .mls 7 9 255), ({ len := 1, maj := 0x70, fn := 1, a := 9, ak := 2, b := 10, bk := 2, md := 8, hi := cForm 0 0 0 1 }, .mlsSp 1 9 10 1),
    ({ maj := 0x71 }, .mswap), ({ len := 1, maj := 0x72, fn := 0x0A, a := 1, ak := 3, md := 0x11, hi := cForm 0 0 0 15 }, .mmq (.int true false) true 2 1 15),
    ({ len := 2, maj := 0x73, a := 1, ak := 3, b := 9, bk := 2, md := 8, hi := 0x0314A00000004000 }, .mtile .bf16 false 1 1 9 { kb := 3, nbm := 1, tile := 4, psl := 5, nstr := 0x4000 }),
    ({ maj := 0x74, b := 5, bk := 2 }, .macz 5), ({ maj := 0x74, fn := 1, a := 6, ak := 2, b := 5, bk := 2 }, .maczFill 6 5),
    ({ len := 1, maj := 0x75, fn := 3, a := 6, ak := 2, b := 7, bk := 2, md := 0x18, hi := cForm 0 0 0 (4 + 16 * 9 + 256 * 3) }, .mdrain .n8 3 6 7 4 9 .rup),
    ({ len := 1, maj := 0x76, a := 1, ak := 3, hi := 0xFF408000 }, .msum false true 1 2 (-3)), ({ maj := 0x77, d := 9 }, .mstat (.reg 9 0))] reads = true := by decide +kernel

theorem test_words_copy_sync : List.all [
    (({ len := 2, maj := 0x80, d := 3, a := 4, ak := 2, b := 5, bk := 2, hi := 2 ^ 48 * 2 + 2 ^ 32 * 64 + 256 } : Fields), Instr.xcopyIn 3 4 5 { rows := 2, rbytes := 64, gpitch := 256 }),
    ({ len := 2, maj := 0x80, fn := 1, d := 7, a := 4, ak := 2, b := 5, bk := 2, hi := 2 ^ 48 * 2 + 2 ^ 32 * 64 + 256 }, .xcopyOut 7 4 5 { rows := 2, rbytes := 64, gpitch := 256 }),
    ({ len := 2, maj := 0x81, d := 3, a := 4, ak := 2, b := 5, bk := 2, hi := 2 ^ 48 * 2 + 2 ^ 32 * 64 + 256 }, .xgather 3 4 5 { n := 2, rowb := 64, pitch := 256 }),
    ({ len := 2, maj := 0x82, d := 3, a := 4, ak := 2, b := 5, bk := 2, hi := 2 ^ 48 * 2 + 2 ^ 32 * 64 + 256 }, .xscatter 3 4 5 { n := 2, rowb := 64, pitch := 256 }),
    ({ len := 2, maj := 0x82, fn := 1, d := 3, a := 4, ak := 2, b := 5, bk := 2, hi := 2 ^ 48 * 2 + 2 ^ 32 * 64 + 256 }, .xscatterAny 3 4 5 { n := 2, rowb := 64, pitch := 256 }),
    ({ len := 2, maj := 0x83, fn := 5, d := 3, a := 4, ak := 2, b := 5, bk := 2, hi := 2 ^ 48 * 2 + 2 ^ 32 * 64 + 256 }, .xred .min .i32 3 4 5 { rows := 2, rbytes := 64, gpitch := 256 }),
    ({ len := 2, maj := 0x83, fn := 0x28, d := 3, a := 4, ak := 2, b := 5, bk := 2, hi := 2 ^ 48 * 2 + 2 ^ 32 * 64 + 256 }, .xredAny .max .f32 3 4 5 { rows := 2, rbytes := 64, gpitch := 256 }),
    ({ maj := 0x84, d := 5, a := 3, md := 31 }, .tsleep 31 (.reg 5 0) 3), ({ maj := 0x85, d := 4 }, .tread (.reg 4 0)), ({ maj := 0x86, d := 5, a := 7 }, .xstat (.reg 5 0) 7),
    ({ maj := 0x87, d := 5 }, .tresync (.reg 5 0)),
    ({ len := 1, maj := 0x90, fn := 0x1E, d := 6, a := 2, ak := 2, b := 3, hi := cForm 8 0 0 4 }, .atom .cas .i64 (.reg 6 0) (.k 2) (some (.v 3 false)) 4 (.v 8 false)),
    ({ len := 1, maj := 0x91, fn := 5, a := 2, ak := 2, hi := cForm 8 0 0 4 }, .red .min .n32 (.k 2) none 4 (.v 8 false)),
    ({ maj := 0x92, d := 2, a := 4, ak := 2, b := 5, bk := 2, md := 20 }, .acq 20 (.reg 2 0) 4 5), ({ maj := 0x93, a := 4, ak := 2 }, .rel 4),
    ({ len := 1, maj := 0x99, d := 6, a := 4, ak := 2, md := 31, hi := 16 }, .wait 31 (.reg 6 0) 4 (.imm 16)),
    ({ len := 1, maj := 0x94, a := 6, ak := 2, b := 7, bk := 2, hi := 0x00084000 }, .bind 6 7 (.obj 0x21)), ({ len := 1, maj := 0x94, a := 6, ak := 2, b := 7, bk := 2, hi := cForm 0 0 0 (2 ^ 16 + 0xFFFF) }, .bind 6 7 (.bar (-1))),
    ({ maj := 0x95, d := 3, md := 12 }, .barSync 12 (.reg 3 0) none), ({ len := 1, maj := 0x95, fn := 1, hi := 1 }, .barArv (some 1)), ({ maj := 0x95, fn := 2 }, .barArvRlx none),
    ({ len := 1, maj := 0x95, fn := 3, d := 4, md := 31, hi := 1 }, .barWait 31 (.reg 4 0) (some 1)), ({ maj := 0x96, d := 1, a := 20, ak := 2, b := 15, bk := 2, md := 31 }, .sndPush 31 (.reg 1 0) 20 15),
    ({ maj := 0x96, fn := 1, d := 1, a := 21, ak := 2, md := 31 }, .sndPop 31 (.reg 1 0) 21), ({ maj := 0x96, fn := 2, d := 9, a := 21, ak := 2 }, .sndPeek (.reg 9 0) 21),
    ({ maj := 0x96, fn := 3, a := 21, ak := 2, b := 5, bk := 2 }, .sndCfg 21 5), ({ maj := 0x97, fn := 3 }, .fence .device), ({ maj := 0x98, md := 1 + 8 * 3 }, .xfence 1 3)] reads = true := by decide +kernel

theorem test_words_launch_system : List.all [
    (({ maj := 0xA0, d := 3, a := 9, ak := 2, md := 12 } : Fields), Instr.cwait 12 (.reg 3 0) 9), ({ maj := 0xA1, a := 9, ak := 2 }, .cnext 9), ({ maj := 0xA2, d := 3, a := 9, ak := 2 }, .cstat (.reg 3 0) 9),
    ({ maj := 0xB0, d := 9, a := 4, ak := 2, b := 5, bk := 2, md := 1 }, .launch true 9 4 5), ({ maj := 0xB1, d := 3, a := 9, ak := 2, md := 12 }, .lwait 12 (.reg 3 0) 9),
    ({ maj := 0xB2, d := 3, a := 9, ak := 2 }, .lstat (.reg 3 0) 9), ({ maj := 0xB3, d := 3, a := 9, ak := 2 }, .lcancel (.reg 3 0) 9), ({ maj := 0xB4, d := 4, md := 8 * 7 }, .fmtq 7 (.reg 4 0)),
    ({ len := 1, maj := 0xC0, hi := 7 }, .trap (some 7)), ({ maj := 0xC1 }, .tret), ({ len := 1, maj := 0xC2, d := 6, hi := 1 }, .sysrd (.reg 6 0) 1),
    ({ len := 1, maj := 0xC3, a := 9, ak := 2, hi := 0x21 }, .syswr (.k 9) 0x21), ({ maj := 0xC4, fn := 2, d := 8 }, .tinfo .addr (.reg 8 0)), ({ maj := 0xC5 }, .tkillGroup), ({ maj := 0xC5, fn := 1 }, .tkillCtb),
    ({ len := 1, maj := 0xC6, d := 10, hi := 0x280001 }, .hread (.reg 10 0) { index := 40, item := 0, group := 1 }), ({ len := 1, maj := 0xC7, a := 12, hi := 0x280001 }, .hwrite (.v 12 false) { index := 40, item := 0, group := 1 }),
    ({ maj := 0xC8, d := 3, a := 5, ak := 2 }, .hstepLane (.reg 3 0) 5), ({ maj := 0xC8, fn := 1, d := 3, a := 5, ak := 2 }, .hstepCursor (.reg 3 0) 5), ({ maj := 0xC9, a := 5, ak := 2 }, .hgo (some 5)), ({ maj := 0xC9 }, .hgo none),
    ({ len := 1, maj := 0xCA, a := 20, ak := 2, b := 21, bk := 2, hi := 0x10212 }, .bcnArm 20 21 { count := 1, action := 1, cmp := 0, kind := 1, n := 2 }), ({ len := 1, maj := 0xCA, fn := 1, hi := 2 }, .bcnOff 2),
    ({ len := 1, maj := 0xCB, hi := 0x55 }, .emit (.imm 0x55))] reads = true := by decide +kernel

/-! ### States and operands that meet the hypotheses of the statements

Column 0 of row 0 executes a position of group 0 in slot 0; lane 0 is active; v2 to v9 are written. -/

/-- A position that executes. -/
def hereOf (g : Machine.Group) (c : Ctb) (rg : RGroup) (r : Reach) (l : Launch) (u : Cur) : Here :=
  { cur := u, reach := { r with rgs := [rg], ctbs := [(0, { c with groups := [g] })] }, rg := rg,
    ctb := { c with groups := [g] }, grp := g, launch := l }

/-- The state in which it executes. -/
def stateOf (h : Here) : State :=
  { State.reset with launches := [h.launch], reaches := [h.reach], cur := some h.cur, nextId := 1 }

def grp0 : Machine.Group :=
  { Group.start 0xFFFFFFFF with
    prd := 1
    vregs := (List.range 8).map (fun n => { name := n + 2, written := true, val := List.replicate 32 (BitVec.ofNat 32 n) }) }

/-- k0 to k8: 0, 2, 3, the bases of SHARED, CLUSTER and LANE, 7, ENTRY, 8. -/
def rg0 : RGroup :=
  RGroup.start 0x10000 ([0, 2, 3, 0xFFFFFF1000000000, 0xFFFFFF2000000000, 0xFFFFFF0000000000, 7, 0x10000, 8] ++ List.replicate 55 0) 0 0

def cur0 : Cur := { row := 0, slot := 0, col := 0, grp := 0, handler := false, head := true, pc := 0x10000, ilen := 8, only := none }

def h0 : Here := hereOf grp0 Ctb.small rg0 Reach.small (Launch.small true) cur0
def s0 : State := stateOf h0

theorem here0 : s0.here = some h0 := by decide +kernel
theorem lanes0 : h0.lanes = [0] := by decide +kernel
/-- `Runs` as a test: nothing is armed on the core, whose hits, if any, are counted one by one. -/
def clear (s : State) (h : Here) (ops : List Opnd) (dst : List Nat) : Bool :=
  s.here == some h && h.grp.cursor == 0 && h.cur.only == none && h.undef ops == none &&
    (!h.grp.allocates (ops.flatMap Opnd.frees) dst || decide (h.grp.wouldHold (ops.flatMap Opnd.frees) dst ≤ h.limit)) &&
    s.streamChecks h (streamsOf ops) == none && h.lanes.all (fun k => ops.all (fun o => o.latchLost h k == none)) &&
    h.grp.halting == none && s.issue == none && (s.core h.q).bcnctl.all (fun b => !b.getLsbD 31)

theorem runs_of {s : State} {h : Here} {ops : List Opnd} {dst : List Nat} (hc : clear s h ops dst = true) : Runs s h ops dst := by
  simp only [clear, Bool.and_eq_true, beq_iff_eq, List.all_eq_true, Bool.or_eq_true, Bool.not_eq_true', decide_eq_true_eq] at hc
  obtain ⟨⟨⟨⟨⟨⟨⟨⟨⟨h0, h1⟩, h2⟩, h3⟩, h4⟩, h5⟩, h6⟩, h7⟩, h8⟩, h9⟩ := hc
  refine ⟨h0, h1, h2, h3, fun hx => ?_, h5, h6, .inr ⟨h7, ?_⟩⟩
  · rcases h4 with h4 | h4
    · rw [h4] at hx; cases hx
    · exact h4
  · simp only [State.bcnMode, h8]
    exact h9
/-- The shapes of the sources and destinations of the lane instructions, each at its own width. -/
def laneShapes : List (List Opnd × List Nat) := [([], [10]), ([.src (.v 2 false) false], [10]), ([.src (.v 2 true) true], [10, 11]),
    ([.src (.v 2 false) false, opndB (.imm 5) false], [10]), ([.src (.v 2 false) false, .src (.v 3 true) false], [9]),
    ([.src (.v 2 false) true, opndB (.src (.k 3)) true], [10, 11]), ([.src (.v 2 false) true, .src (.v 4 false) true], [2, 3]),
    ([.src (.v 2 false) true, .src (.k 3) false], [10, 11]), ([.src (.v 2 false) true, .src (.v 5 false) false], [10]),
    ([.src (.v 2 false) false, .src (.v 3 false) false, .src (.v 4 false) false], [10]),
    ([.src (.v 2 false) true, .src (.v 4 false) true, .src (.v 6 true) true], [10, 11]), ([.imm 5], [10]), ([.imm 5], [10, 11]),
    ([.imm 5], []), ([.src (.v 2 false) false], []), ([.src (.v 2 false) true], []),
    ([.src (.v 2 false) false, .src (.v 3 false) false], [])]

/-- The hypotheses of WrappingArithmetic, SaturatingArithmetic, Division, MinMaxAbsNeg, BitsAndShifts, CompareSelectMove,
AddressesAndIdentity, FloatArithmetic, FloatSelection, FloatCompare and FloatFunctions: each has sources and a destination of
one of these shapes. -/
theorem test_meets_lane_shapes : ∀ e ∈ laneShapes, Runs s0 h0 e.1 e.2 := by
  have h1 : laneShapes.all (fun e => clear s0 h0 e.1 e.2) = true := by decide +kernel
  exact fun e he => runs_of (List.all_eq_true.mp h1 e he)

theorem test_meets_UniformArithmetic_Transfers :
    s0.here = some h0 ∧ (h0.k 7).toNat % 4 = 0 ∧ (h0.k 8).toNat % 4 = 0 ∧ ¬ (h0.k 2).toNat % 4 = 0 := by decide +kernel

def brx1 : BrxDesc := { joff := 4, n := 8, toff := 64 }
/-- Within the walk of a table, with its frame. -/
def hWalk : Here :=
  hereOf { grp0 with dstack := [{ saved := 1, idx := some (List.replicate 32 0) }] } Ctb.small
    { rg0 with hstack := [.walk 0 0 0x10000 brx1] } Reach.small (Launch.small true) cur0

theorem test_meets_TableWalks : s0.here = some h0 ∧ brx1.n.toNat ≤ (h0.k 8).toNat ∧ (h0.k 6).toNat < brx1.n.toNat ∧
    (s0.tableTarget h0.launch h0.cur.pc brx1 (h0.k 6).toNat).isOk = true ∧ h0.grp.written 2 = true ∧ h0.grp.cursor < 32 ∧
    (s0.tableTarget h0.launch h0.cur.pc brx1 0).isOk = true ∧ stackDepth h0.rg.hstack + 10 ≤ 64 ∧
    brxOffset h0.cur.pc h0.launch.record.entry = 0 ∧ (stateOf hWalk).here = some hWalk ∧ h0.cur.head = true ∧
    ((stateOf hWalk).tableTarget hWalk.launch 0x10000 brx1 1).isOk = true := by decide +kernel

/-- In the THEN side of a masked region, and in a stack that is full. -/
def hThen : Here := hereOf { grp0 with dstack := [{ saved := 3, idx := none }] } Ctb.small { rg0 with hstack := [.thenSide] } Reach.small
  (Launch.small true) cur0
def hFull : Here := hereOf grp0 Ctb.small { rg0 with hstack := List.replicate 32 .thenSide } Reach.small (Launch.small true) cur0

theorem test_meets_MaskedRegions : stackDepth h0.rg.hstack + 2 ≤ 64 ∧ (stateOf hThen).here = some hThen ∧ hThen.rg.hstack.head? = some .thenSide ∧
    (stateOf hFull).here = some hFull ∧ hFull.cur.head = true ∧ 64 < stackDepth hFull.rg.hstack + 2 ∧ h0.rg.hstack.head? = none := by
  decide +kernel

def hMask : Here := hereOf { grp0 with m := [0, 0x80000000, 1] ++ List.replicate 13 0 } Ctb.small rg0 Reach.small (Launch.small true) cur0

theorem test_meets_PredicateAndMasks : Runs (stateOf hMask) hMask [] (dstNames (.reg 10 0) false) ∧ ((hMask.grp.mask 1).getLsbD 31 = true ∧
    (∀ k, k < 31 → (hMask.grp.mask 1).getLsbD k = false) ∧ (hMask.grp.mask 2).getLsbD 0 = true ∧ hMask.grp.mask 3 = 0) :=
  ⟨runs_of (by decide +kernel), by decide +kernel⟩

def hSouth : Here := hereOf grp0 Ctb.small rg0 Reach.small { Launch.small true with south := true } cur0

theorem test_meets_Passing : Runs (stateOf hSouth) hSouth [.src (.v 2 true) false] (dstNames (.reg 2 0) false) ∧ (hSouth.launch.south = true ∧
    s0.here = some h0 ∧ h0.launch.south = false ∧ h0.grp.cursor < 32) :=
  ⟨runs_of (by decide +kernel), by decide +kernel⟩

/-- The statements about lane instructions of 05 and 06 that have `Runs` for their one hypothesis hold of each shape of
`test_meets_lane_shapes`; a field at the edge of its width. -/
theorem test_meets_CountsAndFields : fieldOk false 31 1 = true ∧ fieldOk true 0 64 = true ∧ fieldOk true 63 1 = true := by decide

/-- Index registers of 4 lanes each, at both ends of a window of v2 to v9. -/
theorem test_meets_IndexedRegisters : Runs s0 h0 [opndB (.imm 5) false] [] ∧ h0.grp.ix.length = 4 ∧
    (∀ e : Int, e = ((h0.grp.ix.getD 1 []).getD 0 0).toInt + (7 : BitVec 16).toInt → 0 ≤ e ∧ e < (8 : BitVec 9).toNat ∧
      h0.grp.written (2 + e.toNat) = true) ∧
    ∀ e : Int, e = ((h0.grp.ix.getD 1 []).getD 0 0).toInt + (0 : BitVec 16).toInt → 0 ≤ e ∧ e < (8 : BitVec 9).toNat ∧
      h0.grp.written (2 + e.toNat) = true :=
  ⟨runs_of (by decide +kernel), by decide +kernel, fun e h => by subst h; decide +kernel, fun e h => by subst h; decide +kernel⟩

/-- A reserve of 8 rows, of which 8 are granted and 9 are not. -/
def hReserve : Here := hereOf grp0 { Ctb.small with reserve := 8 } rg0 Reach.small (Launch.small true) cur0

theorem test_meets_RegisterGrowth : Runs (stateOf hReserve) hReserve [] (dstNames (.reg 10 0) false) ∧
    ((hReserve.uniZ (.imm 8)).toNat ≤ hReserve.ctb.reserve ∧
      hReserve.launch.record.budget + hReserve.grp.granted + (hReserve.uniZ (.imm 8)).toNat ≤ hReserve.launch.record.ceiling ∧
      ¬ (hReserve.uniZ (.imm 9)).toNat ≤ hReserve.ctb.reserve) :=
  ⟨runs_of (by decide +kernel), by decide +kernel⟩
/-- Format slots: fmt1 is BF16, fmt2 binary8p4, fmt3 INT8 with per-column scales, fmt0 is unbound; the record lets slot 0 use tiles
0 to 15 and the planes, with 64 KiB of scratch and a full lane store. -/
def lM : Launch :=
  { Launch.small true with
    record := { Record.small true with
      fmt := [0, 2, 0x44, 0x0000100000000807] ++ List.replicate 4 0, engshare := 1, plane := 0x10, accmask := 0xFFFF :: List.replicate 15 0
      scrbytes := 65536, lsbytes := 1024 } }
/-- Stream 1 names 32 rows of 4 bytes, stream 2 a slice of 256 bytes for each row. -/
def sd1 : Machine.Stream :=
  { base := 0, esz := .b32, wrap := false, ext0 := 32, ext := [1, 1, 1, 1], stride := [4, 0, 0, 0, 0], pos := [0, 0, 0, 0], setAt := 0 }
def grpM : Machine.Group := { grp0 with sd := [Stream.unset, sd1, { sd1 with stride := [256, 0, 0, 0, 0] }] ++ List.replicate 13 Stream.unset }
/-- Uniform registers 20 to 23 describe a stream of 32 elements of 4 bytes; k9 is 128. -/
def rgM : RGroup :=
  { rg0 with k := rg0.k.take 9 ++ [128] ++ List.replicate 10 0 ++ [4, 0, 0x0001000100000000, 0x00010001] ++ List.replicate 40 0 }
def hM : Here := hereOf grpM Ctb.small rgM Reach.small lM cur0
def sM : State := stateOf hM

theorem hereM : sM.here = some hM := by decide +kernel
theorem lanesM : hM.lanes = [0] := by decide +kernel
theorem test_meets_NarrowFormats : 1 ≤ 1 ∧ 1 ≤ 7 ∧ 7 ≤ 7 ∧ 255 < 256 ∧ (15 : Nat) < 16 ∧ (15 : Nat) ≠ 8 := by decide

theorem test_meets_SlotConversions_DotProducts : Runs sM hM [.src (.v 2 false) false] (dstNames (.reg 10 0) false) ∧
    Runs sM hM [.src (.v 2 false) false, .src (.v 3 false) false, .src (.v 4 false) false] (dstNames (.reg 10 0) false) ∧
    (hM.fmt 2 ≠ 0 ∧ (slotOf (hM.fmt 2)).scale ≠ 2 ∧ slotValid (hM.fmt 2) = true ∧ hM.fmt 0 = 0 ∧ (slotOf (hM.fmt 3)).scale = 2 ∧
      (slotOf (hM.fmt 2)).kind = .b8 ∧ (slotOf (hM.fmt 2)).scale = 0 ∧ (slotOf (hM.fmt 1)).kind ≠ .b8) :=
  ⟨runs_of (by decide +kernel), runs_of (by decide +kernel), by decide +kernel⟩

/-- Two lanes, so that an exchange has a lane to reach. -/
def hPair : Here := hereOf { grp0 with prd := 0x80000001 } Ctb.small rg0 Reach.small (Launch.small true) cur0

theorem test_meets_GroupReduceAndScan_GroupExchange :
    Runs (stateOf hPair) hPair [.src (.v 2 false) false] (dstNames (.reg 10 0) false) ∧
    Runs (stateOf hPair) hPair [.src (.v 2 false) false, opndB (.imm 31) false] (dstNames (.reg 10 0) false) ∧
    Runs (stateOf hPair) hPair [.src (.v 2 false) true] (dstNames (.reg 10 0) true) ∧
    (hPair.lanes = [0, 31] ∧ (∀ k ∈ hPair.lanes, (Opnd.src (.v 2 false) false).latchLost hPair (31 - k) = none) ∧
      hPair.grp.present.getLsbD 31 = true ∧ (Opnd.src (.v 2 false) true).latchLost hPair 31 = none) :=
  ⟨runs_of (by decide +kernel), runs_of (by decide +kernel), runs_of (by decide +kernel), by decide +kernel⟩

/-- Core 0 with two symbols in error in the first codeword of its scratch. -/
def sLost : State := sM.setCore 0 { Core.reset with errs := [{ group := 0, row := 0, col := 0, errs := [(0, 1), (1, 1)] }] }

/-- The address of an access passes its checks. -/
def allowed (s : State) (h : Here) (w : Window) (ops : List Opnd) (disp : DWord) (n k : Nat) : Bool :=
  (h.checkAccess w (arg (s.srcs h ops k) 0 + 0 + disp) n).isOk

/-- Loads of the last word of each window, and one that meets a lost column. -/
theorem test_meets_LoadInstructions : Runs sM hM (addrOps (.k 3) none) (dstNames (.reg 10 0) false) ∧
    Runs sM hM (addrOps (.k 5) none) (dstNames (.reg 10 0) false) ∧
    Runs sLost hM (addrOps (.k 3) none) (dstNames (.reg 10 0) false) ∧
    (hM.lanes = [0] ∧ allowed sM hM .shared (addrOps (.k 3) none) ((65532 : Word).signExtend 64) 4 0 = true ∧
      allowed sM hM .cluster (addrOps (.k 4) none) ((65532 : Word).signExtend 64) 4 0 = true ∧
      allowed sM hM .lane (addrOps (.k 5) none) ((1020 : Word).signExtend 64) 4 0 = true ∧
      (sM.core 0).lost 65532 4 = false ∧ unseenAt sM hM 0 65532 4 = false ∧ (sM.core 0).errs = [] ∧
      allowed sLost hM .shared (addrOps (.k 3) none) ((0 : Word).signExtend 64) 4 0 = true ∧
      (sLost.core (hM.place .shared 0).1).lost (hM.place .shared 0).2 4 = true) :=
  ⟨runs_of (by decide +kernel), runs_of (by decide +kernel), runs_of (by decide +kernel), by decide +kernel⟩

theorem test_meets_StoreInstructions : Runs sM hM (addrOps (.k 3) none ++ [.src (.v 2 false) true]) [] ∧
    (hM.lanes = [0] ∧
      allowed sM hM .shared (addrOps (.k 3) none ++ [.src (.v 2 false) true]) ((65528 : BitVec 18).signExtend 64) 8 0 = true ∧
      (sM.core (hM.place .shared 65528).1).errs = [] ∧
      allowed sM hM .lane (addrOps (.k 5) none ++ [.src (.v 2 false) true]) ((1016 : BitVec 18).signExtend 64) 8 0 = true) :=
  ⟨runs_of (by decide +kernel), by decide +kernel⟩

theorem test_meets_ScratchAccess : Runs sM hM (addrOps (.k 3) none) (dstNames (.reg 10 0) false) ∧
    Runs s0 h0 (addrOps (.k 5) none) (dstNames (.reg 10 0) false) ∧
    Runs sM hM (addrOps (.k 4) none ++ [.src (.v 2 false) false]) [] ∧
    (hM.lanes = [0] ∧ h0.lanes = [0] ∧
      hM.checkAccess .shared (effAddr none ((65534 : Word).signExtend 64) (sM.srcs hM (addrOps (.k 3) none) 0)) (ldSize .b32) = .error cMisalign ∧
      h0.checkAccess .lane (effAddr none ((0 : Word).signExtend 64) (s0.srcs h0 (addrOps (.k 5) none) 0)) (ldSize .b32) = .error cLaneStoreBound ∧
      hM.checkAccess .cluster (effAddr none ((65536 : BitVec 18).signExtend 64) (sM.srcs hM (addrOps (.k 4) none ++ [.src (.v 2 false) false]) 0))
        (stSize .b32) = .error cAperture ∧ (0 : Nat) < 10 ∧ 9 < 10 ∧ 9 ≠ 0 ∧ (255 : Byte) ≠ 0) :=
  ⟨runs_of (by decide +kernel), runs_of (by decide +kernel), runs_of (by decide +kernel), by decide +kernel⟩

/-- Core 0 with one write of a word in memory, whose old value a stream still reads. -/
def sOld : State := sM.setCore 0 { Core.reset with fresh := [{ addr := 0, old := 7, mask := 255, by_ := .engine 1, path := 1, stamp := 0 }] }

theorem test_meets_StreamShapes : (0 : Nat) < 1 ∧ 65534 < 65535 ∧ 31 < (hM.grp.stream 1).ext0 ∧ (sM.core hM.q).errs = [] ∧
    (sM.core hM.q).fresh = [] ∧ (hM.grp.stream 0).ext0 ≤ 0 ∧ (sOld.core hM.q).errs = [] ∧ (sOld.core hM.q).fresh.length = 1 ∧
    (0 : Nat) = 8 * ((hM.ctb.base + ((hM.grp.stream 1).off 1).toNat) / 8) ∧
    (hM.ctb.base + ((hM.grp.stream 1).off 1).toNat) % 8 + eszSize (hM.grp.stream 1).esz ≤ 8 ∧
    hM.grp.markAt (hM.rg.pos - 2) sOld.wseq ≤ 0 := by decide +kernel

theorem test_meets_StreamInstructions : Runs sM hM [] (dstNames (.reg 10 0) false) ∧ Runs sM hM [.src (.v 2 false) false] [] ∧
    ((hM.k (20 + 3)).toNat / 2 ^ 32 = 0 ∧ (65536 - 128) % 4 = 0 ∧ hM.mtileHolds 1 = false ∧
      0 < (hM.grp.stream 1).ext0 ∧ (hM.grp.stream 1).esz ≠ .b64 ∧
      (sM.core hM.q).lost (hM.ctb.base + ((hM.grp.stream 1).off 0).toNat) 4 = false ∧ unseenAt sM hM hM.q 0 4 = false ∧ (sM.core hM.q).errs = []) :=
  ⟨runs_of (by decide +kernel), runs_of (by decide +kernel), by decide +kernel⟩

/-- The state that an instruction leaves. -/
def after (o : Host.Outcome State Fault Refusal) : Option State :=
  match o with
  | .next t => some t
  | _ => none

/-- A stream that ends at the last byte of its allocation is set, and one element further it is refused. -/
theorem test_sdset_bounds : ((after (exec (.sdset .b32 3 20 (65536 - 128) 32) sM)).map (fun t => t.faults.length),
    (after (exec (.sdset .b32 3 20 (65536 - 124) 32) sM)).map (fun t => t.faults.length)) = (some 0, some 1) := by decide +kernel

/-! #### The matrix class and the engine -/

theorem test_meets_MatrixItems : Runs sM hM [] (dstNames (.reg 10 0) false) ∧ (hM.launch.record.planeSlot hM.cur.slot = true ∧
    hM.launch.record.share hM.cur.slot ≠ 0 ∧ hM.mtileBusy = false ∧ hM.fmt 1 ≠ 0 ∧ fillSlotOk (hM.fmt 1) false = true ∧
    (slotOf (hM.fmt 1)).kind = .bf16 ∧ (slotOf (hM.fmt 1)).scale = 0 ∧
    (hM.k 3 - 0xFFFFFF1000000000).toNat + 16384 ≤ hM.launch.record.scrbytes ∧
    (hM.k 6).toNat < 2 ^ 16 ∧ (∀ k, k < 16 → (lo32 (hM.k 6)).getLsbD k = true → hM.accmask.getLsbD k = true) ∧
    drainSlotOk .i8 (hM.fmt 3) = true ∧ (slotOf (hM.fmt 3)).scl + 1024 * 15 + 1024 ≤ hM.launch.record.scrbytes ∧ drainSlotOk .bf16 (hM.fmt 1) = true ∧
    hM.accmask.getLsbD 15 = true ∧ (hM.k 9).toNat % 2 ^ 32 % 64 = 0 ∧ 64 * 2 ≤ (hM.k 9).toNat % 2 ^ 32 ∧
    31 * 128 + 64 * 2 ≤ hM.launch.record.scrbytes) :=
  ⟨runs_of (by decide +kernel), by decide +kernel⟩

/-- An item of slot 0's queue. -/
def itemOf (op : ItemOp) (sched : Bool) : Item :=
  { id := 1, op := op, grp := 0, pos := 0, run := 0, cost := 34, pc := 0x10000, ilen := 12, planned := 0, base := 0, launch := 0,
    sched := sched, land := 0, startAt := 0, doneAt := 0, step := none, last := false, view := [] }
def coreWith (active : Option DWord) (items : List Item) : Core :=
  { Core.reset with mx := { Core.reset.mx with
      active := { Plane.empty with desc := active }, queues := [(0, { items := items, t := 0, fillEnd := 0, held := none })] } }
def sPlane : State := sM.setCore 0 (coreWith (some 2) [])
def sPass : State := sM.setCore 0 (coreWith (some 2) [itemOf (.pass []) false])

theorem test_meets_mmq : ((sPlane.core hM.q).mx.logical hM.cur.slot).active = some (2, false) ∧
    mixOf .bf16 (hM.fmt 1) 2 false = some { m := 1, w := 1 } ∧ hM.shapeBad 2 = false ∧
    ((sPlane.core hM.q).mx.logical hM.cur.slot).tags.getD 15 .any ≠ .int ∧
    (∀ k, k < 32 → k < (hM.grp.stream 2).ext0 → hM.grp.present.getLsbD k = true →
      0 ≤ (hM.grp.stream 2).off k ∧ (hM.grp.stream 2).off k % 256 = 0 ∧ (hM.grp.stream 2).off k + (256 * 1 : Nat) ≤ (hM.launch.record.scrbytes : Int)) ∧
    ((sPlane.core hM.q).mx.queue hM.cur.slot).items = [] ∧ ((sPass.core hM.q).mx.queue hM.cur.slot).items = [itemOf (.pass []) false] ∧
    sPlane.here = some hM ∧ sPass.here = some hM := by decide +kernel

def mt1 : MtDesc := { kb := 1, nbm := 1, tile := 14, psl := 1, nstr := 0x4000 }

theorem test_meets_TileSequencer : sM.here = some hM ∧ 0 < mt1.kb.toNat ∧ hM.launch.record.share hM.cur.slot ≠ 0 ∧
    hM.launch.record.planeSlot hM.cur.slot = true ∧ hM.mtileBusy = false ∧ sM.otherPlane hM = false ∧ hM.fmt 1 ≠ 0 ∧ hM.fmt mt1.psl ≠ 0 ∧
    fillSlotOk (hM.fmt mt1.psl) false = true ∧ mixOf .bf16 (hM.fmt 1) (hM.fmt 1) false = some { m := 1, w := 1 } ∧
    mt1.tile.toNat + 2 ≤ 16 ∧ (∀ n, n < 2 → hM.accmask.getLsbD (14 + n) = true ∧
      ((sM.core hM.q).mx.logical hM.cur.slot).tags.getD (14 + n) .any ≠ .int) ∧ hM.shapeBad 2 = false ∧ mt1.nstr.toNat % 256 = 0 ∧
    (∀ n, n < 2 → ((hM.k 3 - 0xFFFFFF1000000000).toNat + 16384 * (n % 1) + 16384 * (n / 1)) % 256 = 0 ∧
      (hM.k 3 - 0xFFFFFF1000000000).toNat + 16384 * (n % 1) + 16384 * (n / 1) + 16384 ≤ hM.launch.record.scrbytes) ∧
    (slotOf (hM.fmt mt1.psl)).scale ≠ 2 ∧
    ∀ n, n < 2 → ∀ k, k < 32 →
      0 ≤ (Nat.rec (hM.grp.stream 2) (fun _ d => d.advance) n : Machine.Stream).off k ∧
      (Nat.rec (hM.grp.stream 2) (fun _ d => d.advance) n : Machine.Stream).off k + 256 ≤ (hM.launch.record.scrbytes : Int) := by decide +kernel

/-- Elements that are numbers, and one that is a NaN. -/
theorem test_meets_MatrixArithmetic : fp32.isNaN 0x7FC00000 = true ∧ fp32.isNaN 0x3F800000 = false ∧
    (List.replicate 64 (0 : Word)).length = 64 ∧ 63 < 64 := by decide +kernel

theorem test_meets_EngineItems : sM.reaches.all (fun r => !r.leaving) = true ∧ ((sM.core 0).mx.queue 0).items = [] ∧
    (∀ op ∈ [ItemOp.swap, .clear 0x8001 5, .fill true 2 0 16384 none], let c := coreWith none [itemOf op true, itemOf .swap false]
      (c.mx.queue 0).items = [itemOf op true, itemOf .swap false] ∧ (itemOf op true).doneAt ≤ sM.time ∧ (itemOf .swap false).sched = false ∧
        c.mx.tiles.length = 16 ∧ c.errs = [] ∧ c.fresh = [] ∧ Memory.wf c.scratch = true) := by decide +kernel

/-! #### Transfers -/

def rw1 : RowDesc := { rows := 1, rbytes := 64, gpitch := 64 }
def ix1 : IdxDesc := { n := 1, rowb := 64, pitch := 64 }
/-- A table of one template, in which slots 1 and 14 of pseudo-channel 256 belong to the copy engine of core 0. -/
def tt1 : TideTable :=
  { epoch := 0, ntmpl := 1, tmpl := 0, link := 0, image := [(2 * (396 * 256 + 1) + 1, 1), (2 * (396 * 256 + 14) + 1, 1)] }
def sT : State := { sM with tt := some tt1 }

theorem rows_of {s : State} {h : Here} {r : Rect} {write red : Bool}
    (h1 : (decide (0 < r.len) && decide (r.ga.toNat % 8 = 0) && decide (r.so % 8 = 0) && decide (r.sp % 8 = 0)) = true)
    (h2 : ∀ i, i < r.rows → (r.so + i * r.sp) / 2097152 < h.launch.record.stageCount ∧ (r.so + i * r.sp) % 2097152 < h.launch.record.scrbytes ∧
      (r.so + i * r.sp) % 2097152 + r.len ≤ h.launch.record.scrbytes ∧
      (h.reach.ctb? (h.cur.col - h.ctb.stage + (r.so + i * r.sp) / 2097152)).isSome = true)
    (h3 : ∀ i, i < r.rows → ∀ k, k < r.len → ((h.launch.phys ((r.ga + BitVec.ofNat 64 i * r.gp).toNat + k)).any (fun a =>
      (if write then h.launch.canW ((r.ga + BitVec.ofNat 64 i * r.gp).toNat + k) else h.launch.canR ((r.ga + BitVec.ofNat 64 i * r.gp).toNat + k)) &&
      s.acctlOk h.cur.row a write && (!red || (h.launch.redOf ((r.ga + BitVec.ofNat 64 i * r.gp).toNat + k)).isNone))) = true) :
    RowsOk s h r write red := by
  simp only [Bool.and_eq_true, decide_eq_true_eq] at h1
  refine ⟨h1.1.1.1, h1.1.1.2, h1.1.2, h1.2, h2, fun i hi k hk => ?_⟩
  have h4 := h3 i hi k hk
  rw [Option.any_eq_true] at h4
  obtain ⟨a, h5, h6⟩ := h4
  simp only [Bool.and_eq_true, Bool.or_eq_true, Bool.not_eq_true', Option.isNone_iff_eq_none] at h6
  refine ⟨a, h5, h6.1.1, h6.1.2, fun hr => ?_⟩
  rcases h6.2 with h7 | h7
  · rw [h7] at hr; cases hr
  · exact h7

/-- One row of 64 bytes from ENTRY to the last 64 bytes of scratch. -/
def rect1 : Rect := { rows := 1, len := 64, ga := hM.k 7, gp := 64, so := 65472, sp := 0 }

theorem test_meets_RowsOk : RowsOk sT hM rect1 false true ∧ RowsOk sT hM rect1 true true :=
  ⟨rows_of (by decide +kernel) (by decide +kernel) (by decide +kernel), rows_of (by decide +kernel) (by decide +kernel) (by decide +kernel)⟩

/-- The slots of the granule of ENTRY: slot 1 for a read, slot 14 for a write. -/
theorem test_meets_Planned : ∀ n, 0 < n →
    Planned tt1 0 true 32 0 n [1024] [] [(1024, 36, 8112)] ∧ Planned tt1 0 false 32 0 n [1024] [] [(1024, 296, 320)] := by
  intro n hn
  have ha : 36 < 8192 * (max 32 0 / 8192 + n) := by omega
  have hb : 296 < 8192 * (max 288 0 / 8192 + n) := by omega
  refine ⟨⟨36, [], ⟨⟨by decide +kernel, by decide, 1, by decide, by decide +kernel, by decide +kernel⟩, ?_⟩, ha, by decide +kernel, rfl⟩,
    ⟨296, [], ⟨⟨by decide +kernel, by decide, 14, by decide, by decide +kernel, by decide +kernel⟩, ?_⟩, hb, by decide +kernel, rfl⟩⟩
  · rintro y ⟨h1, -, j, -, h2, -⟩
    have h3 : 32 ≤ y := h1
    have h4 : y % 8192 = 16 + 20 * j := h2
    by_contra h5
    have h6 : y % 8192 = y := Nat.mod_eq_of_lt (by omega)
    omega
  · rintro y ⟨h1, -, j, -, h2, -⟩
    have h3 : 288 ≤ y := h1
    have h4 : y % 8192 = 16 + 20 * j := h2
    by_contra h5
    have h6 : y % 8192 = y := Nat.mod_eq_of_lt (by omega)
    omega

/-- 10 R299: the promise of a copy that was issued at planned tide 0 from pseudo-channel 256. -/
theorem test_xcopy_promise : ((after (exec (.xcopyIn 3 7 10 rw1) sT)).bind (fun t => t.mine hM)).map (fun g => g.p.getD 3 0) = some 8112 := by
  decide +kernel

def xferOf (kind : XKind) (promise : Nat) : Xfer :=
  { sM.newXfer hM kind 3 (hM.k 7) (hM.k 10) rw1 ix1 false with promise := promise }
/-- A queue of 256 transfers, and 16 KiB of staged contributions. -/
def sQueue : State := { sT with xfers := List.replicate 256 (xferOf .copyIn 8112) ++ List.replicate 256 (xferOf .gather 8112) }
def stagedOf (n : Nat) : Staged :=
  { xid := 2, launch := 0, ident := 0, lin := 0, grp := 0, ordinal := 0, q := 0, slot := 0, op := .add, ty := .f32, promise := 0, landed := false,
    elts := List.replicate n (0, 0, 0), tied := [], spent := [] }
/-- `n` words of the CTB are staged. -/
def sStage (n : Nat) : State := { sT with staged := [stagedOf n] }

theorem test_meets_CopyTransfers : sT.here = some hM ∧ sM.tt = none ∧ sT.tt = some tt1 ∧
    256 ≤ sQueue.xfers.countP (fun y => y.q == hM.q && y.slot == hM.cur.slot && y.kind.path == 1 && decide (hM.planned < y.promise)) ∧
    (hM.k 1).toNat % 8 ≠ 0 ∧ (sStage 4081).here = some hM ∧ (sStage 4081).fires = [] ∧ ((sStage 4081).staged.all (fun e => e.spent == [])) = true ∧
    4 * (sStage 4080).stagedAt hM.q hM.cur.slot hM.planned (some (hM.launch.id, hM.ctb.lin)) + 4 * 16 = 16384 ∧
    16384 < 4 * (sStage 4081).stagedAt hM.q hM.cur.slot hM.planned (some (hM.launch.id, hM.ctb.lin)) + 4 * 16 := by decide +kernel

/-- An access slot in schedule tides, on a row that is not time-sliced. -/
theorem test_meets_Accessed : Accessed sT hM tt1 (xferOf .copyIn 8112) [1024] [(1024, 36, 8112)] [(1024, 36, 8112)] := by
  have h1 : sT.sliced (hM.q / 16) = false := by decide +kernel
  have h2 : hM.q = 0 ∧ (xferOf .copyIn 8112).kind.inbound = true ∧ (xferOf .copyIn 8112).tide = 32 ∧ sT.fenceFloorAt hM = 0 ∧
    (sT.core 0).takenAt = [] := by decide +kernel
  unfold Accessed
  rw [h1, h2.1, h2.2.1, h2.2.2.1, h2.2.2.2.1, h2.2.2.2.2]
  simpa using (test_meets_Planned ((tt1.ntmpl + 1) * 2) (by decide)).1

/-- A contribution of two rows: RED runs, the leaf entries of the CTB, and collective 5. -/
def redRun (rdx n : Nat) : Run :=
  { va := 0x10000 + 64 * n, pa := 0x10000 + 64 * n, len := 64, r := true, w := true, x := true, ord := false, red := true, bin := false, rdx := rdx }
def leafRed (rdx : Nat) : Leaf := { rdx := rdx, lr := 0, obs := 0, flags := 0 }
def hRed (rs : List Run) (ls : List Leaf) : Here :=
  let c : Ctb := { hM.ctb with leaves := ls }
  { hM with launch := { hM.launch with trans := rs }, ctb := c, reach := { hM.reach with ctbs := [(0, c)] } }
def collRed (elems : Nat) (armed broken : Bool) : Coll :=
  { rdx := 5, armed := armed, broken := broken, bin := false, openR := 0, rounds := []
    desc := { rbase := 0x10000, respa := 0, stg := 0, elems := elems, cset := 0, nmem := 1, rank := 0, lpe := 1, lpr := 1, op := 0 } }
def sRed (h : Here) (c : Coll) : State := { sT with launches := [h.launch], reaches := [h.reach], colls := [c] }
def rect2 : Rect := { rect1 with rows := 2 }
def reds (n : Nat) : List Run := [redRun 5 0, redRun n 1]

theorem test_meets_contribution : (∀ h ∈ [hRed (reds 5) [], hRed (reds 6) [], hRed (reds 5) ((List.range 16).map (fun n => leafRed (n + 6)))],
      (sRed h (collRed 64 true false)).here = some h ∧ (h.rectSegs rect2).findSome? (fun g => h.launch.redOf g.va) = some 5) ∧
    ((hRed (reds 6) []).rectSegs rect2).any (fun g => (hRed (reds 6) []).launch.redOf g.va != some 5) = true ∧
    (let h := hRed (reds 5) []
     (h.rectSegs rect2).all (fun g => h.launch.redOf g.va == some 5) = true ∧ (sRed h (collRed 64 false false)).armed 5 = false ∧
     ((h.rectSegs rect2).head?.bind (fun g => (h.launch.runs g.va).find? (·.red))).isSome = true ∧
     (∀ e ∈ [(32, none), (31, some 0x1007C)], ((segWords (h.rectSegs rect2)).find? (fun g =>
       decide (g.va < 0x10000 ∨ 0x10000 + 4 * e.1 ≤ g.va))).map (fun g => g.va) = e.2)) ∧
    ((List.range 16).map (fun n => leafRed (n + 6))).all (fun y => y.rdx != 5) = true := by decide +kernel

theorem test_meets_RowsOk_red : RowsOk (sRed (hRed (reds 5) []) (collRed 32 true false)) (hRed (reds 5) []) rect2 true false :=
  rows_of (by decide +kernel) (by decide +kernel) (by decide +kernel)

/-- A table in which every pseudo-channel has slot 0 for the gather engine of core 0. -/
def gImage (a : Nat) : Nat → Memory
  | 0 => []
  | n + 1 => (a, 2) :: gImage (a + 792) n
def ttG : TideTable := { epoch := 0, ntmpl := 1, tmpl := 0, link := 0, image := gImage 1 4096 }

theorem rd_gImage (n m a : Nat) (h : m < n) : rd (gImage a n) (a + 792 * m) = 2 := by
  induction n generalizing m a with
  | zero => omega
  | succ n ih =>
    cases m with
    | zero => simp [gImage, rd]
    | succ m =>
      simp only [gImage, rd]
      rw [if_neg (by omega), if_neg (by omega), show a + 792 * (m + 1) = a + 792 + 792 * m by omega]
      exact ih m (a + 792) (by omega)

theorem rd_gImage_other (n a b : Nat) (h : ∀ m, m < n → b ≠ a + 792 * m) : rd (gImage a n) b = 0 := by
  induction n generalizing a with
  | zero => rfl
  | succ n ih =>
    simp only [gImage, rd]
    have h0 := h 0 (by omega)
    split
    · rfl
    · rw [if_neg (by omega)]
      exact ih (a + 792) (fun m hm => by have := h (m + 1) (by omega); omega)

theorem test_meets_LeastSlots : LeastSlots ttG (512 + hM.q) 1 ∧ (0 : Nat) < 1 ∧ LeastSlots tt1 (512 + hM.q) 0 := by
  have hq : 512 + hM.q = 512 := by decide +kernel
  rw [hq]
  have code (i n j : Nat) : ttG.code i n j = (rd (gImage 1 4096) (3244032 * i + 2 * (396 * n + j))).toNat +
      256 * (rd (gImage 1 4096) (3244032 * i + 2 * (396 * n + j) + 1)).toNat := by
    simp [TideTable.code, ttG, rdVal, rdN, ofBytes]
  have yes (m : Nat) (hm : m < 4096) : ttG.code 0 m 0 = 512 := by
    rw [code, rd_gImage_other _ _ _ (fun k _ => by omega), show 3244032 * 0 + 2 * (396 * m + 0) + 1 = 1 + 792 * m by omega, rd_gImage _ _ _ hm]
    rfl
  refine ⟨⟨fun i m hi hm => ?_, 0, 0, by decide, by decide, ?_⟩, by decide, ⟨fun i m _ _ => Nat.zero_le _, 0, 0, by decide, by decide, by decide +kernel⟩⟩
  · have hi0 : i = 0 := Nat.lt_one_iff.mp hi
    subst hi0
    exact List.countP_pos_iff.mpr ⟨0, by simp, by rw [yes m hm]; rfl⟩
  · have no (j : Nat) (h0 : 0 < j) (hj : j < 396) : ttG.code 0 0 j ≠ 512 := by
      rw [code, rd_gImage_other _ _ _ (fun k _ => by omega), rd_gImage_other _ _ _ (fun k _ => by omega)]
      decide
    have h1 : List.range 396 = 0 :: (List.range 395).map (· + 1) := by decide +kernel
    show (List.range 396).countP (fun j => ttG.code 0 0 j == 512) = 1
    rw [h1, List.countP_cons, yes 0 (by decide), List.countP_eq_zero.mpr (fun j hj => ?_)]
    · rfl
    · obtain ⟨k, hk, rfl⟩ := List.mem_map.mp hj
      have := no (k + 1) (by omega) (by have := List.mem_range.mp hk; omega)
      simp [this]

theorem test_meets_IndexedTransfers : sT.here = some hM ∧ (hM.k 7).toNat % 8 = 0 ∧ (0 : Nat) / 2097152 < hM.launch.record.stageCount ∧
    0 + ix1.n.toNat * ix1.rowb.toNat ≤ hM.launch.record.scrbytes ∧ 0 + 4 * ix1.n.toNat ≤ hM.launch.record.scrbytes ∧
    (hM.reach.ctb? (hM.cur.col - hM.ctb.stage + 0)).isSome = true ∧ sM.tt = none ∧ (hM.k 1).toNat % 8 ≠ 0 ∧
    256 ≤ sQueue.xfers.countP (fun y => y.q == hM.q && y.slot == hM.cur.slot && y.kind.path == 2 && decide (hM.planned < y.promise)) := by
  decide +kernel

/-! #### Waits, barriers, sounds, atomics, bindings -/

/-- p0 holds a promise, p1 a refusal, p2 a promise whose transfer is lost. -/
def hProm : Here :=
  hereOf { grp0 with p := [5, 0x8000000000000002, 0] ++ List.replicate 5 emptyP, pTrack := [none, none, some 9] ++ List.replicate 5 none }
    Ctb.small rg0 Reach.small (Launch.small true) cur0
def sProm : State := { stateOf hProm with xfers := [{ xferOf .copyIn 0 with id := 9, lost := true }] }

/-- A budget of the eight rows that the group holds. -/
def hTight : Here :=
  hereOf grp0 Ctb.small rg0 Reach.small { Launch.small true with record := { Record.small true with budget := 8 } } cur0

/-- A destination fits. -/
def fitsB (h : Here) (d : Dst) : Bool :=
  !h.grp.allocates [] (dstNames d false) || decide (h.grp.wouldHold [] (dstNames d false) ≤ h.limit)

theorem fits_iff (h : Here) (d : Dst) : Fits h d ↔ fitsB h d = true := by
  unfold Fits fitsB
  cases h.grp.allocates [] (dstNames d false) <;> simp

theorem test_meets_TimeAndObjectWaits : Runs sProm hProm [] (dstNames (.reg 10 0) false) ∧ Fits hProm (.reg 10 0) ∧ ¬ Fits hTight (.reg 10 0) ∧
    (hProm.grp.p.getD 7 0 = emptyP ∧
      (hProm.grp.p.getD 1 0).getLsbD 63 = true ∧ hProm.planned < (hProm.grp.p.getD 0 0).toNat ∧ (hProm.grp.p.getD 0 0).getLsbD 63 = false ∧
      hProm.grp.pTrack.getD 2 none = some 9 ∧ (sProm.xfer? 9).any (fun x => x.lost && decide (x.promise ≤ hProm.planned)) = true ∧
      0 < (hProm.k 6).toNat ∧ (hProm.k 6).toNat ≤ 0xFFFF ∧ (hProm.k 0).toNat = 0 ∧ sProm.freeze = none ∧
      hProm.cur.head = true ∧ ({ sProm with freeze := some { tf := 0, cause := 1, delta := 2 } } : State).here = some hProm ∧
      (stateOf hTight).here = some hTight) := by
  rw [fits_iff, fits_iff]
  exact ⟨runs_of (by decide +kernel), by decide +kernel⟩

/-- Lanes 0 and 31, whose offsets in v10 are four bytes apart for each lane. -/
def hAtom : Here :=
  hereOf { grp0 with prd := 0x80000001, vregs := grp0.vregs ++ [{ name := 10, written := true, val := (List.range 32).map (fun k => BitVec.ofNat 32 (4 * k)) }] }
    Ctb.small rg0 Reach.small (Launch.small true) cur0
def sAtom : State := stateOf hAtom
def opsAtom : List Opnd := addrOps (.k 3) (some (.v 10 false)) ++ [.src (.v 2 false) false]
def eaAtom (k : Nat) : DWord := arg (sAtom.srcs hAtom opsAtom k) 0 + (lo32 (arg (sAtom.srcs hAtom opsAtom k) 1)).setWidth 64 + (0 : BitVec 18).signExtend 64

def plAtom (k : Nat) : Nat × Nat := hAtom.place .shared (eaAtom k - windowBase .shared).toNat

theorem test_meets_Atomics : Runs sAtom hAtom opsAtom (dstNames (.reg 11 0) false) ∧ (hAtom.lanes = [0, 31] ∧
    ([0, 31].all (fun k => decide ((windowBase .shared).toNat ≤ (eaAtom k).toNat) &&
      decide ((eaAtom k).toNat < (windowBase .shared).toNat + hAtom.launch.record.scrbytes) && (hAtom.checkAccess .shared (eaAtom k) 4).isOk &&
      (sAtom.core (plAtom k).1).errs == [] && Memory.wf (sAtom.core (plAtom k).1).scratch && !unseenAt sAtom hAtom 0 (plAtom k).2 4)) = true ∧
    (plAtom 0).2 + 4 ≤ (plAtom 31).2) :=
  ⟨runs_of (by decide +kernel), by decide +kernel⟩

/-- Two stages in columns 0 and 1; sound 7 of stage 0 is declared with room, with handles, or with neither. -/
def soundOf (count allow : Nat) : Sound := { n := 7, roff := 0, depth := 2, head := 0, count := count, allow := allow, sampled := 0, pops := 0 }
def hBar (count allow : Nat) : Here :=
  let h := hereOf grp0 { Ctb.small with sounds := [soundOf count allow] } rg0 Reach.small
    { Launch.small true with record := { Record.small true with stages := 1 } } cur0
  { h with reach := { h.reach with ctbs := h.reach.ctbs ++ [(1, { Ctb.small with stage := 1, lin := 1 })] } }

theorem test_meets_BarriersAndSounds : Runs (stateOf (hBar 0 1)) (hBar 0 1) [] (dstNames (.reg 10 0) false) ∧ Fits (hBar 0 1) (.reg 10 0) ∧
    Fits h0 (.reg 10 0) ∧ ¬ Fits hTight (.reg 10 0) ∧
    ((stateOf (hBar 0 1)).here = some (hBar 0 1) ∧ ((hBar 0 1).launch.record.stageCount : Int) ≤ (hBar 0 1).ctb.stage + 2 ∧
      ((hBar 0 1).ctb.stage : Int) + (1 : Word).toInt < (hBar 0 1).launch.record.stageCount ∧
      ((stateOf (hBar 0 1)).ctb? 0 0 1).map (fun c => c.ended) = some none ∧
      15 < ((hBar 0 1).k 7).toNat ∧ h0.ctb.sounds.find? (fun x => x.n == (h0.k 6).toNat) = none ∧ h0.grp.cursor ≠ 33 ∧ ((hBar 0 1).k 6).toNat ≤ 15 ∧
      (hBar 0 1).ctb.sounds.find? (fun x => x.n == ((hBar 0 1).k 6).toNat) = some (soundOf 0 1) ∧
      ((hBar 0 1).k 8).toNat ≤ 255 ∧ (soundOf 1 0).allow = 0 ∧ 0 < (soundOf 0 1).allow ∧ ((stateOf (hBar 0 1)).core 0).errs = [] ∧
      (soundOf 0 1).count = 0 ∧ 0 < (soundOf 1 0).count ∧ (stateOf (hBar 1 0)).here = some (hBar 1 0)) := by
  rw [fits_iff, fits_iff, fits_iff]
  exact ⟨runs_of (by decide +kernel), by decide +kernel⟩

/-- A region to the last byte of scratch, and a transfer that an xfence would miss. -/
def hLate : Here := hereOf grpM Ctb.small rgM Reach.small { lM with effective := some 9 } cur0
def sMiss : State := { stateOf hLate with xfers := [{ xferOf .copyIn 9 with unreadable := true, preg := some 3 }] }

theorem test_meets_BindingsAndFences : sM.here = some hM ∧ 0 < (hM.k 9).toNat ∧ (hM.k 9).toNat < 2 ^ 32 ∧
    (windowBase .shared).toNat ≤ (hM.k 3).toNat ∧ (hM.k 3).toNat - (windowBase .shared).toNat + 65536 ≤ hM.launch.record.scrbytes ∧
    hM.launch.record.scrbytes ≤ 2097152 ∧ hM.ctb.binds.length < 16 ∧ (hM.ctb.sounds.find? (fun x => x.n == 7)).isSome = false ∧
    (hM.k 0).toNat = 0 ∧ 0 < (hM.k 6).toNat ∧ (hM.k 6).toNat ≤ 65535 ∧ 65535 < (hM.k 7).toNat ∧ sM.staged = [] ∧
    sM.missed hM [1, 2] = none ∧ sMiss.here = some hLate ∧ ((sMiss.missed hLate [1, 2]).map (fun e => e.2)) = some 9 := by decide +kernel

/-- A reach whose one group holds a wait. -/
def waitOf (kind : WaitKind) (texp : Nat) : Wait :=
  { kind := kind, texp := texp, obj := 7, arg := 0, dst := .reg 10 0, idle := 0, decided := false, frame := 0, j := 0, resynced := false }
def sWait (kind : WaitKind) (texp : Nat) (ready : Bool) : State :=
  stateOf (hereOf { grp0 with ready := ready } Ctb.small { rg0 with wait := some (waitOf kind texp) } Reach.small (Launch.small false) cur0)

theorem test_meets_WaitDecisions : ∀ kind ∈ [WaitKind.bar, .acq, .wait, .lwait, .push, .pop, .coll, .tresync, .tsleep], ∀ ready ∈ [true, false], let s := sWait kind 1 ready
    (s.reach? 0 0).any (fun r => r.row == 0 && r.slot == 0 && r.hold.isNone && r.tallied &&
      ((r.ctbs.head?).any (fun c => c.1 == 0 && c.2.ended.isNone && (c.2.groups[0]?).any (fun g => !g.ended && g.ready == ready && g.owed == .none &&
        g.pend.isEmpty && g.code != skippedWait))) && r.ctbs.length == 1 && (r.rgs[0]?).any (fun rg => rg.wait == some (waitOf kind 1) && rg.steps == [])) = true ∧
    (s.launch? 0).any (fun l => !l.record.super) = true := by decide +kernel

/-- A group with a wait of one kind on object `obj`. -/
def hWaits (w : Wait) (g : Machine.Group) (c : Ctb) (l : Launch) : Here := hereOf g c { rg0 with issued := 1, wait := some w } Reach.small l cur0
def sWaits (w : Wait) (g : Machine.Group) (c : Ctb) (l : Launch) : State := stateOf (hWaits w g c l)
def wait0 (kind : WaitKind) (obj : DWord) : Wait := { waitOf kind 0 with obj := obj }
/-- The launch in which that reach is resident, and a child of it in one of two states. -/
def lAt (t : Nat) : Launch := { Launch.small false with effective := some t }
def sChild (st : LState) : State :=
  let s := sWaits (wait0 .lwait 0) grp0 Ctb.small (lAt 0)
  { s with launches := s.launches ++ [{ lAt 0 with id := 1, state := st, issuer := .child 0 0 0 0 }] }
def collWait (broken : Bool) (tide : Option Nat) : Coll :=
  { rdx := 7, armed := true, broken := broken, bin := false, openR := 0
    rounds := [{ r := 0, wid := 1, contrib := [], arrived := [], parts := [], dup := false, nodes := [], exps := [], committed := [], flags := 0,
                 tide := tide, closers := [] }]
    desc := { rbase := 0, respa := 0, stg := 0, elems := 64, cset := 0, nmem := 1, rank := 0, lpe := 1, lpr := 1, op := 0 } }
def ctbLeaf : Ctb := { Ctb.small with leaves := [{ rdx := 7, lr := 0, obs := 0, flags := 0 }] }

/-- The hypotheses of WaitDecisions that belong to a kind: the barrier that nothing can complete, the sounds that a group owes, the
launches, objects and collectives that a wait with e = 0 finds. -/
theorem test_meets_wait_kinds :
    (let b := { Barrier.start with exr := some 1 }
     b.transit = [] ∧ b.remote.length + b.carried.length < 1 ∧ b.phase.toNat ≤ grp0.target) ∧
    (∀ x ∈ [(0, 1), (1, 0), (0, 0)], ({ Ctb.small with sounds := [soundOf x.1 x.2] } : Ctb).sounds.find? (fun y => y.n == (soundOf x.1 x.2).n) =
      some (soundOf x.1 x.2)) ∧ grp0.ready = false ∧ ((sWaits (waitOf .push 1) { grp0 with owed := .push 7 5 } Ctb.small (lAt 0)).core 0).errs = [] ∧
    (sWaits (wait0 .acq 7) grp0 Ctb.small (lAt 0)).fires = [] ∧ (lAt 0).record.complete ≠ 7 ∧ (lAt 0).record.numReaches = 1 ∧
    ({ (lAt 0).record with gridx := 40 } : Record).numReaches > 1 ∧ (lAt 0).finished.contains 1 = false ∧ (lAt 0).state = .running ∧
    readHandle { rg0 with issued := 1 } (BitVec.allOnes 64) = .null ∧ readHandle { rg0 with issued := 1 } 0 = .valid 0 ∧
    (∀ st ∈ [LState.done, .draining], ((sChild st).childOf 0 0 0 0).map (fun k => k.state) = some st) ∧
    (∀ t ∈ [0, 1], plannedAt Reach.small (lAt t) 0 0 = t) ∧ (sWaits (wait0 .coll 7) grp0 ctbLeaf (lAt 0)).time = 0 ∧
    (∀ b ∈ [true, false], ({ sWaits (wait0 .coll 7) grp0 ctbLeaf (lAt 1) with colls := [collWait b none] } : State).broken 7 = b) ∧
    ((collWait false (some 0)).rounds.find? (fun y => y.r == 0)).map (fun y => y.tide) = some (some 0) := by decide +kernel

/-- The hypotheses of WaitDecisions on `tsleep`: a promise missed, empty, refused, passed with its transfer landed or not, or to come. -/
def gSleep (v : DWord) : Machine.Group := { grp0 with p := grp0.p.set 7 v, pTrack := grp0.pTrack.set 7 (some 2) }
def sSleep (v : DWord) (landed unreadable : Bool) : State :=
  { sWaits (wait0 .tsleep 7) (gSleep v) Ctb.small (lAt 9) with
    xfers := [{ xferOf .copyIn v.toNat with id := 2, landed := landed, unreadable := unreadable }] }

theorem test_meets_tsleep : (∀ e ∈ [(false, true, some 9), (true, true, none), (false, false, none)],
      (((gSleep 9).pTrack.getD 7 none).bind (sSleep 9 e.1 e.2.1).xfer?).bind (fun x => x.missedBy 9) = e.2.2) ∧
    (gSleep 9).p.getD 7 emptyP = 9 ∧ plannedAt Reach.small (lAt 9) 0 0 = 9 ∧ (gSleep emptyP).p.getD 7 0 = emptyP ∧ (refusedP 5).getLsbD 63 = true ∧
    (refusedP 5).toNat % 256 = 5 ∧ (refusedP 2).toNat % 256 ≠ 5 ∧ refusedP 2 ≠ emptyP ∧ (10 : DWord).getLsbD 63 = false := by decide +kernel

/-! #### Collectives, launches, traps, ends, system registers and debug -/

/-- ENTRY's page lies in the result of descriptor 5, which is armed; the CTB has an entry with the mark `obs`, if any. -/
def cdesc : CDesc := { rbase := 0, respa := 0, stg := 0, elems := 64, cset := 0, nmem := 2, rank := 0, lpe := 0, lpr := 1, op := 0 }
def coll5 (rounds : List Round) : Coll := { rdx := 5, desc := cdesc, armed := true, broken := false, bin := false, openR := 0, rounds := rounds }
def lRed : Launch := { Launch.small true with trans := (Launch.small true).trans.map (fun r => { r with red := true, rdx := 5 }) }
def leafOf (rdx obs : Nat) : Leaf := { rdx := rdx, lr := 0, obs := obs, flags := 0 }
def hColl (ls : List Leaf) : Here := hereOf grp0 { Ctb.small with leaves := ls } rg0 Reach.small lRed cur0
def sColl (ls : List Leaf) : State := { stateOf (hColl ls) with colls := [coll5 []] }
/-- No entry for the descriptor; one with OBS clear, set or of this position, of planned tide 0; sixteen entries for others. -/
def leafCases : List (List Leaf) := [[], [leafOf 5 0], [leafOf 5 1], [leafOf 5 2]]
def leafFull : List Leaf := List.replicate 16 (leafOf 6 0)

theorem test_meets_CollectiveInstructions : Runs (sColl []) (hColl []) [] (dstNames (.reg 10 0) false) ∧ Fits (hColl []) (.reg 10 0) ∧
    ¬ Fits hTight (.reg 10 0) ∧ Fits h0 (.reg 10 0) ∧ Fits (hColl leafFull) (.reg 10 0) ∧
    ((∀ ls ∈ leafFull :: leafCases, (sColl ls).here = some (hColl ls) ∧
      (hColl ls).inSpace .global ((hColl ls).k 7) = true ∧ ((hColl ls).launch.phys ((hColl ls).k 7).toNat).isSome = true ∧
      (hColl ls).launch.redOf ((hColl ls).k 7).toNat = some 5 ∧ (sColl ls).coll? 5 = some (coll5 []) ∧ (coll5 []).armed = true ∧
      ((hColl ls).ctb.leaves.length < 16 ∨ ls = leafFull)) ∧
    2 + (hColl []).planned = 2 ∧ (leafFull.any (fun e => e.rdx == 5)) = false ∧ 16 ≤ leafFull.length ∧ (stateOf (hColl [])).armed 5 = false ∧
    (stateOf (hColl [])).here = some (hColl []) ∧ (stateOf hTight).here = some hTight ∧ hTight.grp.cursor ≠ 33 ∧ h0.grp.cursor ≠ 33 ∧
    h0.inSpace .global (h0.k 3) = false ∧ h0.inSpace .global (h0.k 8) = true ∧
    h0.launch.phys (h0.k 8).toNat = none ∧ h0.launch.redOf (h0.k 7).toNat = none) := by
  simp only [fits_iff]
  exact ⟨runs_of (by decide +kernel), by decide +kernel⟩

/-- One child of at most two is issued; it is `c`, and its end has been observed or not. -/
def childOf (c : Launch) : Launch := { c with id := 1, issuer := .child 0 0 0 0, record := { c.record with save := 64 } }
def hKid (seen : Bool) : Here :=
  hereOf grp0 Ctb.small { rg0 with issued := 1, observed := if seen then [(0, 0x0D)] else [], k := rg0.k.set 10 0xFFFFFFFFFFFFFFFF } Reach.small
    { Launch.small true with record := { Record.small true with childmax := 2 } } cur0
def sKid (seen : Bool) (c : Launch) : State :=
  { stateOf (hKid seen) with launches := [(hKid seen).launch, childOf c] }
def kid : Launch := Launch.small false

theorem test_meets_LaunchInstructions : Runs (sKid true kid) (hKid true) [] (dstNames (.reg 10 0) false) ∧ Fits (hKid true) (.reg 10 0) ∧
    (∀ o, ¬ (((hKid false).k 1).toNat = 2 ^ 37 * o + 2 ^ 32 * (hKid false).rg.grp + (hKid false).rg.reach)) ∧
    ((sKid false kid).here = some (hKid false) ∧ h0.launch.record.childmax ≤ h0.rg.issued ∧ (hKid false).cur.handler = false ∧
      (hKid false).rg.issued < (hKid false).launch.record.childmax ∧
      (hKid false).k 10 = BitVec.allOnes 64 ∧ ((hKid false).k 0).toNat = 2 ^ 37 * 0 + 2 ^ 32 * (hKid false).rg.grp + (hKid false).rg.reach ∧
      0 < (hKid false).rg.issued ∧
      look (hKid false).rg.observed 0 = none ∧ look (hKid true).rg.observed 0 = some 0x0D ∧ (sKid true kid).childOf 0 0 0 0 = some (childOf kid) ∧
      0 < (childOf kid).record.positions ∧ (childOf { kid with refused := true }).refused = true ∧ (childOf kid).refused = false ∧
      (childOf { kid with cancelled := true }).cancelled = true ∧ (childOf kid).declared ≤ (hKid true).planned ∧
      (hKid true).planned < (childOf { kid with declared := 1 }).declared ∧ 7935 % 8192 < 7936 ∧ 0 % 8192 + 7935 < 7936) := by
  refine ⟨runs_of (by decide +kernel), (fits_iff _ _).mpr (by decide +kernel), fun o h => ?_, by decide +kernel⟩
  have h1 : ((hKid false).k 1).toNat = 2 := by decide +kernel
  have h2 : (hKid false).rg.grp = 0 := by decide +kernel
  have h3 : (hKid false).rg.reach = 0 := by decide +kernel
  rw [h1, h2, h3] at h
  omega

/-- Group 0 is held by a fault of its own, or of the whole reach, before and after its entry. -/
def holdOf (wide entered : Bool) : Hold :=
  { wide := wide, queue := [(0, 0)], rg := { rg0 with pc := 0x20000, npc := 0x20000 }, visit := 0, j := 0, run := 0, halted := false, entered := entered,
    resume := false, back := none, serial := 1 }
def lTrap : Launch := { Launch.small false with record := { Record.small false with handler := 0x20000 } }
def grpTrap : Machine.Group :=
  { grp0 with shadow := some { prd := 1, div := 1, dstack := [], hstack := [], latch := grp0.latch, marks := [], again := false, lateErr := [] }, trap := { grp0.trap with res := 0x10008 } }
def hHold (g : Machine.Group) (wide entered : Bool) : Here :=
  let h := hereOf g Ctb.small rg0 Reach.small lTrap { cur0 with handler := entered }
  { h with reach := { h.reach with hold := some (holdOf wide entered) }, rg := if entered then (holdOf wide entered).rg else rg0 }
def faultOf (wide : Bool) : FaultRec :=
  { j := 0, col := 0, grp := 0, lane := 0, tlane := 31, cause := 0x21, addr := 7, wide := wide, late := false, planned := 0, pc := 0x10000, ilen := 12, res := 0x1000C, curs := 31 }

/-- The hypotheses of Traps, on TRAP_ENTRY. -/
theorem test_meets_trap_entry : ∀ wide ∈ [false, true], let s : State := { stateOf (hHold grp0 wide false) with faults := [faultOf wide] }
    (s.reach? 0 0).map (fun r => (r.row, r.slot, r.hold, r.launch)) = some (0, 0, some (holdOf wide false), 0) ∧
    (holdOf wide false).entered = false ∧ (holdOf wide false).queue = [(0, (faultOf wide).grp)] ∧ s.launch? 0 = some lTrap ∧
    lTrap.record.handler ≠ 0 ∧ (s.grpAt 0 0 0 0) = some grp0 ∧ s.faults = [faultOf wide] ∧ (faultOf wide).col = 0 ∧
    ((s.core (coreIx 0 0)).mx.queue 0).items = [] ∧ s.sysw = [] ∧ grp0.ended = false ∧ grp0.pend = [] ∧ (faultOf wide).cause < 256 ∧ (faultOf wide).tlane < 256 ∧
    (faultOf wide).curs < 64 ∧ (faultOf wide).ilen < 256 := by decide +kernel

/-- The hypotheses of Traps, on tret and hgo. -/
theorem test_meets_trap_return : ∀ wide ∈ [false, true], let s := stateOf (hHold grpTrap wide true)
    s.here = some (hHold grpTrap wide true) ∧ (hHold grpTrap wide true).cur.handler = true ∧
    (hHold grpTrap wide true).reach.hold = some (holdOf wide true) ∧ (holdOf wide true).queue = [(0, 0)] ∧ s.lastOfIndex = true ∧
    (hHold grpTrap wide true).grp.shadow.isSome = true ∧ (hHold grpTrap wide true).grp.pend = [] ∧ h0.cur.handler = false ∧
    (hHold grpTrap wide true).k 1 = BitVec.ofNat 64 2 ∧ hi32 ((hHold grpTrap wide true).k 3) ≠ 0 := by decide +kernel

/-- 15 R429: `hgo k1`, where k1 is 2, resumes with a count of 2 positions of its column. -/
theorem test_hgo_count : ((after (exec (.hgo (some 1)) (stateOf (hHold grpTrap true true)))).bind (fun t => t.reach? 0 0)).bind (fun r =>
    (r.rgs[0]?).map (fun rg => rg.steps)) = some [(0, 2, 2)] := by decide +kernel

def sCount : State :=
  stateOf (hereOf grp0 Ctb.small { rg0 with steps := [(0, 0, 3)] } Reach.small (Launch.small false) cur0)

theorem test_meets_step_count : (sCount.reach? 0 0).any (fun r => r.row == 0 && r.slot == 0 && r.hold.isNone &&
      (r.rgs[0]?).any (fun g => g.steps == [((0 : Nat), (0 : Nat), (3 : Nat))])) = true ∧
    (sCount.ctb? 0 0 0).any (fun c => c.ended.isNone) = true ∧ (sCount.grpAt 0 0 0 0).any (fun g => !g.ended) = true ∧
    sCount.faults.isEmpty = true := by decide +kernel

theorem test_meets_Ends : s0.here = some h0 ∧ h0.cur.handler = false ∧ h0.grp.ended = false ∧ h0.ctb.ended = none ∧ (s0.reach? 0 0).isSome = true ∧
    (s0.ctb? 0 0 0).map (fun c => c.ended) = some none ∧ s0.sysw.isEmpty = true := by decide +kernel

def hUser : Here := hereOf grp0 Ctb.small rg0 Reach.small (Launch.small false) cur0
/-- ACCTL25 denies row 0. -/
def sDenied : State := { s0 with regs := { s0.regs with acctl := List.replicate 26 0 } }

/-- DETCFG was written by a group of column 1, and others see the old value until tide 8192. -/
def sOldReg (t : Nat) : State :=
  { s0 with time := t, sysOld := [{ q := none, n := 0x20, old := 7, by_ := (0, 0, 1, 0), until_ := 8192 }] }
def sysw1 : SysWrite := { row := 0, slot := 0, col := 0, grp := 0, handler := false, due := 0, frame := 0, act := .write 0x20 7 }

theorem test_meets_SystemRegisters : Runs s0 h0 [] (dstNames (.reg 10 0) true) ∧ Runs s0 h0 [] (dstNames (.reg 10 0) false) ∧
    Runs (stateOf hUser) hUser [] (dstNames (.reg 10 0) false) ∧ Runs sDenied h0 [] (dstNames (.reg 10 0) false) ∧
    Runs (sOldReg 8191) h0 [] (dstNames (.reg 10 0) false) ∧ Runs (sOldReg 8192) h0 [] (dstNames (.reg 10 0) false) ∧
    Runs s0 h0 [.src (.v 2 false) true] [] ∧ Runs s0 h0 [.src (.v 2 false) false] [] ∧
    (h0.super = true ∧ s0.acctlR 25 h0.cur.row = true ∧ s0.acctlW 25 h0.cur.row = true ∧
      (sOldReg 8191).acctlR 25 h0.cur.row = true ∧ srnDevice 0x20 = true ∧ srnCore 0x20 = false ∧
      (h0.cur.row, h0.cur.slot, h0.cur.col, h0.cur.grp) ≠ (0, 0, 1, 0) ∧
      hUser.super = false ∧ ¬ ((0x22 : Nat) ≤ 2) ∧ srnDevice 0x22 = true ∧ srnDevice 0x99 = true ∧ srnDevice 0x54 = false ∧
      sDenied.acctlR 25 h0.cur.row = false ∧ h0.lanes = [0] ∧ h0.cur.handler = false ∧ sysw1.act = .write 0x20 7 ∧
      (h0.reach.rgOf 0 false).isSome = true ∧ h0.reach.stalled = false ∧
      (∀ m ∈ [0x28, 0xA0, 0xAF, 0xB0, 0x10B], srnDevice m = true) ∧ (∀ m ∈ [0xB1, 0x110, 0x111, 0x112, 0x200, 0x2FF], srnCore m = true) ∧
      srnDevice 0x39 = false ∧ ({ sysw1 with act := .write 0x10B 0 } : SysWrite).q = 0 ∧
      ({ s0 with bumped := [(0, 0x10B, 0)] } : State).bumped.any (fun e => e.2.1 == 0x10B && e.2.2 == s0.time) = true ∧ s0.bumped = []) := by
  refine ⟨?_, ?_, ?_, ?_, ?_, ?_, ?_, ?_, by decide +kernel⟩ <;> exact runs_of (by decide +kernel)

/-- A handler whose group 0 has lane 3 halted at ENTRY. -/
def grpHalt : Machine.Group := { grpTrap with shadow := none, hlm := 8, snaps := [{ lane := 3, div := true, stack := [], pc := 0x10000, hold := 1 }] }
def hHalt : Here := hHold grpHalt false true
def sHalt : State := stateOf hHalt

theorem test_meets_DebugInstructions : Runs sHalt hHalt [] (dstNames (.reg 10 0) false) ∧ Runs sHalt hHalt [.src (.v 2 false) false] [] ∧
    Runs s0 h0 [.src (.v 2 false) false] [] ∧ Runs s0 h0 [] (dstNames (.reg 10 0) false) ∧
    (hHalt.cur.handler = true ∧ sHalt.tgtOk (hHalt.tgt 0) = true ∧ sHalt.tgt? (hHalt.tgt 0) = some grpHalt ∧ (sHalt.tgtRG (hHalt.tgt 0)).isSome = true ∧
      (hHalt.tgt 0).handled = true ∧ grpHalt.shadow = none ∧ hHalt.lanes = [0] ∧ hHalt.k 0 &&& ~~~0x1F1F = 0 ∧
      grpHalt.snaps.find? (fun x => x.lane == 0 && x.hold == (hHalt.tgt 0).serial) = none ∧
      (grpHalt.snaps.find? (fun x => x.lane == 3 && x.hold == (hHalt.tgt 0).serial)).isSome = true ∧
      (sHalt.stepFetch hHalt.launch 0x10000).isOk = true ∧ steppable (.sreg .lane (.reg 10 0)) = true ∧ steppable .endG = false ∧ hHalt.cur.slot < 16 ∧
      h0.cur.handler = false ∧ (s0.core 0).fifo = [] ∧ ({ sysw1 with act := .arm 15 { count := 1, action := 1, cmp := 0, kind := 1, n := 15 } 0 1 } : SysWrite).slot < 16) := by
  refine ⟨?_, ?_, ?_, ?_, by decide +kernel⟩ <;> exact runs_of (by decide +kernel)

/-- Two groups, the second of which is written by the handler of the first. -/
def hTwo : Here :=
  let h := hHalt
  { h with reach := { h.reach with rgs := [rg0, { rg0 with grp := 1 }], ctbs := [(0, { Ctb.small with groups := [grpHalt, grp0] })] },
           ctb := { Ctb.small with groups := [grpHalt, grp0] } }

theorem test_meets_hwrite : Runs (stateOf hTwo) hTwo [.src (.v 2 false) false] [] ∧ ((stateOf hTwo).tgtOk (hTwo.tgt 1) = true ∧
    (hTwo.tgt 1).handled = false ∧ (stateOf hTwo).tgt? (hTwo.tgt 1) = some grp0 ∧ grp0.shadow = none ∧ hTwo.lanes = [0] ∧ (hTwo.tgt 1).wide = false ∧
      ((stateOf hTwo).tgtRG (hTwo.tgt 1)).isSome = true ∧ (grp0.vreg? 40).isNone = true ∧ grp0.footprint + 1 ≤ hTwo.launch.record.budget + grp0.granted) :=
  ⟨runs_of (by decide +kernel), by decide +kernel⟩

/-- In a reach-wide hold, with a budget that is used up, and with no lane active. -/
def hWide (budget : Nat) (prd : Word) : Here :=
  let g : Machine.Group := { grpTrap with prd := prd }
  let h := hHold g true true
  let l : Launch := { lTrap with record := { lTrap.record with budget := budget } }
  { h with reach := { h.reach with rgs := [rg0, { rg0 with grp := 1 }], ctbs := [(0, { Ctb.small with groups := [g, grp0] })] },
           ctb := { Ctb.small with groups := [g, grp0] }, launch := l }

theorem test_meets_hwrite_items : Runs (stateOf (hWide 64 1)) (hWide 64 1) [.src (.v 2 false) false] [] ∧
    Runs (stateOf (hWide 8 1)) (hWide 8 1) [.src (.v 2 false) false] [] ∧ Runs (stateOf (hWide 64 0)) (hWide 64 0) [.src (.v 2 false) false] [] ∧
    ((∀ n ∈ [0, 1], ((stateOf (hWide 64 1)).tgtOk ((hWide 64 1).tgt n) = true ∧ ((hWide 64 1).tgt n).wide = true ∧
        ((hWide 64 1).tgt n).handled = (n == 0) ∧ ((stateOf (hWide 64 1)).tgtRG ((hWide 64 1).tgt n)).isSome = true)) ∧
      (hWide 64 1).reach.hold.isSome = true ∧ (hWide 8 1).launch.record.budget + grp0.granted < grp0.footprint + 1 ∧ (hWide 64 0).lanes = [] ∧
      ((stateOf (hWide 64 1)).tgt? ((hWide 64 1).tgt 0)).map (fun g => g.shadow.isSome) = some true) := by
  refine ⟨?_, ?_, ?_, by decide +kernel⟩ <;> exact runs_of (by decide +kernel)

/-- 15 Table 15.16: TRAPRES of the handled group takes its low half. -/
theorem test_hwrite_pc : ((after (exec (.hwrite (.v 5 false) { group := 0, item := 1, index := 0 }) (stateOf (hWide 64 1)))).bind (fun t =>
    t.grpAt 0 0 0 0)).map (fun g => g.trap.res) = some 0 := by decide +kernel

/-- A record in the trace queue of core 1, with room for it in the trace buffer; core 0 drains at this tide, or not. -/
def ttT : TideTable := { tt1 with image := [(2 * (396 * 256 + 1) + 1, 4)] }
def sTrace (lower : Bool) : State :=
  { State.reset.setCore 1 { Core.reset with fifo := [List.replicate 64 1] } with
    time := 36, regs := { Regs.reset with trbase := 0x10000, trsize := 64 }, tt := some ttT
    agenda := if lower then [{ tide := 36, cls := 0, task := .op (.traceDrain 0) }] else [] }

theorem test_meets_traceDrain : FirstSlot ttT 0x400 (channelOf 0x10000) 36 [] 36 ∧ ∀ b ∈ [false, true],
    ((sTrace b).core 1).fifo = [List.replicate 64 1] ∧ (sTrace b).regs.trhead.toNat + 64 ≤ (sTrace b).regs.trsize.toNat ∧
    (sTrace b).tt = some ttT ∧ (sTrace b).devTaken = [] ∧
    ((sTrace b).agenda.any (fun e => decide (e.tide ≤ 36) && e.task == .op (.traceDrain 0))) = b :=
  ⟨⟨⟨by decide, by decide, 1, by decide, by decide +kernel, by decide +kernel⟩, fun _ h => h.1⟩, by decide +kernel⟩

/-- The halted instruction is fetched: the word of 02's first worked encoding stands at ENTRY. -/
theorem test_meets_hstep : (match ({ sHalt with dram := wrN [] 0x10000 [0x40, 0, 5, 0xD0, 1, 0x38, 0, 1] } : State).stepFetch hHalt.launch 0x10000 with
    | .ok (e, p, n) => e == .add .i32 false (.reg 5 2) (.v 7 true) (.src (.k 3)) && p == 0x10000 && n == 8 && steppable e
    | .error _ => false) = true := by decide +kernel

/-! #### Launches, residency, transfers, links, the physical device and the host -/

def launchIn (st : LState) : Launch := { Launch.small true with id := 1, issuer := .host 0 0x2000, state := st, effective := none }
def sLaunch (l : Launch) : State := { State.reset with launches := [l], time := 512, nextId := 1 }

theorem test_meets_LaunchLifecycle : (∀ st ∈ [LState.validating, .preparing, .ready, .running], (sLaunch (launchIn st)).launch? 1 = some (launchIn st)) ∧
    workAfter (launchIn .validating).issueTide 512 = 512 ∧ (launchIn .validating).declared ≤ 512 ∧
    ({ launchIn .validating with refused := true, status := 5 } : Launch).refused = true ∧ 512 < ({ launchIn .validating with declared := 513 } : Launch).declared ∧
    (launchIn .preparing).pre = [] ∧ (sLaunch (launchIn .preparing)).preloadWaits 1 = false ∧ (sLaunch (launchIn .preparing)).preloadsOf 1 = [] ∧
    (sLaunch (launchIn .ready)).depsMet (launchIn .ready).record = true ∧ (launchIn .ready).cancelled = false ∧ (launchIn .ready).record.blocks ≠ 0 ∧
    ({ launchIn .ready with record := { Record.small true with gridx := 0 } } : Launch).record.blocks = 0 ∧
    ({ launchIn .running with ends := [(0, .ok)] } : Launch).ends.length = (launchIn .running).record.numCtbs ∧
    ({ launchIn .preparing with promise := some 0 } : Launch).promise = some 0 ∧ 0 ≤ (launchIn .preparing).declared ∧
    ({ launchIn .validating with cancelled := true } : Launch).cancelled = true ∧ (launchIn .validating).late = false ∧
    ({ launchIn .ready with late := true } : Launch).late = true ∧ (launchIn .running).effective = none ∧
    (sLaunch (launchIn .running)).requests.isEmpty = true ∧
    (sLaunch (launchIn .running)).xfers = [] ∧ (sLaunch (launchIn .running)).staged = [] ∧ (sLaunch (launchIn .running)).reaches = [] ∧
    (launchIn .running).wbLeft = [] ∧ (∀ f ∈ [((1, CtbEnd.killed) : Nat × CtbEnd), (0, .ok)], f.2 ≠ .ok → f = (1, .killed)) := by decide +kernel

/-- A preload that lands later, and one that has landed. -/
def sPre (promise : Nat) (landed : Bool) : State :=
  { sLaunch (launchIn .preparing) with xfers := [{ xferOf (.preload 1 0 0) promise with landed := landed }] }
/-- An ended CTB with a writeback, with its reach. -/
def lEnded (wb : List ListEntry) : Launch := { Launch.small true with wb := wb, wbLeft := [0], ends := [(0, .ok)] }
def wb1 : ListEntry := { gaddr := 0x10000, bstride := 0, sstride := 0, soff := 0, bytes := 64, zero := false }
def hEnded (wb : List ListEntry) : Here :=
  hereOf { grp0 with ended := true } { Ctb.small with ended := some .ok } rg0 Reach.small (lEnded wb) cur0

theorem test_meets_preparation_and_writeback : (sPre 600 false).preloadsOf 1 = (sPre 600 false).xfers ∧ (sPre 600 false).time < 600 ∧
    (sPre 500 true).xfers.all (fun x => x.landed) = true ∧ 500 ≤ (sPre 500 true).time ∧
    (∀ wb ∈ [[], [wb1]], (stateOf (hEnded wb)).placeOf 0 0 = some (0, 0, 0) ∧ ((stateOf (hEnded wb)).ctb? 0 0 0).map (fun c => (c.ended, c.groups.all (fun g => g.ended))) =
      some (some .ok, true) ∧ (stateOf (hEnded wb)).linBusy 0 0 = false) ∧ (lEnded [wb1]).backPieces wb1 0 0 0 0 0 ≠ [] := by decide +kernel

/-- A launch that waits for its row at a quantum boundary. -/
def sBound : State := { sLaunch (launchIn .running) with time := 0, agenda := [] }

/-- The hypotheses of Residency, on a quantum boundary. -/
theorem test_meets_quantumBoundary : sBound.time % sBound.quantum = 0 ∧ sBound.agenda = [] ∧ sBound.launches = [launchIn .running] ∧
    (launchIn .running).south = false ∧ (launchIn .running).record.rowmask.toNat = 2 ^ 0 ∧ (launchIn .running).unfinishedOn 0 = true ∧ sBound.reaches = [] ∧
    sBound.rows.length = 16 ∧ (∀ r ∈ sBound.rows, r.holder = none) ∧ (launchIn .running).unfinishedAt 0 0 = [0] ∧
    ({ launchIn .running with starting := true } : Launch).unfinishedOn 0 = true := by decide +kernel

def reachIn (leaving entering resident : Bool) : Reach := { Reach.small with leaving := leaving, entering := entering, resident := resident, started := resident }
def sReach (r : Reach) (kinds : List XKind) : State :=
  { State.reset with launches := [Launch.small true], reaches := [r], nextId := 1,
                     xfers := kinds.map (fun k => { xferOf k 0 with landed := true }) }

def sDump : State := { stateOf (hEnded []) with xfers := [{ xferOf .save 0 with landed := true, launch := 0 }] }

/-- The hypotheses of Residency, on saving, restoring and dumps. -/
theorem test_meets_save_and_restore : ((sReach (reachIn true false true) [.save]).saving 0 0 0 = true ∧
      (sReach (reachIn true false true) [.save]).saveBusy 0 0 = false ∧ (reachIn true false true).liveCtbs = [(0, Ctb.small)] ∧ Ctb.small.hdr = [] ∧
      (sReach (reachIn true false true) [.save]).reach? 0 0 = some (reachIn true false true)) ∧
    ((sReach { reachIn true false true with hold := some (holdOf false true) } []).saving 0 0 0 = false ∧
      (sReach { reachIn true false true with hold := some (holdOf false true) } []).runLeft 0 0 = none) ∧
    ((sReach (reachIn false true true) []).reaches = [reachIn false true true] ∧ (sReach (reachIn false true true) []).gathersLeft 0 0 = []) ∧
    ((reachIn false true false).resident = false ∧ (reachIn false true false).saved = false ∧ (Launch.small true).pre = [] ∧
      (sReach (reachIn false true false) []).xfers = [] ∧ (sReach (reachIn false true false) []).memsWf = true) ∧
    sDump.saving 0 0 0 = true ∧ sDump.saveBusy 0 0 = false ∧ (sDump.ctb? 0 0 0).map (fun c => (c.ended, c.hdr)) = some (some .ok, []) := by decide +kernel

/-- A transfer of one granule, of 64 bytes at 0x10000, whose next `fails` reads fail. -/
def pieceOf (comb : Bool) (len : Nat) : Piece := { row := 0, comb := comb, dram := 0x10000, core := 0, scr := 0, len := len, old := List.replicate len 0 }
def granOf (p : Piece) (data : List Byte) (fails : Nat) : Granule :=
  { num := 1024, slot := 36, land := 8112, at_ := 36, pieces := [p], data := data, done := false, fails := fails }
def sGran (kind : XKind) (g : Granule) (fails : Option Nat) : State :=
  { State.reset with xfers := [{ xferOf kind 8112 with id := 1, grans := [g] }], time := 36, nextId := 1,
                     phys := { State.reset.phys with eccFail := fails.toList.map (fun n => (1024, n)) } }

/-- The same with bytes that the write carries, a later transfer of the engine that wrote them too, and a retry slot in use. -/
def sOver (later used : Bool) (g : Granule) : State :=
  let s := sGran .copyOut g (some 0)
  { s with
    xfers := s.xfers ++ if later then [{ xferOf .copyOut 8112 with id := 2, grans := [{ granOf (pieceOf false 64) [] 0 with done := true }] }] else []
    phys := { s.phys with retried := if used then [(channelOf 65536, 0)] else [] } }

theorem test_meets_TransferSteps : (∀ kind ∈ [XKind.copyIn, .copyOut, .save, .restore, .red .add .i32 false], ∀ fails ∈ [none, some 1],
      (((sGran kind (granOf (pieceOf false 64) [] 0) fails).xfer? 1).map (fun x => (x.id, x.kind, x.grans[0]?))) =
        some (1, kind, some (granOf (pieceOf false 64) [] 0)) ∧
      look (sGran kind (granOf (pieceOf false 64) [] 0) fails).phys.eccFail 1024 = fails ∧
      (sGran kind (granOf (pieceOf false 64) [] 0) fails).dfresh = [] ∧ (sGran kind (granOf (pieceOf false 64) [] 0) fails).cores = []) ∧
    XKind.copyIn.inbound = true ∧ XKind.restore.kept = true ∧ 64 * 1024 = 65536 ∧ 36 / 8192 = 0 ∧
    (∀ used ∈ [false, true], (sOver false used (granOf (pieceOf false 64) [] 17)).phys.retried.contains (channelOf 65536, 0) = used) ∧
    (∀ later ∈ [false, true], ((sOver later false (granOf (pieceOf false 64) (List.replicate 64 7) 0)).xfer? 1).any (fun x =>
      (List.range 64).all (fun i => (sOver later false (granOf (pieceOf false 64) (List.replicate 64 7) 0)).outdone x 0 (65536 + i) false == later)) = true) ∧
    (pieceOf false 64).old = (Core.reset).bytes 0 64 ∧ 0 % 64 + 64 ≤ 64 ∧ (pieceOf false 64).dram % 64 + 64 ≤ 64 ∧
    (granOf (pieceOf false 64) (List.replicate 64 7) 0).data.length = 64 ∧ (pieceOf true 4).len = 4 ∧
    (granOf (pieceOf true 4) (List.replicate 4 7) 0).data.length = 4 ∧ (16 : Nat) < 17 ∧ 17 ≤ 17 := by decide +kernel

/-- A transfer of group 0 whose granule is still unreadable, as a frame begins. -/
def sRetry : State :=
  let h := hereOf { grp0 with pTrack := grp0.pTrack.set 3 (some 1) } Ctb.small rg0 Reach.small (Launch.small true) cur0
  { stateOf h with time := 8192, xfers := [{ xferOf .copyIn 8112 with id := 1, unreadable := true, grans := [granOf (pieceOf false 64) [] 10] }] }

theorem test_meets_granuleRetryFrame : sRetry.time % 8192 = 0 ∧ 0 < (sGran .copyIn (granOf (pieceOf false 64) [] 10) (some 1)).time % 8192 ∧
    ((sRetry.xfer? 1).bind sRetry.issuerOf).any (fun e => e.1.resident && sRetry.plannedOf e.1 e.2 8192 % 8192 == 0 &&
      sRetry.plannedOf e.1 e.2 16384 == sRetry.plannedOf e.1 e.2 8192 + 8192) = true ∧
    ((sGran .copyIn (granOf (pieceOf false 64) [] 10) none).xfer? 1).bind (sGran .copyIn (granOf (pieceOf false 64) [] 10) none).issuerOf = none ∧
    (sRetry.grpAt 0 0 0 0).map (fun g => (g.pTrack.getD 3 none, decide (3 < g.p.length))) = some (some 1, true) := by decide +kernel

/-- 10 R307: the promise is revised as a frame begins: slot 16,208 of the frame of tide 8,192 and its landing 96 tides on. -/
theorem test_retry_revises : (((after (exec (.granuleRetryFrame 1 0) sRetry)).bind (fun t => t.xfer? 1)).map (fun x => (x.promise, x.passed))) =
    some (16304, 8112) := by decide +kernel

/-- A gather in progress, a fire that waits for a staged contribution or has its slots, and a request without a slot. -/
def relAll : Release := { view := [{ by_ := .engine 2, upto := none, within := [], own := false }], regs := [{ core := none, base := 0x10000, len := 4 }] }
def fireOf (xids : List Nat) : Fire := { id := 3, obj := 7, xids := xids, rel := relAll, comb := relAll, planned := 0, launch := none }
def staged1 : Staged := { stagedOf 0 with elts := [(0x10000, 0x10000, 0x20000)], landed := true }
def sFire (xids : List Nat) (tt : Option TideTable) : State := { State.reset with fires := [fireOf xids], staged := [staged1], tt := tt }
def ttC : TideTable := { tt1 with image := [(2 * (396 * 256 + 1) + 1, 5)] }

def sGather : State := { s0 with xfers := [{ xferOf .gather 8112 with id := 1, idx := { ix1 with n := 33 } }] }

theorem test_meets_fires_gathers_requests : ((sFire [2] none).fires.find? (fun x => x.id == 3) = some (fireOf [2]) ∧
      ((sFire [2] none).combineEnd relAll (fireOf [2]).ends).isNone = true ∧ ((sFire [2] (some ttC)).combineEnd relAll (fireOf [2]).ends).map (fun e => e.1) = some 60 ∧
      staged1.landed = true ∧ (stagedOf 0).landed = false ∧ (stagedOf 0).xid = 2 ∧
      staged1.takes relAll none (0x10000, 0x10000, 0x20000) = true ∧ (fireOf []).xids = [] ∧ (sFire [] none).staged = [staged1]) ∧
    (sGather.xfer? 1).isSome = true ∧ sGather.reaches.all (fun r => r.launch == 0 && r.ctbs.all (fun c => c.2.lin == 0)) = true ∧ 32 * (0 + 1) < 33 ∧
    (∀ tt ∈ [none, some tt1], ({ State.reset with requests := [{ x := xferOf .restore 0, pieces := [pieceOf false 64] }], tt := tt } : State).requests.length = 1) := by
  decide +kernel

/-! #### Slack water, the schedule and the tide table -/

/-- A tide table at DRAM 0: one template of empty slots at 65536, and a link directory without a part at 2^24. -/
def tab : Memory := [(0, 1), (10, 1), (19, 1)]
def sTab : State := { State.reset with dram := tab, time := 524288, ttNext := some (524288, 0) }

theorem rdVal_tab (a n : Nat) (h : 32 ≤ a) : rdVal tab a n = 0 := by
  unfold rdVal
  induction n generalizing a with
  | zero => rfl
  | succ n ih =>
    have h1 : rd tab a = 0 := by
      simp only [rd, tab]
      rw [if_neg (by omega), if_neg (by omega), if_neg (by omega), if_neg (by omega), if_neg (by omega), if_neg (by omega)]
    simp only [rdN, ofBytes, h1, ih (a + 1) (by omega)]
    rfl

theorem dramVal_tab (a n : Nat) : sTab.dramVal a n = rdVal tab a n := by
  have h1 : ∀ m : Nat, (List.range m).map (fun i => rd tab (a + i)) = rdN tab a m := by
    intro m
    apply List.ext_getElem?
    intro i
    by_cases hi : i < m
    · rw [List.getElem?_map, List.getElem?_range hi, Option.map_some, ← rdN_getD tab a m i hi, List.getD_eq_getElem?_getD,
        List.getElem?_eq_getElem (by rw [rdN_length]; exact hi), Option.getD_some]
    · rw [List.getElem?_eq_none (by simp; omega), List.getElem?_eq_none (by rw [rdN_length]; omega)]
  simp only [State.dramVal, State.dramBytes, rdVal, ← h1]
  rfl

theorem foldl_zero (l : List Nat) (h : ∀ x ∈ l, x = 0) : l.foldl max 0 = 0 := by
  induction l with
  | nil => rfl
  | cons x l ih =>
    rw [List.foldl_cons, h x (by simp)]
    exact ih (fun y hy => h y (by simp [hy]))

theorem imageOf_sTab : sTab.imageOf = wrN [] 0 (sTab.dramBytes 0 17228800) := by
  have h0 : (sTab.regs.ttbase.extractLsb' 12 40).toNat * 4096 = 0 := by decide +kernel
  have h1 : rdVal tab 0 8 = 1 := by decide
  have h2 : rdVal tab (0 + 8) 8 = 65536 := by decide
  have h3 : rdVal tab (0 + 16) 8 = 16777216 := by decide
  have h4 : ((List.range 2048).map (fun d => rdVal tab (0 + 16777216 + 8 * d) 8)).foldl max 0 = 0 := by
    refine foldl_zero _ (fun x hx => ?_)
    obtain ⟨d, -, rfl⟩ := List.mem_map.mp hx
    exact rdVal_tab _ _ (by omega)
  simp only [State.imageOf, h0, dramVal_tab, h1, h2, h3, h4]
  have hl : (if (1 : Nat) ≤ 64 then max (65536 + 3244032 * 1) (16777216 + max 16384 (0 + 128 + 8 * 3527 * 16 * 1)) else 64) = 17228800 := by decide
  rw [hl, if_pos (by decide)]

theorem rd_image (x : Nat) : rd sTab.imageOf x = rd tab x := by
  rw [imageOf_sTab, rd_wrN _ _ _ (by rfl)]
  split
  · rename_i h
    rw [show (sTab.dramBytes 0 17228800).length = 17228800 by simp [State.dramBytes]] at h
    simp only [State.dramBytes, List.getD_eq_getElem?_getD, List.getElem?_map, List.getElem?_range (show x - 0 < 17228800 by omega)]
    simp [State.dramByte, sTab, State.reset]
  · rename_i h
    rw [show (sTab.dramBytes 0 17228800).length = 17228800 by simp [State.dramBytes]] at h
    simp only [rd, tab]
    rw [if_neg (by omega), if_neg (by omega), if_neg (by omega), if_neg (by omega), if_neg (by omega), if_neg (by omega)]

theorem rdN_image (a n : Nat) : rdN sTab.imageOf a n = rdN tab a n := by
  induction n generalizing a with
  | zero => simp only [rdN]
  | succ n ih => simp only [rdN, rd_image, ih]

theorem rdVal_image (a n : Nat) : rdVal sTab.imageOf a n = rdVal tab a n := by
  unfold rdVal
  rw [rdN_image]

theorem parts_tab : (List.range 2048).filterMap (linkPart sTab.imageOf 16777216) = [] := by
  rw [List.filterMap_eq_nil_iff]
  intro d _
  simp only [linkPart, rdVal_image, rdVal_tab (16777216 + 8 * d) 8 (by omega), ↓reduceIte]

theorem clash_tab (t : TideTable) : sTab.pairClash t = false := by
  have h5 : ∀ a ∈ List.range 16, sTab.pairOf a = [] := by decide +kernel
  unfold State.pairClash
  rw [List.any_eq_false]
  intro a ha
  rw [h5 a ha, List.any_nil]
  decide

theorem codes_tab (e l : Nat) : ((List.range 1).any (fun i => (List.range 4096).any (fun c => (List.range 396).any (fun j =>
    !ownerOk (({ epoch := e, ntmpl := 1, tmpl := 65536, link := l, image := sTab.imageOf } : TideTable).code i c j))))) = false := by
  rw [List.any_eq_false]
  intro i _ h
  rw [List.any_eq_true] at h
  obtain ⟨c, -, h⟩ := h
  rw [List.any_eq_true] at h
  obtain ⟨j, -, h⟩ := h
  simp only [TideTable.code, rdVal_image] at h
  rw [rdVal_tab _ _ (by omega)] at h
  exact absurd h (by decide)

/-- A table that validation accepts. -/
theorem test_meets_table : sTab.ttErr 524288 0 = 0 := by
  have h1 : rdVal tab 0 8 = 1 := by decide
  have h2 : rdVal tab 8 8 = 65536 := by decide
  have h3 : rdVal tab 16 8 = 16777216 := by decide
  have h4 : rdVal tab 24 40 = 0 := by decide
  unfold State.ttErr
  simp only [rdVal_image, h1, h2, h3, h4, parts_tab, clash_tab]
  simp only [codes_tab]
  decide

def sFreeze : State := { State.reset with freeze := some { tf := 0, cause := 255, delta := 2 } }
/-- A reach that leaves, with a save in progress, and a transfer whose reads have failed once. -/
def sLeave : State := sReach (reachIn true false true) [.save]
def sFail : State := sGran .copyIn (granOf (pieceOf false 64) [] 1) none
/-- Core 3 surveys, at an offset of the frame. -/
def sSurvey (off : Nat) : State :=
  { State.reset.setCore 3 { Core.reset with survey := { Core.reset.survey with ctl := 0x42 } } with time := 8192 + off }
/-- Region 19 has a deficit. -/
def sDef (d off : Nat) : State :=
  { State.reset with time := off, regs := { State.reset.regs with defstat := State.reset.regs.defstat.set 19 (BitVec.ofNat 32 d) } }
/-- What link 0 sent in this frame it is to send again. -/
def sent0 : Sent := { kind := 2, rdx := 5, chunk := 0, r := 0 }
def flit0 (v : Option Sent) : OutFlit := { frame := 0, slot := 1, origin := 0, payload := [], flags := 1, what := v }

theorem test_meets_SlackSteps : (31 : Nat) < 32 ∧ (9 : Nat) < 10 ∧ (Core.reset).mark 31 = 15 ∧ ({ Core.reset with bankmap := 0 } : Core).mark 0 = 0 ∧
    State.reset.regs.defstat.length = 22 ∧ (20 : Nat) ∉ List.range 9 ++ (List.range 9).map (· + 11) ∧
    (19 : Nat) ∈ List.range 9 ++ (List.range 9).map (· + 11) ∧ 19 ∈ (sDef 7 7936).droopWith 19 ∧ 0 ∉ (sDef 7 7936).droopWith 19 ∧
    (255 : Nat) < 256 ∧ State.reset.freeze = none ∧ sFreeze.freeze.isSome = true ∧ State.reset.xfers = [] ∧
    (sFail.xfers.all (fun x => x.grans.all (fun g => decide (g.fails < 2)))) = true ∧
    (sLeave.reaches.all (fun r => r.resident && r.leaving)) = true ∧ sLeave.xfers.any (fun x => x.kind == .save && x.launch == 0) = true ∧
    (State.reset.reaches.isEmpty = true) := by decide +kernel

theorem test_meets_SlackSteps_tides : State.reset.ttNext = none ∧ sTab.ttNext = some (sTab.time, 0) ∧
    ({ sTab with time := 8192, ttNext := some (8192, 0) } : State).ttErr 8192 0 = 2 ∧
    (64 : Nat) < (-65 : Int).natAbs ∧ (-64 : Int).natAbs ≤ 64 ∧ (-65 : Int) < 0 ∧ (0 : Int) ≤ 0 ∧ State.reset.regs.lnkstat.length = 16 ∧
    (State.reset.links[15]?).isSome = true ∧ (flit0 (some sent0)).frame = 8191 / 8192 ∧ (flit0 (some sent0)).origin = 0 ∧
    (sDef 256 8192).time % 8192 = 0 ∧ ((sDef 257 8192).regs.defstat.getD 19 0).toNat % 65536 = 257 ∧
    (∀ off ∈ [1, 7936, 8179], 0 < (sSurvey off).time % 8192 ∧ (sSurvey off).time % 8192 < 8180 ∧
      (sSurvey off).cores.map (fun c => (c.1, c.2.survey.ctl.getLsbD 6)) = [(3, true)] ∧ (sSurvey off).regs.slackcfg.getLsbD 16 = true) ∧
    ({ State.reset.regs with slackcfg := 0 } : Regs).slackcfg.getLsbD 16 = false ∧
    8180 ≤ (sSurvey 8180).time % 8192 ∧ 8180 ≤ ({ sTab with time := 524287 } : State).time % 8192 ∧ (sSurvey 8191).time % 8192 = 8191 := by
  decide +kernel

/-- 18 R452: at offset 7,999 one tide is left for a correction of 3, and none is taken outside the window or beyond the guard. -/
theorem test_tideCorrection : (∀ e ∈ [(7999, -3, some 8000), (7936, -3, some 7939), (7936, -9, some 7944), (7935, -3, some 7935), (7936, -65, some 7936)],
    (after (exec (.tideCorrection e.2.1) (sDef 0 e.1))).map (fun t => t.time) = e.2.2) := by decide +kernel

/-- 01 R31: an edge in eight of slack water, the first at its first tide. -/
theorem test_droop : (∀ e ∈ [(7936, 1), (7943, 1), (7944, 2)], (after (exec (.droopSuppress 19 9) (sDef 7 e.1))).map (fun t =>
    (t.regs.defstat.getD 19 0).toNat % 65536) = some (7 + e.2)) := by decide +kernel

/-! #### Links, the physical device, host commands and the step -/

/-- Link 0 sends and receives the result of descriptor 5, chunk 0, in slot 1; link 1 is its backup. -/
def ttL : TideTable :=
  { epoch := 0, ntmpl := 1, tmpl := 0, link := 0, image := [(0, 128), (128, 0x11), (265, 0x50), (267, 0x80), (269, 0x50), (271, 0x80)] }
def link0 : Link := { missed := 0, bad := 0, failed := [], resend := [], lastOut := [], marker := false, drop := false, sent := [], rerouteAt := none }
def nodeOf (kind : NodeKind) (lo hi : Nat) : NodeVal :=
  { kind := kind, lo := lo, hi := hi, chunk := 0, vals := List.replicate 64 1, flags := 0, ready := 0 }
def roundOf (nodes : List NodeVal) : Round :=
  { r := 0, wid := 0, contrib := [], arrived := [], parts := [], dup := false, nodes := nodes, exps := [], committed := [], flags := 0, tide := none, closers := [] }
def sLink (down : Bool) (nodes : List NodeVal) (k : Link) : State :=
  { State.reset with
    time := 7000, tt := some ttL, colls := [coll5 [roundOf nodes]], links := State.reset.links.set 0 k
    regs := { State.reset.regs with lnkstat := State.reset.regs.lnkstat.set 0 (if down then 0x20 else 0) } }

/-- Link 0 receives at `off` tides after a frame marker is due. -/
def sMark (off : Nat) (k : Link) : State := { sLink false [] k with time := 8192 + (Config.linkLat 0).toNat + off }

theorem markerOff_sMark (off : Nat) (k : Link) (h : off < 4096) : (sMark off k).markerOff 0 = off := by
  simp only [State.markerOff, sMark]
  omega

theorem receives (s : State) (tide : Nat) (h : s.part? = some (ttL, 128)) : s.wordOf true 0 1 tide = (0, 0x80005000) := by
  have h2 : ttL.template tide = 0 := by simp [TideTable.template, ttL]
  have h3 : slotRx ttL.image 128 0 0 1 = 0x80005000 := by decide +kernel
  have h4 : lwKind 0x80005000 ≠ 0 := by decide
  simp only [State.wordOf, h, h2, h3, h4, ↓reduceIte, ne_eq, not_false_eq_true]

theorem test_meets_PodLinks_send : (∀ d ∈ [false, true], (sLink d [] link0).links[0]? = some link0 ∧
      ((sLink d [] link0).regs.lnkstat.getD 0 0).getLsbD 5 = d) ∧ (sLink false [] link0).silent = false ∧
    ({ State.reset with phys := { State.reset.phys with lostRows := [9] } } : State).silent = true ∧
    (sLink false [] link0).wordOf false 0 0 7000 = (0, 0) ∧ (sLink false [] link0).wordOf false 0 1 7000 = (0, 0x80005000) ∧
    lwKind 0 = 0 ∧ lwKind 0x80005000 = 2 ∧ (3526 : Nat) < 3527 ∧ (sLink false [] link0).valueOf 0 0x80005000 = none ∧
    ((sLink false [nodeOf .result 0 2] link0).valueOf 0 0x80005000).isSome = true ∧
    ([(3527, flit0 none)].find? (fun e => e.1 == 3527)) = some (3527, flit0 none) := by decide +kernel

/-- What a link may be in when a flit comes: dropping, with flits that failed, or after 14 or 15 in a row. -/
def linkCases : List Link :=
  [link0, { link0 with drop := true }, { link0 with failed := [(0, 1)] }, { link0 with bad := 14 }, { link0 with bad := 15 },
    { link0 with lastOut := [flit0 (some sent0)] }]

theorem test_meets_PodLinks_receive :
    ((sMark 65 link0).markerOff 0).natAbs = 65 ∧ ((sMark 64 link0).markerOff 0).natAbs = 64 ∧ (0x40 : BitVec 8).getLsbD 6 = true ∧
    (sMark 65 link0).wordOf true 0 1 (8192 * (sMark 65 link0).sentFrame 0 1) = (0, 0x80005000) ∧
    ((∀ k ∈ linkCases, (sLink false [] k).links[0]? = some k ∧ ((sLink false [] k).regs.lnkstat.getD 0 0).getLsbD 5 = false ∧
      (sLink false [] k).servedBy 0 = [0]) ∧
      0 < (sLink false [] link0).regs.lnkstat.length ∧ (16 : Nat) ≤ 15 + 1 ∧ 14 + 1 < 16 ∧ lwRdx 0x80005000 = 5 ∧ lwKind 0x80005000 = 2 ∧
      (sLink false [] link0).coll? 5 = some (coll5 [roundOf []]) ∧ (coll5 [roundOf []]).broken = false ∧ (coll5 [roundOf []]).armed = true ∧
      (1 : BitVec 8).getLsbD 0 = true ∧ ((1 : BitVec 8).getLsbD 5 || (1 : BitVec 8).getLsbD 6 || (0x40 : BitVec 8).getLsbD 0) = false ∧
      (0x20 : BitVec 8).getLsbD 5 = true ∧ (0x20 : BitVec 8).getLsbD 6 = false ∧ (flit0 (some sent0)).frame = 7000 / 8192 ∧
      (∀ i, i < 4 → (sLink false [] link0).acctlW (stackOf (64 * (0 + i))) 18 = true) ∧
      (∀ i, i < 4 → ({ sLink false [] link0 with regs := { Regs.reset with acctl := [] } } : State).acctlW (stackOf (64 * (0 + i))) 18 = false)) := by
  rw [markerOff_sMark _ _ (by decide), markerOff_sMark _ _ (by decide), receives _ _ (by decide +kernel)]
  decide +kernel

theorem test_meets_PodLinks_down :
    ((Config.linkLat 0).toNat ≤ 3900 → 8192 * 0 + flitOff 1 + 2 * (Config.linkLat 0).toNat + 32 ≤ 8192 * 0 + 7936 + 9 * 0 / 4) ∧
    (∀ m, m < 28 → ¬ ((8191 : Nat) ≤ 8192 * 0 + 7936 + 9 * m / 4)) ∧
    ((sLink false [] link0).part? = some (ttL, 128) ∧ (rerouteOf ttL.image 128 0).getLsbD 4 = true ∧
      (rerouteOf ttL.image 128 0).toNat % 16 = 1 ∧ State.reset.part?.isNone = true ∧ (sLink false [] link0).links[1]? = some link0 ∧
      link0.missed < 2 ∧ 2 ≤ ({ link0 with missed := 2 } : Link).missed ∧ 7000 % 8192 ≤ 7936 ∧ (flit0 (some sent0)).what ≠ none ∧
      ([flit0 none].reverse.find? (fun e => e.slot == 1)) = some (flit0 none)) := by
  refine ⟨fun h => ?_, fun m h => ?_, by decide +kernel⟩
  · have h1 : flitOff 1 = 2 := by decide
    omega
  · omega

def rankC (nmem : Nat) : Coll := { coll5 [] with desc := { cdesc with nmem := nmem } }
def partR (nodes : List NodeVal) : Round := { roundOf nodes with parts := [{ chunk := 0, ready := 7000, fails := 0 }] }
def arriveR (key : Nat) : Round :=
  { roundOf [] with contrib := [{ key := (0, 0, 0), elem := 7, val := 1 }], arrived := [{ key := (0, 0, key), elem := 7, val := 2 }] }

theorem test_meets_PodLinks_combine : (rankC 1).bin = false ∧ (rankC 1).desc.push = false ∧ (rankC 1).desc.rank = 0 ∧ (rankC 1).desc.nmem = 1 ∧
    (rankC 2).desc.nmem = 2 ∧ (roundOf []).nodes = [] ∧ (∀ key ∈ [0, 1], (arriveR key).arrived.length = 1 ∧ (arriveR key).parts = [] ∧
      (((arriveR key).contrib.filter (fun y => y.elem == 7)).map (·.key)).contains (0, 0, key) = (key == 0) ∧
      (arriveR key).contrib.countP (fun y => y.elem == 7) = 1) ∧ ({ cdesc with lpe := 2 } : CDesc).lpe = 2 ∧ cdesc.lpe ≤ 1 ∧
    ((sLink false [] link0).agenda.all (fun e => decide (e.task = .op .boot))) = true ∧
    ((partR []).parts.any (fun p => p.chunk == 0 && decide (p.ready ≤ 7000))) = true ∧ (partR []).arrived = [] ∧ State.reset.phys.eccFail = [] ∧
    (nodeOf .tree 1 2).vals.length = 64 ∧ (nodeOf .tree 1 2).ready ≤ 7000 ∧ (0 : Nat) ∉ (partR []).committed ∧
    (roundOf [nodeOf .result 0 2]).nodes.find? (fun v => v.kind == .result && v.chunk == 0 && decide (v.ready + 24 ≤ 7000)) = some (nodeOf .result 0 2) ∧
    (roundOf [nodeOf .result 0 2]).closers.length < cdesc.lpr ∧ (sLink false [] link0).leafHeld 5 = false ∧
    (sColl [leafOf 5 0]).leafHeld 5 = true := by decide +kernel

/-- A launch that may be replayed, with REPLCFG that permits one replay, and one that may not. -/
def sReplay (may : Bool) : State :=
  { State.reset with
    launches := [{ Launch.small true with replayable := may }], reaches := [Reach.small]
    regs := { State.reset.regs with replcfg := 0x11 } }
def sRows (lost : List Nat) (code : Nat) : State := { State.reset with agenda := [], phys := { State.reset.phys with lostRows := lost, bootFail := code } }

theorem test_meets_PhysicalEvents : (∀ may ∈ [false, true], (sReplay may).reach? 0 0 = some Reach.small ∧
      (sReplay may).launch? Reach.small.launch = some { Launch.small true with replayable := may } ∧
      (sReplay may).replays { Launch.small true with replayable := may } ((sReplay may).phys.fenceable ((sReplay may).physCore 0 0)) = may) ∧
    Reach.small.ctb? 0 = some Ctb.small ∧ (sReplay true).xfers = [] ∧ (Launch.small true).state = .running ∧
    (∀ n ∈ [0, 8, 11, 19], n < 22 ∧ n % 11 < 9) ∧ (∀ lost ∈ [[], [0, 1, 2, 3, 4]], (sRows lost 0).reaches = [] ∧ (sRows lost 0).agenda = [] ∧
      (sRows lost 0).phys.fenced = []) ∧ (sRows [0, 1, 2, 3, 4] 0).phys.usable 0 = [5, 6, 7, 8] ∧ (sRows [0, 1, 2, 3, 4, 5] 0).phys.usable 0 = [6, 7, 8] ∧
    ({ sRows [] 0 with phys := { (sRows [] 0).phys with badBanks := [(0, 31, 9)] } } : State).phys.badBanks.all (fun b => decide (b.2.1 < 32)) = true ∧
    (sRows [] 0).bootCode = 0 ∧ (sRows [] 2).bootCode = 2 ∧ (sRows [] 5).bootCode = 5 ∧ (sRows [0, 1, 2, 3, 4, 5] 0).bootCode = 4 ∧
    (sRows [] 0).phys.dieLost = none ∧ (sRows [] 0).phys.tj = [] ∧ (sRows [] 0).phys.power = [] ∧ Memory.wf (sRows [] 0).phys.image = true := by decide +kernel

/-- The crossings of a device that counts 9 beats for row 4 of die 1, or 49 for the bridge; and its firmware image with one byte changed. -/
def sCross (c : Crossing) (n : Nat) : State := { sRows [] 0 with phys := { (sRows [] 0).phys with counts := [(c, n)] } }
def sImage (a : Nat) (b : Byte) : State := { sRows [] 0 with phys := { (sRows [] 0).phys with image := wrN (sRows [] 0).phys.image a [b] } }

theorem test_meets_boot : (sCross (.rowUncore 1 4) 9).phys.slow = [.rowUncore 1 4] ∧ (Crossing.rowUncore 1 4).region = some 15 ∧
    (sCross .bridge 49).phys.slow = [.bridge] ∧ Crossing.bridge.region = none ∧ (sRows [] 0).phys.slow = [] ∧ (sRows [] 0).phys.imageOk = true ∧
    (∀ a ∈ [0x10, 0x3F, 0x152D, 0x15FF], (sImage a 1).phys.imageOk = false ∧ Memory.wf (sImage a 1).phys.image = true) := by decide +kernel

/-- 18 Table 18.7: of a row that counts 5 beats the FIFO is 3 deep, 9 beats make it unusable, and 49 across the bridge fail boot with code 1; R448: a
nonzero byte of the header's zeros fails it with code 3. -/
theorem test_boot : ((after (exec .boot (sCross (.rowUncore 1 4) 5))).map (fun t => (t.phys.depths.find? (fun e => e.1 == .rowUncore 1 4)).map (fun e => e.2))) =
      some (some 3) ∧
    (∀ e ∈ [(sCross (.rowUncore 1 4) 9, 6, true), (sCross .bridge 49, 0x101, false), (sImage 0x15FF 1, 0x303, false)],
      (after (exec .boot e.1)).map (fun t => (t.regs.bootstat, t.phys.lostRows.contains 15)) = some (e.2.1, e.2.2)) := by decide +kernel

/-- 18 R455: 95 °C is sticky, and both fields read as the meters show. -/
theorem test_pwrstat : ((after (exec (.junctionWarning 95) (sRows [] 0))).bind (fun t => after (exec (.powerWarning 2500) t))).map (fun t => t.pwrWord) =
    some (0x60000000 + BitVec.ofNat 32 (95 * 2 ^ 20 + 2500)) := by decide +kernel

def sHost (tdisp : BitVec 32) (key scrub : Bool) (base : DWord) (ls : List Launch) : State :=
  { State.reset with
    agenda := [], launches := ls, nextId := 1
    host := { State.reset.host with owned := ls.map (fun l => (0, l.id)), key := key, scrubbing := scrub }
    regs := { State.reset.regs with tdispst := tdisp, hltbase := base } }
def lHost (declared : Nat) : Launch :=
  { launchIn .running with issuer := .host 0 0x40000, declared := declared, record := { Record.small true with complete := 5 } }

theorem test_meets_HostCommands : (sHost 0 false false 0 []).accepts = true ∧ (sHost 1 true false 0 []).accepts = true ∧
    (sHost 1 false false 0 []).accepts = false ∧ (sHost 3 true false 0 []).accepts = false ∧ (sHost 0 false true 0 []).host.scrubbing = true ∧
    (sHost 0 false false 0x40000 []).owner 4095 = none ∧ (∀ d ∈ [0, 1], (sHost 0 false false 0x40000 [lHost d]).hostLaunch 0x8000000000000000 = some (lHost d) ∧
      (sHost 0 false false 0x40000 [lHost d]).launch? (lHost d).id = some (lHost d)) ∧ (lHost 0).refused = false ∧ (lHost 0).cancelled = false ∧
    (sHost 0 false false 0 []).hostLaunch 0 = none ∧
    (sHost 0 false false 0 [lHost 0]).objInUse 5 = true ∧ (sHost 0 false false 0 [lHost 0]).objInUse 65535 = false ∧
    State.reset.slotsOwned 4095 = false ∧ sT.slotsOwned 256 = true ∧ (sHost 0 false false 0 [lHost 0]).hostBusy = true ∧
    (sHost 0 false false 0 []).hostBusy = false ∧ (sHost 0 true false 0 []).tdisp = 0 ∧ (sHost 1 true false 0 []).tdisp = 1 ∧
    (sHost 1 false false 0 []).host.key = false ∧ (sHost 2 true false 0 []).tdisp = 2 ∧ (State.reset.core 3).mark 31 = 15 := by decide +kernel

/-- Registers of which the device controller may read and write TTBASE, or may not. -/
def sAcc (may : Bool) : State :=
  { State.reset with regs := { State.reset.regs with acctl := State.reset.regs.acctl.set 25 (if may then 0x0001000000010000 else 0) } }
def lDebug : Launch := { Launch.small true with record := { Record.small true with debug := 7 } }
def rDebug (halted : Bool) : Reach := { Reach.small with hold := some { holdOf true true with halted := halted } }
def sDebug (halted : Bool) (tok : DWord) : State :=
  { State.reset with
    launches := [lDebug], reaches := [rDebug halted]
    regs := { State.reset.regs with dbgtok := tok } }

theorem test_meets_HostCommands_debug : (∀ b ∈ [false, true], (sAcc b).acctlR 25 16 = b ∧ (sAcc b).acctlW 25 16 = b) ∧
    ((sDebug true 7).debugPlace lDebug 1).isNone = true ∧
    ((sDebug true 7).launches.find? (fun l => l.ident == 9 && l.state != .done)).isNone = true ∧
    (sDebug true 7).debugRight lDebug = true ∧ (sDebug true 8).debugRight lDebug = false ∧ (sDebug true 0).debugRight lDebug = false ∧
    (Ctb.small.group? 0).isSome = true ∧ (0x400 : Word) = 0x400 + BitVec.ofNat 32 ((0x400 : Word).toNat % 32) ∧
    (sDebug true 7).tgtOk (hostTarget (rDebug true) { holdOf true true with halted := true } 0 0) = true ∧
    ([({ lDebug with state := .done } : Launch), Launch.small true].all (fun l => l.state == .done || l.record.debug == 0)) = true := by
  decide +kernel

theorem test_meets_HostCommands_place : ∀ h ∈ [false, true], (sDebug h 7).debugPlace lDebug 0 = some (rDebug h, 0) ∧
    (sDebug h 7).launches.find? (fun l => l.ident == 0 && l.state != .done) = some lDebug ∧
    (rDebug h).hold.any (fun x => x.halted == h && x.queue == [((0 : Nat), (0 : Nat))]) = true := by decide +kernel

/-- A scrub that one command meets, or that two wait for; its completion then begins the first. -/
def sWaiting (scrub : Bool) (l : List Instr) : State :=
  { sHost 0 false scrub 0 [] with host := { (sHost 0 false scrub 0 []).host with waiting := l } }

theorem test_meets_HostCommands_waiting : (sWaiting true []).host.scrubbing = true ∧ (sWaiting true []).host.waiting = [] ∧
    (sWaiting false []).host.scrubbing = false ∧ (sWaiting false []).accepts = true ∧
    (sWaiting false [.lquery 0, .regrd 0 0]).host.waiting = [.lquery 0, .regrd 0 0] ∧ (Instr.lquery 0) ≠ .cancel 0 ∧
    ({ sWaiting false [.lquery 0] with regs := { Regs.reset with tdispst := 3 } } : State).accepts = false ∧
    (sWaiting false []).agenda.isEmpty = true := by decide +kernel
/-! #### The step -/

/-- The position of the state in which `i` is placed, as `StepRunsDecoded` names its parts. -/
def placed (i : Instr) : State := State.reset.place true (encodeBytes i)
/-- The turn of the column for which the beacons have been looked at, or of one that is the next. -/
def turnOf (col : Option Nat) (todo : List (Nat × Nat)) : Issue :=
  { row := 0, slot := 0, j := 0, todo := todo, col := col, mode := .each, hits := [], fresh := [], wrote := [] }
def atFirst (i : Instr) : State :=
  { placed i with
    issue := some (turnOf (some 0) [])
    cur := some { row := 0, slot := 0, col := 0, grp := 0, pc := 0, ilen := 0, head := false, only := none, handler := false } }
def readyAt (i : Instr) (h : Here) (n : Nat) : State :=
  let set : State := (atFirst i).modRG h (fun rg =>
    { rg with pc := h.rg.pc, npc := h.rg.pc + BitVec.ofNat 64 n, head := true, tstep := false })
  ({ set with cur := some { h.cur with head := true, pc := h.rg.pc, ilen := n } } : State)

/-- Both forms of a turn: the column's beacons are counted, or none of its core is armed. -/
theorem test_meets_StepRunsDecoded_turn : (turnOf (some 0) [(0, 0)]).col = some 0 ∧ (turnOf none [(0, 0)]).col ≠ some 0 ∧
    (turnOf none [(0, 0)]).todo = [(0, 0)] ∧ ((placed .nop).core (coreIx 0 0)).bcnctl.all (fun b => !b.getLsbD 31) = true := by decide +kernel

theorem test_meets_StepRunsDecoded : ∀ e ∈ [(Instr.kadd 4 7 (.k 8), 8), (Instr.kli 8 (.imm32 true 4), 12), (Instr.kli 8 (.imm64 5), 16)],
    (atFirst e.1).here.any (fun h => h.grp.lateDue h.rg.pos == none && h.rg.pc.toNat % 32 == 0 && !h.rg.head && h.rg.joinStep h.rg.pc == none &&
      h.launch.phys h.rg.pc.toNat == some 0x10000 && h.launch.canX h.rg.pc.toNat && (placed e.1).modeCheck h.super h.launch e.1 == none &&
      h.grp.cursor != 33 && goesOn (exec e.1 (readyAt e.1 h e.2))) = true ∧
    decodeBytes ((placed e.1).dramBytes 0x10000 e.2) = .ok e := by decide +kernel

theorem test_meets_StepRunsDecoded_events : State.reset.issue.isNone = true ∧ State.reset.agenda = { tide := 0, cls := 0, task := .op .boot } :: [] ∧
    (sHost 0 false false 0 []).issue.isNone = true ∧ (sHost 0 false false 0 []).agenda = [] := by decide

theorem test_meets_RoundTrip : wf (.kadd 4 7 (.k 8)) = true ∧ (encode (.kadd 4 7 (.k 8))).isSome = true ∧
    decode ((encode (.kadd 4 7 (.k 8))).getD (0, 0)).2 = .ok (.kadd 4 7 (.k 8)) := by decide +kernel

theorem test_meets_MemoriesKept : State.reset.memsWf = true ∧ goesOn (step State.reset) = true := by decide +kernel

/-- An instruction placed as the host places it has its effect: k8 holds 5 after `kli k8, 5`. -/
theorem test_step_kli : (match step (placed (.kli 8 (.imm64 5))) with
    | .next t => (t.reach? 0 0).bind (fun r => (r.rgOf 0 false).map (fun g => (g.k.getD 8 0, g.k.getD 7 0)))
    | _ => none) = some (5, 0) := by decide +kernel


end Sys2Proof.Tests
end

/-! O59: every step keeps the memories of the state in canonical form (01 R26, 07 R211).

The invariant is `State.Canon`. DRAM changes through `State.dramWrite` or is emptied; scratch changes through
`State.scrWrite`, `Core.reencode` in the patrol scrub, `State.fillAlloc` and `Core.scrubbed`. Everything else leaves both as
they are or calls one of these. So each operation of the model has one lemma, whose proof follows the branches of the
operation and cites the lemmas of the operations that it calls. Where an operation writes no memory and calls none that
does, the invariant of the old state is that of the new one, and the proof is `hs`.

The lemmas stand in the namespace `State.Canon`, so that `hs.f` is the invariant of `s.f …` for `hs : s.Canon`. The lemma
of a function outside `State` has its name with `canon_` or, for an outcome, `canonOut_` before it. -/
namespace Sys2Proof.Machine

/-! ### The invariant -/

/-- DRAM and the scratch of every listed core are in canonical form. -/
def MemsCanon (m : Memory) (cs : List (Nat × Core)) : Prop :=
  memWf m = true ∧ ∀ c ∈ cs, memWf c.2.scratch = true

/-- The memories of a state are in canonical form: `State.memsWf` as a proposition on the two fields that hold memories,
so that an update of another field leaves it as it is. -/
@[reducible] def State.Canon (s : State) : Prop := MemsCanon s.dram s.cores

/-- The next state of an outcome, if there is one, has its memories in canonical form. -/
def CanonOut : Out1 → Prop
  | .next t => t.Canon
  | _ => True

theorem State.canon_iff {s : State} : s.Canon ↔ s.memsWf = true := by
  simp [State.memsWf, MemsCanon, Memory.wf]

theorem canonOut_next {t : State} : CanonOut (.next t) ↔ t.Canon := Iff.rfl

/-! ### Lists of memories and of cores -/

theorem mem_bindAt {α : Type} {l : List (Nat × α)} {k : Nat} {a : α} {e : Nat × α} (he : e ∈ bindAt l k a) :
    e = (k, a) ∨ e ∈ l := by
  induction l with
  | nil => simpa [bindAt] using he
  | cons b l ih =>
    simp only [bindAt] at he
    grind

theorem mem_of_look {α : Type} {l : List (Nat × α)} {k : Nat} {a : α} (h : look l k = some a) : (k, a) ∈ l := by
  induction l with
  | nil => simp [look] at h
  | cons b l ih =>
    simp only [look] at h
    grind

theorem memWf_foldl {α : Type} {f : Memory → α → Memory} {l : List α} {m : Memory}
    (hf : ∀ m x, memWf m = true → memWf (f m x) = true) (hm : memWf m = true) : memWf (l.foldl f m) = true :=
  List.foldlRecOn (motive := fun m => memWf m = true) l f hm (fun m hm x _ => hf m x hm)

section
variable {m : Memory} {cs : List (Nat × Core)}

theorem MemsCanon.bindAt {q : Nat} {c : Core} (h : MemsCanon m cs) (hc : memWf c.scratch = true) :
    MemsCanon m (bindAt cs q c) :=
  ⟨h.1, fun _ he => (mem_bindAt he).elim (fun he => he ▸ hc) (h.2 _)⟩

theorem MemsCanon.map {f : Core → Core} (h : MemsCanon m cs)
    (hf : ∀ c, memWf c.scratch = true → memWf (f c).scratch = true) :
    MemsCanon m (cs.map (fun c => (c.1, f c.2))) := by
  refine ⟨h.1, fun c hc => ?_⟩
  obtain ⟨d, hd, rfl⟩ := List.mem_map.1 hc
  exact hf _ (h.2 d hd)

theorem MemsCanon.wrN {a : Nat} {bs : List Byte} (h : MemsCanon m cs) : MemsCanon (wrN m a bs) cs :=
  ⟨memWf_wrN a bs h.1, h.2⟩

theorem MemsCanon.nil (h : MemsCanon m cs) : MemsCanon [] cs := ⟨rfl, h.2⟩

end

/-! ### What the operations on a core leave of its scratch -/

@[simp] theorem Core.loseInc_scratch (c : Core) : c.loseInc.scratch = c.scratch := rfl

@[simp] theorem Core.surveyed_scratch (c : Core) (now : Nat) : (c.surveyed now).scratch = c.scratch := rfl

@[simp] theorem Core.countSlot_scratch (c : Core) (b : Option Nat) : (c.countSlot b).scratch = c.scratch := by
  cases b <;> rfl

@[simp] theorem Core.addIdle_scratch (c : Core) (n : Nat) : (c.addIdle n).scratch = c.scratch := by
  simp only [Core.addIdle, apply_ite Core.scratch, ite_self]

@[simp] theorem Core.countIdle_scratch (c : Core) (now : Nat) : (c.countIdle now).scratch = c.scratch := by
  simp [Core.countIdle]

@[simp] theorem Core.setReg_scratch (c : Core) (n : Nat) (v : DWord) : (c.setReg n v).scratch = c.scratch := by
  simp only [Core.setReg, apply_ite Core.scratch, ite_self]

theorem Core.foldl_scratch {α : Type} {f : Core → α → Core} (hf : ∀ c x, (f c x).scratch = c.scratch) (l : List α)
    (c : Core) : (l.foldl f c).scratch = c.scratch :=
  List.foldlRecOn (motive := fun d => d.scratch = c.scratch) l f rfl (fun d hd x _ => (hf d x).trans hd)

theorem Core.memWf_reencode {c : Core} (a n : Nat) (hc : memWf c.scratch = true) :
    memWf (c.reencode a n).scratch = true := by
  unfold Core.reencode
  split
  · exact hc
  · refine List.foldlRecOn (motive := fun c : Core => memWf c.scratch = true) _ _ hc (fun c hc i _ => ?_)
    dsimp only
    split
    · refine memWf_foldl (fun m e hm => ?_) hc
      split
      exacts [memWf_wr _ _ hm, hm]
    · exact hc

/-! ### Rules for the shapes of the model's definitions -/

section
variable {s : State}

theorem State.Canon.core (hs : s.Canon) (q : Nat) : memWf (s.core q).scratch = true := by
  unfold State.core
  cases hq : look s.cores q with
  | none => rfl
  | some c => exact hs.2 _ (mem_of_look hq)

theorem canon_ite {c : Prop} [Decidable c] {a b : State} (ha : a.Canon) (hb : b.Canon) :
    (if c then a else b).Canon := by
  split <;> assumption

theorem canonOut_ite {c : Prop} [Decidable c] {a b : Out1} (ha : CanonOut a) (hb : CanonOut b) :
    CanonOut (if c then a else b) := by
  split <;> assumption

theorem canonOut_withHere {f : Here → State} (hf : ∀ h, (f h).Canon) : CanonOut (s.withHere f) := by
  unfold State.withHere
  split
  exacts [hf _, trivial]

theorem canon_of_next {o : Out1} {t : State} (h : o = .next t) (ho : CanonOut o) : t.Canon := by
  subst h; exact ho

theorem canon_of_eq_fst {α : Type} {p : State × α} {a : α} {t : State} (h : p = (t, a)) (hp : p.1.Canon) :
    t.Canon := by
  subst h; exact hp

theorem canon_of_eq_snd {α : Type} {p : α × State} {a : α} {t : State} (h : p = (a, t)) (hp : p.2.Canon) :
    t.Canon := by
  subst h; exact hp

theorem canon_of_eq_snd_snd {α β : Type} {p : α × β × State} {a : α} {b : β} {t : State} (h : p = (a, b, t))
    (hp : p.2.2.Canon) : t.Canon := by
  subst h; exact hp

theorem canon_foldl {α : Type} {f : State → α → State} {l : List α} (hf : ∀ s x, s.Canon → (f s x).Canon)
    (hs : s.Canon) : (l.foldl f s).Canon :=
  List.foldlRecOn l f hs (fun s hs x _ => hf s x hs)

theorem canon_foldl_fst {α β : Type} {f : State × β → α → State × β} {l : List α} {b : State × β}
    (hf : ∀ b x, b.1.Canon → (f b x).1.Canon) (hb : b.1.Canon) : (l.foldl f b).1.Canon :=
  List.foldlRecOn (motive := fun b => b.1.Canon) l f hb (fun b hb x _ => hf b x hb)

theorem canon_foldl_snd {α β : Type} {f : β × State → α → β × State} {l : List α} {b : β × State}
    (hf : ∀ b x, b.2.Canon → (f b x).2.Canon) (hb : b.2.Canon) : (l.foldl f b).2.Canon :=
  List.foldlRecOn (motive := fun b => b.2.Canon) l f hb (fun b hb x _ => hf b x hb)

theorem canon_foldl_snd_snd {α β γ : Type} {f : β × γ × State → α → β × γ × State} {l : List α} {b : β × γ × State}
    (hf : ∀ b x, b.2.2.Canon → (f b x).2.2.Canon) (hb : b.2.2.Canon) : (l.foldl f b).2.2.Canon :=
  List.foldlRecOn (motive := fun b => b.2.2.Canon) l f hb (fun b hb x _ => hf b x hb)

end

end Sys2Proof.Machine

namespace Sys2Proof.Machine.State.Canon

variable {s : State}

/-! ### Operations of `Machine/Ops` -/

theorem setCore {q c} (hs : s.Canon) (hc : memWf c.scratch = true) : (s.setCore q c).Canon := hs.bindAt hc

theorem modCore {q f} (hs : s.Canon) (hf : ∀ c, memWf c.scratch = true → memWf (f c).scratch = true) :
    (s.modCore q f).Canon := hs.setCore (hf _ (hs.core q))

theorem modReach {row slot f} (hs : s.Canon) : (s.modReach row slot f).Canon := hs

theorem modCtb {row slot col f} (hs : s.Canon) : (s.modCtb row slot col f).Canon := hs

theorem modGroup {row slot col g f} (hs : s.Canon) : (s.modGroup row slot col g f).Canon := hs

theorem modLaunch {id f} (hs : s.Canon) : (s.modLaunch id f).Canon := hs

theorem modG {h f} (hs : s.Canon) : (s.modG h f).Canon := hs

theorem modC {h f} (hs : s.Canon) : (s.modC h f).Canon := hs

theorem schedule {tide cls t} (hs : s.Canon) : (s.schedule tide cls t).Canon := hs

theorem later {tide cls i} (hs : s.Canon) : (s.later tide cls i).Canon := hs

theorem freeBool (hs : s.Canon) : (s.freeBool).2.Canon := hs

theorem report {o} (hs : s.Canon) : (s.report o).Canon := hs

theorem put {h d w64 n lanes vals flags} (hs : s.Canon) : (s.put h d w64 n lanes vals flags).Canon := canon_ite hs hs

theorem raiseAt {h wide cause addr lane} (hs : s.Canon) : (s.raiseAt h wide cause addr lane).Canon := hs

theorem raise {h cause addr} (hs : s.Canon) : (s.raise h cause addr).Canon := hs

theorem raiseTl {h cause addr lane} (hs : s.Canon) : (s.raiseTl h cause addr lane).Canon := hs

theorem complete {h} (hs : s.Canon) : (s.complete h).Canon := hs

/-! ### Operations of `Machine/Scratch` -/

theorem noteInc {q n} (hs : s.Canon) : (s.noteInc q n).Canon := canon_ite hs hs

theorem countCorr {q cs} (hs : s.Canon) : (s.countCorr q cs).Canon :=
  canon_foldl (fun _ _ hs => canon_ite (noteInc (hs.setCore (hs.core q))) (noteInc (hs.setCore (hs.core q)))) hs

theorem bankLoss {q a n} (hs : s.Canon) : (s.bankLoss q a n).Canon :=
  canon_ite hs (canon_foldl (fun _ _ hs => canon_ite hs hs) hs)

theorem scrPick {q a n path view stamp} (hs : s.Canon) : (s.scrPick q a n path view stamp).2.2.Canon := by
  unfold State.scrPick
  dsimp only
  split <;> exact hs.countCorr

theorem groupRead {h q a n stamp} (hs : s.Canon) : (s.groupRead h q a n stamp).2.Canon :=
  canon_ite hs.scrPick hs.scrPick

theorem lossOne {q} (hs : s.Canon) : (s.lossOne q).Canon := hs.noteInc

theorem traceOut {q r} (hs : s.Canon) : (s.traceOut q r).Canon :=
  canon_ite (canon_ite (hs.setCore (hs.core q)) (hs.setCore (hs.core q))) hs.lossOne

theorem sound {q t before after a n} (hs : s.Canon) : (s.sound q t before after a n).Canon :=
  canon_ite (canon_foldl (fun _ _ hs => canon_ite hs hs.traceOut) hs) hs

/-- Every write to scratch but the fill of an allocation ends here: bytes are written into what `Core.reencode` leaves. -/
theorem scrWrite {q a bs t by_ path} (hs : s.Canon) : (s.scrWrite q a bs t by_ path).Canon :=
  sound (setCore hs (memWf_wrN a bs (Core.memWf_reencode a _ (hs.core q))))

theorem engineWrite {q a bs t wid path} (hs : s.Canon) : (s.engineWrite q a bs t wid path).Canon := hs.scrWrite

theorem engineWriteRow {q a bs t wid path} (hs : s.Canon) : (s.engineWriteRow q a bs t wid path).2.Canon := by
  unfold State.engineWriteRow
  dsimp only
  split
  exacts [hs.bankLoss, engineWrite (canon_ite (hs.setCore (hs.core q)) hs)]

/-! ### Operations of `Machine/Flags` -/

theorem setFlags {h f} (hs : s.Canon) : (s.setFlags h f).Canon := canon_ite hs hs

/-! ### Operations of `Machine/Operands` -/

theorem streamVec {h n} (hs : s.Canon) : (s.streamVec h n).2.Canon := canon_foldl_snd (fun _ _ ha => ha.groupRead) hs

theorem meetStream {h n} (hs : s.Canon) : (s.meetStream h n).Canon :=
  canon_foldl (fun _ _ hs => hs.countCorr.bankLoss) hs

theorem advance {h ns} (hs : s.Canon) : (s.advance h ns).Canon := hs

theorem logBeacons {h ctls logs} (hs : s.Canon) : (s.logBeacons h ctls logs).Canon :=
  canon_foldl (fun _ _ hs => hs.traceOut) hs

theorem stopRec {h} (hs : s.Canon) : (s.stopRec h).Canon := hs.traceOut

theorem readStreams {h ns} (hs : s.Canon) : (s.readStreams h ns).2.Canon :=
  canon_foldl_snd (fun _ _ ha => ha.streamVec) hs

theorem endHalts {h x} (hs : s.Canon) : (s.endHalts h x).Canon := by
  unfold State.endHalts
  split
  exacts [hs, canon_ite (stopRec hs.modG) hs]

theorem oweHalts {h x} (hs : s.Canon) : (s.oweHalts h x).Canon := canon_ite hs hs

theorem vecEnd {h v r eff} (hs : s.Canon) (heff : ∀ t stop outs, t.Canon → (eff t stop outs).1.Canon) :
    (s.vecEnd h v r eff).Canon := by
  unfold State.vecEnd
  extract_lets -underBinder frees dst core halted outs s1 s2
  have h2 : s2.Canon := logBeacons (canon_ite hs (hs.setCore (hs.core h.q)))
  split
  next s3 rs he =>
  have h3 : s3.Canon := canon_of_eq_fst he (heff _ _ _ h2)
  extract_lets -underBinder fl s4 fin s5 s6 s7 owed
  have h4 : s4.Canon := canon_ite h3.setFlags h3
  have h5 : s5.Canon := canon_ite h4 h4
  have h6 : s6.Canon := by
    unfold s6
    split
    exacts [h5.put, h5]
  have h7 : s7.Canon := canon_ite h6 h6
  split
  exacts [raiseAt (oweHalts h7), canon_ite h7 (endHalts (complete (advance h7)))]

theorem keepHits {hits} (hs : s.Canon) : (s.keepHits hits).Canon := canon_ite hs hs

/-- An instruction that runs by lanes keeps the invariant when its effect does. -/
theorem vec {h v chk eff} (hs : s.Canon) (heff : ∀ t stop outs, t.Canon → (eff t stop outs).1.Canon) :
    (s.vec h v chk eff).Canon := by
  unfold State.vec
  dsimp only
  refine canon_ite (endHalts hs) ?_
  split
  next => exact hs.raise
  refine canon_ite hs.raise ?_
  split
  next => exact canon_ite (canon_foldl (fun _ _ hs => hs.meetStream) hs.raiseTl) hs.raiseTl
  split
  next => exact hs.raise
  next => exact vecEnd (keepHits hs.readStreams) heff

theorem vec_justVals {h v chk} (hs : s.Canon) : (s.vec h v chk justVals).Canon := hs.vec fun _ _ _ ht => ht

theorem compute {v} (hs : s.Canon) : CanonOut (s.compute v) := canonOut_withHere fun _ => hs.vec_justVals

theorem vec_toMask {h v chk hh d} (hs : s.Canon) : (s.vec h v chk (toMask hh d)).Canon := hs.vec fun _ _ _ ht => ht

theorem computeMask {ops d f} (hs : s.Canon) : CanonOut (s.computeMask ops d f) :=
  canonOut_withHere fun _ => hs.vec_toMask

theorem putChecked {h d w v bad eff} (hs : s.Canon) (heff : ∀ t, t.Canon → (eff t).Canon) :
    (s.putChecked h d w v bad eff).Canon := hs.vec fun _ _ _ ht => heff _ ht

theorem putAll {h d w64 v} (hs : s.Canon) : (s.putAll h d w64 v).Canon := hs.putChecked fun _ ht => ht

/-! ### Operations of `Machine/Dram` -/

/-- Every write to DRAM. -/
theorem dramWrite {a bs} (hs : s.Canon) : (s.dramWrite a bs).Canon := hs.wrN

/-! ### Operations of `Machine/Slots` -/

theorem readFails {num} (hs : s.Canon) : (s.readFails num).2.Canon := by
  unfold State.readFails
  split <;> exact hs

theorem attempts {num n} (hs : s.Canon) : (s.attempts num n).2.Canon := by
  induction n generalizing s with
  | zero => exact hs
  | succ n ih =>
    unfold State.attempts
    dsimp only
    split
    exacts [ih hs.readFails, hs.readFails]

theorem takeSlots {owner gs} (hs : s.Canon) : ∀ r, s.takeSlots owner gs = some r → r.2.Canon := by
  induction gs generalizing s with
  | nil => intro r hr; cases hr; exact hs
  | cons g gs ih =>
    intro r hr
    simp only [State.takeSlots] at hr
    split at hr
    · cases hr
    · obtain ⟨r', hr', rfl⟩ := Option.map_eq_some_iff.1 hr
      refine ih ?_ r' hr'
      exact hs

theorem useSlots {owner gs} (hs : s.Canon) : (s.useSlots owner gs).Canon := by
  unfold State.useSlots
  cases hr : s.takeSlots owner gs with
  | none => exact hs
  | some r => exact hs.takeSlots r hr

/-! ### Operations of `Machine/Dma` -/

theorem dmaSlot {d p} (hs : s.Canon) : (s.dmaSlot d p).Canon := by
  unfold State.dmaSlot
  dsimp only
  split
  next => exact hs
  next hr => exact hs.takeSlots _ hr
  next => exact hs

theorem hostDma {d} (hs : s.Canon) : (s.hostDma d).Canon :=
  canon_ite (canon_ite hs.dramWrite hs) <| canon_ite hs <| canon_ite hs <| canon_ite hs <|
    canon_foldl (fun _ _ hs => hs.dmaSlot) hs

/-! ### Operations of `Machine/Visit` -/

theorem surveyPos {q pc g stop} (hs : s.Canon) : (s.surveyPos q pc g stop).Canon := by
  unfold State.surveyPos
  dsimp only
  split
  · refine hs.setCore ?_
    rw [Core.foldl_scratch]
    · exact hs.core q
    · intro c k
      repeat' split
      all_goals simp
  · exact hs

theorem runAt {ex h i pc len} (hs : s.Canon) (hex : ∀ i t, t.Canon → CanonOut (ex i t)) :
    CanonOut (State.runAt ex s h i pc len) := by
  unfold State.runAt
  extract_lets -underBinder first s1 cur s2
  have h2 : s2.Canon := canon_ite (a := s.modRG h _) hs hs
  split
  next => exact surveyPos (endHalts h2)
  next =>
    split
    next s4 he =>
      have h4 := canon_of_next he (hex _ _ h2)
      exact surveyPos (canon_ite h4 h4)
    next => exact hex _ _ h2

theorem issueAt {ex h} (hs : s.Canon) (hex : ∀ i t, t.Canon → CanonOut (ex i t)) : CanonOut (State.issueAt ex s h) := by
  unfold State.issueAt
  split
  next => exact hs
  split
  exacts [hs, hs.runAt hex]

theorem position {ex h} (hs : s.Canon) (hex : ∀ i t, t.Canon → CanonOut (ex i t)) :
    CanonOut (State.position ex s h) := by
  unfold State.position
  split
  next => exact hs
  dsimp only
  split
  next => exact hs.runAt hex
  next =>
    split
    exacts [issueAt hs hex, hs]
  next => exact hs.issueAt hex

/-! ### Operations of `Machine/Control` -/

theorem canonOut_execBrxK {a t} (hs : s.Canon) : CanonOut (execBrxK a t s) :=
  canonOut_withHere fun h => canon_ite (by split <;> exact hs) hs

theorem canonOut_execBrxV {a last t} (hs : s.Canon) : CanonOut (execBrxV a last t s) :=
  canonOut_withHere fun h => by
    extract_lets -underBinder off tgt bad
    clear_value bad
    cases bad with
    | some e => exact hs
    | none =>
      extract_lets +onlyGivenNames s1
      have h1 : s1.Canon := by
        unfold s1
        split <;> exact hs
      exact canon_ite h1 (canon_ite h1 h1)

theorem canonOut_execTableStep (hs : s.Canon) : CanonOut (execTableStep s) :=
  canonOut_withHere fun h => by
    split
    next =>
      dsimp only
      split
      · split <;> exact hs
      · exact hs
    next => exact hs

theorem region {h ok hdr core} (hs : s.Canon) : (s.region h ok hdr core).Canon :=
  canon_ite hs (complete (modG (canon_ite hs hs)))

theorem maskOp {d f} (hs : s.Canon) : CanonOut (s.maskOp d f) := canonOut_withHere fun _ => hs

theorem pass {h south d a last} (hs : s.Canon) : (s.pass h south d a last).Canon :=
  canon_ite hs.vec_justVals hs.vec_justVals

/-! ### Operations of `Machine/Integer` -/

theorem lanewise {ops d w64 f} (hs : s.Canon) : CanonOut (s.lanewise ops d w64 f) := hs.compute

theorem int2 {ty d a b f} (hs : s.Canon) : CanonOut (s.int2 ty d a b f) := hs.lanewise

theorem bits2 {wd d a b f} (hs : s.Canon) : CanonOut (s.bits2 wd d a b f) := hs.lanewise

theorem shift {w64 d a b f} (hs : s.Canon) : CanonOut (s.shift w64 d a b f) := hs.lanewise

theorem count {wd d a f} (hs : s.Canon) : CanonOut (s.count wd d a f) := hs.lanewise

theorem uni2 {d a b f} (hs : s.Canon) : CanonOut (s.uni2 d a b f) := canonOut_withHere fun _ => hs

theorem growth {h d status granted reserve} (hs : s.Canon) : (s.growth h d status granted reserve).Canon :=
  canon_ite hs.putAll hs.putAll

/-! ### Operations of `Machine/Float` -/

theorem floatOp {ty d ops f} (hs : s.Canon) : CanonOut (s.floatOp ty d ops f) := hs.lanewise

/-! ### Operations of `Machine/Memory` -/

theorem lostAt {h after addr lane} (hs : s.Canon) : (s.lostAt h after addr lane).Canon := hs

theorem meet {q a n} (hs : s.Canon) : (s.meet q a n).Canon := hs.countCorr.bankLoss

theorem canon_loadEff {h w ty land _stop outs} (hs : s.Canon) : (loadEff h w ty land s _stop outs).1.Canon := by
  unfold loadEff
  split
  exacts [canon_foldl (fun _ _ hs => hs.meet) hs.lostAt, canon_foldl_fst (fun _ _ ha => ha.groupRead) hs]

theorem load {w ty land d base off disp} (hs : s.Canon) : CanonOut (s.load w ty land d base off disp) :=
  canonOut_withHere fun _ => hs.vec fun _ _ _ ht => canon_loadEff ht

theorem storeLane {h bad q a k bs ea after vector} (hs : s.Canon) :
    (s.storeLane h bad q a k bs ea after vector).Canon := canon_ite (canon_ite hs.bankLoss hs.bankLoss) hs.scrWrite

theorem canon_storeEff {h w n after _stop outs} (hs : s.Canon) : (storeEff h w n after s _stop outs).1.Canon :=
  canon_foldl (fun _ _ hs => hs.storeLane) hs

theorem store {h w ty base off disp c eff} (hs : s.Canon) (heff :
    ∀ t stop outs, t.Canon → (eff t stop outs).1.Canon) : (s.store h w ty base off disp c eff).Canon := hs.vec heff

theorem sdDone {h sd alone s1} (hs : s1.Canon) : (s.sdDone h sd alone s1).Canon := canon_ite hs hs

theorem canonOut_execSdrd {wd d sd} (hs : s.Canon) : CanonOut (execSdrd wd d sd s) := by
  refine canonOut_withHere fun h => sdDone (vec hs fun t _ outs ht => ?_)
  dsimp only
  split
  next => exact canon_foldl (fun _ _ hs => hs.meet) ht
  next =>
    refine canon_foldl_fst (fun a o ha => ?_) ht
    split
    exacts [ha.groupRead, ha]

/-! ### Operations of `Machine/Matrix` -/

theorem modMx {q f} (hs : s.Canon) : (s.modMx q f).Canon := hs.modCore fun _ hc => hc

theorem queueItems {h is} (hs : s.Canon) : (s.queueItems h is).Canon := by
  unfold State.queueItems
  extract_lets +onlyGivenNames s1
  have h1 : s1.Canon := hs.modMx
  exact h1

theorem queueItem {h op cost} (hs : s.Canon) : (s.queueItem h op cost).Canon := hs.queueItems

theorem fuse {h join op w} (hs : s.Canon) : (s.fuse h join op w).Canon := canon_ite hs.modMx hs.queueItem

theorem scheduleCore {r l j col} (hs : s.Canon) : (s.scheduleCore r l j col).Canon := by
  unfold State.scheduleCore
  extract_lets q m x news
  refine canon_ite hs ?_
  split
  refine canon_foldl (fun s i hs => ?_) (hs.setCore (hs.core q))
  extract_lets s2 s3
  have h3 : s3.Canon := by
    unfold s3
    split <;> exact hs
  exact canon_ite h3 h3

theorem scheduleMatrix {row slot j} (hs : s.Canon) : (s.scheduleMatrix row slot j).Canon := by
  unfold State.scheduleMatrix
  split
  next => exact hs
  split
  exacts [hs, canon_foldl (fun _ _ hs => hs.scheduleCore) hs]

theorem itemRead {q slot view a n} (hs : s.Canon) : (s.itemRead q slot view a n).2.2.Canon := by
  unfold State.itemRead
  exact canon_ite hs (bankLoss (canon_foldl (fun _ _ hs => hs.countCorr) hs))

theorem flagsAt {row slot col grp due run f see} (hs : s.Canon) : (s.flagsAt row slot col grp due run f see).Canon :=
  canon_ite hs hs

theorem lostItem {row slot col grp due i pc ilen lost lane} (hs : s.Canon) :
    (s.lostItem row slot col grp due i pc ilen lost lane).Canon := by
  unfold State.lostItem
  split <;> exact hs

theorem partRows {row slot col i np pt len f tag lost} (hs : s.Canon) :
    (s.partRows row slot col i np pt len f tag lost).1.Canon :=
  canon_foldl_fst (fun _ _ ha => flagsAt (modMx (itemRead ha))) hs.modMx

theorem fusedParts {row slot col i ps len f tag} (hs : s.Canon) : (s.fusedParts row slot col i ps len f tag).Canon := by
  unfold State.fusedParts
  extract_lets r
  have hr : r.1.Canon := canon_foldl_fst (fun _ _ ha => ha.partRows) hs
  split
  next => exact hr
  split
  exacts [hr.lostItem, hr]

theorem fillItem {row slot col i sp d a md scl} (hs : s.Canon) : (s.fillItem row slot col i sp d a md scl).Canon := by
  unfold State.fillItem
  extract_lets q
  split
  next s1 he1 =>
  have h1 : s1.Canon := canon_of_eq_snd_snd he1 hs.itemRead
  split
  next s2 he2 =>
  have h2 : s2.Canon := canon_of_eq_snd_snd he2 (by split; exacts [h1.itemRead, h1])
  split
  next s3 he3 =>
  have h3 : s3.Canon := canon_of_eq_snd_snd he3 (by split; exacts [h2.itemRead, h2])
  exact lostItem (flagsAt (modMx h3))

theorem drainRow {q slot i t a bs} (hs : s.Canon) : (s.drainRow q slot i t a bs).2.Canon := by
  unfold State.drainRow
  dsimp only
  split
  next => exact hs.bankLoss
  split
  next =>
    refine canon_foldl (fun s w hs => ?_) hs
    split
    exacts [canon_ite (engineWrite (freeBool hs)) (freeBool hs), hs.engineWrite]
  next => exact hs.engineWrite

theorem drainItem {row slot col i out d a pitch tile vec rm} (hs : s.Canon) :
    (s.drainItem row slot col i out d a pitch tile vec rm).Canon := by
  unfold State.drainItem
  extract_lets q sl e vlen
  split
  next v l0 s1 he =>
  have h1 : s1.Canon := canon_of_eq_snd_snd he (by split; exacts [hs, hs.itemRead])
  exact lostItem (flagsAt (canon_foldl_snd_snd (fun _ _ hx => canon_foldl_snd_snd (fun _ _ hy => hy.drainRow) hx) h1))

theorem runItem {row slot col i} (hs : s.Canon) : (s.runItem row slot col i).Canon := by
  unfold State.runItem
  extract_lets -underBinder
  split
  · exact hs.fillItem
  · exact hs.modMx
  · extract_lets -underBinder pl d s1
    have h1 : s1.Canon := hs.fusedParts
    repeat' split
    all_goals exact h1
  · exact hs.fusedParts
  · exact hs.modMx
  · exact hs.drainItem
  · exact hs

theorem runItems {row slot col n} (hs : s.Canon) : (s.runItems row slot col n).Canon := by
  induction n generalizing s with
  | zero => exact hs
  | succ n ih =>
    unfold State.runItems
    dsimp only
    split
    exacts [hs, ih (runItem hs.modMx)]

theorem completeItems {row slot col} (hs : s.Canon) : (s.completeItems row slot col).Canon := hs.runItems

theorem matrixDo {h checks ok} (hs : s.Canon) (hok : ok.Canon) : (s.matrixDo h checks ok).Canon := by
  unfold State.matrixDo
  split
  exacts [hs, hok]

theorem loadPlane {h sp slot a md six} (hs : s.Canon) : (s.loadPlane h sp slot a md six).Canon :=
  matrixDo hs hs.queueItem

theorem sliceChecks {h sd d len ok} (hs : s.Canon) (hok : ok.Canon) : (s.sliceChecks h sd d len ok).Canon :=
  canon_ite hs (by split <;> assumption)

theorem canonOut_execMmq {form sat slot sd tile} (hs : s.Canon) : CanonOut (execMmq form sat slot sd tile s) :=
  canonOut_withHere fun h => by dsimp only; split; exacts [hs, sliceChecks hs hs.fuse]

theorem canonOut_execMtile {form sat slot sd b t} (hs : s.Canon) : CanonOut (execMtile form sat slot sd b t s) :=
  canonOut_withHere fun h => by
    dsimp only
    split
    next => exact hs
    refine canon_ite hs (canon_ite hs ?_)
    split
    exacts [hs, complete (modC (queueItems hs))]

theorem clearTiles {h mask v} (hs : s.Canon) : (s.clearTiles h mask v).Canon := matrixDo hs hs.queueItem

theorem canonOut_execMsum {signed sat sd tile mult} (hs : s.Canon) : CanonOut (execMsum signed sat sd tile mult s) :=
  canonOut_withHere fun h => by dsimp only; split; exacts [hs, sliceChecks hs hs.fuse]

/-! ### Operations of `Machine/Registers` -/

theorem setSchedcfg {v} (hs : s.Canon) : (s.setSchedcfg v).Canon := canon_ite hs hs

theorem regs {r} (hs : s.Canon) : ({ s with regs := r } : State).Canon := hs

theorem setTtepoch {v} (hs : s.Canon) : (s.setTtepoch v).Canon := hs

theorem setCdarm {v} (hs : s.Canon) : (s.setCdarm v).Canon := canon_ite hs (canon_ite hs hs)

theorem setDev {n v} (hs : s.Canon) : (s.setDev n v).Canon := by
  unfold State.setDev
  refine canon_ite hs.regs <| canon_ite hs.setSchedcfg <| canon_ite hs.regs <| canon_ite hs.regs <|
    canon_ite hs.regs <| canon_ite hs.regs <| canon_ite hs.regs <| canon_ite hs.regs <|
    canon_ite hs.setCdarm <| canon_ite hs.regs <| canon_ite hs.setTtepoch <| canon_ite hs.regs <| canon_ite hs.regs <|
    canon_ite hs.regs <| canon_ite hs.regs <| canon_ite hs.regs <| canon_ite hs.regs <| canon_ite hs.regs <|
    canon_ite hs.regs <| canon_ite hs.regs hs

theorem setCoreReg {q n v} (hs : s.Canon) : (s.setCoreReg q n v).Canon := by
  refine hs.modCore fun c hc => ?_
  split <;> simpa using hc

theorem setGroupReg {w n v} (hs : s.Canon) : (s.setGroupReg w n v).Canon :=
  canon_ite hs <| canon_ite hs <| by
    split
    next => exact hs
    split
    exacts [hs, canon_ite hs (canon_ite hs hs)]

theorem clash {q n v} (hs : s.Canon) : (s.clash q n v).Canon := canon_ite (hs.modCore fun _ hc => hc) hs

theorem perform {w} (hs : s.Canon) : (s.perform w).Canon := by
  unfold State.perform
  split
  · exact canon_ite hs.setGroupReg (canon_ite hs (canon_ite (setCoreReg (clash hs)) (setDev (clash hs))))
  · exact hs.modCore fun _ hc => hc
  · exact hs.modCore fun _ hc => hc

theorem performAll {f} (hs : s.Canon) : (s.performAll f).Canon := canon_foldl (fun _ _ hs => hs.perform) hs

theorem performReach {row slot col} (hs : s.Canon) : (s.performReach row slot col).Canon := hs.performAll

/-! ### Operations of `Machine/Rotation` -/

theorem nextIndex {r j len} (hs : s.Canon) : (s.nextIndex r j len).Canon := canon_ite hs hs

theorem stopReach {r j} (hs : s.Canon) : (s.stopReach r j).Canon := by
  unfold State.stopReach
  split
  next => exact hs
  dsimp only
  split <;> exact hs

theorem loseIdle {todo wrote} (hs : s.Canon) : (s.loseIdle todo wrote).Canon := by
  refine canon_foldl (fun s e hs => ?_) hs
  dsimp only
  split
  · refine hs.modCore fun c hc => ?_
    rw [Core.foldl_scratch (fun c _ => c.loseInc_scratch)]
    exact hc
  · exact hs

theorem beginIndex {r j todo} (hs : s.Canon) : (s.beginIndex r j todo).Canon := hs.performAll.loseIdle

theorem endIndex {row slot j} (hs : s.Canon) : (s.endIndex row slot j).Canon := by
  unfold State.endIndex
  extract_lets s1
  have h1 : s1.Canon := scheduleMatrix hs
  split
  next => exact h1
  split
  next => exact canon_ite (canon_ite (nextIndex h1) (nextIndex (canon_ite h1 h1))) (nextIndex h1)
  next =>
    extract_lets -underBinder len skidding r1 s2 steps
    clear_value steps
    have h2 : s2.Canon := h1
    split
    next => split <;> exact nextIndex h2
    refine canon_ite (nextIndex (stopReach h2)) ?_
    split
    next =>
      split
      exacts [beginIndex h2, h2]
    next => exact nextIndex (stopReach h2)

theorem endVisit {row slot} (hs : s.Canon) : (s.endVisit row slot).Canon := by
  unfold State.endVisit
  split
  next => exact hs
  exact canon_foldl (fun _ _ hs => hs) hs

theorem holdFence {r j e} (hs : s.Canon) : (s.holdFence r j e).Canon := by
  unfold State.holdFence
  split
  exacts [hs.beginIndex, nextIndex (modReach hs)]

theorem visit {row slot j} (hs : s.Canon) : (s.visit row slot j).Canon := by
  unfold State.visit
  split
  next => exact hs
  refine canon_ite hs.endVisit ?_
  dsimp only
  split
  exacts [holdFence (canon_ite (canon_foldl (fun _ _ hs => hs.modMx) hs) hs),
    beginIndex (canon_ite (canon_foldl (fun _ _ hs => hs.modMx) hs) hs)]

theorem turn {ex i c g rest} (hs : s.Canon) (hex : ∀ i t, t.Canon → CanonOut (ex i t)) :
    CanonOut (State.turn ex s i c g rest) := by
  unfold State.turn
  dsimp only
  split
  exacts [position hs hex, hs]

theorem plan {ex i c} (hs : s.Canon) : (State.plan ex s i c).Canon := by
  unfold State.plan
  have hc := hs.core (coreIx i.row c)
  dsimp only
  split
  exacts [hs, hs.setCore hc]

theorem micro {ex i} (hs : s.Canon) (hex : ∀ i t, t.Canon → CanonOut (ex i t)) : CanonOut (State.micro ex s i) := by
  unfold State.micro
  split
  exacts [hs.endIndex, turn (canon_ite hs hs.plan) hex]

/-- A step keeps the invariant when the instructions and tasks that it runs do. -/
theorem tick {ex} (hs : s.Canon) (hex : ∀ i t, t.Canon → CanonOut (ex i t)) : CanonOut (State.tick ex s ) := by
  unfold State.tick
  split
  next => exact hs.micro hex
  split
  next => exact hs
  dsimp only
  split
  exacts [hex _ _ hs, visit hs, hostDma hs]

/-! ### Operations of `Machine/Copy` -/

theorem modXfer {id f} (hs : s.Canon) : (s.modXfer id f).Canon := hs

theorem modIssuer {x f} (hs : s.Canon) : (s.modIssuer x f).Canon := hs

theorem xferRead {core a n path view} (hs : s.Canon) : (s.xferRead core a n path view).2.2.Canon :=
  canon_foldl_snd_snd (fun _ _ ha => bankLoss ha.scrPick) hs

theorem xferWrite {x row core a bs} (hs : s.Canon) : (s.xferWrite x row core a bs).2.Canon :=
  canon_foldl_snd (fun a p ha => by
    dsimp only
    split
    exacts [canon_foldl_snd (fun b w hb => by split; exacts [hb, hb.engineWriteRow]) ha, ha.engineWriteRow]) hs

theorem xferLost {x} (hs : s.Canon) : (s.xferLost x).Canon := by
  unfold State.xferLost
  dsimp only
  split <;> exact hs

theorem offer {x floor floorAt ps} (hs : s.Canon) : ∀ r, s.offer x floor floorAt ps = .ok r → r.2.Canon := by
  unfold State.offer
  intro r hr
  dsimp only at hr
  split at hr
  next => cases hr
  split at hr
  next => cases hr
  split at hr
  next =>
    cases hr
    exact canon_foldl (fun _ _ hs => hs.later) (hs.setCore (hs.core x.q))
  next => cases hr

theorem issued {h p v track} (hs : s.Canon) : (s.issued h p v track).Canon := hs

theorem refuseX {h p code} (hs : s.Canon) : (s.refuseX h p code).Canon := hs

theorem offerRows {h kind p r t b ps} (hs : s.Canon) : (s.offerRows h kind p r t b ps).Canon := by
  unfold State.offerRows
  dsimp only
  split
  next hr => exact issued (hs.offer _ hr)
  next => exact hs.refuseX

theorem canonOut_execXcopyIn {p a b t} (hs : s.Canon) : CanonOut (execXcopyIn p a b t s) :=
  canonOut_withHere fun h => by
    dsimp only
    split
    next => exact hs
    split
    exacts [hs, hs.offerRows]

theorem indexed {h kind any p a b t} (hs : s.Canon) : (s.indexed h kind any p a b t).Canon := by
  unfold State.indexed
  split
  next => exact hs
  exact canon_ite hs (canon_ite hs hs)

theorem reduce {h op ty any p a b t} (hs : s.Canon) : (s.reduce h op ty any p a b t).Canon := by
  unfold State.reduce
  dsimp only
  split
  next => exact hs.raise
  split
  next => exact hs.raise
  refine canon_ite hs.refuseX ?_
  split
  next => exact hs.refuseX
  next s1 hr =>
    have h1 : s1.Canon := hs.offer _ hr
    exact issued (modG (canon_ite h1 h1))

theorem issueWait {h kind texp obj arg d bad eff} (hs : s.Canon) (heff : ∀ t, t.Canon → (eff t).Canon) :
    (s.issueWait h kind texp obj arg d bad eff).Canon := canon_ite hs (by split; exacts [hs, complete (heff _ hs)])

/-! ### Operations of `Machine/Collective` -/

theorem modColl {rdx f} (hs : s.Canon) : (s.modColl rdx f).Canon := hs

theorem openRound {rdx r} (hs : s.Canon) : (s.openRound rdx r).Canon := by
  unfold State.openRound
  split
  exacts [hs, canon_ite hs hs]

theorem modRound {rdx r f} (hs : s.Canon) : (s.modRound rdx r f).Canon := hs

theorem countLandings {rdx r} (hs : s.Canon) : (s.countLandings rdx r).Canon := by
  unfold State.countLandings
  split
  next => exact hs
  exact canon_foldl (fun _ _ hs => hs) hs

theorem readAll {tries gs} (hs : s.Canon) : (s.readAll tries gs).2.Canon :=
  canon_foldl_snd (fun _ _ ha => ha.attempts) hs

theorem stageFailed {rdx g n} (hs : s.Canon) : (s.stageFailed rdx g n).2.Canon := by
  unfold State.stageFailed
  dsimp only
  repeat' split
  all_goals exact hs

theorem readStage {rdx chunk c x} (hs : s.Canon) : (s.readStage rdx chunk c x).Canon := by
  unfold State.readStage
  split
  next => exact hs
  refine canon_ite hs ?_
  split
  next he => exact canon_of_eq_snd he hs.readAll
  next he =>
    have h1 := canon_of_eq_snd he hs.readAll
    split
    next he2 =>
    have h2 := canon_of_eq_snd he2 h1.stageFailed
    dsimp only
    split <;> exact h2

theorem formChunk {rdx chunk} (hs : s.Canon) : (s.formChunk rdx chunk).Canon := by
  unfold State.formChunk
  split
  next => exact hs
  exact canon_ite hs hs

theorem canonOut_execCollectiveCombine {rdx chunk} (hs : s.Canon) : CanonOut (execCollectiveCombine rdx chunk s) := by
  unfold execCollectiveCombine
  split
  next => exact hs
  extract_lets more s1 s2
  have h1 : s1.Canon := canon_ite hs (canon_foldl (fun _ _ hs => hs.countLandings) hs)
  have h2 : s2.Canon := by
    unfold s2
    split
    exacts [canon_foldl (fun _ _ hs => hs.readStage) h1, h1]
  exact h2.formChunk

theorem commitWords {pa wid vs} (hs : s.Canon) : (s.commitWords pa wid vs).Canon := hs.dramWrite

theorem canonOut_execResultCommit {rdx chunk} (hs : s.Canon) : CanonOut (execResultCommit rdx chunk s) := by
  unfold execResultCommit
  split
  next => exact hs
  refine canonOut_next.2 (canon_foldl (fun s x hs => ?_) hs)
  split
  next => exact hs
  exact canon_ite hs (modColl (modRound (commitWords hs.useSlots)))

theorem contribute {h rdx p r t gs} (hs : s.Canon) : (s.contribute h rdx p r t gs).Canon := by
  unfold State.contribute
  dsimp only
  split
  next => exact refuseX hs.modC
  next =>
    refine canon_ite (refuseX hs.modC) ?_
    split
    next hr => exact issued (offer (modColl (openRound hs.modC)) _ hr)
    next => exact refuseX hs.modC

theorem canonOut_execXcopyOut {p a b t} (hs : s.Canon) : CanonOut (execXcopyOut p a b t s) :=
  canonOut_withHere fun h => by
    dsimp only
    split
    next => exact hs
    split
    next => exact hs
    split
    next =>
      split
      exacts [hs, hs.contribute]
    next => exact hs.offerRows

theorem contribLand {x rdx e v} (hs : s.Canon) : (s.contribLand x rdx e v).Canon := hs

theorem useLeaf {h rdx} (hs : s.Canon) : (s.useLeaf h rdx).Canon := hs

theorem canonOut_execCnext {a} (hs : s.Canon) : CanonOut (execCnext a s) :=
  canonOut_withHere fun h => by
    split
    next => exact hs
    extract_lets rdx s1
    have h1 : s1.Canon := hs.useLeaf
    split
    next => exact h1
    exact canon_ite h1 (canon_ite h1 (complete (modColl (modRound (modC h1)))))

/-! ### Operations of `Machine/Engine` -/

theorem modGran {x gr f} (hs : s.Canon) : (s.modGran x gr f).Canon := hs

theorem dramRead {a n view} (hs : s.Canon) : (s.dramRead a n view).2.Canon := by
  unfold State.dramRead
  split
  exacts [canon_foldl_snd (fun _ _ ha => ha) hs, hs]

theorem finishXfer {id} (hs : s.Canon) : (s.finishXfer id).Canon := by
  unfold State.finishXfer
  split
  next => exact hs
  refine canon_ite hs ?_
  dsimp only
  split
  next => exact canon_foldl (fun _ _ hs => hs.later) hs
  iterate 4 next => exact hs
  next => exact canon_ite hs hs

theorem doneGran {x gr} (hs : s.Canon) : (s.doneGran x gr).Canon := hs.modGran.finishXfer

theorem tryRead {x gr g fail} (hs : s.Canon) : (s.tryRead x gr g fail).Canon := by
  unfold State.tryRead
  exact canon_ite hs.readFails (dramRead hs.readFails)

theorem gatherBytes {x g} (hs : s.Canon) : (s.gatherBytes x g).2.2.Canon := by
  unfold State.gatherBytes
  split
  exacts [hs, canon_foldl_snd_snd (fun _ _ ha => ha.xferRead) hs]

theorem canonOut_execDramSlotAccess {x gr} (hs : s.Canon) : CanonOut (execDramSlotAccess x gr s) := by
  unfold execDramSlotAccess
  split
  next => exact hs
  split
  next => exact hs
  exact canonOut_ite hs.tryRead (canonOut_next.2 (canon_ite (xferLost hs.gatherBytes) hs.gatherBytes))

theorem canonOut_execGranuleLanding {x gr} (hs : s.Canon) : CanonOut (execGranuleLanding x gr s) := by
  unfold execGranuleLanding
  split
  next => exact hs
  split
  next => exact hs
  exact canonOut_ite hs.doneGran (canonOut_next.2 (doneGran (canon_ite
    (xferLost (canon_foldl_snd (fun _ _ ha => xferWrite ha) hs)) (canon_foldl_snd (fun _ _ ha => xferWrite ha) hs))))

theorem anyBytes {x row a bs} (hs : s.Canon) : (s.anyBytes x row a bs).2.Canon := by
  unfold State.anyBytes
  split
  exacts [canon_foldl_snd (fun r e hr => by dsimp only; split <;> exact hr) hs, hs]

theorem combineWords {x row a bs n} (hs : s.Canon) : (s.combineWords x row a bs n).Canon := by
  induction n generalizing s a bs with
  | zero => unfold State.combineWords; exact hs
  | succ n ih =>
    unfold State.combineWords
    dsimp only
    repeat' split
    exacts [ih hs, ih hs.dramWrite, hs]

theorem writeLast {x row a bs} (hs : s.Canon) : (s.writeLast x row a bs).Canon :=
  canon_ite (canon_foldl (fun _ _ hs => canon_ite hs hs.dramWrite) hs) hs.dramWrite

theorem commitPiece {x p bs} (hs : s.Canon) : (s.commitPiece x p bs).Canon := by
  unfold State.commitPiece
  split
  exacts [contribLand hs.writeLast, canon_ite hs.combineWords (writeLast hs.anyBytes)]

theorem canonOut_execDramWriteCommit {x gr} (hs : s.Canon) : CanonOut (execDramWriteCommit x gr s) := by
  unfold execDramWriteCommit
  split
  next => exact hs
  split
  next => exact hs
  exact doneGran (canon_foldl_snd (fun _ _ ha => ha.commitPiece) hs)

theorem canonOut_execEccFailure {x gr} (hs : s.Canon) : CanonOut (execEccFailure x gr s) := by
  unfold execEccFailure
  split
  next => exact hs
  split
  next => exact hs
  exact canonOut_ite hs hs

theorem canonOut_execDramRetry {x gr} (hs : s.Canon) : CanonOut (execDramRetry x gr s) := by
  unfold execDramRetry
  split
  next => exact hs
  split
  next => exact hs
  exact hs.tryRead

theorem revise {x gr num} (hs : s.Canon) : (s.revise x gr num).Canon := by
  unfold State.revise
  dsimp only
  split <;> exact hs

theorem giveUp {x gr g} (hs : s.Canon) : (s.giveUp x gr g).Canon := by
  unfold State.giveUp
  extract_lets s1 s2 s3 s4
  have h1 : s1.Canon := canon_ite hs.modGran (canon_foldl_snd (fun _ _ ha => ha.xferWrite) hs)
  have h3 : s3.Canon := by
    unfold s3
    split <;> exact h1.xferLost
  exact finishXfer (modXfer (modGran (modIssuer h3)))

theorem canonOut_execGranuleRetryFrame {x gr} (hs : s.Canon) : CanonOut (execGranuleRetryFrame x gr s) := by
  unfold execGranuleRetryFrame
  split
  next => exact hs
  split
  next => exact hs
  refine canonOut_ite (later (revise hs)) ?_
  extract_lets key next
  refine canonOut_ite hs ?_
  split
  next s1 he =>
  have h1 : s1.Canon := canon_of_eq_snd he (readFails (by exact hs))
  exact canonOut_ite (canonOut_ite h1.giveUp h1) (later (modXfer (modGran (dramRead h1))))

theorem offerOwn {x ps} (hs : s.Canon) : ∀ r, s.offerOwn x ps = .ok r → r.2.Canon := hs.offer

theorem keepRequest {x ps} (hs : s.Canon) : (s.keepRequest x ps).Canon := canon_ite hs hs

theorem request {x ps} (hs : s.Canon) : (s.request x ps).Canon := by
  unfold State.request
  refine canon_ite hs ?_
  split
  next hr => exact hs.offerOwn _ hr
  next => exact keepRequest hs

theorem canonOut_execEngineRequestRetry {q} (hs : s.Canon) : CanonOut (execEngineRequestRetry q s) := by
  refine canon_foldl (fun s r hs => ?_) hs
  dsimp only
  split
  next s1 hr =>
    have h1 : s1.Canon := hs.offerOwn _ hr
    split <;> exact h1
  next => exact hs.keepRequest

theorem gatherRow {x i areaCore area ixBase} (hs : s.Canon) : (s.gatherRow x i areaCore area ixBase).Canon := by
  unfold State.gatherRow
  extract_lets -underBinder write len scr
  split
  next ib ilost s1 he =>
  have h1 : s1.Canon := canon_of_eq_snd_snd he hs.xferRead
  extract_lets -underBinder va skip
  have hskip : ∀ t, t.Canon → (skip t).Canon := fun t ht =>
    canon_ite ht (canon_ite (xferLost (modXfer (xferWrite ht))) (modXfer (xferWrite ht)))
  refine canon_ite (hskip _ h1.xferLost) ?_
  split
  next => exact hskip _ h1
  next => exact canon_foldl (fun _ _ hs => later (modXfer (hs.setCore (hs.core _)))) h1

theorem canonOut_execGatherBatch {x} (hs : s.Canon) : CanonOut (execGatherBatch x s) := by
  unfold execGatherBatch
  split
  next => exact hs
  dsimp only
  split
  next => exact hs
  exact canonOut_ite (later (modXfer (canon_foldl (fun _ _ hs => hs.gatherRow) hs)))
    (finishXfer (modXfer (canon_foldl (fun _ _ hs => hs.gatherRow) hs)))

/-! ### Operations of `Machine/Sync` -/

theorem canon_atomEff {h op ty _stop outs} (hs : s.Canon) : (atomEff h op ty s _stop outs).1.Canon := by
  unfold atomEff
  extract_lets n at_ bad sets r
  have hr : r.1.Canon := canon_foldl_fst (fun _ _ ha => storeLane ha.groupRead) hs
  split
  exacts [lostAt (modG hr), hr]

theorem atomic {op ty d base off disp c} (hs : s.Canon) : CanonOut (s.atomic op ty d base off disp c) :=
  canonOut_withHere fun _ => hs.vec fun _ _ _ ht => canon_atomEff ht

theorem canonOut_execBind {a b t} (hs : s.Canon) : CanonOut (execBind a b t s) :=
  canonOut_withHere fun h => by split <;> exact hs

theorem fireObj {n planned rel} (hs : s.Canon) : (s.fireObj n planned rel).Canon := hs

theorem combinesBy {rel} (hs : s.Canon) : (s.combinesBy rel).2.Canon :=
  canon_foldl_snd (fun _ _ ha => canon_foldl_snd (fun a x ha => by
    dsimp only
    split
    · split <;> exact ha
    · exact ha) ha) hs

theorem releaseFire {obj planned rel} (hs : s.Canon) : (s.releaseFire obj planned rel).Canon := by
  unfold State.releaseFire
  dsimp only
  split
  exacts [fireObj hs.combinesBy, hs.combinesBy]

theorem combineStaged {fire} (hs : s.Canon) : (s.combineStaged fire).Canon :=
  canon_foldl (s := s) (fun s w hs => by dsimp only; split; exacts [hs.dramWrite, hs]) hs

theorem combineEnd {rel launch} (hs : s.Canon) : ∀ r, s.combineEnd rel launch = some r → r.2.Canon := by
  intro r hr
  obtain ⟨r', hr', rfl⟩ := Option.map_eq_some_iff.1 hr
  exact hs.takeSlots r' hr'

theorem canonOut_execStagedCombine {fire} (hs : s.Canon) : CanonOut (execStagedCombine fire s) := by
  unfold execStagedCombine
  split
  next => exact hs
  refine canonOut_ite (canonOut_ite hs ?_) ?_
  · split
    next => exact hs
    next hr => exact hs.combineEnd _ hr
  · dsimp only
    split
    exacts [hs.combineStaged, fireObj (by exact hs.combineStaged)]

theorem objWait {h kind texp d n t} (hs : s.Canon) : (s.objWait h kind texp d n t).Canon :=
  hs.issueWait fun _ ht => ht

theorem arriveAt {h relaxed d} (hs : s.Canon) : (s.arriveAt h relaxed d).Canon := canon_ite hs hs

theorem arrival {h relaxed r} (hs : s.Canon) : (s.arrival h relaxed r).Canon :=
  complete (by split; exacts [hs, hs.arriveAt])

theorem tryPush {row slot col g n handle rel t} (hs : s.Canon) : (s.tryPush row slot col g n handle rel t).Canon := by
  unfold State.tryPush
  split
  next => exact hs
  split
  next => exact hs
  exact canon_ite hs (modCtb (canon_ite hs.bankLoss hs.scrWrite))

theorem tryPop {row slot col g n} (hs : s.Canon) : (s.tryPop row slot col g n).Canon := by
  unfold State.tryPop
  split
  next => exact hs
  split
  next => exact hs
  exact canon_ite hs (modCtb (bankLoss hs.countCorr))

theorem canonOut_execSndCfg {a b} (hs : s.Canon) : CanonOut (execSndCfg a b s) :=
  canonOut_withHere fun h => by dsimp only; split <;> exact hs

theorem canonOut_execFence {sc} (hs : s.Canon) : CanonOut (execFence sc s) :=
  canonOut_withHere fun _ => by split <;> exact hs

theorem canonOut_execXfence {q1 q2} (hs : s.Canon) : CanonOut (execXfence q1 q2 s) :=
  canonOut_withHere fun h => by split <;> exact hs

/-! ### Operations of `Machine/Waits` -/

theorem servePass {row slot col gs} (hs : s.Canon) : (s.servePass row slot col gs).Canon :=
  canon_foldl (fun s g hs => by
    split
    · split
      · split
        exacts [hs.tryPush, hs.tryPop, hs]
      · exact hs
    · exact hs) hs

theorem serve {row slot col gs n} (hs : s.Canon) : (s.serve row slot col gs n).Canon := by
  induction n generalizing s with
  | zero => exact hs
  | succ n ih => exact ih hs.servePass

theorem sampleCtb {row slot col} (hs : s.Canon) : (s.sampleCtb row slot col).Canon := by
  unfold State.sampleCtb
  split
  next => exact hs
  extract_lets -underBinder +onlyGivenNames handling internal due s1 gs s2 s3
  have h1 : s1.Canon := canon_ite hs hs
  have h2 : s2.Canon := canon_ite h1.serve h1
  have h3 : s3.Canon := canon_ite h2 h2
  refine canon_foldl (fun s g hs => ?_) h3
  repeat' split
  all_goals exact hs

theorem canonOut_execReadinessSample {row slot} (hs : s.Canon) : CanonOut (execReadinessSample row slot s) := by
  unfold execReadinessSample
  split
  next => exact hs
  exact canonOut_ite hs (canon_foldl (fun _ _ hs => hs.sampleCtb) hs)

theorem collSeen {row slot col g rdx} (hs : s.Canon) : (s.collSeen row slot col g rdx).Canon := by
  unfold State.collSeen
  split
  next => exact hs
  split <;> exact hs

theorem finishCore {row slot x u col code} (hs : s.Canon) : (s.finishCore row slot x u col code).Canon := by
  unfold State.finishCore
  split
  next => exact hs
  split
  next =>
    split
    exacts [hs, canon_ite (collSeen hs) hs]
  next => exact hs

theorem finishWait {row slot x u codes seen} (hs : s.Canon) : (s.finishWait row slot x u codes seen).Canon := by
  unfold State.finishWait
  split
  next => exact hs
  extract_lets -underBinder s1 obs len s2
  have h2 : s2.Canon := canon_foldl (fun _ _ hs => hs.finishCore) hs
  split
  exacts [canon_ite h2 h2, h2]

theorem missedAt {row slot x ts} (hs : s.Canon) : (s.missedAt row slot x ts).Canon := by
  unfold State.missedAt
  split
  next => exact hs
  split
  next => exact hs
  extract_lets fs s1
  have h1 : s1.Canon := canon_foldl (fun _ _ hs => hs) hs
  exact canon_ite h1 (stopReach h1)

theorem decideSleep {r l x} (hs : s.Canon) : (s.decideSleep r l x).Canon := by
  unfold State.decideSleep
  extract_lets ss code late
  have hl : (late s).Canon := canon_ite hs hs
  split
  exacts [hl.missedAt, canon_ite hs.finishWait (canon_ite (canon_ite hs hs) hl)]

theorem judge {r l x} (hs : s.Canon) : (s.judge r l x).Canon :=
  canon_ite (canon_ite hs.finishWait hs) (canon_ite hs.finishWait (canon_ite hs (canon_ite hs hs)))

theorem canonOut_execWaitDecision {row slot group} (hs : s.Canon) : CanonOut (execWaitDecision row slot group s) := by
  unfold execWaitDecision
  split
  next => exact hs
  split
  exacts [canonOut_next.2 (canon_ite hs.decideSleep hs.judge), hs]

theorem canonOut_execWaitTimeout {row slot group} (hs : s.Canon) : CanonOut (execWaitTimeout row slot group s) := by
  unfold execWaitTimeout
  split
  next => exact hs
  split
  exacts [hs.finishWait, hs]

/-! ### Operations of `Machine/Launch` -/

theorem beginLaunch {iss issuer ident rec declared late super tide rel} (hs : s.Canon) :
    (s.beginLaunch iss issuer ident rec declared late super tide rel).Canon := hs

theorem doneLaunch {l status tide} (hs : s.Canon) : (s.doneLaunch l status tide).Canon := by
  unfold State.doneLaunch
  extract_lets bs s1
  have h1 : s1.Canon := by
    unfold s1
    split
    exacts [hs.dramWrite, hs]
  exact h1

theorem completionFire {l tide view} (hs : s.Canon) : (s.completionFire l tide view).Canon := canon_ite hs hs

theorem endUnrun {l status tide fire} (hs : s.Canon) : (s.endUnrun l status tide fire).Canon :=
  canon_ite hs.doneLaunch.completionFire hs.doneLaunch

theorem purge {row slot} (hs : s.Canon) : (s.purge row slot).Canon := hs

theorem settle {l} (hs : s.Canon) : (s.settle l).Canon := by
  unfold State.settle
  extract_lets -underBinder gone js s1 s2 of
  have h2 : s2.Canon := canon_foldl (s := s1) (fun _ _ hs => canon_ite hs hs) hs
  exact h2

theorem canonOut_execLaunchComplete {launch} (hs : s.Canon) : CanonOut (execLaunchComplete launch s) := by
  unfold execLaunchComplete
  extract_lets s1
  have h1 : s1.Canon := by
    unfold s1
    split
    exacts [hs.settle, hs]
  split
  next => exact h1
  refine canonOut_ite h1 ?_
  dsimp only
  split
  exacts [completionFire (modLaunch (doneLaunch h1)), canonOut_ite h1 h1]

theorem canonOut_execValidationSpanEnd {launch} (hs : s.Canon) : CanonOut (execValidationSpanEnd launch s) := by
  unfold execValidationSpanEnd
  split
  next => exact hs
  exact canonOut_ite hs (canonOut_ite hs.endUnrun (canonOut_ite
    (canonOut_next.2 (canon_ite hs.endUnrun hs.endUnrun)) (canonOut_next.2 (canon_ite hs hs))))

theorem requestPreloads {l j tide} (hs : s.Canon) : (s.requestPreloads l j tide).Canon :=
  canon_foldl (fun _ _ hs => canon_foldl (fun _ _ hs => hs.request) hs) hs

theorem canonOut_execTranslationFillDone {launch} (hs : s.Canon) : CanonOut (execTranslationFillDone launch s) := by
  unfold execTranslationFillDone
  split
  next => exact hs
  exact canonOut_ite hs (later (canon_foldl (fun _ _ hs => hs.requestPreloads) hs))

theorem canonOut_execPreparationPromiseMet {launch} (hs : s.Canon) : CanonOut (execPreparationPromiseMet launch s) := by
  unfold execPreparationPromiseMet
  split
  next => exact hs
  exact canonOut_ite hs (canonOut_ite (canonOut_next.2 (canon_ite hs hs)) (canonOut_ite hs
    (canonOut_next.2 (canon_ite hs (canon_ite hs hs)))))

theorem canonOut_execLaunchLate {launch} (hs : s.Canon) : CanonOut (execLaunchLate launch s) := by
  unfold execLaunchLate
  split
  next => exact hs
  exact canonOut_ite hs hs.endUnrun

theorem vacate {l} (hs : s.Canon) : (s.vacate l).Canon := canon_foldl (fun _ _ hs => hs.purge) hs

theorem canonOut_execCancelFire {launch} (hs : s.Canon) : CanonOut (execCancelFire launch s) := by
  unfold execCancelFire
  split
  next => exact hs
  exact canonOut_ite hs (endUnrun hs.vacate)

theorem canonOut_execLaunchStart {launch} (hs : s.Canon) : CanonOut (execLaunchStart launch s) := by
  unfold execLaunchStart
  split
  next => exact hs
  exact canonOut_ite hs (canonOut_ite (canonOut_ite (completionFire (doneLaunch hs)) hs)
    (canonOut_ite (canonOut_next.2 (canon_ite hs hs)) (canonOut_ite hs hs)))

theorem cancel {l planned} (hs : s.Canon) : (s.cancel l planned).Canon := canon_ite hs hs

theorem canonOut_execLcancel {d a} (hs : s.Canon) : CanonOut (execLcancel d a s) :=
  canonOut_withHere fun h => by
    split
    · exact hs.putAll
    · exact hs.putAll
    · split
      exacts [hs.putAll, putAll hs.cancel]

/-! ### Operations of `Machine/Ending` -/

theorem delay {region beats} (hs : s.Canon) : (s.delay region beats).Canon := hs

theorem passHold {row slot} (hs : s.Canon) : (s.passHold row slot).Canon := by
  unfold State.passHold
  split
  next => exact hs
  split
  next => dsimp only; split <;> exact hs
  next => exact hs

theorem closeCtb {row slot col tide} (hs : s.Canon) : (s.closeCtb row slot col tide).Canon := by
  unfold State.closeCtb
  split
  exacts [canon_ite hs hs, hs]

theorem endHere {h kill} (hs : s.Canon) : (s.endHere h kill).Canon :=
  canon_ite (passHold (closeCtb hs.modC)) (closeCtb hs.modC)

theorem endAbnormal {row slot col st grp tide save dump} (hs : s.Canon) :
    (s.endAbnormal row slot col st grp tide save dump).Canon := by
  unfold State.endAbnormal
  split
  next =>
    refine canon_ite hs ?_
    extract_lets left run at_ s0 s1 s2 s3
    have h1 : s1.Canon := canon_ite hs.performReach hs.performReach
    exact later (canon_ite (later (modLaunch h1)) (modLaunch h1))
  next => exact hs

theorem canonOut_execCtbAbnormalEnd {row slot col st} (hs : s.Canon) :
    CanonOut (execCtbAbnormalEnd row slot col st s) := by
  unfold execCtbAbnormalEnd
  split
  next => exact hs
  split
  exacts [hs, hs.endAbnormal]

theorem requestBacks {l row slot col c} (hs : s.Canon) : (s.requestBacks l row slot col c).Canon :=
  canon_foldl (fun _ _ hs => hs.request) hs

theorem canonOut_execWritebackStart {launch lin} (hs : s.Canon) : CanonOut (execWritebackStart launch lin s) := by
  unfold execWritebackStart
  split
  next =>
    split
    exacts [hs, canonOut_ite hs (later (modLaunch (requestBacks hs)))]
  next => exact hs

/-! ### Operations of `Machine/Trap` -/

theorem quiesce {row slot} (hs : s.Canon) : (s.quiesce row slot).Canon := by
  unfold State.quiesce
  split <;> exact hs

theorem drainReach {r} (hs : s.Canon) : (s.drainReach r).Canon :=
  quiesce (performReach (canon_foldl (fun _ _ hs => modMx (completeItems hs)) hs))

theorem recordTraps {r fs queue} (hs : s.Canon) : (s.recordTraps r fs queue).Canon :=
  canon_foldl (fun s e hs => by split <;> exact hs) hs.drainReach

theorem unhandled {row slot r l x} (hs : s.Canon) : (s.unhandled row slot r l x).Canon :=
  canon_ite hs (modReach (delay (canon_foldl (fun _ _ hs => hs.endAbnormal) hs)))

theorem enterTrap {r l x fs} (hs : s.Canon) : (s.enterTrap r l x fs).Canon := by
  unfold State.enterTrap
  refine canon_ite (unhandled (delay (recordTraps hs))) ?_
  split <;> exact hs.recordTraps

theorem doubleTrap {r l x fs} (hs : s.Canon) : (s.doubleTrap r l x fs).Canon := by
  unfold State.doubleTrap
  extract_lets s1 left
  have h1 : s1.Canon :=
    canon_foldl (fun s e hs => by split; exacts [endAbnormal hs.modGroup, hs]) hs.performReach
  exact canon_ite h1 h1.passHold

theorem canonOut_execTrapEntry {row slot} (hs : s.Canon) : CanonOut (execTrapEntry row slot s) := by
  unfold execTrapEntry
  split
  next => exact hs
  split
  exacts [canonOut_next.2 (canon_ite (doubleTrap hs) (enterTrap hs)), hs]

theorem leaveTrap {h n} (hs : s.Canon) : (s.leaveTrap h n).Canon :=
  canon_ite (passHold (modReach (modReach (modC (modG hs))))) (modReach (modC (modG hs)))

theorem canonOut_execStepCountReached {row slot group} (hs : s.Canon) :
    CanonOut (execStepCountReached row slot group s) := by
  unfold execStepCountReached
  split
  next => exact hs
  split
  next =>
    refine canonOut_ite hs ?_
    dsimp only
    split
    exacts [canonOut_next.2 (canon_ite hs (stopReach hs)), hs]
  next => exact hs

/-! ### Operations of `Machine/System` -/

theorem canonOut_execSyswr {a srn} (hs : s.Canon) : CanonOut (execSyswr a srn s) :=
  canonOut_withHere fun _ => hs.vec fun _ _ _ ht => by dsimp only; split <;> exact ht

theorem canonOut_execTraceDrain {q} (hs : s.Canon) : CanonOut (execTraceDrain q s) := by
  unfold execTraceDrain
  extract_lets -underBinder +onlyGivenNames c
  split
  next => exact hs
  extract_lets -underBinder +onlyGivenNames again
  have ha : ∀ t n, t.Canon → (again t n).Canon := fun _ _ ht => canon_ite ht ht
  have hf : ∀ c, c.scratch = (s.core q).scratch → (s.setCore q c).Canon := fun c hc => hs.setCore (hc ▸ hs.core q)
  refine canonOut_ite (ha _ _ (lossOne (hf _ rfl))) ?_
  extract_lets -underBinder +onlyGivenNames pa used
  split
  next => exact hs
  refine canonOut_ite hs (canonOut_ite hs ?_)
  extract_lets s0 s1
  have h1 : s1.Canon := dramWrite (hf _ rfl)
  exact canonOut_next.2 (ha _ _ h1)

theorem canonOut_execBankmapWrite {q word value} (hs : s.Canon) : CanonOut (execBankmapWrite q word value s) :=
  hs.modCore fun c hc => by simpa using hc

/-! ### Operations of `Machine/Debug` -/

theorem modTgt {t f} (hs : s.Canon) : (s.modTgt t f).Canon := hs

theorem haltedWrite {l t item ix w} (hs : s.Canon) : (s.haltedWrite l t item ix w).Canon :=
  canon_ite (canon_ite hs hs) <| canon_ite hs <| canon_ite hs <| canon_ite (canon_ite hs (canon_ite hs hs)) <|
    canon_ite hs (canon_ite hs hs)

theorem lanesWrite {t item ix vs} (hs : s.Canon) : (s.lanesWrite t item ix vs).Canon := canon_ite hs (canon_ite hs hs)

theorem markEdited {t} (hs : s.Canon) : (s.markEdited t).Canon := hs

theorem canonOut_execHwrite {a w} (hs : s.Canon) : CanonOut (execHwrite a w s) :=
  canonOut_withHere fun _ => canon_ite
    (vec hs fun _ _ _ ht => canon_ite (lanesWrite ht) (lanesWrite ht))
    (vec hs fun _ _ _ ht => by
      dsimp only
      split
      exacts [haltedWrite ht, canon_ite ht ht])

/-- The instructions that the debugger steps lane by lane. -/
theorem canon_stepExec {i} (hs : s.Canon) : CanonOut (stepExec i s) := by
  unfold stepExec
  cases i with
  | add | sub | mul | mulh | div | rem | min | max => exact hs.int2
  | mad | abs | neg | brev | bfx | bfi | mov | lea | fscale | fcvt | fpack | funpack | fdot2 => exact hs.lanewise
  | and | or | xor | andn => exact hs.bits2
  | shl | shr | rot => exact hs.shift
  | popc | clz | ctz => exact hs.count
  | cmp | fcmp => exact hs.computeMask
  | sel | acvTo | acvFrom | sreg | vget | qcvtTo | qcvtFrom | fdot4 | lld =>
    exact canonOut_withHere fun _ => hs.vec_justVals
  | ats => exact canonOut_withHere fun _ => hs.vec_toMask
  | vput => exact canonOut_withHere fun _ => hs.vec fun _ _ _ ht => ht
  | fadd | fsub | fmul | fma | fmin | fmax | fabs | fneg | fcopysign | frcp | frsq | fsqrt | fexp2 | flog2 |
  fclass | frnd =>
    exact hs.floatOp
  | icvt => exact canonOut_ite hs.lanewise hs.lanewise
  | ld | cld => exact hs.load
  | st | cst => exact canonOut_withHere fun _ => hs.store fun _ _ _ ht => canon_storeEff ht
  | lst => exact canonOut_withHere fun _ => hs.store fun _ _ _ ht => ht
  | _ => exact hs

theorem stepLane {t pc i len lane} (hs : s.Canon) : (s.stepLane t pc i len lane).2.Canon := by
  unfold State.stepLane
  split
  next =>
    extract_lets +onlyGivenNames s1 c
    have h1 : s1.Canon := hs
    split
    next he =>
      have h2 := canon_of_next he (canon_stepExec h1)
      exact h2
    next => exact hs
  next => exact hs

theorem stepHalted {l t lane} (hs : s.Canon) : (s.stepHalted l t lane).2.Canon := by
  unfold State.stepHalted
  split
  next => exact hs
  dsimp only
  split
  next => exact hs
  split
  next => exact hs
  split
  next => exact hs
  split
  all_goals exact canon_of_eq_snd (by assumption) (stepLane hs.modTgt)

theorem stepCursor {l t} (hs : s.Canon) : (s.stepCursor l t).2.Canon := by
  unfold State.stepCursor
  dsimp only
  split
  next =>
    split
    next => exact hs
    next =>
      split
      next => exact hs
      split
      next => exact hs.modTgt
      next =>
        split
        next hr => exact modTgt (canon_of_eq_snd hr hs.stepLane)
        next hr => exact modTgt (canon_of_eq_snd hr hs.stepLane)
  next => exact hs

theorem stepInto {h d bad f} (hs : s.Canon) (hf : ∀ t, t.Canon → (f t).2.Canon) : (s.stepInto h d bad f).Canon :=
  hs.vec fun _ _ _ ht => hf _ ht

/-! ### Operations of `Machine/Scheduler` -/

theorem enterNext {l row slot} (hs : s.Canon) : (s.enterNext l row slot).Canon := by
  unfold State.enterNext
  split <;> exact hs

theorem grantRow {l row} (hs : s.Canon) : (s.grantRow l row).Canon := canon_foldl (fun _ _ hs => hs.enterNext) hs

theorem grantTo {l row start} (hs : s.Canon) : (s.grantTo l row start).Canon :=
  canon_ite (canon_ite (canon_foldl (fun _ _ hs => hs.grantRow) hs) hs) hs.grantRow

theorem beginSwitch {r} (hs : s.Canon) : (s.beginSwitch r).Canon := hs

theorem rotate {l row slot} (hs : s.Canon) : (s.rotate l row slot).Canon :=
  canon_ite hs (by split; exacts [hs.enterNext, canon_ite hs hs])

theorem boundaryRow {real row} (hs : s.Canon) : (s.boundaryRow real row).Canon := by
  unfold State.boundaryRow
  split
  next =>
    split
    exacts [hs.grantTo, hs]
  next =>
    have hrot {h} : ((List.range 16).foldl (fun (s : State) slot => s.rotate h row slot) s).Canon :=
      canon_foldl (fun _ _ hs => hs.rotate) hs
    refine canon_ite hs ?_
    dsimp only
    split
    exacts [canon_ite (canon_ite (grantTo hs) (canon_foldl (fun _ _ hs => hs.beginSwitch) hs)) hrot, hrot]

theorem keepBoundaries (hs : s.Canon) : (s.keepBoundaries).Canon := canon_ite hs hs

theorem launches {ls} (hs : s.Canon) : ({ s with launches := ls } : State).Canon := hs

theorem discardPreloads (hs : s.Canon) : (s.discardPreloads).Canon := hs

theorem afterLeave {l row slot} (hs : s.Canon) : (s.afterLeave l row slot).Canon := by
  unfold State.afterLeave
  dsimp only
  split
  next =>
    refine canon_ite hs ?_
    split
    exacts [grantTo hs, hs.enterNext]
  next => exact hs.enterNext

/-! ### Operations of `Machine/Save` -/

theorem requestTurns {kind batch q slot launch lin n ps} (hs : s.Canon) :
    (s.requestTurns kind batch q slot launch lin n ps).Canon := canon_foldl (fun _ _ hs => canon_ite hs hs.request) hs

theorem captureCtb {r l col c dump} (hs : s.Canon) : (s.captureCtb r l col c dump).Canon :=
  canon_foldl (fun _ _ hs => hs.requestTurns) hs.modCtb

theorem headCtb {r l col c} (hs : s.Canon) : (s.headCtb r l col c).Canon :=
  canon_foldl (fun _ _ hs => hs.requestTurns) hs.modCtb

theorem quiesceItems {row slot col launch lin asked} (hs : s.Canon) :
    (s.quiesceItems row slot col launch lin asked).Canon := hs.runItems.modMx

theorem scanAlloc {q a n} (hs : s.Canon) : (s.scanAlloc q a n).Canon := hs.countCorr.bankLoss

theorem captureReach {r l} (hs : s.Canon) : (s.captureReach r l).Canon := by
  unfold State.captureReach
  extract_lets s1
  have h1 : s1.Canon := canon_foldl (fun _ _ hs => modCtb hs.quiesceItems) hs.performReach
  split
  exacts [h1, later (canon_foldl (fun _ _ hs => scanAlloc hs.captureCtb) h1)]

theorem abandonSwitch {row slot} (hs : s.Canon) : (s.abandonSwitch row slot).Canon :=
  canon_foldl (fun _ _ hs => canon_ite hs (later hs)) (modReach hs)

theorem restartSwitch {r} (hs : s.Canon) : (s.restartSwitch r).Canon := canon_foldl (fun _ _ hs => hs.modMx) hs

theorem askAgain (hs : s.Canon) : (s.askAgain).Canon := canon_foldl (fun _ _ hs => hs) hs

theorem park {r l} (hs : s.Canon) : (s.park r l).Canon :=
  afterLeave (canon_foldl (s := { s with xfers := _, reaches := _ }) (fun _ _ hs => modCore hs fun _ hc => hc) hs)

theorem canonOut_execCtbSave {row slot} (hs : s.Canon) : CanonOut (execCtbSave row slot s) := by
  unfold execCtbSave
  split
  next => exact hs
  split
  next => exact hs
  refine canonOut_ite hs (canonOut_ite (canonOut_ite hs (canon_foldl (fun _ _ hs => hs.headCtb) hs))
    (canonOut_ite (canonOut_ite hs hs.park) ?_))
  split
  next => exact hs
  next => exact canonOut_ite hs.abandonSwitch (canonOut_ite hs (canonOut_ite hs (captureReach hs)))

theorem askCopy {r l col c k} (hs : s.Canon) : (s.askCopy r l col c k).Canon := canon_ite hs hs.requestTurns

/-- The fill of an allocation at a start: its range is zeroed, then the preloaded or restored bytes are written. -/
theorem fillAlloc {q a n bs partly t} (hs : s.Canon) : (s.fillAlloc q a n bs partly t).2.Canon :=
  sound (setCore hs (memWf_foldl (fun _ _ hm => memWf_wrN _ _ hm) (memWf_wrN _ _ (memWf_zeroRange a n (hs.core
    q)))))

theorem startOn {r l col c} (hs : s.Canon) : (s.startOn r l col c).Canon :=
  modMx (canon_foldl (fun s w hs => by split; exacts [hs.xferLost, hs]) hs.fillAlloc)

theorem beginVisits {r l} (hs : s.Canon) : (s.beginVisits r l).Canon := canon_foldl (fun _ _ hs => hs.schedule) hs

theorem makeResident {r} (hs : s.Canon) : (s.makeResident r).Canon := hs

theorem enterNew {r l} (hs : s.Canon) : (s.enterNew r l).Canon := by
  unfold State.enterNew
  refine canon_ite hs.requestPreloads (canon_ite hs ?_)
  extract_lets s1
  have h1 : s1.Canon := makeResident (canon_foldl (fun _ _ hs => hs.startOn) hs)
  split
  exacts [h1.beginVisits, h1]

theorem restoreCtb {r l col c bs} (hs : s.Canon) : (s.restoreCtb r l col c bs).Canon :=
  completeItems (modCtb (modReach (modMx (modCore hs.fillAlloc fun _ hc => hc))))

theorem resumeGathers {r l} (hs : s.Canon) : (s.resumeGathers r l).Canon := canon_foldl (fun _ _ hs => hs.later) hs

theorem enterSaved {r l} (hs : s.Canon) : (s.enterSaved r l).Canon := by
  unfold State.enterSaved
  refine canon_ite (canon_foldl (fun _ _ hs => hs.askCopy) hs) (canon_ite hs (later (resumeGathers ?_)))
  refine canon_foldl (fun s e hs => ?_) hs.makeResident
  split
  exacts [hs.restoreCtb, report hs.endAbnormal, hs]

theorem canonOut_execCtbRestore {row slot} (hs : s.Canon) : CanonOut (execCtbRestore row slot s) := by
  unfold execCtbRestore
  split
  next => exact hs
  split
  next => exact hs
  exact canonOut_ite (canonOut_ite hs hs.beginVisits) (canonOut_ite hs (canonOut_ite hs.enterSaved hs.enterNew))

theorem dumpLost {row slot col l c typ} (hs : s.Canon) : (s.dumpLost row slot col l c typ).Canon :=
  scanAlloc (report (report (modLaunch (modCtb (modGroup hs)))))

theorem canonOut_execDump {row slot col} (hs : s.Canon) : CanonOut (execDump row slot col s) := by
  unfold execDump
  split
  next =>
    split
    next => exact hs
    refine canonOut_ite hs (canonOut_ite (canonOut_next.2 (later (canon_ite hs hs.headCtb))) ?_)
    refine canonOut_ite (canonOut_ite hs hs) (canonOut_ite hs (canonOut_ite hs (canonOut_next.2 (later ?_))))
    split
    exacts [dumpLost hs.captureCtb, scanAlloc hs.captureCtb]
  next => exact hs

/-! ### Operations of `Machine/Pod` -/

theorem modLnk {l f} (hs : s.Canon) : (s.modLnk l f).Canon := hs

theorem bumpLnk {l lo wrapBit} (hs : s.Canon) : (s.bumpLnk l lo wrapBit).Canon := canon_ite hs.noteInc hs.noteInc

theorem unsend {fs} (hs : s.Canon) : (s.unsend fs).Canon := canon_foldl (fun s f hs => by split <;> exact hs) hs

theorem resendOn {dest frame from_ f} (hs : s.Canon) : (s.resendOn dest frame from_ f).Canon := by
  unfold State.resendOn
  dsimp only
  split
  exacts [hs, hs.unsend]

theorem dropRounds (hs : s.Canon) : (s.dropRounds).Canon := hs

theorem planFlits (hs : s.Canon) : (s.planFlits).Canon :=
  canon_ite hs (canon_foldl (fun _ _ hs => canon_ite hs (canon_foldl (fun _ _ hs => hs) hs)) hs)

theorem checkMarkers (hs : s.Canon) : (s.checkMarkers).Canon :=
  canon_foldl (fun s l hs => by split; exacts [hs, canon_ite hs hs]) hs

/-! ### Operations of `Machine/Slack` -/

theorem modDef {n f} (hs : s.Canon) : (s.modDef n f).Canon := hs

theorem markBank {q group bank} (hs : s.Canon) : (s.markBank q group bank).Canon :=
  canon_ite (hs.setCore (hs.core q)) (canon_ite hs hs)

/-- The patrol scrub: each row read is written back through `Core.reencode`. -/
theorem scrubCore {q} (hs : s.Canon) : (s.scrubCore q).Canon :=
  modCore (canon_foldl (fun _ _ hs => modCore hs.countCorr.bankLoss fun _ hc => Core.memWf_reencode _ _ hc) hs)
    fun _ hc => hc

theorem canonOut_execIdleIssueSlot {q beats} (hs : s.Canon) : CanonOut (execIdleIssueSlot q beats s) :=
  hs.modCore fun c hc => by simpa using hc

theorem suppress {region beats} (hs : s.Canon) : (s.suppress region beats).Canon := hs

theorem guardTable (hs : s.Canon) : (s.guardTable).Canon := by
  unfold State.guardTable
  split
  next => exact hs
  split
  exacts [canon_ite hs hs, hs]

theorem canonOut_execTideTableAdopt (hs : s.Canon) : CanonOut (execTideTableAdopt s) := by
  unfold execTideTableAdopt
  split
  next => exact hs
  refine canonOut_ite hs ?_
  split <;> exact hs

theorem slackStart (hs : s.Canon) : (s.slackStart).Canon := by
  unfold State.slackStart
  extract_lets +onlyGivenNames s1 phys s2 s3
  have h1 : s1.Canon :=
    canon_foldl (fun _ _ hs => canon_ite (scrubCore (modCore (canon_ite hs hs) fun _ hc => hc))
      (modCore (canon_ite hs hs) fun _ hc => hc)) hs
  have h2 : s2.Canon := h1
  exact later (canon_ite h2 h2.nil)

theorem slackEnd (hs : s.Canon) : (s.slackEnd).Canon :=
  later (planFlits (dropRounds (checkMarkers (canon_ite hs hs))))

theorem guardTides (hs : s.Canon) : (s.guardTides).Canon := hs.guardTable

theorem retryGranules (hs : s.Canon) : (s.retryGranules).Canon :=
  canon_foldl (fun s e hs => by
    dsimp only
    split
    exacts [later (modGran (dramRead hs.attempts)), later (modXfer (modGran hs.attempts))]) hs

theorem completeFrozen (hs : s.Canon) : (s.completeFrozen).Canon := canon_foldl (fun _ _ hs => hs.schedule) hs

theorem canonOut_execResynchronisation (hs : s.Canon) : CanonOut (execResynchronisation s) := by
  unfold execResynchronisation
  split
  exacts [hs, noteInc (retryGranules (completeFrozen hs))]

theorem measureOffset {offset} (hs : s.Canon) : (s.measureOffset offset).Canon := hs

theorem time {t} (hs : s.Canon) : ({ s with time := t } : State).Canon := hs

theorem correct {offset} (hs : s.Canon) : (s.correct offset).Canon := by
  unfold State.correct
  extract_lets n f corr regs phys s1
  have h1 : s1.Canon := hs
  exact canon_ite (time (canon_foldl (fun _ _ hs => hs.delay) h1)) (canon_foldl (fun _ _ hs => hs.modDef) h1)

theorem canonOut_execSkewGuard {link} (hs : s.Canon) : CanonOut (execSkewGuard link s) := by
  unfold execSkewGuard
  split
  exacts [later (canon_foldl (fun _ _ hs => unsend (report (modLnk hs))) hs), hs]

/-! ### Operations of `Machine/Links` -/

theorem sendFlit {l slot f} (hs : s.Canon) : (s.sendFlit l slot f).Canon := hs

theorem canonOut_execFlitSend {link slot} (hs : s.Canon) : CanonOut (execFlitSend link slot s) := by
  unfold execFlitSend
  split
  next => exact hs
  refine canonOut_ite hs (canonOut_ite (by split <;> exact hs) ?_)
  dsimp only
  split
  exacts [hs, sendFlit (useSlots hs)]

theorem canonOut_execFlitResend {link slot} (hs : s.Canon) : CanonOut (execFlitResend link slot s) := by
  unfold execFlitResend
  split
  exacts [hs, hs.resendOn]

theorem acceptFlit {o w bs f} (hs : s.Canon) : (s.acceptFlit o w bs f).Canon := by
  unfold State.acceptFlit
  extract_lets -underBinder rdx
  split
  next => exact hs
  refine canon_ite hs (canon_ite hs ?_)
  extract_lets -underBinder at_ ch s1
  have h1 : s1.Canon := openRound hs.useSlots
  repeat' split
  all_goals exact h1

theorem rxPlace {link slot} (hs : s.Canon) : (s.rxPlace link slot).2.Canon := by
  unfold State.rxPlace
  split
  next => exact hs
  next => split <;> exact hs

theorem failFlit {link slot} (hs : s.Canon) : (s.failFlit link slot).Canon := by
  unfold State.failFlit
  split
  next he => exact canon_of_eq_snd he hs.rxPlace
  next he =>
    have h1 := canon_of_eq_snd he hs.rxPlace
    exact h1

theorem canonOut_execFlitReceive {link slot payload flags crcOk} (hs : s.Canon) :
    CanonOut (execFlitReceive link slot payload flags crcOk s) := by
  unfold execFlitReceive
  split
  next => exact hs
  extract_lets -underBinder +onlyGivenNames k
  refine canonOut_ite hs (canonOut_ite hs.bumpLnk ?_)
  split
  next =>
    extract_lets -underBinder +onlyGivenNames s1 s2
    have h2 : s2.Canon := bumpLnk (failFlit hs)
    exact canonOut_next.2 (canon_ite h2 h2)
  next =>
    extract_lets -underBinder +onlyGivenNames late s1
    have h1 : s1.Canon := hs
    refine canonOut_ite (later (bumpLnk (modLnk h1))) ?_
    extract_lets -underBinder +onlyGivenNames s2
    have h2 : s2.Canon := canon_ite (unsend (modLnk h1)) h1
    split
    next he => exact canon_of_eq_snd he h2.rxPlace
    next he =>
      have h3 := canon_of_eq_snd he h2.rxPlace
      exact canonOut_ite h3 h3.acceptFlit

/-! ### Operations of `Machine/Physical` -/

theorem project (hs : s.Canon) : (s.project).Canon := canon_foldl (fun _ _ hs => canon_ite hs hs) hs

theorem coreFault {row slot fence fenceable} (hs : s.Canon) : (s.coreFault row slot fence fenceable).Canon := by
  unfold State.coreFault
  split
  next => exact hs
  split
  next => exact hs
  exact canon_ite hs (report (canon_foldl (fun _ _ hs => hs.endAbnormal) hs))

theorem stopForReplay {r} (hs : s.Canon) : (s.stopForReplay r).Canon := hs

theorem restartLaunch {l} (hs : s.Canon) : (s.restartLaunch l).Canon := by
  unfold State.restartLaunch
  exact project (report (later (modLaunch hs)))

theorem canonOut_execDeviceReplay {launch} (hs : s.Canon) : CanonOut (execDeviceReplay launch s) := by
  unfold execDeviceReplay
  split
  next => exact hs
  refine canonOut_ite hs ?_
  extract_lets s1 s2
  have h2 : s2.Canon := canon_foldl (f := State.stopForReplay) (fun _ _ hs => hs.stopForReplay) hs
  exact canonOut_ite h2 h2.restartLaunch

theorem endAll {status fire} (hs : s.Canon) : (s.endAll status fire).Canon :=
  canon_foldl (fun _ _ hs => canon_ite
    (completionFire (doneLaunch (canon_foldl (fun _ _ hs => hs) hs))) (doneLaunch (canon_foldl (fun _ _ hs =>
    hs) hs))) hs

theorem enterError (hs : s.Canon) : (s.enterError).Canon := hs.endAll

theorem dieLoss {die} (hs : s.Canon) : (s.dieLoss die).Canon := report (enterError hs)

theorem trip (hs : s.Canon) : (s.trip).Canon := dieLoss (dieLoss hs)

theorem heat {tj} (hs : s.Canon) : (s.heat tj).Canon := hs

theorem draw {power} (hs : s.Canon) : (s.draw power).Canon := hs

theorem canonOut_execBoot (hs : s.Canon) : CanonOut (execBoot s) := by
  unfold execBoot
  extract_lets +onlyGivenNames s1 code at_ regs host s2 s3
  have h2 : s2.Canon := hs.nil
  have h3 : s3.Canon := canon_ite (project (canon_foldl (fun _ _ hs => hs.markBank) h2)) h2
  exact canonOut_ite h3 h3

/-! ### Operations of `Machine/Host` -/

theorem answer {code v} (hs : s.Canon) : (s.answer code v).Canon := hs

theorem nextCommand (hs : s.Canon) : (s.nextCommand).Canon := by
  unfold State.nextCommand
  split
  exacts [canon_ite hs hs, hs]

theorem inTurn {i f} (hs : s.Canon) (hf : ∀ t, t.Canon → (f t).Canon) : CanonOut (s.inTurn i f) :=
  canonOut_ite hs (by split; exacts [hf _ hs, canonOut_ite (nextCommand (hf _ hs)) hs])

theorem command {i f} (hs : s.Canon) (hf : ∀ t, t.Canon → (f t).Canon) : CanonOut (s.command i f) :=
  hs.inTurn fun _ ht => canon_ite (hf _ ht) ht

theorem acceptLaunch {rec_ start late e} (hs : s.Canon) : (s.acceptLaunch rec_ start late e).Canon := by
  unfold State.acceptLaunch
  extract_lets -underBinder pa s1 s2
  have h1 : s1.Canon := hs.beginLaunch
  exact answer (keepBoundaries h1)

theorem canonOut_execLquery {handle} (hs : s.Canon) : CanonOut (execLquery handle s) :=
  hs.command fun _ ht => by split <;> exact ht

theorem canonOut_execCancel {handle} (hs : s.Canon) : CanonOut (execCancel handle s) :=
  hs.command fun _ ht => by split; exacts [ht, ht.cancel]

theorem revokeCtb {r l x e} (hs : s.Canon) : (s.revokeCtb r l x e).Canon :=
  canon_ite hs (canon_ite hs.endAbnormal (canon_foldl (fun _ _ hs => hs) hs))

theorem revokeReach {r l} (hs : s.Canon) : (s.revokeReach r l).Canon := by
  unfold State.revokeReach
  split
  next => exact hs
  exact canon_ite hs (delay (modReach (canon_foldl (fun _ _ hs => hs.revokeCtb) hs)))

theorem setDbgtok {v} (hs : s.Canon) : (s.setDbgtok v).Canon :=
  canon_foldl (fun s r hs => by split; exacts [hs.revokeReach, hs]) hs

theorem setHltbase {v} (hs : s.Canon) : (s.setHltbase v).Canon := canon_ite hs hs

theorem hostWrite {n q v} (hs : s.Canon) : (s.hostWrite n q v).Canon :=
  canon_ite hs.setDbgtok <| canon_ite hs <| canon_ite hs <| canon_ite hs.setHltbase <| canon_ite hs <| canon_ite
    hs.setCoreReg hs.setDev

theorem leaveHalted {r x col g} (hs : s.Canon) : (s.leaveHalted r x col g).Canon := canon_ite hs hs

theorem doubleHalted {r l x col g held} (hs : s.Canon) : (s.doubleHalted r l x col g held).Canon :=
  hs.modGroup.endAbnormal.leaveHalted

theorem goHalted {r l x col g n} (hs : s.Canon) : (s.goHalted r l x col g n).Canon := hs.modGroup.modReach.leaveHalted

theorem debugOp {l r x col op word v} (hs : s.Canon) : (s.debugOp l r x col op word v).Canon := by
  unfold State.debugOp
  extract_lets -underBinder item ix w g t
  split
  · exact canon_ite hs hs
  · refine canon_ite hs ?_
    split
    exacts [answer hs.doubleHalted, answer (markEdited (canon_ite hs.lanesWrite hs.haltedWrite))]
  · exact canon_ite hs hs.stepHalted
  · exact canon_ite hs hs.stepCursor
  · split
    exacts [canon_ite hs (answer hs.goHalted), hs]

theorem canonOut_execDebug {launch lin op word value} (hs : s.Canon) :
    CanonOut (execDebug launch lin op word value s) :=
  hs.command fun _ ht => by
    split
    next => exact ht
    refine canon_ite ht ?_
    split
    next => exact ht
    split
    exacts [canon_ite ht.debugOp ht, ht]

/-- The scrub before the device changes hands empties DRAM and every scratch. -/
theorem scrub {reply} (hs : s.Canon) : (s.scrub reply).Canon :=
  (MemsCanon.map hs.endAll.nil fun _ _ => rfl : MemsCanon _ _)

/-! ### The step -/

theorem canonOut_exec {i} (hs : s.Canon) : CanonOut (exec i s) := by
  unfold exec
  cases i with
  | nop | br | call | mset | msetAll | mrest | msave | kmov | kli | trap | bcnArm | bcnOff =>
    exact canonOut_withHere fun _ => hs
  | brc | loop | callK | ret | sdrew => exact canonOut_withHere fun _ => canon_ite hs hs
  | brxK => exact canonOut_execBrxK hs
  | brxV => exact canonOut_execBrxV hs
  | tableStep => exact canonOut_execTableStep hs
  | mif | melse | mend => exact canonOut_withHere fun _ => hs.region
  | mand | mor | mxor | mandn | mnot | mmov => exact hs.maskOp
  | mcnt | mfirst | rquery | sdget | tread | xstat | lstat | fmtq | tinfo =>
    exact canonOut_withHere fun _ => hs.putAll
  | passE => exact canonOut_withHere fun _ => hs.pass
  | passS => exact canonOut_withHere fun _ => canon_ite hs hs.pass
  | endG | tkillGroup => exact canonOut_withHere fun _ => hs.endHere
  | add | sub | mul | mulh | div | rem | min | max => exact hs.int2
  | mad | abs | neg | brev | bfx | bfi | mov | lea | fscale | fcvt | fpack | funpack | fdot2 => exact hs.lanewise
  | and | or | xor | andn => exact hs.bits2
  | shl | shr | rot => exact hs.shift
  | popc | clz | ctz => exact hs.count
  | cmp | fcmp => exact hs.computeMask
  | sel | acvTo | acvFrom | sreg | vget | qcvtTo | qcvtFrom | fdot4 | gred | gscan | gshuf | gbcast | lld | sysrd
  | hread =>
    exact canonOut_withHere fun _ => hs.vec_justVals
  | kadd | ksub | kmul | kshl | kshr | kand | kor => exact hs.uni2
  | ats => exact canonOut_withHere fun _ => hs.vec_toMask
  | ixset | ixadd | vput => exact canonOut_withHere fun _ => hs.vec fun _ _ _ ht => ht
  | rgrow => exact canonOut_withHere fun _ => canon_ite hs.growth hs.growth
  | rshrink => exact canonOut_withHere fun _ => hs.growth
  | fadd | fsub | fmul | fma | fmin | fmax | fabs | fneg | fcopysign | frcp | frsq | fsqrt | fexp2 | flog2 |
  fclass | frnd =>
    exact hs.floatOp
  | icvt => exact canonOut_ite hs.lanewise hs.lanewise
  | ld | cld => exact hs.load
  | st | cst => exact canonOut_withHere fun _ => hs.store fun _ _ _ ht => canon_storeEff ht
  | lst => exact canonOut_withHere fun _ => hs.store fun _ _ _ ht => ht
  | sdset => exact canonOut_withHere fun _ => canon_ite hs (canon_ite hs hs)
  | sdrd => exact canonOut_execSdrd hs
  | sdwr =>
    exact canonOut_withHere fun _ => sdDone (hs.vec fun _ _ _ ht => canon_foldl (fun _ _ hs => hs.storeLane)
      ht)
  | mls | mlsSp => exact canonOut_withHere fun _ => hs.loadPlane
  | mswap | mdrain => exact canonOut_withHere fun _ => matrixDo hs hs.queueItem
  | mmq => exact canonOut_execMmq hs
  | mtile => exact canonOut_execMtile hs
  | macz | maczFill => exact canonOut_withHere fun _ => hs.clearTiles
  | msum => exact canonOut_execMsum hs
  | mstat => exact canonOut_withHere fun _ => canon_ite (queueItems hs.vec_justVals) hs.vec_justVals
  | engineItemDone => exact hs.runItems
  | xcopyIn => exact canonOut_execXcopyIn hs
  | xcopyOut => exact canonOut_execXcopyOut hs
  | xgather | xscatter | xscatterAny => exact canonOut_withHere fun _ => hs.indexed
  | xred | xredAny => exact canonOut_withHere fun _ => hs.reduce
  | tsleep | barSync | barWait | cwait | lwait => exact canonOut_withHere fun _ => hs.issueWait fun _ ht => ht
  | tresync => exact canonOut_withHere fun _ => hs.issueWait fun _ ht => canon_ite ht ht
  | atom | red => exact hs.atomic
  | acq | wait => exact canonOut_withHere fun _ => hs.objWait
  | rel => exact canonOut_withHere fun _ => canon_ite hs (complete (releaseFire hs))
  | bind => exact canonOut_execBind hs
  | barArv | barArvRlx => exact canonOut_withHere fun _ => hs.arrival
  | sndPush => exact canonOut_withHere fun _ => hs.issueWait fun _ ht => ht.tryPush
  | sndPop => exact canonOut_withHere fun _ => hs.issueWait fun _ ht => ht.tryPop
  | sndPeek | cstat => exact canonOut_withHere fun _ => hs.putChecked fun _ ht => ht
  | sndCfg => exact canonOut_execSndCfg hs
  | fence => exact canonOut_execFence hs
  | xfence => exact canonOut_execXfence hs
  | cnext => exact canonOut_execCnext hs
  | launch => exact canonOut_withHere fun _ => canon_ite hs (beginLaunch hs)
  | lcancel => exact canonOut_execLcancel hs
  | tret => exact canonOut_withHere fun _ => canon_ite hs.leaveTrap hs
  | syswr => exact canonOut_execSyswr hs
  | tkillCtb => exact canonOut_withHere fun _ => canon_ite (passHold (endAbnormal hs)) (endAbnormal hs)
  | hwrite => exact canonOut_execHwrite hs
  | hstepLane => exact canonOut_withHere fun _ => hs.stepInto fun _ ht => ht.stepHalted
  | hstepCursor => exact canonOut_withHere fun _ => hs.stepInto fun _ ht => ht.stepCursor
  | hgo => exact canonOut_withHere fun _ => canon_ite hs hs.leaveTrap
  | emit => exact canonOut_withHere fun _ => hs.traceOut
  | traceDrain => exact canonOut_execTraceDrain hs
  | stepCountReached => exact canonOut_execStepCountReached hs
  | trapEntry => exact canonOut_execTrapEntry hs
  | ctbAbnormalEnd => exact canonOut_execCtbAbnormalEnd hs
  | dump => exact canonOut_execDump hs
  | uncorrectableCoreFault => exact hs.coreFault
  | deviceReplay => exact canonOut_execDeviceReplay hs
  | validationSpanEnd => exact canonOut_execValidationSpanEnd hs
  | translationFillDone => exact canonOut_execTranslationFillDone hs
  | preparationPromiseMet => exact canonOut_execPreparationPromiseMet hs
  | launchStart => exact canonOut_execLaunchStart hs
  | launchLate => exact canonOut_execLaunchLate hs
  | cancelFire => exact canonOut_execCancelFire hs
  | writebackStart => exact canonOut_execWritebackStart hs
  | launchComplete => exact canonOut_execLaunchComplete hs
  | ctbSave => exact canonOut_execCtbSave hs
  | ctbRestore => exact canonOut_execCtbRestore hs
  | dramSlotAccess => exact canonOut_execDramSlotAccess hs
  | granuleLanding => exact canonOut_execGranuleLanding hs
  | dramWriteCommit => exact canonOut_execDramWriteCommit hs
  | eccFailure => exact canonOut_execEccFailure hs
  | dramRetry => exact canonOut_execDramRetry hs
  | granuleRetryFrame => exact canonOut_execGranuleRetryFrame hs
  | engineRequestRetry => exact canonOut_execEngineRequestRetry hs
  | gatherBatch => exact canonOut_execGatherBatch hs
  | stagedCombine => exact canonOut_execStagedCombine hs
  | readinessSample => exact canonOut_execReadinessSample hs
  | waitDecision => exact canonOut_execWaitDecision hs
  | waitTimeout => exact canonOut_execWaitTimeout hs
  | bankMarkFailed => exact hs.markBank
  | droopSuppress => exact canonOut_ite hs (canon_foldl (fun _ _ hs => hs.suppress) hs)
  | scheduleFault => exact canonOut_ite hs (canonOut_next.2 (canon_foldl (fun _ _ hs => hs.restartSwitch) hs))
  | tideCorrection => exact canonOut_next.2 (canon_ite hs (canon_ite (correct hs.measureOffset) hs))
  | skewGuard => exact canonOut_execSkewGuard hs
  | flitSend => exact canonOut_execFlitSend hs
  | flitReceive => exact canonOut_execFlitReceive hs
  | flitResend => exact canonOut_execFlitResend hs
  | linkDown => exact canonOut_ite hs (canonOut_ite (canonOut_next.2 (canon_foldl (fun _ _ hs => hs.resendOn) hs)) hs)
  | collectiveCombine => exact canonOut_execCollectiveCombine hs
  | resultCommit => exact canonOut_execResultCommit hs
  | rowReferenceLoss =>
    exact canonOut_ite hs.dieLoss (canonOut_ite hs (canonOut_next.2 (canon_foldl (fun _ _ hs => hs.coreFault)
      (project hs))))
  | dieReferenceLoss | uncoreSupplyLow => exact hs.dieLoss
  | junctionWarning => exact canonOut_next.2 (canon_ite hs hs)
  | powerWarning | descriptorBreak | ttepochWrite | detcfgWrite | keyExchange => exact hs
  | launchCmd => exact hs.command fun _ ht => canon_ite ht ht.acceptLaunch
  | lquery => exact canonOut_execLquery hs
  | cancel => exact canonOut_execCancel hs
  | regrd => exact hs.command fun _ ht => canon_ite ht (canon_ite ht (canon_ite ht ht))
  | objset => exact hs.command fun _ ht => canon_ite ht (canon_ite ht ht)
  | debug => exact canonOut_execDebug hs
  | retire => exact hs.command fun _ ht => canon_ite ht ht
  | regwr => exact hs.command fun _ ht => canon_ite ht (canon_ite ht ht.hostWrite)
  | descriptorArm | lockInterfaceRequest | startInterfaceRequest => exact canonOut_ite hs hs
  | schedcfgWrite => exact hs.setSchedcfg
  | bankmapWrite => exact canonOut_execBankmapWrite hs
  | dbgtokWrite => exact hs.setDbgtok
  | hltbaseWrite => exact hs.setHltbase
  | registerWrite => exact canonOut_next.2 (canon_ite hs.hostWrite hs)
  | idleIssueSlot => exact canonOut_execIdleIssueSlot hs
  | quantumBoundary =>
    exact canonOut_ite hs (canonOut_ite hs (canonOut_next.2 (keepBoundaries (launches (discardPreloads
      (canon_foldl (fun _ _ hs => hs.boundaryRow) hs))))))
  | slackWater => exact canonOut_next.2 (canon_ite hs.slackEnd (canon_ite hs.guardTides hs.slackStart))
  | resynchronisation => exact canonOut_execResynchronisation hs
  | resyncResume => exact canonOut_ite hs (askAgain (retryGranules hs))
  | tideTableAdopt => exact canonOut_execTideTableAdopt hs
  | thermalTrip => exact hs.heat.trip
  | powerTrip => exact hs.draw.trip
  | boot => exact canonOut_execBoot hs
  | handover => exact hs.inTurn fun _ ht => ht.scrub
  | stopInterfaceRequest => exact canonOut_ite hs hs.scrub
  | measurements => exact report (report (report (canon_foldl (fun _ _ hs => report hs) hs)))
  | hostFlitTagFail => exact hs.enterError
  | scrubComplete => exact canonOut_ite hs (nextCommand hs)

theorem canonOut_step (hs : s.Canon) : CanonOut (step s) := hs.tick fun _ _ ht => canonOut_exec ht

end Sys2Proof.Machine.State.Canon

section
open Sys2Proof.Machine

/-- Settles O59: the invariant is `State.Canon`, which each instruction and task of the dispatcher keeps. -/
theorem memoriesKept : Obligations.MemoriesKept := by
  unfold Obligations.MemoriesKept
  intro s t hs hst
  exact State.canon_iff.1 (canon_of_next hst (State.Canon.canonOut_step (State.canon_iff.2 hs)))

end

/-! O60: what reset leaves. A table of equal values reads as that value at every index, past its end too when it is the
default; a table of distinct values is read index by index. -/
namespace Sys2Proof.Machine

@[simp] theorem State.core_reset (q : Nat) : State.reset.core q = Core.reset := rfl

theorem State.obj_reset (n : Nat) : State.reset.obj n = 0 := rfl

theorem State.memsWf_reset : State.reset.memsWf = true := rfl

theorem State.holder_reset {x : Row} (hx : x ∈ State.reset.rows) : x.holder = none := by
  rw [List.eq_of_mem_replicate hx]

theorem getD_replicate_default {α : Type} (r n : Nat) (d : α) : (List.replicate r d).getD n d = d := by
  rw [List.getD_eq_getElem?_getD, List.getElem?_getD_replicate_default_eq]

theorem Core.mark_reset {g : Nat} (hg : g < 32) : Core.reset.mark g = 15 := by
  revert g; decide

theorem Regs.proj_reset {n : Nat} (hn : n < 8) :
    Regs.reset.proj.getD n 0 = BitVec.ofNat 32 (0x1F0 + n) ∧
      Regs.reset.proj.getD (8 + n) 0 = BitVec.ofNat 32 (0x9F0 + n) := by
  revert n; decide

theorem Regs.acctl_reset {n : Nat} (hn : n < 26) : Regs.reset.acctl.getD n 0 = 0x0005FFFF0005FFFF :=
  List.getD_replicate (0x0005FFFF0005FFFF : DWord) hn

end Sys2Proof.Machine

section
open Sys2Proof.Machine

/-- Settles O60: the registers one by one, then the cores, and the rest of the state. -/
theorem resetState : Obligations.ResetState := by
  unfold Obligations.ResetState
  refine ⟨rfl, rfl, rfl, rfl, rfl, rfl, rfl, fun _ => Regs.proj_reset,
    fun n => getD_replicate_default 22 n 0, fun _ => Regs.acctl_reset, rfl, fun q => ?_, fun _ => State.holder_reset, rfl, rfl, rfl, State.obj_reset,
    State.memsWf_reset⟩
  have hbcn := fun n => getD_replicate_default 16 n (0 : BitVec 64)
  rw [State.core_reset]
  exact ⟨fun _ => Core.mark_reset, rfl, fun n => ⟨hbcn n, hbcn n, hbcn n⟩, fun n => getD_replicate_default 4 n 0, rfl, rfl⟩

end

/-! O44: the instructions of the launch class (03 R118, R121 to R125). `lwait` issues a wait; `fmtq`, `lstat` and `lcancel` put
one value in every active lane; `launch` writes the registers of the reach group, after which a launch begins. -/
namespace Sys2Proof.Machine

/-! ### Issuing a wait -/

theorem State.issueWait_of_fits {s : State} {h : Here} {kind : WaitKind} {texp : BitVec 5} {obj arg : DWord} {d : Dst}
    (hf : Fits h d) : s.issueWait h kind texp obj arg d none id =
      (s.modRG h (fun rg => rg.holds h kind texp obj arg d)).modG h (fun g => g.holding d) := by
  have hfits : ¬ (h.grp.allocates [] (dstNames d false) && decide (h.limit < h.grp.wouldHold [] (dstNames d false))) = true := by
    simpa [Fits] using hf
  simp only [State.issueWait, if_neg hfits, State.complete, id, State.modG_modG]
  rfl

theorem issuesWait_of {i : Instr} {kind : WaitKind} {texp : BitVec 5} {d : Dst} {ok : State → Here → Prop}
    {obj arg : Here → DWord} (hi : ∀ s h, s.here = some h → ok s h →
      exec i s = .next (s.issueWait h kind texp (obj h) (arg h) d none id)) : IssuesWait i kind texp d ok obj arg := by
  intro s h hh hf hok
  refine ⟨_, (hi s h hh hok).trans (congrArg _ (State.issueWait_of_fits hf)), rfl, ?_⟩
  exact onlyHere_mod hh _ _

/-! ### The same value in every lane -/

theorem laneInstr_of_putAll {i : Instr} {d : Dst} {w64 : Bool} {f : Here → DWord}
    (hi : ∀ s h, s.here = some h → exec i s = .next (s.putAll h d w64 (f h))) :
    LaneInstr i [] d w64 1 Always (fun h _ _ => f h) (fun _ _ _ => 0) := by
  intro s h hr _
  refine ⟨_, hi s h hr.1, ?_⟩
  simpa using putAll_delivers (f h) hr

/-! ### Work time -/

theorem workAfter_in_frame {t n : Nat} (ht : t % 8192 < 7936) (hn : t % 8192 + n < 7936) : workAfter t n = t + n := by
  simp only [workAfter, frameOff, ht, if_true]
  omega

theorem workAfter_next_frame {t : Nat} (n : Nat) (ht : t % 8192 < 7936) :
    workAfter t (n + (7936 - t % 8192)) = workAfter (8192 * (t / 8192 + 1)) n := by
  have h0 : 8192 * (t / 8192 + 1) % 8192 = 0 := by omega
  simp only [workAfter, frameOff, ht, h0, if_true, Nat.zero_lt_succ]
  omega

/-! ### Handles -/

theorem readHandle_null (rg : RGroup) : readHandle rg (BitVec.allOnes 64) = .null := by simp [readHandle]

/-- A handle is valid where its three fields name a launch that the reach group has issued. -/
theorem readHandle_eq_valid_iff {rg : RGroup} {x : DWord} {o : Nat} : readHandle rg x = .valid o ↔
    x.toNat = 2 ^ 37 * o + 2 ^ 32 * rg.grp + rg.reach ∧ o < 16 ∧ rg.grp < 32 ∧ rg.reach < 2 ^ 32 ∧ o < rg.issued := by
  have hreach : (x.extractLsb' 0 32).toNat = x.toNat % 2 ^ 32 := by simp
  have hgrp : (x.extractLsb' 32 5).toNat = x.toNat / 2 ^ 32 % 32 := by simp [Nat.shiftRight_eq_div_pow]
  have hord : (x.extractLsb' 37 4).toNat = x.toNat / 2 ^ 37 % 16 := by simp [Nat.shiftRight_eq_div_pow]
  have hnull : x = BitVec.allOnes 64 → x.toNat = 2 ^ 64 - 1 := fun hx => by rw [hx]; rfl
  simp only [readHandle, hreach, hgrp, hord]
  split
  next hx => have := hnull hx; constructor <;> [nofun; omega]
  next =>
    split
    · simp only [Handle.valid.injEq]; omega
    · constructor <;> [nofun; omega]

theorem readHandle_invalid {rg : RGroup} {x : DWord} (hx : x ≠ BitVec.allOnes 64) (hv : ∀ o, readHandle rg x ≠ .valid o) :
    readHandle rg x = .invalid := by
  cases hr : readHandle rg x with
  | null => simp only [readHandle, if_neg hx] at hr; split at hr <;> cases hr
  | invalid => rfl
  | valid o => exact absurd hr (hv o)

/-! ### Status words -/

/-- A multiple of a power of two stands above every smaller number. -/
theorem or_two_pow_mul {x i : Nat} (hx : x < 2 ^ i) (a : Nat) : x ||| 2 ^ i * a = x + 2 ^ i * a := by
  rw [Nat.lor_comm, ← Nat.two_pow_add_eq_or_of_lt hx, Nat.add_comm]

theorem toNat_ite_zero (c : Prop) [Decidable c] {x : Word} {i : Nat} (hx : x.toNat = 2 ^ i) :
    (if c then x else 0).toNat = 2 ^ i * (decide c).toNat := by
  split <;> simp [*]

theorem lstatWord_toNat {l : Launch} {st : Word} (hp : 0 < l.record.positions) : (lstatWord l st).toNat =
    st.toNat % 256 + (if l.replayable then 256 else 0) + (if l.record.save = 0 then 0 else 512) +
      65536 * min 65535 ((l.record.numReaches + l.record.positions - 1) / l.record.positions) := by
  simp only [lstatWord, if_neg hp.ne']
  generalize (l.record.numReaches + l.record.positions - 1) / l.record.positions = n
  have hlow : (st &&& 0xFF).toNat = st.toNat % 256 := by
    rw [BitVec.toNat_and]; exact Nat.and_two_pow_sub_one_eq_mod _ 8
  have hgens : (BitVec.ofNat 32 (65536 * min 65535 n)).toNat = 2 ^ 16 * min 65535 n := by
    rw [BitVec.toNat_ofNat]; omega
  have ha := Bool.toNat_le (decide (l.replayable = true))
  have hb := Bool.toNat_le (decide (l.record.save ≠ 0))
  rw [BitVec.toNat_or, BitVec.toNat_or, BitVec.toNat_or, hlow, toNat_ite_zero _ (i := 8) rfl, toNat_ite_zero _ (i := 9) rfl, hgens,
    or_two_pow_mul (x := st.toNat % 256) (i := 8) (by omega) (decide _).toNat,
    or_two_pow_mul (x := _ + 2 ^ 8 * _) (i := 9) (by omega) (decide _).toNat, or_two_pow_mul (x := _ + 2 ^ 9 * _) (by omega)]
  have hreplay : (if l.replayable then 256 else 0) = 2 ^ 8 * (decide (l.replayable = true)).toNat := by
    cases l.replayable <;> rfl
  have hsave : (if l.record.save = 0 then 0 else 512) = 2 ^ 9 * (decide (l.record.save ≠ 0)).toNat := by
    by_cases h0 : l.record.save = 0
    · rw [if_pos h0, decide_eq_false (not_not_intro h0)]; rfl
    · rw [if_neg h0, decide_eq_true h0]; rfl
  omega

/-! ### Launches by their identity -/

theorem State.launch?_modLaunch (s : State) (id n : Nat) {f : Launch → Launch} (hf : ∀ l, (f l).id = l.id) :
    (s.modLaunch id f).launch? n = (s.launch? n).map (fun l => if l.id == id then f l else l) :=
  find?_map_if (fun l : Launch => l.id == id) (fun l => l.id == n) f (fun l _ => by rw [hf]) s.launches

theorem State.here_modLaunch {s : State} {h : Here} (id : Nat) {f : Launch → Launch} (hf : ∀ l, (f l).id = l.id)
    (hh : s.here = some h) :
    (s.modLaunch id f).here = some { h with launch := if h.launch.id == id then f h.launch else h.launch } := by
  obtain ⟨h1, h2, h3, h4, h5, h6⟩ := State.here_parts hh
  exact State.here_of_parts h1 h2 h3 h4 ((State.launch?_modLaunch s id h.reach.launch hf).trans (by rw [h5]; rfl)) h6

/-! ### Cancelling a launch -/

/-- The state once a launch is cancelled, which takes effect at its declared start `tide` (03 R124). -/
def State.cancelled (s : State) (id tide : Nat) : State :=
  (s.modLaunch id (fun x => { x with cancelled := true })).later tide 1 (.cancelFire id)

/-- The executing position with its launch cancelled. -/
def Here.cancelled (h : Here) : Here := { h with launch := { h.launch with cancelled := true } }

theorem runLanes_cancelled (h : Here) (v : VecIn) (sv : List (BitVec 4 × List DWord)) (c : Core) (mode : BMode) (fresh ks : List Nat)
    (a : Lanes) : runLanes h.cancelled v sv c mode fresh ks a = runLanes h v sv c mode fresh ks a := by
  induction ks generalizing a with
  | nil => rfl
  | cons k ks ih =>
    simp only [runLanes, ih]
    rfl

theorem State.vecEnd_cancelled (s : State) (h : Here) (v : VecIn) (r : Lanes) (eff) :
    s.vecEnd h.cancelled v r eff = s.vecEnd h v r eff := rfl

/-- That its launch is cancelled changes nothing of what a position puts. -/
theorem State.putAll_cancelled (s : State) (h : Here) (d : Dst) (w : Bool) (v : DWord) :
    s.putAll h.cancelled d w v = s.putAll h d w v := by
  simp only [State.putAll, State.putChecked, State.vec, runLanes_cancelled, State.vecEnd_cancelled]
  rfl

/-- The same value to the active lanes once a launch is cancelled, be it the launch of the executing position itself. -/
theorem putAll_delivers_of_cancelled {s : State} {h : Here} {d : Dst} {w : Bool} (id tide : Nat) (v : DWord)
    (hr : Runs s h [] (dstNames d w)) :
    Delivers (s.cancelled id tide) ((s.cancelled id tide).putAll h d w v) h [] d w 1 (fun _ => v) 0 := by
  obtain ⟨hh, hrest⟩ := hr
  have hhere : (s.cancelled id tide).here = some (if h.launch.id == id then h.cancelled else h) := by
    refine (State.here_modLaunch id (f := fun x => { x with cancelled := true }) (fun _ => rfl) hh).trans ?_
    split <;> rfl
  split at hhere
  · have hd := putAll_delivers (h := h.cancelled) v ⟨hhere, hrest⟩
    rw [State.putAll_cancelled] at hd
    exact hd
  · exact putAll_delivers v ⟨hhere, hrest⟩

/-! ### Issuing a child launch -/

/-- A reach group, and a handler of it, count the issue of its `n`-th child. -/
def Reach.countIssue (r : Reach) (grp n : Nat) : Reach :=
  { r with
    rgs := r.rgs.modify grp (fun g => { g with issued := n + 1 })
    hold := r.hold.map (fun x => { x with rg := { x.rg with issued := n + 1 } }) }

/-- The handle of the next child of a reach group (03 R118). -/
def Here.childHandle (h : Here) : DWord := BitVec.ofNat 64 (2 ^ 37 * h.rg.issued + 2 ^ 32 * h.rg.grp + h.rg.reach)

/-- The identity of the next child of a reach group: the address of its status entry (03 R120). -/
def Here.childIdent (h : Here) : Nat :=
  h.launch.record.childarea.toNat +
    64 * ((h.rg.reach * h.launch.record.groups + h.rg.grp) * h.launch.record.childmax + h.rg.issued)

/-- The state in which a reach group has issued its next child, before that launch begins. -/
def State.issueChild (s : State) (h : Here) (d : BitVec 6) : State :=
  ((s.setK h d h.childHandle).modReach h.cur.row h.cur.slot (fun r => r.countIssue h.cur.grp h.rg.issued)).modLaunch h.launch.id
    (fun l => { l with acted := true })

/-- A change of a reach that leaves where it stands and its CTBs: the executing position stays in it. -/
theorem State.here_modReach {s : State} {h : Here} {f : Reach → Reach} (hf : Reach.Keeps f) (hh : s.here = some h) {rg : RGroup}
    (hctbs : (f h.reach).ctbs = h.reach.ctbs) (hl : (f h.reach).launch = h.reach.launch)
    (hrg : (f h.reach).rgOf h.cur.grp h.cur.handler = some rg) :
    (s.modReach h.cur.row h.cur.slot f).here = some { h with reach := f h.reach, rg := rg } := by
  obtain ⟨h1, h2, h3, -, h5, h6⟩ := State.here_parts hh
  refine State.here_of_parts h1 ?_ ?_ hrg ?_ h6
  · rw [State.reach?_modReach_same _ _ _ hf, h2]; rfl
  · exact (congrArg (fun l => look l h.cur.col) hctbs).trans h3
  · rw [State.launch?_modReach, hl, h5]

/-- Outside a handler a position's registers are those of its reach group. -/
theorem State.rgs_of_here {s : State} {h : Here} (hh : s.here = some h) (hsolo : h.cur.handler = false) :
    h.reach.rgs[h.cur.grp]? = some h.rg := by
  obtain ⟨-, -, -, hrg, -, -⟩ := State.here_parts hh
  simpa [Reach.rgOf, hsolo] using hrg

theorem State.here_issueChild {s : State} {h : Here} (d : BitVec 6) (hh : s.here = some h) (hsolo : h.cur.handler = false) :
    ∃ h', (s.issueChild h d).here = some h' ∧ h'.cur = h.cur ∧ h'.grp = h.grp ∧
      h'.rg = { h.rg with k := h.rg.k.set d.toNat h.childHandle, issued := h.rg.issued + 1 } := by
  have hset := State.here_modRG (fun rg => { rg with k := rg.k.set d.toNat h.childHandle }) hh
  have hcount := State.here_modReach (f := fun r => r.countIssue h.cur.grp h.rg.issued) (fun _ => ⟨rfl, rfl, rfl⟩) hset rfl rfl
    (rg := { h.rg with k := h.rg.k.set d.toNat h.childHandle, issued := h.rg.issued + 1 })
    (by simp [Reach.countIssue, Reach.modRg, Reach.rgOf, hsolo, State.rgs_of_here hh hsolo])
  exact ⟨_, State.here_modLaunch h.launch.id (f := fun l => { l with acted := true }) (fun _ => rfl) hcount, rfl, rfl, rfl⟩

theorem State.launches_issueChild (s : State) (h : Here) (d : BitVec 6) :
    (s.issueChild h d).launches = s.launches.map (fun x => if x.id = h.launch.id then { x with acted := true } else x) := by
  simp only [State.issueChild, State.modLaunch, beq_iff_eq]
  rfl

/-- A launch that begins stands last, so that a position stays in its own. -/
theorem State.here_beginning {s : State} {h : Here} (l : Launch) (id tide cls : Nat) (i : Instr) (hh : s.here = some h) :
    (({ s with launches := s.launches ++ [l], nextId := id } : State).later tide cls i).here = some h := by
  obtain ⟨h1, h2, h3, h4, h5, h6⟩ := State.here_parts hh
  have hl : (s.launches ++ [l]).find? (fun x => x.id == h.reach.launch) = some h.launch := by
    rw [List.find?_append, show s.launches.find? (fun x => x.id == h.reach.launch) = some h.launch from h5]; rfl
  exact State.here_of_parts h1 h2 h3 h4 hl h6

/-- A launch that begins: it stands last, and the end of its validation span is due (03 R98, R121). -/
theorem State.beginLaunch_spec (s : State) (iss : Option Launch) (issuer : Issuer) (ident : Nat) (rec : DWord) (declared : Nat)
    (late super : Bool) (tide : Nat) (rel : List Release) :
    ∃ l : Launch, s.beginLaunch iss issuer ident rec declared late super tide rel =
        ({ s with launches := s.launches ++ [l], nextId := s.nextId + 1 } : State).later (workAfter tide 512) 1
          (.validationSpanEnd (s.nextId + 1)) ∧
      l.id = s.nextId + 1 ∧ l.issuer = issuer ∧ l.ident = ident ∧ l.recAddr = rec ∧ l.declared = declared ∧ l.late = late ∧
      l.issueTide = tide ∧ l.state = .validating ∧ l.issuerSuper = super ∧ (l.refused = false ↔ l.status = 0) := by
  refine ⟨_, rfl, rfl, rfl, rfl, rfl, rfl, rfl, rfl, rfl, rfl, ?_⟩
  exact bne_eq_false_iff_eq

section
variable {s : State} {h : Here} (late : Bool) (d a b : BitVec 6) (hh : s.here = some h) (hsolo : h.cur.handler = false)
include hh hsolo

theorem exec_launch_null (hn : h.launch.record.childmax ≤ h.rg.issued) :
    exec (.launch late d a b) s = .next (s.modRG h (fun rg => { rg with k := rg.k.set d.toNat (BitVec.allOnes 64) })) := by
  refine (exec_withHere hh _).trans ?_
  simp only [State.rgs_of_here hh hsolo, Option.map_some, Option.getD_some, if_pos hn]
  rfl

theorem exec_launch_child (hn : h.rg.issued < h.launch.record.childmax) :
    exec (.launch late d a b) s = .next ((s.issueChild h d).beginLaunch (some h.launch)
      (.child h.launch.id h.rg.reach h.rg.grp h.rg.issued) h.childIdent (h.k a) (h.k b).toNat late h.super h.planned0
      (s.childRelease h)) := by
  refine (exec_withHere hh _).trans ?_
  simp only [State.rgs_of_here hh hsolo, Option.map_some, Option.getD_some, if_neg hn.not_ge]
  rfl

end

/-! ### Asking for a child launch -/

section
variable {s : State} {h : Here} (d : Dst) (a : BitVec 6) (hh : s.here = some h)
include hh

theorem exec_lstat_null (hx : readHandle h.rg (h.k a) = .null) : exec (.lstat d a) s = .next (s.putAll h d false 6) := by
  refine (exec_withHere hh _).trans ?_
  simp only [hx]; rfl

theorem exec_lstat_invalid (hx : readHandle h.rg (h.k a) = .invalid) :
    exec (.lstat d a) s = .next (s.putAll h d false 8) := by
  refine (exec_withHere hh _).trans ?_
  simp only [hx]; rfl

theorem exec_lstat_unobserved {o : Nat} (hx : readHandle h.rg (h.k a) = .valid o) (ho : look h.rg.observed o = none) :
    exec (.lstat d a) s = .next (s.putAll h d false 1) := by
  refine (exec_withHere hh _).trans ?_
  simp only [hx, ho]; rfl

theorem exec_lstat_observed {o : Nat} {st : Word} {l : Launch} (hx : readHandle h.rg (h.k a) = .valid o)
    (ho : look h.rg.observed o = some st) (hl : s.childOf h.reach.launch h.rg.reach h.rg.grp o = some l) :
    exec (.lstat d a) s = .next (s.putAll h d false ((lstatWord l st).setWidth 64)) := by
  refine (exec_withHere hh _).trans ?_
  simp only [hx, ho, hl]

theorem exec_lcancel_null (hx : readHandle h.rg (h.k a) = .null) : exec (.lcancel d a) s = .next (s.putAll h d false 6) := by
  refine (exec_withHere hh _).trans ?_
  simp only [hx]

theorem exec_lcancel_invalid (hx : readHandle h.rg (h.k a) = .invalid) :
    exec (.lcancel d a) s = .next (s.putAll h d false 8) := by
  refine (exec_withHere hh _).trans ?_
  simp only [hx]

theorem exec_lcancel_child {o : Nat} {l : Launch} (hx : readHandle h.rg (h.k a) = .valid o)
    (hl : s.childOf h.reach.launch h.rg.reach h.rg.grp o = some l) :
    exec (.lcancel d a) s = .next ((s.cancel l h.planned).putAll h d false (BitVec.ofNat 64 (cancelCode l h.planned))) := by
  refine (exec_withHere hh _).trans ?_
  simp only [hx, hl]

end

/-! ### The codes of a cancel (03 R124) -/

section
variable {l : Launch} {planned : Nat}

theorem cancelCode_refused (hr : l.refused = true) : cancelCode l planned = l.status := if_pos hr

theorem cancelCode_cancelled (hr : l.refused = false) (hc : l.cancelled = true) : cancelCode l planned = 3 := by
  simp [cancelCode, hr, hc]

theorem cancelCode_takes (hr : l.refused = false) (hp : planned < l.declared) : cancelCode l planned = 3 := by
  simp [cancelCode, hr, hp]

theorem cancelCode_passed (hr : l.refused = false) (hc : l.cancelled = false) (hp : l.declared ≤ planned) :
    cancelCode l planned = 4 := by
  simp [cancelCode, hr, hc, hp.not_gt]

end

section
variable {s : State} {h : Here} (d : Dst) (a : BitVec 6) {o : Nat} {l : Launch} (hh : s.here = some h)
  (hx : readHandle h.rg (h.k a) = .valid o) (hl : s.childOf h.reach.launch h.rg.reach h.rg.grp o = some l)
include hh hx hl

/-- A cancel that does not take effect only answers its code. -/
theorem exec_lcancel_without_effect {w : Nat} (hw : cancelCode l h.planned = w)
    (hn : l.refused = false → l.cancelled = false → l.declared ≤ h.planned) :
    exec (.lcancel d a) s = .next (s.putAll h d false (BitVec.ofNat 64 w)) := by
  have hkept : s.cancel l h.planned = s := if_neg fun ⟨hr, hc, hp⟩ => absurd hp (hn hr hc).not_gt
  rw [exec_lcancel_child d a hh hx hl, hkept, hw]

/-- A cancel that comes before the declared start takes effect and answers 3. -/
theorem exec_lcancel_takes (hr : l.refused = false) (hc : l.cancelled = false) (hp : h.planned < l.declared) :
    exec (.lcancel d a) s = .next ((s.cancelled l.id l.declared).putAll h d false 3) := by
  have htakes : s.cancel l h.planned = s.cancelled l.id l.declared := if_pos ⟨hr, hc, hp⟩
  rw [exec_lcancel_child d a hh hx hl, htakes, cancelCode_takes hr hp]
  rfl

end

end Sys2Proof.Machine

section
open Sys2Proof Sys2Proof.Machine

/-- Settles O44: a child launch begins in the state that has counted its issue; a handle is read by its fields, and each
answer is one value for every active lane. -/
theorem launchInstructions : Obligations.LaunchInstructions := by
  unfold Obligations.LaunchInstructions
  intro late texp dst d a b slot
  refine ⟨issuesWait_of (fun _ _ hh _ => exec_withHere hh _), laneInstr_of_putAll (fun _ _ hh => exec_withHere hh _),
    fun s h hh hsolo => ⟨exec_launch_null late d a b hh hsolo, fun hn => ?_⟩, fun _ _ => workAfter_in_frame,
    fun _ n => workAfter_next_frame n, ?_⟩
  · obtain ⟨l, hbegin, hid, hissuer, hident, hrec, hdecl, hlate, htide, hstate, hsuper, hrefused⟩ :=
      State.beginLaunch_spec (s.issueChild h d) (some h.launch) (.child h.launch.id h.rg.reach h.rg.grp h.rg.issued)
        h.childIdent (h.k a) (h.k b).toNat late h.super h.planned0 (s.childRelease h)
    obtain ⟨h', hissued, hcur, hgrp, hrg⟩ := State.here_issueChild d hh hsolo
    have hhere := State.here_beginning l (s.nextId + 1) (workAfter h.planned0 512) 1 (.validationSpanEnd (s.nextId + 1)) hissued
    refine ⟨_, l, (exec_launch_child late d a b hh hsolo hn).trans (congrArg _ hbegin), rfl, ⟨fun _ => rfl, fun _ _ => rfl⟩,
      congrArg (· ++ [l]) (State.launches_issueChild s h d), ?_, ?_, rfl, hid, hissuer, hident, hrec, hdecl, hlate, htide,
      hstate, hsuper, hrefused, rfl⟩
    · exact (congrArg (Option.map (fun x => x.rg)) hhere).trans (congrArg some hrg)
    · exact (State.mine_of_here hhere (by simp [hcur])).trans (congrArg some hgrp)
  · intro s h hr x null valid child gives
    have hvalid (o : Nat) : readHandle h.rg (h.k a) = .valid o ↔ valid o := readHandle_eq_valid_iff
    have hput {i : Instr} {w : Nat} (hi : exec i s = .next (s.putAll h dst false (BitVec.ofNat 64 w))) : gives i w :=
      ⟨_, hi, putAll_delivers _ hr⟩
    refine ⟨fun hnull => ?_, fun hnull hno => ?_, fun o ho hobs => ?_, fun o l st ho hobs hl hp => ?_, fun o l ho hl => ?_⟩
    · have hx : readHandle h.rg (h.k a) = .null := (congrArg _ hnull).trans (readHandle_null _)
      exact ⟨hput (exec_lstat_null dst a hr.1 hx), hput (exec_lcancel_null dst a hr.1 hx)⟩
    · have hx := readHandle_invalid hnull fun o => mt (hvalid o).1 (hno o)
      exact ⟨hput (exec_lstat_invalid dst a hr.1 hx), hput (exec_lcancel_invalid dst a hr.1 hx)⟩
    · exact hput (exec_lstat_unobserved dst a hr.1 ((hvalid o).2 ho) hobs)
    · refine hput ?_
      rw [← lstatWord_toNat hp, BitVec.ofNat_toNat]
      exact exec_lstat_observed dst a hr.1 ((hvalid o).2 ho) hobs hl
    · have hx := (hvalid o).2 ho
      refine ⟨fun hrf => ?_, fun hrf hc => ?_, fun hrf hc hd => ?_, fun hrf hc hd => ?_⟩
      · exact hput (exec_lcancel_without_effect dst a hr.1 hx hl (cancelCode_refused hrf) (by simp [hrf]))
      · exact hput (exec_lcancel_without_effect dst a hr.1 hx hl (cancelCode_cancelled hrf hc) (by simp [hc]))
      · exact hput (exec_lcancel_without_effect dst a hr.1 hx hl (cancelCode_passed hrf hc hd) (fun _ _ => hd))
      · exact ⟨_, _, exec_lcancel_takes dst a hr.1 hx hl hrf hc hd, rfl, putAll_delivers_of_cancelled l.id l.declared 3 hr⟩

end

/-! O49 fails in the clause on the writeback of an ended CTB: it asks for a transfer or a request wherever the entry has
pieces, but a request whose pieces ACCTL denies, every one, is neither accepted nor kept (07 R230). -/
namespace Sys2Proof.Machine

/-- Launch 0, with one writeback of 64 bytes that is left. -/
def Launch.backDenied : Launch :=
  { Launch.small true with
    wb := [{ gaddr := 0x10000, bstride := 0, sstride := 0, soff := 0, bytes := 64, zero := false }], wbLeft := [0] }

/-- Its CTB, which has ended. -/
def Ctb.backDenied : Ctb :=
  { Ctb.small with ended := some .ok, groups := [{ Group.start 0xFFFFFFFF with ended := true }] }

/-- The CTB in place on a device whose ACCTL registers let no engine write. -/
def State.backDenied : State :=
  { State.reset with
    launches := [Launch.backDenied], reaches := [{ Reach.small with ctbs := [(0, Ctb.backDenied)] }]
    regs := { Regs.reset with acctl := List.replicate 26 0 } }

theorem exec_writebackStart_backDenied :
    ∃ t, exec (.writebackStart 0 0) State.backDenied = .next t ∧ t.xfers = [] ∧ t.requests = [] :=
  ⟨_, rfl, rfl, rfl⟩

end Sys2Proof.Machine

section
open Sys2Proof.Machine

/-- Refutes O49: where ACCTL denies every piece of a writeback, it leaves no transfer and no request. -/
theorem not_launchLifecycle : ¬ Obligations.LaunchLifecycle := by
  unfold Obligations.LaunchLifecycle
  rintro ⟨hstep, -⟩
  obtain ⟨-, -, -, -, hback, -⟩ := hstep State.backDenied 0 Launch.backDenied rfl
  obtain ⟨t, ht, -, -, -, -, hasks⟩ := hback 0 0 0 0 Ctb.backDenied rfl rfl (by decide) (by decide) (by decide) rfl
  obtain ⟨u, hu, hxfers, hrequests⟩ := exec_writebackStart_backDenied
  obtain rfl : t = u := by injection ht.symm.trans hu
  obtain ⟨x, -, hx | ⟨ps, hx⟩⟩ := hasks _ rfl (by decide)
  · rw [hxfers] at hx; cases hx
  · rw [hrequests] at hx; cases hx

end

/-! O50 fails in the clause on a reach that is saved: it lets the saved reach differ from the resident one in four flags
only, but with each CTB the model keeps the writes of its scratch that a marked position does not see (`Ctb.kept`, 07 R234). -/
namespace Sys2Proof.Machine

/-- A write of the scratch word at 0 under stamp 0. -/
def Fresh.atZero : Fresh where
  addr := 0
  old := 0
  mask := 0xFF
  by_ := .engine 1
  path := 0
  stamp := 0

/-- A reach in slot 0 of row 0 that is asked to leave; its group has marked a position with stamp 0. -/
def Reach.marked : Reach :=
  { Reach.small with
    ctbs := [(0, { Ctb.small with groups := [{ Group.start 0xFFFFFFFF with marks := [(0, 0)] }] })], leaving := true }

/-- The reach, with its save landed and a write of its scratch that its marked position does not see. -/
def State.markedSave : State :=
  { State.reset with
    launches := [Launch.small true], reaches := [Reach.marked], cores := [(0, { Core.reset with fresh := [Fresh.atZero] })]
    xfers := [{ State.reset.ownXfer .save 0 0 0 0 with landed := true }] }

theorem exec_ctbSave_markedSave : ∃ t, exec (.ctbSave 0 0) State.markedSave = .next t ∧
    ∀ r ∈ t.reaches, r.ctbs.map (fun c => c.2.kept) = [[Fresh.atZero]] :=
  ⟨_, rfl, by decide⟩

end Sys2Proof.Machine

section
open Sys2Proof.Machine

/-- Refutes O50: the CTB of the saved reach keeps a write that it did not hold while the reach was resident. -/
theorem not_residency : ¬ Obligations.Residency := by
  unfold Obligations.Residency
  rintro ⟨-, hsave, -⟩
  obtain ⟨hleaves, -⟩ := hsave State.markedSave 0 0 Reach.marked (Launch.small true) rfl rfl rfl
  obtain ⟨t, r, ht, hr, -, -, -, hsame⟩ := hleaves (by decide) (by decide)
  obtain ⟨u, hu, hkept⟩ := exec_ctbSave_markedSave
  obtain rfl : t = u := by injection ht.symm.trans hu
  have hctbs : r.ctbs = Reach.marked.ctbs := (congrArg (fun x : Reach => x.ctbs) hsame :)
  have hempty : r.ctbs.map (fun c => c.2.kept) = [[]] := by rw [hctbs]; rfl
  exact absurd (hempty.symm.trans (hkept r hr)) (by decide)

end

/-! O2: the uniform transfers (04 R137 to R139, 02 R40). Each writes registers of the reach group at the headland, or is refused
there for a misaligned indirect target. -/
namespace Sys2Proof.Machine

theorem State.goto_setK (s : State) (h : Here) (d : BitVec 6) (v x : DWord) :
    (s.setK h d v).goto h x = s.modRG h (fun rg => { rg with k := rg.k.set d.toNat v, npc := x }) :=
  State.modRG_modRG s h _ _

/-! ### Conditions -/

/-- What each condition of 04 Table 4.6 compares. -/
theorem brcHolds_iff (cc : BrCond) (x y : DWord) : brcHolds cc x y = true ↔ match cc with
    | .eq => x = y
    | .ne => ¬ x = y
    | .lt => x.toInt < y.toInt
    | .ge => y.toInt ≤ x.toInt
    | .ltn => x.toNat < y.toNat
    | .gen => y.toNat ≤ x.toNat
    | .z => x = 0
    | .nz => ¬ x = 0 := by
  cases cc <;> simp [brcHolds, BitVec.slt, BitVec.ult]

section
variable {cc : BrCond} {p : DWord → DWord → Prop} [∀ x y, Decidable (p x y)] (a b : BitVec 6) (off : Word)

/-- A branch that is not taken changes nothing. -/
theorem brc_headInstr (hp : ∀ x y, brcHolds cc x y = true ↔ p x y) : HeadInstr (.brc cc a b off) Always
    (fun _ h rg => if p (h.k a) (h.k b) then { rg with npc := h.cur.pc + 4 * off.signExtend 64 } else rg) := by
  refine headInstr_of fun s h hh _ => (exec_withHere hh _).trans (congrArg _ ?_)
  simp only [hp]
  split
  · rfl
  · exact (State.modRG_id s h).symm

theorem brc_headInstr_unless (hp : ∀ x y, brcHolds cc x y = true ↔ ¬ p x y) : HeadInstr (.brc cc a b off) Always
    (fun _ h rg => if p (h.k a) (h.k b) then rg else { rg with npc := h.cur.pc + 4 * off.signExtend 64 }) := by
  simpa only [ite_not] using brc_headInstr a b off hp

end

/-! ### Counting down -/

theorem loopCount_eq_zero {x : DWord} (hx : x.toNat ≤ 1) : (if x = 0 then 0 else x - 1) = 0 := by
  split
  · rfl
  · bv_omega

theorem loop_headInstr (d a : BitVec 6) (off : Word) : HeadInstr (.loop d a off) Always (fun _ h rg =>
    if (h.k a).toNat ≤ 1 then { rg with k := rg.k.set d.toNat 0 }
    else { rg with k := rg.k.set d.toNat (h.k a - 1), npc := h.cur.pc + 4 * off.signExtend 64 }) := by
  refine headInstr_of fun s h hh _ => (exec_withHere hh _).trans (congrArg _ ?_)
  by_cases hlast : (h.k a).toNat ≤ 1
  · simp only [loopCount_eq_zero hlast, hlast, if_true]
    rfl
  · have hpos : h.k a ≠ 0 := by bv_omega
    have hgoes : h.k a - 1 ≠ 0 := by bv_omega
    simp only [hlast, hpos, hgoes, if_false, State.goto_setK]
    rfl

/-! ### Indirect targets -/

theorem badTarget_iff (x : DWord) : badTarget x = true ↔ ¬ x.toNat % 4 = 0 := by
  simp [badTarget, ← BitVec.toNat_inj]

section
variable {s : State} {h : Here} (d a : BitVec 6) (hh : s.here = some h)
include hh

theorem exec_callK_aligned (hx : (h.k a).toNat % 4 = 0) : exec (.callK d a) s =
    .next (s.modRG h (fun rg => { rg with k := rg.k.set d.toNat (h.cur.pc + BitVec.ofNat 64 h.cur.ilen), npc := h.k a })) := by
  refine (exec_withHere hh _).trans (congrArg _ ?_)
  rw [if_neg (mt (badTarget_iff _).1 (not_not_intro hx)), State.goto_setK]
  rfl

theorem exec_callK_misaligned (hx : ¬ (h.k a).toNat % 4 = 0) :
    exec (.callK d a) s = .next (s.raiseWide h cIllegalOperand 0) :=
  (exec_withHere hh _).trans (congrArg _ (if_pos ((badTarget_iff _).2 hx)))

theorem exec_ret_aligned (hx : (h.k a).toNat % 4 = 0) :
    exec (.ret a) s = .next (s.modRG h (fun rg => { rg with npc := h.k a })) :=
  (exec_withHere hh _).trans (congrArg _ (if_neg (mt (badTarget_iff _).1 (not_not_intro hx))))

theorem exec_ret_misaligned (hx : ¬ (h.k a).toNat % 4 = 0) : exec (.ret a) s = .next (s.raiseWide h cIllegalOperand 0) :=
  (exec_withHere hh _).trans (congrArg _ (if_pos ((badTarget_iff _).2 hx)))

end

end Sys2Proof.Machine

section
open Sys2Proof Sys2Proof.Machine

/-- Settles O2: each transfer is one change of the registers of its reach group. -/
theorem transfers : Obligations.Transfers := by
  unfold Obligations.Transfers
  refine ⟨fun a b off => ?_, fun d a off => ?_⟩
  · exact ⟨headInstr_of fun _ _ hh _ => exec_withHere hh _, brc_headInstr a b off (brcHolds_iff .eq),
      brc_headInstr_unless a b off (brcHolds_iff .ne), brc_headInstr a b off (brcHolds_iff .lt),
      brc_headInstr a b off (brcHolds_iff .ge), brc_headInstr a b off (brcHolds_iff .ltn),
      brc_headInstr a b off (brcHolds_iff .gen), brc_headInstr a b off (brcHolds_iff .z),
      brc_headInstr_unless a b off (brcHolds_iff .nz)⟩
  · exact ⟨loop_headInstr d a off,
      headInstr_of fun _ _ hh _ => (exec_withHere hh _).trans (congrArg _ (State.goto_setK _ _ _ _ _)),
      headInstr_of fun _ _ hh hok => exec_callK_aligned d a hh hok, headInstr_of fun _ _ hh hok => exec_ret_aligned a hh hok,
      fun _ _ hh hbad => exec_callK_misaligned d a hh hbad, fun _ _ hh hbad => exec_ret_misaligned a hh hbad⟩

end

/-! O3: branch tables (04 R133, R140, R141). `brx.k` is a transfer; `brx.v` and a table step change the header at the headland and
the lanes of the executing core. -/
namespace Sys2Proof.Machine

/-! ### Entries -/

section
variable {s : State} {h : Here} {a : BitVec 6} {t : BrxDesc} (hh : s.here = some h)
include hh

theorem exec_brxK_join (hi : t.n.toNat ≤ (h.k a).toNat) :
    exec (.brxK a t) s = .next (s.modRG h (fun rg => { rg with npc := h.cur.pc + 4 * t.joff.signExtend 64 })) :=
  (exec_withHere hh _).trans (congrArg _ (if_neg hi.not_gt))

theorem exec_brxK_entry {x : DWord} (hi : (h.k a).toNat < t.n.toNat)
    (hx : s.tableTarget h.launch h.cur.pc t (h.k a).toNat = .ok x) :
    exec (.brxK a t) s = .next (s.modRG h (fun rg => { rg with npc := x })) := by
  refine (exec_withHere hh _).trans (congrArg _ ?_)
  simp only [hi, hx, if_true]
  rfl

end

/-! ### The lanes of a walk -/

/-- What an index captures of lane `k`: 0xFF where the lane is not active or its value names no entry (04 R141). -/
theorem captured_eq (h : Here) (a : BitVec 11) (n : Nat) : captured h a n = mkLanes (fun k =>
    if bit h.grp.active k = true ∧ (h.grp.vlane a.toNat k).toNat < n then (h.grp.vlane a.toNat k).setWidth 8 else 0xFF) := by
  simp [captured]

theorem mkLanes_getD {α : Type} (f : Nat → α) (x : α) {k : Nat} (hk : k < 32) : (mkLanes f).getD k x = f k := by
  simp [mkLanes, hk]

theorem bit_and (x y : Word) (k : Nat) : bit (x &&& y) k = (bit x k && bit y k) := BitVec.getLsbD_and

theorem bit_walkLanes (idx : List (BitVec 8)) (e : Nat) {k : Nat} (hk : k < 32) :
    bit (walkLanes idx e) k = ((idx.getD k 0xFF).toNat == e) := bit_maskOf _ k hk

/-- The lanes of entry 0: the active ones whose value is 0. A table has at most 255 entries, so an index takes the whole value. -/
theorem bit_walkLanes_captured_zero (h : Here) (a : BitVec 11) {t : BrxDesc} (hn : 0 < t.n.toNat) {k : Nat} (hk : k < 32) :
    bit (walkLanes (captured h a t.n.toNat) 0) k = (bit h.grp.active k && h.grp.vlane a.toNat k == 0) := by
  rw [bit_walkLanes _ _ hk, captured_eq, mkLanes_getD _ _ hk]
  generalize h.grp.vlane a.toNat k = x
  have hlt := t.n.isLt
  split
  next hin =>
    obtain ⟨hact, hx⟩ := hin
    have hzero : (x.setWidth 8).toNat = 0 ↔ x = 0 := by
      rw [BitVec.toNat_setWidth, ← BitVec.toNat_inj]
      simp
      omega
    rw [hact, Bool.true_and, Bool.eq_iff_iff, beq_iff_eq, beq_iff_eq, hzero]
  next hout =>
    by_cases hact : bit h.grp.active k = true
    · have hx : x ≠ 0 := by
        rintro rfl
        exact hout ⟨hact, by simpa using hn⟩
      rw [hact, Bool.true_and, beq_eq_false_iff_ne.2 hx]
      rfl
    · simp [hact]

/-! ### Opening a walk -/

/-- The lane parts of a `brx.v`: its walk, then the last read of its source. -/
def Group.openWalk (g : Group) (idx : List (BitVec 8)) (a : Nat) (last : Bool) : Group :=
  { (if last then (g.pushWalk idx).free a else g.pushWalk idx) with cursor := 32 }

/-- What opening a walk changes: the divergence stack, DIV, and what the last read frees. -/
theorem Group.openWalk_rest (g : Group) (idx : List (BitVec 8)) (a : Nat) (last : Bool) :
    ({ g.openWalk idx a last with dstack := [], div := 0, vregs := [], pend := [], cursor := 0 } : Group) =
      { g with dstack := [], div := 0, vregs := [], pend := [], cursor := 0 } := by
  cases last
  · rfl
  · exact congrArg (fun x : Group => ({ x with dstack := [], div := 0, cursor := 0 } : Group)) (Group.free_rest (g.pushWalk idx) a)

theorem Group.openWalk_dstack (g : Group) (idx : List (BitVec 8)) (a : Nat) (last : Bool) :
    (g.openWalk idx a last).dstack = { saved := g.div, idx := some idx } :: g.dstack := by
  cases last
  · rfl
  · exact congrArg (fun x : Group => x.dstack) (Group.free_rest (g.pushWalk idx) a)

theorem Group.openWalk_div (g : Group) (idx : List (BitVec 8)) (a : Nat) (last : Bool) :
    (g.openWalk idx a last).div = g.div &&& walkLanes idx 0 := by
  cases last
  · rfl
  · exact congrArg (fun x : Group => x.div) (Group.free_rest (g.pushWalk idx) a)

theorem Group.openWalk_vreg? (g : Group) (idx : List (BitVec 8)) (a : Nat) (last : Bool) (n : Nat) :
    (g.openWalk idx a last).vreg? n = if last = true ∧ n = a then none else g.vreg? n := by
  cases last
  · rfl
  · simp only [true_and]
    exact Group.vreg?_free (g.pushWalk idx) a n

/-- The header of a `brx.v` at the headland, and the transfer to entry 0. -/
def RGroup.openWalk (rg : RGroup) (x pc entry : DWord) (t : BrxDesc) : RGroup :=
  { rg with npc := x, hstack := .walk (BitVec.ofInt 22 (brxOffset pc entry)) 0 pc t :: rg.hstack }

theorem exec_brxV {s : State} {h : Here} {x : DWord} {a : BitVec 11} (last : Bool) {t : BrxDesc} (hh : s.here = some h)
    (hw : h.grp.written a.toNat = true)
    (hok : h.cur.head = true → s.tableTarget h.launch h.cur.pc t 0 = .ok x ∧ stackDepth h.rg.hstack + 10 ≤ 64 ∧
      -2097152 ≤ brxOffset h.cur.pc h.launch.record.entry ∧ brxOffset h.cur.pc h.launch.record.entry ≤ 2097151) :
    exec (.brxV a last t) s = .next ((s.modRG h (fun rg =>
      if h.cur.head then rg.openWalk x h.cur.pc h.launch.record.entry t else rg)).modG h
        (fun g => g.openWalk (captured h a t.n.toNat) a.toNat last)) := by
  refine (exec_withHere hh _).trans (congrArg _ ?_)
  have hlanes (u : State) : (if last then (u.modG h (fun g => g.pushWalk (captured h a t.n.toNat))).modG h (fun g => g.free a.toNat)
      else u.modG h (fun g => g.pushWalk (captured h a t.n.toNat))).complete h =
        u.modG h (fun g => g.openWalk (captured h a t.n.toNat) a.toNat last) := by
    cases last
    · exact State.modG_modG _ _ _ _
    · simp only [if_true, State.complete, State.modG_modG]
      rfl
  cases hhead : h.cur.head with
  | false =>
    simp only [hw, Bool.not_false, if_true, Bool.true_eq_false, false_and, if_false, Bool.false_eq_true, State.modRG_id]
    exact hlanes s
  | true =>
    obtain ⟨hx, hdepth, hlo, hhi⟩ := hok hhead
    simp only [hw, hx, Bool.not_true, hlo.not_gt, hhi.not_gt, hdepth.not_gt, or_self, if_true, Bool.true_eq_false, false_and,
      if_false, Bool.false_eq_true]
    exact hlanes _

/-! ### Table steps -/

/-- The lanes of entry `e` of the walk on top. -/
def Group.selectEntry (g : Group) (e : Nat) : Group :=
  { (match g.dstack with
    | f :: _ => { g with div := f.saved &&& walkLanes (f.idx.getD []) e }
    | [] => g) with cursor := 32 }

theorem Group.selectEntry_cons {g : Group} {f : DFrame} {l : List DFrame} (hg : g.dstack = f :: l) (e : Nat) :
    g.selectEntry e = { g with div := f.saved &&& walkLanes (f.idx.getD []) e, cursor := 32 } := by
  simp [Group.selectEntry, hg]

theorem exec_tableStep {s : State} {h : Here} {brx : BitVec 22} {e : BitVec 8} {addr x : DWord} {d : BrxDesc} {rest : List Hdr}
    (hh : s.here = some h) (htop : h.rg.hstack = .walk brx e addr d :: rest)
    (hx : h.cur.head = true → s.tableTarget h.launch addr d (e.toNat + 1) = .ok x) :
    exec .tableStep s = .next ((s.modRG h (fun rg => if h.cur.head then
      { rg with npc := x, hstack := .walk brx (BitVec.ofNat 8 (e.toNat + 1)) addr d :: rest } else rg)).modG h
        (fun g => g.selectEntry (if h.cur.head then e.toNat + 1 else e.toNat))) := by
  refine (exec_withHere hh _).trans (congrArg _ ?_)
  cases hhead : h.cur.head with
  | false =>
    simp only [htop, Bool.false_eq_true, if_false, State.modRG_id]
    exact State.modG_modG _ _ _ _
  | true =>
    simp only [htop, hx hhead, if_true]
    exact State.modG_modG _ _ _ _

end Sys2Proof.Machine

section
open Sys2Proof Sys2Proof.Machine

/-- Settles O3: `brx.k` is a transfer; a walk and its steps are one change at the headland and one on the core. -/
theorem tableWalks : Obligations.TableWalks := by
  unfold Obligations.TableWalks
  intro a6 a last t
  refine ⟨headInstr_of fun _ _ hh hi => exec_brxK_join hh hi, fun x => headInstr_of fun _ _ hh hok => exec_brxK_entry hh hok.1 hok.2,
    fun s h x hh hw _ hn hok => ?_, fun s h brx e addr d rest f l x hh htop hg hx => ?_⟩
  · refine ⟨_, h.grp.openWalk (captured h a t.n.toNat) a.toNat last, exec_brxV last hh hw hok, onlyHere_mod hh _ _, rfl,
      Group.openWalk_rest _ _ _ _, ?_, fun k hk => ?_, fun n hkept => ?_, fun hlast => ?_⟩
    · rw [Group.openWalk_dstack, captured_eq]
    · rw [Group.openWalk_div, bit_and, bit_walkLanes_captured_zero h a hn hk, Bool.and_assoc]
    · have hnot : ¬ (last = true ∧ n = a.toNat) := fun hfreed => hkept.elim (· hfreed.2) (by simp [hfreed.1])
      rw [Group.openWalk_vreg?, if_neg hnot]
    · rw [Group.openWalk_vreg?, if_pos ⟨hlast, rfl⟩]
  · refine ⟨_, _, exec_tableStep hh htop hx, onlyHere_mod hh _ _, ?_, fun k hk => ?_⟩
    · rw [Group.selectEntry_cons hg]
    · rw [Group.selectEntry_cons hg, bit_and, bit_walkLanes _ _ hk]

end

/-! O4: masked regions (04 R131, R142). The headland checks the place and changes the header; each core then saves, inverts or
restores its lanes. -/
namespace Sys2Proof.Machine

section
variable {s : State} {h : Here} {ok : Bool} {hdr : List Hdr → List Hdr} {core : Group → Group}

/-- A stack operation that the headland does not refuse: its header there, then the core's part. -/
theorem State.region_of_ok (hok : h.cur.head = true → ok = true) : s.region h ok hdr core =
    (if h.cur.head then s.modRG h (fun rg => { rg with hstack := hdr rg.hstack }) else s).modG h
      (fun g => { core g with cursor := 32 }) := by
  have hgoes : ¬ (h.cur.head && !ok) = true := by
    intro hrefused
    obtain ⟨hhead, hnot⟩ := Bool.and_eq_true_iff.1 hrefused
    simp [hok hhead] at hnot
  rw [State.region, if_neg hgoes]
  exact State.modG_modG _ _ _ _

theorem State.region_refused (hhead : h.cur.head = true) (hok : ok = false) :
    s.region h ok hdr core = s.raiseWide h cIllegalOperand 0 :=
  if_pos (by simp [hhead, hok])

end

section
variable {i : Instr} {ok : Here → Bool} {hdr : List Hdr → List Hdr} {core : Group → Group}
  (hi : ∀ s h, s.here = some h → exec i s = .next (s.region h (ok h) hdr core))
include hi

theorem bothInstr_of_region {p : Here → Prop} (hp : ∀ h, p h → ok h = true) :
    BothInstr i (fun _ h => p h) (fun _ _ rg => { rg with hstack := hdr rg.hstack }) (fun _ _ g => core g) :=
  bothInstr_of fun s h hh hok => (hi s h hh).trans (congrArg _ (State.region_of_ok fun hhead => hp h (hok hhead)))

theorem refusedWide_of_region {p : Here → Prop} (hp : ∀ h, p h → ok h = false) :
    RefusedWide i (fun _ h => h.cur.head = true ∧ p h) cIllegalOperand (fun _ => 0) :=
  fun s h hh hbad => (hi s h hh).trans (congrArg _ (State.region_refused hbad.1 (hp h hbad.2)))

end

/-- What an instruction with both parts leaves of the executing group. -/
theorem BothInstr.mine {i : Instr} {ok : State → Here → Prop} {f : State → Here → RGroup → RGroup}
    {g : State → Here → Group → Group} (hi : BothInstr i ok f g) {s : State} {h : Here} (hh : s.here = some h) (hok : ok s h) :
    ∃ t, exec i s = .next t ∧ t.mine h = some { g s h h.grp with cursor := 32 } := by
  obtain ⟨t, ht, -, hmine, -⟩ := hi s h hh fun _ => hok
  exact ⟨t, ht, hmine⟩

/-- `mif` keeps the lanes of a mask `c` of the group, which DIV and the present lanes bound. -/
def Group.openThen (c : Group → Word) (g : Group) : Group :=
  { g with dstack := { saved := g.div, idx := none } :: g.dstack, div := g.div &&& c g &&& g.present }

/-- `melse` takes the other side of the region on top. -/
def Group.takeElse (g : Group) : Group :=
  match g.dstack with
  | x :: _ => { g with div := x.saved &&& ~~~g.div }
  | [] => g

/-- `mend` restores DIV from the region on top, and closes it. -/
def Group.closeRegion (g : Group) : Group :=
  match g.dstack with
  | x :: l => { g with div := x.saved, dstack := l }
  | [] => g

theorem Group.takeElse_cons {g : Group} {x : DFrame} {l : List DFrame} (hg : g.dstack = x :: l) :
    g.takeElse = { g with div := x.saved &&& ~~~g.div } := by
  simp [Group.takeElse, hg]

theorem Group.closeRegion_cons {g : Group} {x : DFrame} {l : List DFrame} (hg : g.dstack = x :: l) :
    g.closeRegion = { g with div := x.saved, dstack := l } := by
  simp [Group.closeRegion, hg]

theorem exec_mif {s : State} {h : Here} (neg : Bool) (a : BitVec 4) (hh : s.here = some h) : exec (.mif neg a) s = .next
    (s.region h (decide (stackDepth h.rg.hstack + 2 ≤ 64)) (fun l => .thenSide :: l)
      (Group.openThen fun g => if neg then ~~~(g.mask a) else g.mask a)) :=
  exec_withHere hh _

theorem exec_melse {s : State} {h : Here} (hh : s.here = some h) : exec .melse s = .next
    (s.region h (h.rg.hstack.head? == some .thenSide) (fun l => .elseSide :: l.tail) Group.takeElse) := by
  refine (exec_withHere hh _).trans ?_
  simp only [List.drop_one]
  rfl

theorem exec_mend {s : State} {h : Here} (hh : s.here = some h) : exec .mend s = .next
    (s.region h (h.rg.hstack.head? == some .thenSide || h.rg.hstack.head? == some .elseSide) List.tail Group.closeRegion) := by
  refine (exec_withHere hh _).trans ?_
  simp only [List.drop_one]
  rfl

end Sys2Proof.Machine

section
open Sys2Proof Sys2Proof.Machine

/-- Settles O4: `mif`, `melse` and `mend` are stack operations with a check at the headland. -/
theorem maskedRegions : Obligations.MaskedRegions := by
  unfold Obligations.MaskedRegions
  intro a top
  have hmif (neg : Bool) := bothInstr_of_region (fun s h hh => exec_mif neg a hh)
    (p := fun h => stackDepth h.rg.hstack + 2 ≤ 64) fun _ => decide_eq_true
  have hmelse := bothInstr_of_region (fun s h hh => exec_melse hh) (p := fun h => top h = some .thenSide) fun _ => beq_iff_eq.2
  have hmend := bothInstr_of_region (fun s h hh => exec_mend hh)
    (p := fun h => top h = some .thenSide ∨ top h = some .elseSide) fun h hp => by simpa using hp
  refine ⟨hmif false, hmif true, fun f l => ⟨hmelse, fun s h hh hp hg => ?_, fun s h hh hp hg => ?_⟩, hmend, fun neg => ?_, ?_, ?_⟩
  · simpa only [Group.takeElse_cons hg] using hmelse.mine hh hp
  · simpa only [Group.closeRegion_cons hg] using hmend.mine hh hp
  · exact refusedWide_of_region (fun s h hh => exec_mif neg a hh) (p := fun h => 64 < stackDepth h.rg.hstack + 2)
      fun h hp => decide_eq_false hp.not_ge
  · exact refusedWide_of_region (fun s h hh => exec_melse hh) (p := fun h => top h ≠ some .thenSide)
      fun h hp => beq_eq_false_iff_ne.2 hp
  · exact refusedWide_of_region (fun s h hh => exec_mend hh) (p := fun h => top h ≠ some .thenSide ∧ top h ≠ some .elseSide)
      fun h hp => by simpa using hp

end

/-! O5: the predicate and the mask registers (04 R136, R143 to R145). Each is one change of the executing group; `mcnt` and `mfirst`
put one value in every active lane. -/
namespace Sys2Proof.Machine

/-- An instruction that changes the executing group and completes its position. -/
theorem groupInstr_of_complete {i : Instr} {f : Group → Group}
    (hi : ∀ s h, s.here = some h → exec i s = .next ((s.modG h f).complete h)) : GroupInstr i Always (fun _ g => f g) :=
  groupInstr_of fun s h hh _ => (hi s h hh).trans (congrArg _ (State.modG_modG _ _ _ _))

theorem onesOf_eq_countP (w : Word) : onesOf w = (List.range 32).countP (fun k => w.getLsbD k) :=
  List.countP_eq_length_filter.symm

/-- The lowest 1 bit is the one below which every bit is 0. -/
theorem firstOf_eq {w : Word} {n : Nat} (hn : n < 32) (hone : w.getLsbD n = true) (hlow : ∀ k, k < n → w.getLsbD k = false) :
    firstOf w = n := by
  have hfind : (List.range 32).find? (fun k => bit w k) = some n :=
    List.find?_range_eq_some.2 ⟨hone, List.mem_range.2 hn, fun k hk => by simp [bit, hlow k hk]⟩
  simp [firstOf, hfind]

theorem firstOf_zero : firstOf 0 = 32 := rfl

end Sys2Proof.Machine

section
open Sys2Proof Sys2Proof.Machine

/-- Settles O5: all but `nop`, `mcnt` and `mfirst` are one change of the group, after which its position is complete. -/
theorem predicateAndMasks : Obligations.PredicateAndMasks := by
  unfold Obligations.PredicateAndMasks
  refine ⟨fun d a b => ?_, fun d a s h hr => ⟨?_, fun n hn hone hlow => ?_, fun hzero => ?_⟩⟩
  · refine ⟨groupInstr_of fun _ _ hh _ => exec_withHere hh _, ?_, ?_, ?_, ?_, ?_, ?_, ?_, ?_, ?_, ?_⟩
    all_goals exact groupInstr_of_complete fun _ _ hh => exec_withHere hh _
  · refine ⟨_, exec_withHere hr.1 _, ?_⟩
    rw [onesOf_eq_countP]
    exact putAll_delivers _ hr
  · refine ⟨_, exec_withHere hr.1 _, ?_⟩
    rw [firstOf_eq hn hone hlow]
    exact putAll_delivers _ hr
  · refine ⟨_, exec_withHere hr.1 _, ?_⟩
    rw [hzero, firstOf_zero]
    exact putAll_delivers _ hr

end

/-! O6: passing along the swell (04 R146, R147). The core receives as a lane operation does; then it has sent its own values. -/
namespace Sys2Proof.Machine

/-- What a `pass` delivers in lane `k`: the sender's value, or the edge value where there is none. -/
def State.passed (s : State) (h : Here) (south : Bool) (a : BitVec 11) (k : Nat) : DWord :=
  match s.delivered h south with
  | some l => (l.getD k 0).setWidth 64
  | none => if h.launch.record.edge = 0 then 0 else (h.grp.vlane a.toNat k).setWidth 64

/-- The part of a `pass` that receives, as the skeleton runs it. -/
def State.passIn (s : State) (h : Here) (south : Bool) (d : Dst) (a : BitVec 11) (last : Bool) : VecIn :=
  { ops := [.src (.v a last) false], dst := some d, steps := false
    lane := fun k vs => { val := match s.delivered h south with
      | some l => (l.getD k 0).setWidth 64
      | none => if h.launch.record.edge = 0 then 0 else vs.getD 0 0 } }

section
variable {s : State} {h : Here} {south : Bool} {d : Dst} {a : BitVec 11} {last : Bool}
  (hr : Runs s h [.src (.v a last) false] (dstNames d false))
include hr

theorem passIn_delivers : Delivers s (s.vec h (s.passIn h south d a last) none justVals) h [.src (.v a last) false] d false 1
    (s.passed h south a) 0 := by
  have hput := vec_delivers (v := s.passIn h south d a last) rfl rfl hr fun _ _ => rfl
  change Delivers _ _ _ _ _ _ _ (s.passed h south a) (h.lanes.foldl (fun x _ => x ||| (0 : Word)) 0) at hput
  rwa [List.foldl_fixed' fun _ => BitVec.or_zero] at hput

/-- A core that resumes after a fault at the position has sent its values already. -/
theorem State.pass_eq : s.pass h south d a last =
    if h.grp.again then s.vec h (s.passIn h south d a last) none justVals
    else (s.vec h (s.passIn h south d a last) none justVals).modG h (fun g =>
      { g with passed := some (south, h.rg.pos, mkLanes (fun k => h.grp.vlane a.toNat k)) }) := by
  obtain ⟨hfaults, -⟩ := passIn_delivers (south := south) hr
  obtain ⟨-, hcursor, -⟩ := hr
  have hlen := congrArg List.length hfaults
  cases hagain : h.grp.again with
  | true => exact if_neg (by simp [hagain])
  | false => exact if_pos ⟨hlen, hcursor, hagain⟩

end

theorem exec_passE {s : State} {h : Here} (d : Dst) (a : BitVec 11) (last : Bool) (hh : s.here = some h) :
    exec (.passE d a last) s = .next (s.pass h false d a last) :=
  exec_withHere hh _

theorem exec_passS {s : State} {h : Here} (d : Dst) (a : BitVec 11) (last : Bool) (hh : s.here = some h)
    (hs : h.launch.south = true) : exec (.passS d a last) s = .next (s.pass h true d a last) :=
  (exec_withHere hh _).trans (congrArg _ (if_neg (by simp [hs])))

theorem exec_passS_refused {s : State} {h : Here} (d : Dst) (a : BitVec 11) (last : Bool) (hh : s.here = some h)
    (hc : h.grp.cursor < 32) (hs : h.launch.south = false) :
    exec (.passS d a last) s = .next (s.raiseWide h cIllegalOperand 0) :=
  (exec_withHere hh _).trans (congrArg _ (if_pos (by simp [hs]; omega)))

end Sys2Proof.Machine

section
open Sys2Proof Sys2Proof.Machine

/-- Settles O6: a `pass` is a lane operation, after which the values of the source are sent. -/
theorem passing : Obligations.Passing := by
  unfold Obligations.Passing
  intro south d a last s h
  refine ⟨fun hr hsouth => ⟨_, passIn_delivers hr, ?_⟩, fun hh hc hs => exec_passS_refused d a last hh hc hs⟩
  rw [← State.pass_eq hr]
  cases south with
  | true => exact exec_passS d a last hr.1 (hsouth rfl)
  | false => exact exec_passE d a last hr.1

end

/-! O46: the ends of groups and CTBs (04 R148, 15 R402, R403, R426). A group that ends is finished on its core, after which its CTB is
closed if it was the last; an abnormal end stops the CTB with all its groups. Both record the end with the launch. -/
namespace Sys2Proof.Machine

/-! ### Events -/

theorem mem_insertEvent {e x : Event} {l : List Event} : x ∈ insertEvent e l ↔ x = e ∨ x ∈ l := by
  induction l with
  | nil => simp [insertEvent]
  | cons y l ih =>
    simp only [insertEvent]
    split
    · simp
    · simp [ih, or_left_comm]

theorem State.mem_agenda_later_now (s : State) (cls : Nat) (i : Instr) :
    { tide := s.time, cls := cls, task := .op i } ∈ (s.later s.time cls i).agenda :=
  mem_insertEvent.2 (.inl (by rw [max_self]))

theorem State.mem_agenda_later {s : State} {x : Event} (tide cls : Nat) (i : Instr) (hx : x ∈ s.agenda) :
    x ∈ (s.later tide cls i).agenda :=
  mem_insertEvent.2 (.inr hx)

/-! ### A CTB and a launch after a change of them -/

theorem State.reach?_modCtb (s : State) (row slot col : Nat) (f : Ctb → Ctb) :
    (s.modCtb row slot col f).reach? row slot = (s.reach? row slot).map (fun r => r.modCtb col f) :=
  State.reach?_modReach_same _ _ _ (Reach.keeps_modCtb _ _)

theorem State.ctb?_of_reach? {s : State} {row slot col : Nat} {r : Reach} {c : Ctb} (hr : s.reach? row slot = some r)
    (hc : r.ctb? col = some c) : s.ctb? row slot col = some c := by
  rw [State.ctb?, hr]
  exact hc

theorem State.ctb?_modCtb_same (s : State) (row slot col : Nat) (f : Ctb → Ctb) :
    (s.modCtb row slot col f).ctb? row slot col = (s.ctb? row slot col).map f := by
  rw [State.ctb?, State.ctb?, State.reach?_modCtb]
  cases s.reach? row slot with
  | none => rfl
  | some r => exact Reach.ctb?_modCtb_same r col f

theorem State.id_of_launch? {s : State} {n : Nat} {l : Launch} (hl : s.launch? n = some l) : l.id = n :=
  beq_iff_eq.1 (List.find?_some (p := fun l : Launch => l.id == n) hl)

theorem State.launch?_modLaunch_same {s : State} {n : Nat} {l : Launch} {f : Launch → Launch} (hf : ∀ l, (f l).id = l.id)
    (hl : s.launch? n = some l) : (s.modLaunch n f).launch? n = some (f l) := by
  rw [State.launch?_modLaunch s n n hf, hl]
  simp [State.id_of_launch? hl]

/-! ### One element of a list changed -/

theorem all_modify {α : Type} (l : List α) (i : Nat) {f : α → α} {p : α → Bool} (hf : ∀ a, p (f a) = true) :
    (l.modify i f).all p = (List.range l.length).all (fun k => k == i || ((l[k]?).map p).getD true) := by
  rw [Bool.eq_iff_iff, List.all_eq_true, List.all_eq_true, List.forall_mem_iff_forall_getElem]
  simp only [List.length_modify, List.mem_range, List.getElem_modify]
  refine forall₂_congr fun k hk => ?_
  by_cases hki : i = k
  · simp [hki, hf]
  · simp [hki, Ne.symm hki, hk]

theorem any_modify {α : Type} {l : List α} {i : Nat} {x : α} (f : α → α) (p : α → Bool) (hx : l[i]? = some x) :
    (l.modify i f).any p = (p (f x) || l.zipIdx.any (fun e => e.2 != i && p e.1)) := by
  rw [Bool.eq_iff_iff]
  simp only [Bool.or_eq_true, List.any_eq_true, List.mem_iff_getElem? (l := l.modify i f), List.getElem?_modify,
    Prod.exists, List.mem_zipIdx_iff_getElem?, Option.map_eq_map, Option.map_eq_some_iff, Bool.and_eq_true, bne_iff_ne]
  constructor
  · rintro ⟨_, ⟨k, y, hk, rfl⟩, hp⟩
    by_cases hki : i = k
    · obtain rfl : x = y := by simpa [← hki, hx] using hk
      exact .inl (by simpa [hki] using hp)
    · exact .inr ⟨y, k, hk, Ne.symm hki, by simpa [hki] using hp⟩
  · rintro (hp | ⟨y, k, hk, hki, hp⟩)
    · exact ⟨f x, ⟨i, x, hx, if_pos rfl⟩, hp⟩
    · exact ⟨y, ⟨k, y, hk, if_neg (Ne.symm hki)⟩, hp⟩

/-! ### A group that ends -/

theorem Group.finish_latch (g : Group) (run lim : Nat) (kill : Bool) : ∀ y ∈ (g.finish run lim kill).latch, y.valid = 0 := by
  intro y hy
  obtain ⟨x, -, rfl⟩ := List.mem_map.1 hy
  rfl

theorem Group.finish_pend (g : Group) (run lim : Nat) (kill : Bool) : ∀ p ∈ (g.finish run lim kill).pend, p.item ≠ 0 :=
  fun _ hp => of_decide_eq_true (List.mem_filter.1 hp).2

/-- Nothing lands where nothing is in flight. -/
theorem Group.landAll_of_pend {g : Group} (run lim : Nat) (hg : g.pend = []) : g.landAll run lim = g := by
  rw [Group.landAll, hg]
  exact congrArg (fun p : List Pending => ({ g with pend := p } : Group)) hg.symm

theorem Ctb.endGroup_eq {c : Ctb} {n : Nat} {g : Group} (run lim : Nat) (kill : Bool) (hg : c.group? n = some g)
    (hl : g.ended = false) : c.endGroup n run lim kill =
      { c.modGroup n (fun y => y.finish run lim kill) with reserve := c.reserve + g.granted } := by
  simp [Ctb.endGroup, hg, hl]

/-! ### The last group of a CTB -/

/-- A CTB ends with status `st`, its launch records the end, and its writebacks are due. -/
def State.endCtb (s : State) (row slot col tide : Nat) (c : Ctb) (l : Launch) (st : CtbEnd) : State :=
  let t := (s.modCtb row slot col (fun c => { c with ended := some st, endTide := tide, leaves := [] })).modLaunch l.id
    (fun l => l.addEnd c.lin st tide (l.record.nwb != 0))
  (t.later t.time 0 (.writebackStart l.id c.lin)).later t.time 0 (.launchComplete l.id)

section
variable {s : State} {row slot col : Nat} {r : Reach} {l : Launch} {c : Ctb} (tide : Nat)
  (hr : s.reach? row slot = some r) (hl : s.launch? r.launch = some l) (hc : r.ctb? col = some c)
include hr hl hc

theorem State.closeCtb_goesOn (hg : c.groups.all (fun g => g.ended) = false) : s.closeCtb row slot col tide = s := by
  simp only [State.closeCtb, State.ctb?_of_reach? hr hc, hr, Option.bind_some, hl]
  exact if_pos (by simp [hg])

theorem State.closeCtb_ends (ho : c.ended = none) (hg : c.groups.all (fun g => g.ended) = true) :
    s.closeCtb row slot col tide =
      s.endCtb row slot col tide c l (if c.groups.any (fun g => g.killed) then .killed else .ok) := by
  simp only [State.closeCtb, State.ctb?_of_reach? hr hc, hr, Option.bind_some, hl]
  exact if_neg (by simp [ho, hg])

omit hl in
theorem State.ctb?_endCtb (st : CtbEnd) : (s.endCtb row slot col tide c l st).ctb? row slot col =
    some { c with ended := some st, endTide := tide, leaves := [] } :=
  (State.ctb?_modCtb_same s row slot col _).trans (congrArg _ (State.ctb?_of_reach? hr hc))

omit hr hc in
theorem State.launch?_endCtb (st : CtbEnd) : (s.endCtb row slot col tide c l st).launch? l.id =
    some (l.addEnd c.lin st tide (l.record.nwb != 0)) :=
  State.launch?_modLaunch_same (s := s) (f := fun l => l.addEnd c.lin st tide (l.record.nwb != 0)) (fun _ => rfl)
    (State.id_of_launch? hl ▸ hl)

end

theorem State.mem_agenda_endCtb (s : State) (row slot col tide : Nat) (c : Ctb) (l : Launch) (st : CtbEnd) :
    { tide := s.time, cls := 0, task := .op (.writebackStart l.id c.lin) } ∈ (s.endCtb row slot col tide c l st).agenda ∧
      { tide := s.time, cls := 0, task := .op (.launchComplete l.id) } ∈ (s.endCtb row slot col tide c l st).agenda :=
  ⟨State.mem_agenda_later _ _ _ (State.mem_agenda_later_now _ _ _), State.mem_agenda_later_now (State.later _ _ _ _) _ _⟩

/-! ### `end` and `tkill.group` -/

/-- The executing CTB once its group has ended. -/
def Here.ctbAfter (h : Here) (kill : Bool) : Ctb := h.ctb.endGroup h.cur.grp h.reach.run h.rg.pos kill

/-- Every other group of the executing CTB has ended. -/
def Here.isLast (h : Here) : Bool :=
  (List.range h.ctb.groups.length).all (fun k => k == h.cur.grp || ((h.ctb.groups[k]?).map (·.ended)).getD true)

/-- The status of the executing CTB if its group is the last. -/
def Here.endStatus (h : Here) (kill : Bool) : CtbEnd :=
  if kill || h.grp.killed || h.ctb.groups.zipIdx.any (fun e => e.2 != h.cur.grp && e.1.killed) then .killed else .ok

theorem exec_endGroup {s : State} {h : Here} (kill : Bool) (hh : s.here = some h) :
    exec (if kill then .tkillGroup else .endG) s = .next (s.endHere h kill) := by
  cases kill
  · exact exec_withHere hh _
  · exact exec_withHere hh _

section
variable {s : State} {h : Here} (kill : Bool) (hh : s.here = some h) (hl : h.grp.ended = false)
include hh hl

theorem Here.ctbAfter_eq : h.ctbAfter kill = { h.ctb.modGroup h.cur.grp (fun y => y.finish h.reach.run h.rg.pos kill) with
    reserve := h.ctb.reserve + h.grp.granted } :=
  Ctb.endGroup_eq _ _ _ (State.here_parts hh).2.2.2.2.2 hl

theorem Here.ctbAfter_ended (ho : h.ctb.ended = none) : (h.ctbAfter kill).ended = none := by
  rw [Here.ctbAfter_eq kill hh hl]
  exact ho

theorem Here.ctbAfter_lin : (h.ctbAfter kill).lin = h.ctb.lin := by
  rw [Here.ctbAfter_eq kill hh hl]
  rfl

theorem Here.ctbAfter_reserve : (h.ctbAfter kill).reserve = h.ctb.reserve + h.grp.granted := by
  rw [Here.ctbAfter_eq kill hh hl]

theorem Here.ctbAfter_all_ended : (h.ctbAfter kill).groups.all (fun g => g.ended) = h.isLast := by
  rw [Here.ctbAfter_eq kill hh hl]
  exact all_modify _ _ fun _ => rfl

theorem Here.ctbAfter_any_killed : ((h.ctbAfter kill).groups.any (fun g => g.killed)) =
    (kill || h.grp.killed || h.ctb.groups.zipIdx.any (fun e => e.2 != h.cur.grp && e.1.killed)) := by
  obtain ⟨-, -, -, -, -, hg⟩ := State.here_parts hh
  rw [Here.ctbAfter_eq kill hh hl, Bool.or_comm kill]
  exact any_modify _ (fun g => g.killed) hg

theorem Here.ctbAfter_group?_same : (h.ctbAfter kill).group? h.cur.grp = some (h.grp.finish h.reach.run h.rg.pos kill) := by
  obtain ⟨-, -, -, -, -, hg⟩ := State.here_parts hh
  rw [Here.ctbAfter_eq kill hh hl]
  exact (Ctb.group?_modGroup_same _ _ _).trans (congrArg _ hg)

theorem Here.ctbAfter_group?_other {k : Nat} (hk : k ≠ h.cur.grp) : (h.ctbAfter kill).groups[k]? = h.ctb.groups[k]? := by
  rw [Here.ctbAfter_eq kill hh hl]
  exact Ctb.group?_modGroup_other _ _ hk

end

/-- A change of the executing CTB, in its place. -/
theorem State.parts_modC {s : State} {h : Here} (f : Ctb → Ctb) (hh : s.here = some h) :
    (s.modC h f).reach? h.cur.row h.cur.slot = some (h.reach.modCtb h.cur.col f) ∧
      (s.modC h f).launch? (h.reach.modCtb h.cur.col f).launch = some h.launch ∧
      (h.reach.modCtb h.cur.col f).ctb? h.cur.col = some (f h.ctb) := by
  obtain ⟨-, hr, hc, -, hl, -⟩ := State.here_parts hh
  refine ⟨?_, ?_, ?_⟩
  · exact (State.reach?_modCtb _ _ _ _ _).trans (congrArg _ hr)
  · rw [Reach.modCtb_launch]
    exact hl
  · rw [Reach.ctb?_modCtb_same, hc, Option.map_some]

section
variable {s : State} {h : Here} (kill : Bool) (hh : s.here = some h) (hsolo : h.cur.handler = false) (hl : h.grp.ended = false)
include hh hsolo hl

/-- A group that is not the last of its CTB ends, and nothing else does. -/
theorem State.endHere_goesOn (hlast : h.isLast = false) :
    s.endHere h kill = s.modC h (fun c => c.endGroup h.cur.grp h.reach.run h.rg.pos kill) := by
  obtain ⟨hr, hlaunch, hc⟩ := State.parts_modC (fun c => c.endGroup h.cur.grp h.reach.run h.rg.pos kill) hh
  have hclose := State.closeCtb_goesOn h.planned hr hlaunch hc ((Here.ctbAfter_all_ended kill hh hl).trans hlast)
  simp only [State.endHere, hclose, hsolo]
  rfl

/-- With the last of its groups its CTB ends. -/
theorem State.endHere_ends (ho : h.ctb.ended = none) (hlast : h.isLast = true) :
    s.endHere h kill = (s.modC h (fun c => c.endGroup h.cur.grp h.reach.run h.rg.pos kill)).endCtb h.cur.row h.cur.slot h.cur.col
      h.planned (h.ctbAfter kill) h.launch (h.endStatus kill) := by
  obtain ⟨hr, hlaunch, hc⟩ := State.parts_modC (fun c => c.endGroup h.cur.grp h.reach.run h.rg.pos kill) hh
  have hclose := State.closeCtb_ends h.planned hr hlaunch hc (Here.ctbAfter_ended kill hh hl ho)
    ((Here.ctbAfter_all_ended kill hh hl).trans hlast)
  simp only [State.endHere, hclose, hsolo, Bool.false_and, Bool.false_eq_true, if_false]
  exact congrArg _ (congrArg (fun b : Bool => if b then CtbEnd.killed else .ok) (Here.ctbAfter_any_killed kill hh hl))

/-- What `end` and `tkill.group` leave of their CTB: its groups and its reserve, and the CTB's own end with the last of them. -/
theorem State.endHere_spec (ho : h.ctb.ended = none) : ∃ t c, s.endHere h kill = t ∧ t.faults = s.faults ∧ SameMem s t ∧
    t.ctb? h.cur.row h.cur.slot h.cur.col = some c ∧ c.groups = (h.ctbAfter kill).groups ∧
    c.reserve = h.ctb.reserve + h.grp.granted ∧
    (h.isLast = false → c.ended = none ∧ t.launches = s.launches ∧ t.agenda = s.agenda) ∧
    (h.isLast = true → c.ended = some (h.endStatus kill) ∧ c.endTide = h.planned ∧ c.leaves = [] ∧
      t.launch? h.launch.id = some (h.launch.addEnd h.ctb.lin (h.endStatus kill) h.planned (h.launch.record.nwb != 0)) ∧
      { tide := s.time, cls := 0, task := .op (.writebackStart h.launch.id h.ctb.lin) } ∈ t.agenda ∧
      { tide := s.time, cls := 0, task := .op (.launchComplete h.launch.id) } ∈ t.agenda) := by
  obtain ⟨hr, hlaunch, hc⟩ := State.parts_modC (fun c => c.endGroup h.cur.grp h.reach.run h.rg.pos kill) hh
  have hreserve := Here.ctbAfter_reserve kill hh hl
  cases hlast : h.isLast with
  | false =>
    rw [State.endHere_goesOn kill hh hsolo hl hlast]
    exact ⟨_, h.ctbAfter kill, rfl, rfl, ⟨fun _ => rfl, fun _ _ => rfl⟩, State.ctb?_of_reach? hr hc, rfl, hreserve,
      fun _ => ⟨Here.ctbAfter_ended kill hh hl ho, rfl, rfl⟩, nofun⟩
  | true =>
    rw [State.endHere_ends kill hh hsolo hl ho hlast, ← Here.ctbAfter_lin kill hh hl]
    exact ⟨_, _, rfl, rfl, ⟨fun _ => rfl, fun _ _ => rfl⟩, State.ctb?_endCtb h.planned hr hc _, rfl, hreserve, nofun,
      fun _ => ⟨rfl, rfl, rfl, State.launch?_endCtb h.planned hlaunch _, State.mem_agenda_endCtb _ _ _ _ _ _ _ _⟩⟩

end

/-! ### Abnormal ends -/

/-- A CTB that ends abnormally: each group stays where it stops, with what it has in flight landed. -/
def Ctb.endedAbnormally (c : Ctb) (st : CtbEnd) (grp tide run : Nat) (stop : Stop) : Ctb :=
  { c with
    ended := some st, endTide := tide, stopGrp := grp, stop := some stop
    groups := c.groups.map (fun g => if g.ended then g else g.landAll run 0) }

theorem Ctb.endedAbnormally_group {c : Ctb} {st : CtbEnd} {grp tide run : Nat} {stop : Stop} {k : Nat} {g g' : Group}
    (hg : c.groups[k]? = some g) (hg' : (c.endedAbnormally st grp tide run stop).groups[k]? = some g') (hs : g.pend = [] ∨ g.ended = true) :
    g' = g := by
  simp only [Ctb.endedAbnormally, List.getElem?_map, hg, Option.map_some, Option.some.injEq] at hg'
  subst hg'
  split
  · rfl
  next hlive => exact Group.landAll_of_pend _ _ (hs.resolve_right hlive)

theorem State.performReach_of_none {s : State} {row slot col : Nat}
    (hw : ∀ w ∈ s.sysw, ¬ (w.row = row ∧ w.slot = slot ∧ w.col = col)) : s.performReach row slot (some col) = s := by
  have hnone : ∀ w ∈ s.sysw, (w.row == row && w.slot == slot && w.col == col) = false := fun w hmem =>
    Bool.eq_false_iff.2 fun hat => hw w hmem (by simpa [and_assoc] using hat)
  have hpicked : s.sysw.filter (fun w => w.row == row && w.slot == slot && w.col == col) = [] :=
    List.filter_eq_nil_iff.2 fun w hmem => Bool.eq_false_iff.1 (hnone w hmem)
  have hkept : s.sysw.filter (fun w => !(w.row == row && w.slot == slot && w.col == col)) = s.sysw :=
    List.filter_eq_self.2 fun w hmem => by rw [hnone w hmem]; rfl
  simp only [State.performReach, State.performAll, Option.map_some, Option.getD_some, hpicked, hkept, List.foldl_nil]

section
variable {s : State} {row slot col : Nat} {r : Reach} {l : Launch} {c : Ctb} (st : CtbEnd) (grp tide save : Nat) (dump : Bool)
  (hr : s.reach? row slot = some r) (hl : s.launch? r.launch = some l) (hc : r.ctb? col = some c) (ho : c.ended = none)
  (hw : ∀ w ∈ s.sysw, ¬ (w.row = row ∧ w.slot = slot ∧ w.col = col))
include hr hl hc ho hw

/-- An abnormal end stops the CTB, records the end with its launch, reports a fault, and schedules the dump and the end of the
launch. -/
theorem State.endAbnormal_eq : s.endAbnormal row slot col st grp tide save dump =
    { s with
      reaches := (s.modCtb row slot col (fun c => c.endedAbnormally st grp tide r.run
        { rgs := r.rgs, hold := r.hold, tide := save })).reaches
      launches := (s.modLaunch l.id (fun x => x.addEnd c.lin st tide (dump && l.record.save != 0))).launches
      out := if st = .faulted then s.out ++ [.report 0x403 l.id c.lin] else s.out
      agenda := ((if dump && l.record.save != 0 then s.later s.time 0 (.dump row slot col) else s).later s.time 0
        (.launchComplete l.id)).agenda } := by
  simp only [State.endAbnormal, State.ctb?_of_reach? hr hc, hr, Option.bind_some, hl, ho, Option.isSome_none, Bool.false_eq_true,
    if_false, State.performReach_of_none hw, Option.map_some, Option.getD_some]
  by_cases hst : st = .faulted
  · cases hleft : dump && l.record.save != 0
    · simp only [hst, if_true]
      rfl
    · simp only [hst, if_true]
      rfl
  · cases hleft : dump && l.record.save != 0
    · simp only [hst, if_false]
      rfl
    · simp only [hst, if_false]
      rfl

theorem State.endAbnormal_spec : ∃ t, s.endAbnormal row slot col st grp tide save dump = t ∧ SameMem s t ∧ t.faults = s.faults ∧
    t.issue = s.issue ∧
    t.ctb? row slot col =
      some (c.endedAbnormally st grp tide r.run { rgs := r.rgs, hold := r.hold, tide := save }) ∧
    t.launch? l.id = some (l.addEnd c.lin st tide (dump && l.record.save != 0)) ∧
    (dump && l.record.save != 0 → { tide := s.time, cls := 0, task := .op (.dump row slot col) } ∈ t.agenda) ∧
    { tide := s.time, cls := 0, task := .op (.launchComplete l.id) } ∈ t.agenda ∧
    (st = .faulted → .report 0x403 l.id c.lin ∈ t.out) := by
  refine ⟨_, State.endAbnormal_eq st grp tide save dump hr hl hc ho hw, ⟨fun _ => rfl, fun _ _ => rfl⟩, rfl, rfl, ?_, ?_,
    fun hleft => ?_, ?_, fun hst => ?_⟩
  · exact (State.ctb?_modCtb_same s row slot col _).trans (congrArg _ (State.ctb?_of_reach? hr hc))
  · exact State.launch?_modLaunch_same (f := fun x => x.addEnd c.lin st tide (dump && l.record.save != 0)) (fun _ => rfl)
      (State.id_of_launch? hl ▸ hl)
  · refine State.mem_agenda_later _ _ _ ?_
    rw [if_pos hleft]
    exact State.mem_agenda_later_now _ _ _
  · exact mem_insertEvent.2 (.inl (by split <;> simp))
  · simp [hst]

end

theorem exec_ctbAbnormalEnd {s : State} {row slot : Nat} {r : Reach} {l : Launch} (col : Nat) (st : CtbEnd)
    (hr : s.reach? row slot = some r) (hl : s.launch? r.launch = some l) : ∃ grp tide save,
      exec (.ctbAbnormalEnd row slot col st) s =
        .next (s.endAbnormal row slot col st grp tide save (st == .faulted || st == .killed)) := by
  have hexec : exec (.ctbAbnormalEnd row slot col st) s = execCtbAbnormalEnd row slot col st s := rfl
  simp only [execCtbAbnormalEnd, hr, hl] at hexec
  exact ⟨_, _, _, hexec⟩

theorem exec_tkillCtb {s : State} {h : Here} (hh : s.here = some h) (hsolo : h.cur.handler = false) :
    exec .tkillCtb s = .next ((s.cutTodo (fun e => e.1 != h.cur.col)).endAbnormal h.cur.row h.cur.slot h.cur.col .killed
      h.cur.grp h.planned h.planned true) := by
  refine (exec_withHere hh _).trans ?_
  simp only [hsolo, Bool.false_and, Bool.false_eq_true, if_false]

/-- Both instructions end the CTB abnormally; `tkill.ctb` executes nothing further on its column at its run index. -/
theorem exec_abnormalEnd {s : State} {row slot col : Nat} {r : Reach} {l : Launch} {st : CtbEnd} {kill : Bool} {h : Here}
    (hr : s.reach? row slot = some r) (hl : s.launch? r.launch = some l)
    (hk : kill = true → s.here = some h ∧ h.cur.handler = false ∧ h.cur.row = row ∧ h.cur.slot = slot ∧ h.cur.col = col ∧
      st = .killed) :
    ∃ issue grp tide save, exec (if kill then .tkillCtb else .ctbAbnormalEnd row slot col st) s =
        .next (({ s with issue := issue } : State).endAbnormal row slot col st grp tide save (st == .faulted || st == .killed)) ∧
      (kill = true → ∀ w, issue = some w → ∀ e ∈ w.todo, e.1 ≠ col) := by
  cases kill with
  | false =>
    obtain ⟨grp, tide, save, hexec⟩ := exec_ctbAbnormalEnd col st hr hl
    exact ⟨s.issue, grp, tide, save, hexec, nofun⟩
  | true =>
    obtain ⟨hh, hsolo, rfl, rfl, rfl, rfl⟩ := hk rfl
    refine ⟨_, _, _, _, exec_tkillCtb hh hsolo, fun _ w hw e he => ?_⟩
    obtain ⟨i, -, rfl⟩ := Option.map_eq_some_iff.1 hw
    exact bne_iff_ne.1 (List.mem_filter.1 he).2

end Sys2Proof.Machine

section
open Sys2Proof Sys2Proof.Machine

/-- Settles O46: a group that ends is finished, and its CTB is closed after the last of them; both kinds of abnormal end are one
operation. -/
theorem ends : Obligations.Ends := by
  unfold Obligations.Ends
  refine ⟨fun kill s h hh hsolo hlive hopen => ?_, fun s row slot col r l c st kill h hr hl hc hopen hk hw => ?_⟩
  · obtain ⟨t, c, ht, hfaults, hmem, hctb, hgroups, hreserve, hmore, hlast⟩ := State.endHere_spec kill hh hsolo hlive hopen
    have hmine : t.mine h = some (h.grp.finish h.reach.run h.rg.pos kill) := by
      simp only [State.mine, State.grpAt, hctb, Option.bind_some, Ctb.group?, hgroups]
      exact Here.ctbAfter_group?_same kill hh hlive
    refine ⟨t, c, _, (exec_endGroup kill hh).trans (congrArg _ ht), hfaults, hmem, hctb, hmine, rfl, rfl, rfl, rfl, rfl, rfl,
      Group.finish_latch _ _ _ _, Group.finish_pend _ _ _ _, hreserve, fun k hk => ?_, hmore, fun hothers => ?_⟩
    · rw [hgroups, Here.ctbAfter_group?_other kill hh hlive hk]
    · obtain ⟨hended, htide, hleaves, hlaunch, hback, hcomplete⟩ := hlast hothers
      refine ⟨hended, htide, hleaves, ⟨_, hlaunch, rfl, ?_⟩, hback, hcomplete⟩
      simp [Launch.addEnd, ite_not]
  · intro left i
    obtain ⟨issue, grp, tide, save, hexec, hcut⟩ := exec_abnormalEnd hr hl hk
    obtain ⟨t, ht, hmem, hfaults, hissue, hctb, hlaunch, hdump, hcomplete, hout⟩ :=
      State.endAbnormal_spec (s := { s with issue := issue }) st grp tide save (st == .faulted || st == .killed) hr hl hc hopen hw
    have hleft : ((st == .faulted || st == .killed) && l.record.save != 0) = true ↔ left := by
      simp [left, and_comm]
    refine ⟨t, hexec.trans (congrArg _ ht), hmem, hfaults, fun hkill w hi => hcut hkill w (hissue.symm.trans hi),
      ⟨_, hctb, rfl, rfl, List.length_map _, fun k g g' hg hg' hs => Ctb.endedAbnormally_group hg hg' hs⟩,
      ⟨_, hlaunch, rfl, fun hno => ?_, fun hyes => ⟨?_, hdump (hleft.2 hyes)⟩⟩, hcomplete, hout⟩
    · exact if_neg (mt hleft.1 hno)
    · exact if_pos (hleft.2 hyes)

end

/-! O1: the uniform arithmetic of the headland (05 R164). Each instruction writes one uniform register; the zero that the model
gives for a shift by 64 or more is what the shift of the word gives. -/
namespace Sys2Proof.Machine

theorem shl_or_zero {w : Nat} (x : BitVec w) (n : Nat) : (if n < w then x <<< n else 0) = x <<< n := by
  split
  · rfl
  · exact (BitVec.shiftLeft_eq_zero (by omega)).symm

theorem shr_or_zero {w : Nat} (x : BitVec w) (n : Nat) : (if n < w then x >>> n else 0) = x >>> n := by
  split
  · rfl
  · exact (BitVec.ushiftRight_eq_zero (by omega)).symm

/-- An instruction that writes a uniform register. -/
theorem headInstr_of_setK {i : Instr} {d : BitVec 6} {v : Here → DWord}
    (hi : ∀ s, exec i s = s.withHere (fun h => s.setK h d (v h))) :
    HeadInstr i Always (fun _ h rg => { rg with k := rg.k.set d.toNat (v h) }) :=
  headInstr_of fun s _ hh _ => (hi s).trans (exec_withHere hh _)

/-- A uniform operation `f`, by what it computes. -/
theorem headInstr_of_uni2 {i : Instr} {d a : BitVec 6} {b : OpK} {f g : DWord → DWord → DWord}
    (hi : ∀ s, exec i s = s.uni2 d a b f) (hf : ∀ x y, f x y = g x y) :
    HeadInstr i Always (fun _ h rg => { rg with k := rg.k.set d.toNat (g (h.k a) (h.uni b)) }) := by
  obtain rfl : f = g := funext fun x => funext fun y => hf x y
  exact headInstr_of_setK hi

end Sys2Proof.Machine

section
open Sys2Proof Sys2Proof.Machine

/-- Settles O1: each instruction writes its value to one uniform register. -/
theorem uniformArithmetic : Obligations.UniformArithmetic := by
  unfold Obligations.UniformArithmetic
  intro d a b
  have same {i : Instr} {f : DWord → DWord → DWord} (hi : ∀ s, exec i s = s.uni2 d a b f) :=
    headInstr_of_uni2 hi fun _ _ => rfl
  exact ⟨same fun _ => rfl, same fun _ => rfl, same fun _ => rfl,
    headInstr_of_uni2 (fun _ => rfl) fun x y => shl_or_zero x y.toNat,
    headInstr_of_uni2 (fun _ => rfl) fun x y => shr_or_zero x y.toNat, same fun _ => rfl, same fun _ => rfl,
    headInstr_of_setK fun _ => rfl, fun _ => headInstr_of_setK fun _ => rfl, fun _ => headInstr_of_setK fun _ => rfl,
    fun _ => headInstr_of_setK fun _ => rfl⟩

end

/-! The integer class (05): values read at a type, exact integer results wrapped or clamped to it, and the lane operations that
deliver them. -/
namespace Sys2Proof.Machine

/-! ### Words as integers -/

theorem ofInt_sub {w : Nat} (x y : Int) : BitVec.ofInt w (x - y) = BitVec.ofInt w x - BitVec.ofInt w y := by
  rw [Int.sub_eq_add_neg, BitVec.ofInt_add, BitVec.ofInt_neg, BitVec.sub_eq_add_neg]

theorem ofInt_toNat {w : Nat} (x : BitVec w) : BitVec.ofInt w (x.toNat : Int) = x := by
  rw [BitVec.ofInt_natCast, BitVec.ofNat_toNat, BitVec.setWidth_eq]

theorem lo32_setWidth (x : Word) : lo32 (x.setWidth 64) = x := by
  rw [lo32, BitVec.setWidth_setWidth_of_le x (by decide), BitVec.setWidth_eq]

theorem toNat_ofInt_eq_self {w : Nat} {x : Int} (hlo : 0 ≤ x) (hhi : x < (2 ^ w : Nat)) :
    ((BitVec.ofInt w x).toNat : Int) = x := by
  rw [BitVec.toNat_ofInt, Int.emod_eq_of_lt hlo hhi, Int.toNat_of_nonneg hlo]

/-! ### Values read at a type (05 R149) -/

theorem ofInt_typed_narrow {ty : IntTy} (hty : it64 ty = false) (v : DWord) : BitVec.ofInt 32 (typed ty v) = lo32 v := by
  match ty with
  | .i32 => exact BitVec.ofInt_toInt
  | .n32 => exact ofInt_toNat _

theorem ofInt_typed_wide {ty : IntTy} (hty : it64 ty = true) (v : DWord) : BitVec.ofInt 64 (typed ty v) = v := by
  match ty with
  | .i64 => exact BitVec.ofInt_toInt
  | .n64 => exact ofInt_toNat _

/-- The least value of a type. -/
def leastOf (ty : IntTy) : Int := if itSigned ty then -(2 ^ ((if it64 ty then 64 else 32) - 1)) else 0

/-- The greatest value of a type. -/
def mostOf (ty : IntTy) : Int :=
  if itSigned ty then 2 ^ ((if it64 ty then 64 else 32) - 1) - 1 else 2 ^ (if it64 ty then 64 else 32) - 1

theorem leastOf_le_mostOf (ty : IntTy) : leastOf ty ≤ mostOf ty := by
  cases ty <;> decide

/-- A value of the type reads back. -/
theorem typed_wrapW {ty : IntTy} {x : Int} (hlo : leastOf ty ≤ x) (hhi : x ≤ mostOf ty) : typed ty (wrapW (it64 ty) x) = x := by
  cases ty with
  | i32 =>
    show (lo32 ((BitVec.ofInt 32 x).setWidth 64)).toInt = x
    rw [lo32_setWidth]
    exact BitVec.toInt_ofInt_eq_self (by decide) hlo (Int.lt_of_le_sub_one hhi)
  | n32 =>
    show ((lo32 ((BitVec.ofInt 32 x).setWidth 64)).toNat : Int) = x
    rw [lo32_setWidth]
    exact toNat_ofInt_eq_self hlo (Int.lt_of_le_sub_one hhi)
  | i64 => exact BitVec.toInt_ofInt_eq_self (by decide) hlo (Int.lt_of_le_sub_one hhi)
  | n64 => exact toNat_ofInt_eq_self hlo (Int.lt_of_le_sub_one hhi)

/-! ### Lane operations -/

/-- A lane operation that sets no flag. -/
theorem lane1_of_val {i : Instr} {ops : List Opnd} {d : Dst} {w64 : Bool} {F f : List DWord → DWord}
    (hi : ∀ s, exec i s = s.lanewise ops d w64 (fun vs => { val := F vs })) (hf : ∀ vs, F vs = f vs) : Lane1 i ops d w64 f :=
  lane1_of_lanewise hi (fun _ => rfl) hf (fun _ => rfl)

/-- A lane operation whose lanes depend on the position too, and which sets no flag. -/
theorem laneInstr_of_val {i : Instr} {ops : List Opnd} {d : Dst} {w64 : Bool} {F f : Here → Nat → List DWord → DWord}
    (hi : ∀ s h, s.here = some h → exec i s = .next (s.vec h
      { ops := ops, dst := some d, w64 := w64, lane := fun k vs => { val := F h k vs } } none justVals))
    (hf : ∀ h k vs, F h k vs = f h k vs) : LaneInstr i ops d w64 1 Always f (fun _ _ _ => 0) :=
  laneInstr_of_vec (F := fun _ h k vs => { val := F h k vs }) (fun s h hh _ => hi s h hh) (fun _ _ _ _ _ => rfl)
    (fun _ _ _ _ _ => hf _ _ _) (fun _ _ _ _ _ => rfl)

/-- A lane operation that writes the truth of `p` to a mask and sets no flag. -/
theorem maskInstr_of_truth {i : Instr} {ops : List Opnd} {d : BitVec 4} {p q : Here → List DWord → Bool}
    (hi : ∀ s h, s.here = some h → exec i s = .next (s.vec h
      { ops := ops, lane := fun _ vs => { val := if q h vs then 1 else 0 } } none (toMask h d)))
    (hp : ∀ h vs, q h vs = p h vs) : MaskInstr i ops d p (fun _ => 0) := by
  refine maskInstr_of_vec hi (fun _ _ _ => rfl) (fun h k vs => ?_) (fun _ _ _ => rfl)
  rw [← hp h vs]
  cases q h vs <;> rfl

/-- An operation of class V or V2 whose lane values and flags stand in a relation to the source values. -/
theorem lane1R_of_lanewise {i : Instr} {ops : List Opnd} {d : Dst} {w64 : Bool} {F : List DWord → LaneOut}
    {R : List DWord → DWord → Word → Prop} (hi : ∀ s, exec i s = s.lanewise ops d w64 F) (h0 : ∀ vs, (F vs).fault = none)
    (hR : ∀ vs, R vs (F vs).val (F vs).flags) : Lane1R i ops d w64 R :=
  ⟨_, _, lane1F_of_lanewise hi h0 (fun _ => rfl) (fun _ => rfl), hR⟩

section
variable {i : Instr} {ops : Bool → List Opnd} {d : Dst} {ty : IntTy} {F : List DWord → LaneOut} {e : List DWord → Int}
  {fl : List DWord → Word} (hi : ∀ s, exec i s = s.lanewise (ops (it64 ty)) d (it64 ty) F)
  (hF : ∀ vs, F vs = { val := wrapW (it64 ty) (e vs), flags := fl vs })
include hi hF

/-- An operation whose exact result `e` wraps to 32 bits. -/
theorem lane1F_of_narrow {f : List DWord → Word} (hty : it64 ty = false) (hf : ∀ vs, BitVec.ofInt 32 (e vs) = f vs) :
    Lane1F i (ops false) d false (fun vs => (f vs).setWidth 64) fl := by
  rw [hty] at hi
  refine lane1F_of_lanewise hi (fun vs => by rw [hF]) (fun vs => ?_) (fun vs => by rw [hF])
  rw [hF, hty, ← hf vs]
  rfl

/-- An operation whose exact result `e` wraps to 64 bits. -/
theorem lane1F_of_wide {f : List DWord → DWord} (hty : it64 ty = true) (hf : ∀ vs, BitVec.ofInt 64 (e vs) = f vs) :
    Lane1F i (ops true) d true f fl := by
  rw [hty] at hi
  refine lane1F_of_lanewise hi (fun vs => by rw [hF]) (fun vs => ?_) (fun vs => by rw [hF])
  rw [hF, hty, ← hf vs]
  rfl

end

section
variable {i : Instr} {ops : Bool → List Opnd} {d : Dst} {ty : IntTy} {e : List DWord → Int}
  (hi : ∀ s, exec i s = s.lanewise (ops (it64 ty)) d (it64 ty) (fun vs => narrow ty false (e vs)))
include hi

theorem lane1_of_narrow {f : List DWord → Word} (hty : it64 ty = false) (hf : ∀ vs, BitVec.ofInt 32 (e vs) = f vs) :
    Lane1 i (ops false) d false (fun vs => (f vs).setWidth 64) :=
  lane1F_of_narrow hi (fun _ => rfl) hty hf

theorem lane1_of_wide {f : List DWord → DWord} (hty : it64 ty = true) (hf : ∀ vs, BitVec.ofInt 64 (e vs) = f vs) :
    Lane1 i (ops true) d true f :=
  lane1F_of_wide hi (fun _ => rfl) hty hf

end

end Sys2Proof.Machine

/-! O7: wrapping arithmetic (05 R153). -/
namespace Sys2Proof.Machine

/-- Reducing modulo a square keeps the digit above the lowest. -/
theorem emod_sq_ediv_emod (z : Int) {m : Int} (hm : m ≠ 0) : z % (m * m) / m % m = z / m % m := by
  rw [Int.emod_def z, Int.mul_assoc, Int.sub_eq_add_neg, ← Int.mul_neg, Int.add_mul_ediv_left _ _ hm, ← Int.mul_neg,
    Int.add_mul_emod_self_left]

/-- The high half of an exact value: the high word of its double word. -/
theorem ofInt_fdiv_eq_high (w : Nat) (z : Int) :
    BitVec.ofInt w (z.fdiv (2 ^ w : Nat)) = (BitVec.ofInt (w + w) z).extractLsb' w w := by
  apply BitVec.eq_of_toNat_eq
  rw [BitVec.toNat_ofInt, BitVec.extractLsb'_toNat, BitVec.toNat_ofInt, Int.fdiv_eq_ediv_of_nonneg _ (by positivity),
    Nat.shiftRight_eq_div_pow, Nat.pow_add, Nat.cast_mul]
  generalize hm : 2 ^ w = m
  have hpos : (m : Int) ≠ 0 := by rw [← hm]; positivity
  obtain ⟨k, hk⟩ := Int.eq_ofNat_of_zero_le (Int.emod_nonneg z (mul_ne_zero hpos hpos))
  rw [← emod_sq_ediv_emod z hpos, hk]
  rfl

theorem toInt_mul_high {w : Nat} (x y : BitVec w) : BitVec.ofInt w ((x.toInt * y.toInt).fdiv (2 ^ w : Nat)) =
    (x.signExtend (w + w) * y.signExtend (w + w)).extractLsb' w w := by
  rw [ofInt_fdiv_eq_high, BitVec.ofInt_mul]
  rfl

theorem toNat_mul_high {w : Nat} (x y : BitVec w) : BitVec.ofInt w ((x.toNat * y.toNat : Int).fdiv (2 ^ w : Nat)) =
    (x.setWidth (w + w) * y.setWidth (w + w)).extractLsb' w w := by
  simp only [ofInt_fdiv_eq_high, BitVec.ofInt_mul, BitVec.ofInt_natCast, BitVec.ofNat_toNat]

end Sys2Proof.Machine

section
open Sys2Proof Sys2Proof.Machine

/-- Settles O7: an exact result wraps as its operands do. -/
theorem wrappingArithmetic : Obligations.WrappingArithmetic := by
  unfold Obligations.WrappingArithmetic
  intro d a b a' b' c' n w two srcs three
  refine ⟨fun ty hty => ?_, fun ty hty => ?_, ?_, ?_, ?_, ?_⟩
  · have hread := ofInt_typed_narrow hty
    refine ⟨lane1_of_narrow (ops := two) (fun _ => rfl) hty fun v => ?_,
      lane1_of_narrow (ops := two) (fun _ => rfl) hty fun v => ?_,
      lane1_of_narrow (ops := two) (fun _ => rfl) hty fun v => ?_,
      lane1_of_narrow (ops := three) (fun _ => rfl) hty fun v => ?_⟩
    all_goals simp only [BitVec.ofInt_add, ofInt_sub, BitVec.ofInt_mul, hread]
  · have hread := ofInt_typed_wide hty
    refine ⟨lane1_of_wide (ops := two) (fun _ => rfl) hty fun v => ?_,
      lane1_of_wide (ops := two) (fun _ => rfl) hty fun v => ?_,
      lane1_of_wide (ops := two) (fun _ => rfl) hty fun v => ?_,
      lane1_of_wide (ops := three) (fun _ => rfl) hty fun v => ?_⟩
    all_goals simp only [BitVec.ofInt_add, ofInt_sub, BitVec.ofInt_mul, hread, w]
  · exact lane1_of_narrow (ops := srcs) (ty := .i32) (fun _ => rfl) rfl fun v => toInt_mul_high (lo32 (arg v 0)) (lo32 (arg v 1))
  · exact lane1_of_narrow (ops := srcs) (ty := .n32) (fun _ => rfl) rfl fun v => toNat_mul_high (lo32 (arg v 0)) (lo32 (arg v 1))
  · exact lane1_of_wide (ops := srcs) (ty := .i64) (fun _ => rfl) rfl fun v => toInt_mul_high (arg v 0) (arg v 1)
  · exact lane1_of_wide (ops := srcs) (ty := .n64) (fun _ => rfl) rfl fun v => toNat_mul_high (arg v 0) (arg v 1)

end

/-! O8: saturating arithmetic (05 R153, R156, R151). -/
namespace Sys2Proof.Machine

/-- 02 Table 2.24: the value clamped to the type, and SATF where the clamp changed it. -/
theorem satW_eq (ty : IntTy) (x : Int) : satW ty x = (wrapW (it64 ty) (max (leastOf ty) (min (mostOf ty) x)),
    if leastOf ty ≤ x ∧ x ≤ mostOf ty then 0 else 1) := by
  have hlo : (if itSigned ty then -(2 ^ (itW ty - 1) : Nat) else 0 : Int) = leastOf ty := by cases ty <;> rfl
  have hhi : (if itSigned ty then (2 ^ (itW ty - 1) : Nat) - 1 else (2 ^ itW ty : Nat) - 1 : Int) = mostOf ty := by cases ty <;> rfl
  have hle := leastOf_le_mostOf ty
  have hclamp : (if x < leastOf ty then leastOf ty else if mostOf ty < x then mostOf ty else x) =
      max (leastOf ty) (min (mostOf ty) x) := by
    split
    · omega
    · split <;> omega
  have hsame : max (leastOf ty) (min (mostOf ty) x) = x ↔ leastOf ty ≤ x ∧ x ≤ mostOf ty := by omega
  simp only [satW, hlo, hhi, hclamp, hsame]
  rfl

/-- A saturating operation with exact result `e`. -/
theorem lane1R_of_saturating {i : Instr} {ops : List Opnd} {d : Dst} {ty : IntTy} {e : List DWord → Int}
    (hi : ∀ s, exec i s = s.lanewise ops d (it64 ty) (fun vs => narrow ty true (e vs))) :
    Lane1R i ops d (it64 ty) (fun v y fl => typed ty y = max (leastOf ty) (min (mostOf ty) (e v)) ∧
      fl = if leastOf ty ≤ e v ∧ e v ≤ mostOf ty then 0 else 1) := by
  refine lane1R_of_lanewise hi (fun _ => rfl) fun v => ?_
  have hle := leastOf_le_mostOf ty
  simp only [narrow, if_true, satW_eq, and_true]
  exact typed_wrapW (by omega) (by omega)

end Sys2Proof.Machine

section
open Sys2Proof Sys2Proof.Machine

/-- Settles O8: each operation clamps its exact result. -/
theorem saturatingArithmetic : Obligations.SaturatingArithmetic := by
  unfold Obligations.SaturatingArithmetic
  intro ty wd d a b a' b' c' bits least most clamp
  refine ⟨lane1R_of_saturating fun _ => rfl, lane1R_of_saturating fun _ => rfl, lane1R_of_saturating fun _ => rfl, ?_, ?_⟩
  · have habs (x : Int) : |x| = (x.natAbs : Int) := Int.abs_eq_natAbs x
    simp only [habs]
    cases wd with
    | w32 => exact lane1R_of_saturating (ty := .i32) fun _ => rfl
    | w64 => exact lane1R_of_saturating (ty := .i64) fun _ => rfl
  · cases wd with
    | w32 => exact lane1R_of_saturating (ty := .i32) fun _ => rfl
    | w64 => exact lane1R_of_saturating (ty := .i64) fun _ => rfl

end

/-! O9: division and remainder (05 R154). -/
namespace Sys2Proof.Machine

section
variable {x y : Int} {z : Prop} [Decidable z]

theorem quot_eq (ty : IntTy) (hz : y = 0 ↔ z) :
    quot ty x y = { val := wrapW (it64 ty) (if z then -1 else x.tdiv y), flags := if z then fDIVZ else 0 } := by
  unfold quot
  simp only [hz]
  split <;> rfl

/-- By 0 the remainder is the dividend, which truncated division of integers leaves too. -/
theorem remd_eq (ty : IntTy) (hz : y = 0 ↔ z) :
    remd ty x y = { val := wrapW (it64 ty) (x.tmod y), flags := if z then fDIVZ else 0 } := by
  unfold remd
  split
  next hy => rw [if_pos (hz.1 hy), hy, Int.tmod_zero]
  next hy => rw [if_neg (mt hz.2 hy)]; rfl

end

/-! ### Quotients and remainders of words -/

section
variable {w : Nat} (x y : BitVec w)

theorem toInt_eq_zero_iff : x.toInt = 0 ↔ x = 0 := by
  rw [← BitVec.toInt_inj, show (0 : BitVec w).toInt = 0 from BitVec.toInt_zero]

theorem natCast_toNat_eq_zero_iff : (x.toNat : Int) = 0 ↔ x = 0 := by
  rw [Int.natCast_eq_zero, ← BitVec.toNat_inj, show (0 : BitVec w).toNat = 0 from BitVec.toNat_zero]

theorem ofInt_neg_one : BitVec.ofInt w (-1) = BitVec.allOnes w := by
  rw [BitVec.ofInt_neg, ← BitVec.neg_one_eq_allOnes]
  rfl

theorem ofInt_quot_signed : BitVec.ofInt w (if y = 0 then -1 else x.toInt.tdiv y.toInt) =
    if y = 0 then BitVec.allOnes w else x.sdiv y := by
  rw [apply_ite (BitVec.ofInt w), ofInt_neg_one, ← BitVec.ofInt_toInt (x := x.sdiv y), BitVec.toInt_sdiv]
  congr 1
  rw [← BitVec.toInt_inj]
  simp

theorem ofInt_quot_unsigned : BitVec.ofInt w (if y = 0 then -1 else (x.toNat : Int).tdiv y.toNat) =
    if y = 0 then BitVec.allOnes w else x / y := by
  rw [apply_ite (BitVec.ofInt w), ofInt_neg_one, ← Int.ofNat_tdiv, ← BitVec.toNat_udiv, ofInt_toNat]

theorem ofInt_rem_signed : BitVec.ofInt w (x.toInt.tmod y.toInt) = x.srem y := by
  rw [← BitVec.toInt_srem, BitVec.ofInt_toInt]

theorem ofInt_rem_unsigned : BitVec.ofInt w ((x.toNat : Int).tmod y.toNat) = x % y := by
  rw [← Int.ofNat_tmod, ← BitVec.toNat_umod, ofInt_toNat]

end

end Sys2Proof.Machine

section
open Sys2Proof Sys2Proof.Machine

/-- Settles O9: the quotient and the remainder of the integers read, wrapped. -/
theorem division : Obligations.Division := by
  unfold Obligations.Division
  intro d a b n w fn fw ops
  have zi (v : List DWord) := toInt_eq_zero_iff (lo32 (arg v 1))
  have zn (v : List DWord) := natCast_toNat_eq_zero_iff (lo32 (arg v 1))
  have zI (v : List DWord) := toInt_eq_zero_iff (arg v 1)
  have zN (v : List DWord) := natCast_toNat_eq_zero_iff (arg v 1)
  refine ⟨?_, ?_, ?_, ?_, ?_, ?_, ?_, ?_⟩
  · exact lane1F_of_narrow (ops := ops) (fun _ => rfl) (fun v => quot_eq .i32 (zi v)) rfl fun _ => ofInt_quot_signed _ _
  · exact lane1F_of_narrow (ops := ops) (fun _ => rfl) (fun v => quot_eq .n32 (zn v)) rfl fun _ => ofInt_quot_unsigned _ _
  · exact lane1F_of_wide (ops := ops) (fun _ => rfl) (fun v => quot_eq .i64 (zI v)) rfl fun _ => ofInt_quot_signed _ _
  · exact lane1F_of_wide (ops := ops) (fun _ => rfl) (fun v => quot_eq .n64 (zN v)) rfl fun _ => ofInt_quot_unsigned _ _
  · exact lane1F_of_narrow (ops := ops) (fun _ => rfl) (fun v => remd_eq .i32 (zi v)) rfl fun _ => ofInt_rem_signed _ _
  · exact lane1F_of_narrow (ops := ops) (fun _ => rfl) (fun v => remd_eq .n32 (zn v)) rfl fun _ => ofInt_rem_unsigned _ _
  · exact lane1F_of_wide (ops := ops) (fun _ => rfl) (fun v => remd_eq .i64 (zI v)) rfl fun _ => ofInt_rem_signed _ _
  · exact lane1F_of_wide (ops := ops) (fun _ => rfl) (fun v => remd_eq .n64 (zN v)) rfl fun _ => ofInt_rem_unsigned _ _

end

/-! O10: minimum, maximum, absolute value and negation (05 R155, R156). -/
namespace Sys2Proof.Machine

section
variable {w : Nat} (x y : BitVec w)

theorem ofInt_min_signed : BitVec.ofInt w (if x.toInt ≤ y.toInt then x.toInt else y.toInt) = if x.slt y then x else y := by
  rw [← min_def, min_def_lt, apply_ite (BitVec.ofInt w), BitVec.ofInt_toInt, BitVec.ofInt_toInt]
  simp only [BitVec.slt_iff_toInt_lt]

theorem ofInt_max_signed : BitVec.ofInt w (if x.toInt ≤ y.toInt then y.toInt else x.toInt) = if x.slt y then y else x := by
  rw [← max_def, max_def_lt, apply_ite (BitVec.ofInt w), BitVec.ofInt_toInt, BitVec.ofInt_toInt]
  simp only [BitVec.slt_iff_toInt_lt]

theorem ofInt_min_unsigned :
    BitVec.ofInt w (if (x.toNat : Int) ≤ y.toNat then x.toNat else y.toNat) = if x.ult y then x else y := by
  rw [← min_def, min_def_lt, apply_ite (BitVec.ofInt w), ofInt_toNat, ofInt_toNat]
  simp only [Int.ofNat_lt, BitVec.ult_iff_lt, BitVec.lt_def]

theorem ofInt_max_unsigned :
    BitVec.ofInt w (if (x.toNat : Int) ≤ y.toNat then y.toNat else x.toNat) = if x.ult y then y else x := by
  rw [← max_def, max_def_lt, apply_ite (BitVec.ofInt w), ofInt_toNat, ofInt_toNat]
  simp only [Int.ofNat_lt, BitVec.ult_iff_lt, BitVec.lt_def]

theorem ofInt_neg_toInt : BitVec.ofInt w (-x.toInt) = -x := by
  rw [BitVec.ofInt_neg, BitVec.ofInt_toInt]

theorem ofInt_natAbs_toInt : BitVec.ofInt w (x.toInt.natAbs : Int) = if x.msb then -x else x := by
  rw [BitVec.msb_eq_toInt]
  by_cases hneg : x.toInt < 0
  · rw [Int.ofNat_natAbs_of_nonpos hneg.le, ofInt_neg_toInt, if_pos (decide_eq_true hneg)]
  · rw [Int.natAbs_of_nonneg (not_lt.1 hneg), BitVec.ofInt_toInt, if_neg (by simpa using hneg)]

end

end Sys2Proof.Machine

section
open Sys2Proof Sys2Proof.Machine

/-- Settles O10: each result is a comparison or a negation of the integers read, wrapped. -/
theorem minMaxAbsNeg : Obligations.MinMaxAbsNeg := by
  unfold Obligations.MinMaxAbsNeg
  intro d a b n w ops
  let one (x : Bool) : List Opnd := [.src a x]
  refine ⟨?_, ?_, ?_, ?_, ?_, ?_, ?_, ?_, ?_, ?_, ?_, ?_⟩
  · exact lane1_of_narrow (ops := ops) (ty := .i32) (fun _ => rfl) rfl fun _ => ofInt_min_signed _ _
  · exact lane1_of_narrow (ops := ops) (ty := .n32) (fun _ => rfl) rfl fun _ => ofInt_min_unsigned _ _
  · exact lane1_of_wide (ops := ops) (ty := .i64) (fun _ => rfl) rfl fun _ => ofInt_min_signed _ _
  · exact lane1_of_wide (ops := ops) (ty := .n64) (fun _ => rfl) rfl fun _ => ofInt_min_unsigned _ _
  · exact lane1_of_narrow (ops := ops) (ty := .i32) (fun _ => rfl) rfl fun _ => ofInt_max_signed _ _
  · exact lane1_of_narrow (ops := ops) (ty := .n32) (fun _ => rfl) rfl fun _ => ofInt_max_unsigned _ _
  · exact lane1_of_wide (ops := ops) (ty := .i64) (fun _ => rfl) rfl fun _ => ofInt_max_signed _ _
  · exact lane1_of_wide (ops := ops) (ty := .n64) (fun _ => rfl) rfl fun _ => ofInt_max_unsigned _ _
  · exact lane1_of_narrow (ops := one) (ty := .i32) (fun _ => rfl) rfl fun _ => ofInt_natAbs_toInt _
  · exact lane1_of_wide (ops := one) (ty := .i64) (fun _ => rfl) rfl fun _ => ofInt_natAbs_toInt _
  · exact lane1_of_narrow (ops := one) (ty := .i32) (fun _ => rfl) rfl fun _ => ofInt_neg_toInt _
  · exact lane1_of_wide (ops := one) (ty := .i64) (fun _ => rfl) rfl fun _ => ofInt_neg_toInt _

end

/-! O11: the bitwise operations and shifts (05 R157, R158). -/
namespace Sys2Proof.Machine

/-! ### Shifts by the width or more -/

theorem shlW_narrow (x : DWord) (n : Nat) : shlW false x n = (lo32 x <<< n).setWidth 64 := by
  rw [← shl_or_zero, apply_ite (BitVec.setWidth 64)]
  rfl

theorem shlW_wide (x : DWord) (n : Nat) : shlW true x n = x <<< n := shl_or_zero x n

/-- Shifted out in full, an integer leaves its sign. -/
theorem shiftRight_of_bounded {v : Int} {w n : Nat} (hlo : -(2 ^ w : Nat) ≤ v) (hhi : v < (2 ^ w : Nat)) (hn : w ≤ n) :
    v >>> n = if v < 0 then -1 else 0 := by
  have hpow : ((2 ^ w : Nat) : Int) ≤ (2 ^ n : Nat) := Int.ofNat_le.2 (Nat.pow_le_pow_right (by decide) hn)
  have hpos : (0 : Int) < (2 ^ n : Nat) := by positivity
  rw [Int.shiftRight_eq_div_pow]
  split
  next hneg =>
    have := (Int.le_ediv_iff_mul_le hpos (a := -1) (b := v)).2 (by omega)
    have := (Int.ediv_lt_iff_lt_mul hpos (a := v) (b := 0)).2 (by omega)
    omega
  next hnonneg => exact Int.ediv_eq_zero_of_lt (by omega) (by omega)

/-- The right shift of the model: a quotient, or a sign where everything is shifted out. -/
theorem fdiv_or_sign {v : Int} {w : Nat} (hlo : -(2 ^ w : Nat) ≤ v) (hhi : v < (2 ^ w : Nat)) (n : Nat) :
    (if n < w then v.fdiv (2 ^ n : Nat) else if v < 0 then -1 else 0) = v >>> n := by
  split
  next => rw [Int.shiftRight_eq_div_pow, Int.fdiv_eq_ediv_of_nonneg _ (by positivity)]
  next hn => exact (shiftRight_of_bounded hlo hhi (not_lt.1 hn)).symm

theorem ofInt_shr_signed {w : Nat} (x : BitVec w) (n : Nat) :
    BitVec.ofInt w (if n < w then x.toInt.fdiv (2 ^ n : Nat) else if x.toInt < 0 then -1 else 0) = x.sshiftRight n := by
  have hbounded : -(2 ^ w : Nat) ≤ x.toInt ∧ x.toInt < (2 ^ w : Nat) := by
    have := x.isLt
    rw [BitVec.toInt_eq_msb_cond]
    split <;> omega
  rw [fdiv_or_sign hbounded.1 hbounded.2, BitVec.sshiftRight_eq]

theorem ofInt_shr_unsigned {w : Nat} (x : BitVec w) (n : Nat) :
    BitVec.ofInt w (if n < w then (x.toNat : Int).fdiv (2 ^ n : Nat) else if (x.toNat : Int) < 0 then -1 else 0) = x >>> n := by
  have := x.isLt
  rw [fdiv_or_sign (by omega) (by omega), ← Int.natCast_shiftRight, ← BitVec.toNat_ushiftRight, ofInt_toNat]

theorem shrTy_n32 (x : DWord) (n : Nat) : shrTy .n32 x n = (lo32 x >>> n).setWidth 64 :=
  congrArg (BitVec.setWidth 64) (ofInt_shr_unsigned (lo32 x) n)

theorem shrTy_i32 (x : DWord) (n : Nat) : shrTy .i32 x n = ((lo32 x).sshiftRight n).setWidth 64 :=
  congrArg (BitVec.setWidth 64) (ofInt_shr_signed (lo32 x) n)

theorem shrTy_n64 (x : DWord) (n : Nat) : shrTy .n64 x n = x >>> n := ofInt_shr_unsigned x n

theorem shrTy_i64 (x : DWord) (n : Nat) : shrTy .i64 x n = x.sshiftRight n := ofInt_shr_signed x n

/-! ### Bitwise operations -/

/-- A bitwise operation of two 32-bit sources, by what it does to the low word: bits above it are not part of the result. -/
theorem lane1R_of_bits2 {i : Instr} {d : Dst} {a : Src} {b : OpB} {f : DWord → DWord → DWord} {g : Word → Word → Word}
    (hi : ∀ s, exec i s = s.bits2 .w32 d a b f) (hf : ∀ x y, lo32 (f x y) = g (lo32 x) (lo32 y)) :
    Lane1R i [.src a false, opndB b false] d false (fun v y fl =>
      lo32 y = lo32 ((g (lo32 (arg v 0)) (lo32 (arg v 1))).setWidth 64) ∧ fl = 0) :=
  lane1R_of_lanewise hi (fun _ => rfl) fun _ => ⟨(hf _ _).trans (lo32_setWidth _).symm, rfl⟩

theorem lo32_andn (x y : DWord) : lo32 (x &&& ~~~y) = lo32 x &&& ~~~lo32 y := by
  rw [lo32, BitVec.setWidth_and, BitVec.setWidth_not (by decide)]
  rfl

end Sys2Proof.Machine

section
open Sys2Proof Sys2Proof.Machine

/-- Settles O11: a bitwise operation acts bit by bit; a shift by the width or more leaves zeros or the sign. -/
theorem bitsAndShifts : Obligations.BitsAndShifts := by
  unfold Obligations.BitsAndShifts
  intro d a b n w sn sw ops
  refine ⟨?_, ?_, ?_, ?_, ?_, ?_, ?_, ?_, ?_, ?_, ?_, ?_, ?_, ?_, ?_, ?_⟩
  · exact lane1R_of_bits2 (g := (· &&& ·)) (fun _ => rfl) fun _ _ => BitVec.setWidth_and
  · exact lane1R_of_bits2 (g := (· ||| ·)) (fun _ => rfl) fun _ _ => BitVec.setWidth_or
  · exact lane1R_of_bits2 (g := (· ^^^ ·)) (fun _ => rfl) fun _ _ => BitVec.setWidth_xor
  · exact lane1R_of_bits2 (f := fun x y => x &&& ~~~y) (g := fun x y => x &&& ~~~y) (fun _ => rfl) lo32_andn
  · exact lane1_of_val (fun _ => rfl) fun _ => rfl
  · exact lane1_of_val (fun _ => rfl) fun _ => rfl
  · exact lane1_of_val (fun _ => rfl) fun _ => rfl
  · exact lane1_of_val (fun _ => rfl) fun _ => rfl
  · exact lane1_of_val (fun _ => rfl) fun _ => shlW_narrow _ _
  · exact lane1_of_val (fun _ => rfl) fun _ => shlW_wide _ _
  · exact lane1_of_val (fun _ => rfl) fun _ => shrTy_n32 _ _
  · exact lane1_of_val (fun _ => rfl) fun _ => shrTy_i32 _ _
  · exact lane1_of_val (fun _ => rfl) fun _ => shrTy_n64 _ _
  · exact lane1_of_val (fun _ => rfl) fun _ => shrTy_i64 _ _
  · exact lane1_of_val (fun _ => rfl) fun _ => rfl
  · exact lane1_of_val (fun _ => rfl) fun _ => rfl

end

/-! O12: counts of bits and bit fields (05 R159, R160). -/
namespace Sys2Proof.Machine

/-! ### Counts -/

/-- A count, by what its number says of the source. -/
theorem lane1R_of_count {i : Instr} {wd : Wd} {d : Dst} {a : Src} (f : Nat → DWord → Nat)
    {R : List DWord → DWord → Word → Prop}
    (hi : ∀ s, exec i s = s.count wd d a f) (hle : ∀ x, f (wdW wd) x ≤ wdW wd)
    (hR : ∀ v y, y.toNat = f (wdW wd) (arg v 0) → R v y 0) : Lane1R i [.src a (wd64 wd)] d false R := by
  refine lane1R_of_lanewise hi (fun _ => rfl) fun v => hR v _ ?_
  have hwidth : wdW wd ≤ 64 := by cases wd <;> decide
  have hcount := hle (arg v 0)
  exact BitVec.toNat_ofNat .. |>.trans (Nat.mod_eq_of_lt (by omega))

theorem popcount_eq_countP (W : Nat) (x : DWord) : popcount W x = (List.range W).countP (fun k => x.getLsbD k) :=
  List.countP_eq_length_filter.symm

theorem popcount_le (W : Nat) (x : DWord) : popcount W x ≤ W := by
  rw [popcount_eq_countP]
  exact List.countP_le_length.trans_eq List.length_range

/-- The first index below `W` that satisfies `p`, `W` where there is none. -/
theorem find?_range_getD_spec {W n : Nat} {p : Nat → Bool} (hn : n = ((List.range W).find? p).getD W) :
    n ≤ W ∧ (∀ k, k < n → p k = false) ∧ (n < W → p n = true) := by
  cases hfind : (List.range W).find? p with
  | none =>
    rw [hfind, Option.getD_none] at hn
    rw [List.find?_range_eq_none] at hfind
    subst hn
    exact ⟨le_rfl, fun k hk => by simpa using hfind k hk, fun hlt => absurd hlt (lt_irrefl _)⟩
  | some m =>
    rw [hfind, Option.getD_some] at hn
    obtain ⟨hp, hm, hbelow⟩ := List.find?_range_eq_some.1 hfind
    subst hn
    exact ⟨(List.mem_range.1 hm).le, fun k hk => by simpa using hbelow k hk, fun _ => hp⟩

/-- A count of the zeros before the first 1 bit, in the order of the places `at_`. -/
theorem lane1R_of_firstBit {i : Instr} {wd : Wd} {d : Dst} {a : Src} (f : Nat → DWord → Nat) (at_ : Nat → Nat)
    (hi : ∀ s, exec i s = s.count wd d a f)
    (hf : ∀ x, f (wdW wd) x = ((List.range (wdW wd)).find? (fun k => x.getLsbD (at_ k))).getD (wdW wd)) :
    Lane1R i [.src a (wd64 wd)] d false (fun v y fl => y.toNat ≤ wdW wd ∧ fl = 0 ∧
      (∀ k, k < y.toNat → (arg v 0).getLsbD (at_ k) = false) ∧
      (y.toNat < wdW wd → (arg v 0).getLsbD (at_ y.toNat) = true)) := by
  refine lane1R_of_count f hi (fun x => (find?_range_getD_spec (hf x)).1) fun v y hy => ?_
  obtain ⟨hle, hzeros, hone⟩ := find?_range_getD_spec (hy.trans (hf (arg v 0)))
  exact ⟨hle, rfl, hzeros, hone⟩

/-! ### The reversed pattern -/

theorem getLsbD_reverse {w k : Nat} (x : BitVec w) (hk : k < w) : x.reverse.getLsbD k = x.getLsbD (w - 1 - k) := by
  rw [BitVec.getLsbD_reverse, BitVec.getMsbD_eq_getLsbD, decide_eq_true hk, Bool.true_and]

theorem getLsbD_lo32 (x : DWord) {k : Nat} (hk : k < 32) : (lo32 x).getLsbD k = x.getLsbD k := by
  rw [lo32, BitVec.getLsbD_setWidth, decide_eq_true hk, Bool.true_and]

theorem getLsbD_reverse_lo32 (x : DWord) {k : Nat} (hk : k < 32) :
    ((lo32 x).reverse.setWidth 64).getLsbD k = x.getLsbD (31 - k) := by
  rw [BitVec.getLsbD_setWidth, decide_eq_true (by omega : k < 64), Bool.true_and, getLsbD_reverse _ hk, getLsbD_lo32 _ (by omega)]

/-! ### Bit fields -/

theorem getLsbD_ones (len k : Nat) : (ones len).getLsbD k = (decide (k < 64) && decide (k < len)) := by
  rw [ones, BitVec.getLsbD_ofNat, Nat.testBit_two_pow_sub_one]

/-- A field has a bit and fits its width. -/
theorem fieldOk_iff {w64 : Bool} {pos len : BitVec 8} : fieldOk w64 pos len = true ↔
    0 < len.toNat ∧ pos.toNat < (if w64 then 64 else 32) ∧ pos.toNat + len.toNat ≤ (if w64 then 64 else 32) := by
  simp [fieldOk, and_assoc, ← BitVec.toNat_inj, Nat.pos_iff_ne_zero]

/-- A field inserted, bit by bit. -/
theorem getLsbD_bfi (x y : DWord) {pos len k : Nat} (hfit : pos + len ≤ 64) (hk : k < 64) :
    ((x &&& ~~~(ones len <<< pos)) ||| ((y &&& ones len) <<< pos)).getLsbD k =
      if pos ≤ k ∧ k < pos + len then y.getLsbD (k - pos) else x.getLsbD k := by
  simp only [BitVec.getLsbD_or, BitVec.getLsbD_and, BitVec.getLsbD_not, BitVec.getLsbD_shiftLeft, getLsbD_ones]
  split
  next hin =>
    have hpos : ¬ k < pos := by omega
    have hbit : k - pos < 64 := by omega
    have hlen : k - pos < len := by omega
    simp [hk, hpos, hbit, hlen]
  next hout =>
    rcases (by omega : k < pos ∨ ¬ k - pos < len) with hbelow | habove
    · simp [hk, hbelow]
    · simp [hk, habove]

theorem shr_and_ones (x : DWord) (pos len : Nat) : x >>> pos &&& ones len = (x.extractLsb' pos len).setWidth 64 := by
  apply BitVec.eq_of_getLsbD_eq
  intro k hk
  rw [BitVec.getLsbD_and, getLsbD_ones, BitVec.getLsbD_setWidth, BitVec.getLsbD_extractLsb', BitVec.getLsbD_ushiftRight,
    decide_eq_true hk, Bool.true_and, Bool.true_and, Bool.and_comm]

/-- A field, read with the sign of a type. -/
def fieldInt (ty : IntTy) {len : Nat} (f : BitVec len) : Int := if itSigned ty then f.toInt else f.toNat

theorem wrapW_toNat {w64 : Bool} {len : Nat} (f : BitVec len) (hlen : len ≤ if w64 then 64 else 32) :
    wrapW w64 (f.toNat : Int) = f.setWidth 64 := by
  cases w64 with
  | false =>
    have hlt : f.toNat < 2 ^ 32 := f.isLt.trans_le (Nat.pow_le_pow_right (by decide) hlen)
    apply BitVec.eq_of_toNat_eq
    rw [wrapW, if_neg Bool.false_ne_true, BitVec.ofInt_natCast, BitVec.toNat_setWidth, BitVec.toNat_setWidth, BitVec.toNat_ofNat,
      Nat.mod_eq_of_lt hlt]
  | true => exact (BitVec.ofInt_natCast 64 f.toNat).trans (BitVec.ofNat_toNat 64 f)

theorem fieldInt_mem {ty : IntTy} {len : Nat} (f : BitVec len) (hlen : len ≤ if it64 ty then 64 else 32) :
    leastOf ty ≤ fieldInt ty f ∧ fieldInt ty f ≤ mostOf ty := by
  have hlt : (f.toNat : Int) < 2 ^ len := by exact_mod_cast f.isLt
  have hwide : (2 : Int) ^ len ≤ 2 ^ (if it64 ty then 64 else 32) := pow_le_pow_right₀ (by decide) hlen
  have hhalf : (2 : Int) ^ (len - 1) ≤ 2 ^ ((if it64 ty then 64 else 32) - 1) := pow_le_pow_right₀ (by decide) (by omega)
  have hlo := f.le_toInt
  have hhi := f.toInt_lt
  unfold leastOf mostOf fieldInt
  split <;> omega

/-- The field that `bfx` delivers is the integer that it reads, wrapped. -/
theorem bfxVal_eq {ty : IntTy} (x : DWord) {pos len : Nat} (hpos : 0 < len) (hlen : len ≤ if it64 ty then 64 else 32) :
    bfxVal ty x pos len = wrapW (it64 ty) (fieldInt ty (x.extractLsb' pos len)) := by
  unfold bfxVal fieldInt
  rw [shr_and_ones]
  dsimp only
  generalize x.extractLsb' pos len = f
  have h64 : len ≤ 64 := hlen.trans (by split <;> decide)
  have htop : (f.setWidth 64).getLsbD (len - 1) = f.msb := by
    rw [BitVec.getLsbD_setWidth, BitVec.msb_eq_getLsbD_last, decide_eq_true (by omega), Bool.true_and]
  rw [htop, BitVec.toNat_setWidth_of_le h64, BitVec.toInt_eq_msb_cond, ← wrapW_toNat f hlen]
  cases itSigned ty <;> cases f.msb <;> simp

end Sys2Proof.Machine

section
open Sys2Proof Sys2Proof.Machine

/-- Settles O12: a count finds its bits, and a field is read and inserted bit by bit. -/
theorem countsAndFields : Obligations.CountsAndFields := by
  unfold Obligations.CountsAndFields
  intro wd d a b pos len W one
  refine ⟨?_, ?_, ?_, ?_, fun hok => ?_, fun ty hok => ?_⟩
  · exact lane1R_of_count popcount (fun _ => rfl) (popcount_le _) fun v y hy => ⟨hy.trans (popcount_eq_countP _ _), rfl⟩
  · exact lane1R_of_firstBit leading (fun k => W - 1 - k) (fun _ => rfl) fun _ => rfl
  · exact lane1R_of_firstBit trailing (fun k => k) (fun _ => rfl) fun _ => rfl
  · refine lane1R_of_lanewise (fun _ => rfl) (fun _ => rfl) fun v => ⟨rfl, fun k hk => ?_⟩
    cases wd with
    | w32 => exact getLsbD_reverse_lo32 _ hk
    | w64 => exact getLsbD_reverse _ hk
  · obtain ⟨-, -, hfit⟩ := fieldOk_iff.1 hok
    have hwidth : W ≤ 64 ∧ (if wd64 wd then 64 else 32) = W := by cases wd <;> decide
    exact lane1R_of_lanewise (fun _ => rfl) (fun _ => rfl) fun v => ⟨rfl, fun k hk => getLsbD_bfi _ _ (by omega) (by omega)⟩
  · obtain ⟨hpos, -, hfit⟩ := fieldOk_iff.1 hok
    have hlen : len.toNat ≤ if it64 ty then 64 else 32 := by omega
    refine lane1R_of_lanewise (fun _ => rfl) (fun _ => rfl) fun v => ⟨rfl, ?_⟩
    obtain ⟨hlo, hhi⟩ := fieldInt_mem (ty := ty) ((arg v 0).extractLsb' pos.toNat len.toNat) hlen
    exact (congrArg (typed ty) (bfxVal_eq _ hpos hlen)).trans (typed_wrapW hlo hhi)

end

/-! O13: compare, select and move (05 R161 to R163, R150). -/
namespace Sys2Proof.Machine

/-- A compare, by its predicate. -/
theorem maskInstr_cmp {ty : IntTy} {d : BitVec 4} {a : Src} {x : OpB} (c : CmpPred) {r : Int → Int → Bool}
    (hr : ∀ i j, cmpHolds c i j = r i j) : MaskInstr (.cmp c ty d a x) [.src a (it64 ty), opndB x (it64 ty)] d
      (fun _ v => r (typed ty (arg v 0)) (typed ty (arg v 1))) (fun _ => 0) :=
  maskInstr_of_truth (fun _ _ hh => exec_withHere hh _) fun _ _ => hr _ _

/-- Select, by the bit of its mask: index 0 names the present lanes. -/
theorem bit_mask_iff (g : Group) (c : BitVec 4) (k : Nat) : bit (g.mask c) k = true ↔
    c = 0 ∧ g.present.getLsbD k = true ∨ c ≠ 0 ∧ (g.m.getD c.toNat 0).getLsbD k = true := by
  unfold Group.mask bit
  split
  next hc => simp only [hc, ne_eq, not_true_eq_false, true_and, false_and, or_false]
  next hc => simp only [hc, ne_eq, not_false_eq_true, true_and, false_and, false_or]

theorem laneInstr_movImm (wd : Wd) (d : Dst) (w : Word) :
    LaneInstr (.mov wd d (.imm w)) [opndB (.imm w) (wd64 wd)] d (wd64 wd) 1 Always
      (fun _ _ _ => if wd64 wd then w.signExtend 64 else w.setWidth 64) (fun _ _ _ => 0) :=
  laneInstr_of_vec (F := fun _ _ _ vs => { val := arg vs 0 }) (fun _ _ hh _ => exec_withHere hh _) (fun _ _ _ _ _ => rfl)
    (fun _ _ _ _ _ => rfl) fun _ _ _ _ _ => rfl

end Sys2Proof.Machine

section
open Sys2Proof Sys2Proof.Machine

/-- Settles O13: a compare writes its predicate, a select follows its mask, a move delivers what it reads. -/
theorem compareSelectMove : Obligations.CompareSelectMove := by
  unfold Obligations.CompareSelectMove
  intro ty wd d4 c d a b x w ops p
  refine ⟨?_, ?_, ?_, ?_, ?_, ?_, ?_, ?_, ?_, ?_⟩
  · exact maskInstr_cmp .eq fun _ _ => rfl
  · exact maskInstr_cmp .ne fun _ _ => decide_not
  · exact maskInstr_cmp .lt fun _ _ => rfl
  · exact maskInstr_cmp .le fun _ _ => rfl
  · exact maskInstr_cmp .gt fun _ _ => rfl
  · exact maskInstr_cmp .ge fun _ _ => rfl
  · refine laneInstr_of_val (fun s h hh => exec_withHere hh _) fun h k vs => ?_
    simp only [bit_mask_iff]
  · exact lane1_of_val (fun _ => rfl) fun _ => rfl
  · exact laneInstr_movImm .w32 d w
  · exact laneInstr_movImm .w64 d w

end

/-! O14: addresses and identity (05 R166 to R169). -/
namespace Sys2Proof.Machine

/-- The window of an address, as the place of the address in it. -/
theorem inWindow_iff (h : Here) (w : Window) (x : DWord) : h.inWindow w x = true ↔
    (windowBase w).toNat ≤ x.toNat ∧ x.toNat < (windowBase w).toNat + h.windowSize w := by
  simp [Here.inWindow]

/-- A test of a space, by what the space is. -/
theorem maskInstr_ats {d : BitVec 4} {a : Src} {sp : Space} {p : Here → List DWord → Bool}
    (hp : ∀ h v, h.inSpace sp (arg v 0) = true ↔ p h v = true) : MaskInstr (.ats sp d a) [.src a true] d p (fun _ => 0) :=
  maskInstr_of_truth (fun _ _ hh => exec_withHere hh _) fun h v => Bool.eq_iff_iff.2 (hp h v)

/-- Global is what no window holds. -/
theorem inSpace_global_iff (h : Here) (x : DWord) : h.inSpace .global x = true ↔
    ¬ h.inWindow .lane x = true ∧ ¬ h.inWindow .shared x = true ∧ ¬ h.inWindow .cluster x = true := by
  simp [Here.inSpace, and_assoc]

end Sys2Proof.Machine

section
open Sys2Proof Sys2Proof.Machine

/-- Settles O14: a conversion and a test ask whether an address stands in a window. -/
theorem addressesAndIdentity : Obligations.AddressesAndIdentity := by
  unfold Obligations.AddressesAndIdentity
  intro w d d4 a b disp item inside
  refine ⟨?_, ?_, ?_, ?_, ?_, ?_, ?_, ?_⟩
  · exact lane1_of_val (fun _ => rfl) fun _ => rfl
  · refine laneInstr_of_val (fun s h hh => exec_withHere hh _) fun h k vs => ?_
    simp only [inWindow_iff, inside]
  · exact laneInstr_of_val (fun s h hh => exec_withHere hh _) fun _ _ _ => rfl
  · exact maskInstr_ats fun h v => (inWindow_iff h .lane _).trans decide_eq_true_iff.symm
  · exact maskInstr_ats fun h v => (inWindow_iff h .shared _).trans decide_eq_true_iff.symm
  · exact maskInstr_ats fun h v => (inWindow_iff h .cluster _).trans decide_eq_true_iff.symm
  · refine maskInstr_ats fun h v => ?_
    rw [inSpace_global_iff, inWindow_iff, inWindow_iff, inWindow_iff, decide_eq_true_iff]
  · exact laneInstr_of_val (fun s h hh => exec_withHere hh _) fun _ _ _ => rfl

end

/-! O15: relative register addressing (05 R170 to R172). -/
namespace Sys2Proof.Machine

theorem foldl_or_zero (l : List Nat) (x : Word) : l.foldl (fun x _ => x ||| (0 : Word)) x = x :=
  List.foldl_fixed' (fun _ => BitVec.or_zero) l

/-! ### What an instruction without a destination leaves -/

/-- An instruction whose effect `f` is a change of its group beside what it reads, and whose lanes set no flag. -/
theorem vec_changes {s : State} {h : Here} {v : VecIn} {eff} {f : Group → Group} (hd : v.dst = none) (hr : Runs s h v.ops [])
    (hout : ∀ k ∈ h.lanes, (v.out h (s.readStreams h (streamsOf v.ops)).1 k).fault = none ∧
      (v.out h (s.readStreams h (streamsOf v.ops)).1 k).flags = 0)
    (he : ∀ u : State, eff u 32 (h.lanes.map (fun k =>
      (k, v.out h (s.readStreams h (streamsOf v.ops)).1 k))) = (u.modG h f, []))
    (hf : ∀ g, (f g).vregs = g.vregs ∧ (f g).sd = g.sd ∧ (f g).seen = g.seen ∧ (f g).iflags = g.iflags) :
    ∃ g fl l, g = h.ending v fl [] (f (h.grp.addSeen l)) ∧ (s.vec h v none eff).faults = s.faults ∧
      SameMem s (s.vec h v none eff) ∧ (s.vec h v none eff).mine h = some g ∧ OnlyGroup s (s.vec h v none eff) h g ∧
      g.cursor = 32 ∧ g.iflags = h.grp.iflags ∧ SourcesDone h.grp g v.ops [] := by
  obtain ⟨l, hl, hnone, hfaults, hmem, hmine, honly⟩ := vec_group hd hr (fun k hk => (hout k hk).1) he
  obtain ⟨hvregs, hsd, hseen, hflags⟩ := hf (h.grp.addSeen l)
  refine ⟨_, _, l, rfl, hfaults, hmem, hmine, honly, rfl, ?_, ?_⟩
  · rw [Here.ending_iflags, hflags, foldl_or_congr h.lanes _ (fun _ => 0) (fun k hk => (hout k hk).2), foldl_or_zero]
    split
    · exact BitVec.or_zero
    · rfl
  · have hnames : v.names = [] := by rw [VecIn.names, hd]
    rw [← hnames]
    exact Here.ending_sources h v _ [] h.grp _ l hl hnone ⟨hvregs, hsd, hseen⟩

theorem Here.ending_ix (h : Here) (v : VecIn) (fl : Word) (rs : List (Nat × DWord)) (g : Group) :
    (h.ending v fl rs g).ix = g.ix := by
  change (h.ending v fl rs g).bare.ix = g.bare.ix
  rw [Here.ending_bare]

section
variable {α : Type} {f : Pending → α} (hf : ∀ (p : Pending) dead rows, f { p with dead := dead, rows := rows } = f p)
include hf

/-- A freed name marks the results in flight to it, and changes nothing else of them (02 R61). -/
theorem killPend_map (n due : Nat) (ps : List Pending) : (killPend n due ps).map f = ps.map f := by
  induction ps with
  | nil => rfl
  | cons p ps ih =>
    unfold killPend
    split
    · rw [List.map_cons, List.map_cons, ih, hf]
    · rw [List.map_cons, List.map_cons, ih]

theorem Group.free_pend_map (g : Group) (n : Nat) : (g.free n).pend.map f = g.pend.map f := by
  unfold Group.free
  split
  · rfl
  · exact killPend_map hf _ _ _

theorem Group.freeAll_pend_map (g : Group) (frees dst : List Nat) : (g.freeAll frees dst).pend.map f = g.pend.map f := by
  unfold Group.freeAll
  induction once frees generalizing g with
  | nil => rfl
  | cons n l ih =>
    rw [List.foldl_cons, ih]
    split
    · rw [Group.alloc_pend, Group.free_pend_map hf]
    · exact Group.free_pend_map hf g n

theorem Here.ending_pend_map (h : Here) {v : VecIn} (hd : v.dst = none) (fl : Word) (rs : List (Nat × DWord)) (g : Group) :
    (h.ending v fl rs g).pend.map f = g.pend.map f := by
  have hresult : v.result h.grp = none := by rw [VecIn.result, hd, ite_self]
  simp only [Here.ending, hresult, Group.freeAll_pend_map hf]
  split <;> rfl

end

/-! ### Index registers -/

/-- `ixset` and `ixadd` as the skeleton runs them. -/
def Here.indexIn (h : Here) (add : Bool) (ix : BitVec 2) (a : OpB) : VecIn :=
  { ops := [opndB a false], steps := false
    lane := fun k vs => { val := if add then (h.grp.ixLane ix k + (arg vs 0).setWidth 16).setWidth 64 else arg vs 0 } }

/-- The lanes of an index register after those that ran have written it. -/
def writeIndex (outs : List (Nat × LaneOut)) (l : List (BitVec 16)) : List (BitVec 16) :=
  mkLanes (fun k => match look outs k with
    | some o => o.val.setWidth 16
    | none => l.getD k 0)

/-- The lanes of `ks` take what they ran; every other lane keeps its index. -/
theorem writeIndex_getD (ks : List Nat) (o : Nat → LaneOut) (l : List (BitVec 16)) {k : Nat} (hk : k < 32) :
    (writeIndex (ks.map (fun j => (j, o j))) l).getD k 0 = if k ∈ ks then (o k).val.setWidth 16 else l.getD k 0 := by
  rw [writeIndex, mkLanes_getD _ _ hk]
  by_cases hmem : k ∈ ks
  · rw [look_map_pair ks o k hmem, if_pos hmem]
  · rw [look_map_none ks o k hmem, if_neg hmem]

def Group.putIndex (g : Group) (ix : BitVec 2) (outs : List (Nat × LaneOut)) : Group :=
  { g with ix := g.ix.modify ix.toNat (writeIndex outs) }

theorem exec_index {s : State} {h : Here} (hh : s.here = some h) (add : Bool) (ix : BitVec 2) (a : OpB) :
    exec (if add then .ixadd ix a else .ixset ix a) s = .next (s.vec h (h.indexIn add ix a) none (toIndex h ix)) := by
  cases add <;> exact exec_withHere hh _

theorem Group.putIndex_other (g : Group) {ix : BitVec 2} (outs : List (Nat × LaneOut)) {j : Nat} (hj : j ≠ ix.toNat) :
    (g.putIndex ix outs).ix.getD j [] = g.ix.getD j [] := by
  simp [Group.putIndex, List.getD_eq_getElem?_getD, Ne.symm hj]

theorem Group.putIndex_same (g : Group) {ix : BitVec 2} (outs : List (Nat × LaneOut)) (hlen : ix.toNat < g.ix.length) :
    (g.putIndex ix outs).ix.getD ix.toNat [] = writeIndex outs (g.ix.getD ix.toNat []) := by
  simp [Group.putIndex, List.getD_eq_getElem?_getD, hlen]

/-! ### Register windows -/

section
variable (h : Here) (ix : BitVec 2) (base : BitVec 11) (disp : BitVec 16) (len : BitVec 9)

/-- The name at a lane's index. -/
def Here.reached (k : Nat) : Nat := base.toNat + (h.windowIx ix disp k).toNat

/-- Every active lane's index is in the window, and reaches a written name. -/
def Here.InWindow : Prop :=
  ∀ k ∈ h.lanes, 0 ≤ h.windowIx ix disp k ∧ h.windowIx ix disp k < len.toNat ∧
    h.grp.written (h.reached ix base disp k) = true

/-- What a lane of `vget` and of `vput` does: `f` of the name that it reaches, or REG_BOUND. -/
def Here.windowOut (f : Nat → LaneOut) (k : Nat) : LaneOut :=
  match h.windowName ix base disp len k with
  | .ok n => f n
  | .error e => { fault := some (cRegBound, e) }

/-- `vput` as the skeleton runs it. -/
def Here.vputIn (b : Src) : VecIn :=
  { ops := [.src b false]
    lane := fun k vs => h.windowOut ix base disp len (fun n => { val := arg vs 0, wreg := some n }) k }

/-- The write of a lane of `vput`, with its result in flight to a name. -/
def Here.vputPend (reg : Option Nat) (k : Nat) (v : DWord) : Pending :=
  { due := h.rg.pos + 1, run := h.reach.run, reg := reg, w64 := false, latch := none, lanes := maskOf (fun j => j == k)
    vals := mkLanes (fun _ => v), dead := [], rows := 0, flags := 0, see := none, item := 0 }

/-- A group with the writes of a `vput` in flight. -/
def Group.vput (g : Group) (outs : List (Nat × LaneOut)) : Group :=
  { g with pend := g.pend ++ outs.map (fun o => h.vputPend (match h.windowName ix base disp len o.1 with
    | .ok n => some n
    | .error _ => none) o.1 o.2.val) }

end

section
variable {h : Here} {ix : BitVec 2} {base : BitVec 11} {disp : BitVec 16} {len : BitVec 9} (hin : h.InWindow ix base disp len)
include hin

theorem windowName_eq {k : Nat} (hk : k ∈ h.lanes) : h.windowName ix base disp len k = .ok (h.reached ix base disp k) := by
  obtain ⟨hlo, hhi, hwritten⟩ := hin k hk
  exact if_neg (not_or.2 ⟨hlo.not_gt, not_or.2 ⟨hhi.not_ge, fun hun => Bool.noConfusion (hwritten.symm.trans hun)⟩⟩)

theorem windowOut_eq (f : Nat → LaneOut) {k : Nat} (hk : k ∈ h.lanes) :
    h.windowOut ix base disp len f k = f (h.reached ix base disp k) := by
  rw [Here.windowOut, windowName_eq hin hk]

theorem Group.vput_pend (g : Group) (o : Nat → LaneOut) :
    (g.vput h ix base disp len (h.lanes.map (fun k => (k, o k)))).pend =
      g.pend ++ h.lanes.map (fun k => h.vputPend (some (h.reached ix base disp k)) k (o k).val) := by
  rw [Group.vput, List.map_map]
  refine congrArg (g.pend ++ ·) (List.map_congr_left fun k hk => ?_)
  simp only [Function.comp, windowName_eq hin hk]

end

theorem vget_laneInstr (ix : BitVec 2) (d : Dst) (base : BitVec 11) (disp : BitVec 16) (len : BitVec 9) :
    LaneInstr (.vget ix d base disp len) [] d false 1 (fun _ h => h.InWindow ix base disp len)
      (fun h k _ => (h.grp.vlane (h.reached ix base disp k) k).setWidth 64) (fun _ _ _ => 0) := by
  refine laneInstr_of_vec (st := true)
    (F := fun _ h k _ => h.windowOut ix base disp len (fun n => { val := (h.grp.vlane n k).setWidth 64 }) k)
    (fun s h hh _ => exec_withHere hh _) (fun s h hin k hk => ?_) (fun s h hin k hk => ?_) fun s h hin k hk => ?_
  all_goals rw [windowOut_eq hin _ hk]

theorem exec_vput {s : State} {h : Here} (hh : s.here = some h) (ix : BitVec 2) (base : BitVec 11) (b : Src) (disp : BitVec 16)
    (len : BitVec 9) : exec (.vput ix base b disp len) s = .next (s.vec h (h.vputIn ix base disp len b) none
      (fun u _ outs => (u.modG h (fun g => g.vput h ix base disp len outs), []))) :=
  exec_withHere hh _

section
variable {h : Here} {ix : BitVec 2} {base : BitVec 11} {disp : BitVec 16} {len : BitVec 9} (hin : h.InWindow ix base disp len)
  (s : State) (b : Src)
include hin

/-- A lane of a `vput` writes the value that it reads. -/
theorem vputIn_out {k : Nat} (hk : k ∈ h.lanes) :
    (h.vputIn ix base disp len b).out h (s.readStreams h (streamsOf (h.vputIn ix base disp len b).ops)).1 k =
      { val := arg (s.srcs h [.src b false] k) 0, wreg := some (h.reached ix base disp k) } :=
  windowOut_eq hin _ hk

/-- What is in flight after a `vput`, but for the marks of the freed names. -/
theorem vput_inFlight (fl : Word) (l : List Seen) {α : Type} {f : Pending → α}
    (hf : ∀ (p : Pending) dead rows, f { p with dead := dead, rows := rows } = f p) :
    (h.ending (h.vputIn ix base disp len b) fl [] ((h.grp.addSeen l).vput h ix base disp len (h.lanes.map (fun k =>
      (k, (h.vputIn ix base disp len b).out h (s.readStreams h (streamsOf (h.vputIn ix base disp len b).ops)).1 k))))).pend.map f =
    h.grp.pend.map f ++ h.lanes.map (fun k =>
      f (h.vputPend (some (h.reached ix base disp k)) k (arg (s.srcs h [.src b false] k) 0))) := by
  rw [Here.ending_pend_map hf _ rfl, Group.vput_pend hin, List.map_append, List.map_map]
  refine congrArg (h.grp.pend.map f ++ ·) (List.map_congr_left fun k hk => ?_)
  simp only [Function.comp, vputIn_out hin s b hk]

end

end Sys2Proof.Machine

section
open Sys2Proof Sys2Proof.Machine

/-- Settles O15: an index register is one change of the group; a `vput` adds the writes of its lanes to what is in flight. -/
theorem indexedRegisters : Obligations.IndexedRegisters := by
  unfold Obligations.IndexedRegisters
  refine ⟨?_, ?_⟩
  · intro ix a add s h i ops hr hlen
    let out (k : Nat) : LaneOut := (h.indexIn add ix a).out h (s.readStreams h (streamsOf ops)).1 k
    obtain ⟨g, fl, l, hg, hfaults, hmem, hmine, honly, hcursor, hflags, hsrcs⟩ := vec_changes (v := h.indexIn add ix a)
      (eff := toIndex h ix) (f := fun g => g.putIndex ix (h.lanes.map (fun k => (k, out k)))) rfl hr (fun _ _ => ⟨rfl, rfl⟩)
      (fun _ => rfl) fun _ => ⟨rfl, rfl, rfl, rfl⟩
    have hix : g.ix = (h.grp.putIndex ix (h.lanes.map (fun k => (k, out k)))).ix := by
      rw [hg, Here.ending_ix]
      rfl
    refine ⟨_, g, exec_index hr.1 add ix a, hfaults, hmem, hmine, honly, ?_, hcursor, hflags, hsrcs, fun j hj => ?_,
      fun k hk => ?_⟩
    · rw [hg, Here.ending_bare]
      rfl
    · rw [hix]
      exact Group.putIndex_other _ _ hj
    · have hval : (out k).val.setWidth 16 = (if add then (h.grp.ix.getD ix.toNat []).getD k 0 else 0) +
          (arg (s.srcs h ops k) 0).setWidth 16 := by
        cases add
        · exact (BitVec.zero_add _).symm
        · exact (BitVec.setWidth_setWidth_of_le _ (by decide)).trans (BitVec.setWidth_eq _)
      rw [hix, Group.putIndex_same _ _ (ix.isLt.trans_eq hlen.symm), writeIndex_getD _ _ _ hk, hval]
  · intro ix d base b disp len e inside
    refine ⟨vget_laneInstr ix d base disp len, fun s h hr hin => ?_⟩
    obtain ⟨g, fl, l, hg, hfaults, hmem, hmine, honly, hcursor, hflags, hsrcs⟩ := vec_changes (v := h.vputIn ix base disp len b)
      (eff := fun u _ outs => (u.modG h (fun g => g.vput h ix base disp len outs), [])) rfl hr
      (fun k hk => by rw [vputIn_out hin s b hk]; exact ⟨rfl, rfl⟩) (fun _ => rfl) fun _ => ⟨rfl, rfl, rfl, rfl⟩
    refine ⟨_, g, h.grp.pend.map (fun p => (p.due, p.reg, p.w64, p.latch, p.flags)), exec_vput hr.1 ix base b disp len, hfaults,
      hmem, hmine, honly, ?_, hcursor, hflags, hsrcs, ?_, ?_⟩
    · rw [hg, Here.ending_bare]
      rfl
    · rw [hg, vput_inFlight hin s b fl l fun _ _ _ => rfl]
      rfl
    · rw [List.map_drop, hg, vput_inFlight hin s b fl l fun _ _ _ => rfl,
        List.drop_left' ((List.length_map _).trans (List.length_map _).symm)]
      rfl

end

/-! O16: register growth (05 R173, R175). -/
namespace Sys2Proof.Machine

/-- A growth instruction that no check stops: its status, then its change. -/
theorem State.growth_eq {s : State} {h : Here} {d : Dst} (hr : Runs s h [] (dstNames d false)) (status : Word)
    (granted reserve : Nat) :
    s.growth h d status granted reserve = ((s.putAll h d false (status.setWidth 64)).modG h
      (fun g => { g with granted := granted })).modC h (fun c => { c with reserve := reserve }) := by
  obtain ⟨hfaults, -⟩ := putAll_delivers (status.setWidth 64) hr
  have hcursor : h.grp.cursor ≠ 33 := by rw [hr.2.1]; decide
  exact if_pos ⟨congrArg List.length hfaults, hcursor⟩

section
variable {s : State} {h : Here} {d : Dst} (a : OpK) (hr : Runs s h [] (dstNames d false))
include hr

theorem exec_rgrow_granted (hn : (h.uniZ a).toNat ≤ h.ctb.reserve ∧
    h.launch.record.budget + h.grp.granted + (h.uniZ a).toNat ≤ h.launch.record.ceiling) : exec (.rgrow d a) s =
      .next (s.growth h d (BitVec.ofNat 32 (limitField h.launch.record.budget (h.grp.granted + (h.uniZ a).toNat)))
        (h.grp.granted + (h.uniZ a).toNat) (h.ctb.reserve - (h.uniZ a).toNat)) :=
  (exec_withHere hr.1 _).trans (congrArg _ (if_pos hn))

theorem exec_rgrow_refused (hn : ¬ ((h.uniZ a).toNat ≤ h.ctb.reserve ∧
    h.launch.record.budget + h.grp.granted + (h.uniZ a).toNat ≤ h.launch.record.ceiling)) : exec (.rgrow d a) s =
      .next (s.growth h d (BitVec.ofNat 32 (limitField h.launch.record.budget h.grp.granted + 1)) h.grp.granted h.ctb.reserve) :=
  (exec_withHere hr.1 _).trans (congrArg _ (if_neg hn))

end

end Sys2Proof.Machine

section
open Sys2Proof Sys2Proof.Machine

/-- Settles O16: each status is delivered, and the counts change after it. -/
theorem registerGrowth : Obligations.RegisterGrowth := by
  unfold Obligations.RegisterGrowth
  intro d a imm s h hr n b limit grows m after
  refine ⟨fun hgrows => ⟨_, putAll_delivers _ hr, ?_⟩, fun hnot => ⟨_, putAll_delivers _ hr, ?_⟩,
    ⟨_, putAll_delivers _ hr, ?_⟩, _, exec_withHere hr.1 _, putAll_delivers _ hr⟩
  · exact (exec_rgrow_granted a hr hgrows).trans (congrArg _ (State.growth_eq hr _ _ _))
  · exact (exec_rgrow_refused a hr hnot).trans (congrArg _ (State.growth_eq hr _ _ _))
  · exact (exec_withHere hr.1 _).trans (congrArg _ (State.growth_eq hr _ _ _))

end

/-! O25 and O26 fail in one case: without an active lane a group-wide instruction "writes nothing", and the statements ask that
the results in flight stay as they are; but the instruction still ends, and its last read frees its source, which marks the
results in flight to that register (02 R60, R61). -/
namespace Sys2Proof.Machine

/-- A result in flight to v2. -/
def Pending.toV2 : Pending where
  due := 2
  run := 0
  reg := some 2
  w64 := false
  latch := none
  lanes := 1
  vals := []
  dead := []
  rows := 0
  flags := 0
  see := none
  item := 0

/-- A group without an active lane, whose v2 is written and has a later result in flight. -/
def Group.idle : Group :=
  { Group.start 0xFFFFFFFF with
    prd := 0, vregs := [{ name := 2, written := true, val := List.replicate 32 0 }], pend := [Pending.toV2] }

/-- Its CTB. -/
def Ctb.idle : Ctb := { Ctb.small with groups := [Group.idle] }

/-- Its reach. -/
def Reach.idle : Reach := { Reach.small with ctbs := [(0, Ctb.idle)] }

/-- The position that it executes. -/
def Here.idle : Here where
  cur := { row := 0, slot := 0, col := 0, grp := 0, handler := false, head := true, pc := 0x10000, ilen := 8, only := none }
  reach := Reach.idle
  rg := RGroup.start 0x10000 (List.replicate 64 0) 0 0
  ctb := Ctb.idle
  grp := Group.idle
  launch := Launch.small true

/-- The device at that position. -/
def State.idle : State :=
  { State.reset with launches := [Launch.small true], reaches := [Reach.idle], cur := some Here.idle.cur }

theorem lanes_idle : Here.idle.lanes = [] := by decide

/-- Nothing stops an instruction that reads v2 for the last time and writes a latch. -/
theorem runs_idle {ops : List Opnd} (hundef : Here.idle.undef ops = none) (hstreams : streamsOf ops = []) :
    Runs State.idle Here.idle ops (dstNames (.latch 0) false) := by
  have hdisarmed : ∀ b ∈ (State.idle.core Here.idle.q).bcnctl, b.getLsbD 31 = false :=
    fun b hb => (List.eq_of_mem_replicate (n := 16) (a := 0) hb) ▸ rfl
  have hquiet : Quiet State.idle Here.idle := Or.inr ⟨rfl, hdisarmed⟩
  refine ⟨rfl, rfl, rfl, hundef, ?_, ?_, ?_, hquiet⟩
  · exact fun halloc => absurd halloc Bool.false_ne_true
  · rw [hstreams]
    rfl
  · rw [lanes_idle]
    exact fun k hk => absurd hk List.not_mem_nil

/-- After a group-wide instruction whose last read is v2, the result in flight to v2 lands into nothing. -/
def DropsV2 (i : Instr) : Prop :=
  ∃ t, exec i State.idle = .next t ∧
    (t.mine Here.idle).map (fun g => g.pend) = some [{ Pending.toV2 with dead := [2], rows := 1 }]

theorem dropsV2_gred : DropsV2 (.gred .add .n32 .rne (.latch 0) (.v 2 true)) := ⟨_, rfl, by decide⟩

theorem dropsV2_gshuf : DropsV2 (.gshuf .idx (.latch 0) (.v 2 true) (.imm 0)) := ⟨_, rfl, by decide⟩

/-- So it does not leave the results in flight as they are. -/
theorem DropsV2.not_deliversWide {i : Instr} (hi : DropsV2 i) {t : State} (ht : exec i State.idle = .next t) {ops : List Opnd}
    {d : Dst} {w64 : Bool} {n : Nat} {val : Nat → DWord} {fl : Word} :
    ¬ DeliversWide State.idle t Here.idle ops d w64 n val fl := by
  intro hwide
  rw [DeliversWide, if_pos lanes_idle] at hwide
  obtain ⟨-, -, g, hmine, -, -, -, -, hpend, -⟩ := hwide
  obtain ⟨u, hu, hdead⟩ := hi
  obtain rfl : t = u := by injection ht.symm.trans hu
  rw [hmine, Option.map_some, hpend] at hdead
  exact absurd hdead (by decide)

end Sys2Proof.Machine

section
open Sys2Proof.Machine

/-- Refutes O25: the last read of v2, without an active lane, changes the result in flight to it. -/
theorem not_groupReduceAndScan : ¬ Obligations.GroupReduceAndScan := by
  unfold Obligations.GroupReduceAndScan
  intro hall
  obtain ⟨⟨t, f, fl, ht, hwide, -⟩, -⟩ := hall .n32 .rne (.latch 0) (.v 2 true) State.idle Here.idle (runs_idle rfl rfl)
  exact dropsV2_gred.not_deliversWide ht hwide

/-- Refutes O26: the last read of v2, without an active lane, changes the result in flight to it. -/
theorem not_groupExchange : ¬ Obligations.GroupExchange := by
  unfold Obligations.GroupExchange
  intro hall
  obtain ⟨hshuf, -⟩ := hall .idx .w32 (.latch 0) (.v 2 true) (.imm 0) (.imm 0) State.idle Here.idle
  obtain ⟨t, ht, hwide⟩ := hshuf (runs_idle rfl rfl) (by rw [lanes_idle]; simp)
  exact dropsV2_gshuf.not_deliversWide ht hwide

end

/-! Rounding (06 R177, R181): what the model's roundings of ± m × 2^e are, as roundings of rational numbers. -/
namespace Sys2Proof.Machine

/-! ### Rounding to an integer -/

/-- `ratRound` stands between the floor and the ceiling. -/
theorem ratRound_mem_floor_ceil (rm : RM) (o : Int) (x : ℚ) : ⌊x⌋ ≤ ratRound rm o x ∧ ratRound rm o x ≤ ⌈x⌉ := by
  have hle : ⌊x⌋ ≤ ⌈x⌉ := Int.floor_le_ceil x
  have hup (h : x - ⌊x⌋ ≠ 0) : ⌊x⌋ + 1 ≤ ⌈x⌉ := by
    rw [Int.add_one_le_iff, Int.lt_ceil]
    exact lt_of_le_of_ne (Int.floor_le x) fun hx => h (by rw [hx, sub_self])
  cases rm with
  | rne =>
    simp only [ratRound]
    split
    · exact ⟨le_rfl, hle⟩
    next h => exact ⟨by omega, hup fun h0 => h (.inl (by rw [h0]; norm_num))⟩
  | rna =>
    simp only [ratRound]
    split
    · exact ⟨le_rfl, hle⟩
    next h => exact ⟨by omega, hup fun h0 => h (.inl (by rw [h0]; norm_num))⟩
  | rtz =>
    simp only [ratRound]
    split
    · exact ⟨hle, le_rfl⟩
    · exact ⟨le_rfl, hle⟩
  | rup => exact ⟨hle, le_rfl⟩
  | rdn => exact ⟨le_rfl, hle⟩

theorem le_ratRound {rm : RM} {o n : Int} {x : ℚ} (h : (n : ℚ) ≤ x) : n ≤ ratRound rm o x :=
  (Int.le_floor.2 h).trans (ratRound_mem_floor_ceil rm o x).1

theorem ratRound_le {rm : RM} {o n : Int} {x : ℚ} (h : x ≤ (n : ℚ)) : ratRound rm o x ≤ n :=
  (ratRound_mem_floor_ceil rm o x).2.trans (Int.ceil_le.2 h)

theorem ratRound_intCast (rm : RM) (o n : Int) : ratRound rm o (n : ℚ) = n :=
  le_antisymm (ratRound_le le_rfl) (le_ratRound le_rfl)

/-- What `half` says of the discarded part of a number (as in `roundsUp`). -/
def Discards (half : Nat) (d : ℚ) : Prop :=
  half = 0 ∧ d = 0 ∨ half = 1 ∧ 0 < d ∧ d < 1 / 2 ∨ half = 2 ∧ d = 1 / 2 ∨ half = 3 ∧ 1 / 2 < d ∧ d < 1

theorem Discards.iff {half : Nat} {d : ℚ} (h : Discards half d) :
    half ≤ 3 ∧ 0 ≤ d ∧ d < 1 ∧ (d = 0 ↔ half = 0) ∧ (d < 1 / 2 ↔ half ≤ 1) ∧ (d = 1 / 2 ↔ half = 2) := by
  rcases h with ⟨rfl, rfl⟩ | ⟨rfl, h0, h1⟩ | ⟨rfl, rfl⟩ | ⟨rfl, h0, h1⟩
  · norm_num
  · exact ⟨by omega, h0.le, by linarith, iff_of_false h0.ne' (by omega), iff_of_true h1 le_rfl, iff_of_false h1.ne (by omega)⟩
  · norm_num
  · exact ⟨by omega, by linarith, h1, iff_of_false (by linarith) (by omega), iff_of_false h0.le.not_gt (by omega),
      iff_of_false h0.ne' (by omega)⟩

/-- What is discarded of a number other than an integer, as its negative sees it. -/
theorem Discards.one_sub {half : Nat} {d : ℚ} (h : Discards half d) (h0 : half ≠ 0) : Discards (4 - half) (1 - d) := by
  rcases h with ⟨rfl, -⟩ | ⟨rfl, h0, h1⟩ | ⟨rfl, rfl⟩ | ⟨rfl, h0, h1⟩
  · exact absurd rfl h0
  · exact .inr (.inr (.inr ⟨rfl, by linarith, by linarith⟩))
  · exact .inr (.inr (.inl ⟨rfl, by norm_num⟩))
  · exact .inr (.inl ⟨rfl, by linarith, by linarith⟩)

/-- A number with floor `q` is rounded up to the next integer. -/
def ceils (rm : RM) (o q : Int) (half : Nat) : Bool :=
  match rm with
  | .rne => half == 3 || (half == 2 && (q + o) % 2 != 0)
  | .rna => half == 3 || (half == 2 && decide (0 ≤ q))
  | .rtz => half != 0 && decide (q < 0)
  | .rup => half != 0
  | .rdn => false

/-- A rounding to an integer depends on the floor of the number and on how what it discards compares with a half. -/
theorem ratRound_eq_ceils {rm : RM} {o q : Int} {half : Nat} {x : ℚ} (h : Discards half (x - q)) :
    ratRound rm o x = if ceils rm o q half then q + 1 else q := by
  obtain ⟨h3, h0, h1, hz, hlow, htie⟩ := h.iff
  have hfloor : ⌊x⌋ = q := Int.floor_eq_iff.2 ⟨by linarith, by linarith⟩
  have hceil : ⌈x⌉ = if half = 0 then q else q + 1 := by
    split
    next hd =>
      rw [show x = q by linarith [hz.2 hd], Int.ceil_intCast]
    next hd =>
      have hpos : 0 < x - q := lt_of_le_of_ne h0 fun he => hd (hz.1 he.symm)
      rw [Int.ceil_eq_iff]
      push_cast
      exact ⟨by linarith, by linarith⟩
  have hneg : x < 0 ↔ q < 0 := by
    rw [← hfloor, Int.floor_lt]
    norm_num
  cases rm <;>
    simp only [ratRound, ceils, hfloor, hceil, hneg, hlow, htie, Bool.or_eq_true, Bool.and_eq_true, beq_iff_eq, bne_iff_ne,
      decide_eq_true_eq, Bool.false_eq_true, if_false] <;> grind

section
variable {rm : RM} {odd : Bool} {half q : Nat} {o : Int} (h : half ≤ 3) (hodd : odd = true ↔ (o + q) % 2 ≠ 0)
include h hodd

/-- The magnitude of a number that is not negative goes up where the number does. -/
theorem ceils_pos : ceils rm o q half = roundsUp rm false odd half := by
  rw [Bool.eq_iff_iff]
  cases rm <;> simp [ceils, roundsUp, hodd] <;> omega

/-- The magnitude of a negative number goes up where the number goes down. -/
theorem ceils_neg (h0 : half ≠ 0) : ceils rm o (-q - 1) (4 - half) = !roundsUp rm true odd half := by
  have hpar : (-(q : Int) - 1 + o) % 2 = 1 ↔ (o + q) % 2 = 0 := by omega
  rw [Bool.eq_iff_iff]
  cases rm <;> simp [ceils, roundsUp, ← Bool.not_eq_true, hodd, hpar] <;> omega

end

/-- Rounding a magnitude by `roundsUp` rounds the number. -/
theorem ratRound_signed {rm : RM} {neg odd : Bool} {half q : Nat} {o : Int} {a : ℚ} (h : Discards half (a - q))
    (hodd : odd = true ↔ (o + q) % 2 ≠ 0) : ratRound rm o (if neg then -a else a) =
      (if neg then -1 else 1) * ((if roundsUp rm neg odd half then q + 1 else q : Nat) : Int) := by
  obtain ⟨h3, -, -, hz, -⟩ := h.iff
  cases neg with
  | false =>
    simp only [Bool.false_eq_true, if_false, one_mul]
    rw [ratRound_eq_ceils (q := q) (by exact_mod_cast h), ceils_pos h3 hodd]
    split <;> push_cast <;> rfl
  | true =>
    simp only [if_true]
    by_cases h0 : half = 0
    · have ha : -a = ((-q : Int) : ℚ) := by push_cast; linarith [hz.2 h0]
      have hdown : roundsUp rm true odd half = false := by subst h0; cases rm <;> rfl
      rw [ha, ratRound_intCast, hdown]
      simp
    · have hneg : Discards (4 - half) (-a - ((-q - 1 : Int) : ℚ)) := by
        have he : -a - ((-q - 1 : Int) : ℚ) = 1 - (a - q) := by push_cast; ring
        rw [he]
        exact h.one_sub h0
      rw [ratRound_eq_ceils hneg, ceils_neg h3 hodd h0]
      cases roundsUp rm true odd half
      · simp
      · simp
        ring

/-- Rounding a magnitude changes it where something is discarded. -/
theorem rounded_ne_iff {rm : RM} {neg odd : Bool} {half q : Nat} {a : ℚ} (h : Discards half (a - q)) :
    (half != 0) = true ↔ (((if roundsUp rm neg odd half then q + 1 else q : Nat) : Nat) : ℚ) ≠ a := by
  obtain ⟨-, hd0, hd1, hz, -⟩ := h.iff
  rw [bne_iff_ne, not_iff_not]
  constructor
  · intro h0
    have hdown : roundsUp rm neg odd half = false := by subst h0; cases rm <;> rfl
    rw [hdown, if_neg Bool.false_ne_true]
    linarith [hz.2 h0]
  · intro he
    rw [← hz]
    split at he
    · push_cast at he; linarith
    · linarith

end Sys2Proof.Machine

namespace Sys2Proof.Machine

/-! ### What a division and a shift discard -/

theorem discards_div (a : Nat) {b : Nat} (hb : 0 < b) :
    Discards (if a % b = 0 then 0 else if 2 * (a % b) < b then 1 else if 2 * (a % b) = b then 2 else 3)
      ((a : ℚ) / b - (a / b : Nat)) := by
  have hb' : (0 : ℚ) < b := by exact_mod_cast hb
  have hd : (a : ℚ) / b - (a / b : Nat) = (a % b : Nat) / b := by
    have ha : (a : ℚ) = b * (a / b : Nat) + (a % b : Nat) := by exact_mod_cast (Nat.div_add_mod a b).symm
    rw [eq_div_iff hb'.ne', sub_mul, div_mul_cancel₀ _ hb'.ne']
    linarith
  have hlt : a % b < b := Nat.mod_lt a hb
  rw [hd]
  generalize a % b = r at hlt
  have hhalf (x : ℚ) (c : ℚ) : x / b < c ↔ x < c * b := div_lt_iff₀ hb'
  split
  next h => exact .inl ⟨rfl, by rw [h, Nat.cast_zero, zero_div]⟩
  next h =>
    have hpos : (0 : ℚ) < r / b := div_pos (by exact_mod_cast Nat.pos_of_ne_zero h) hb'
    split
    next h2 =>
      have h2' : (2 : ℚ) * r < b := by exact_mod_cast h2
      exact .inr (.inl ⟨rfl, hpos, by rw [div_lt_iff₀ hb']; linarith⟩)
    next h2 =>
      split
      next h3 =>
        have h3' : (2 : ℚ) * r = b := by exact_mod_cast h3
        exact .inr (.inr (.inl ⟨rfl, by rw [div_eq_iff hb'.ne']; linarith⟩))
      next h3 =>
        have h4 : (b : ℚ) < 2 * r := by exact_mod_cast (by omega : b < 2 * r)
        exact .inr (.inr (.inr ⟨rfl, by rw [lt_div_iff₀ hb']; linarith, by rw [div_lt_one hb']; exact_mod_cast hlt⟩))

theorem dropBits_discards (m sh : Nat) : Discards (dropBits m sh).2 ((m : ℚ) / 2 ^ sh - (dropBits m sh).1) := by
  unfold dropBits
  split
  next h => subst h; exact .inl ⟨rfl, by simp⟩
  next h =>
    split
    next hlog =>
      by_cases hm : m = 0
      · subst hm; exact .inl ⟨rfl, by simp⟩
      · have hlt : 2 * m < 2 ^ sh :=
          calc 2 * m < 2 * 2 ^ (Nat.log2 m + 1) := Nat.mul_lt_mul_of_pos_left Nat.lt_log2_self (by decide)
            _ = 2 ^ (Nat.log2 m + 2) := by rw [pow_succ _ (Nat.log2 m + 1), mul_comm]
            _ ≤ 2 ^ sh := Nat.pow_le_pow_right (by decide) hlog.le
        have hlt' : (2 : ℚ) * m < 2 ^ sh := by exact_mod_cast hlt
        have hpos : (0 : ℚ) < m := by exact_mod_cast Nat.pos_of_ne_zero hm
        simp only [hm, if_false, Nat.cast_zero, sub_zero]
        exact .inr (.inl ⟨rfl, by positivity, by rw [div_lt_iff₀ (by positivity)]; linarith⟩)
    next hlog =>
      have hdiv := discards_div m (b := 2 ^ sh) (by positivity)
      have hsh : 2 ^ sh = 2 * 2 ^ (sh - 1) := by rw [← pow_succ', Nat.sub_add_cancel (by omega)]
      have h1 : m % 2 ^ sh < 2 ^ (sh - 1) ↔ 2 * (m % 2 ^ sh) < 2 ^ sh := by omega
      have h2 : m % 2 ^ sh = 2 ^ (sh - 1) ↔ 2 * (m % 2 ^ sh) = 2 ^ sh := by omega
      simp only [Nat.shiftRight_eq_div_pow, h1, h2]
      exact_mod_cast hdiv

/-! ### Values -/

/-- m × 2^e as a rational number. -/
def scaled (m : Nat) (e : Int) : ℚ := m * 2 ^ e

theorem scaled_nonneg (m : Nat) (e : Int) : 0 ≤ scaled m e := by unfold scaled; positivity

theorem scaled_pos {m : Nat} (hm : m ≠ 0) (e : Int) : 0 < scaled m e := by
  have : (0 : ℚ) < m := by exact_mod_cast Nat.pos_of_ne_zero hm
  unfold scaled
  positivity

theorem scaled_eq_zero {m : Nat} {e : Int} : scaled m e = 0 ↔ m = 0 :=
  ⟨fun h => by_contra fun hm => (scaled_pos hm e).ne' h, fun h => by rw [h, scaled, Nat.cast_zero, zero_mul]⟩

theorem rat_fin (neg : Bool) (m : Nat) (e : Int) : (FVal.fin neg m e).rat = if neg then -scaled m e else scaled m e := by
  cases neg <;> simp [FVal.rat, scaled]

theorem abs_rat_fin (neg : Bool) (m : Nat) (e : Int) : |(FVal.fin neg m e).rat| = scaled m e := by
  rw [rat_fin]
  cases neg
  · exact abs_of_nonneg (scaled_nonneg m e)
  · exact (abs_neg _).trans (abs_of_nonneg (scaled_nonneg m e))

theorem rat_fin_eq_zero {neg : Bool} {m : Nat} {e : Int} : (FVal.fin neg m e).rat = 0 ↔ m = 0 := by
  rw [← abs_eq_zero, abs_rat_fin, scaled_eq_zero]

theorem rat_fin_neg {neg : Bool} {m : Nat} {e : Int} (hm : m ≠ 0) : (FVal.fin neg m e).rat < 0 ↔ neg = true := by
  have hpos := scaled_pos hm e
  rw [rat_fin]
  cases neg
  · simpa using hpos.le
  · simpa using hpos

theorem two_zpow_le {a b : Int} : (2 : ℚ) ^ a ≤ 2 ^ b ↔ a ≤ b := zpow_le_zpow_iff_right₀ one_lt_two
theorem two_zpow_lt {a b : Int} : (2 : ℚ) ^ a < 2 ^ b ↔ a < b := zpow_lt_zpow_iff_right₀ one_lt_two
theorem two_zpow_add (a b : Int) : (2 : ℚ) ^ (a + b) = 2 ^ a * 2 ^ b := zpow_add₀ two_ne_zero a b

theorem scaled_div (m : Nat) (e u : Int) : scaled m e / 2 ^ u = scaled m (e - u) := by
  rw [scaled, scaled, zpow_sub₀ two_ne_zero, mul_div_assoc]

theorem scaled_mul (m : Nat) (e u : Int) : scaled m e * 2 ^ u = scaled m (e + u) := by
  rw [scaled, scaled, two_zpow_add, mul_assoc]

/-- The leading bit of m × 2^e has exponent e + log2 m. -/
theorem scaled_bounds {m : Nat} (hm : m ≠ 0) (e : Int) :
    2 ^ (e + Nat.log2 m) ≤ scaled m e ∧ scaled m e < 2 ^ (e + Nat.log2 m + 1) := by
  have hpos : (0 : ℚ) < 2 ^ e := by positivity
  have hlo : (2 : ℚ) ^ Nat.log2 m ≤ m := by exact_mod_cast Nat.log2_self_le hm
  have hhi : (m : ℚ) < 2 ^ (Nat.log2 m + 1) := by exact_mod_cast Nat.lt_log2_self
  have h1 : (2 : ℚ) ^ (e + Nat.log2 m) = 2 ^ Nat.log2 m * 2 ^ e := by rw [two_zpow_add, zpow_natCast, mul_comm]
  have h2 : (2 : ℚ) ^ (e + Nat.log2 m + 1) = 2 ^ (Nat.log2 m + 1) * 2 ^ e := by
    rw [add_assoc, two_zpow_add, mul_comm]
    exact_mod_cast rfl
  rw [h1, h2, scaled]
  exact ⟨mul_le_mul_of_nonneg_right hlo hpos.le, mul_lt_mul_of_pos_right hhi hpos⟩

/-! ### Rounding to units -/

theorem scaled_of_le {m : Nat} {e u : Int} (h : u ≤ e) : scaled m (e - u) = (m <<< (e - u).toNat : Nat) := by
  rw [scaled, Nat.shiftLeft_eq, Nat.cast_mul, Nat.cast_pow, Nat.cast_ofNat, ← zpow_natCast, Int.toNat_of_nonneg (by omega)]

theorem scaled_of_lt {m : Nat} {e u : Int} (h : e < u) : scaled m (e - u) = (m : ℚ) / 2 ^ (u - e).toNat := by
  have : (2 : ℚ) ^ (e - u) = (2 ^ (u - e).toNat)⁻¹ := by
    rw [← zpow_natCast, Int.toNat_of_nonneg (by omega), ← zpow_neg, neg_sub]
  rw [scaled, this, div_eq_mul_inv]

theorem roundAt_of_le {g : Grid} {rm : RM} {neg : Bool} {m : Nat} {e u : Int} (h : u ≤ e) :
    roundAt g rm neg m e u = (m <<< (e - u).toNat, false) := if_pos h

theorem roundAt_of_lt {g : Grid} {rm : RM} {neg : Bool} {m : Nat} {e u : Int} (h : e < u) :
    roundAt g rm neg m e u =
      (if roundsUp rm neg (((u - g.umin) * (2 ^ g.t : Nat) + (dropBits m (u - e).toNat).1) % 2 != 0) (dropBits m (u - e).toNat).2
        then (dropBits m (u - e).toNat).1 + 1 else (dropBits m (u - e).toNat).1, (dropBits m (u - e).toNat).2 != 0) :=
  if_neg (by omega)

theorem discards_scaled {m : Nat} {e u : Int} (h : e < u) :
    Discards (dropBits m (u - e).toNat).2 (scaled m (e - u) - (dropBits m (u - e).toNat).1) := by
  rw [scaled_of_lt h]
  exact dropBits_discards m _

/-- `roundAt` rounds ± m × 2^(e-u) to an integer. -/
theorem ratRound_roundAt (g : Grid) (rm : RM) (neg : Bool) (m : Nat) (e u : Int) :
    ratRound rm ((u - g.umin) * 2 ^ g.t) ((FVal.fin neg m e).rat / 2 ^ u) =
      (if neg then -1 else 1) * ((roundAt g rm neg m e u).1 : Int) := by
  have hx : (FVal.fin neg m e).rat / 2 ^ u = if neg then -scaled m (e - u) else scaled m (e - u) := by
    rw [rat_fin, ← scaled_div]
    cases neg
    · rfl
    · exact neg_div _ _
  rw [hx]
  rcases le_or_gt u e with hue | hue
  · rw [roundAt_of_le hue, scaled_of_le hue]
    generalize m <<< (e - u).toNat = n
    cases neg
    · simpa using ratRound_intCast rm _ (n : Int)
    · simpa using ratRound_intCast rm _ (-n : Int)
  · rw [roundAt_of_lt hue]
    exact ratRound_signed (discards_scaled hue) (by simp)

/-- `roundAt` says whether it changed the number. -/
theorem roundAt_inexact (g : Grid) (rm : RM) (neg : Bool) (m : Nat) (e u : Int) :
    (roundAt g rm neg m e u).2 = true ↔ ((roundAt g rm neg m e u).1 : ℚ) ≠ scaled m (e - u) := by
  rcases le_or_gt u e with hue | hue
  · rw [roundAt_of_le hue, scaled_of_le hue]
    simp
  · rw [roundAt_of_lt hue]
    exact rounded_ne_iff (discards_scaled hue)

theorem roundAt_le {g : Grid} {rm : RM} {neg : Bool} {m : Nat} {e u : Int} {n : Nat} (h : scaled m e ≤ n * 2 ^ u) :
    (roundAt g rm neg m e u).1 ≤ n := by
  have hround := ratRound_roundAt g rm neg m e u
  have habs : |(FVal.fin neg m e).rat / 2 ^ u| ≤ n := by
    rw [abs_div, abs_rat_fin, abs_of_pos (by positivity : (0 : ℚ) < 2 ^ u), div_le_iff₀ (by positivity)]
    exact h
  obtain ⟨hlo, hhi⟩ := abs_le.1 habs
  have h1 := ratRound_le (rm := rm) (o := (u - g.umin) * 2 ^ g.t) (n := n) (by exact_mod_cast hhi)
  have h2 := le_ratRound (rm := rm) (o := (u - g.umin) * 2 ^ g.t) (n := -n) (by push_cast; exact hlo)
  rw [hround] at h1 h2
  cases neg <;> simp at h1 h2 <;> omega

theorem le_roundAt {g : Grid} {rm : RM} {neg : Bool} {m : Nat} {e u : Int} {n : Nat} (h : n * 2 ^ u ≤ scaled m e) :
    n ≤ (roundAt g rm neg m e u).1 := by
  have hround := ratRound_roundAt g rm neg m e u
  have hn : (n : ℚ) ≤ scaled m e / 2 ^ u := (le_div_iff₀ (by positivity)).2 h
  cases neg with
  | false =>
    have h1 := le_ratRound (rm := rm) (o := (u - g.umin) * 2 ^ g.t) (n := n) (x := (FVal.fin false m e).rat / 2 ^ u)
      (by rw [rat_fin]; exact_mod_cast hn)
    rw [hround] at h1
    simpa using h1
  | true =>
    have h1 := ratRound_le (rm := rm) (o := (u - g.umin) * 2 ^ g.t) (n := -n) (x := (FVal.fin true m e).rat / 2 ^ u)
      (by rw [rat_fin, if_pos rfl, neg_div]; push_cast; linarith)
    rw [hround] at h1
    simpa using h1

/-! ### Codes of a grid (06 R180) -/

/-- The magnitude of a code as a rational number. -/
def Grid.magVal (g : Grid) (c : Nat) : ℚ := scaled (g.mag c).1 (g.mag c).2

/-- A magnitude of q units of 2^(umin + k) has code k × 2^t + q. -/
theorem Grid.magVal_code (g : Grid) {k q : Nat} (hq : q ≤ 2 ^ (g.t + 1)) (hk : k = 0 ∨ 2 ^ g.t ≤ q) :
    g.magVal (k * 2 ^ g.t + q) = q * 2 ^ (g.umin + k) := by
  have hp : 0 < 2 ^ g.t := by positivity
  have h2 : 2 ^ (g.t + 1) = 2 * 2 ^ g.t := pow_succ' 2 g.t
  unfold magVal mag scaled
  generalize hP : 2 ^ g.t = P at *
  have hc : (P : ℚ) = ((2 ^ g.t : Nat) : ℚ) := by rw [hP]
  rcases lt_or_ge q P with hlt | hge
  · obtain rfl : k = 0 := by omega
    simp only [Nat.zero_mul, Nat.zero_add, Nat.div_eq_of_lt hlt, Nat.mod_eq_of_lt hlt, if_true, Nat.cast_zero, add_zero]
  · rcases lt_or_ge q (2 * P) with hlt | hge2
    · have hform : k * P + q = q - P + P * (k + 1) := by rw [Nat.mul_add, Nat.mul_one, Nat.mul_comm P k]; omega
      have hdiv : (k * P + q) / P = k + 1 := by
        rw [hform, Nat.add_mul_div_left _ _ hp, Nat.div_eq_of_lt (by omega), Nat.zero_add]
      have hmod : (k * P + q) % P = q - P := by rw [hform, Nat.add_mul_mod_self_left, Nat.mod_eq_of_lt (by omega)]
      simp only [hdiv, hmod, Nat.succ_ne_zero, if_false, Nat.add_sub_cancel, Nat.add_sub_cancel' hge]
    · obtain rfl : q = 2 * P := by omega
      have hdiv : (k * P + 2 * P) / P = k + 2 := by rw [← Nat.add_mul, Nat.mul_div_cancel _ hp]
      have hmod : (k * P + 2 * P) % P = 0 := by rw [← Nat.add_mul, Nat.mul_mod_left]
      have hsub : k + 2 - 1 = k + 1 := rfl
      simp only [hdiv, hmod, Nat.succ_ne_zero, if_false, hsub, Nat.add_zero]
      push_cast
      rw [← add_assoc, two_zpow_add _ 1]
      ring

/-- A code in the form of `Grid.magVal_code`. -/
theorem Grid.code_form (g : Grid) (c : Nat) : ∃ k q, c = k * 2 ^ g.t + q ∧ q + 1 ≤ 2 ^ (g.t + 1) ∧ (k = 0 ∨ 2 ^ g.t ≤ q) := by
  have hp : 0 < 2 ^ g.t := by positivity
  have h2 : 2 ^ (g.t + 1) = 2 * 2 ^ g.t := pow_succ' 2 g.t
  have hc := Nat.div_add_mod c (2 ^ g.t)
  have hm := Nat.mod_lt c hp
  generalize 2 ^ g.t = P at *
  rcases Nat.eq_zero_or_pos (c / P) with h0 | hpos
  · exact ⟨0, c, by omega, by rw [h0] at hc; omega, .inl rfl⟩
  · refine ⟨c / P - 1, P + c % P, ?_, by omega, .inr (by omega)⟩
    calc c = (c / P - 1 + 1) * P + c % P := by rw [Nat.sub_add_cancel hpos, Nat.mul_comm]; exact hc.symm
      _ = (c / P - 1) * P + (P + c % P) := by ring

/-- Greater codes are greater magnitudes. -/
theorem Grid.magVal_strictMono (g : Grid) : StrictMono g.magVal := by
  refine strictMono_nat_of_lt_succ fun c => ?_
  obtain ⟨k, q, rfl, hq, hk⟩ := g.code_form c
  rw [g.magVal_code (by omega) hk, add_assoc, g.magVal_code hq (hk.imp_right fun h => by omega)]
  push_cast
  have : (0 : ℚ) < 2 ^ (g.umin + k) := by positivity
  linarith

theorem Grid.magVal_zero (g : Grid) : g.magVal 0 = 0 := by
  simpa using g.magVal_code (k := 0) (q := 0) (by positivity) (.inl rfl)

/-! ### Rounding to a grid -/

/-- The exponent of the last place of m × 2^e on a grid. -/
def Grid.lastPlace (g : Grid) (m : Nat) (e : Int) : Int := max (e + Nat.log2 m - g.t) g.umin

theorem roundGrid_eq (g : Grid) (rm : RM) (neg : Bool) {m : Nat} (e : Int) (hm : m ≠ 0) :
    roundGrid g rm neg m e =
      let top : Int := e + Nat.log2 m
      { code := (g.lastPlace m e - g.umin).toNat * 2 ^ g.t + (roundAt g rm neg m e (g.lastPlace m e)).1
        inexact := (roundAt g rm neg m e (g.lastPlace m e)).2
        tiny := if top < 1 - g.bias - 1 then true else if 1 - g.bias ≤ top then false
          else decide ((roundAt g rm neg m e (top - g.t)).1 < 2 ^ (g.t + 1)) } := by
  have hu : (if e + Nat.log2 m - g.t < g.umin then g.umin else e + Nat.log2 m - g.t) = g.lastPlace m e := by
    unfold Grid.lastPlace
    split <;> omega
  simp only [roundGrid, if_neg hm, hu]

section
variable (g : Grid) (rm : RM) (neg : Bool) {m : Nat} (e : Int) (hm : m ≠ 0)
include hm

theorem roundAt_lastPlace_le : (roundAt g rm neg m e (g.lastPlace m e)).1 ≤ 2 ^ (g.t + 1) := by
  refine roundAt_le ((scaled_bounds hm e).2.le.trans ?_)
  rw [Nat.cast_pow, Nat.cast_ofNat, ← zpow_natCast, ← two_zpow_add, two_zpow_le, Grid.lastPlace]
  push_cast
  omega

theorem le_roundAt_top : 2 ^ g.t ≤ (roundAt g rm neg m e (e + Nat.log2 m - g.t)).1 := by
  refine le_roundAt (le_trans (le_of_eq ?_) (scaled_bounds hm e).1)
  rw [Nat.cast_pow, Nat.cast_ofNat, ← zpow_natCast, ← two_zpow_add, add_sub_cancel]

theorem roundAt_top_le : (roundAt g rm neg m e (e + Nat.log2 m - g.t)).1 ≤ 2 ^ (g.t + 1) := by
  refine roundAt_le ((scaled_bounds hm e).2.le.trans (le_of_eq ?_))
  rw [Nat.cast_pow, Nat.cast_ofNat, ← zpow_natCast, ← two_zpow_add]
  push_cast
  congr 1
  omega

theorem magVal_roundGrid : g.magVal (roundGrid g rm neg m e).code =
    (roundAt g rm neg m e (g.lastPlace m e)).1 * 2 ^ g.lastPlace m e := by
  have hk : (g.lastPlace m e - g.umin).toNat = 0 ∨ 2 ^ g.t ≤ (roundAt g rm neg m e (g.lastPlace m e)).1 := by
    rcases le_or_gt (e + Nat.log2 m - g.t) g.umin with h | h
    · exact .inl (by unfold Grid.lastPlace; omega)
    · have : g.lastPlace m e = e + Nat.log2 m - g.t := max_eq_left h.le
      rw [this]
      exact .inr (le_roundAt_top g rm neg e hm)
  have hu : g.umin + (g.lastPlace m e - g.umin).toNat = g.lastPlace m e := by
    unfold Grid.lastPlace
    omega
  rw [roundGrid_eq g rm neg e hm, g.magVal_code (roundAt_lastPlace_le g rm neg e hm) hk, hu]

/-- Whether the number is tiny after rounding, as the rounding with no least exponent says. -/
theorem roundGrid_tiny : (roundGrid g rm neg m e).tiny = true ↔
    ((roundAt g rm neg m e (e + Nat.log2 m - g.t)).1 : ℚ) * 2 ^ (e + Nat.log2 m - g.t) < 2 ^ (1 - g.bias) := by
  have hpos : (0 : ℚ) < 2 ^ (e + Nat.log2 m - g.t) := by positivity
  have hlo := le_roundAt_top g rm neg e hm
  have hhi := roundAt_top_le g rm neg e hm
  have hlo' : (2 : ℚ) ^ (e + Nat.log2 m) ≤
      ((roundAt g rm neg m e (e + Nat.log2 m - g.t)).1 : ℚ) * 2 ^ (e + Nat.log2 m - g.t) := by
    have hsplit : (2 : ℚ) ^ (e + Nat.log2 m) = 2 ^ g.t * 2 ^ (e + Nat.log2 m - g.t) := by
      rw [← zpow_natCast, ← two_zpow_add]; congr 1; omega
    rw [hsplit]
    exact mul_le_mul_of_nonneg_right (by exact_mod_cast hlo) hpos.le
  have hsplit : (2 : ℚ) ^ (e + Nat.log2 m + 1) = 2 ^ (g.t + 1) * 2 ^ (e + Nat.log2 m - g.t) := by
    rw [← zpow_natCast, ← two_zpow_add]; congr 1; push_cast; omega
  have hhi' : ((roundAt g rm neg m e (e + Nat.log2 m - g.t)).1 : ℚ) * 2 ^ (e + Nat.log2 m - g.t) ≤ 2 ^ (e + Nat.log2 m + 1) := by
    rw [hsplit]
    exact mul_le_mul_of_nonneg_right (by exact_mod_cast hhi) hpos.le
  rw [roundGrid_eq g rm neg e hm]
  dsimp only
  split
  next h => exact iff_of_true rfl (hhi'.trans_lt (two_zpow_lt.2 (by omega)))
  next h =>
    split
    next h2 => exact iff_of_false Bool.false_ne_true (not_lt.2 ((two_zpow_le.2 h2).trans hlo'))
    next h2 =>
      have htop : 1 - g.bias = e + Nat.log2 m + 1 := by omega
      rw [decide_eq_true_iff, htop, hsplit, mul_lt_mul_iff_left₀ hpos]
      exact_mod_cast Iff.rfl

/-- What `roundGrid` answers is the number rounded to the grid, and whether that is inexact and tiny. -/
theorem roundGrid_onGrid :
    let r := roundGrid g rm neg m e
    let x := (FVal.fin neg m e).rat
    let z := if neg then -g.magVal r.code else g.magVal r.code
    OnGrid g rm x z (r.tiny = true) ∧ (r.inexact = true ↔ z ≠ x) := by
  intro r x z
  have hsign (u : Int) : ((ratRound rm ((u - g.umin) * 2 ^ g.t) (x / 2 ^ u) : Int) : ℚ) * 2 ^ u =
      if neg then -((roundAt g rm neg m e u).1 * 2 ^ u : ℚ) else (roundAt g rm neg m e u).1 * 2 ^ u := by
    rw [ratRound_roundAt]
    cases neg <;> simp
  have hz : z = ((ratRound rm ((g.lastPlace m e - g.umin) * 2 ^ g.t) (x / 2 ^ g.lastPlace m e) : Int) : ℚ) *
      2 ^ g.lastPlace m e := by
    rw [hsign, ← magVal_roundGrid g rm neg e hm]
  obtain ⟨hlo, hhi⟩ := scaled_bounds hm e
  refine ⟨⟨g.lastPlace m e, e + Nat.log2 m - g.t, ?_, ?_, rfl, hz, ?_⟩, ?_⟩
  · rw [abs_rat_fin, sub_add_cancel]; exact hlo
  · rw [abs_rat_fin, sub_add_cancel]; exact hhi
  · rw [roundGrid_tiny g rm neg e hm, hsign]
    have hn : (0 : ℚ) ≤ (roundAt g rm neg m e (e + Nat.log2 m - g.t)).1 * 2 ^ (e + Nat.log2 m - g.t) := by positivity
    cases neg
    · rw [if_neg Bool.false_ne_true, abs_of_nonneg hn]
    · rw [if_pos rfl, abs_neg, abs_of_nonneg hn]
  · have hinexact : r.inexact = (roundAt g rm neg m e (g.lastPlace m e)).2 := by
      rw [show r = _ from roundGrid_eq g rm neg e hm]
    rw [hinexact, roundAt_inexact, ← scaled_div, ne_eq, eq_div_iff (by positivity), ← magVal_roundGrid g rm neg e hm, not_iff_not]
    show _ ↔ (if neg then -g.magVal r.code else g.magVal r.code) = (FVal.fin neg m e).rat
    rw [rat_fin]
    cases neg
    · exact Iff.rfl
    · exact neg_inj.symm

end

theorem roundGrid_zero (g : Grid) (rm : RM) (neg : Bool) (e : Int) :
    roundGrid g rm neg 0 e = { code := 0, inexact := false, tiny := false } := rfl

theorem RoundFlags.of_rounded {x y : ℚ} {r : Rounded} (h : r.inexact = true ↔ y ≠ x) :
    RoundFlags x y (r.tiny = true) (roundFlags r) := by
  obtain ⟨c, i, t⟩ := r
  refine ⟨fun he => ?_, fun he ht => ?_, fun he ht => ?_⟩
  · obtain rfl : i = false := by simpa [he] using h
    simp [roundFlags]
  · obtain rfl : i = true := h.2 he
    obtain rfl : t = true := ht
    rfl
  · obtain rfl : i = true := h.2 he
    obtain rfl : t = false := by simpa using ht
    simp [roundFlags]

end Sys2Proof.Machine

/-! IEEE formats (06 R176 to R178): patterns by sign and magnitude, and the one rounding as a rounding of rational numbers. -/
namespace Sys2Proof.Machine

/-- What the IEEE formats of 06 Table 6.1 have in common: the codes of the finite magnitudes, the infinity and the NaNs lie
below the sign bit, the fraction is of integers up to 2^(t+1). -/
structure Ieee.Regular (f : Ieee) : Prop where
  t_pos : 0 < f.g.t
  width : 2 ^ f.w = 2 * f.signBit
  infCode_add : f.infCode + 2 ^ f.g.t = f.signBit
  infCode_dvd : 2 ^ f.g.t ∣ f.infCode
  infCode_pos : 0 < f.infCode

theorem regular_fp32 : fp32.Regular := by constructor <;> decide
theorem regular_fp16 : fp16.Regular := by constructor <;> decide
theorem regular_bf16 : bf16.Regular := by constructor <;> decide

theorem regular_fltFmt (ty : FltTy) : (fltFmt ty).Regular := by
  cases ty
  · exact regular_fp32
  · exact regular_fp16
  · exact regular_bf16

theorem regular_cvtFmt (c : CvtFmt) : (cvtFmt c).Regular := by
  cases c
  · exact regular_fp32
  · exact regular_fp16
  · exact regular_bf16

theorem regular_halfFmt (bf : Bool) : (halfFmt bf).Regular := by
  cases bf
  · exact regular_fp16
  · exact regular_bf16

namespace Ieee

theorem signBit_pos (f : Ieee) : 0 < f.signBit := by unfold signBit; positivity

theorem low_lt (f : Ieee) (c : Nat) : f.low c < f.signBit := Nat.mod_lt _ f.signBit_pos

section
variable {f : Ieee} (hf : f.Regular)
include hf

theorem infCode_lt : f.infCode < f.signBit := by
  have := hf.infCode_add
  have : 0 < 2 ^ f.g.t := by positivity
  omega

/-! ### Sign and magnitude of a pattern -/

theorem neg_withSign {c : Nat} (n : Bool) (hc : c < f.signBit) : f.neg (f.withSign n c) = n := by
  have := f.signBit_pos
  unfold neg withSign
  rw [hf.width]
  cases n
  · rw [if_neg Bool.false_ne_true, Nat.mod_eq_of_lt (by omega), decide_eq_false_iff_not]
    omega
  · rw [if_pos rfl, Nat.mod_eq_of_lt (by omega), decide_eq_true_iff]
    omega

omit hf in
theorem low_withSign {c : Nat} (n : Bool) (hc : c < f.signBit) : f.low (f.withSign n c) = c := by
  unfold low withSign
  cases n
  · rw [if_neg Bool.false_ne_true, Nat.mod_eq_of_lt hc]
  · rw [if_pos rfl, Nat.add_mod_left, Nat.mod_eq_of_lt hc]

theorem withSign_lt {c : Nat} (n : Bool) (hc : c < f.signBit) : f.withSign n c < 2 ^ f.w := by
  rw [hf.width]
  unfold withSign
  split <;> omega

/-- A pattern is its sign with its magnitude. -/
theorem withSign_neg_low {c : Nat} (hc : c < 2 ^ f.w) : f.withSign (f.neg c) (f.low c) = c := by
  unfold withSign neg low
  have hc' := hf.width ▸ hc
  rw [Nat.mod_eq_of_lt hc]
  split
  next h =>
    have hle : f.signBit ≤ c := of_decide_eq_true h
    rw [Nat.mod_eq_sub_mod hle, Nat.mod_eq_of_lt (by omega)]
    omega
  next h =>
    rw [Nat.mod_eq_of_lt]
    simpa using h

end

/-! ### Values -/

theorem val_eq_nan_iff {f : Ieee} {c : Nat} : f.val c = .nan ↔ f.isNaN c = true := by
  unfold val isNaN
  grind

theorem val_of_isNaN {f : Ieee} {c : Nat} (h : f.isNaN c = true) : f.val c = .nan := val_eq_nan_iff.2 h

theorem val_of_inf {f : Ieee} {c : Nat} (h : f.low c = f.infCode) : f.val c = .inf (f.neg c) := by
  simp [val, h]

theorem val_of_lt {f : Ieee} {c : Nat} (h : f.low c < f.infCode) : f.val c = .fin (f.neg c) (f.g.mag (f.low c)).1 (f.g.mag (f.low c)).2 := by
  simp [val, h.le.not_gt, h.ne]

/-- The cases of a pattern. -/
theorem val_cases (f : Ieee) (c : Nat) : f.isNaN c = true ∧ f.val c = .nan ∨
    f.isNaN c = false ∧ (f.val c = .inf (f.neg c) ∧ f.low c = f.infCode ∨
      f.low c < f.infCode ∧ f.val c = .fin (f.neg c) (f.g.mag (f.low c)).1 (f.g.mag (f.low c)).2) := by
  rcases lt_trichotomy (f.low c) f.infCode with h | h | h
  · exact .inr ⟨by simp [isNaN, h.le], .inr ⟨h, val_of_lt h⟩⟩
  · exact .inr ⟨by simp [isNaN, h], .inl ⟨val_of_inf h, h⟩⟩
  · have hnan : f.isNaN c = true := by simpa [isNaN] using h
    exact .inl ⟨hnan, val_of_isNaN hnan⟩

/-- The number of a finite pattern. -/
theorem rat_val_of_lt {f : Ieee} {c : Nat} (h : f.low c < f.infCode) :
    (f.val c).rat = if f.neg c then -f.g.magVal (f.low c) else f.g.magVal (f.low c) := by
  rw [val_of_lt h, rat_fin]
  rfl

section
variable {f : Ieee} (hf : f.Regular)
include hf

theorem rat_val_withSign {c : Nat} (n : Bool) (hc : c < f.infCode) :
    (f.val (f.withSign n c)).rat = if n then -f.g.magVal c else f.g.magVal c := by
  have hlt := hc.trans (infCode_lt hf)
  rw [rat_val_of_lt (by rwa [low_withSign n hlt]), neg_withSign hf n hlt, low_withSign n hlt]

theorem finite_val_withSign {c : Nat} (n : Bool) (hc : c < f.infCode) : (f.val (f.withSign n c)).finite = true := by
  have hlt := hc.trans (infCode_lt hf)
  rw [val_of_lt (by rwa [low_withSign n hlt])]
  rfl

/-- The greatest finite number. -/
theorem rat_val_most : (f.val (f.infCode - 1)).rat = f.g.magVal (f.infCode - 1) := by
  have := hf.infCode_pos
  exact rat_val_withSign hf false (c := f.infCode - 1) (by omega)

omit hf in
theorem toInf_eq_overInf (rm : RM) (neg : Bool) : toInf rm neg = overInf rm neg := by
  cases rm <;> cases neg <;> rfl

/-! ### Rounding -/

omit hf in
theorem round_of_lt {rm : RM} {n : Bool} {m : Nat} {e : Int} (h : (roundGrid f.g rm n m e).code < f.infCode) :
    f.round rm n m e = (f.withSign n (roundGrid f.g rm n m e).code, roundFlags (roundGrid f.g rm n m e)) :=
  if_neg h.not_ge

omit hf in
theorem round_of_ge {rm : RM} {n : Bool} {m : Nat} {e : Int} (h : f.infCode ≤ (roundGrid f.g rm n m e).code) :
    f.round rm n m e = (f.withSign n (if overInf rm n then f.infCode else f.infCode - 1), fOVF ||| fINX) := by
  rw [← toInf_eq_overInf]
  exact if_pos h

/-- The pattern that a rounding delivers, by its magnitude. -/
theorem round_withSign (rm : RM) (n : Bool) (m : Nat) (e : Int) :
    ∃ c, c < f.signBit ∧ (f.round rm n m e).1 = f.withSign n c := by
  have hlt := infCode_lt hf
  rcases lt_or_ge (roundGrid f.g rm n m e).code f.infCode with h | h
  · exact ⟨_, h.trans hlt, by rw [round_of_lt h]⟩
  · refine ⟨_, ?_, by rw [round_of_ge h]⟩
    split <;> omega

theorem round_lt (rm : RM) (n : Bool) (m : Nat) (e : Int) : (f.round rm n m e).1 < 2 ^ f.w := by
  obtain ⟨c, hc, he⟩ := round_withSign hf rm n m e
  rw [he]
  exact withSign_lt hf n hc

/-- A zero keeps its sign. -/
theorem round_zero (rm : RM) (n : Bool) (e : Int) : f.round rm n 0 e = (f.withSign n 0, 0) := by
  rw [round_of_lt (by rw [roundGrid_zero]; exact hf.infCode_pos), roundGrid_zero]
  simp [roundFlags]

/-- 06 R177: `Ieee.round` is Round of ± m × 2^e. -/
theorem round_roundsTo (rm : RM) (n : Bool) {m : Nat} (e : Int) (hm : m ≠ 0) :
    RoundsTo f rm (FVal.fin n m e).rat (f.round rm n m e) := by
  obtain ⟨hgrid, hinexact⟩ := roundGrid_onGrid f.g rm n e hm
  have hlt := infCode_lt hf
  have hpos := hf.infCode_pos
  have hsign : decide ((FVal.fin n m e).rat < 0) = n := by
    rw [Bool.eq_iff_iff, decide_eq_true_iff]
    exact rat_fin_neg hm
  have hneg : f.neg (f.round rm n m e).1 = n := by
    obtain ⟨c, hc, he⟩ := round_withSign hf rm n m e
    rw [he, neg_withSign hf n hc]
  have hmag (c : Nat) : |if n then -f.g.magVal c else f.g.magVal c| = f.g.magVal c := by
    have h0 : 0 ≤ f.g.magVal c := scaled_nonneg _ _
    cases n
    · exact abs_of_nonneg h0
    · exact (abs_neg _).trans (abs_of_nonneg h0)
  refine ⟨_, _, hgrid, round_lt hf rm n m e, by rw [hneg, hsign], ?_⟩
  rw [hsign, rat_val_most hf, hmag, f.g.magVal_strictMono.le_iff_le, f.g.magVal_strictMono.lt_iff_lt]
  refine ⟨fun hle => ?_, fun hover => ?_⟩
  · have hcode : (roundGrid f.g rm n m e).code < f.infCode := by omega
    rw [round_of_lt hcode]
    exact ⟨finite_val_withSign hf n hcode, rat_val_withSign hf n hcode, RoundFlags.of_rounded hinexact⟩
  · rw [round_of_ge (by omega)]
    refine ⟨rfl, low_withSign n ?_⟩
    split <;> omega

/-- 06 R177, with the sign of an exact zero. -/
theorem round_roundsToZ (rm : RM) (n : Bool) (m : Nat) (e : Int) :
    RoundsToZ f rm (FVal.fin n m e).rat n (f.round rm n m e) := by
  refine ⟨fun h0 => ?_, fun h0 => ?_⟩
  · rw [rat_fin_eq_zero.1 h0, round_zero hf]
  · exact round_roundsTo hf rm n e fun hm => h0 (rat_fin_eq_zero.2 hm)

end

end Ieee

end Sys2Proof.Machine

/-! Element-wise operations of class V (06 R189), and the NaN that an operation delivers (06 R178 rule 1). -/
namespace Sys2Proof.Machine

/-! ### Elements -/

/-- The elements of every source at one place. -/
def eltsAt (ty : FltTy) (v : List DWord) (i : Nat) : List Nat := v.map (fun x => (eltsOf ty x).getD i 0)

theorem byElt_f32 (g : List Nat → Nat × Word) (v : List DWord) :
    byElt .f32 g v = { val := BitVec.ofNat 64 ((g (eltsAt .f32 v 0)).1 % 2 ^ 32), flags := (g (eltsAt .f32 v 0)).2 } := by
  simp [byElt, joinElts, eltsAt, List.map_map, Function.comp_def]

theorem byElt_packed {ty : FltTy} (hty : ty ≠ .f32) (g : List Nat → Nat × Word) (v : List DWord) :
    byElt ty g v =
      { val := BitVec.ofNat 64 ((g (eltsAt ty v 0)).1 % 2 ^ 16 + 2 ^ 16 * ((g (eltsAt ty v 1)).1 % 2 ^ 16))
        flags := (g (eltsAt ty v 0)).2 ||| (g (eltsAt ty v 1)).2 } := by
  cases ty with
  | f32 => exact absurd rfl hty
  | f16x2 => simp [byElt, joinElts, eltsAt, List.map_map, Function.comp_def, List.range_succ]
  | bf16x2 => simp [byElt, joinElts, eltsAt, List.map_map, Function.comp_def, List.range_succ]

theorem eltsAt_lt (ty : FltTy) (v : List DWord) (i : Nat) : ∀ a ∈ eltsAt ty v i, a < 2 ^ (fltFmt ty).w := by
  intro a ha
  obtain ⟨x, -, rfl⟩ := List.mem_map.1 ha
  have hall : ∀ e ∈ eltsOf ty x, e < 2 ^ (fltFmt ty).w := by
    cases ty <;> simp [eltsOf, fltFmt, fp32, fp16, Machine.bf16] <;> omega
  rw [List.getD_eq_getElem?_getD]
  rcases h : (eltsOf ty x)[i]? with _ | e
  · simp
  · exact hall e (List.mem_of_getElem? h)

/-- An element-wise operation, by its relation on the elements. -/
theorem eltR_byElt {ty : FltTy} {g : List Nat → Nat × Word} {R : Ieee → List Nat → Nat × Word → Prop} (v : List DWord)
    (hR : ∀ x, (∀ a ∈ x, a < 2 ^ (fltFmt ty).w) → R (fltFmt ty) x (g x) ∧ (g x).1 < 2 ^ (fltFmt ty).w) :
    EltR ty R v (byElt ty g v).val (byElt ty g v).flags := by
  have h0 := hR _ (eltsAt_lt ty v 0)
  have h1 := hR _ (eltsAt_lt ty v 1)
  have hval {p q : Nat} (hp : p < 2 ^ 16) (hq : q < 2 ^ 16) :
      BitVec.ofNat 64 (p % 2 ^ 16 + 2 ^ 16 * (q % 2 ^ 16)) = BitVec.ofNat 64 (p + 2 ^ 16 * q) := by
    rw [Nat.mod_eq_of_lt hp, Nat.mod_eq_of_lt hq]
  cases ty with
  | f32 =>
    rw [byElt_f32]
    exact ⟨_, h0.1, h0.2, congrArg (BitVec.ofNat 64) (Nat.mod_eq_of_lt h0.2), rfl⟩
  | f16x2 =>
    rw [byElt_packed (by decide)]
    exact ⟨_, _, h0.1, h1.1, h0.2, h1.2, hval h0.2 h1.2, rfl⟩
  | bf16x2 =>
    rw [byElt_packed (by decide)]
    exact ⟨_, _, h0.1, h1.1, h0.2, h1.2, hval h0.2 h1.2, rfl⟩

theorem byElt_congr {ty : FltTy} {g g' : List Nat → Nat × Word} {v : List DWord}
    (h : ∀ x : List Nat, x.length = v.length → g x = g' x) : byElt ty g v = byElt ty g' v := by
  have hi (i : Nat) : g (eltsAt ty v i) = g' (eltsAt ty v i) := h _ (by simp [eltsAt])
  by_cases hty : ty = .f32
  · subst hty
    rw [byElt_f32, byElt_f32, hi]
  · rw [byElt_packed hty, byElt_packed hty, hi, hi]

/-! ### Lane operations -/

/-- A lane operation by its outcome `F` on as many source values as it has sources, and a relation that its outcome on any list
of values meets. -/
theorem lane1R_of_srcs {i : Instr} {ops : List Opnd} {d : Dst} {w64 : Bool} {F F' : List DWord → LaneOut}
    {R : List DWord → DWord → Word → Prop} (hi : ∀ s, exec i s = s.lanewise ops d w64 F)
    (hF : ∀ vs : List DWord, vs.length = ops.length → F vs = F' vs) (h0 : ∀ vs, (F' vs).fault = none)
    (hR : ∀ vs, R vs (F' vs).val (F' vs).flags) : Lane1R i ops d w64 R := by
  have hsrcs (s : State) (h : Here) (k : Nat) : F (s.srcs h ops k) = F' (s.srcs h ops k) := hF _ (List.length_map _)
  refine ⟨fun vs => (F' vs).val, fun vs => (F' vs).flags, ?_, hR⟩
  refine laneInstr_of_vec (st := true) (F := fun _ _ _ vs => F vs) (fun s h hh _ => ?_) (fun s h _ k _ => ?_) (fun s h _ k _ => ?_)
    (fun s h _ k _ => ?_)
  · rw [hi, State.lanewise, State.compute, exec_withHere hh]
  · rw [hsrcs, h0]
  · rw [hsrcs]
  · rw [hsrcs]

/-- A float operation by its relation on the elements; `g'` says what it does with any number of operands. -/
theorem lane1R_of_floatOp {i : Instr} {ty : FltTy} {ops : List Opnd} {d : Dst} {g g' : List Nat → Nat × Word}
    {R : Ieee → List Nat → Nat × Word → Prop} (hi : ∀ s, exec i s = s.floatOp ty d ops g)
    (hg : ∀ x : List Nat, x.length = ops.length → g x = g' x)
    (hR : ∀ x, (∀ a ∈ x, a < 2 ^ (fltFmt ty).w) → R (fltFmt ty) x (g' x) ∧ (g' x).1 < 2 ^ (fltFmt ty).w) :
    Lane1R i ops d false (EltR ty R) :=
  lane1R_of_srcs (F' := byElt ty g') hi (fun _ hvs => byElt_congr fun x hx => hg x (hx.trans hvs)) (fun _ => rfl)
    fun vs => eltR_byElt vs hR

theorem getD_mem_or_zero (x : List Nat) (i : Nat) : x.getD i 0 ∈ x ∨ x.getD i 0 = 0 := by
  rw [List.getD_eq_getElem?_getD]
  rcases h : x[i]? with _ | a
  · exact .inr rfl
  · exact .inl (List.mem_of_getElem? h)

/-- The operands of an element are patterns of its format. -/
theorem getD_lt {x : List Nat} {w : Nat} (hx : ∀ a ∈ x, a < 2 ^ w) (i : Nat) : x.getD i 0 < 2 ^ w := by
  rcases getD_mem_or_zero x i with h | h
  · exact hx _ h
  · rw [h]; positivity

/-! ### The NaN that an operation delivers -/

namespace Ieee

theorem not_isNaN_zero {f : Ieee} : f.isNaN 0 = false := by
  simp [isNaN, low]

theorem not_isNaN_getD {f : Ieee} {x : List Nat} (h : x.any f.isNaN = false) (i : Nat) : f.isNaN (x.getD i 0) = false := by
  rcases getD_mem_or_zero x i with hm | h0
  · simpa using List.any_eq_false.1 h _ hm
  · rw [h0, not_isNaN_zero]

theorem nanOut_eq_none {f : Ieee} {x : List Nat} (h : x.any f.isNaN = false) : f.nanOut x = none := by
  have : x.find? f.isNaN = none := List.find?_eq_none.2 fun a ha => by simpa using List.any_eq_false.1 h a ha
  rw [nanOut, this]

/-- NaNOut of operands one of which is a NaN. -/
theorem nanOut_of_any {f : Ieee} {x : List Nat} (h : x.any f.isNaN = true) :
    ∃ r, f.nanOut x = some r ∧ NaNOut f x r ∧ ∃ a ∈ x, r.1 = f.quiet a := by
  obtain ⟨b, hb, hnan⟩ := List.any_eq_true.1 h
  obtain ⟨a, ha⟩ := Option.isSome_iff_exists.1 (List.find?_isSome.2 ⟨b, hb, hnan⟩)
  have hm := List.mem_of_find?_eq_some ha
  exact ⟨_, by rw [nanOut, ha], ⟨a, hm, ha, rfl⟩, a, hm, rfl⟩

theorem quiet_lt {f : Ieee} (hf : f.Regular) {c : Nat} (hc : c < 2 ^ f.w) : f.quiet c < 2 ^ f.w := by
  refine Nat.or_lt_two_pow hc (Nat.pow_lt_pow_right (by decide) ?_)
  have h1 := hf.infCode_add
  have h2 : 2 ^ f.g.t < 2 ^ f.w := by
    have := hf.width
    have := f.signBit_pos
    have := hf.infCode_pos
    omega
  have := (Nat.pow_lt_pow_iff_right (by decide)).1 h2
  omega

/-- An operation that delivers NaNOut where an operand is a NaN, and `k` of its operands otherwise. -/
def unlessNaN (f : Ieee) (k : List Nat → Nat × Word) (x : List Nat) : Nat × Word := (f.nanOut x).getD (k x)

theorem unlessNaN_of_any {f : Ieee} (hf : f.Regular) {k : List Nat → Nat × Word} {x : List Nat} (hx : ∀ a ∈ x, a < 2 ^ f.w)
    (h : x.any f.isNaN = true) : NaNOut f x (f.unlessNaN k x) ∧ (f.unlessNaN k x).1 < 2 ^ f.w := by
  obtain ⟨r, hr, hout, a, ha, hquiet⟩ := nanOut_of_any h
  rw [unlessNaN, hr]
  exact ⟨hout, by rw [Option.getD_some, hquiet]; exact quiet_lt hf (hx a ha)⟩

theorem unlessNaN_of_not_any {f : Ieee} {k : List Nat → Nat × Word} {x : List Nat} (h : x.any f.isNaN = false) :
    f.unlessNaN k x = k x := by
  rw [unlessNaN, nanOut_eq_none h, Option.getD_none]

end Ieee

end Sys2Proof.Machine

/-! O18: selection, sign operations and classes (06 R191, R192, R195). -/
namespace Sys2Proof.Machine

namespace Ieee

theorem totalLess_iff {f : Ieee} {a b : Nat} : f.totalLess a b = true ↔ TotalLess f a b := by
  unfold totalLess TotalLess key
  rw [decide_eq_true_iff]
  rcases ha : f.neg a <;> rcases hb : f.neg b <;> simp <;> omega

/-- A finite pattern stands for 0 where its magnitude is 0. -/
theorem rat_val_eq_zero {f : Ieee} {c : Nat} (h : f.low c < f.infCode) : (f.val c).rat = 0 ↔ f.low c = 0 := by
  rw [val_of_lt h, ← abs_eq_zero, abs_rat_fin]
  show f.g.magVal (f.low c) = 0 ↔ _
  rw [← f.g.magVal_zero, f.g.magVal_strictMono.injective.eq_iff]

/-- The least normal number has the least code above the fractions. -/
theorem abs_rat_val_lt_normal {f : Ieee} {c : Nat} (h : f.low c < f.infCode) :
    |(f.val c).rat| < 2 ^ (1 - f.g.bias) ↔ f.low c < 2 ^ f.g.t := by
  have hnormal : (2 : ℚ) ^ (1 - f.g.bias) = f.g.magVal (2 ^ f.g.t) := by
    have hcode := f.g.magVal_code (k := 0) (q := 2 ^ f.g.t) (Nat.pow_le_pow_right (by decide) (Nat.le_succ _)) (.inl rfl)
    rw [Nat.zero_mul, Nat.zero_add] at hcode
    rw [hcode, Nat.cast_pow, Nat.cast_ofNat, ← zpow_natCast, ← two_zpow_add, Grid.umin]
    congr 1
    push_cast
    ring
  rw [val_of_lt h, abs_rat_fin, hnormal]
  exact f.g.magVal_strictMono.lt_iff_lt

theorem not_isSNaN_of_not_isNaN {f : Ieee} {c : Nat} (h : f.isNaN c = false) : f.isSNaN c = false := by
  simp [isSNaN, h]

/-- 06 R195: the bit that `fclass` sets. -/
theorem classOf_spec (f : Ieee) (c : Nat) : match f.val c with
    | .nan => 2 ^ classOf f c = if f.isSNaN c then 1 else 2
    | .inf n => 2 ^ classOf f c = if n then 4 else 512
    | y => 2 ^ classOf f c = if y.rat = 0 then (if f.neg c then 32 else 64)
        else if |y.rat| < 2 ^ (1 - f.g.bias) then (if f.neg c then 16 else 128) else if f.neg c then 8 else 256 := by
  rcases f.val_cases c with ⟨hnan, hval⟩ | ⟨hnan, ⟨hval, hlow⟩ | ⟨hlow, hval⟩⟩
  · rw [hval]
    cases h : f.isSNaN c <;> simp [classOf, hnan, h]
  · rw [hval]
    cases h : f.neg c <;> simp [classOf, hnan, not_isSNaN_of_not_isNaN hnan, hlow, h]
  · have hz := rat_val_eq_zero hlow
    have hn := abs_rat_val_lt_normal hlow
    rw [hval] at hz hn ⊢
    simp only [hz, hn, classOf, hnan, not_isSNaN_of_not_isNaN hnan, hlow.ne, Bool.false_eq_true, if_false]
    by_cases h0 : f.low c = 0
    · cases f.neg c <;> simp [h0]
    · by_cases h1 : f.low c < 2 ^ f.g.t
      · cases f.neg c <;> simp [h0, h1]
      · cases f.neg c <;> simp [h0, h1]

theorem two_pow_classOf_lt (f : Ieee) (c : Nat) : 2 ^ classOf f c < 2 ^ 16 := by
  refine Nat.pow_lt_pow_right (by decide) ?_
  unfold classOf
  dsimp only
  repeat' split
  all_goals decide

end Ieee

theorem le_fltFmt_w (ty : FltTy) : 16 ≤ (fltFmt ty).w := by cases ty <;> decide

/-- An operation on the first two operands of an element that sets no flag. -/
theorem lane1R_of_pattern {i : Instr} {ty : FltTy} {ops : List Opnd} {d : Dst} {r : Nat → Nat → Nat}
    {R : Ieee → Nat → Nat → Nat → Prop} (hi : ∀ s, exec i s = s.floatOp ty d ops (fun x => (r (argN x 0) (argN x 1), 0)))
    (hR : ∀ x y, x < 2 ^ (fltFmt ty).w → y < 2 ^ (fltFmt ty).w → R (fltFmt ty) x y (r x y) ∧ r x y < 2 ^ (fltFmt ty).w) :
    Lane1R i ops d false (EltR ty (fun f x r => R f (x.getD 0 0) (x.getD 1 0) r.1 ∧ r.2 = 0)) := by
  refine lane1R_of_floatOp hi (fun _ _ => rfl) fun x hx => ?_
  obtain ⟨h, hlt⟩ := hR _ _ (getD_lt hx 0) (getD_lt hx 1)
  exact ⟨⟨h, rfl⟩, hlt⟩

end Sys2Proof.Machine

section
open Sys2Proof Sys2Proof.Machine

/-- Settles O18: each operation by its pattern. -/
theorem floatSelection : Obligations.FloatSelection := by
  unfold Obligations.FloatSelection
  intro ty d a b op one two
  have hf := regular_fltFmt ty
  have hlow (x : Nat) := Ieee.low_lt (fltFmt ty) x
  have pattern {i : Instr} {ops : List Opnd} {R : Ieee → Nat → Nat → Nat → Prop} (r : Nat → Nat → Nat)
      (hi : ∀ s, exec i s = s.floatOp ty d ops (fun x => (r (argN x 0) (argN x 1), 0)))
      (hR : ∀ x y, x < 2 ^ (fltFmt ty).w → y < 2 ^ (fltFmt ty).w → R (fltFmt ty) x y (r x y) ∧ r x y < 2 ^ (fltFmt ty).w) :
      op i ops R := lane1R_of_pattern hi hR
  clear_value op
  refine ⟨?_, ?_, ?_, ?_, ?_, ?_⟩
  · refine pattern (fun x y => if (fltFmt ty).totalLess y x then y else x) (fun _ => rfl) fun x y hx hy => ⟨?_, ?_⟩
    · classical exact if_congr Ieee.totalLess_iff rfl rfl
    · split <;> assumption
  · refine pattern (fun x y => if (fltFmt ty).totalLess x y then y else x) (fun _ => rfl) fun x y hx hy => ⟨?_, ?_⟩
    · classical exact if_congr Ieee.totalLess_iff rfl rfl
    · split <;> assumption
  · exact pattern (fun x _ => (fltFmt ty).withSign false ((fltFmt ty).low x)) (fun _ => rfl) fun x y hx hy =>
      ⟨⟨Ieee.neg_withSign hf _ (hlow x), Ieee.low_withSign _ (hlow x)⟩, Ieee.withSign_lt hf _ (hlow x)⟩
  · exact pattern (fun x _ => (fltFmt ty).withSign (!(fltFmt ty).neg x) ((fltFmt ty).low x)) (fun _ => rfl)
      fun x y hx hy => ⟨⟨Ieee.neg_withSign hf _ (hlow x), Ieee.low_withSign _ (hlow x)⟩, Ieee.withSign_lt hf _ (hlow x)⟩
  · exact pattern (fun x y => (fltFmt ty).withSign ((fltFmt ty).neg y) ((fltFmt ty).low x)) (fun _ => rfl)
      fun x y hx hy => ⟨⟨Ieee.neg_withSign hf _ (hlow x), Ieee.low_withSign _ (hlow x)⟩, Ieee.withSign_lt hf _ (hlow x)⟩
  · refine pattern (fun x _ => 2 ^ classOf (fltFmt ty) x) (fun _ => rfl) fun x y hx hy => ⟨?_, ?_⟩
    · exact Ieee.classOf_spec _ _
    · exact (Ieee.two_pow_classOf_lt _ _).trans_le (Nat.pow_le_pow_right (by decide) (le_fltFmt_w ty))

end

/-! O19: the predicates of a float compare (06 R193, Table 6.9). -/
namespace Sys2Proof.Machine

/-! ### Exact sums -/

/-- The number of a term of an exact sum. -/
def termRat (x : Bool × Nat × Int) : ℚ := (FVal.fin x.1 x.2.1 x.2.2).rat

/-- An exact sum in units of 2^e0, where no term has a lower exponent. -/
theorem sumTerms_rat {e0 : Int} {ts : List (Bool × Nat × Int)} (h : ∀ x ∈ ts, e0 ≤ x.2.2) :
    (sumTerms e0 ts : ℚ) * 2 ^ e0 = (ts.map termRat).sum := by
  induction ts with
  | nil => simp [sumTerms]
  | cons x ts ih =>
    obtain ⟨n, m, e⟩ := x
    have he : e0 ≤ e := h _ List.mem_cons_self
    have hx : ((m <<< (e - e0).toNat : Nat) : ℚ) * 2 ^ e0 = scaled m e := by
      rw [← scaled_of_le he, scaled_mul, sub_add_cancel]
    rw [List.map_cons, List.sum_cons, ← ih fun y hy => h y (List.mem_cons_of_mem _ hy), termRat, rat_fin, ← hx, sumTerms]
    generalize m <<< (e - e0).toNat = k
    rw [Int.cast_add, add_mul]
    congr 1
    cases n <;> simp

/-! ### Numeric order -/

/-- The numeric order of two patterns; no order with a NaN. -/
def FltLess (f : Ieee) (x y : Nat) : Prop :=
  match f.val x, f.val y with
  | .nan, _ => False
  | _, .nan => False
  | .inf n, .inf m => n = true ∧ m = false
  | .inf n, _ => n = true
  | _, .inf m => m = false
  | p, q => p.rat < q.rat

theorem lessVal_fin_iff {n p : Bool} {m q : Nat} {e g : Int} :
    lessVal (.fin n m e) (.fin p q g) = true ↔ (FVal.fin n m e).rat < (FVal.fin p q g).rat := by
  have hsum (x : Bool × Nat × Int) (hx : (if e ≤ g then e else g) ≤ x.2.2) :
      (FVal.fin x.1 x.2.1 x.2.2).rat = sumTerms (if e ≤ g then e else g) [x] * 2 ^ (if e ≤ g then e else g) := by
    rw [sumTerms_rat fun y hy => by rw [List.mem_singleton.1 hy]; exact hx]
    simp [termRat]
  rw [hsum (n, m, e) (by dsimp only; split <;> omega), hsum (p, q, g) (by dsimp only; split <;> omega),
    mul_lt_mul_iff_left₀ (by positivity)]
  simp [lessVal]

theorem fltLess_iff {f : Ieee} {x y : Nat} :
    FltLess f x y ↔ (f.isNaN x = false ∧ f.isNaN y = false) ∧ lessVal (f.val x) (f.val y) = true := by
  rcases f.val_cases x with ⟨hx, vx⟩ | ⟨hx, ⟨vx, -⟩ | ⟨-, vx⟩⟩ <;> rcases f.val_cases y with ⟨hy, vy⟩ | ⟨hy, ⟨vy, -⟩ | ⟨-, vy⟩⟩ <;>
    simp only [FltLess, vx, vy, hx, hy, lessVal_fin_iff, true_and, false_and, and_false, and_true, Bool.true_eq_false] <;>
    simp [lessVal]

/-- One of two patterns is a NaN. -/
def Unordered (f : Ieee) (x y : Nat) : Prop := f.isNaN x = true ∨ f.isNaN y = true

/-- 06 Table 6.9: what each predicate says of an element. -/
def FcmpSays (f : Ieee) (x y : Nat) : FcmpPred → Prop
  | .eq => ¬ Unordered f x y ∧ ¬ FltLess f x y ∧ ¬ FltLess f y x
  | .ne => Unordered f x y ∨ FltLess f x y ∨ FltLess f y x
  | .lt => FltLess f x y
  | .le => ¬ Unordered f x y ∧ ¬ FltLess f y x
  | .gt => FltLess f y x
  | .ge => ¬ Unordered f x y ∧ ¬ FltLess f x y
  | .un => Unordered f x y
  | .ord => ¬ Unordered f x y
  | .tlt => TotalLess f x y
  | .tle => TotalLess f x y ∨ x = y
  | .teq => x = y

theorem fcmpHolds_iff {p : FcmpPred} {f : Ieee} {x y : Nat} : fcmpHolds p f x y = true ↔ FcmpSays f x y p := by
  have hlt := fltLess_iff (f := f) (x := x) (y := y)
  have hgt := fltLess_iff (f := f) (x := y) (y := x)
  cases p <;> simp only [fcmpHolds, FcmpSays, Unordered, hlt, hgt, ← Ieee.totalLess_iff] <;> grind

/-! ### Both elements -/

/-- A relation of two patterns holds for every element of two lane values. -/
def BothElts (ty : FltTy) (R : Ieee → Nat → Nat → Prop) (v : List DWord) : Prop :=
  let half (f : Ieee) (p : Nat) : Prop := R f ((arg v 0).extractLsb' p 16).toNat ((arg v 1).extractLsb' p 16).toNat
  match ty with
  | .f32 => R fp32 (lo32 (arg v 0)).toNat (lo32 (arg v 1)).toNat
  | .f16x2 => half fp16 0 ∧ half fp16 16
  | .bf16x2 => half bf16 0 ∧ half bf16 16

theorem bothElts_iff {ty : FltTy} {R : Ieee → Nat → Nat → Prop} {v : List DWord} {q : Nat × Nat → Bool}
    (h : ∀ x y, q (x, y) = true ↔ R (fltFmt ty) x y) :
    ((eltsOf ty (arg v 0)).zip (eltsOf ty (arg v 1))).all q = true ↔ BothElts ty R v := by
  cases ty <;> simp [eltsOf, BothElts, h] <;> rfl

theorem truth_ne_zero (b : Bool) : ((if b then (1 : DWord) else 0) != 0) = b := by cases b <;> rfl

open Classical in
/-- A compare by its predicate. -/
theorem maskInstr_fcmp {ty : FltTy} {d : BitVec 4} {a b : Src} (p : FcmpPred) :
    MaskInstr (.fcmp p ty d a b) [.src a false, .src b false] d
      (fun _ v => decide (BothElts ty (fun f x y => FcmpSays f x y p) v))
      (fun v => if fcmpQuiet p = true ∧ ¬ BothElts ty (fun f x y => f.isSNaN x = false ∧ f.isSNaN y = false) v then fINV else 0) := by
  refine maskInstr_of_vec (fun _ _ hh => exec_withHere hh _) (fun _ _ _ => rfl) (fun h k v => ?_) (fun h k v => ?_)
  · have hall := bothElts_iff (ty := ty) (v := v) (R := fun f x y => FcmpSays f x y p) (q := fun e => fcmpHolds p (fltFmt ty) e.1 e.2) fun x y => fcmpHolds_iff
    exact (truth_ne_zero _).trans (Bool.eq_iff_iff.2 (hall.trans decide_eq_true_iff.symm))
  · refine if_congr ?_ rfl rfl
    rw [← bothElts_iff (q := fun e => !((fltFmt ty).isSNaN e.1 || (fltFmt ty).isSNaN e.2)) (fun x y => by simp), Bool.and_eq_true,
      List.any_eq_not_all_not, Bool.not_eq_true', Bool.not_eq_true]

end Sys2Proof.Machine

section
open Sys2Proof Sys2Proof.Machine

/-- Settles O19: each predicate says of every element what the model computes. -/
theorem floatCompare : Obligations.FloatCompare := by
  unfold Obligations.FloatCompare
  intro ty d a b ops both cmp un lt
  exact ⟨maskInstr_fcmp .eq, maskInstr_fcmp .ne, maskInstr_fcmp .lt, maskInstr_fcmp .le, maskInstr_fcmp .gt, maskInstr_fcmp .ge,
    maskInstr_fcmp .un, maskInstr_fcmp .ord, maskInstr_fcmp .tlt, maskInstr_fcmp .tle, maskInstr_fcmp .teq⟩

end

/-! O22: the numbers of the narrow formats (06 R180, R182, R183). -/
namespace Sys2Proof.Machine

/-- The magnitude of a code, by its exponent and fraction fields (06 R180). -/
theorem Grid.magVal_fields (g : Grid) (c : Nat) : g.magVal c =
    if c / 2 ^ g.t = 0 then ((c % 2 ^ g.t : Nat) : ℚ) * 2 ^ (1 - g.bias - g.t)
    else (2 ^ g.t + (c % 2 ^ g.t : Nat)) * 2 ^ (((c / 2 ^ g.t : Nat) : Int) - g.bias - g.t) := by
  unfold Grid.magVal Grid.mag scaled Grid.umin
  dsimp only
  split
  · rfl
  next h =>
    push_cast [Nat.cast_pred (Nat.pos_of_ne_zero h)]
    congr 2
    ring

namespace Mini

/-- A code of a small format that is no NaN and no infinity. -/
theorem val_of_finite {f : Mini} {c : Nat} (hn : c ≠ f.nan) (hp : some c ≠ f.infp) (hm : some c ≠ f.infn) :
    (f.val c).finite = true ∧ (f.val c).rat =
      (if f.sign ≠ 0 ∧ f.sign ≤ c then -1 else 1) * f.g.magVal (if f.sign = 0 then c else c % f.sign) := by
  have hval : f.val c = .fin (f.sign != 0 && decide (f.sign ≤ c)) (f.g.mag (if f.sign = 0 then c else c % f.sign)).1
      (f.g.mag (if f.sign = 0 then c else c % f.sign)).2 := by
    simp [val, hn, hp, hm]
  rw [hval]
  refine ⟨rfl, ?_⟩
  rw [rat_fin, Grid.magVal]
  by_cases h : f.sign ≠ 0 ∧ f.sign ≤ c
  · simp [h]
  · rw [if_neg h, one_mul, if_neg (by simpa using h)]

end Mini

section
variable (p : Nat) (inf : Bool) {c : Nat} (hc : c < 256)
include hc

/-- 06 R180: a code of a signed binary8 format. -/
theorem b8_signed_val :
    if c = 0x80 then (b8Of p false inf).val c = .nan
    else if inf = true ∧ c = 0x7F then (b8Of p false inf).val c = .inf false
    else if inf = true ∧ c = 0xFF then (b8Of p false inf).val c = .inf true
    else ((b8Of p false inf).val c).finite = true ∧
      ((b8Of p false inf).val c).rat = (if c < 128 then 1 else -1) * (b8Of p false inf).g.magVal (c % 128) := by
  split
  next h => exact if_pos h
  next h =>
    split
    next hp =>
      obtain ⟨rfl, rfl⟩ := hp
      rfl
    next hp =>
      split
      next hm =>
        obtain ⟨rfl, rfl⟩ := hm
        rfl
      next hm =>
        obtain ⟨hfin, hrat⟩ := Mini.val_of_finite (f := b8Of p false inf) (c := c) h (by cases inf <;> simp_all [b8Of])
          (by cases inf <;> simp_all [b8Of])
        refine ⟨hfin, hrat.trans ?_⟩
        show (if (128 : Nat) ≠ 0 ∧ 128 ≤ c then (-1 : ℚ) else 1) * _ = _
        by_cases h128 : c < 128
        · rw [if_pos h128, if_neg (by omega)]; rfl
        · rw [if_neg h128, if_pos (by omega)]; rfl

/-- 06 R180: a code of an unsigned binary8 format. -/
theorem b8_unsigned_val :
    if c = 0xFF then (b8Of p true inf).val c = .nan
    else if inf = true ∧ c = 0xFE then (b8Of p true inf).val c = .inf false
    else ((b8Of p true inf).val c).finite = true ∧ ((b8Of p true inf).val c).rat = (b8Of p true inf).g.magVal c := by
  split
  next h => exact if_pos h
  next h =>
    split
    next hp =>
      obtain ⟨rfl, rfl⟩ := hp
      rfl
    next hp =>
      obtain ⟨hfin, hrat⟩ := Mini.val_of_finite (f := b8Of p true inf) (c := c) h (by cases inf <;> simp_all [b8Of])
        (by simp [b8Of])
      exact ⟨hfin, hrat.trans (one_mul _)⟩

end

end Sys2Proof.Machine

section
open Sys2Proof.Machine

/-- Settles O22: a code by its sign, exponent and fraction fields; the few codes of fp4 and INT4 one by one. -/
theorem narrowFormats : Obligations.NarrowFormats := by
  unfold Obligations.NarrowFormats
  have hfields (p : Nat) (uns inf : Bool) (c : Nat) : (b8Of p uns inf).g.magVal c =
      if c / 2 ^ (p - 1) = 0 then ((c % 2 ^ (p - 1) : Nat) : ℚ) * 2 ^ (1 - (if uns then 2 ^ (8 - p) else 2 ^ (7 - p)) - ((p - 1 : Nat) : Int))
      else (2 ^ (p - 1) + (c % 2 ^ (p - 1) : Nat)) *
        2 ^ (((c / 2 ^ (p - 1) : Nat) : Int) - (if uns then 2 ^ (8 - p) else 2 ^ (7 - p)) - ((p - 1 : Nat) : Int)) := by
    rw [Grid.magVal_fields]
    cases uns <;> simp [b8Of]
  refine ⟨?_, ⟨rfl, ?_, ?_⟩, rfl, by decide⟩
  · intro p inf c hp1 hp7 hc mag e f s u
    have hs := b8_signed_val p inf hc
    have hu := b8_unsigned_val p inf hc
    rw [hfields] at hs hu
    exact ⟨hs, hu⟩
  · simp [List.range_succ, fp4Of, Mini.val, Grid.mag, Grid.umin, FVal.rat]
    norm_num
  · intro c h1 h7
    interval_cases c <;> simp [fp4Of, Mini.val, Grid.mag, Grid.umin, FVal.rat]

end

/-! O17: sums and products rounded once (06 R177, R190). -/
namespace Sys2Proof.Machine

/-! ### Exact sums -/

theorem minExp_le {ts : List (Bool × Nat × Int)} : ∀ x ∈ ts, minExp ts ≤ x.2.2 := by
  induction ts with
  | nil => simp
  | cons a ts ih =>
    obtain ⟨n, m, e⟩ := a
    cases ts with
    | nil => simp [minExp]
    | cons b ts =>
      intro x hx
      show (if e ≤ minExp (b :: ts) then e else minExp (b :: ts)) ≤ _
      rcases List.mem_cons.1 hx with rfl | hx
      · dsimp only; split <;> omega
      · have := ih x hx
        split <;> omega

theorem termRat_eq_zero {x : Bool × Nat × Int} : termRat x = 0 ↔ x.2.1 = 0 := rat_fin_eq_zero

/-- Terms that are 0 add nothing. -/
theorem sum_filter_nonzero (ts : List (Bool × Nat × Int)) :
    ((ts.filter (fun t => t.2.1 != 0)).map termRat).sum = (ts.map termRat).sum := by
  induction ts with
  | nil => rfl
  | cons x ts ih =>
    rw [List.filter_cons]
    split
    next h => simp [ih]
    next h => simp [ih, termRat_eq_zero.2 (by simpa using h)]

/-- The sign of an exact zero sum: the common sign of its terms, else + except in mode down. -/
def zeroSign (rm : RM) (signs : List Bool) : Bool :=
  if signs.contains false = false then true else if signs.contains true = false then false else rm == .rdn

/-- Terms of one sign, not all of them 0, do not add up to 0. -/
theorem sum_ne_zero_of_sign {n : Bool} {ts : List (Bool × Nat × Int)} (hs : ∀ x ∈ ts, x.1 = n) (hne : ∃ x ∈ ts, x.2.1 ≠ 0) :
    (ts.map termRat).sum ≠ 0 := by
  obtain ⟨x, hx, hx0⟩ := hne
  have habs : ∀ x ∈ ts, termRat x = (if n then -1 else 1) * |termRat x| := by
    intro x hx
    rw [termRat, abs_rat_fin, rat_fin, hs x hx]
    cases n <;> simp
  have hsum : (ts.map termRat).sum = (if n then -1 else 1) * (ts.map fun x => |termRat x|).sum := by
    rw [← List.sum_map_mul_left]
    exact congrArg List.sum (List.map_congr_left habs)
  have hpos : 0 < (ts.map fun x => |termRat x|).sum := by
    have hle := List.single_le_sum (l := ts.map fun x => |termRat x|) (fun y hy => by
      obtain ⟨z, -, rfl⟩ := List.mem_map.1 hy
      exact abs_nonneg _) _ (List.mem_map_of_mem hx)
    exact (abs_pos.2 fun h => hx0 (termRat_eq_zero.1 h)).trans_le hle
  rw [hsum]
  cases n
  · simpa using hpos.ne'
  · simpa using hpos.ne'

theorem exactSum_spec (rm : RM) (ts : List (Bool × Nat × Int)) :
    termRat (exactSum rm ts) = (ts.map termRat).sum ∧
      ((ts.map termRat).sum = 0 → (exactSum rm ts).1 = zeroSign rm (ts.map (fun t => t.1))) := by
  have hsum := sumTerms_rat (minExp_le (ts := ts.filter (fun t => t.2.1 != 0)))
  rw [sum_filter_nonzero] at hsum
  have hpos : (0 : ℚ) < 2 ^ minExp (ts.filter (fun t => t.2.1 != 0)) := by positivity
  unfold exactSum
  dsimp only
  generalize sumTerms (minExp (ts.filter (fun t => t.2.1 != 0))) (ts.filter (fun t => t.2.1 != 0)) = x at hsum
  split
  next h0 =>
    rw [h0, Int.cast_zero, zero_mul] at hsum
    have hnz {n : Bool} (hs : ∀ x ∈ ts, x.1 = n) : ts.filter (fun t => t.2.1 != 0) = [] := by
      rw [List.filter_eq_nil_iff]
      exact fun x hx hx0 => sum_ne_zero_of_sign hs ⟨x, hx, by simpa using hx0⟩ hsum.symm
    have hneg : ts.all (fun t => t.1) = true ↔ (ts.map (fun t => t.1)).contains false = false := by simp
    have hpos : ts.all (fun t => !t.1) = true ↔ (ts.map (fun t => t.1)).contains true = false := by simp
    have hneg' : ts.filter (fun t => t.2.1 != 0) = [] ∧ ts.all (fun t => t.1) = true ↔ ts.all (fun t => t.1) = true :=
      and_iff_right_of_imp fun h => hnz (List.all_eq_true.1 h)
    have hpos' : ts.filter (fun t => t.2.1 != 0) = [] ∧ ts.all (fun t => !t.1) = true ↔ ts.all (fun t => !t.1) = true :=
      and_iff_right_of_imp fun h => hnz (n := false) fun x hx => by simpa using List.all_eq_true.1 h x hx
    refine ⟨by rw [← hsum]; exact termRat_eq_zero.2 rfl, fun _ => ?_⟩
    simp only [hneg', hpos']
    simp only [zeroSign, hneg, hpos]
  next h0 =>
    have hx : (x : ℚ) ≠ 0 := by exact_mod_cast h0
    refine ⟨?_, fun hz => absurd (hsum.trans hz) (mul_ne_zero hx hpos.ne')⟩
    rw [← hsum, termRat, rat_fin, scaled, Nat.cast_natAbs]
    by_cases hneg : x < 0
    · simp [hneg, abs_of_neg hneg]
    · simp [hneg, abs_of_nonneg (not_lt.1 hneg)]

/-! ### Sums of values -/

/-- The signs of the infinities among summands. -/
def infsOf (vs : List (Option FVal)) : List Bool :=
  vs.filterMap (fun v => match v with
    | some (.inf n) => some n
    | _ => none)

/-- The finite summands. -/
def finsOf (vs : List (Option FVal)) : List (Bool × Nat × Int) :=
  vs.filterMap (fun v => match v with
    | some (.fin n m e) => some (n, m, e)
    | _ => none)

namespace Ieee

theorem sum_eq (f : Ieee) (rm : RM) (vs : List (Option FVal)) : f.sum rm vs =
    if vs.contains none ∨ ((infsOf vs).contains true ∧ (infsOf vs).contains false) then (f.dNaN, fINV)
    else match infsOf vs with
      | n :: _ => (f.withSign n f.infCode, 0)
      | [] => f.round rm (exactSum rm (finsOf vs)).1 (exactSum rm (finsOf vs)).2.1 (exactSum rm (finsOf vs)).2.2 := rfl

section
variable {f : Ieee} {rm : RM} {vs : List (Option FVal)}

/-- 06 R178 rule 2: an invalid product, or infinities of both signs. -/
theorem sum_invalid (h : none ∈ vs ∨ true ∈ infsOf vs ∧ false ∈ infsOf vs) : f.sum rm vs = (f.dNaN, fINV) := by
  rw [sum_eq, if_pos (by simpa using h)]

theorem sum_inf {n : Bool} (hnone : none ∉ vs) (hne : infsOf vs ≠ []) (h : ∀ m ∈ infsOf vs, m = n) :
    f.sum rm vs = (f.withSign n f.infCode, 0) := by
  have hsigns : ¬ ((infsOf vs).contains true ∧ (infsOf vs).contains false) := by
    rintro ⟨ht, hf⟩
    exact Bool.false_ne_true ((h _ (List.contains_iff_mem.1 hf)).trans (h _ (List.contains_iff_mem.1 ht)).symm)
  rw [sum_eq, if_neg (by simpa [hnone] using hsigns)]
  rcases hl : infsOf vs with _ | ⟨m, l⟩
  · exact absurd hl hne
  · rw [h m (by simp [hl])]

theorem sum_fin (hnone : none ∉ vs) (h : infsOf vs = []) : f.sum rm vs =
    f.round rm (exactSum rm (finsOf vs)).1 (exactSum rm (finsOf vs)).2.1 (exactSum rm (finsOf vs)).2.2 := by
  rw [sum_eq, if_neg (by simp [hnone, h]), h]

theorem dNaN_lt (hf : f.Regular) : f.dNaN < f.signBit := by
  have := hf.infCode_add
  have : 2 ^ (f.g.t - 1) < 2 ^ f.g.t := Nat.pow_lt_pow_right (by decide) (by have := hf.t_pos; omega)
  unfold dNaN
  omega

theorem signBit_le {f : Ieee} (hf : f.Regular) : f.signBit ≤ 2 ^ f.w := by rw [hf.width]; omega

theorem sum_lt (hf : f.Regular) (rm : RM) (vs : List (Option FVal)) : (f.sum rm vs).1 < 2 ^ f.w := by
  rw [sum_eq]
  split
  · exact (dNaN_lt hf).trans_le (signBit_le hf)
  · split
    · exact withSign_lt hf _ (infCode_lt hf)
    · exact round_lt hf _ _ _ _

/-- 06 R177: finite summands are added exactly and the sum is rounded once. -/
theorem sum_roundsToZ (hf : f.Regular) (hnone : none ∉ vs) (h : infsOf vs = []) :
    RoundsToZ f rm ((finsOf vs).map termRat).sum (zeroSign rm ((finsOf vs).map (fun t => t.1))) (f.sum rm vs) := by
  obtain ⟨hsum, hsign⟩ := exactSum_spec rm (finsOf vs)
  have hround := round_roundsToZ hf rm (exactSum rm (finsOf vs)).1 (exactSum rm (finsOf vs)).2.1 (exactSum rm (finsOf vs)).2.2
  rw [sum_fin hnone h, ← hsum]
  exact ⟨fun h0 => by rw [← hsign (hsum.symm.trans h0)]; exact hround.1 h0, hround.2⟩

/-- 06 R190: the sum of a product and a pattern. -/
theorem sum_sumsTo (hf : f.Regular) {p : Option FVal} {n : Bool} {c : Nat} (hc : f.isNaN c = false) (hp : p ≠ some .nan)
    (hn : ∀ k m e, p = some (.fin k m e) → k = n) : SumsTo f rm p n c (f.sum rm [p, some (f.val c)]) := by
  rcases f.val_cases c with ⟨h, -⟩ | ⟨-, ⟨hval, -⟩ | ⟨-, hval⟩⟩
  · rw [hc] at h; cases h
  · rcases p with _ | ⟨_ | k | ⟨k, m, e⟩⟩
    · simp only [SumsTo]
      exact sum_invalid (.inl (by simp))
    · exact absurd rfl hp
    · simp only [SumsTo, hval]
      split
      next h =>
        subst h
        exact sum_inf (by simp) (by simp [infsOf]) (by simp [infsOf])
      next h =>
        refine sum_invalid (.inr ?_)
        cases k <;> cases hneg : f.neg c <;> simp_all [infsOf]
    · simp only [SumsTo, hval]
      exact sum_inf (by simp) (by simp [infsOf]) (by simp [infsOf])
  · rcases p with _ | ⟨_ | k | ⟨k, m, e⟩⟩
    · simp only [SumsTo]
      exact sum_invalid (.inl (by simp))
    · exact absurd rfl hp
    · simp only [SumsTo, hval]
      exact sum_inf (by simp) (by simp [infsOf]) (by simp [infsOf])
    · obtain rfl := hn k m e rfl
      simp only [SumsTo, hval]
      have h := sum_roundsToZ hf (rm := rm) (vs := [some (.fin k m e), some (f.val c)]) (by simp) (by simp [infsOf, hval])
      have hsign : zeroSign rm [k, f.neg c] = if k = f.neg c then k else rm == .rdn := by
        cases k <;> cases f.neg c <;> rfl
      simpa [finsOf, hval, hsign, termRat] using h

end

/-! ### NaNs first -/

section
variable (f : Ieee) (rm : RM) (a b c : Nat)

theorem add_eq : f.add rm a b = f.unlessNaN (fun x => f.sum rm [some (f.val (x.getD 0 0)), some (f.val (x.getD 1 0))]) [a, b] := by
  unfold Ieee.add unlessNaN
  cases f.nanOut [a, b] <;> rfl

theorem sub_eq : f.sub rm a b =
    f.unlessNaN (fun x => f.sum rm [some (f.val (x.getD 0 0)), some (negVal (f.val (x.getD 1 0)))]) [a, b] := by
  unfold Ieee.sub unlessNaN
  cases f.nanOut [a, b] <;> rfl

theorem mul_eq : f.mul rm a b = f.unlessNaN (fun x => f.sum rm [mulVal (f.val (x.getD 0 0)) (f.val (x.getD 1 0))]) [a, b] := by
  unfold Ieee.mul unlessNaN
  cases f.nanOut [a, b] <;> rfl

theorem fma_eq : f.fma rm a b c =
    f.unlessNaN (fun x => f.sum rm [mulVal (f.val (x.getD 0 0)) (f.val (x.getD 1 0)), some (f.val (x.getD 2 0))]) [a, b, c] := by
  unfold Ieee.fma unlessNaN
  cases f.nanOut [a, b, c] <;> rfl

end

/-! ### Products -/

theorem rat_mul (a b : Bool) (m n : Nat) (e g : Int) :
    (FVal.fin (a != b) (m * n) (e + g)).rat = (FVal.fin a m e).rat * (FVal.fin b n g).rat := by
  cases a <;> cases b <;> simp [FVal.rat, two_zpow_add] <;> ring

/-- 06 R190: the product of two patterns that are no NaN. -/
theorem multiplies_mulVal {f : Ieee} {a b : Nat} (ha : f.isNaN a = false) (hb : f.isNaN b = false) :
    Multiplies f a b (mulVal (f.val a) (f.val b)) := by
  rcases f.val_cases a with ⟨h, -⟩ | ⟨-, ⟨va, -⟩ | ⟨-, va⟩⟩
  · rw [ha] at h; cases h
  · rcases f.val_cases b with ⟨h, -⟩ | ⟨-, ⟨vb, -⟩ | ⟨-, vb⟩⟩
    · rw [hb] at h; cases h
    · simp only [Multiplies, va, vb, mulVal]
    · simp only [Multiplies, va, vb, mulVal, rat_fin_eq_zero]
      split <;> rfl
  · rcases f.val_cases b with ⟨h, -⟩ | ⟨-, ⟨vb, -⟩ | ⟨-, vb⟩⟩
    · rw [hb] at h; cases h
    · simp only [Multiplies, va, vb, mulVal, rat_fin_eq_zero]
      split <;> rfl
    · simp only [Multiplies, va, vb, mulVal]
      exact ⟨_, _, _, rfl, rat_mul _ _ _ _ _ _⟩

/-- The kinds of a product of two patterns that are no NaN. -/
theorem mulVal_cases {f : Ieee} {a b : Nat} (ha : f.isNaN a = false) (hb : f.isNaN b = false) :
    mulVal (f.val a) (f.val b) = none ∨ (∃ n, mulVal (f.val a) (f.val b) = some (.inf n)) ∨
      ∃ m e, mulVal (f.val a) (f.val b) = some (.fin (f.neg a != f.neg b) m e) := by
  rcases f.val_cases a with ⟨h, -⟩ | ⟨-, ⟨va, -⟩ | ⟨-, va⟩⟩
  · rw [ha] at h; cases h
  · rcases f.val_cases b with ⟨h, -⟩ | ⟨-, ⟨vb, -⟩ | ⟨-, vb⟩⟩
    · rw [hb] at h; cases h
    · exact .inr (.inl ⟨_, by rw [va, vb]; rfl⟩)
    · simp only [va, vb, mulVal]
      split
      · exact .inl rfl
      · exact .inr (.inl ⟨_, rfl⟩)
  · rcases f.val_cases b with ⟨h, -⟩ | ⟨-, ⟨vb, -⟩ | ⟨-, vb⟩⟩
    · rw [hb] at h; cases h
    · simp only [va, vb, mulVal]
      split
      · exact .inl rfl
      · exact .inr (.inl ⟨_, rfl⟩)
    · exact .inr (.inr ⟨_, _, by rw [va, vb]; rfl⟩)

section
variable {f : Ieee} {rm : RM} {a b : Nat} (hf : f.Regular) (ha : f.isNaN a = false) (hb : f.isNaN b = false)
include hf ha hb

/-- 06 R190: a product rounded once. -/
theorem mul_spec : ∃ p, Multiplies f a b p ∧ match p with
    | none => f.sum rm [mulVal (f.val a) (f.val b)] = (f.dNaN, fINV)
    | some (.inf n) => f.sum rm [mulVal (f.val a) (f.val b)] = (f.withSign n f.infCode, 0)
    | some y => RoundsToZ f rm y.rat (f.neg a != f.neg b) (f.sum rm [mulVal (f.val a) (f.val b)]) := by
  refine ⟨_, multiplies_mulVal ha hb, ?_⟩
  rcases mulVal_cases ha hb with h | ⟨n, h⟩ | ⟨m, e, h⟩
  · rw [h]
    exact sum_invalid (.inl (by simp))
  · rw [h]
    exact sum_inf (by simp) (by simp [infsOf]) (by simp [infsOf])
  · rw [h]
    have hsum := sum_roundsToZ hf (rm := rm) (vs := [some (.fin (f.neg a != f.neg b) m e)]) (by simp) (by simp [infsOf])
    have hsign (n : Bool) : zeroSign rm [n] = n := by cases n <;> rfl
    simpa [finsOf, termRat, hsign] using hsum

/-- 06 R190: a product and a summand rounded once. -/
theorem fma_spec {c : Nat} (hc : f.isNaN c = false) : ∃ p, Multiplies f a b p ∧
    SumsTo f rm p (f.neg a != f.neg b) c (f.sum rm [mulVal (f.val a) (f.val b), some (f.val c)]) := by
  refine ⟨_, multiplies_mulVal ha hb, sum_sumsTo hf hc ?_ fun k m e h => ?_⟩
  · rcases mulVal_cases ha hb with h | ⟨n, h⟩ | ⟨m, e, h⟩ <;> simp [h]
  · rcases mulVal_cases ha hb with h' | ⟨n, h'⟩ | ⟨m', e', h'⟩ <;> rw [h'] at h <;> simp at h
    exact h.1.symm

/-- 06 R190: a sum rounded once. -/
theorem add_spec : SumsTo f rm (some (f.val a)) (f.neg a) b (f.sum rm [some (f.val a), some (f.val b)]) := by
  refine sum_sumsTo hf hb ?_ fun k m e h => ?_
  · exact fun h => by rw [val_eq_nan_iff.1 (Option.some.inj h)] at ha; cases ha
  · rcases f.val_cases a with ⟨h', -⟩ | ⟨-, ⟨va, -⟩ | ⟨-, va⟩⟩
    · rw [ha] at h'; cases h'
    · rw [va] at h; simp at h
    · rw [va] at h; simp at h
      exact h.1.symm

omit ha in
/-- A subtrahend is a summand with the other sign. -/
theorem negVal_val : negVal (f.val b) = f.val (f.withSign (!f.neg b) (f.low b)) ∧
    f.isNaN (f.withSign (!f.neg b) (f.low b)) = false := by
  have hlow := low_withSign (f := f) (!f.neg b) (f.low_lt b)
  have hneg := neg_withSign hf (!f.neg b) (f.low_lt b)
  refine ⟨?_, by rw [isNaN, hlow]; exact hb⟩
  rcases f.val_cases b with ⟨h, -⟩ | ⟨-, ⟨vb, hinf⟩ | ⟨hlt, vb⟩⟩
  · rw [hb] at h; cases h
  · rw [vb, val_of_inf (hlow.trans hinf), hneg]; rfl
  · rw [vb, val_of_lt (by rwa [hlow]), hneg, hlow]; rfl

end

end Ieee

end Sys2Proof.Machine

section
open Sys2Proof Sys2Proof.Machine

/-- Settles O17: a NaN is delivered first; else the exact sum of the operands, or of a product and an operand, is rounded once. -/
theorem floatArithmetic : Obligations.FloatArithmetic := by
  unfold Obligations.FloatArithmetic
  intro ty rm d a b a' b' c' op two
  have hf := regular_fltFmt ty
  have rounded {i : Instr} {ops : List Opnd} {R : Ieee → List Nat → Nat × Word → Prop} (k : List Nat → List (Option FVal))
      {g : List Nat → Nat × Word} (hi : ∀ s, exec i s = s.floatOp ty d ops g)
      (hg : ∀ x : List Nat, x.length = ops.length → g x = (fltFmt ty).unlessNaN (fun x => (fltFmt ty).sum rm (k x)) x)
      (hR : ∀ x : List Nat, (∀ n, (fltFmt ty).isNaN (x.getD n 0) = false) → R (fltFmt ty) x ((fltFmt ty).sum rm (k x))) :
      op i ops R := by
    refine lane1R_of_floatOp hi hg fun x hx => ?_
    rcases hnan : x.any (fltFmt ty).isNaN
    · rw [Ieee.unlessNaN_of_not_any hnan, if_neg Bool.false_ne_true]
      exact ⟨hR x (Ieee.not_isNaN_getD hnan), Ieee.sum_lt hf rm _⟩
    · rw [if_pos rfl]
      exact Ieee.unlessNaN_of_any hf hx hnan
  clear_value op
  have two_eq {g : Nat → Nat → Nat × Word} {k : List Nat → Nat × Word} (h : ∀ p q, g p q = (fltFmt ty).unlessNaN k [p, q])
      (x : List Nat) (hx : x.length = 2) : g (argN x 0) (argN x 1) = (fltFmt ty).unlessNaN k x := by
    obtain ⟨p, q, rfl⟩ := List.length_eq_two.1 hx
    exact h p q
  have three_eq {g : Nat → Nat → Nat → Nat × Word} {k : List Nat → Nat × Word}
      (h : ∀ p q r, g p q r = (fltFmt ty).unlessNaN k [p, q, r]) (x : List Nat) (hx : x.length = 3) :
      g (argN x 0) (argN x 1) (argN x 2) = (fltFmt ty).unlessNaN k x := by
    obtain ⟨p, q, r, rfl⟩ := List.length_eq_three.1 hx
    exact h p q r
  refine ⟨?_, ?_, ?_, ?_⟩
  · exact rounded _ (fun _ => rfl) (two_eq ((fltFmt ty).add_eq rm)) fun x hx => Ieee.add_spec hf (hx 0) (hx 1)
  · refine rounded _ (fun _ => rfl) (two_eq ((fltFmt ty).sub_eq rm)) fun x hx => ?_
    obtain ⟨hval, hnan⟩ := Ieee.negVal_val hf (hx 1)
    rw [hval]
    exact Ieee.add_spec hf (hx 0) hnan
  · exact rounded _ (fun _ => rfl) (two_eq ((fltFmt ty).mul_eq rm)) fun x hx => Ieee.mul_spec hf (hx 0) (hx 1)
  · exact rounded _ (fun _ => rfl) (three_eq ((fltFmt ty).fma_eq rm)) fun x hx => Ieee.fma_spec hf (hx 0) (hx 1) (hx 2)

end

/-! O21: conversions (06 R198, R199, R201). -/
namespace Sys2Proof.Machine

namespace Ieee

/-! ### NaNs between formats (06 R178 rule 3) -/

section
variable {f : Ieee} (hf : f.Regular)
include hf

/-- A NaN's fraction stands in the low bits of its pattern. -/
theorem withSign_infCode_add (n : Bool) : ∃ k, ∀ x, f.withSign n (f.infCode + x) = 2 ^ f.g.t * k + x := by
  obtain ⟨k, hk⟩ := hf.infCode_dvd
  have hs : f.signBit = 2 ^ f.g.t * (k + 1) := by rw [← hf.infCode_add, hk, Nat.mul_succ]
  cases n
  · exact ⟨k, fun x => by rw [withSign, if_neg Bool.false_ne_true, hk]⟩
  · exact ⟨k + 1 + k, fun x => by rw [withSign, if_pos rfl, hs, hk]; ring⟩

theorem quietBit_lt : 2 ^ (f.g.t - 1) < 2 ^ f.g.t :=
  Nat.pow_lt_pow_right (by decide) (by have := hf.t_pos; omega)

/-- The quiet bit is a bit of the fraction. -/
theorem quiet_of_form {k x : Nat} (hx : x < 2 ^ f.g.t) :
    f.quiet (2 ^ f.g.t * k + x) = 2 ^ f.g.t * k + (x ||| 2 ^ (f.g.t - 1)) := by
  rw [quiet, Nat.two_pow_add_eq_or_of_lt hx, Nat.or_assoc,
    Nat.two_pow_add_eq_or_of_lt (Nat.or_lt_two_pow hx (quietBit_lt hf))]

theorem quiet_infCode_add {x : Nat} (hx : x < 2 ^ f.g.t) :
    f.quiet (f.infCode + x) = f.infCode + (x ||| 2 ^ (f.g.t - 1)) := by
  obtain ⟨k, hk⟩ := hf.infCode_dvd
  rw [hk, quiet_of_form hf hx]

/-- The pattern of a NaN with its quiet bit set, by sign and fraction: it is a NaN, with that fraction. -/
theorem quiet_nan (n : Bool) {x : Nat} (hx : x < 2 ^ f.g.t) :
    let r := f.withSign n (f.quiet (f.infCode + x))
    f.isNaN r = true ∧ f.neg r = n ∧ r < 2 ^ f.w ∧ ∃ k, r = 2 ^ f.g.t * k + (x ||| 2 ^ (f.g.t - 1)) := by
  have hlt : (x ||| 2 ^ (f.g.t - 1)) < 2 ^ f.g.t := Nat.or_lt_two_pow hx (quietBit_lt hf)
  have hpos : 0 < (x ||| 2 ^ (f.g.t - 1)) := lt_of_lt_of_le (by positivity) Nat.right_le_or
  have hsign : f.infCode + (x ||| 2 ^ (f.g.t - 1)) < f.signBit := by
    have := hf.infCode_add
    omega
  intro r
  have hr : r = f.withSign n (f.infCode + (x ||| 2 ^ (f.g.t - 1))) := congrArg (f.withSign n) (quiet_infCode_add hf hx)
  rw [hr]
  refine ⟨?_, neg_withSign hf n hsign, withSign_lt hf n hsign, ?_⟩
  · rw [isNaN, low_withSign n hsign]
    exact decide_eq_true (by omega)
  · obtain ⟨k, hk⟩ := withSign_infCode_add hf n
    exact ⟨k, hk _⟩

/-- A NaN of the same format is only made quiet. -/
theorem nanConv_self {c : Nat} (hc : c < 2 ^ f.w) (hnan : f.isNaN c = true) : (nanConv f f c).1 = f.quiet c := by
  have hlow : f.infCode < f.low c := of_decide_eq_true hnan
  obtain ⟨x, hx⟩ := Nat.exists_eq_add_of_lt hlow
  have hxt : x + 1 < 2 ^ f.g.t := by
    have := hf.infCode_add
    have := f.low_lt c
    omega
  obtain ⟨k, hk⟩ := withSign_infCode_add hf (f.neg c)
  have hform : c = 2 ^ f.g.t * k + (x + 1) := by rw [← hk, ← Nat.add_assoc, ← hx, withSign_neg_low hf hc]
  have hfr : c % 2 ^ f.g.t = x + 1 := by rw [hform, Nat.mul_add_mod, Nat.mod_eq_of_lt hxt]
  have hconv : (nanConv f f c).1 = f.withSign (f.neg c) (f.quiet (f.infCode + (x + 1))) := by simp [nanConv, hfr]
  rw [hconv, quiet_infCode_add hf hxt, hk]
  conv_rhs => rw [hform, quiet_of_form hf hxt]

end

/-- 06 R178 rule 3: a NaN moved between formats. -/
theorem nanConv_spec {src dst : Ieee} (hs : src.Regular) (hd : dst.Regular) {c : Nat} :
    let r := nanConv src dst c
    r.2 = (if src.isSNaN c then fINV else 0) ∧ dst.isNaN r.1 = true ∧ dst.neg r.1 = src.neg c ∧
      r.1 < 2 ^ dst.w ∧ r.1.testBit (dst.g.t - 1) = true ∧ (∀ k, k < src.g.t - 1 → k < dst.g.t - 1 →
        r.1.testBit (dst.g.t - 2 - k) = c.testBit (src.g.t - 2 - k)) ∧ ∀ k, k + src.g.t < dst.g.t → r.1.testBit k = false := by
  have hts := hs.t_pos
  have htd := hd.t_pos
  have hfr : c % 2 ^ src.g.t < 2 ^ src.g.t := Nat.mod_lt _ (by positivity)
  -- the fraction in the new format, and its bits
  obtain ⟨x, hx, hxlt, hhigh, hlow⟩ : ∃ x, (if dst.g.t ≤ src.g.t then c % 2 ^ src.g.t / 2 ^ (src.g.t - dst.g.t)
        else c % 2 ^ src.g.t * 2 ^ (dst.g.t - src.g.t)) = x ∧ x < 2 ^ dst.g.t ∧
      (∀ k, k < src.g.t - 1 → k < dst.g.t - 1 → x.testBit (dst.g.t - 2 - k) = c.testBit (src.g.t - 2 - k)) ∧
      ∀ k, k + src.g.t < dst.g.t → x.testBit k = false := by
    refine ⟨_, rfl, ?_⟩
    split
    next h =>
      refine ⟨?_, fun k h1 h2 => ?_, fun k h1 => by omega⟩
      · rw [Nat.div_lt_iff_lt_mul (by positivity), ← pow_add]
        exact hfr.trans_le (Nat.pow_le_pow_right (by decide) (by omega))
      · rw [Nat.testBit_div_two_pow, Nat.testBit_mod_two_pow, show dst.g.t - 2 - k + (src.g.t - dst.g.t) = src.g.t - 2 - k by omega,
          decide_eq_true (by omega), Bool.true_and]
    next h =>
      refine ⟨?_, fun k h1 h2 => ?_, fun k h1 => ?_⟩
      · calc c % 2 ^ src.g.t * 2 ^ (dst.g.t - src.g.t) < 2 ^ src.g.t * 2 ^ (dst.g.t - src.g.t) :=
              Nat.mul_lt_mul_of_pos_right hfr (by positivity)
          _ = 2 ^ dst.g.t := by rw [← pow_add]; congr 1; omega
      · rw [Nat.testBit_mul_two_pow, Nat.testBit_mod_two_pow, show dst.g.t - 2 - k - (dst.g.t - src.g.t) = src.g.t - 2 - k by omega,
          decide_eq_true (by omega), decide_eq_true (by omega), Bool.true_and, Bool.true_and]
      · rw [Nat.testBit_mul_two_pow, decide_eq_false (by omega), Bool.false_and]
  obtain ⟨hnan, hneg, hlt, k, hk⟩ := quiet_nan hd (src.neg c) hxlt
  have hor : (x ||| 2 ^ (dst.g.t - 1)) < 2 ^ dst.g.t := Nat.or_lt_two_pow hxlt (quietBit_lt hd)
  have hr : (nanConv src dst c).1 = dst.withSign (src.neg c) (dst.quiet (dst.infCode + x)) := by rw [← hx]; rfl
  have hbit (j : Nat) (hj : j < dst.g.t) : (nanConv src dst c).1.testBit j = (x.testBit j || decide (dst.g.t - 1 = j)) := by
    rw [hr, hk, Nat.testBit_two_pow_mul_add _ hor, if_pos hj, Nat.testBit_or, Nat.testBit_two_pow]
  refine ⟨rfl, by rw [hr]; exact hnan, by rw [hr]; exact hneg, by rw [hr]; exact hlt, ?_, fun k h1 h2 => ?_, fun k h1 => ?_⟩
  · rw [hbit _ (by omega)]
    simp
  · rw [hbit _ (by omega), hhigh k h1 h2, decide_eq_false (by omega), Bool.or_false]
  · rw [hbit _ (by omega), hlow k h1, decide_eq_false (by omega), Bool.or_false]

/-! ### Conversions between formats -/

/-- 06 R198. -/
theorem cvtElt_converts {src dst : Ieee} (hs : src.Regular) (hd : dst.Regular) (rm : RM) (c : Nat) :
    Converts src dst rm c (cvtElt src dst rm c) ∧ (cvtElt src dst rm c).1 < 2 ^ dst.w := by
  rcases src.val_cases c with ⟨hnan, hval⟩ | ⟨hnan, ⟨hval, -⟩ | ⟨-, hval⟩⟩
  · have h := nanConv_spec hs hd (c := c)
    simp only [Converts, cvtElt, hval, hnan, if_true]
    exact ⟨h, h.2.2.2.1⟩
  · simp only [Converts, cvtElt, hval, hnan, Bool.false_eq_true, if_false, true_and]
    exact withSign_lt hd _ (infCode_lt hd)
  · simp only [Converts, cvtElt, hval, hnan, Bool.false_eq_true, if_false]
    exact ⟨round_roundsToZ hd _ _ _ _, round_lt hd _ _ _ _⟩

end Ieee

/-! ### Conversions to and from integers -/

theorem rat_int (x : Int) (b : Bool) (hb : b = decide (x < 0)) : (FVal.fin b x.natAbs 0).rat = x := by
  subst hb
  rw [rat_fin, scaled, zpow_zero, mul_one, Nat.cast_natAbs]
  by_cases h : x < 0
  · simp [h, abs_of_neg h]
  · simp [h, abs_of_nonneg (not_lt.1 h)]

/-- An integer rounded to a format. -/
theorem round_int_roundsToZ {f : Ieee} (hf : f.Regular) (rm : RM) (x : Int) :
    RoundsToZ f rm x false (f.round rm (decide (x < 0)) x.natAbs 0) := by
  have h := Ieee.round_roundsToZ hf rm (decide (x < 0)) x.natAbs 0
  rw [rat_int x _ rfl] at h
  refine ⟨fun h0 => ?_, h.2⟩
  have hx : x = 0 := by exact_mod_cast h0
  subst hx
  exact h.1 h0

/-- Rounding to an integer is rounding to units of 1. -/
theorem roundInt_eq (rm : RM) (neg : Bool) (m : Nat) (e : Int) : roundInt rm neg m e =
    ((if neg then -1 else 1) * ((roundAt { t := 0, bias := 1 } rm neg m e 0).1 : Int), (roundAt { t := 0, bias := 1 } rm neg m e 0).2) := by
  have hodd (q : Nat) : (q % 2 == 1) = (((0 - (1 - 1 - ((0 : Nat) : Int))) * ((2 ^ 0 : Nat) : Int) + q) % 2 != 0) := by
    rw [Bool.eq_iff_iff, beq_iff_eq, bne_iff_ne]
    omega
  rcases le_or_gt 0 e with h | h
  · rw [roundAt_of_le h, roundInt, if_pos h]
    cases neg <;> simp
  · rw [roundAt_of_lt h, roundInt, if_neg h.not_ge]
    simp only [hodd, zero_sub, Grid.umin]
    cases neg
    · simp
    · simp
      split <;> ring

/-- A number rounded to an integer, and whether that changed it. -/
theorem roundInt_spec (rm : RM) (neg : Bool) (m : Nat) (e : Int) :
    (roundInt rm neg m e).1 = ratRound rm 0 (FVal.fin neg m e).rat ∧
      ((roundInt rm neg m e).2 = true ↔ (FVal.fin neg m e).rat ≠ (roundInt rm neg m e).1) := by
  have hround := ratRound_roundAt { t := 0, bias := 1 } rm neg m e 0
  have hexact := roundAt_inexact { t := 0, bias := 1 } rm neg m e 0
  rw [roundInt_eq]
  refine ⟨by simpa [Grid.umin] using hround.symm, hexact.trans (not_congr ?_)⟩
  rw [rat_fin, sub_zero]
  cases neg
  · simpa using eq_comm
  · simpa using eq_comm

/-- 06 R199: a float read as an integer of a type. -/
theorem toIntElt_spec (ty : IntTy) (f : Ieee) (rm : RM) (c : Nat) :
    match f.val c with
    | .nan => (toIntElt ty f rm c).val = 0 ∧ (toIntElt ty f rm c).flags = fINV
    | .inf n => typed ty (toIntElt ty f rm c).val = (if n then leastOf ty else mostOf ty) ∧ (toIntElt ty f rm c).flags = fINV
    | x => if ratRound rm 0 x.rat < leastOf ty then typed ty (toIntElt ty f rm c).val = leastOf ty ∧ (toIntElt ty f rm c).flags = fINV
      else if mostOf ty < ratRound rm 0 x.rat then typed ty (toIntElt ty f rm c).val = mostOf ty ∧ (toIntElt ty f rm c).flags = fINV
      else typed ty (toIntElt ty f rm c).val = ratRound rm 0 x.rat ∧
        (toIntElt ty f rm c).flags = if x.rat = ratRound rm 0 x.rat then 0 else fINX := by
  have hlo : itMin ty = leastOf ty := by cases ty <;> rfl
  have hhi : itMax ty = mostOf ty := by cases ty <;> rfl
  have hle := leastOf_le_mostOf ty
  rcases f.val_cases c with ⟨-, hval⟩ | ⟨-, ⟨hval, -⟩ | ⟨-, hval⟩⟩
  · simp only [hval, toIntElt, and_self]
  · simp only [hval, toIntElt, hlo, hhi, and_true]
    split
    · exact typed_wrapW le_rfl hle
    · exact typed_wrapW hle le_rfl
  · obtain ⟨hround, hexact⟩ := roundInt_spec rm (f.neg c) (f.g.mag (f.low c)).1 (f.g.mag (f.low c)).2
    simp only [hval, toIntElt, hlo, hhi]
    rw [← hround]
    split
    · exact ⟨typed_wrapW le_rfl hle, rfl⟩
    next h1 =>
      split
      · exact ⟨typed_wrapW hle le_rfl, rfl⟩
      next h2 =>
        refine ⟨typed_wrapW (not_lt.1 h1) (not_lt.1 h2), ?_⟩
        exact (if_congr hexact rfl rfl).trans (ite_not _ _ _)

theorem toIntElt_fault (ty : IntTy) (f : Ieee) (rm : RM) (c : Nat) : (toIntElt ty f rm c).fault = none := by
  unfold toIntElt
  split
  · rfl
  · rfl
  · dsimp only
    split
    · rfl
    · split <;> rfl

theorem toNat_ofNat_lt {n w : Nat} (h : n < 2 ^ w) (hw : w ≤ 64) : (BitVec.ofNat 64 n).toNat = n := by
  rw [BitVec.toNat_ofNat, Nat.mod_eq_of_lt (h.trans_le (Nat.pow_le_pow_right (by decide) hw))]

theorem cvtFmt_w_le (c : CvtFmt) : (cvtFmt c).w ≤ 64 := by cases c <;> decide

theorem halfFmt_w (bf : Bool) : (halfFmt bf).w = 16 := by cases bf <;> rfl

/-- The fields of a packed result. -/
theorem packed_fields {x y w : Nat} (hx : x < 2 ^ w) (hy : y < 2 ^ w) (hw : w + w ≤ 64) :
    (BitVec.ofNat 64 (x + 2 ^ w * y)).toNat = x + 2 ^ w * y ∧ x + 2 ^ w * y < 2 ^ (w + w) ∧
      (x + 2 ^ w * y) % 2 ^ w = x ∧ (x + 2 ^ w * y) / 2 ^ w = y := by
  have hlt : x + 2 ^ w * y < 2 ^ (w + w) := by
    rw [pow_add]
    nlinarith
  exact ⟨toNat_ofNat_lt hlt hw, hlt, by rw [Nat.add_mul_mod_self_left, Nat.mod_eq_of_lt hx],
    by rw [Nat.add_mul_div_left _ _ (by positivity), Nat.div_eq_of_lt hx, Nat.zero_add]⟩

end Sys2Proof.Machine

section
open Sys2Proof Sys2Proof.Machine

/-- Settles O21: a conversion rounds the number once, or moves a NaN. -/
theorem conversions : Obligations.Conversions := by
  unfold Obligations.Conversions
  intro dst src fc ity bf rm d a b half fmt pat lo hi
  have hfmt : fmt = cvtFmt := by funext c; cases c <;> rfl
  have hhalf := regular_halfFmt bf
  have hw := halfFmt_w bf
  have hlo : lo = leastOf ity := by cases ity <;> rfl
  have hhi : hi = mostOf ity := by cases ity <;> rfl
  clear_value fmt lo hi
  subst hfmt hlo hhi
  refine ⟨?_, ?_, ?_, ?_, ?_⟩
  · refine lane1R_of_lanewise (fun _ => rfl) (fun _ => rfl) fun v => ?_
    obtain ⟨hconv, hlt⟩ := Ieee.cvtElt_converts (regular_cvtFmt src) (regular_cvtFmt dst) rm (patOf (cvtFmt src) (arg v 0))
    have hval := toNat_ofNat_lt hlt (cvtFmt_w_le dst)
    dsimp only [patOut]
    rw [hval]
    exact ⟨hlt, hconv⟩
  · refine lane1R_of_lanewise (fun _ => rfl) (fun _ => rfl) fun v => ?_
    have hround := round_int_roundsToZ (regular_cvtFmt fc) rm (typed ity (arg v 0))
    have hlt := Ieee.round_lt (regular_cvtFmt fc) rm (decide (typed ity (arg v 0) < 0)) (typed ity (arg v 0)).natAbs 0
    dsimp only [patOut]
    rw [toNat_ofNat_lt hlt (cvtFmt_w_le fc)]
    exact hround
  · exact lane1R_of_lanewise (fun _ => rfl) (fun v => toIntElt_fault _ _ _ _) fun v => toIntElt_spec ity (cvtFmt fc) rm _
  · refine lane1R_of_lanewise (fun _ => rfl) (fun _ => rfl) fun v => ?_
    obtain ⟨h0, hlt0⟩ := Ieee.cvtElt_converts regular_fp32 hhalf rm (lo32 (arg v 0)).toNat
    obtain ⟨h1, hlt1⟩ := Ieee.cvtElt_converts regular_fp32 hhalf rm (lo32 (arg v 1)).toNat
    obtain ⟨hval, hlt, hmod, hdiv⟩ := packed_fields (hw ▸ hlt0) (hw ▸ hlt1) (by decide)
    dsimp only
    rw [hval, hmod, hdiv]
    exact ⟨_, _, hlt, rfl, h0, h1⟩
  · refine lane1R_of_lanewise (fun _ => rfl) (fun _ => rfl) fun v => ?_
    obtain ⟨h0, hlt0⟩ := Ieee.cvtElt_converts hhalf regular_fp32 .rne ((arg v 0).extractLsb' 0 16).toNat
    obtain ⟨h1, hlt1⟩ := Ieee.cvtElt_converts hhalf regular_fp32 .rne ((arg v 0).extractLsb' 16 16).toNat
    obtain ⟨hval, -, hmod, hdiv⟩ := packed_fields (w := 32) hlt0 hlt1 (by decide)
    dsimp only
    rw [hval, hmod, hdiv]
    exact ⟨_, _, rfl, h0, h1⟩

end

/-! O24: dot products with one rounding (06 R202). -/
namespace Sys2Proof.Machine

/-! ### Products of values -/

/-- 0 × ∞. -/
def BadProduct (p : FVal × FVal) : Prop :=
  (p.1.finite = false ∧ p.2.finite = true ∧ p.2.rat = 0) ∨ (p.2.finite = false ∧ p.1.finite = true ∧ p.1.rat = 0)

/-- The sign of a product. -/
def productNeg (p : FVal × FVal) : Bool := p.1.neg != p.2.neg

/-- No factor is a NaN. -/
def NoNaN (p : FVal × FVal) : Prop := p.1 ≠ .nan ∧ p.2 ≠ .nan

/-- A product of finite factors. -/
theorem mulVal_fin {p : FVal × FVal} (h : (p.1.finite && p.2.finite) = true) :
    ∃ m e, mulVal p.1 p.2 = some (.fin (productNeg p) m e) ∧ (FVal.fin (productNeg p) m e).rat = p.1.rat * p.2.rat := by
  obtain ⟨_ | _ | ⟨a, m, e⟩, _ | _ | ⟨b, n, g⟩⟩ := p
  case fin.fin => exact ⟨_, _, rfl, Ieee.rat_mul _ _ _ _ _ _⟩
  all_goals cases h

/-- A product with an infinite factor. -/
theorem mulVal_inf {p : FVal × FVal} (hp : NoNaN p) (h : (p.1.finite && p.2.finite) = false) (hbad : ¬ BadProduct p) :
    mulVal p.1 p.2 = some (.inf (productNeg p)) := by
  obtain ⟨_ | _ | ⟨a, m, e⟩, _ | _ | ⟨b, n, g⟩⟩ := p <;> simp_all [NoNaN, FVal.finite, mulVal, productNeg, FVal.neg, BadProduct, rat_fin_eq_zero]

theorem mulVal_bad {p : FVal × FVal} (hp : NoNaN p) : mulVal p.1 p.2 = none ↔ BadProduct p := by
  obtain ⟨_ | _ | ⟨a, m, e⟩, _ | _ | ⟨b, n, g⟩⟩ := p <;> simp_all [NoNaN, FVal.finite, mulVal, BadProduct, rat_fin_eq_zero]

/-! ### Sums of products -/

theorem infsOf_append (vs ws : List (Option FVal)) : infsOf (vs ++ ws) = infsOf vs ++ infsOf ws := List.filterMap_append
theorem finsOf_append (vs ws : List (Option FVal)) : finsOf (vs ++ ws) = finsOf vs ++ finsOf ws := List.filterMap_append

/-- The signs of the infinities among summands that are no invalid products. -/
theorem infsOf_products {ps : List (FVal × FVal)} (hp : ∀ p ∈ ps, NoNaN p) (hbad : ∀ p ∈ ps, ¬ BadProduct p) :
    infsOf (ps.map (fun p => mulVal p.1 p.2)) = (ps.filter (fun p => !(p.1.finite && p.2.finite))).map productNeg := by
  induction ps with
  | nil => rfl
  | cons p ps ih =>
    rw [List.map_cons, ← List.singleton_append, infsOf_append, ih (fun q hq => hp q (by simp [hq])) (fun q hq => hbad q (by simp [hq])),
      List.filter_cons]
    rcases h : (p.1.finite && p.2.finite)
    · rw [mulVal_inf (hp p (by simp)) h (hbad p (by simp))]
      rfl
    · obtain ⟨m, e, hm, -⟩ := mulVal_fin h
      rw [hm]
      rfl

theorem finsOf_products {ps : List (FVal × FVal)} (h : ∀ p ∈ ps, (p.1.finite && p.2.finite) = true) :
    (finsOf (ps.map (fun p => mulVal p.1 p.2))).map (fun t => t.1) = ps.map productNeg ∧
      (finsOf (ps.map (fun p => mulVal p.1 p.2))).map termRat = ps.map (fun p => p.1.rat * p.2.rat) := by
  induction ps with
  | nil => exact ⟨rfl, rfl⟩
  | cons p ps ih =>
    obtain ⟨h1, h2⟩ := ih fun q hq => h q (by simp [hq])
    obtain ⟨m, e, hm, hrat⟩ := mulVal_fin (h p (by simp))
    rw [List.map_cons, ← List.singleton_append, finsOf_append, hm, List.map_append, List.map_append, h1, h2]
    exact ⟨rfl, congrArg (fun q => q :: _) hrat⟩

theorem infsOf_value {c : FVal} (hc : c ≠ .nan) : infsOf [some c] = if c.finite then [] else [c.neg] := by
  cases c with
  | nan => exact absurd rfl hc
  | inf n => rfl
  | fin n m e => rfl

theorem finsOf_value {c : FVal} (hc : c.finite = true) : (finsOf [some c]).map (fun t => t.1) = [c.neg] ∧
    (finsOf [some c]).map termRat = [c.rat] := by
  cases c with
  | nan => cases hc
  | inf n => cases hc
  | fin n m e => exact ⟨rfl, rfl⟩

/-- 06 R202: a sum of products and an addend, none of them a NaN. -/
theorem sum_dotTo (rm : RM) {ps : List (FVal × FVal)} {c : FVal} (hp : ∀ p ∈ ps, NoNaN p) (hc : c ≠ .nan) :
    DotTo rm ps c (fp32.sum rm (ps.map (fun p => mulVal p.1 p.2) ++ [some c])) := by
  have hnone : none ∈ ps.map (fun p => mulVal p.1 p.2) ++ [some c] ↔ ∃ p ∈ ps, BadProduct p := by
    simp only [List.mem_append, List.mem_map, List.mem_singleton, reduceCtorEq, or_false]
    exact exists_congr fun p => and_congr_right fun hm => mulVal_bad (hp p hm)
  have hinfs (hbad : ¬ ∃ p ∈ ps, BadProduct p) : infsOf (ps.map (fun p => mulVal p.1 p.2) ++ [some c]) =
      (ps.filter (fun p => !(p.1.finite && p.2.finite))).map productNeg ++ if c.finite then [] else [c.neg] := by
    rw [infsOf_append, infsOf_products hp fun p hm hb => hbad ⟨p, hm, hb⟩, infsOf_value hc]
  refine ⟨fun h => ?_, fun n hbad hne hall => ?_, fun hempty => ?_⟩
  · by_cases hbad : ∃ p ∈ ps, BadProduct p
    · exact Ieee.sum_invalid (.inl (hnone.2 hbad))
    · exact Ieee.sum_invalid (.inr (hinfs hbad ▸ h.resolve_left hbad))
  · exact Ieee.sum_inf (fun h => hbad (hnone.1 h)) (hinfs hbad ▸ hne) (hinfs hbad ▸ hall)
  · obtain ⟨hps, hfin⟩ := List.append_eq_nil_iff.1 hempty
    have hcfin : c.finite = true := by
      by_contra h
      simp [h] at hfin
    have hallfin : ∀ p ∈ ps, (p.1.finite && p.2.finite) = true := by
      intro p hm
      simpa using List.filter_eq_nil_iff.1 (List.map_eq_nil_iff.1 hps) p hm
    have hbad : ¬ ∃ p ∈ ps, BadProduct p := by
      rintro ⟨p, hm, hb⟩
      obtain ⟨h1, h2⟩ := Bool.and_eq_true_iff.1 (hallfin p hm)
      rcases hb with ⟨h, -⟩ | ⟨h, -⟩
      · rw [h1] at h; cases h
      · rw [h2] at h; cases h
    have hsum := Ieee.sum_roundsToZ (rm := rm) regular_fp32 (fun h => hbad (hnone.1 h)) ((hinfs hbad).trans hempty)
    obtain ⟨hs1, hr1⟩ := finsOf_products hallfin
    obtain ⟨hs2, hr2⟩ := finsOf_value hcfin
    rw [finsOf_append, List.map_append, List.map_append, hs1, hr1, hs2, hr2, List.sum_append, List.sum_singleton] at hsum
    exact hsum

/-! ### Lane operations with a check of their class (02 R72) -/

/-- A lane operation that a check of its class lets pass. -/
theorem laneR_of_checked {i : Instr} {ops : List Opnd} {d : Dst} {ok : State → Here → Prop} {bad : Here → Bool}
    {F : Here → List DWord → LaneOut} {R : Here → Nat → List DWord → DWord → Word → Prop}
    (hi : ∀ s h, s.here = some h → exec i s = .next (s.vec h { ops := ops, dst := some d, lane := fun _ vs => F h vs }
      (slotCheck (bad h)) justVals))
    (hok : ∀ s h, ok s h → bad h = false) (h0 : ∀ h vs, (F h vs).fault = none)
    (hR : ∀ h k vs, R h k vs (F h vs).val (F h vs).flags) : LaneR i ops d false 1 ok R := by
  refine ⟨fun h _ vs => (F h vs).val, fun h _ vs => (F h vs).flags, ?_, hR⟩
  refine laneInstr_of_vec (st := true) (F := fun _ h _ vs => F h vs) (fun s h hh hpass => ?_) (fun _ h _ _ _ => h0 h _)
    (fun _ _ _ _ _ => rfl) (fun _ _ _ _ _ => rfl)
  rw [hi s h hh, hok s h hpass]
  rfl

/-- A check of its class stops an instruction that no other check stops. -/
theorem vec_checked {s : State} {h : Here} {v : VecIn} {cause : Nat} {addr : DWord} {eff} (hw : v.wide = none)
    (hr : Runs s h v.ops v.names) : s.vec h v (some (cause, addr)) eff = s.raise h cause addr := by
  obtain ⟨-, hcursor, -, hundef, hquota, hstreams, -⟩ := hr
  have hwritten : v.written h.grp = v.names := if_neg (by simp [hw])
  have hfits : ¬ (h.grp.allocates (v.ops.flatMap Opnd.frees) v.names &&
      decide (h.limit < h.grp.wouldHold (v.ops.flatMap Opnd.frees) v.names)) = true := by
    rw [Bool.and_eq_true, decide_eq_true_iff]
    exact fun ⟨ha, hl⟩ => absurd (hquota ha) hl.not_ge
  unfold State.vec
  simp only [hwritten]
  rw [if_neg (by omega), hundef]
  simp only [hstreams]
  rw [if_neg hfits]

/-! ### Dot products -/

/-- The first NaN of a list of elements, as the model delivers it. -/
theorem findSome_nanOf {f : Ieee} (l : List Nat) :
    (l.map (nanOf f)).findSome? id = (l.find? f.isNaN).map (fun x => (nanConv f fp32 x).1) := by
  induction l with
  | nil => rfl
  | cons x l ih =>
    rw [List.map_cons, List.findSome?_cons, List.find?_cons, nanOf]
    cases f.isNaN x
    · exact ih
    · rfl

section
variable (rm : RM) (xs ys : List FVal) (c : FVal) (nans : List (Option Nat)) (sig : Bool)

theorem dotOf_nan {p : Nat} (h : nans.findSome? id = some p) : dotOf rm xs ys c nans sig = (p, if sig then fINV else 0) := by
  rw [dotOf, h]

theorem dotOf_numbers (h : nans.findSome? id = none) :
    dotOf rm xs ys c nans sig = fp32.sum rm ((xs.zip ys).map (fun e => mulVal e.1 e.2) ++ [some c]) := by
  rw [dotOf, h]

end

/-- The NaN of the addend, where no factor is one. -/
theorem findSome_append_nanOf {l : List (Option Nat)} {z : Nat} (h : l.findSome? id = none) (hz : z < 2 ^ fp32.w) :
    (l ++ [nanOf fp32 z]).findSome? id = if fp32.isNaN z then some (fp32.quiet z) else none := by
  rw [List.findSome?_append, h, Option.none_or, List.findSome?_singleton, nanOf]
  cases hn : fp32.isNaN z
  · rfl
  · simp only [if_true, id]
    rw [Ieee.nanConv_self regular_fp32 hz hn]

/-- 06 R202, over elements of an IEEE format. -/
theorem dotOf_ieee {f : Ieee} (hf : f.Regular) (rm : RM) (xs ys : List Nat) {z : Nat} (hz : z < 2 ^ fp32.w) (sig : Bool) {r : Nat × Word}
    (hr : r = dotOf rm (xs.map f.val) (ys.map f.val) (fp32.val z) ((xs ++ ys).map (nanOf f) ++ [nanOf fp32 z]) sig) :
    r.1 < 2 ^ fp32.w ∧ match (xs ++ ys).find? f.isNaN with
      | some x => (∃ w, Converts f fp32 .rne x (r.1, w)) ∧ r.2 = if sig then fINV else 0
      | none => if fp32.isNaN z then r.1 = fp32.quiet z ∧ r.2 = (if sig then fINV else 0)
        else DotTo rm ((xs.map f.val).zip (ys.map f.val)) (fp32.val z) r := by
  have hfind := findSome_nanOf (f := f) (xs ++ ys)
  rcases hfirst : (xs ++ ys).find? f.isNaN with _ | x
  · rw [hfirst] at hfind
    have hlast := findSome_append_nanOf hfind hz
    cases hn : fp32.isNaN z
    · rw [hn] at hlast
      rw [dotOf_numbers rm _ _ _ _ _ hlast] at hr
      rw [hr]
      refine ⟨Ieee.sum_lt regular_fp32 _ _, sum_dotTo rm (fun p hp => ?_) fun h => ?_⟩
      · have hall : ∀ x ∈ xs ++ ys, f.val x ≠ .nan := fun x hx h =>
          List.find?_eq_none.1 hfirst x hx (Ieee.val_eq_nan_iff.1 h)
        obtain ⟨h1, h2⟩ := List.of_mem_zip (show (p.1, p.2) ∈ _ from hp)
        obtain ⟨x, hx, hxp⟩ := List.mem_map.1 h1
        obtain ⟨y, hy, hyp⟩ := List.mem_map.1 h2
        exact ⟨hxp ▸ hall x (List.mem_append_left _ hx), hyp ▸ hall y (List.mem_append_right _ hy)⟩
      · rw [Ieee.val_eq_nan_iff.1 h] at hn; cases hn
    · rw [hn] at hlast
      rw [dotOf_nan rm _ _ _ _ sig hlast] at hr
      rw [hr]
      exact ⟨Ieee.quiet_lt regular_fp32 hz, rfl, rfl⟩
  · rw [hfirst] at hfind
    rw [dotOf_nan rm _ _ _ _ sig (p := (nanConv f fp32 x).1) (by rw [List.findSome?_append, hfind]; rfl)] at hr
    have hspec := Ieee.nanConv_spec hf regular_fp32 (c := x)
    rw [hr]
    refine ⟨hspec.2.2.2.1, ⟨(nanConv f fp32 x).2, ?_⟩, rfl⟩
    have hnan : f.val x = .nan := Ieee.val_of_isNaN (List.find?_some hfirst)
    simp only [Converts, hnan]
    exact hspec

/-- 06 R202, over elements of a small format, whose NaNs carry no payload (06 R178 rule 4). -/
theorem dotOf_mini (rm : RM) (xs ys : List FVal) {z : Nat} (hz : z < 2 ^ fp32.w) (sig : Bool) {r : Nat × Word}
    (hr : r = dotOf rm xs ys (fp32.val z) ((xs ++ ys).map (fun v => if v = .nan then some fp32.dNaN else none) ++ [nanOf fp32 z]) sig) :
    r.1 < 2 ^ fp32.w ∧
      if (xs ++ ys).any (fun v => v == .nan) then r.1 = 0x7FC00000 ∧ r.2 = (if sig then fINV else 0)
      else if fp32.isNaN z then r.1 = fp32.quiet z ∧ r.2 = (if sig then fINV else 0)
      else DotTo rm (xs.zip ys) (fp32.val z) r := by
  have hfind : ((xs ++ ys).map (fun v => if v = .nan then some fp32.dNaN else none)).findSome? id =
      if (xs ++ ys).any (fun v => v == .nan) then some fp32.dNaN else none := by
    generalize xs ++ ys = l
    induction l with
    | nil => rfl
    | cons x l ih =>
      rw [List.map_cons, List.findSome?_cons, List.any_cons]
      by_cases hx : x = .nan
      · simp [hx]
      · simp only [hx, if_false, id, ih, beq_eq_false_iff_ne.2 hx, Bool.false_or]
  rcases hany : (xs ++ ys).any (fun v => v == .nan)
  · rw [hany] at hfind
    have hlast := findSome_append_nanOf hfind hz
    cases hn : fp32.isNaN z
    · rw [hn] at hlast
      rw [dotOf_numbers rm _ _ _ _ _ hlast] at hr
      rw [hr]
      refine ⟨Ieee.sum_lt regular_fp32 _ _, sum_dotTo rm (fun p hp => ?_) fun h => ?_⟩
      · have hall : ∀ v ∈ xs ++ ys, v ≠ .nan := fun v hv => by simpa using List.any_eq_false.1 hany v hv
        obtain ⟨h1, h2⟩ := List.of_mem_zip (show (p.1, p.2) ∈ _ from hp)
        exact ⟨hall _ (List.mem_append_left _ h1), hall _ (List.mem_append_right _ h2)⟩
      · rw [Ieee.val_eq_nan_iff.1 h] at hn; cases hn
    · rw [hn] at hlast
      rw [dotOf_nan rm _ _ _ _ sig hlast] at hr
      rw [hr]
      exact ⟨Ieee.quiet_lt regular_fp32 hz, rfl, rfl⟩
  · rw [hany] at hfind
    rw [dotOf_nan rm _ _ _ _ sig (p := fp32.dNaN) (by rw [List.findSome?_append, hfind]; rfl)] at hr
    rw [hr]
    have hlt : fp32.dNaN < 2 ^ fp32.w := by decide
    exact ⟨hlt, rfl, rfl⟩

end Sys2Proof.Machine

section
open Sys2Proof Sys2Proof.Machine

/-- Settles O24: the first NaN is delivered; else the exact sum of the products and the addend is rounded once. -/
theorem dotProducts : Obligations.DotProducts := by
  unfold Obligations.DotProducts
  intro bf slot rm d a b c ops f half byte
  have hf : f.Regular := regular_halfFmt bf
  have h32 {n : Nat} (h : n < 2 ^ fp32.w) : (BitVec.ofNat 64 n).toNat = n := toNat_ofNat_lt h (by decide)
  refine ⟨?_, ?_, fun s h hr hbad => ?_⟩
  · refine lane1R_of_lanewise (fun _ => rfl) (fun _ => rfl) fun v => ?_
    have hdot {r : Nat × Word} := dotOf_ieee hf rm (half (arg v 0)) (half (arg v 1)) (lo32 (arg v 2)).isLt
      ((half (arg v 0) ++ half (arg v 1)).any f.isSNaN || fp32.isSNaN (lo32 (arg v 2)).toNat) (r := r)
    exact (hdot (r := (_, _)) (Prod.ext (h32 (hdot rfl).1) rfl)).2
  · refine laneR_of_checked (fun _ _ hh => exec_withHere hh _) (fun s h hok => ?_) (fun _ _ => rfl) fun h k v => ?_
    · obtain ⟨h1, h2, h3⟩ := hok
      simp [h2, h3]
      exact h1
    · have hdot {r : Nat × Word} := dotOf_mini rm ((byte (arg v 0)).map (slotOf (h.fmt slot)).mini.val)
        ((byte (arg v 1)).map (slotOf (h.fmt slot)).mini.val) (lo32 (arg v 2)).isLt (fp32.isSNaN (lo32 (arg v 2)).toNat) (r := r)
      exact fun _ => (hdot (r := (_, _)) (Prod.ext (h32 (hdot rfl).1) rfl)).2
  · refine (exec_withHere hr.1 _).trans (congrArg _ ?_)
    have hcheck : (h.fmt slot == 0 || (slotOf (h.fmt slot)).kind != .b8 || (slotOf (h.fmt slot)).scale != 0) = true := by
      rcases hbad with h1 | h1 | h1 <;> simp [h1]
    show State.vec s h _ (slotCheck _) _ = _
    rw [hcheck]
    exact vec_checked rfl hr

end

/-! Numbers that no rounding tells apart (06 R177, R181): a magnitude strictly between two neighbours far below the last place
stands for every other one between them. -/
namespace Sys2Proof.Machine

/-- The magnitude of x lies strictly between k and k + 1 units of 2^w. -/
def Between (k : Nat) (w : Int) (x : ℚ) : Prop := k * 2 ^ w < |x| ∧ |x| < (k + 1) * 2 ^ w

/-- x and x' are equal, or of one sign and strictly between the same two neighbours below the last place of t + 1 bits. -/
def Alike (t : Nat) (x x' : ℚ) : Prop :=
  x = x' ∨ ∃ k w, 2 ^ (t + 1) ≤ k ∧ Between k w x ∧ Between k w x' ∧ (x < 0 ↔ x' < 0)

/-- Two numbers strictly between the same multiples of a half round to the same integer, which is neither of them. -/
theorem ratRound_congr {rm : RM} {o j : Int} {x x' : ℚ} (h : (j : ℚ) < 2 * x ∧ 2 * x < j + 1) (h' : (j : ℚ) < 2 * x' ∧ 2 * x' < j + 1) :
    ratRound rm o x = ratRound rm o x' ∧ (ratRound rm o x : ℚ) ≠ x := by
  obtain ⟨q, half, h0, hd, hd'⟩ : ∃ (q : Int) (half : Nat), half ≠ 0 ∧ Discards half (x - q) ∧ Discards half (x' - q) := by
    rcases Int.even_or_odd' j with ⟨q, rfl | rfl⟩
    · push_cast at h h'
      exact ⟨q, 1, one_ne_zero, .inr (.inl ⟨rfl, by linarith, by linarith⟩), .inr (.inl ⟨rfl, by linarith, by linarith⟩)⟩
    · push_cast at h h'
      exact ⟨q, 3, by decide, .inr (.inr (.inr ⟨rfl, by linarith, by linarith⟩)), .inr (.inr (.inr ⟨rfl, by linarith, by linarith⟩))⟩
  obtain ⟨-, hlo, hhi, hz, -⟩ := hd.iff
  refine ⟨by rw [ratRound_eq_ceils hd, ratRound_eq_ceils hd'], ?_⟩
  rw [ratRound_eq_ceils hd]
  split
  · push_cast; linarith
  · exact fun he => h0 (hz.1 (by linarith))

/-- A number between neighbours lies, in greater units, strictly between the same multiples of a half. -/
theorem Between.halves {k : Nat} {w s : Int} {x : ℚ} (h : Between k w x) (hs : w < s) :
    let j : Int := if x < 0 then -(k / 2 ^ (s - w - 1).toNat : Nat) - 1 else (k / 2 ^ (s - w - 1).toNat : Nat)
    (j : ℚ) < 2 * (x / 2 ^ s) ∧ 2 * (x / 2 ^ s) < j + 1 := by
  obtain ⟨hlo, hhi⟩ := h
  set D : Nat := 2 ^ (s - w - 1).toNat with hD
  have hDpos : 0 < D := by positivity
  have hw : (0 : ℚ) < 2 ^ w := by positivity
  have hD' : (0 : ℚ) < D := by exact_mod_cast hDpos
  have hpow : (2 : ℚ) ^ s = 2 * (D * 2 ^ w) := by
    rw [hD, Nat.cast_pow, Nat.cast_ofNat, ← zpow_natCast, Int.toNat_of_nonneg (by omega), ← two_zpow_add,
      ← zpow_one_add₀ two_ne_zero]
    congr 1
    ring
  have hunit : 2 * (|x| / 2 ^ s) = |x| / (D * 2 ^ w) := by
    rw [hpow]
    field_simp
  have hfloor : (k / D : Nat) * D ≤ k := Nat.div_mul_le_self k D
  have hceil : k + 1 ≤ (k / D + 1) * D := Nat.lt_mul_of_div_lt (Nat.lt_succ_self _) hDpos
  have hfloor' : ((k / D : Nat) : ℚ) * D ≤ k := by exact_mod_cast hfloor
  have hceil' : (k : ℚ) + 1 ≤ (((k / D : Nat) : ℚ) + 1) * D := by exact_mod_cast hceil
  have h1 : ((k / D : Nat) : ℚ) < 2 * (|x| / 2 ^ s) := by
    rw [hunit, lt_div_iff₀ (by positivity), ← mul_assoc]
    exact (mul_le_mul_of_nonneg_right hfloor' hw.le).trans_lt hlo
  have h2 : 2 * (|x| / 2 ^ s) < ((k / D : Nat) : ℚ) + 1 := by
    rw [hunit, div_lt_iff₀ (by positivity), ← mul_assoc]
    exact hhi.trans_le (mul_le_mul_of_nonneg_right hceil' hw.le)
  generalize k / D = n at h1 h2
  intro j
  by_cases hneg : x < 0
  · have hj : j = -(n : Int) - 1 := if_pos hneg
    rw [abs_of_neg hneg, neg_div] at h1 h2
    rw [hj]
    push_cast
    constructor <;> linarith
  · have hj : j = (n : Int) := if_neg hneg
    rw [abs_of_nonneg (not_lt.1 hneg)] at h1 h2
    rw [hj]
    push_cast
    exact ⟨h1, h2⟩

/-- A number between neighbours lies above the binade of one, and below the next, with them. -/
theorem Between.binade {k : Nat} {w b : Int} {x x' : ℚ} (h : Between k w x) (h' : Between k w x') (hb : w ≤ b) :
    (2 ^ b ≤ |x| → 2 ^ b ≤ |x'|) ∧ (|x| < 2 ^ b → |x'| < 2 ^ b) := by
  have hw : (0 : ℚ) < 2 ^ w := by positivity
  have hpow : (2 : ℚ) ^ b = ((2 ^ (b - w).toNat : Nat) : ℚ) * 2 ^ w := by
    rw [Nat.cast_pow, Nat.cast_ofNat, ← zpow_natCast, Int.toNat_of_nonneg (by omega), ← two_zpow_add, sub_add_cancel]
  rw [hpow]
  generalize 2 ^ (b - w).toNat = n
  refine ⟨fun hle => ?_, fun hlt => ?_⟩
  · have hn : (n : ℚ) < k + 1 := lt_of_mul_lt_mul_right (hle.trans_lt h.2) hw.le
    have hn' : (n : ℚ) ≤ k := by exact_mod_cast Nat.lt_succ_iff.1 (by exact_mod_cast hn)
    exact (mul_le_mul_of_nonneg_right hn' hw.le).trans h'.1.le
  · have hn : (k : ℚ) < n := lt_of_mul_lt_mul_right (h.1.trans hlt) hw.le
    have hn' : (k : ℚ) + 1 ≤ n := by exact_mod_cast (by exact_mod_cast hn : k < n)
    exact h'.2.trans_le (mul_le_mul_of_nonneg_right hn' hw.le)

/-- Numbers alike have one rounding on a grid. -/
theorem OnGrid.alike {g : Grid} {rm : RM} {x x' y : ℚ} {tiny : Prop} (h : OnGrid g rm x y tiny) (ha : Alike g.t x x') :
    OnGrid g rm x' y tiny ∧ (y = x ↔ y = x') := by
  rcases ha with rfl | ⟨k, w, hk, hb, hb', hsign⟩
  · exact ⟨h, Iff.rfl⟩
  · obtain ⟨u, v, hlo, hhi, hu, hy, htiny⟩ := h
    have hwv : w < v := by
      have hk' : (2 : ℚ) ^ (g.t + 1 : Int) ≤ k := by exact_mod_cast hk
      have hlt : (2 : ℚ) ^ (g.t + 1 + w : Int) < 2 ^ (v + g.t + 1) :=
        calc (2 : ℚ) ^ (g.t + 1 + w : Int) = 2 ^ (g.t + 1 : Int) * 2 ^ w := two_zpow_add _ _
          _ ≤ k * 2 ^ w := mul_le_mul_of_nonneg_right hk' (by positivity)
          _ < |x| := hb.1
          _ < _ := hhi
      have := two_zpow_lt.1 hlt
      omega
    have hround (s : Int) (hs : w < s) (o : Int) : ratRound rm o (x / 2 ^ s) = ratRound rm o (x' / 2 ^ s) ∧
        (ratRound rm o (x / 2 ^ s) : ℚ) ≠ x / 2 ^ s ∧ (ratRound rm o (x' / 2 ^ s) : ℚ) ≠ x' / 2 ^ s := by
      have h1 := hb.halves hs
      have h2 := hb'.halves hs
      simp only [hsign] at h1
      exact ⟨(ratRound_congr h1 h2).1, (ratRound_congr h1 h2).2, (ratRound_congr h2 h1).2⟩
    have hwu : w < u := by omega
    obtain ⟨heq, hne, hne'⟩ := hround u hwu ((u - g.umin) * 2 ^ g.t)
    have hpos : (2 : ℚ) ^ u ≠ 0 := by positivity
    refine ⟨⟨u, v, (hb.binade hb' (by omega)).1 hlo, (hb.binade hb' (by omega)).2 hhi, hu, by rw [← heq]; exact hy, ?_⟩, ?_⟩
    · rw [← (hround v hwv _).1]
      exact htiny
    · refine iff_of_false (fun he => hne ?_) (fun he => hne' ?_)
      · rw [eq_div_iff hpos, ← hy, he]
      · rw [eq_div_iff hpos, ← heq, ← hy, he]

theorem Alike.neg_iff {t : Nat} {x x' : ℚ} (h : Alike t x x') : x < 0 ↔ x' < 0 := by
  rcases h with rfl | ⟨k, w, -, -, -, hsign⟩
  · exact Iff.rfl
  · exact hsign

theorem RoundFlags.congr {x x' y : ℚ} {tiny : Prop} {fl : Word} (h : RoundFlags x y tiny fl) (he : y = x ↔ y = x') :
    RoundFlags x' y tiny fl := by
  obtain ⟨h1, h2, h3⟩ := h
  exact ⟨fun h => h1 (he.2 h), fun h => h2 fun hy => h (he.1 hy), fun h => h3 fun hy => h (he.1 hy)⟩

theorem RoundsTo.alike {f : Ieee} {rm : RM} {x x' : ℚ} {r : Nat × Word} (h : RoundsTo f rm x r) (ha : Alike f.g.t x x') :
    RoundsTo f rm x' r := by
  obtain ⟨y, tiny, hgrid, hlt, hneg, hfin, hover⟩ := h
  obtain ⟨hgrid', he⟩ := hgrid.alike ha
  have hsign : decide (x < 0) = decide (x' < 0) := decide_eq_decide.2 ha.neg_iff
  rw [hsign] at hneg hover
  exact ⟨y, tiny, hgrid', hlt, hneg, fun h => ⟨(hfin h).1, (hfin h).2.1, (hfin h).2.2.congr he⟩, hover⟩

/-! ### Magnitudes with an odd last bit for what was discarded -/

/-- `sticky` stands for a magnitude of which it knows the integer part. -/
theorem sticky_alike {t : Nat} {neg exact : Bool} {m : Nat} {e : Int} {a : ℚ} (hexact : exact = true → a = scaled m e)
    (hbetween : exact = false → 2 ^ (t + 1) ≤ m ∧ scaled m e < a ∧ a < (m + 1) * 2 ^ e) :
    Alike t (FVal.fin neg (sticky m exact e).1 (sticky m exact e).2).rat (if neg then -a else a) := by
  cases exact with
  | true =>
    rw [hexact rfl]
    exact .inl (rat_fin _ _ _)
  | false =>
    obtain ⟨hm, hlo, hhi⟩ := hbetween rfl
    have hpos : (0 : ℚ) < 2 ^ e := by positivity
    have ha : 0 < a := (scaled_nonneg m e).trans_lt hlo
    have hmid : scaled (2 * m + 1) (e - 1) = (m + 1 / 2) * 2 ^ e := by
      rw [scaled, zpow_sub_one₀ two_ne_zero]
      push_cast
      ring
    have hmid0 : 0 < scaled (2 * m + 1) (e - 1) := scaled_pos (by omega) _
    refine .inr ⟨m, e, hm, ?_, ?_, ?_⟩
    · rw [Between, abs_rat_fin]
      show _ < scaled (2 * m + 1) (e - 1) ∧ scaled (2 * m + 1) (e - 1) < _
      rw [hmid]
      constructor <;> nlinarith
    · have habs : |if neg then -a else a| = a := by
        cases neg
        · exact abs_of_pos ha
        · exact (abs_neg a).trans (abs_of_pos ha)
      rw [Between, habs]
      exact ⟨hlo, hhi⟩
    · rw [rat_fin]
      cases neg
      · exact iff_of_false hmid0.le.not_gt ha.le.not_gt
      · exact iff_of_true (neg_lt_zero.2 hmid0) (neg_lt_zero.2 ha)

/-- The exact quotient in the units in which `quotient` divides. -/
theorem scaled_quotient (m1 : Nat) (e1 : Int) {m2 : Nat} (e2 : Int) (k : Nat) :
    scaled m1 e1 / scaled m2 e2 = ((m1 <<< k : Nat) : ℚ) / m2 * 2 ^ (e1 - e2 - k) := by
  have h2 : (2 : ℚ) ^ e1 = 2 ^ k * 2 ^ (e1 - e2 - k) * 2 ^ e2 := by
    rw [← zpow_natCast, ← two_zpow_add, ← two_zpow_add]
    congr 1
    ring
  rw [scaled, scaled, h2, Nat.shiftLeft_eq]
  push_cast
  field_simp

/-- `quotient` has more bits than a format keeps, where it is not exact. -/
theorem two_pow_le_quotient {m1 m2 : Nat} (hm1 : m1 ≠ 0) (hm2 : m2 ≠ 0) : 2 ^ 79 ≤ m1 <<< (80 + Nat.log2 m2) / m2 := by
  rw [Nat.le_div_iff_mul_le (Nat.pos_of_ne_zero hm2), Nat.shiftLeft_eq]
  calc 2 ^ 79 * m2 ≤ 2 ^ 79 * 2 ^ (Nat.log2 m2 + 1) := Nat.mul_le_mul_left _ Nat.lt_log2_self.le
    _ = 2 ^ (80 + Nat.log2 m2) := by rw [← pow_add]; congr 1; omega
    _ ≤ m1 * 2 ^ (80 + Nat.log2 m2) := Nat.le_mul_of_pos_left _ (Nat.pos_of_ne_zero hm1)

/-- A quotient of magnitudes. -/
theorem quotient_alike {t : Nat} (ht : t ≤ 77) (neg : Bool) (m1 : Nat) (e1 : Int) {m2 : Nat} (e2 : Int) (hm2 : m2 ≠ 0) :
    Alike t (FVal.fin neg (quotient m1 e1 m2 e2).1 (quotient m1 e1 m2 e2).2).rat
      (if neg then -(scaled m1 e1 / scaled m2 e2) else scaled m1 e1 / scaled m2 e2) := by
  have hpos : (0 : ℚ) < 2 ^ (e1 - e2 - (80 + Nat.log2 m2 : Nat)) := by positivity
  obtain ⟨-, hlo, hhi, hz, -⟩ := (discards_div (m1 <<< (80 + Nat.log2 m2)) (Nat.pos_of_ne_zero hm2)).iff
  rw [scaled_quotient m1 e1 e2 (80 + Nat.log2 m2)]
  refine sticky_alike (fun hexact => ?_) fun hinexact => ?_
  · rw [if_pos (beq_iff_eq.1 hexact)] at hz
    rw [scaled, sub_eq_zero.1 (hz.2 rfl)]
  · have hne : m1 <<< (80 + Nat.log2 m2) % m2 ≠ 0 := by simpa using hinexact
    have hm1 : m1 ≠ 0 := by
      rintro rfl
      simp at hne
    rw [if_neg hne] at hz
    have hd : ((m1 <<< (80 + Nat.log2 m2) : Nat) : ℚ) / m2 - (m1 <<< (80 + Nat.log2 m2) / m2 : Nat) ≠ 0 := by
      rw [Ne, hz]
      split_ifs <;> decide
    refine ⟨(Nat.pow_le_pow_right (by decide) (by omega)).trans (two_pow_le_quotient hm1 hm2),
      mul_lt_mul_of_pos_right ?_ hpos, mul_lt_mul_of_pos_right ?_ hpos⟩
    · exact sub_pos.1 (lt_of_le_of_ne hlo hd.symm)
    · linarith

end Sys2Proof.Machine

/-! Square roots and their reciprocals (06 R194): the model's integer square root, and the roots that are rational. -/
namespace Sys2Proof.Machine

/-! ### The integer square root -/

/-- A step of Newton's iteration from above the root stays there, and halves the distance. -/
theorem newton_step {n s x : Nat} (hlo : s * s ≤ n) (hhi : n < (s + 1) * (s + 1)) (hx : s < x) :
    s ≤ (x + n / x) / 2 ∧ 2 * ((x + n / x) / 2 - s) ≤ x - s := by
  have hdown : n / x ≤ s := by
    rw [← Nat.lt_succ_iff, Nat.div_lt_iff_lt_mul (by omega)]
    exact hhi.trans_le (Nat.mul_le_mul_left _ hx)
  have hup : 2 * s - x ≤ n / x := by
    rw [Nat.le_div_iff_mul_le (by omega)]
    refine le_trans ?_ hlo
    obtain ⟨d, rfl⟩ := Nat.exists_eq_add_of_lt hx
    calc (2 * s - (s + d + 1)) * (s + d + 1) = (s - (d + 1)) * (s + (d + 1)) := by congr 1; omega
      _ = s * s - (d + 1) * (d + 1) := by rw [mul_comm, ← Nat.mul_self_sub_mul_self_eq]
      _ ≤ s * s := Nat.sub_le _ _
  omega

theorem isqrtFrom_eq {fuel n s x : Nat} (hlo : s * s ≤ n) (hhi : n < (s + 1) * (s + 1)) (hx : s ≤ x) (hfuel : x - s < 2 ^ fuel) :
    isqrtFrom (fuel + 1) n x = s := by
  have hstop : s ≤ (s + n / s) / 2 := by
    rcases Nat.eq_zero_or_pos s with rfl | hs
    · exact Nat.zero_le _
    · have := (Nat.le_div_iff_mul_le hs).2 hlo
      omega
  induction fuel generalizing x with
  | zero =>
    obtain rfl : x = s := by omega
    simp only [isqrtFrom, if_pos hstop]
  | succ fuel ih =>
    rw [isqrtFrom]
    rcases hx.eq_or_lt with rfl | hlt
    · simp only [if_pos hstop]
    · obtain ⟨hs, hhalf⟩ := newton_step hlo hhi hlt
      rw [pow_succ] at hfuel
      rw [if_neg (by omega)]
      exact ih hs (by omega)

/-- `isqrt` is the floor of the square root. -/
theorem isqrt_spec {n : Nat} (hn : n < 2 ^ 250) : isqrt n * isqrt n ≤ n ∧ n < (isqrt n + 1) * (isqrt n + 1) := by
  have hlo := Nat.sqrt_le n
  have hhi := Nat.lt_succ_sqrt n
  suffices h : isqrt n = Nat.sqrt n by
    rw [h]
    exact ⟨hlo, hhi⟩
  rcases Nat.eq_zero_or_pos n with rfl | hpos
  · simp [isqrt]
  · rw [isqrt, if_neg hpos.ne']
    have hlog : Nat.log2 n < 250 := (Nat.log2_lt hpos.ne').2 hn
    have hstart : Nat.sqrt n < 2 ^ (Nat.log2 n / 2 + 1) := by
      rw [Nat.sqrt_lt', ← pow_mul]
      exact Nat.lt_log2_self.trans_le (Nat.pow_le_pow_right (by decide) (by omega))
    refine isqrtFrom_eq hlo hhi hstart.le (Nat.lt_of_le_of_lt (Nat.sub_le _ _) ?_)
    exact Nat.pow_lt_pow_right (by decide) (by omega)

/-! ### Roots of magnitudes -/

/-- What a root with an odd last bit stands for: r is the floor of the square root z of n / m. -/
theorem root_alike {t n m r : Nat} {E : Int} {z : ℚ} (hz : 0 < z) (hzz : z * z * m = n) (hm : m ≠ 0)
    (hlo : r * r * m ≤ n) (hhi : n < (r + 1) * (r + 1) * m) (hr : 2 ^ (t + 1) ≤ r) :
    Alike t (FVal.fin false (sticky r (r * r * m == n) E).1 (sticky r (r * r * m == n) E).2).rat (z * 2 ^ E) := by
  have hpos : (0 : ℚ) < 2 ^ E := by positivity
  have hm' : (0 : ℚ) < m := by exact_mod_cast Nat.pos_of_ne_zero hm
  refine sticky_alike (neg := false) (fun he => ?_) fun hne => ?_
  · have hn : (r : ℚ) * r * m = z * z * m := by rw [hzz]; exact_mod_cast beq_iff_eq.1 he
    have hroot : (r : ℚ) = z := (mul_self_inj (Nat.cast_nonneg r) hz.le).1 (mul_right_cancel₀ hm'.ne' hn)
    rw [scaled, hroot]
  · have hne' : r * r * m ≠ n := by simpa using hne
    have h1 : (r : ℚ) * r * m < z * z * m := by rw [hzz]; exact_mod_cast lt_of_le_of_ne hlo hne'
    have h2 : z * z * m < ((r : ℚ) + 1) * (r + 1) * m := by rw [hzz]; exact_mod_cast hhi
    exact ⟨hr, mul_lt_mul_of_pos_right (lt_of_mul_self_lt_mul_self₀ hz.le (lt_of_mul_lt_mul_right h1 hm'.le)) hpos,
      mul_lt_mul_of_pos_right (lt_of_mul_self_lt_mul_self₀ (by positivity) (lt_of_mul_lt_mul_right h2 hm'.le)) hpos⟩

/-- A floor of a square root has half the bits. -/
theorem two_pow_le_root {r n k : Nat} (hn : 2 ^ (2 * k) ≤ n) (hhi : n < (r + 1) * (r + 1)) : 2 ^ k ≤ r := by
  have h : (2 ^ k) * (2 ^ k) < (r + 1) * (r + 1) := by
    rw [← pow_add, ← two_mul]
    exact hn.trans_lt hhi
  exact Nat.lt_succ_iff.1 (Nat.mul_self_lt_mul_self_iff.1 h)

section
variable {t m : Nat} {e : Int} {y : ℚ} (ht : t ≤ 48) (hm : m ≠ 0) (hlt : m < 2 ^ 24) (hy : 0 < y)
include ht hm hlt hy

theorem rootOf_alike (hyy : y * y = scaled m e) : Alike t (FVal.fin false (rootOf m e).1 (rootOf m e).2).rat y := by
  obtain ⟨k, hk, hk0, hk1, hpar⟩ : ∃ k : Nat, (if e % 2 = 0 then 100 else 101) = k ∧ 100 ≤ k ∧ k ≤ 101 ∧ (e - k) % 2 = 0 :=
    ⟨_, rfl, by split <;> omega, by split <;> omega, by split <;> omega⟩
  obtain ⟨E, hE⟩ : ∃ E, e - k = 2 * E := ⟨(e - k) / 2, by omega⟩
  have hpow : (2 : ℚ) ^ e = 2 ^ k * (2 ^ E * 2 ^ E) := by
    rw [← zpow_natCast, ← two_zpow_add, ← two_zpow_add]
    congr 1
    omega
  have hn : m <<< k < 2 ^ 250 := by
    rw [Nat.shiftLeft_eq]
    calc m * 2 ^ k < 2 ^ 24 * 2 ^ k := Nat.mul_lt_mul_of_pos_right hlt (by positivity)
      _ ≤ 2 ^ 250 := by rw [← pow_add]; exact Nat.pow_le_pow_right (by decide) (by omega)
  have hbig : 2 ^ (2 * 50) ≤ m <<< k := by
    rw [Nat.shiftLeft_eq]
    exact (Nat.pow_le_pow_right (by decide) (by omega)).trans (Nat.le_mul_of_pos_left _ (Nat.pos_of_ne_zero hm))
  obtain ⟨hlo, hhi⟩ := isqrt_spec hn
  have hr : 2 ^ (t + 1) ≤ isqrt (m <<< k) := (Nat.pow_le_pow_right (by decide) (by omega)).trans (two_pow_le_root hbig hhi)
  have hz : y / 2 ^ E * (y / 2 ^ E) * (1 : Nat) = (m <<< k : Nat) := by
    rw [div_mul_div_comm, hyy, scaled, hpow, Nat.shiftLeft_eq]
    push_cast
    field_simp
  have hroot := root_alike (t := t) (E := E) (z := y / 2 ^ E) (by positivity) hz one_ne_zero (by rwa [mul_one]) (by rwa [mul_one]) hr
  rw [div_mul_cancel₀ _ (by positivity), mul_one] at hroot
  have hrw : rootOf m e = sticky (isqrt (m <<< k)) (isqrt (m <<< k) * isqrt (m <<< k) == m <<< k) E := by
    rw [rootOf, hk, hE, Int.mul_ediv_cancel_left _ two_ne_zero]
  rw [hrw]
  exact hroot

theorem rrootOf_alike (hyy : y * y * scaled m e = 1) : Alike t (FVal.fin false (rrootOf m e).1 (rrootOf m e).2).rat y := by
  obtain ⟨k, hk, hk0, hk1, hpar⟩ : ∃ k : Nat, (if e % 2 = 0 then 200 else 201) = k ∧ 200 ≤ k ∧ k ≤ 201 ∧ (-e - k) % 2 = 0 :=
    ⟨_, rfl, by split <;> omega, by split <;> omega, by split <;> omega⟩
  obtain ⟨E, hE⟩ : ∃ E, -e - k = 2 * E := ⟨(-e - k) / 2, by omega⟩
  have hpow : (2 : ℚ) ^ e * (2 ^ E * 2 ^ E) * 2 ^ k = 1 := by
    rw [← zpow_natCast, ← two_zpow_add, ← two_zpow_add, ← two_zpow_add, ← zpow_zero (2 : ℚ)]
    congr 1
    omega
  have hpos := Nat.pos_of_ne_zero hm
  have hn : 2 ^ k / m < 2 ^ 250 := (Nat.div_le_self _ _).trans_lt (Nat.pow_lt_pow_right (by decide) (by omega))
  have hbig : 2 ^ (2 * 88) ≤ 2 ^ k / m := by
    rw [Nat.le_div_iff_mul_le hpos]
    calc 2 ^ (2 * 88) * m ≤ 2 ^ (2 * 88) * 2 ^ 24 := Nat.mul_le_mul_left _ hlt.le
      _ ≤ 2 ^ k := by rw [← pow_add]; exact Nat.pow_le_pow_right (by decide) (by omega)
  obtain ⟨hlo, hhi⟩ := isqrt_spec hn
  have hr : 2 ^ (t + 1) ≤ isqrt (2 ^ k / m) := (Nat.pow_le_pow_right (by decide) (by omega)).trans (two_pow_le_root hbig hhi)
  have hz : y / 2 ^ E * (y / 2 ^ E) * m = (2 ^ k : Nat) := by
    rw [scaled] at hyy
    push_cast
    field_simp
    linear_combination (2 ^ k * ((2 : ℚ) ^ E) ^ 2) * hyy - y ^ 2 * m * hpow
  have hroot := root_alike (t := t) (E := E) (z := y / 2 ^ E) (by positivity) hz hm
    ((Nat.le_div_iff_mul_le hpos).1 hlo) ((Nat.div_lt_iff_lt_mul hpos).1 hhi) hr
  rw [div_mul_cancel₀ _ (by positivity)] at hroot
  have hrw : rrootOf m e = sticky (isqrt (2 ^ k / m)) (isqrt (2 ^ k / m) * isqrt (2 ^ k / m) * m == 2 ^ k) E := by
    rw [rrootOf, hk, hE, Int.mul_ediv_cancel_left _ two_ne_zero]
  rw [hrw]
  exact hroot

end

end Sys2Proof.Machine

/-! O20: float functions, scaling by a power of two and rounding to an integral value (06 R194, R196, R197). -/
namespace Sys2Proof.Machine

/-- The significand of a magnitude. -/
theorem Grid.mag_lt (g : Grid) (c : Nat) : (g.mag c).1 < 2 ^ (g.t + 1) := by
  have hf : c % 2 ^ g.t < 2 ^ g.t := Nat.mod_lt _ (by positivity)
  unfold Grid.mag
  dsimp only
  rw [pow_succ]
  split
  · dsimp only; omega
  · dsimp only; omega

/-! ### Powers of two -/

/-- A power of two, far above the greatest number: all overflow alike. -/
theorem round_one_of_le {rm : RM} {n : Int} (h : 400 ≤ n) : fp32.round rm false 1 n = fp32.round rm false 1 400 := by
  have hcode (k : Int) (hk : 400 ≤ k) : fp32.infCode ≤ (roundGrid fp32.g rm false 1 k).code := by
    have hplace : fp32.g.lastPlace 1 k - fp32.g.umin = k + 126 := by
      show max (k + Nat.log2 1 - (23 : Nat)) (1 - 127 - (23 : Nat)) - (1 - 127 - (23 : Nat)) = _
      rw [show Nat.log2 1 = 0 by decide]
      omega
    have hinf : fp32.infCode = 255 * 2 ^ 23 := by decide
    rw [roundGrid_eq _ _ _ _ one_ne_zero, hplace, hinf]
    refine le_trans (Nat.mul_le_mul_right _ ?_) (Nat.le_add_right _ _)
    omega
  rw [Ieee.round_of_ge (hcode n h), Ieee.round_of_ge (hcode 400 le_rfl)]

/-- A power of two, far below the least number: all underflow alike. -/
theorem round_one_of_ge {rm : RM} {n : Int} (h : n ≤ -400) : fp32.round rm false 1 n = fp32.round rm false 1 (-400) := by
  have hlog : Nat.log2 1 = 0 := by decide
  have hplace (k : Int) (hk : k ≤ -400) : fp32.g.lastPlace 1 k = -149 := by
    show max (k + Nat.log2 1 - (23 : Nat)) (1 - 127 - (23 : Nat)) = _
    rw [hlog]
    omega
  have hdrop (k : Int) (hk : k ≤ -400) : dropBits 1 (-149 - k).toNat = (0, 1) := by
    rw [dropBits, if_neg (by omega), if_pos (by rw [hlog]; omega), if_neg one_ne_zero]
  have hgrid (k : Int) (hk : k ≤ -400) : roundGrid fp32.g rm false 1 k = roundGrid fp32.g rm false 1 (-400) := by
    have hlt : k + Nat.log2 1 < 1 - fp32.g.bias - 1 := by
      rw [hlog]
      show k + ((0 : Nat) : Int) < 1 - 127 - 1
      omega
    have hlt' : (-400 : Int) + Nat.log2 1 < 1 - fp32.g.bias - 1 := by decide
    simp only [roundGrid_eq _ _ _ _ one_ne_zero, hplace k hk, hplace _ le_rfl, if_pos hlt, if_pos hlt',
      roundAt_of_lt (show k < -149 by omega), roundAt_of_lt (show (-400 : Int) < -149 by decide), hdrop k hk, hdrop _ le_rfl]
  rw [Ieee.round, Ieee.round, hgrid n h]

/-- 2^n rounded to FP32. -/
theorem round_one_roundsTo (rm : RM) (n : Int) : RoundsTo fp32 rm (2 ^ n) (fp32.round rm false 1 n) := by
  have h := Ieee.round_roundsTo regular_fp32 rm false n one_ne_zero
  rwa [rat_fin, if_neg Bool.false_ne_true, scaled, Nat.cast_one, one_mul] at h

/-- A magnitude that is an integer, in units of 2^-64. -/
theorem shiftLeft_of_scaled_eq {m : Nat} {e : Int} {k : Nat} (he : -64 ≤ e) (h : scaled m e = k) : m <<< (e + 64).toNat = k * 2 ^ 64 := by
  have h64 : scaled m (e - -64) = (k * 2 ^ 64 : Nat) := by
    rw [← scaled_div, h, zpow_neg]
    push_cast
    field_simp
  rw [scaled_of_le he] at h64
  exact_mod_cast h64

/-- A nonzero integral exponent. -/
theorem exp2Of_roundsTo (rm : RM) {neg : Bool} {m : Nat} {e n : Int} (hm : m ≠ 0) (hlt : m < 2 ^ 24)
    (hn : (FVal.fin neg m e).rat = n) : RoundsTo fp32 rm (2 ^ n) (fp32.round rm false (exp2Of neg m e).1 (exp2Of neg m e).2) := by
  obtain ⟨hlo, hhi⟩ := scaled_bounds hm e
  have hlog : Nat.log2 m < 24 := (Nat.log2_lt hm).2 hlt
  have habs : scaled m e = n.natAbs := by
    rw [← abs_rat_fin neg, hn, Nat.cast_natAbs, Int.cast_abs]
  have hn0 : n ≠ 0 := by
    rintro rfl
    exact hm (rat_fin_eq_zero.1 (hn.trans Int.cast_zero))
  have hsign : n < 0 ↔ neg = true := by
    rw [← rat_fin_neg hm, hn]
    exact_mod_cast Iff.rfl
  have htop : 0 ≤ e + Nat.log2 m := by
    have h1 : (1 : ℚ) ≤ scaled m e := by
      rw [habs]
      exact_mod_cast Nat.one_le_iff_ne_zero.2 (Int.natAbs_ne_zero.2 hn0)
    have h2 : (2 : ℚ) ^ (0 : Int) < 2 ^ (e + Nat.log2 m + 1) := by
      rw [zpow_zero]
      exact h1.trans_lt hhi
    have := two_zpow_lt.1 h2
    omega
  unfold exp2Of
  by_cases hbig : 0 ≤ e + Nat.log2 m - 12
  · have hge : 2 ^ 12 ≤ n.natAbs := by
      have h12 : (2 : ℚ) ^ (12 : Int) ≤ scaled m e := (two_zpow_le.2 (by omega)).trans hlo
      rw [habs] at h12
      exact_mod_cast h12
    rw [if_pos hbig]
    cases neg with
    | true =>
      have hneg := hsign.2 rfl
      exact round_one_of_ge (n := n) (by omega) ▸ round_one_roundsTo rm n
    | false =>
      have hpos : ¬ n < 0 := fun h => Bool.false_ne_true (hsign.1 h)
      exact round_one_of_le (n := n) (by omega) ▸ round_one_roundsTo rm n
  · rw [if_neg hbig, if_neg (by omega), shiftLeft_of_scaled_eq (by omega) habs]
    have hy : (if neg = true then -((n.natAbs * 2 ^ 64 : Nat) : Int) else ((n.natAbs * 2 ^ 64 : Nat) : Int)) = n * (2 ^ 64 : Nat) := by
      split
      next h => have := hsign.2 h; omega
      next h => have : ¬ n < 0 := fun hn => h (hsign.1 hn); omega
    simp only [hy, Int.mul_ediv_cancel _ (show ((2 ^ 64 : Nat) : Int) ≠ 0 by decide), Int.mul_emod_left, Int.toNat_zero, if_true]
    exact round_one_roundsTo rm n

/-! ### Logarithms of powers of two -/

theorem scaled_eq_two_zpow {m : Nat} {e n : Int} (hm : m ≠ 0) (h : scaled m e = 2 ^ n) : m = 2 ^ Nat.log2 m ∧ e + Nat.log2 m = n := by
  obtain ⟨hlo, hhi⟩ := scaled_bounds hm e
  rw [h] at hlo hhi
  have h1 := two_zpow_le.1 hlo
  have h2 := two_zpow_lt.1 hhi
  have hn : e + Nat.log2 m = n := by omega
  have hpos : (2 : ℚ) ^ e ≠ 0 := by positivity
  rw [scaled, ← hn, two_zpow_add, mul_comm, zpow_natCast] at h
  exact ⟨by exact_mod_cast mul_left_cancel₀ hpos h, hn⟩

theorem log2Of_of_power {m : Nat} {e n : Int} (hm : m ≠ 0) (h : scaled m e = 2 ^ n) : log2Of m e = (decide (n < 0), n.natAbs, 0) := by
  obtain ⟨h1, h2⟩ := scaled_eq_two_zpow hm h
  simp only [log2Of, if_pos h1, h2]

/-! ### The functions of Table 6.10 -/

/-- A function of a finite number other than zero (06 R194). -/
def finFun (fn : FFun) (rm : RM) (n : Bool) (m : Nat) (e : Int) : Nat × Word :=
  match fn with
  | .rcp => fp32.round rm n (quotient 1 0 m e).1 (quotient 1 0 m e).2
  | .rsq => if n then (fp32.dNaN, fINV) else fp32.round rm false (rrootOf m e).1 (rrootOf m e).2
  | .sqrt => if n then (fp32.dNaN, fINV) else fp32.round rm false (rootOf m e).1 (rootOf m e).2
  | .exp2 => fp32.round rm false (exp2Of n m e).1 (exp2Of n m e).2
  | .log2 => if n then (fp32.dNaN, fINV) else fp32.round rm (log2Of m e).1 (log2Of m e).2.1 (log2Of m e).2.2

theorem funOf_of_fin {fn : FFun} {rm : RM} {c m : Nat} {n : Bool} {e : Int} (hc : fp32.val c = .fin n m e) (hm : m ≠ 0) :
    funOf fn rm c = finFun fn rm n m e := by
  have hnan : [c].any fp32.isNaN = false := by
    by_contra h
    have := Ieee.val_of_isNaN (f := fp32) (c := c) (by simpa using h)
    rw [hc] at this
    cases this
  rw [funOf, Ieee.nanOut_eq_none hnan]
  simp only [hc, if_neg hm]
  cases fn <;> rfl

theorem funOf_lt (fn : FFun) (rm : RM) {c : Nat} (hc : c < 2 ^ fp32.w) (hnan : fp32.isNaN c = false) : (funOf fn rm c).1 < 2 ^ fp32.w := by
  have hbad : fp32.dNaN < 2 ^ fp32.w := by decide
  have hinf (n : Bool) : fp32.withSign n fp32.infCode < 2 ^ fp32.w := by cases n <;> decide
  have hround (n : Bool) (m : Nat) (e : Int) := Ieee.round_lt regular_fp32 rm n m e
  have hnone : [c].any fp32.isNaN = false := by simpa using hnan
  rcases fp32.val_cases c with ⟨h, -⟩ | ⟨-, ⟨hval, -⟩ | ⟨-, hval⟩⟩
  · rw [h] at hnan; cases hnan
  · generalize fp32.neg c = n at hval
    rw [funOf, Ieee.nanOut_eq_none hnone]
    simp only [hval]
    cases fn <;> cases n <;> decide
  · by_cases hm : (fp32.g.mag (fp32.low c)).1 = 0
    · rw [funOf, Ieee.nanOut_eq_none hnone]
      simp only [hval, if_pos hm]
      cases fn
      · exact hinf _
      · exact hinf _
      · exact hc
      · exact (by decide : 0x3F800000 < 2 ^ fp32.w)
      · exact hinf true
    · rw [funOf_of_fin hval hm]
      cases fn
      · exact hround _ _ _
      · rw [finFun]; split
        · exact hbad
        · exact hround _ _ _
      · rw [finFun]; split
        · exact hbad
        · exact hround _ _ _
      · exact hround _ _ _
      · rw [finFun]; split
        · exact hbad
        · exact hround _ _ _

/-- The special operands of 06 Table 6.10, with what each function delivers. -/
def specials : FFun → List (Nat × Nat × Word)
  | .rcp => [(0xFF800000, 0x80000000, 0), (0x80000000, 0xFF800000, fDZ), (0, 0x7F800000, fDZ), (0x7F800000, 0, 0)]
  | .rsq => [(0xFF800000, 0x7FC00000, fINV), (0x80000000, 0xFF800000, fDZ), (0, 0x7F800000, fDZ), (0x7F800000, 0, 0)]
  | .sqrt => [(0xFF800000, 0x7FC00000, fINV), (0x80000000, 0x80000000, 0), (0, 0, 0), (0x7F800000, 0x7F800000, 0)]
  | .exp2 => [(0xFF800000, 0, 0), (0x80000000, 0x3F800000, 0), (0, 0x3F800000, 0), (0x7F800000, 0x7F800000, 0)]
  | .log2 => [(0xFF800000, 0x7FC00000, fINV), (0x80000000, 0xFF800000, fDZ), (0, 0xFF800000, fDZ), (0x7F800000, 0x7F800000, 0)]

theorem funOf_specials (fn : FFun) (rm : RM) : ∀ e ∈ specials fn, funOf fn rm e.1 = e.2 := by
  rw [← List.forall_iff_forall_mem]
  cases fn <;> exact ⟨rfl, rfl, rfl, rfl⟩

theorem specials_not_nan (fn : FFun) : ∀ e ∈ specials fn, fp32.isNaN e.1 = false := by
  rw [← List.forall_iff_forall_mem]
  cases fn <;> exact ⟨rfl, rfl, rfl, rfl⟩

/-- What a function delivers: NaNOut, its special operands' results, or what `R` says of a finite operand other than zero. -/
def FunSays (sp : List (Nat × Nat × Word)) (R : ℚ → Nat × Word → Prop) (f : Ieee) (x : List Nat) (r : Nat × Word) : Prop :=
  (f.isNaN (x.getD 0 0) = true → NaNOut f x r) ∧ (∀ e ∈ sp, x.getD 0 0 = e.1 → r = e.2) ∧
    ((f.val (x.getD 0 0)).finite = true → f.low (x.getD 0 0) ≠ 0 → R (f.val (x.getD 0 0)).rat r)

/-- A function of the first operand, which delivers NaNOut of all its operands where that one is a NaN. -/
def funOfFirst (fn : FFun) (rm : RM) (x : List Nat) : Nat × Word :=
  if fp32.isNaN (x.getD 0 0) then fp32.unlessNaN (fun x => funOf fn rm (argN x 0)) x else funOf fn rm (x.getD 0 0)

theorem funOfFirst_singleton (fn : FFun) (rm : RM) (c : Nat) : funOfFirst fn rm [c] = funOf fn rm c := by
  show (if fp32.isNaN c then _ else funOf fn rm c) = _
  split
  next h =>
    obtain ⟨r, hr, -⟩ := Ieee.nanOut_of_any (f := fp32) (x := [c]) (by simpa using h)
    have hrun : funOf fn rm c = r := by rw [funOf, hr]
    rw [Ieee.unlessNaN, hr, hrun, Option.getD_some]
  next h => rfl

section
variable {fn : FFun} {rm : RM} {R : ℚ → Nat × Word → Prop}
  (hR : ∀ n m e, m ≠ 0 → m < 2 ^ 24 → R (FVal.fin n m e).rat (finFun fn rm n m e))
include hR

theorem funOfFirst_says {x : List Nat} (hx : ∀ a ∈ x, a < 2 ^ fp32.w) :
    FunSays (specials fn) R fp32 x (funOfFirst fn rm x) ∧ (funOfFirst fn rm x).1 < 2 ^ fp32.w := by
  have hc : x.getD 0 0 < 2 ^ fp32.w := getD_lt hx 0
  rcases hnan : fp32.isNaN (x.getD 0 0)
  · have hr : funOfFirst fn rm x = funOf fn rm (x.getD 0 0) := if_neg (by rw [hnan]; exact Bool.false_ne_true)
    rw [hr]
    refine ⟨⟨fun h => ?_, fun e he hxe => ?_, fun hfin hlow => ?_⟩, funOf_lt fn rm hc hnan⟩
    · rw [hnan] at h; cases h
    · rw [hxe]
      exact funOf_specials fn rm e he
    · rcases fp32.val_cases (x.getD 0 0) with ⟨h, -⟩ | ⟨-, ⟨hval, -⟩ | ⟨hlt, hval⟩⟩
      · rw [h] at hnan; cases hnan
      · rw [hval] at hfin; cases hfin
      · have hm : (fp32.g.mag (fp32.low (x.getD 0 0))).1 ≠ 0 := fun h =>
          hlow ((Ieee.rat_val_eq_zero hlt).1 (by rw [hval]; exact rat_fin_eq_zero.2 h))
        rw [funOf_of_fin hval hm, hval]
        exact hR _ _ _ hm (Grid.mag_lt _ _)
  · have hany : x.any fp32.isNaN = true := by
      by_contra h
      rw [Ieee.not_isNaN_getD (by simpa using h)] at hnan
      cases hnan
    obtain ⟨hout, hlt⟩ := Ieee.unlessNaN_of_any (k := fun x => funOf fn rm (argN x 0)) regular_fp32 hx hany
    have hr : funOfFirst fn rm x = fp32.unlessNaN (fun x => funOf fn rm (argN x 0)) x := if_pos hnan
    rw [hr]
    refine ⟨⟨fun _ => hout, fun e he hxe => ?_, fun hfin => ?_⟩, hlt⟩
    · have := specials_not_nan fn e he
      rw [← hxe, hnan] at this
      cases this
    · rw [Ieee.val_of_isNaN hnan] at hfin
      cases hfin

/-- A function by its special operands and its finite ones. -/
theorem lane1R_of_function {i : Instr} {d : Dst} {a : Src}
    (hi : ∀ s, exec i s = s.floatOp .f32 d [.src a false] (fun x => funOf fn rm (argN x 0))) :
    Lane1R i [.src a false] d false (EltR .f32 (FunSays (specials fn) R)) := by
  refine lane1R_of_floatOp (ty := .f32) (g' := funOfFirst fn rm) hi (fun x hx => ?_) fun x hx => funOfFirst_says hR hx
  obtain ⟨c, rfl⟩ := List.length_eq_one_iff.1 hx
  exact (funOfFirst_singleton fn rm c).symm

end

theorem Alike.eq_zero {t : Nat} {x x' : ℚ} (h : Alike t x x') (h0 : x = 0) : x' = 0 := by
  rcases h with rfl | ⟨k, w, -, ⟨hlo, -⟩, -⟩
  · exact h0
  · rw [h0, abs_zero] at hlo
    exact absurd hlo (by positivity : (0 : ℚ) ≤ k * 2 ^ w).not_gt

/-- A magnitude that no rounding tells apart from y is rounded as y is. -/
theorem Alike.roundsTo {f : Ieee} {n : Bool} {q : Nat} {x : Int} {y : ℚ} (h : Alike f.g.t (FVal.fin n q x).rat y) (hf : f.Regular)
    (rm : RM) (hy : y ≠ 0) : RoundsTo f rm y (f.round rm n q x) :=
  (Ieee.round_roundsTo hf rm n x fun h0 => hy (h.eq_zero (rat_fin_eq_zero.2 h0))).alike h

theorem sign_of_pos (n : Bool) {m : Nat} (e : Int) (hm : m ≠ 0) (h : 0 < (FVal.fin n m e).rat) : n = false := by
  by_contra hn
  exact h.not_gt ((rat_fin_neg hm).2 (by simpa using hn))

section
variable (rm : RM) (n : Bool) {m : Nat} (e : Int) (hm : m ≠ 0)
include hm

/-- The reciprocal is a quotient. -/
theorem function_rcp : RoundsTo fp32 rm (1 / (FVal.fin n m e).rat) (finFun .rcp rm n m e) := by
  have hq := quotient_alike (t := fp32.g.t) (by decide) n 1 0 e hm
  have hval : (if n then -(scaled 1 0 / scaled m e) else scaled 1 0 / scaled m e) = 1 / (FVal.fin n m e).rat := by
    rw [rat_fin, scaled, Nat.cast_one, zpow_zero, mul_one]
    cases n
    · rfl
    · exact (one_div_neg_eq_neg_one_div _).symm
  rw [hval] at hq
  exact hq.roundsTo regular_fp32 rm (one_div_ne_zero fun h => hm (rat_fin_eq_zero.1 h))

theorem finFun_neg {fn : FFun} (hfn : fn = .rsq ∨ fn = .sqrt ∨ fn = .log2) (hneg : (FVal.fin n m e).rat < 0) :
    finFun fn rm n m e = (0x7FC00000, fINV) := by
  obtain rfl := (rat_fin_neg hm).1 hneg
  rcases hfn with rfl | rfl | rfl <;> rfl

/-- The logarithm of a power of two is an integer. -/
theorem function_log2 : ((FVal.fin n m e).rat < 0 → finFun .log2 rm n m e = (0x7FC00000, fINV)) ∧
    ∀ k : Int, (FVal.fin n m e).rat = 2 ^ k → RoundsToZ fp32 rm k false (finFun .log2 rm n m e) := by
  refine ⟨finFun_neg rm n e hm (by simp), fun k hk => ?_⟩
  obtain rfl := sign_of_pos n e hm (by rw [hk]; positivity)
  rw [rat_fin] at hk
  have hrun : finFun .log2 rm false m e = fp32.round rm (decide (k < 0)) k.natAbs 0 := by
    rw [finFun, if_neg Bool.false_ne_true, log2Of_of_power hm hk]
  rw [hrun]
  exact round_int_roundsToZ regular_fp32 rm k

variable (hlt : m < 2 ^ 24)
include hlt

theorem function_rsq : ((FVal.fin n m e).rat < 0 → finFun .rsq rm n m e = (0x7FC00000, fINV)) ∧
    ∀ y : ℚ, 0 < y → y * y * (FVal.fin n m e).rat = 1 → RoundsTo fp32 rm y (finFun .rsq rm n m e) := by
  refine ⟨finFun_neg rm n e hm (by simp), fun y hy hyy => ?_⟩
  obtain rfl := sign_of_pos n e hm (pos_of_mul_pos_right (by rw [hyy]; exact one_pos) (by positivity : 0 ≤ y * y))
  rw [rat_fin] at hyy
  exact (rrootOf_alike (by decide) hm hlt hy hyy).roundsTo regular_fp32 rm hy.ne'

theorem function_sqrt : ((FVal.fin n m e).rat < 0 → finFun .sqrt rm n m e = (0x7FC00000, fINV)) ∧
    ∀ y : ℚ, 0 < y → y * y = (FVal.fin n m e).rat → RoundsTo fp32 rm y (finFun .sqrt rm n m e) := by
  refine ⟨finFun_neg rm n e hm (by simp), fun y hy hyy => ?_⟩
  obtain rfl := sign_of_pos n e hm (by rw [← hyy]; positivity)
  rw [rat_fin] at hyy
  exact (rootOf_alike (by decide) hm hlt hy hyy).roundsTo regular_fp32 rm hy.ne'

end

/-! ### Numbers changed in one operand -/

/-- 06 R196: a number times a power of two, rounded once. -/
theorem scale_roundsTo {f : Ieee} (hf : f.Regular) (rm : RM) (n : Int) {c : Nat} (hc : f.low c < f.infCode) (h0 : f.low c ≠ 0) :
    RoundsTo f rm ((f.val c).rat * 2 ^ n) (f.round rm (f.neg c) (f.g.mag (f.low c)).1 ((f.g.mag (f.low c)).2 + n)) ∧
      (f.round rm (f.neg c) (f.g.mag (f.low c)).1 ((f.g.mag (f.low c)).2 + n)).1 < 2 ^ f.w := by
  have hm : (f.g.mag (f.low c)).1 ≠ 0 := fun h => h0 ((Ieee.rat_val_eq_zero hc).1 (Ieee.val_of_lt hc ▸ rat_fin_eq_zero.2 h))
  have hval : (f.val c).rat * 2 ^ n = (FVal.fin (f.neg c) (f.g.mag (f.low c)).1 ((f.g.mag (f.low c)).2 + n)).rat := by
    rw [Ieee.val_of_lt hc, rat_fin, rat_fin, ← scaled_mul]
    split
    · exact neg_mul _ _
    · rfl
  rw [hval]
  exact ⟨Ieee.round_roundsTo hf rm _ _ hm, Ieee.round_lt hf rm _ _ _⟩

/-- An operation on one operand that leaves infinities and zeros unchanged. -/
def Ieee.onFinite (f : Ieee) (k : Bool → Nat → Int → Nat × Word) (c : Nat) : Nat × Word :=
  match f.nanOut [c] with
  | some r => r
  | none =>
    match f.val c with
    | .fin n m e => if m = 0 then (c, 0) else k n m e
    | _ => (c, 0)

theorem scaleElt_eq (f : Ieee) (rm : RM) (n : Int) (c : Nat) : scaleElt f rm n c = f.onFinite (fun ng m e => f.round rm ng m (e + n)) c := rfl

theorem integralElt_eq (f : Ieee) (rm : RM) (c : Nat) :
    integralElt f rm c = f.onFinite (fun ng m e => ((f.round .rne ng (roundInt rm ng m e).1.natAbs 0).1, 0)) c := rfl

theorem Ieee.onFinite_spec {f : Ieee} (hf : f.Regular) {k : Bool → Nat → Int → Nat × Word} {c : Nat} (hc : c < 2 ^ f.w)
    (R : ℚ → Nat × Word → Prop) (hk : f.low c < f.infCode → f.low c ≠ 0 →
      R (f.val c).rat (k (f.neg c) (f.g.mag (f.low c)).1 (f.g.mag (f.low c)).2) ∧
        (k (f.neg c) (f.g.mag (f.low c)).1 (f.g.mag (f.low c)).2).1 < 2 ^ f.w) :
    (match f.val c with
      | .nan => NaNOut f [c] (f.onFinite k c)
      | .inf _ => f.onFinite k c = (c, 0)
      | y => if y.rat = 0 then f.onFinite k c = (c, 0) else R y.rat (f.onFinite k c)) ∧ (f.onFinite k c).1 < 2 ^ f.w := by
  rcases f.val_cases c with ⟨hnan, hval⟩ | ⟨hnan, hcases⟩
  · obtain ⟨r, hr, hout, a, ha, hquiet⟩ := nanOut_of_any (f := f) (x := [c]) (by simpa using hnan)
    have hrun : f.onFinite k c = r := by rw [onFinite, hr]
    rw [hrun, hval, hquiet, List.mem_singleton.1 ha]
    exact ⟨hout, quiet_lt hf hc⟩
  · have hnone : f.nanOut [c] = none := nanOut_eq_none (by simpa using hnan)
    rcases hcases with ⟨hval, -⟩ | ⟨hlt, hval⟩
    · have hrun : f.onFinite k c = (c, 0) := by simp [onFinite, hnone, hval]
      rw [hrun, hval]
      exact ⟨rfl, hc⟩
    · have hzero := rat_val_eq_zero hlt
      by_cases hm : (f.g.mag (f.low c)).1 = 0
      · have hrun : f.onFinite k c = (c, 0) := by simp [onFinite, hnone, hval, hm]
        rw [hrun, hval]
        exact ⟨by simp [rat_fin_eq_zero, hm], hc⟩
      · have hlow : f.low c ≠ 0 := fun h => hm (rat_fin_eq_zero.1 (hval ▸ hzero.2 h))
        have hrun : f.onFinite k c = k (f.neg c) (f.g.mag (f.low c)).1 (f.g.mag (f.low c)).2 := by simp [onFinite, hnone, hval, hm]
        obtain ⟨h1, h2⟩ := hk hlt hlow
        rw [hval] at h1
        rw [hrun, hval]
        exact ⟨by simpa [rat_fin_eq_zero, hm] using h1, h2⟩

/-! ### Integral values -/

/-- A multiple of a unit, of as many bits as a format keeps, is on the grid. -/
theorem OnGrid.eq_of_multiple {g : Grid} {rm : RM} {x y : ℚ} {tiny : Prop} (h : OnGrid g rm x y tiny) {k w : Int}
    (hx : x = k * 2 ^ w) (hw : g.umin ≤ w) (hlt : |x| < 2 ^ (w + g.t + 1)) : y = x := by
  obtain ⟨u, v, hlo, -, hu, hy, -⟩ := h
  have hv := two_zpow_lt.1 (hlo.trans_lt hlt)
  have hunits : x / 2 ^ u = ((k * 2 ^ (w - u).toNat : Int) : ℚ) := by
    rw [hx, mul_div_assoc, ← zpow_sub₀ two_ne_zero]
    push_cast
    rw [← zpow_natCast, Int.toNat_of_nonneg (by omega)]
  rw [hy, hunits, ratRound_intCast, ← hunits, div_mul_cancel₀ _ (by positivity)]

/-- A number of a format rounded to an integer has no more bits than the format keeps. -/
theorem ratRound_bits {g : Grid} (rm : RM) (neg : Bool) {m : Nat} {e : Int} (hm : m < 2 ^ (g.t + 1)) :
    ∃ k w : Int, 0 ≤ w ∧ (ratRound rm 0 (FVal.fin neg m e).rat : ℚ) = k * 2 ^ w ∧
      |(ratRound rm 0 (FVal.fin neg m e).rat : ℚ)| < 2 ^ (w + g.t + 1) ∧
      (|(ratRound rm 0 (FVal.fin neg m e).rat : ℚ)| = scaled m e ∨ |(ratRound rm 0 (FVal.fin neg m e).rat : ℚ)| ≤ 2 ^ g.t) := by
  have hm' : (m : ℚ) < 2 ^ (g.t + 1) := by exact_mod_cast hm
  have hlt (w : Int) (hw : e ≤ w) : scaled m e < 2 ^ (w + g.t + 1) := by
    rw [add_assoc, add_comm, two_zpow_add]
    exact mul_lt_mul_of_lt_of_le_of_nonneg_of_pos (by exact_mod_cast hm') (two_zpow_le.2 hw) (by positivity) (by positivity)
  rcases le_or_gt 0 e with h | h
  · have hint : (FVal.fin neg m e).rat = ((if neg then -1 else 1) * (m <<< e.toNat : Nat) : Int) := by
      have := scaled_of_le (m := m) h
      rw [sub_zero] at this
      rw [rat_fin, this]
      generalize m <<< e.toNat = j
      cases neg <;> simp
    have hround : (ratRound rm 0 (FVal.fin neg m e).rat : ℚ) = (FVal.fin neg m e).rat := by
      rw [hint, ratRound_intCast]
    refine ⟨if neg then -m else m, e, h, ?_, ?_, .inl ?_⟩
    · rw [hround, rat_fin, scaled]
      cases neg <;> simp
    · rw [hround, abs_rat_fin]
      exact hlt e le_rfl
    · rw [hround, abs_rat_fin]
  · have hsmall : |(FVal.fin neg m e).rat| ≤ 2 ^ g.t := by
      rw [abs_rat_fin]
      have := (hlt (-1) (by omega)).le
      rwa [neg_add_cancel_comm, zpow_natCast] at this
    obtain ⟨hlo, hhi⟩ := abs_le.1 hsmall
    have hround : |(ratRound rm 0 (FVal.fin neg m e).rat : ℚ)| ≤ 2 ^ g.t := by
      rw [abs_le]
      exact ⟨by exact_mod_cast le_ratRound (rm := rm) (o := 0) (n := -2 ^ g.t) (by exact_mod_cast hlo),
        by exact_mod_cast ratRound_le (rm := rm) (o := 0) (n := 2 ^ g.t) (by exact_mod_cast hhi)⟩
    refine ⟨ratRound rm 0 (FVal.fin neg m e).rat, 0, le_rfl, by rw [zpow_zero, mul_one], hround.trans_lt ?_, .inr hround⟩
    rw [← zpow_natCast]
    exact two_zpow_lt.2 (by omega)

/-- The integers of as many bits as a format keeps are among its numbers. -/
structure Ieee.HoldsIntegers (f : Ieee) : Prop where
  umin_le : f.g.umin ≤ 0
  le_most : 2 ^ f.g.t ≤ f.g.magVal (f.infCode - 1)

theorem holdsIntegers_fltFmt (ty : FltTy) : (fltFmt ty).HoldsIntegers := by
  cases ty
  · refine ⟨by decide, ?_⟩
    have hcode : fp32.g.magVal (fp32.infCode - 1) = scaled (2 ^ 24 - 1) 104 := rfl
    exact hcode ▸ (by norm_num [scaled, fltFmt, fp32])
  · refine ⟨by decide, ?_⟩
    have hcode : fp16.g.magVal (fp16.infCode - 1) = scaled (2 ^ 11 - 1) 5 := rfl
    exact hcode ▸ (by norm_num [scaled, fltFmt, fp16])
  · refine ⟨by decide, ?_⟩
    have hcode : Machine.bf16.g.magVal (Machine.bf16.infCode - 1) = scaled (2 ^ 8 - 1) 120 := rfl
    exact hcode ▸ (by norm_num [scaled, fltFmt, Machine.bf16])

/-- 06 R197: a finite number rounded to an integer is a number of its format, and keeps its sign. -/
theorem Ieee.round_integral {f : Ieee} (hf : f.Regular) (hi : f.HoldsIntegers) (rm : RM) {c : Nat} (hc : f.low c < f.infCode) :
    let r := (f.round .rne (f.neg c) (roundInt rm (f.neg c) (f.g.mag (f.low c)).1 (f.g.mag (f.low c)).2).1.natAbs 0).1
    f.neg r = f.neg c ∧ (f.val r).finite = true ∧ (f.val r).rat = ratRound rm 0 (f.val c).rat := by
  have hmag : scaled (f.g.mag (f.low c)).1 (f.g.mag (f.low c)).2 ≤ f.g.magVal (f.infCode - 1) :=
    f.g.magVal_strictMono.monotone (by have := hf.infCode_pos; omega)
  have hround := (roundInt_spec rm (f.neg c) (f.g.mag (f.low c)).1 (f.g.mag (f.low c)).2).1
  have hbits := ratRound_bits rm (f.neg c) (e := (f.g.mag (f.low c)).2) (f.g.mag_lt (f.low c))
  have hneg := roundInt_eq rm (f.neg c) (f.g.mag (f.low c)).1 (f.g.mag (f.low c)).2
  rw [val_of_lt hc]
  generalize (f.g.mag (f.low c)).1 = m at *
  generalize (f.g.mag (f.low c)).2 = e at *
  rw [← hround] at hbits ⊢
  obtain ⟨n, hn⟩ : ∃ n : Nat, (roundInt rm (f.neg c) m e).1 = (if f.neg c then -1 else 1) * (n : Int) := ⟨_, congrArg Prod.fst hneg⟩
  have habs : (roundInt rm (f.neg c) m e).1.natAbs = n := by rw [hn]; split <;> simp
  have hrat : (FVal.fin (f.neg c) n 0).rat = (roundInt rm (f.neg c) m e).1 := by
    rw [rat_fin, hn, scaled, zpow_zero, mul_one]
    split <;> simp
  rw [habs]
  intro r
  by_cases h0 : n = 0
  · have hr : r = f.withSign (f.neg c) 0 := by
      show (f.round .rne (f.neg c) n 0).1 = _
      rw [h0, round_zero hf]
    rw [hr, rat_val_withSign hf _ hf.infCode_pos, f.g.magVal_zero, hn, h0]
    exact ⟨neg_withSign hf _ f.signBit_pos, finite_val_withSign hf _ hf.infCode_pos, by simp⟩
  · obtain ⟨y, tiny, hgrid, -, hsign, hfin, -⟩ := round_roundsTo hf .rne (f.neg c) 0 h0
    rw [hrat] at hgrid hsign
    obtain ⟨k, w, hw, hk, hlt, hle⟩ := hbits
    have hy := hgrid.eq_of_multiple hk (hi.umin_le.trans hw) hlt
    have hmost : |y| ≤ (f.val (f.infCode - 1)).rat := by
      rw [rat_val_most hf, hy]
      exact hle.elim (fun h => h.trans_le hmag) fun h => h.trans hi.le_most
    obtain ⟨h1, h2, -⟩ := hfin hmost
    refine ⟨?_, h1, h2.trans hy⟩
    rw [hsign, ← hrat, Bool.eq_iff_iff, decide_eq_true_iff]
    exact rat_fin_neg h0

end Sys2Proof.Machine

section
open Sys2Proof Sys2Proof.Machine

/-- Settles O20: each function by its special operands and the roundings of its finite ones; a scaling rounds once, and an
integral value is exact. -/
theorem floatFunctions : Obligations.FloatFunctions := by
  unfold Obligations.FloatFunctions
  refine ⟨fun rm d a => ?_, fun ty rm d a b => ?_⟩
  · intro fn bad
    have hfn (fun' : FFun) {i : Instr} {R : ℚ → Nat × Word → Prop}
        (hi : ∀ s, exec i s = s.floatOp .f32 d [.src a false] (fun x => funOf fun' rm (argN x 0)))
        (hR : ∀ n m e, m ≠ 0 → m < 2 ^ 24 → R (FVal.fin n m e).rat (finFun fun' rm n m e)) : fn i (specials fun') R :=
      lane1R_of_function hR hi
    clear_value fn
    refine ⟨hfn .rcp (fun _ => rfl) fun n m e hm _ => ?_, hfn .rsq (fun _ => rfl) fun n m e hm hlt => ?_,
      hfn .sqrt (fun _ => rfl) fun n m e hm hlt => ?_, hfn .exp2 (fun _ => rfl) fun n m e hm hlt k hk => ?_,
      hfn .log2 (fun _ => rfl) fun n m e hm _ => ?_⟩
    · exact function_rcp rm n e hm
    · exact function_rsq rm n e hm hlt
    · exact function_sqrt rm n e hm hlt
    · exact exp2Of_roundsTo rm hm hlt hk
    · exact function_log2 rm n e hm
  · intro op
    have hf := regular_fltFmt ty
    refine ⟨?_, ?_⟩
    · refine lane1R_of_lanewise (fun _ => rfl) (fun _ => rfl) fun v => eltR_byElt [arg v 0] fun x hx => ?_
      rw [scaleElt_eq]
      exact Ieee.onFinite_spec hf (getD_lt hx 0) (fun q r => RoundsTo (fltFmt ty) rm (q * 2 ^ (lo32 (arg v 1)).toInt) r)
        fun hlt hlow => scale_roundsTo hf rm _ hlt hlow
    · refine lane1R_of_floatOp (fun _ => rfl) (fun x _ => integralElt_eq _ rm (argN x 0)) fun x hx => ?_
      exact Ieee.onFinite_spec hf (getD_lt hx 0) (fun q r => r.2 = 0 ∧ (fltFmt ty).neg r.1 = (fltFmt ty).neg (x.getD 0 0) ∧
        ((fltFmt ty).val r.1).finite = true ∧ ((fltFmt ty).val r.1).rat = ratRound rm 0 q)
        fun hlt _ => ⟨⟨rfl, Ieee.round_integral hf (holdsIntegers_fltFmt ty) rm hlt⟩, Ieee.round_lt hf _ _ _ _⟩

end

/-! Small formats and integer codes (06 R181, R200): their roundings as roundings of rational numbers. -/
namespace Sys2Proof.Machine

theorem Alike.symm {t : Nat} {x x' : ℚ} (h : Alike t x x') : Alike t x' x := by
  rcases h with rfl | ⟨k, w, hk, hb, hb', hsign⟩
  · exact .inl rfl
  · exact .inr ⟨k, w, hk, hb', hb, hsign.symm⟩

/-! ### Rounding to a small format -/

/-- What the small formats have in common: the order of their codes. -/
structure Mini.Regular (f : Mini) : Prop where
  signed : f.sign ≠ 0 → f.nan = f.sign ∧ 2 ^ f.w = 2 * f.sign ∧ f.maxc < f.sign
  unsigned : f.sign = 0 → f.maxc < f.nan
  code_lt : f.maxc + f.sign < 256
  nan_lt : f.nan < 256
  infp_eq : ∀ c, f.infp = some c → c = f.maxc + 1 ∧ c < 256
  infn_eq : ∀ c, f.infn = some c → c = f.maxc + 1 + f.sign ∧ c < 256

theorem regular_b8Of (p : Nat) (uns inf : Bool) : (b8Of p uns inf).Regular := by
  cases uns <;> cases inf <;> constructor <;> simp [b8Of]

theorem regular_fp4Of : fp4Of.Regular := by
  constructor <;> simp [fp4Of]

section
variable {f : Mini} (hf : f.Regular)
include hf

/-- A code by its sign and magnitude; there is no negative zero. -/
theorem Mini.val_code {c : Nat} {n : Bool} (hc : c ≤ f.maxc) (hn : n = true → c ≠ 0 ∧ f.sign ≠ 0) :
    f.val (c + if n then f.sign else 0) = .fin n (f.g.mag c).1 (f.g.mag c).2 := by
  have hp : some (c + if n then f.sign else 0) ≠ f.infp := fun h => by
    have h1 := (hf.infp_eq _ h.symm).1
    cases n
    · simp at h1; omega
    · obtain ⟨h0, hs⟩ := hn rfl
      have := hf.signed hs
      simp at h1; omega
  have hm : some (c + if n then f.sign else 0) ≠ f.infn := fun h => by
    have h1 := (hf.infn_eq _ h.symm).1
    cases n
    · simp at h1; omega
    · simp at h1; omega
  unfold Mini.val
  rw [if_neg ?_, if_neg hp, if_neg hm]
  · cases n
    · by_cases hs : f.sign = 0
      · simp [hs]
      · have := hf.signed hs
        have hle : ¬ f.sign ≤ c := by omega
        simp [hs, hle, Nat.mod_eq_of_lt (not_le.1 hle)]
    · obtain ⟨h0, hs⟩ := hn rfl
      have := hf.signed hs
      simp [hs, Nat.mod_eq_of_lt (show c < f.sign by omega)]
  · by_cases hs : f.sign = 0
    · have := hf.unsigned hs
      cases n
      · simp; omega
      · exact absurd hs (hn rfl).2
    · have := hf.signed hs
      cases n
      · simp; omega
      · have := hn rfl
        simp; omega

theorem Mini.rat_val_code {c : Nat} {n : Bool} (hc : c ≤ f.maxc) (hn : n = true → c ≠ 0 ∧ f.sign ≠ 0) :
    (f.val (c + if n then f.sign else 0)).finite = true ∧
      (f.val (c + if n then f.sign else 0)).rat = if n then -f.g.magVal c else f.g.magVal c := by
  rw [Mini.val_code hf hc hn, rat_fin]
  exact ⟨rfl, rfl⟩

/-- A zero is positive. -/
theorem Mini.val_zero_sign {c : Nat} (hc : c < 2 ^ f.w) {n : Bool} {e : Int} (h : f.val c = .fin n 0 e) : n = false := by
  unfold Mini.val at h
  split at h
  · cases h
  next hnan =>
    split at h
    · cases h
    · split at h
      · cases h
      · injection h with hn hm
        rw [← hn]
        by_contra hneg
        obtain ⟨hs, hle⟩ : f.sign ≠ 0 ∧ f.sign ≤ c := by simpa using hneg
        obtain ⟨h1, h2, -⟩ := hf.signed hs
        rw [if_neg hs, Nat.mod_eq_sub_mod hle, Nat.mod_eq_of_lt (by omega)] at hm
        have hz : f.g.magVal (c - f.sign) = f.g.magVal 0 := by rw [f.g.magVal_zero, Grid.magVal, hm, scaled_eq_zero]
        have := f.g.magVal_strictMono.injective hz
        omega

/-- The greatest finite number. -/
theorem Mini.rat_val_maxc : (f.val f.maxc).rat = f.g.magVal f.maxc :=
  (Mini.rat_val_code hf (n := false) le_rfl (by simp)).2

omit hf in
theorem Mini.over_eq_overflow (sat : Bool) (rm : RM) (neg : Bool) : f.over sat rm neg = f.overflow sat rm neg := by
  unfold Mini.over Mini.overflow
  rw [Ieee.toInf_eq_overInf]
  dsimp only
  split
  · rfl
  · cases (if neg = true then f.infn else f.infp) <;> rfl

theorem Mini.over_lt (sat : Bool) (rm : RM) (neg : Bool) : f.over sat rm neg < 256 := by
  have h1 := hf.code_lt
  unfold Mini.over
  dsimp only
  split
  · cases neg
    · exact (Nat.le_add_right _ _).trans_lt h1
    · exact h1
  · split
    next c hc =>
      cases neg
      · exact (hf.infp_eq c hc).2
      · exact (hf.infn_eq c hc).2
    next => exact hf.nan_lt

theorem Mini.round_lt (sat : Bool) (rm : RM) (x : FVal) : (f.round sat rm x).1 < 256 := by
  have hover := Mini.over_lt hf sat rm
  have hnan := hf.nan_lt
  have hcode := hf.code_lt
  cases x with
  | nan => exact hnan
  | inf n =>
    unfold Mini.round
    dsimp only
    split
    · cases sat
      · exact hnan
      · exact (by decide : 0 < 256)
    · split
      next c hc =>
        cases n
        · exact (hf.infp_eq c hc).2
        · exact (hf.infn_eq c hc).2
      next => exact hover n
  | fin n m e =>
    unfold Mini.round
    dsimp only
    split
    · exact (by decide : 0 < 256)
    · split
      · cases sat
        · exact hnan
        · exact (by decide : 0 < 256)
      · split
        · exact hover n
        next h =>
          cases n
          · exact (by omega : (roundGrid f.g rm false m e).code + 0 < 256)
          · exact (by omega : (roundGrid f.g rm true m e).code + f.sign < 256)

omit hf in
/-- 06 R181: an infinity. -/
theorem Mini.round_inf (sat : Bool) (rm : RM) (n : Bool) : MiniInf f sat rm n (f.round sat rm (.inf n)) := by
  unfold MiniInf Mini.round
  dsimp only
  split
  · rfl
  · cases (if n = true then f.infn else f.infp) with
    | some c => rfl
    | none => exact ⟨Mini.over_eq_overflow sat rm n, (by decide : (fINV ||| fINX) &&& fINV = fINV)⟩

omit hf in
theorem or_and_left_self (x y : Word) : (x ||| y) &&& x = x := by
  ext i hi
  simp only [BitVec.getElem_and, BitVec.getElem_or]
  cases x[i] <;> simp

/-- 06 R181: a number, and any that no rounding tells apart from it. -/
theorem Mini.round_rounds (sat : Bool) (rm : RM) {n : Bool} {q : Nat} {e : Int} {x : ℚ} (h : Alike f.g.t (FVal.fin n q e).rat x) :
    MiniRounds f sat rm x (f.round sat rm (.fin n q e)) := by
  have hlow : f.g.magVal 0 = 0 := f.g.magVal_zero
  refine ⟨fun hx => ?_, fun hx => ?_⟩
  · have hq : q = 0 := rat_fin_eq_zero.1 (h.symm.eq_zero hx)
    rw [hq, Mini.round, roundGrid_zero]
    simp [roundFlags]
  have hq : q ≠ 0 := fun h0 => hx (h.eq_zero (rat_fin_eq_zero.2 h0))
  obtain ⟨hgrid, hinexact⟩ := roundGrid_onGrid f.g rm n e hq
  obtain ⟨hgrid', he⟩ := hgrid.alike h
  have hflags := (RoundFlags.of_rounded hinexact).congr he
  have hsign : x < 0 ↔ n = true := h.neg_iff.symm.trans (rat_fin_neg hq)
  rw [Mini.rat_val_maxc hf]
  rw [Mini.round]
  generalize roundGrid f.g rm n q e = r at *
  have hz0 : (if n then -f.g.magVal r.code else f.g.magVal r.code) = 0 ↔ r.code = 0 := by
    rw [← f.g.magVal_strictMono.injective.eq_iff, hlow]
    cases n
    · exact Iff.rfl
    · exact neg_eq_zero
  have habs : |if n then -f.g.magVal r.code else f.g.magVal r.code| = f.g.magVal r.code := by
    have h0 : 0 ≤ f.g.magVal r.code := scaled_nonneg _ _
    cases n
    · exact abs_of_nonneg h0
    · exact (abs_neg _).trans (abs_of_nonneg h0)
  refine ⟨_, _, hgrid', ?_⟩
  rw [habs, f.g.magVal_strictMono.lt_iff_lt, f.g.magVal_strictMono.le_iff_le, ne_eq, hz0,
    show decide (x < 0) = n from Bool.eq_iff_iff.2 (decide_eq_true_iff.trans hsign)]
  simp only [hsign]
  refine ⟨fun h0 => ?_, fun h0 hs => ?_, fun h0 hs hle => ?_, fun hs hgt => ?_⟩
  · rw [if_pos h0]
    exact ⟨rfl, hflags⟩
  · rw [if_neg h0, if_pos hs]
    refine ⟨rfl, or_and_left_self _ _, fun hgt => ?_⟩
    rw [if_pos hgt]
    exact (by decide : (fINV ||| fINX ||| fOVF) &&& fOVF = fOVF)
  · rw [if_neg h0, if_neg hs, if_neg hle.not_gt]
    obtain ⟨h1, h2⟩ := Mini.rat_val_code hf (n := n) hle fun hn => ⟨h0, fun h => hs ⟨h, hn⟩⟩
    exact ⟨h1, h2, hflags⟩
  · rw [if_neg (by omega), if_neg hs, if_pos hgt, Mini.over_eq_overflow]

end

/-! ### Rounding a ratio to an integer -/

theorem roundRatio_spec (rm : RM) (neg : Bool) (a : Nat) {b : Nat} (hb : 0 < b) :
    (roundRatio rm neg a b).1 = ratRound rm 0 (if neg then -((a : ℚ) / b) else (a : ℚ) / b) ∧
      ((roundRatio rm neg a b).2 = true ↔ (if neg then -((a : ℚ) / b) else (a : ℚ) / b) ≠ (roundRatio rm neg a b).1) := by
  have hd := discards_div a hb
  have hodd : (a / b % 2 == 1) = true ↔ ((0 : Int) + (a / b : Nat)) % 2 ≠ 0 := by
    rw [beq_iff_eq]
    omega
  have hround := ratRound_signed (rm := rm) (neg := neg) hd hodd
  have hne := rounded_ne_iff (rm := rm) (neg := neg) (odd := a / b % 2 == 1) hd
  have hrun : (roundRatio rm neg a b).1 = (if neg then -1 else 1) *
      ((if roundsUp rm neg (a / b % 2 == 1) (if a % b = 0 then 0 else if 2 * (a % b) < b then 1 else if 2 * (a % b) = b then 2 else 3)
        then a / b + 1 else a / b : Nat) : Int) := by
    cases neg
    · exact (one_mul _).symm
    · exact (neg_one_mul _).symm
  refine ⟨hrun.trans hround.symm, hne.trans (not_congr ?_)⟩
  rw [hrun]
  generalize (if roundsUp rm neg _ _ = true then a / b + 1 else a / b) = j
  cases neg
  · simpa using eq_comm
  · simpa using eq_comm

/-- A quotient of magnitudes as a ratio of integers. -/
theorem ratio_eq_div (m1 : Nat) (e1 : Int) {m2 : Nat} (e2 : Int) :
    ((m1 <<< (e1 - e2).toNat : Nat) : ℚ) / (m2 <<< (e2 - e1).toNat : Nat) = scaled m1 e1 / scaled m2 e2 := by
  rcases le_total e1 e2 with h | h
  · rw [Int.toNat_of_nonpos (by omega), ← scaled_of_le h, Nat.shiftLeft_zero, ← scaled_div]
    unfold scaled
    field_simp
  · rw [Int.toNat_of_nonpos (show e2 - e1 ≤ 0 by omega), ← scaled_of_le h, Nat.shiftLeft_zero, ← scaled_div]
    unfold scaled
    field_simp

end Sys2Proof.Machine

/-! O23: conversions through a bound format slot (06 R200). -/
namespace Sys2Proof.Machine

/-! ### Slots -/

/-- The scale of a slot that has no per-column scales. -/
def Slot.scaleRat (s : Slot) : ℚ := if s.scale = 1 then (fp32.val s.scl).rat else 1

/-- A slot of a valid descriptor that is bound, without per-column scales. -/
structure Slot.Usable (s : Slot) : Prop where
  known : s.kind ≠ .unbound ∧ s.kind ≠ .bad
  t_le : s.mini.g.t ≤ 77
  scale_ne : s.scaleVal.1 ≠ 0
  scale_eq : s.scaleRat = scaled s.scaleVal.1 s.scaleVal.2

theorem Slot.mini_regular (s : Slot) : s.mini.Regular := by
  unfold Slot.mini
  split
  · exact regular_fp4Of
  · exact regular_b8Of _ _ _

/-- A positive normal pattern's magnitude. -/
theorem posNormal_spec {c : Nat} (h : posNormal c = true) :
    (fp32.val c).rat = fp32.g.magVal (fp32.low c) ∧ (fp32.g.mag (fp32.low c)).1 ≠ 0 := by
  obtain ⟨h1, h2⟩ : 2 ^ 23 ≤ c ∧ c < fp32.infCode := by simpa [posNormal] using h
  have hval := Ieee.rat_val_withSign regular_fp32 false h2
  have hlow := Ieee.low_withSign (f := fp32) false (h2.trans (Ieee.infCode_lt regular_fp32))
  rw [Ieee.withSign, if_neg Bool.false_ne_true] at hval hlow
  rw [if_neg Bool.false_ne_true] at hval
  rw [hlow]
  refine ⟨hval, fun h0 => ?_⟩
  have hz : fp32.g.magVal c = fp32.g.magVal 0 := by rw [fp32.g.magVal_zero, Grid.magVal, h0, scaled_eq_zero]
  have := fp32.g.magVal_strictMono.injective hz
  omega

theorem usable_of_valid {d : DWord} (hv : slotValid d = true) (h0 : d ≠ 0) : (slotOf d).Usable := by
  simp only [slotValid, Bool.or_eq_true, beq_iff_eq, h0, false_or, Bool.and_eq_true, bne_iff_ne] at hv
  obtain ⟨⟨⟨⟨⟨⟨⟨⟨⟨⟨⟨hk1, hk2⟩, -⟩, -⟩, -⟩, -⟩, -⟩, -⟩, -⟩, -⟩, hnormal⟩, -⟩ := hv
  have hprec : (slotOf d).prec < 8 := (d.extractLsb' 4 3).isLt
  generalize slotOf d = s at *
  refine ⟨⟨hk1, hk2⟩, ?_, ?_, ?_⟩
  · unfold Slot.mini
    split
    · decide
    · cases s.uns <;> simp [b8Of] <;> omega
  · unfold Slot.scaleVal
    split
    next h1 => exact (posNormal_spec (hnormal.resolve_left (not_not.2 h1))).2
    next h1 => exact one_ne_zero
  · unfold Slot.scaleVal Slot.scaleRat
    split
    next h1 => exact (posNormal_spec (hnormal.resolve_left (not_not.2 h1))).1
    next h1 => simp [scaled]

namespace Slot

section
variable {s : Slot} (hs : s.Usable)
include hs

theorem scaleRat_pos : 0 < s.scaleRat := by
  rw [hs.scale_eq]
  exact scaled_pos hs.scale_ne _

/-- A number over a scale. -/
theorem quotient_alike_div {t : Nat} (ht : t ≤ 77) (n : Bool) (m : Nat) (e : Int) :
    Alike t (FVal.fin n (quotient m e s.scaleVal.1 s.scaleVal.2).1 (quotient m e s.scaleVal.1 s.scaleVal.2).2).rat
      ((FVal.fin n m e).rat / s.scaleRat) := by
  have hdiv : (FVal.fin n m e).rat / s.scaleRat =
      if n then -(scaled m e / scaled s.scaleVal.1 s.scaleVal.2) else scaled m e / scaled s.scaleVal.1 s.scaleVal.2 := by
    rw [hs.scale_eq, rat_fin]
    split
    · exact neg_div _ _
    · rfl
  rw [hdiv]
  exact quotient_alike ht n m e _ hs.scale_ne

/-- A number times a scale. -/
theorem rat_mul_scale (n : Bool) (m : Nat) (e : Int) :
    (FVal.fin n (m * s.scaleVal.1) (e + s.scaleVal.2)).rat = (FVal.fin n m e).rat * s.scaleRat := by
  have hmul : scaled (m * s.scaleVal.1) (e + s.scaleVal.2) = scaled m e * scaled s.scaleVal.1 s.scaleVal.2 := by
    unfold scaled
    rw [two_zpow_add]
    push_cast
    ring
  rw [hs.scale_eq, rat_fin, rat_fin, hmul]
  split
  · exact (neg_mul _ _).symm
  · rfl

/-! ### To a slot's format -/

/-- The value over the scale, rounded to an IEEE format. -/
theorem round_quotient_roundsToZ {f : Ieee} (hf : f.Regular) (ht : f.g.t ≤ 77) (rm : RM) (n : Bool) (m : Nat) (e : Int) :
    RoundsToZ f rm ((FVal.fin n m e).rat / s.scaleRat) n
      (f.round rm n (quotient m e s.scaleVal.1 s.scaleVal.2).1 (quotient m e s.scaleVal.1 s.scaleVal.2).2) := by
  have halike := quotient_alike_div hs ht n m e
  refine ⟨fun h0 => ?_, fun h0 => halike.roundsTo hf rm h0⟩
  rw [rat_fin_eq_zero.1 (halike.symm.eq_zero h0), Ieee.round_zero hf]

/-- A value over the scale, as far as a rounding tells. -/
def unscaled (s : Slot) : FVal → FVal
  | .fin n m e => .fin n (quotient m e s.scaleVal.1 s.scaleVal.2).1 (quotient m e s.scaleVal.1 s.scaleVal.2).2
  | y => y

omit hs in
theorem qto_eq_mini (hk : s.kind = .b8 ∨ s.kind = .fp4) (rm : RM) (c : Nat) : qto s rm c =
    ((s.mini.round s.sat rm (s.unscaled (fp32.val c))).1,
      (s.mini.round s.sat rm (s.unscaled (fp32.val c))).2 ||| if fp32.isSNaN c then fINV else 0) := by
  rcases hk with hk | hk <;> simp only [qto, hk] <;> rfl

/-- 06 R200: a small format. -/
theorem qto_mini (hk : s.kind = .b8 ∨ s.kind = .fp4) (rm : RM) (c : Nat) :
    (qto s rm c).1 < 2 ^ 64 ∧ match fp32.val c with
      | .nan => (qto s rm c).1 = s.mini.nan ∧ (qto s rm c).2 = if fp32.isSNaN c then fINV else 0
      | .inf n => MiniInf s.mini s.sat rm n (qto s rm c)
      | x => MiniRounds s.mini s.sat rm (x.rat / s.scaleRat) (qto s rm c) := by
  have hor (x : Word) : x ||| 0 = x := BitVec.or_zero
  rw [qto_eq_mini hk]
  refine ⟨(Mini.round_lt s.mini_regular _ _ _).trans (by decide), ?_⟩
  rcases fp32.val_cases c with ⟨hnan, hval⟩ | ⟨hnan, hcases⟩
  · rw [hval]
    exact ⟨rfl, BitVec.zero_or⟩
  · rw [Ieee.not_isSNaN_of_not_isNaN hnan, if_neg Bool.false_ne_true, hor]
    rcases hcases with ⟨hval, -⟩ | ⟨-, hval⟩
    · rw [hval]
      exact Mini.round_inf _ _ _
    · rw [hval]
      exact Mini.round_rounds s.mini_regular _ _ (quotient_alike_div hs hs.t_le _ _ _)

omit hs in
theorem ieee_cases {f : Ieee} (hi : s.ieee = some f) :
    (s.kind = .f32 ∨ s.kind = .bf16 ∨ s.kind = .f16) ∧ f.Regular ∧ f.g.t ≤ 77 ∧ f.w ≤ 64 := by
  unfold Slot.ieee at hi
  split at hi
  next h => cases hi; exact ⟨.inl h, regular_fp32, by decide, by decide⟩
  next h => cases hi; exact ⟨.inr (.inl h), regular_bf16, by decide, by decide⟩
  next h => cases hi; exact ⟨.inr (.inr h), regular_fp16, by decide, by decide⟩
  next => cases hi

omit hs in
theorem qto_eq_ieee {f : Ieee} (hi : s.ieee = some f) (rm : RM) (c : Nat) : qto s rm c =
    match s.unscaled (fp32.val c) with
    | .nan => nanConv fp32 f c
    | .inf n => (f.withSign n f.infCode, 0)
    | .fin n m e => if s.sat ∧ (f.round rm n m e).2 &&& fOVF ≠ 0 then (f.withSign n (f.infCode - 1), (f.round rm n m e).2)
        else f.round rm n m e := by
  obtain ⟨hk, -⟩ := ieee_cases hi
  rcases hk with hk | hk | hk <;> simp only [qto, hk, hi] <;> cases fp32.val c <;> rfl

/-- 06 R200: an IEEE format. -/
theorem qto_ieee {f : Ieee} (hi : s.ieee = some f) (rm : RM) (c : Nat) :
    (qto s rm c).1 < 2 ^ 64 ∧ ∃ f r, s.ieee = some f ∧ (qto s rm c).2 = r.2 ∧ match fp32.val c with
      | .nan => Converts fp32 f rm c r ∧ (qto s rm c).1 = r.1
      | .inf n => (qto s rm c).1 = f.withSign n f.infCode ∧ (qto s rm c).2 = 0
      | x => RoundsToZ f rm (x.rat / s.scaleRat) (fp32.neg c) r ∧
          (qto s rm c).1 = if s.sat = true ∧ r.2 &&& fOVF ≠ 0 then f.withSign (fp32.neg c) (f.infCode - 1) else r.1 := by
  obtain ⟨-, hf, ht, hw⟩ := ieee_cases hi
  have hlt {n : Nat} (h : n < 2 ^ f.w) : n < 2 ^ 64 := h.trans_le (Nat.pow_le_pow_right (by decide) hw)
  have hpos := hf.infCode_pos
  have hinf := Ieee.infCode_lt hf
  rw [qto_eq_ieee hi]
  rcases fp32.val_cases c with ⟨hnan, hval⟩ | ⟨-, ⟨hval, -⟩ | ⟨-, hval⟩⟩
  · have hspec := Ieee.nanConv_spec regular_fp32 hf (c := c)
    rw [hval]
    refine ⟨hlt hspec.2.2.2.1, f, _, hi, rfl, ?_, rfl⟩
    rw [Converts, hval]
    exact hspec
  · rw [hval]
    exact ⟨hlt (Ieee.withSign_lt hf _ hinf), f, (0, 0), hi, rfl, rfl, rfl⟩
  · have hround := round_quotient_roundsToZ hs hf ht rm (fp32.neg c) (fp32.g.mag (fp32.low c)).1 (fp32.g.mag (fp32.low c)).2
    have hrlt := Ieee.round_lt hf rm (fp32.neg c) (quotient (fp32.g.mag (fp32.low c)).1 (fp32.g.mag (fp32.low c)).2 s.scaleVal.1 s.scaleVal.2).1
      (quotient (fp32.g.mag (fp32.low c)).1 (fp32.g.mag (fp32.low c)).2 s.scaleVal.1 s.scaleVal.2).2
    rw [hval]
    simp only [unscaled]
    generalize f.round rm _ _ _ = r at *
    split
    next h => exact ⟨hlt (Ieee.withSign_lt hf _ (by omega)), f, r, hi, rfl, hround, (if_pos h).symm⟩
    next h => exact ⟨hlt hrlt, f, r, hi, rfl, hround, (if_neg h).symm⟩

/-- The least and the greatest number of a slot's integers. -/
def least (s : Slot) : Int := if s.kind = .int4 then -7 else if s.uns then 0 else -128
def most (s : Slot) : Int := if s.kind = .int4 then 7 else if s.uns then 255 else 127

/-- The code of an integer. -/
def code (s : Slot) (q : Int) : Nat := (q % 2 ^ s.width).toNat

omit hs in
theorem qto_eq_int (hk : s.kind = .int4 ∨ s.kind = .int8) (rm : RM) (c : Nat) :
    qto s rm c = (s.code (intCode s (fp32.val c) rm).1, (intCode s (fp32.val c) rm).2) := by
  unfold qto code width
  rcases hk with hk | hk <;> rw [hk] <;> simp only [BitVec.toNat_ofInt] <;> rfl

/-- An integer clamped or wrapped, with its flags, which are `fl` where it is in range. -/
def clamp (s : Slot) (q : Int) (fl : Word) : Int × Word :=
  if s.least ≤ q ∧ q ≤ s.most then (q, fl)
  else if s.sat then (max s.least (min s.most q), fINV ||| fOVF ||| fINX) else (q, fINV)

omit hs in
theorem clamp_eq (q : Int) (fl : Word) : s.clamp q fl =
    if q < s.least then (if s.sat then (s.least, fINV ||| fOVF ||| fINX) else (q, fINV))
    else if s.most < q then (if s.sat then (s.most, fINV ||| fOVF ||| fINX) else (q, fINV)) else (q, fl) := by
  have hle : s.least ≤ s.most := by
    unfold least most
    split
    · decide
    · split <;> decide
  unfold clamp
  rcases lt_or_ge q s.least with h | h
  · rw [if_pos h, if_neg (by omega), max_eq_left (by omega)]
  · rcases lt_or_ge s.most q with h' | h'
    · rw [if_neg h.not_gt, if_pos h', if_neg (by omega), min_eq_left h'.le, max_eq_right hle]
    · rw [if_neg h.not_gt, if_neg h'.not_gt, if_pos ⟨h, h'⟩]

omit hs in
theorem code_clamp (q : Int) (fl : Word) :
    if s.least ≤ q ∧ q ≤ s.most then s.code (s.clamp q fl).1 = s.code q ∧ (s.clamp q fl).2 = fl
    else s.code (s.clamp q fl).1 = s.code (if s.sat then max s.least (min s.most q) else q) ∧
      (s.clamp q fl).2 = if s.sat then fINV ||| fOVF ||| fINX else fINV := by
  unfold clamp
  split
  · exact ⟨rfl, rfl⟩
  · cases s.sat
    · exact ⟨rfl, rfl⟩
    · exact ⟨rfl, rfl⟩

/-- The integer of a finite number. -/
theorem intCode_fin (rm : RM) (n : Bool) (m : Nat) (e : Int) : intCode s (.fin n m e) rm =
    s.clamp (ratRound rm 0 ((FVal.fin n m e).rat / s.scaleRat) + s.zp)
      (if (FVal.fin n m e).rat / s.scaleRat = ratRound rm 0 ((FVal.fin n m e).rat / s.scaleRat) then 0 else fINX) := by
  have hb : 0 < s.scaleVal.1 <<< (s.scaleVal.2 - e).toNat := by
    rw [Nat.shiftLeft_eq]
    exact Nat.mul_pos (Nat.pos_of_ne_zero hs.scale_ne) (by positivity)
  have hx : (if n then -(((m <<< (e - s.scaleVal.2).toNat : Nat) : ℚ) / (s.scaleVal.1 <<< (s.scaleVal.2 - e).toNat : Nat))
      else ((m <<< (e - s.scaleVal.2).toNat : Nat) : ℚ) / (s.scaleVal.1 <<< (s.scaleVal.2 - e).toNat : Nat)) =
      (FVal.fin n m e).rat / s.scaleRat := by
    rw [ratio_eq_div, hs.scale_eq, rat_fin]
    split
    · exact (neg_div _ _).symm
    · rfl
  have hspec := roundRatio_spec rm n (m <<< (e - s.scaleVal.2).toNat) hb
  rw [hx] at hspec
  have hrun : intCode s (.fin n m e) rm =
      let r := roundRatio rm n (m <<< (e - s.scaleVal.2).toNat) (s.scaleVal.1 <<< (s.scaleVal.2 - e).toNat)
      if r.1 + s.zp < s.least then (if s.sat then (s.least, fINV ||| fOVF ||| fINX) else (r.1 + s.zp, fINV))
      else if s.most < r.1 + s.zp then (if s.sat then (s.most, fINV ||| fOVF ||| fINX) else (r.1 + s.zp, fINV))
      else (r.1 + s.zp, if r.2 then fINX else 0) := rfl
  rw [hrun]
  generalize roundRatio rm n _ _ = r at hspec ⊢
  obtain ⟨hround, hne⟩ := hspec
  dsimp only
  rw [← clamp_eq, ← hround, if_congr hne rfl rfl, ite_not]

/-- 06 R200: the integers. -/
theorem qto_int (hk : s.kind = .int4 ∨ s.kind = .int8) (rm : RM) (c : Nat) :
    (qto s rm c).1 < 2 ^ 64 ∧ match fp32.val c with
      | .nan => (qto s rm c).1 = s.code s.zp ∧ (qto s rm c).2 = fINV
      | .inf n => (qto s rm c).1 = s.code (if n then s.least else s.most) ∧ (qto s rm c).2 = fINV
      | x =>
        let q := ratRound rm 0 (x.rat / s.scaleRat) + s.zp
        if s.least ≤ q ∧ q ≤ s.most then (qto s rm c).1 = s.code q ∧
          (qto s rm c).2 = (if x.rat / s.scaleRat = ratRound rm 0 (x.rat / s.scaleRat) then 0 else fINX)
        else (qto s rm c).1 = s.code (if s.sat then max s.least (min s.most q) else q) ∧
          (qto s rm c).2 = if s.sat then fINV ||| fOVF ||| fINX else fINV := by
  rw [qto_eq_int hk]
  have hlt (q : Int) : s.code q < 2 ^ 64 := by
    have hw : s.width = 4 ∨ s.width = 8 := by
      unfold width
      rcases hk with hk | hk <;> rw [hk] <;> simp
    unfold code
    rcases hw with hw | hw <;> rw [hw] <;> omega
  refine ⟨hlt _, ?_⟩
  rcases fp32.val_cases c with ⟨-, hval⟩ | ⟨-, ⟨hval, -⟩ | ⟨-, hval⟩⟩
  · rw [hval]
    exact ⟨rfl, rfl⟩
  · rw [hval]
    exact ⟨rfl, rfl⟩
  · rw [hval, intCode_fin hs]
    exact code_clamp _ _

/-! ### From a slot's format -/

/-- A finite value times the scale, rounded to FP32. -/
theorem round_scaled_roundsToZ (rm : RM) (n : Bool) (m : Nat) (e : Int) :
    RoundsToZ fp32 rm ((FVal.fin n m e).rat * s.scaleRat) n (fp32.round rm n (m * s.scaleVal.1) (e + s.scaleVal.2)) := by
  have h := Ieee.round_roundsToZ regular_fp32 rm n (m * s.scaleVal.1) (e + s.scaleVal.2)
  rwa [rat_mul_scale hs] at h

omit hs in
theorem qfrom_lt (rm : RM) (c : Nat) : (qfrom s rm c).1 < 2 ^ 64 := by
  have hlt {n : Nat} (h : n < 2 ^ fp32.w) : n < 2 ^ 64 := h.trans (by decide)
  unfold qfrom
  split
  split
  · cases s.ieee
    · exact (by decide : fp32.dNaN < 2 ^ 64)
    · exact (by decide : fp32.dNaN < 2 ^ 64)
  · exact hlt (Ieee.withSign_lt regular_fp32 _ (Ieee.infCode_lt regular_fp32))
  · exact hlt (Ieee.round_lt regular_fp32 rm _ _ _)

/-- 06 R200: a finite value, with the flags of its code. -/
theorem qfrom_fin {c : Nat} {n : Bool} {m : Nat} {e : Int} {fl : Word} (hv : s.val c = (.fin n m e, fl)) (rm : RM) :
    ∃ r, RoundsToZ fp32 rm ((FVal.fin n m e).rat * s.scaleRat) n r ∧ qfrom s rm c = (r.1, r.2 ||| fl) := by
  refine ⟨_, round_scaled_roundsToZ hs rm n m e, ?_⟩
  simp only [qfrom, hv]

omit hs in
theorem qfrom_inf {c : Nat} {n : Bool} {fl : Word} (hv : s.val c = (.inf n, fl)) (rm : RM) :
    qfrom s rm c = (fp32.withSign n fp32.infCode, fl) := by
  simp only [qfrom, hv]

/-- An integer times the scale. -/
theorem qfrom_int {c : Nat} {x : Int} {fl : Word} (hv : s.val c = (intVal x, fl)) (rm : RM) :
    ∃ r, RoundsToZ fp32 rm (x * s.scaleRat) false r ∧ qfrom s rm c = (r.1, r.2 ||| fl) := by
  obtain ⟨r, hround, hr⟩ := qfrom_fin hs hv rm
  rw [rat_int x _ rfl] at hround
  refine ⟨r, ⟨fun h0 => ?_, hround.2⟩, hr⟩
  have hx : x = 0 := by simpa [(scaleRat_pos hs).ne'] using h0
  subst hx
  exact hround.1 h0

omit hs in
theorem val_int4 (hk : s.kind = .int4) {c : Nat} (hc : c < 16) : s.val c =
    (intVal (if c = 8 then 0 else (BitVec.ofNat 4 c).toInt), if c = 8 then fINT4RSV else 0) := by
  obtain ⟨-, -, hrsv, hcode⟩ := narrowFormats
  have hval : s.val c = (intVal (int4Val c).1, (int4Val c).2) := by rw [Slot.val, hk]
  rw [hval]
  by_cases h : c = 8
  · rw [h, hrsv]
    rfl
  · rw [hcode c hc h, if_neg h, if_neg h]

omit hs in
theorem val_int8 (hk : s.kind = .int8) (c : Nat) : s.val c =
    (intVal ((if s.uns then (c : Int) else (BitVec.ofNat 8 c).toInt) - s.zp), 0) := by
  rw [Slot.val, hk]

/-- 06 R200: a small format. -/
theorem qfrom_mini (hk : s.kind = .b8 ∨ s.kind = .fp4) (rm : RM) {c : Nat} (hc : c < 2 ^ s.width) :
    match s.mini.val c with
    | .nan => (qfrom s rm c).1 = 0x7FC00000 ∧ (qfrom s rm c).2 = 0
    | .inf n => (qfrom s rm c).1 = fp32.withSign n fp32.infCode ∧ (qfrom s rm c).2 = 0
    | x => RoundsToZ fp32 rm (x.rat * s.scaleRat) false (qfrom s rm c) := by
  have hval : s.val c = (s.mini.val c, 0) := by
    rcases hk with hk | hk <;> rw [Slot.val, hk]
  have hi : s.ieee = none := by
    rcases hk with hk | hk <;> rw [Slot.ieee, hk]
  have hw : s.width = s.mini.w := by
    rcases hk with hk | hk
    · rw [Slot.width, Slot.mini, hk, if_neg (by decide), b8Of]
      cases s.uns <;> rfl
    · rw [Slot.width, Slot.mini, hk, if_pos rfl]
      rfl
  cases hv : s.mini.val c with
  | nan =>
    have hrun : qfrom s rm c = (fp32.dNaN, 0) := by simp only [qfrom, hval, hv, hi]
    rw [hrun]
    exact ⟨rfl, rfl⟩
  | inf n =>
    rw [qfrom_inf (hval.trans (by rw [hv])) rm]
    exact ⟨rfl, rfl⟩
  | fin n m e =>
    obtain ⟨r, hround, hr⟩ := qfrom_fin hs (hval.trans (by rw [hv])) rm
    have hor : r.2 ||| 0 = r.2 := BitVec.or_zero
    rw [hr, hor]
    refine ⟨fun h0 => ?_, hround.2⟩
    obtain rfl : m = 0 := by simpa [(scaleRat_pos hs).ne', rat_fin_eq_zero] using h0
    obtain rfl := Mini.val_zero_sign s.mini_regular (hw ▸ hc) hv
    exact hround.1 h0

/-- 06 R200: an IEEE format. -/
theorem qfrom_ieee {f : Ieee} (hi : s.ieee = some f) (rm : RM) (c : Nat) :
    ∃ f, s.ieee = some f ∧ match f.val c with
      | .nan => (qfrom s rm c).1 = 0x7FC00000 ∧ (qfrom s rm c).2 = if f.isSNaN c then fINV else 0
      | .inf n => (qfrom s rm c).1 = fp32.withSign n fp32.infCode ∧ (qfrom s rm c).2 = 0
      | x => RoundsToZ fp32 rm (x.rat * s.scaleRat) (f.neg c) (qfrom s rm c) := by
  have hval : s.val c = (f.val c, 0) := by
    obtain ⟨hk | hk | hk, -⟩ := ieee_cases hi <;> simp only [Slot.val, hk, hi]
  refine ⟨f, hi, ?_⟩
  rcases f.val_cases c with ⟨-, hv⟩ | ⟨-, ⟨hv, -⟩ | ⟨-, hv⟩⟩
  · have hrun : qfrom s rm c = (fp32.dNaN, if f.isSNaN c then fINV else 0) := by
      simp only [qfrom, hval, hv, hi]
      rfl
    rw [hv, hrun]
    exact ⟨rfl, rfl⟩
  · rw [hv, qfrom_inf (hval.trans (by rw [hv])) rm]
    exact ⟨rfl, rfl⟩
  · obtain ⟨r, hround, hr⟩ := qfrom_fin hs (hval.trans (by rw [hv])) rm
    have hor : r.2 ||| 0 = r.2 := BitVec.or_zero
    rw [hv, hr, hor]
    exact hround

end

end Slot

end Sys2Proof.Machine

section
open Sys2Proof Sys2Proof.Machine

/-- Settles O23: each kind of slot by its rounding; the checks of the class stop an unbound slot and per-column scales. -/
theorem slotConversions : Obligations.SlotConversions := by
  unfold Obligations.SlotConversions
  intro slot rm d a ops bound scale
  have hpass (h : Here) (hb : bound h) : (h.fmt slot == 0 || (slotOf (h.fmt slot)).scale == 2) = false := by
    obtain ⟨h1, h2⟩ := hb
    exact Bool.or_eq_false_iff.2 ⟨beq_eq_false_iff_ne.2 h1, beq_eq_false_iff_ne.2 h2⟩
  refine ⟨?_, ?_, fun i hi s h hr hbad => ?_⟩
  · refine laneR_of_checked (fun _ _ hh => exec_withHere hh _) (fun _ h => hpass h) (fun _ _ => rfl) fun h k v hvalid hb => ?_
    have hs := usable_of_valid hvalid hb.1
    generalize slotOf (h.fmt slot) = s at hs ⊢
    generalize (lo32 (arg v 0)).toNat = c
    dsimp only [patOut]
    cases hk : s.kind with
    | unbound => exact absurd hk hs.known.1
    | bad => exact absurd hk hs.known.2
    | b8 =>
      obtain ⟨hlt, hto⟩ := Slot.qto_mini hs (.inl hk) rm c
      rw [toNat_ofNat_lt hlt le_rfl]
      cases hv : fp32.val c <;> rw [hv] at hto <;> exact hto
    | fp4 =>
      obtain ⟨hlt, hto⟩ := Slot.qto_mini hs (.inr hk) rm c
      rw [toNat_ofNat_lt hlt le_rfl]
      cases hv : fp32.val c <;> rw [hv] at hto <;> exact hto
    | int4 =>
      obtain ⟨hlt, hto⟩ := Slot.qto_int hs (.inl hk) rm c
      rw [toNat_ofNat_lt hlt le_rfl]
      simp only [Slot.least, Slot.most, hk] at hto
      cases hv : fp32.val c <;> rw [hv] at hto <;> exact hto
    | int8 =>
      obtain ⟨hlt, hto⟩ := Slot.qto_int hs (.inr hk) rm c
      rw [toNat_ofNat_lt hlt le_rfl]
      simp only [Slot.least, Slot.most, hk] at hto
      cases hv : fp32.val c <;> rw [hv] at hto <;> exact hto
    | f32 =>
      obtain ⟨hlt, hto⟩ := Slot.qto_ieee hs (show s.ieee = some fp32 by rw [Slot.ieee, hk]) rm c
      rw [toNat_ofNat_lt hlt le_rfl]
      cases hv : fp32.val c <;> rw [hv] at hto <;> exact hto
    | bf16 =>
      obtain ⟨hlt, hto⟩ := Slot.qto_ieee hs (show s.ieee = some Machine.bf16 by rw [Slot.ieee, hk]) rm c
      rw [toNat_ofNat_lt hlt le_rfl]
      cases hv : fp32.val c <;> rw [hv] at hto <;> exact hto
    | f16 =>
      obtain ⟨hlt, hto⟩ := Slot.qto_ieee hs (show s.ieee = some fp16 by rw [Slot.ieee, hk]) rm c
      rw [toNat_ofNat_lt hlt le_rfl]
      cases hv : fp32.val c <;> rw [hv] at hto <;> exact hto
  · refine laneR_of_checked (fun _ _ hh => exec_withHere hh _) (fun _ h => hpass h) (fun _ _ => rfl) fun h k v hvalid hb => ?_
    have hs := usable_of_valid hvalid hb.1
    generalize slotOf (h.fmt slot) = s at hs ⊢
    dsimp only [patOut]
    rw [toNat_ofNat_lt (Slot.qfrom_lt rm _) le_rfl]
    have hc : (arg v 0).toNat % 2 ^ s.width < 2 ^ s.width := Nat.mod_lt _ (by positivity)
    generalize (arg v 0).toNat % 2 ^ s.width = c at hc ⊢
    cases hk : s.kind with
    | unbound => exact absurd hk hs.known.1
    | bad => exact absurd hk hs.known.2
    | b8 =>
      have hfrom := Slot.qfrom_mini hs (.inl hk) rm hc
      cases hv : s.mini.val c <;> rw [hv] at hfrom <;> exact hfrom
    | fp4 =>
      have hfrom := Slot.qfrom_mini hs (.inr hk) rm hc
      cases hv : s.mini.val c <;> rw [hv] at hfrom <;> exact hfrom
    | int4 =>
      have hw : s.width = 4 := by rw [Slot.width, hk]
      obtain ⟨r, hround, hr⟩ := Slot.qfrom_int hs (Slot.val_int4 hk (by rwa [hw] at hc)) rm
      rw [hr]
      exact ⟨r, hround, rfl, rfl⟩
    | int8 =>
      obtain ⟨r, hround, hr⟩ := Slot.qfrom_int hs (Slot.val_int8 hk c) rm
      have hor : r.2 ||| 0 = r.2 := BitVec.or_zero
      rw [hr, hor]
      exact hround
    | f32 => exact Slot.qfrom_ieee hs (f := fp32) (by rw [Slot.ieee, hk]) rm c
    | bf16 => exact Slot.qfrom_ieee hs (f := Machine.bf16) (by rw [Slot.ieee, hk]) rm c
    | f16 => exact Slot.qfrom_ieee hs (f := fp16) (by rw [Slot.ieee, hk]) rm c
  · have hcheck : (h.fmt slot == 0 || (slotOf (h.fmt slot)).scale == 2) = true := by
      rw [Bool.or_eq_true, beq_iff_eq, beq_iff_eq]
      by_contra hn
      exact hbad (not_or.1 hn)
    rcases hi with rfl | rfl
    · refine (exec_withHere hr.1 _).trans (congrArg _ ?_)
      show State.vec s h _ (slotCheck _) _ = _
      rw [hcheck]
      exact vec_checked rfl hr
    · refine (exec_withHere hr.1 _).trans (congrArg _ ?_)
      show State.vec s h _ (slotCheck _) _ = _
      rw [hcheck]
      exact vec_checked rfl hr

end

/-! The memory class (07): what a read of scratch delivers to the executing group, and what an instruction does whose lanes read. -/
namespace Sys2Proof.Machine

/-! ### Reads that meet no unseen write -/

/-- `u` holds what `s` holds, as far as a read of the executing group can tell: scratch, the writes that older views may still
read, and a view that has seen at least as much. -/
def ReadsAlike (s : State) (h : Here) (u : State) : Prop :=
  u.wseq = s.wseq ∧ (∀ q, (u.core q).uncounted = (s.core q).uncounted) ∧ ∃ g l, u.mine h = some g ∧ g.seen = l ++ h.grp.seen

theorem Counted.mine {s t : State} (hc : Counted s t) (h : Here) : t.mine h = s.mine h := by rw [hc.1]; rfl

theorem Counted.wseq {s t : State} (hc : Counted s t) : t.wseq = s.wseq := by rw [hc.1]

theorem Counted.out {s t : State} (hc : Counted s t) : t.out = s.out := by rw [hc.1]

theorem Reads.alike {s u : State} {h : Here} {l : List Seen} (hh : s.here = some h) (hr : Reads s h l u) : ReadsAlike s h u := by
  obtain ⟨-, v, hc, e⟩ := hr
  have hmine : v.mine h = some h.grp := by rw [hc.mine]; exact State.mine_of_here hh ⟨rfl, rfl, rfl, rfl⟩
  rcases e with ⟨-, rfl⟩ | rfl
  · exact ⟨hc.wseq, hc.2, _, [], hmine, rfl⟩
  · exact ⟨hc.wseq, hc.2, _, l, State.mine_modG _ (hc.here.trans hh), rfl⟩

theorem ReadsAlike.counted {s u w : State} {h : Here} (ha : ReadsAlike s h u) (hc : Counted u w) : ReadsAlike s h w := by
  obtain ⟨hseq, hcores, g, l, hmine, hseen⟩ := ha
  exact ⟨hc.wseq.trans hseq, fun q => (hc.2 q).trans (hcores q), g, l, (hc.mine h).trans hmine, hseen⟩

theorem Reads.counted {s u w : State} {h : Here} {l : List Seen} (hr : Reads s h l u) (hc : Counted u w) : Reads s h l w :=
  hr.trans ⟨by simp, w, hc, .inl ⟨rfl, rfl⟩⟩

section
variable {c k : Core} (h : c.uncounted = k.uncounted)
include h

theorem Core.scratch_of_uncounted : c.scratch = k.scratch :=
  show c.uncounted.scratch = k.uncounted.scratch by rw [h]
theorem Core.fresh_of_uncounted : c.fresh = k.fresh :=
  show c.uncounted.fresh = k.uncounted.fresh by rw [h]
theorem Core.errs_of_uncounted : c.errs = k.errs :=
  show c.uncounted.errs = k.uncounted.errs by rw [h]
theorem Core.bankmap_of_uncounted : c.bankmap = k.bankmap :=
  show c.uncounted.bankmap = k.uncounted.bankmap by rw [h]

theorem Core.lost_of_uncounted (a n : Nat) : c.lost a n = k.lost a n := by
  simp only [Core.lost, Core.lostByte, Core.mark, Core.errAt, Core.errs_of_uncounted h, Core.bankmap_of_uncounted h]

theorem Core.bytes_of_uncounted (a n : Nat) : c.bytes a n = k.bytes a n := by
  simp only [Core.bytes, Core.byte, Core.mark, Core.errAt, Core.errs_of_uncounted h, Core.bankmap_of_uncounted h,
    Core.scratch_of_uncounted h]

end

/-- A larger view holds what a smaller one does. -/
theorem sees_append {l view : List Seen} {by_ : Writer} {stamp : Nat} {core : Option Nat} {b : Nat}
    (hs : sees view by_ stamp core b = true) : sees (l ++ view) by_ stamp core b = true := by
  rw [sees, List.any_append]
  exact (congrArg _ hs).trans (Bool.or_true _)

/-- A read of bytes whose writes are all visible delivers what decoding gives. -/
theorem scrPick_of_visible {s : State} {q a n path stamp : Nat} {view : List Seen}
    (hv : ((s.core q).fresh.any fun f => f.addr == 8 * (a / 8) && (decide (stamp ≤ f.stamp) ||
      (List.range n).any (fun i => !f.visible path q view (a + i)))) = false) :
    s.scrPick q a n path view stamp = ((s.core q).bytes a n, [], s.countCorr q ((s.core q).corrections a n)) :=
  if_neg (Bool.not_eq_true _ ▸ hv)

/-- A read of bytes without an unseen write delivers what decoding gives (12 R332). -/
theorem groupRead_of_seen {s u : State} {h : Here} (ha : ReadsAlike s h u) {q a n : Nat} (hseen : unseenAt s h q a n = false) :
    ∃ w, Counted u w ∧ u.groupRead h q a n u.wseq = ((s.core q).bytes a n, w) := by
  obtain ⟨hseq, hcores, g, l, hmine, hview⟩ := ha
  have hview' : ((u.ctb? h.cur.row h.cur.slot h.cur.col).bind (fun c => c.group? h.cur.grp)).elim h.grp.seen (fun g => g.seen) =
      l ++ h.grp.seen := by
    change (u.mine h).elim _ _ = _
    rw [hmine]
    exact hview
  have hfresh : ((u.core q).fresh.any fun f => f.addr == 8 * (a / 8) && (decide (u.wseq ≤ f.stamp) ||
      (List.range n).any (fun i => !f.visible 0 q (l ++ h.grp.seen) (a + i)))) = false := by
    rw [Core.fresh_of_uncounted (hcores q), hseq, List.any_eq_false]
    rw [unseenAt, List.any_eq_false] at hseen
    intro f hf hun
    refine hseen f hf ?_
    simp only [Bool.and_eq_true, Bool.or_eq_true, List.any_eq_true, Bool.not_eq_true'] at hun ⊢
    refine ⟨hun.1, hun.2.imp_right fun ⟨i, hi, hiv⟩ => ⟨i, hi, ?_⟩⟩
    by_contra hvis
    rw [Bool.not_eq_false, Bool.or_eq_true] at hvis
    rcases hvis with hp | hs
    · simp [Fresh.visible, hp] at hiv
    · simp [Fresh.visible, Fresh.seenBy, sees_append hs] at hiv
  refine ⟨u.countCorr q ((u.core q).corrections a n), counted_countCorr _ _ _, ?_⟩
  rw [State.groupRead, hview', scrPick_of_visible hfresh, Core.bytes_of_uncounted (hcores q)]
  exact congrArg (Prod.mk _) (if_pos rfl)

/-- Lanes that read in turn: the values in lane order, and the state with what the reads count. -/
theorem foldl_reads {u : State} {ks : List Nat} {F : State × List (Nat × DWord) → Nat → State × List (Nat × DWord)} {f : Nat → DWord}
    (hF : ∀ w rs, Counted u w → ∀ k ∈ ks, ∃ w', Counted w w' ∧ F (w, rs) k = (w', rs ++ [(k, f k)])) :
    ∃ w, Counted u w ∧ ks.foldl F (u, []) = (w, ks.map (fun k => (k, f k))) := by
  suffices hs : ∀ (ls : List Nat) w rs, (∀ k ∈ ls, k ∈ ks) → Counted u w →
      ∃ w', Counted u w' ∧ ls.foldl F (w, rs) = (w', rs ++ ls.map (fun k => (k, f k))) from
    hs ks u [] (fun _ hk => hk) (Counted.refl u)
  intro ls
  induction ls with
  | nil => exact fun w rs _ hc => ⟨w, hc, by simp⟩
  | cons k ls ih =>
    intro w rs hsub hc
    obtain ⟨w', hc', he⟩ := hF w rs hc k (hsub k (by simp))
    obtain ⟨w'', hc'', he'⟩ := ih w' (rs ++ [(k, f k)]) (fun j hj => hsub j (by simp [hj])) (hc.trans hc')
    exact ⟨w'', hc'', by rw [List.foldl_cons, he, he']; simp⟩

/-! ### Instructions whose effect reads scratch -/

/-- The lanes of an instruction as the skeleton hands them to its effect. -/
def State.outs (s : State) (h : Here) (v : VecIn) : List (Nat × LaneOut) :=
  h.lanes.map (fun k => (k, v.out h (s.readStreams h (streamsOf v.ops)).1 k))

section
variable {s : State} {h : Here} {v : VecIn} {eff : State → Nat → List (Nat × LaneOut) → State × List (Nat × DWord)}
  (hout : ∀ k ∈ h.lanes, (v.out h (s.readStreams h (streamsOf v.ops)).1 k).fault = none ∧
    (v.out h (s.readStreams h (streamsOf v.ops)).1 k).flags = 0)
include hout

/-- `vec_all` where no lane sets a flag. -/
theorem vec_all_flagless (hr : Runs s h v.ops v.names) : s.vec h v none eff =
    (eff (s.readStreams h (streamsOf v.ops)).2 32 (s.outs h v)).1.modG h
      (h.ending v 0 (eff (s.readStreams h (streamsOf v.ops)).2 32 (s.outs h v)).2) := by
  have hflags : (s.outs h v).foldl (fun f o => f ||| o.2.flags) 0 = 0 := by
    rw [State.outs, List.foldl_map, foldl_or_congr h.lanes _ (fun _ => 0) fun k hk => (hout k hk).2, foldl_or_zero]
  have hall := vec_all (eff := eff) hr fun k hk => (hout k hk).1
  dsimp only at hall
  change _ = State.modG _ h (h.ending v ((s.outs h v).foldl (fun f o => f ||| o.2.flags) 0) _) at hall
  rw [hflags] at hall
  exact hall

/-- An instruction whose effect only counts: its results are delivered. -/
theorem vec_delivers_of_counted {d : Dst} {f : Nat → DWord} (hd : v.dst = some d) (hw : v.wide = none)
    (hr : Runs s h v.ops (dstNames d v.w64))
    (he : ∃ w, Counted (s.readStreams h (streamsOf v.ops)).2 w ∧
      eff (s.readStreams h (streamsOf v.ops)).2 32 (s.outs h v) = (w, h.lanes.map (fun k => (k, f k)))) :
    Delivers s (s.vec h v none eff) h v.ops d v.w64 v.land f 0 := by
  have hn : v.names = dstNames d v.w64 := by rw [VecIn.names, hd]
  obtain ⟨l, hreads, hnone⟩ := reads_readStreams s h (streamsOf v.ops)
  obtain ⟨w, hw', he⟩ := he
  have hown := hreads.1
  obtain ⟨u, hu, hmod⟩ := (hreads.counted hw').modG (h.ending v 0 (h.lanes.map (fun k => (k, f k))))
  rw [vec_all_flagless hout (hn ▸ hr), he, hmod]
  have honly := OnlyGroup.mk' hu (h := h) (fun g => h.ending v 0 (h.lanes.map (fun k => (k, f k))) (g.addSeen l))
  refine ⟨by rw [State.modG_faults, hu.fields.1], sameMem_onlyGroup honly, _, State.mine_modG _ (hu.here.trans hr.1), honly, ?_, rfl,
    ?_, ?_, ?_⟩
  · rw [Here.ending_bare]; rfl
  · rw [Here.ending_iflags]; rfl
  · rw [← hn]; exact Here.ending_sources _ _ _ _ _ _ l hown hnone ⟨rfl, rfl, rfl⟩
  · have := Here.ending_inFlight h v 0 f (h.grp.addSeen l) d ((VecIn.result_lane hw _).trans hd) hr.2.2.1
    exact this

end

end Sys2Proof.Machine

/-! O27: loads (07 R207 to R210, R218, R236). -/
namespace Sys2Proof.Machine

/-! ### Accesses -/

/-- An access that passes its checks is at its offset in the window. -/
theorem checkAccess_offset {h : Here} {w : Window} {ea : DWord} {n o : Nat} (hok : h.checkAccess w ea n = .ok o) :
    o = (ea - windowBase w).toNat := by
  unfold Here.checkAccess at hok
  dsimp only at hok
  split at hok
  · cases hok
  split at hok
  · cases hok
  split at hok
  · cases hok
  split at hok
  · cases hok
  · exact (Except.ok.inj hok).symm

theorem rdN_eq_map (m : Memory) (a n : Nat) : rdN m a n = (List.range n).map (fun i => rd m (a + i)) := by
  induction n generalizing a with
  | zero => rfl
  | succ n ih =>
    rw [rdN, ih, List.range_succ_eq_map, List.map_cons, List.map_map]
    exact congrArg (rd m a :: ·) (List.map_congr_left fun i _ => congrArg (rd m) (by rw [Nat.succ_eq_add_one]; omega))

/-- A core without symbol errors delivers its contents. -/
theorem Core.bytes_of_errs_nil {c : Core} (h : c.errs = []) (a n : Nat) : c.bytes a n = rdN c.scratch a n := by
  rw [rdN_eq_map]
  simp [Core.bytes, Core.byte, h]

/-! ### A load through a window of scratch -/

/-- What a lane of a load does with its address. -/
def Here.loadOut (h : Here) (w : Window) (ty : LdTy) (ea : DWord) : LaneOut :=
  match h.checkAccess w ea (ldSize ty) with
  | .ok _ => { ea := some ea }
  | .error c => { fault := some (c, ea) }

/-- A load as the skeleton runs it. -/
def Here.loadIn (h : Here) (w : Window) (ty : LdTy) (land : Nat) (d : Dst) (base : Src) (off : Option Src) (disp : Option Word) : VecIn :=
  { ops := addrOps base off, dst := some d, w64 := ldWide ty, land := land
    lane := fun _ vs => h.loadOut w ty (effAddr off ((disp.getD 0).signExtend 64) vs) }

theorem exec_load {s : State} {h : Here} (hh : s.here = some h) (cluster : Bool) (ty : LdTy) (d : Dst) (base : Src)
    (off : Option Src) (disp : Option Word) : exec (if cluster then .cld ty d base off disp else .ld ty d base off disp) s =
      .next (s.vec h (h.loadIn (if cluster then .cluster else .shared) ty (if cluster then 6 else 2) d base off disp) none
        (loadEff h (if cluster then .cluster else .shared) ty (if cluster then 6 else 2))) := by
  cases cluster <;> exact exec_withHere hh _

section
variable {s : State} {h : Here} {w : Window} {ty : LdTy} {land : Nat} {d : Dst} {base : Src} {off : Option Src} {disp : Option Word}

/-- The address of a lane of a load. -/
def State.loadAddr (s : State) (h : Here) (base : Src) (off : Option Src) (disp : Option Word) (k : Nat) : DWord :=
  effAddr off ((disp.getD 0).signExtend 64) (s.srcs h (addrOps base off) k)

/-- Where a lane of a load reads. -/
def State.loadPlace (s : State) (h : Here) (w : Window) (base : Src) (off : Option Src) (disp : Option Word) (k : Nat) : Nat × Nat :=
  h.place w (s.loadAddr h base off disp k - windowBase w).toNat

theorem loadOut_of_ok {ea : DWord} (hok : ∃ o, h.checkAccess w ea (ldSize ty) = .ok o) : h.loadOut w ty ea = { ea := some ea } := by
  obtain ⟨o, ho⟩ := hok
  rw [Here.loadOut, ho]

variable (hok : ∀ k ∈ h.lanes, ∃ o, h.checkAccess w (s.loadAddr h base off disp k) (ldSize ty) = .ok o)
include hok

theorem loadIn_out {k : Nat} (hk : k ∈ h.lanes) :
    (h.loadIn w ty land d base off disp).out h (s.readStreams h (streamsOf (h.loadIn w ty land d base off disp).ops)).1 k =
      { ea := some (s.loadAddr h base off disp k) } :=
  loadOut_of_ok (hok k hk)

theorem loadIn_outs : s.outs h (h.loadIn w ty land d base off disp) =
    h.lanes.map (fun k => (k, { ea := some (s.loadAddr h base off disp k) })) :=
  List.map_congr_left fun k hk => by rw [loadIn_out hok hk]

/-- The lanes of a load that loses no column read in turn. -/
theorem loadEff_of_readable {u : State} (ha : ReadsAlike s h u)
    (hread : ∀ k ∈ h.lanes, (s.core (s.loadPlace h w base off disp k).1).lost (s.loadPlace h w base off disp k).2 (ldSize ty) = false ∧
      unseenAt s h (s.loadPlace h w base off disp k).1 (s.loadPlace h w base off disp k).2 (ldSize ty) = false) :
    ∃ v, Counted u v ∧ loadEff h w ty land u 32 (s.outs h (h.loadIn w ty land d base off disp)) = (v, h.lanes.map (fun k =>
      (k, ldExt ty (ofBytes ((s.core (s.loadPlace h w base off disp k).1).bytes (s.loadPlace h w base off disp k).2 (ldSize ty)))))) := by
  have hnone : (s.outs h (h.loadIn w ty land d base off disp)).find? (fun o =>
      (u.core (h.target w o.2).1).lost (h.target w o.2).2 (ldSize ty)) = none := by
    rw [loadIn_outs hok, List.find?_eq_none]
    intro o ho
    obtain ⟨k, hk, rfl⟩ := List.mem_map.1 ho
    rw [Core.lost_of_uncounted (ha.2.1 _)]
    exact fun hl => Bool.noConfusion ((hread k hk).1.symm.trans hl)
  rw [loadEff, hnone, loadIn_outs hok]
  dsimp only
  rw [List.foldl_map]
  refine foldl_reads fun x rs hx k hk => ?_
  let p := s.loadPlace h w base off disp k
  obtain ⟨y, hy, he⟩ := groupRead_of_seen (ha.counted hx) (hread k hk).2
  refine ⟨y, hy, ?_⟩
  change ((x.groupRead h p.1 p.2 (ldSize ty) x.wseq).2, rs ++ [(k, ldExt ty (ofBytes (x.groupRead h p.1 p.2 (ldSize ty) x.wseq).1))]) = _
  rw [he]

theorem load_delivers (hr : Runs s h (addrOps base off) (dstNames d (ldWide ty)))
    (hread : ∀ k ∈ h.lanes, (s.core (s.loadPlace h w base off disp k).1).lost (s.loadPlace h w base off disp k).2 (ldSize ty) = false ∧
      unseenAt s h (s.loadPlace h w base off disp k).1 (s.loadPlace h w base off disp k).2 (ldSize ty) = false) :
    Delivers s (s.vec h (h.loadIn w ty land d base off disp) none (loadEff h w ty land)) h (addrOps base off) d (ldWide ty) land
      (fun k => ldExt ty (ofBytes ((s.core (s.loadPlace h w base off disp k).1).bytes (s.loadPlace h w base off disp k).2 (ldSize ty)))) 0 := by
  obtain ⟨l, hreads, -⟩ := reads_readStreams s h (streamsOf (addrOps base off))
  exact vec_delivers_of_counted (v := h.loadIn w ty land d base off disp) (fun k hk => by rw [loadIn_out hok hk]; exact ⟨rfl, rfl⟩) rfl rfl hr
    (loadEff_of_readable hok (hreads.alike hr.1) hread)

end

/-! ### A lost column -/

/-- Reads that count what they correct and report what they cannot lead from `s` to `t`, on cores of `qs`. -/
def Meets (s : State) (qs : List Nat) (t : State) : Prop :=
  Counted { s with out := t.out } t ∧ ∃ l, t.out = s.out ++ l ∧ ∀ o ∈ l, ∃ q ∈ qs, ∃ b, o = .report 0x219 q b

theorem Meets.of_counted {s t : State} (qs : List Nat) (hc : Counted s t) : Meets s qs t :=
  ⟨by rw [hc.out]; exact hc, [], by simp [hc.out], by simp⟩

theorem Meets.refl (s : State) (qs : List Nat) : Meets s qs s := .of_counted qs (Counted.refl s)

theorem Meets.trans {s t u : State} {qs : List Nat} (h1 : Meets s qs t) (h2 : Meets t qs u) : Meets s qs u := by
  obtain ⟨c1, l1, o1, p1⟩ := h1
  obtain ⟨c2, l2, o2, p2⟩ := h2
  refine ⟨Counted.trans (t := { t with out := u.out }) ⟨?_, c1.2⟩ c2, l1 ++ l2, by rw [o2, o1, List.append_assoc], fun o ho => ?_⟩
  · have := congrArg (fun x : State => ({ x with out := u.out } : State)) c1.1
    exact this
  · exact (List.mem_append.1 ho).elim (p1 o) (p2 o)

theorem meets_foldl {α : Type} {qs : List Nat} {F : State → α → State} (l : List α) (hF : ∀ s, ∀ x ∈ l, Meets s qs (F s x)) (s : State) :
    Meets s qs (l.foldl F s) := by
  induction l generalizing s with
  | nil => exact Meets.refl s qs
  | cons x l ih => exact (hF s x (by simp)).trans (ih (fun t y hy => hF t y (by simp [hy])) _)

theorem meets_bankLoss (s : State) (q a n : Nat) : Meets s [q] (s.bankLoss q a n) := by
  unfold State.bankLoss
  dsimp only
  split
  · exact Meets.refl s _
  · refine meets_foldl _ (fun t g _ => ?_) s
    split
    · exact Meets.refl t _
    · exact ⟨Counted.refl _, [.report 0x219 q g], rfl, by simp⟩

theorem Meets.mono {s t : State} {qs ps : List Nat} (hm : Meets s qs t) (hsub : ∀ q ∈ qs, q ∈ ps) : Meets s ps t := by
  obtain ⟨hc, l, ho, hl⟩ := hm
  refine ⟨hc, l, ho, fun o hmem => ?_⟩
  obtain ⟨q, hq, hb⟩ := hl o hmem
  exact ⟨q, hsub q hq, hb⟩

theorem meets_meet (s : State) (q a n : Nat) : Meets s [q] (s.meet q a n) :=
  (Meets.of_counted _ (counted_countCorr _ _ _)).trans (meets_bankLoss _ _ _ _)

theorem Meets.modG_out {u w : State} {h : Here} {f : Group → Group} {qs : List Nat} (hm : Meets (u.modG h f) qs w) :
    ∃ v, Meets u qs v ∧ w = v.modG h f := by
  obtain ⟨hc, hout⟩ := hm
  obtain ⟨v, hv, rfl⟩ := Counted.modG_out (u := { u with out := w.out }) hc
  exact ⟨v, ⟨hv, hout⟩, rfl⟩

/-- What was sent out before does not matter to reads. -/
theorem Reads.withOut {s u : State} {h : Here} {l : List Seen} (hr : Reads s h l u) (o : List Out) :
    Reads { s with out := o } h l { u with out := o } := by
  obtain ⟨hown, v, hc, e⟩ := hr
  refine ⟨hown, { v with out := o }, ⟨congrArg (fun x : State => ({ x with out := o } : State)) hc.1, hc.2⟩, ?_⟩
  rcases e with ⟨hl, rfl⟩ | rfl
  · exact .inl ⟨hl, rfl⟩
  · exact .inr rfl

theorem Reads.out {s u : State} {h : Here} {l : List Seen} (hr : Reads s h l u) : u.out = s.out := by
  obtain ⟨-, v, hc, ⟨-, rfl⟩ | rfl⟩ := hr
  · exact hc.out
  · exact hc.out

theorem Here.ending_lateErr (h : Here) (v : VecIn) (fl : Word) (rs : List (Nat × DWord)) (g : Group) :
    (h.ending v fl rs g).lateErr = g.lateErr := by
  change (h.ending v fl rs g).bare.lateErr = g.bare.lateErr
  rw [Here.ending_bare]

/-- Without a result the last entry in flight is one that was in flight before, or one for no lane (notes/assumptions/32). -/
theorem Here.ending_pend_withheld (h : Here) {v : VecIn} {d : Dst} (hd : v.result h.grp = some d) (fl : Word) (g : Group) {p : Pending}
    (hp : (h.ending v fl [] g).pend.getLast? = some p) :
    p.lanes = 0 ∨ ∃ x ∈ g.pend, x.due = p.due ∧ x.reg = p.reg ∧ x.lanes = p.lanes ∧ x.vals = p.vals := by
  let key (p : Pending) : Nat × Option Nat × Word × List DWord := (p.due, p.reg, p.lanes, p.vals)
  let g1 : Group := if v.land = 1 then { g with iflags := g.iflags ||| fl } else g
  have hg1 : g1.pend = g.pend := by unfold g1; split <;> rfl
  by_cases hreg : dstReg d = none
  · right
    have hpend : (h.ending v fl [] g).pend = (g1.freeAll (v.ops.flatMap Opnd.frees) (v.written h.grp)).pend := by
      simp only [Here.ending, hd]
      rw [if_pos ⟨rfl, hreg⟩]
    have hmem : key p ∈ g.pend.map key := by
      rw [← hg1, ← Group.freeAll_pend_map (f := key) (fun _ _ _ => rfl) g1 _ _, ← hpend]
      exact List.mem_map_of_mem (List.mem_of_getLast? hp)
    obtain ⟨x, hx, hkey⟩ := List.mem_map.1 hmem
    simp only [key, Prod.mk.injEq] at hkey
    exact ⟨x, hx, hkey⟩
  · left
    simp only [Here.ending, hd] at hp
    rw [if_neg fun hn => hreg hn.2] at hp
    rw [List.getLast?_concat, Option.some.injEq] at hp
    rw [← hp]
    rfl

/-- The loss that a load meets in its first lane (07 R218). -/
def Here.lateLoss (h : Here) (land : Nat) (ea : DWord) (k : Nat) : LateErr :=
  { due := h.rg.pos + land, planned := h.planned, pc := h.cur.pc, addr := ea, lane := k, ilen := h.cur.ilen }

/-- A load whose first lane meets a lost column delivers nothing: the loss is due with the landing. -/
theorem load_lost {s : State} {h : Here} {w : Window} {ty : LdTy} {land : Nat} {d : Dst} {base : Src} {off : Option Src} {disp : Option Word}
    (hok : ∀ k ∈ h.lanes, ∃ o, h.checkAccess w (s.loadAddr h base off disp k) (ldSize ty) = .ok o)
    (hr : Runs s h (addrOps base off) (dstNames d (ldWide ty))) {k : Nat} {ks : List Nat} (hlanes : h.lanes = k :: ks)
    (hlost : (s.core (s.loadPlace h w base off disp k).1).lost (s.loadPlace h w base off disp k).2 (ldSize ty) = true) :
    ∃ t g, s.vec h (h.loadIn w ty land d base off disp) none (loadEff h w ty land) = t ∧ t.faults = s.faults ∧ SameMem s t ∧
      t.mine h = some g ∧ OnlyGroup { s with out := t.out } t h g ∧
      (∃ l, t.out = s.out ++ l ∧ ∀ o ∈ l, ∃ q ∈ h.lanes.map (fun j => (s.loadPlace h w base off disp j).1), ∃ b, o = .report 0x219 q b) ∧
      g.lateErr = h.grp.lateErr ++ [h.lateLoss land (s.loadAddr h base off disp k) k] ∧
      ∀ p, g.pend.getLast? = some p → p.lanes = 0 ∨
        ∃ x ∈ h.grp.pend, x.due = p.due ∧ x.reg = p.reg ∧ x.lanes = p.lanes ∧ x.vals = p.vals := by
  let v := h.loadIn w ty land d base off disp
  let late (g : Group) : Group := { g with lateErr := g.lateErr ++ [h.lateLoss land (s.loadAddr h base off disp k) k] }
  obtain ⟨l, hreads, -⟩ := reads_readStreams s h (streamsOf v.ops)
  have halike := hreads.alike hr.1
  generalize hu : (s.readStreams h (streamsOf v.ops)).2 = u at hreads halike
  have hvec := vec_all_flagless (v := v) (eff := loadEff h w ty land) (fun k hk => by rw [loadIn_out hok hk]; exact ⟨rfl, rfl⟩) hr
  rw [hu] at hvec
  have hfind : (s.outs h v).find? (fun o => (u.core (h.target w o.2).1).lost (h.target w o.2).2 (ldSize ty)) =
      some (k, { ea := some (s.loadAddr h base off disp k) }) := by
    rw [loadIn_outs hok, hlanes, List.map_cons, List.find?_cons_of_pos]
    rw [Core.lost_of_uncounted (halike.2.1 _)]
    exact hlost
  have heff : loadEff h w ty land u 32 (s.outs h v) = ((s.outs h v).foldl (fun s e =>
      s.meet (h.target w e.2).1 (h.target w e.2).2 (ldSize ty)) (u.modG h late), []) := by
    rw [loadEff, hfind]
    rfl
  rw [heff] at hvec
  have hmeets : Meets (u.modG h late) (h.lanes.map (fun j => (s.loadPlace h w base off disp j).1)) ((s.outs h v).foldl (fun s e =>
      s.meet (h.target w e.2).1 (h.target w e.2).2 (ldSize ty)) (u.modG h late)) := by
    rw [loadIn_outs hok]
    refine meets_foldl _ (fun x o ho => ?_) _
    obtain ⟨j, hj, rfl⟩ := List.mem_map.1 ho
    exact (meets_meet _ _ _ _).mono fun q hq => List.mem_map.2 ⟨j, hj, (List.mem_singleton.1 hq).symm⟩
  obtain ⟨x, ⟨hcounted, hout⟩, hx⟩ := hmeets.modG_out
  rw [hx, State.modG_modG] at hvec
  obtain ⟨y, hy, hmod⟩ := ((hreads.withOut x.out).counted hcounted).modG (fun g => h.ending v 0 [] (late g))
  have hyout : y.out = x.out := hy.out
  have honly := OnlyGroup.mk' hy (h := h) (fun g => h.ending v 0 [] (late (g.addSeen l)))
  have hmem : SameMem { s with out := x.out } _ := sameMem_onlyGroup honly
  refine ⟨_, _, hvec.trans hmod, hy.fields.1, hmem, State.mine_modG _ (hy.here.trans hr.1), ?_, ?_, ?_, ?_⟩
  · rw [State.modG_out, hyout]
    exact honly
  · rw [State.modG_out, hyout, ← hreads.out]
    exact hout
  · rw [Here.ending_lateErr]
    rfl
  · exact fun p hp => Here.ending_pend_withheld h (v := v) (d := d) rfl 0 (late (h.grp.addSeen l)) hp

/-! ### A load of the lane store -/

/-- What a lane of a load of the lane store does with its address. -/
def Here.laneLoadOut (h : Here) (ty : LdTy) (k : Nat) (ea : DWord) : LaneOut :=
  match h.checkAccess .lane ea (ldSize ty) with
  | .ok o => { ea := some ea, val := ldExt ty (rdVal h.grp.lane (laneKey k o) (ldSize ty)) }
  | .error c => { fault := some (c, ea) }

theorem laneLoadOut_of_ok {h : Here} {ty : LdTy} {ea : DWord} (k : Nat) (hok : ∃ o, h.checkAccess .lane ea (ldSize ty) = .ok o) :
    h.laneLoadOut ty k ea =
      { ea := some ea, val := ldExt ty (ofBytes (rdN h.grp.lane (1024 * k + (ea - laneBase).toNat) (ldSize ty))) } := by
  obtain ⟨o, ho⟩ := hok
  rw [Here.laneLoadOut, ho, checkAccess_offset ho]
  rfl

theorem lld_laneInstr (ty : LdTy) (d : Dst) (base : Src) (off : Option Src) (disp : Option Word) :
    LaneInstr (.lld ty d base off disp) (addrOps base off) d (ldWide ty) 1
      (fun s h => ∀ k ∈ h.lanes, ∃ o, h.checkAccess .lane (s.loadAddr h base off disp k) (ldSize ty) = .ok o)
      (fun h k vs => ldExt ty (ofBytes (rdN h.grp.lane
        (1024 * k + (effAddr off ((disp.getD 0).signExtend 64) vs - laneBase).toNat) (ldSize ty)))) (fun _ _ _ => 0) := by
  refine laneInstr_of_vec (st := true) (F := fun _ h k vs => h.laneLoadOut ty k (effAddr off ((disp.getD 0).signExtend 64) vs))
    (fun s h hh _ => exec_withHere hh _) (fun s h hok k hk => ?_) (fun s h hok k hk => ?_) fun s h hok k hk => ?_
  all_goals
    have hout := laneLoadOut_of_ok k (hok k hk)
    unfold State.loadAddr at hout
    rw [hout]

end Sys2Proof.Machine

section
open Sys2Proof Sys2Proof.Machine

/-- Settles O27: readable lanes read in turn, a lost column in the first lane withholds the result, and the lane store is read at
once. -/
theorem loadInstructions : Obligations.LoadInstructions := by
  unfold Obligations.LoadInstructions
  intro cluster ty d base off disp s h w i ops n ext ea pl hr
  have hwide : ldWide ty = (ty == .b64) := by cases ty <;> rfl
  have hsize : ldSize ty = n := by cases ty <;> rfl
  have hext : ldExt ty = ext := by cases ty <;> rfl
  have hea : s.loadAddr h base off disp = ea := by
    funext k
    unfold State.loadAddr effAddr ea
    cases off
    · exact congrArg (· + _) (BitVec.add_zero _).symm
    · rfl
  have hpl : s.loadPlace h w base off disp = pl := by
    funext k
    rw [State.loadPlace, hea]
  rw [← hwide] at hr ⊢
  rw [← hsize, ← hext, ← hea, ← hpl]
  refine ⟨fun hok => ⟨fun hread => ?_, fun q herrs a => ?_, fun k l hlanes hlost => ?_⟩, fun hok => ?_⟩
  · exact ⟨_, exec_load hr.1 cluster ty d base off disp, load_delivers hok hr hread⟩
  · exact Core.bytes_of_errs_nil herrs a _
  · obtain ⟨t, g, hexec, hfaults, hmem, hmine, honly, ⟨r, hout, hreports⟩, hlate, hpend⟩ :=
      load_lost (land := if cluster then 6 else 2) hok hr hlanes hlost
    refine ⟨t, g, (exec_load hr.1 cluster ty d base off disp).trans (congrArg _ hexec), hfaults, hmem, hmine, honly,
      ⟨r, hout, fun o ho => ?_⟩, hlate, fun p hp => (hpend p hp).imp_left fun hz j _ => ?_⟩
    · obtain ⟨q, hq, b, rfl⟩ := hreports o ho
      obtain ⟨j, hj, rfl⟩ := List.mem_map.1 hq
      exact ⟨j, b, hj, rfl⟩
    · rw [hz]
      exact BitVec.getLsbD_zero
  · obtain ⟨t, hexec, ht⟩ := lld_laneInstr ty d base off disp s h hr hok
    rw [foldl_or_zero] at ht
    exact ⟨t, hexec, ht⟩

end

/-! O28: stores (07 R237, R222). -/
namespace Sys2Proof.Machine

/-! ### What a store to scratch leaves -/

/-- A state apart from what stores to scratch may change (see `Stores`). -/
def State.apart (s : State) : State :=
  { s with reaches := [], cores := [], agenda := [], free := 0, wseq := 0, bumped := [], regs := { s.regs with trloss := 0 } }

/-- The memory of core `q` with the bytes of `ws`, as (core, physical address, bytes), stored in turn. -/
def storeAll (q : Nat) (ws : List (Nat × Nat × List Byte)) (m : Memory) : Memory :=
  ws.foldl (fun m w => if w.1 = q then wrN m w.2.1 w.2.2 else m) m

/-- The bytes of `ws` are stored in turn, and nothing else changes but the trace of watched words and what reads count. -/
def Stored (s t : State) (ws : List (Nat × Nat × List Byte)) : Prop :=
  t.reaches = s.reaches ∧ t.apart = s.apart ∧ (∀ q, (t.core q).besides = (s.core q).besides) ∧
    ∀ q, (t.core q).scratch = storeAll q ws (s.core q).scratch

theorem Stored.refl (s : State) : Stored s s [] := ⟨rfl, rfl, fun _ => rfl, fun _ => rfl⟩

theorem Stored.trans {s t u : State} {ws vs : List (Nat × Nat × List Byte)} (h1 : Stored s t ws) (h2 : Stored t u vs) :
    Stored s u (ws ++ vs) := by
  obtain ⟨r1, a1, b1, m1⟩ := h1
  obtain ⟨r2, a2, b2, m2⟩ := h2
  refine ⟨r2.trans r1, a2.trans a1, fun q => (b2 q).trans (b1 q), fun q => ?_⟩
  rw [m2, m1]
  exact List.foldl_append.symm

theorem Stored.errs {s t : State} {ws : List (Nat × Nat × List Byte)} (hs : Stored s t ws) (q : Nat) :
    (t.core q).errs = (s.core q).errs :=
  (congrArg (fun c : Core => c.errs) (hs.2.2.1 q) :)

/-- One core changed. -/
theorem stored_setCore {s : State} {q : Nat} {c : Core} {ws : List (Nat × Nat × List Byte)} (hq : ∀ w ∈ ws, w.1 = q)
    (hb : c.besides = (s.core q).besides) (hm : c.scratch = storeAll q ws (s.core q).scratch) : Stored s (s.setCore q c) ws := by
  refine ⟨rfl, rfl, fun p => ?_, fun p => ?_⟩
  · by_cases hp : p = q
    · subst hp; rw [State.core_setCore_same, hb]
    · rw [State.core_setCore_other s c hp]
  · by_cases hp : p = q
    · subst hp; rw [State.core_setCore_same, hm]
    · rw [State.core_setCore_other s c hp]
      have hnone : ∀ w ∈ ws, ¬ w.1 = p := fun w hw he => hp (he.symm.trans (hq w hw))
      rw [storeAll, List.foldl_ext _ (fun m _ => m) _ fun m w hw => if_neg (hnone w hw), List.foldl_fixed]

theorem stored_lossOne (s : State) (q : Nat) : Stored s (s.lossOne q) [] := by
  unfold State.lossOne State.noteInc
  split <;> exact ⟨rfl, rfl, fun _ => rfl, fun _ => rfl⟩

theorem stored_traceOut (s : State) (q : Nat) (r : List Byte) : Stored s (s.traceOut q r) [] := by
  unfold State.traceOut
  dsimp only
  have hset : Stored s (s.setCore q { s.core q with fifo := (s.core q).fifo ++ [r] }) [] :=
    stored_setCore (by simp) rfl rfl
  split
  · split
    · exact hset
    · exact hset
  · exact stored_lossOne s q

theorem stored_foldl {α : Type} {F : State → α → State} {ws : α → List (Nat × Nat × List Byte)} (l : List α) (s : State)
    (hF : ∀ t vs, Stored s t vs → ∀ x ∈ l, Stored t (F t x) (ws x)) : Stored s (l.foldl F s) (l.flatMap ws) := by
  suffices hs : ∀ (m : List α) (t : State) (vs : List (Nat × Nat × List Byte)), (∀ x ∈ m, x ∈ l) → Stored s t vs →
      Stored s (m.foldl F t) (vs ++ m.flatMap ws) from hs l s [] (fun _ hx => hx) (Stored.refl s)
  intro m
  induction m with
  | nil => exact fun t vs _ ht => by simpa using ht
  | cons x m ih =>
    intro t vs hsub ht
    have := ih (F t x) (vs ++ ws x) (fun y hy => hsub y (by simp [hy])) (ht.trans (hF t vs ht x (hsub x (by simp))))
    simpa [List.append_assoc] using this

theorem stored_sound (s : State) (q : Nat) (src : TraceSrc) (before after : Core) (a n : Nat) :
    Stored s (s.sound q src before after a n) [] := by
  unfold State.sound
  split
  · have hnil : (wordsOf a n).flatMap (fun _ => ([] : List (Nat × Nat × List Byte))) = [] := by simp
    rw [← hnil]
    refine stored_foldl (ws := fun _ => []) _ s fun t vs _ w _ => ?_
    dsimp only
    split
    · exact Stored.refl t
    · exact stored_traceOut t q _
  · exact Stored.refl s

/-- A write to a core without symbol errors stores its bytes. -/
theorem stored_scrWrite {s : State} {q : Nat} (herrs : (s.core q).errs = []) (a : Nat) (bs : List Byte) (src : TraceSrc) (by_ : Writer)
    (path : Nat) : Stored s (s.scrWrite q a bs src by_ path) [(q, a, bs)] := by
  have hre : (s.core q).reencode a bs.length = s.core q := if_pos (by rw [herrs]; rfl)
  unfold State.scrWrite
  dsimp only
  rw [hre]
  refine Stored.trans (ws := [(q, a, bs)]) (vs := []) ?_ (stored_sound _ _ _ _ _ _ _)
  exact stored_setCore (s := s) (by simp) rfl (by simp [storeAll])

/-- Lanes that store in turn, on cores without symbol errors. -/
theorem stored_lanes {s u : State} {h : Here} {ks : List Nat} {pl : Nat → Nat × Nat} (hu : ∀ q, (u.core q).errs = (s.core q).errs)
    (herrs : ∀ k ∈ ks, (s.core (pl k).1).errs = []) (bs : Nat → List Byte) (ea : Nat → DWord) (after : Nat) :
    Stored u (ks.foldl (fun t k => t.storeLane h [] (pl k).1 (pl k).2 k (bs k) (ea k) after true) u)
      (ks.map (fun k => ((pl k).1, (pl k).2, bs k))) := by
  rw [List.map_eq_flatMap]
  exact stored_foldl ks u fun t vs ht k hk => stored_scrWrite (((ht.errs _).trans (hu _)).trans (herrs k hk)) _ _ _ _ _

/-- No row is lost on cores without symbol errors. -/
theorem lostRows_of_errs_nil {s : State} {as : List (Nat × Nat × Nat)} (herrs : ∀ a ∈ as, (s.core a.1).errs = []) :
    s.lostRows as = [] := by
  rw [State.lostRows, List.filter_eq_nil_iff.2 fun a ha => by simp [Core.lost, herrs a ha]]
  rfl

/-! ### The bytes outside a store -/

theorem rd_storeAll_outside {q x : Nat} {ws : List (Nat × Nat × List Byte)} {m : Memory} (hm : memWf m = true)
    (hx : ∀ w ∈ ws, ¬ (w.1 = q ∧ w.2.1 ≤ x ∧ x < w.2.1 + w.2.2.length)) : rd (storeAll q ws m) x = rd m x := by
  induction ws generalizing m with
  | nil => rfl
  | cons w ws ih =>
    have hw := hx w (by simp)
    change rd (storeAll q ws (if w.1 = q then wrN m w.2.1 w.2.2 else m)) x = _
    split
    · rw [ih (memWf_wrN _ _ hm) fun v hv => hx v (by simp [hv])]
      exact rd_wrN_outside hm (by omega)
    · exact ih hm fun v hv => hx v (by simp [hv])

/-! ### An instruction that stores -/

theorem Counted.apart {s t : State} (hc : Counted s t) : t.apart = s.apart := by rw [hc.1]; rfl

theorem Counted.besides {s t : State} (hc : Counted s t) (q : Nat) : (t.core q).besides = (s.core q).besides :=
  (congrArg Core.besides (hc.2 q) :)

theorem State.reaches_modG_congr {s t : State} (h : Here) (f : Group → Group) (hr : t.reaches = s.reaches) :
    (t.modG h f).reaches = (s.modG h f).reaches := by
  simp only [State.modG, State.modGroup, State.modCtb, State.modReach, hr]

theorem State.mine_congr {s t : State} (h : Here) (hr : t.reaches = s.reaches) : t.mine h = s.mine h := by
  simp only [State.mine, State.grpAt, State.ctb?, State.reach?, hr]

section
variable {s : State} {h : Here} {v : VecIn} {eff : State → Nat → List (Nat × LaneOut) → State × List (Nat × DWord)}
  {ws : List (Nat × Nat × List Byte)}

/-- An instruction without a destination whose effect stores bytes. -/
theorem vec_stores (hd : v.dst = none) (hr : Runs s h v.ops [])
    (hout : ∀ k ∈ h.lanes, (v.out h (s.readStreams h (streamsOf v.ops)).1 k).fault = none ∧
      (v.out h (s.readStreams h (streamsOf v.ops)).1 k).flags = 0)
    (he : ∃ w, Stored (s.readStreams h (streamsOf v.ops)).2 w ws ∧
      eff (s.readStreams h (streamsOf v.ops)).2 32 (s.outs h v) = (w, [])) :
    (s.vec h v none eff).faults = s.faults ∧ StoresLanes s (s.vec h v none eff) h v.ops ws := by
  have hnames : v.names = [] := by rw [VecIn.names, hd]
  obtain ⟨l, hreads, hnone⟩ := reads_readStreams s h (streamsOf v.ops)
  obtain ⟨w, hw, he⟩ := he
  rw [vec_all_flagless hout (hnames.symm ▸ hr), he]
  generalize (s.readStreams h (streamsOf v.ops)).2 = u at hreads hw
  obtain ⟨hreaches, hapart, hbesides, hscratch⟩ := hw
  have hown := hreads.1
  obtain ⟨x, hx, hmod⟩ := hreads.modG (h.ending v 0 [])
  have hux : u.apart = x.apart ∧ ∀ q, (u.core q).besides = (x.core q).besides ∧ (u.core q).scratch = (x.core q).scratch :=
    ⟨(congrArg State.apart hmod :), fun q => ⟨(congrArg (fun t : State => (t.core q).besides) hmod :),
      (congrArg (fun t : State => (t.core q).scratch) hmod :)⟩⟩
  have hreach : (w.modG h (h.ending v 0 [])).reaches = (s.modG h (fun g => h.ending v 0 [] (g.addSeen l))).reaches := by
    rw [State.reaches_modG_congr h _ hreaches, hmod]
    exact State.reaches_modG_congr h _ hx.fields.2.2.1
  have hall : w.apart = s.apart := (hapart.trans hux.1).trans hx.apart
  refine ⟨(congrArg (fun t : State => t.faults) hall :), _, ⟨?_, ⟨_, rfl, hreach⟩, hall, fun q => ?_, fun q => ?_⟩, ?_, rfl, ?_, ?_⟩
  · rw [State.mine_congr h hreach]
    exact State.mine_modG _ hr.1
  · exact ((hbesides q).trans (hux.2 q).1).trans (hx.besides q)
  · rw [State.core_modG, hscratch, (hux.2 q).2, hx.scratch]
    rfl
  · rw [Here.ending_bare]; rfl
  · rw [Here.ending_iflags, show (h.grp.addSeen l).iflags ||| 0 = _ from BitVec.or_zero, ite_self]
    rfl
  · rw [← hnames]
    exact Here.ending_sources h v 0 [] h.grp _ l hown hnone ⟨rfl, rfl, rfl⟩

end

/-- The bytes outside those of a store of lanes. -/
theorem outsideSame_of_stores {s t : State} {h : Here} {g : Group} {ks : List Nat} {pl : Nat → Nat × Nat} {bs : Nat → List Byte} {n : Nat}
    (hs : Stores s t h g (ks.map (fun k => ((pl k).1, (pl k).2, bs k)))) (hn : ∀ k ∈ ks, (bs k).length = n) : OutsideSame s t ks pl n := by
  obtain ⟨-, -, hframe, -, hscratch⟩ := hs
  refine ⟨fun a => (congrArg (fun x : State => rd x.dram a) hframe :), fun q a hwf hoff => ?_⟩
  rw [hscratch q]
  refine rd_storeAll_outside hwf fun w hw => ?_
  obtain ⟨k, hk, rfl⟩ := List.mem_map.1 hw
  rw [hn k hk]
  exact hoff k hk

/-! ### A store through a window -/

theorem Here.ending_lane (h : Here) (v : VecIn) (fl : Word) (rs : List (Nat × DWord)) (g : Group) :
    (h.ending v fl rs g).lane = g.lane := by
  change (h.ending v fl rs g).bare.lane = g.bare.lane
  rw [Here.ending_bare]

/-- A store as the skeleton runs it. -/
def Here.storeIn (h : Here) (w : Window) (ty : StTy) (base : Src) (off : Option Src) (disp : BitVec 18) (c : Src) : VecIn :=
  { ops := addrOps base off ++ [.src c (stWide ty)], lane := fun _ vs => storeOut h w ty off disp vs }

theorem exec_store {s : State} {h : Here} (hh : s.here = some h) (cluster : Bool) (ty : StTy) (base : Src) (off : Option Src)
    (disp : BitVec 18) (c : Src) : exec (if cluster then .cst ty base off disp c else .st ty base off disp c) s =
      .next (s.vec h (h.storeIn (if cluster then .cluster else .shared) ty base off disp c) none
        (storeEff h (if cluster then .cluster else .shared) (stSize ty) (if cluster then 6 else 2))) := by
  cases cluster <;> exact exec_withHere hh _

theorem exec_lst {s : State} {h : Here} (hh : s.here = some h) (ty : StTy) (base : Src) (off : Option Src) (disp : BitVec 18) (c : Src) :
    exec (.lst ty base off disp c) s = .next (s.vec h (h.storeIn .lane ty base off disp c) none (laneStoreEff h (stSize ty))) :=
  exec_withHere hh _

/-- The values that a lane of a store reads. -/
def State.storeSrcs (s : State) (h : Here) (ty : StTy) (base : Src) (off : Option Src) (c : Src) (k : Nat) : List DWord :=
  s.srcs h (addrOps base off ++ [.src c (stWide ty)]) k

/-- The address and the data of a lane of a store. -/
def State.storeAddr (s : State) (h : Here) (ty : StTy) (base : Src) (off : Option Src) (disp : BitVec 18) (c : Src) (k : Nat) : DWord :=
  effAddr off (disp.signExtend 64) (s.storeSrcs h ty base off c k)

def State.storeData (s : State) (h : Here) (ty : StTy) (base : Src) (off : Option Src) (c : Src) (k : Nat) : List Byte :=
  toBytes (stSize ty) ((s.storeSrcs h ty base off c k).getLastD 0).toNat

section
variable {s : State} {h : Here} {w : Window} {ty : StTy} {base : Src} {off : Option Src} {disp : BitVec 18} {c : Src}
  (hok : ∀ k ∈ h.lanes, ∃ o, h.checkAccess w (s.storeAddr h ty base off disp c k) (stSize ty) = .ok o)
include hok

theorem storeIn_out {k : Nat} (hk : k ∈ h.lanes) :
    (h.storeIn w ty base off disp c).out h (s.readStreams h (streamsOf (h.storeIn w ty base off disp c).ops)).1 k =
      { ea := some (s.storeAddr h ty base off disp c k), val := (s.storeSrcs h ty base off c k).getLastD 0
        store := some ((s.storeSrcs h ty base off c k).getLastD 0, stWide ty) } := by
  obtain ⟨o, ho⟩ := hok k hk
  change storeOut h w ty off disp (s.storeSrcs h ty base off c k) = _
  unfold State.storeAddr at ho
  simp only [storeOut, ho]
  rfl

theorem storeIn_outs : s.outs h (h.storeIn w ty base off disp c) = h.lanes.map (fun k => (k,
    { ea := some (s.storeAddr h ty base off disp c k), val := (s.storeSrcs h ty base off c k).getLastD 0
      store := some ((s.storeSrcs h ty base off c k).getLastD 0, stWide ty) })) :=
  List.map_congr_left fun k hk => by rw [storeIn_out hok hk]

/-- The lanes of a store to cores without symbol errors store in turn. -/
theorem store_stores {pl : Nat → Nat × Nat} {after : Nat} (hpl : ∀ k, pl k = h.place w (s.storeAddr h ty base off disp c k - windowBase w).toNat)
    (hr : Runs s h (addrOps base off ++ [.src c (stWide ty)]) []) (herrs : ∀ k ∈ h.lanes, (s.core (pl k).1).errs = []) :
    (s.vec h (h.storeIn w ty base off disp c) none (storeEff h w (stSize ty) after)).faults = s.faults ∧
      StoresLanes s (s.vec h (h.storeIn w ty base off disp c) none (storeEff h w (stSize ty) after)) h
        (addrOps base off ++ [.src c (stWide ty)]) (h.lanes.map (fun k => ((pl k).1, (pl k).2, s.storeData h ty base off c k))) := by
  obtain ⟨l, hreads, -⟩ := reads_readStreams s h (streamsOf (addrOps base off ++ [.src c (stWide ty)]))
  have hcores := (hreads.alike hr.1).2.1
  refine vec_stores (v := h.storeIn w ty base off disp c) rfl hr (fun k hk => by rw [storeIn_out hok hk]; exact ⟨rfl, rfl⟩)
    ⟨_, stored_lanes (h := h) (fun q => Core.errs_of_uncounted (hcores q)) herrs _ (s.storeAddr h ty base off disp c) after, ?_⟩
  have hbad : (s.readStreams h (streamsOf (h.storeIn w ty base off disp c).ops)).2.lostRows
      ((s.outs h (h.storeIn w ty base off disp c)).map fun o => ((h.target w o.2).1, (h.target w o.2).2, stSize ty)) = [] := by
    refine lostRows_of_errs_nil fun a ha => ?_
    rw [storeIn_outs hok, List.map_map] at ha
    obtain ⟨k, hk, rfl⟩ := List.mem_map.1 ha
    have hk' := herrs k hk
    rw [hpl] at hk'
    exact (Core.errs_of_uncounted (hcores _)).trans hk'
  rw [storeEff, hbad, storeIn_outs hok, List.foldl_map]
  simp only [hpl]
  rfl

/-- The lanes of a store to the lane store write their slices in turn (07 R222). -/
theorem lst_stores (hw : w = .lane) (hr : Runs s h (addrOps base off ++ [.src c (stWide ty)]) []) :
    ∃ t g, exec (.lst ty base off disp c) s = .next t ∧ t.faults = s.faults ∧ SameMem s t ∧ t.mine h = some g ∧
      OnlyGroup s t h g ∧ { g.bare with lane := [] } = { h.grp.bare with lane := [] } ∧ g.cursor = 32 ∧
      g.iflags = h.grp.iflags ∧ SourcesDone h.grp g (addrOps base off ++ [.src c (stWide ty)]) [] ∧
      g.lane = h.lanes.foldl (fun m k =>
        wrN m (1024 * k + (s.storeAddr h ty base off disp c k - laneBase).toNat) (s.storeData h ty base off c k)) h.grp.lane := by
  subst hw
  have hfold : ∀ g : Group, (s.outs h (h.storeIn .lane ty base off disp c)).foldl (fun (g : Group) o =>
      { g with lane := wrN g.lane (laneKey o.1 ((o.2.ea.getD 0) - laneBase).toNat) (toBytes (stSize ty) o.2.val.toNat) }) g =
        { g with lane := h.lanes.foldl (fun m k =>
          wrN m (1024 * k + (s.storeAddr h ty base off disp c k - laneBase).toNat) (s.storeData h ty base off c k)) g.lane } := by
    rw [storeIn_outs hok]
    induction h.lanes with
    | nil => exact fun _ => rfl
    | cons k ks ih => exact fun g => ih _
  obtain ⟨g, fl, l, hg, hfaults, hmem, hmine, honly, hcursor, hflags, hsrcs⟩ := vec_changes (v := h.storeIn .lane ty base off disp c)
    (eff := laneStoreEff h (stSize ty)) rfl hr (fun k hk => by rw [storeIn_out hok hk]; exact ⟨rfl, rfl⟩) (fun _ => rfl)
    fun g => by
      have := hfold g
      rw [State.outs] at this
      rw [this]
      exact ⟨rfl, rfl, rfl, rfl⟩
  rw [← State.outs, hfold] at hg
  refine ⟨_, g, exec_lst hr.1 ty base off disp c, hfaults, hmem, hmine, honly, ?_, hcursor, hflags, hsrcs, ?_⟩
  · rw [hg, Here.ending_bare]
    rfl
  · rw [hg]
    exact Here.ending_lane h _ _ _ _

end

end Sys2Proof.Machine

section
open Sys2Proof Sys2Proof.Machine

/-- Settles O28: the lanes of a store write in turn, to scratch or to their slices of the lane store. -/
theorem storeInstructions : Obligations.StoreInstructions := by
  unfold Obligations.StoreInstructions
  intro cluster ty base off disp c s h w i ops n ea data pl hr
  have hwide : stWide ty = (ty == .b64) := by cases ty <;> rfl
  have hsize : stSize ty = n := by cases ty <;> rfl
  have hea : s.storeAddr h ty base off disp c = ea := by
    funext k
    unfold State.storeAddr State.storeSrcs effAddr ea
    rw [hwide]
    cases off
    · exact congrArg (· + _) (BitVec.add_zero _).symm
    · rfl
  have hdata : s.storeData h ty base off c = data := by
    funext k
    unfold State.storeData State.storeSrcs data
    rw [hwide, hsize]
    cases off <;> rfl
  unfold ops at hr ⊢
  rw [← hwide] at hr ⊢
  rw [← hsize, ← hea, ← hdata]
  refine ⟨fun hok herrs => ?_, fun hok => lst_stores hok rfl hr⟩
  obtain ⟨hfaults, g, hstores, hrest⟩ := store_stores (after := if cluster then 6 else 2) hok (pl := pl) (fun k => by rw [hea]) hr herrs
  exact ⟨_, exec_store hr.1 cluster ty base off disp c, hfaults, outsideSame_of_stores hstores fun k _ => toBytes_length _ _, g,
    hstores, hrest⟩

end

/-! O29: the checks of an access, the lane that fails one, and the code of scratch (07 R209, R216, R217). -/
namespace Sys2Proof.Machine

/-! ### The checks of an access -/

theorem checkAccess_eq (h : Here) (w : Window) (ea : DWord) (n : Nat) : h.checkAccess w ea n =
    let o := ea.toNat - (windowBase w).toNat
    if ea.toNat < (windowBase w).toNat ∨ (windowBase w).toNat + h.windowSize w ≤ ea.toNat then .error cAperture
    else if w = .lane ∧ h.launch.record.lsbytes ≤ o then .error cLaneStoreBound
    else if w = .cluster ∧ h.launch.record.scrbytes ≤ o % 2097152 then .error cAperture
    else if o % n = 0 then .ok o else .error cMisalign := by
  have hwin : h.inWindow w ea = false ↔
      ea.toNat < (windowBase w).toNat ∨ (windowBase w).toNat + h.windowSize w ≤ ea.toNat := by
    rw [Here.inWindow, Bool.and_eq_false_iff, decide_eq_false_iff_not, decide_eq_false_iff_not, not_le, not_lt]
  unfold Here.checkAccess
  dsimp only
  by_cases hout : ea.toNat < (windowBase w).toNat ∨ (windowBase w).toNat + h.windowSize w ≤ ea.toNat
  · rw [if_pos (hwin.2 hout), if_pos hout]
  · have hoff : (ea - windowBase w).toNat = ea.toNat - (windowBase w).toNat :=
      BitVec.toNat_sub_of_le (BitVec.le_def.2 (not_lt.1 (not_or.1 hout).1))
    rw [if_neg (mt hwin.1 hout), if_neg hout, hoff, ite_not]

/-! ### A lane that fails a check -/

/-- `u` stands where `s` does, with the same memories, faults and lane store of the executing group. -/
def Untouched (s : State) (h : Here) (u : State) : Prop :=
  u.faults = s.faults ∧ SameMem s u ∧ ∃ x, u.here = some x ∧ x.cur = h.cur ∧ x.grp.lane = h.grp.lane

theorem Reads.untouched {s u : State} {h : Here} {l : List Seen} (hh : s.here = some h) (hr : Reads s h l u) : Untouched s h u := by
  obtain ⟨hcores, hdram, hfaults⟩ := hr.core
  refine ⟨hfaults, ⟨fun a => by rw [hdram], fun q a => by rw [(hcores q).1]⟩, ?_⟩
  obtain ⟨-, v, hc, ⟨-, rfl⟩ | rfl⟩ := hr
  · exact ⟨h, hc.here.trans hh, rfl, rfl⟩
  · exact ⟨_, State.here_modG _ (hc.here.trans hh), rfl, rfl⟩

theorem State.modG_of_cur (s : State) {h x : Here} (hc : x.cur = h.cur) (f : Group → Group) : s.modG h f = s.modG x f := by
  rw [State.modG, State.modG, hc]

theorem Untouched.modG {s u : State} {h : Here} (hu : Untouched s h u) {f : Group → Group} (hf : ∀ g, (f g).lane = g.lane) :
    Untouched s h (u.modG h f) := by
  obtain ⟨hfaults, hmem, x, hx, hcur, hlane⟩ := hu
  refine ⟨hfaults, hmem, ?_⟩
  rw [State.modG_of_cur u hcur]
  exact ⟨_, State.here_modG f hx, hcur, (hf _).trans hlane⟩

theorem Untouched.put {s u : State} {h : Here} (hu : Untouched s h u) (d : Dst) (w64 : Bool) (n : Nat) (lanes : Word) (vals : List DWord)
    (fl : Word) : Untouched s h (u.put h d w64 n lanes vals fl) := by
  unfold State.put
  split
  · exact hu
  · refine hu.modG fun g => ?_
    exact (congrArg (fun x : Group => x.lane) (Group.allocs_rest g (dstNames d w64)) :)

/-- A cause raised at a lane: the fault, and the cursor at the lane. -/
theorem Untouched.raiseAt {s u : State} {h : Here} (hu : Untouched s h u) (cause : Nat) (addr : DWord) (k : Nat) :
    ∃ f g, (u.raiseAt h false cause addr k).faults = s.faults ++ [f] ∧ f.cause = cause ∧ f.addr = addr ∧ f.lane = k ∧ f.tlane = k ∧
      f.wide = false ∧ f.pc = h.cur.pc ∧ f.res = h.cur.pc ∧ SameMem s (u.raiseAt h false cause addr k) ∧
      (u.raiseAt h false cause addr k).mine h = some g ∧ g.cursor = k ∧ g.lane = h.grp.lane := by
  obtain ⟨hfaults, hmem, x, hx, hcur, hlane⟩ := hu
  have hmine := State.mine_modG (h := x) (fun g => { g with cursor := k, again := g.again || !false }) hx
  rw [← State.modG_of_cur u hcur] at hmine
  have hhere : (u.raiseAt h false cause addr k).mine h = (u.raiseAt h false cause addr k).mine x := by
    rw [State.mine, State.mine, hcur]
  exact ⟨_, _, congrArg (· ++ _) hfaults, rfl, rfl, rfl, rfl, rfl, rfl, rfl, hmem, hhere.trans hmine, rfl, hlane⟩

/-- The results of the lanes that ran are put in flight, and no flag. -/
def VecIn.deliver (v : VecIn) (h : Here) (r : State × List (Nat × DWord)) : State :=
  match v.dst with
  | some d => r.1.put h d v.w64 v.land (laneMask r.2) (laneVals r.2) 0
  | none => r.1

theorem VecIn.deliver_none {v : VecIn} (hd : v.dst = none) (h : Here) (r : State × List (Nat × DWord)) : v.deliver h r = r.1 := by
  simp only [VecIn.deliver, hd]

theorem VecIn.deliver_some {v : VecIn} {d : Dst} (hd : v.dst = some d) (h : Here) (r : State × List (Nat × DWord)) :
    v.deliver h r = r.1.put h d v.w64 v.land (laneMask r.2) (laneVals r.2) 0 := by
  simp only [VecIn.deliver, hd]

theorem Untouched.deliver {s : State} {h : Here} {r : State × List (Nat × DWord)} (hu : Untouched s h r.1) (v : VecIn) :
    Untouched s h (v.deliver h r) := by
  cases hd : v.dst with
  | none => rw [VecIn.deliver_none hd]; exact hu
  | some d => rw [VecIn.deliver_some hd]; exact hu.put d v.w64 v.land _ _ 0

/-- The end of an instruction whose first lane faults. -/
theorem vecEnd_firstFault {s : State} {h : Here} {v : VecIn} {eff : State → Nat → List (Nat × LaneOut) → State × List (Nat × DWord)}
    (hw : v.wide = none) (howed : (if h.cur.handler then none else h.grp.halting) = none) (k cause : Nat) (addr : DWord) :
    s.vecEnd h v { Lanes.start (s.core h.q).bcnctl with fault := some (k, cause, addr) } eff =
      (v.deliver h (eff s k [])).raiseAt h false cause addr k := by
  have hhalted : ({ Lanes.start (s.core h.q).bcnctl with fault := some (k, cause, addr) } : Lanes).halted = [] := ite_self _
  unfold State.vecEnd
  dsimp only
  rw [hhalted]
  simp only [Lanes.start, beq_self_eq_true, if_true, State.logBeacons, List.foldl_nil, List.filter_nil, State.setFlags, ite_self,
    Option.isNone_some, Bool.false_and, Bool.false_eq_true, if_false, howed, Halting.join, List.head?_nil, Option.map_none,
    State.oweHalts, VecIn.result_lane hw]
  cases hd : v.dst with
  | none => rw [VecIn.deliver_none hd]
  | some d => rw [VecIn.deliver_some hd]

/-- An instruction whose first lane faults stops there, with the effect of no lane. -/
theorem vec_firstFault {s : State} {h : Here} {v : VecIn} {eff : State → Nat → List (Nat × LaneOut) → State × List (Nat × DWord)}
    (hw : v.wide = none) (hr : Runs s h v.ops v.names) {k : Nat} {ks : List Nat} (hlanes : h.lanes = k :: ks) {cause : Nat} {addr : DWord}
    (hfault : (v.out h (s.readStreams h (streamsOf v.ops)).1 k).fault = some (cause, addr)) :
    let r := eff (s.readStreams h (streamsOf v.ops)).2 k []
    s.vec h v none eff = (v.deliver h r).raiseAt h false cause addr k := by
  obtain ⟨-, hcursor, honly, hundef, hquota, hstreams, hlatch, hquiet⟩ := hr
  have hwritten : v.written h.grp = v.names := if_neg (by simp [hw])
  have hfits : ¬ (h.grp.allocates (v.ops.flatMap Opnd.frees) v.names &&
      decide (h.limit < h.grp.wouldHold (v.ops.flatMap Opnd.frees) v.names)) = true := by
    rw [Bool.and_eq_true, decide_eq_true_iff]
    exact fun ⟨ha, hl⟩ => absurd (hquota ha) hl.not_ge
  have hlost : v.lost h k = none := by
    rw [VecIn.lost, hw]
    exact List.findSome?_eq_none_iff.2 (hlatch k (by rw [hlanes]; simp))
  have howed : (if h.cur.handler then none else h.grp.halting) = none := by
    rcases hquiet with hq | hq
    · rw [hq]; rfl
    · rw [hq.1, ite_self]
  unfold State.vec
  simp only [hwritten]
  rw [if_neg (by omega), hundef]
  simp only [hstreams]
  rw [if_neg hfits, hlanes]
  simp only [runLanes, hlost, hfault]
  exact vecEnd_firstFault hw howed k cause addr

/-- What a fault in the first lane leaves, where the effect of no lane changes nothing (07 R209). -/
theorem firstFault_spec {i : Instr} {s : State} {h : Here} {v : VecIn}
    {eff : State → Nat → List (Nat × LaneOut) → State × List (Nat × DWord)} (hi : exec i s = .next (s.vec h v none eff)) (hw : v.wide = none)
    (hr : Runs s h v.ops v.names) {k : Nat} {ks : List Nat} (hlanes : h.lanes = k :: ks) {cause : Nat} {addr : DWord}
    (hfault : (v.out h (s.readStreams h (streamsOf v.ops)).1 k).fault = some (cause, addr))
    (heff : ∀ u, Untouched s h u → Untouched s h (eff u k []).1) :
    ∃ t f g, exec i s = .next t ∧ t.faults = s.faults ++ [f] ∧ f.cause = cause ∧ f.addr = addr ∧ f.lane = k ∧ f.tlane = k ∧ f.wide = false ∧
      f.pc = h.cur.pc ∧ f.res = h.cur.pc ∧ SameMem s t ∧ t.mine h = some g ∧ g.cursor = k ∧ g.lane = h.grp.lane := by
  obtain ⟨l, hreads, -⟩ := reads_readStreams s h (streamsOf v.ops)
  have hu := heff _ (hreads.untouched hr.1)
  rw [hi, vec_firstFault hw hr hlanes hfault]
  obtain ⟨f, g, hspec⟩ := (hu.deliver v).raiseAt cause addr k
  exact ⟨_, f, g, rfl, hspec⟩

/-! ### The code (07 R216) -/

theorem gfX_xor (a b : Byte) : gfX (a ^^^ b) = gfX a ^^^ gfX b := by
  have hx : ∀ x : Byte, gfX x = (x <<< 1) ^^^ (if x.getLsbD 7 then 0x1D else 0) := fun x => by
    unfold gfX; split
    · rfl
    · exact BitVec.xor_zero.symm
  rw [hx, hx a, hx b, BitVec.getLsbD_xor, BitVec.shiftLeft_xor_distrib]
  cases a.getLsbD 7 <;> cases b.getLsbD 7
  · simp
  · simp [BitVec.xor_assoc]
  · simp only [Bool.xor_false, if_true, Bool.false_eq_true, if_false]
    ac_rfl
  · simp only [Bool.xor_true, Bool.not_true, Bool.false_eq_true, if_false, if_true]
    rw [show ∀ x y z : Byte, (x ^^^ z) ^^^ (y ^^^ z) = (x ^^^ y) ^^^ (z ^^^ z) from fun x y z => by ac_rfl,
      BitVec.xor_self]
    rfl

theorem gfXn_xor (a b : Byte) (n : Nat) : gfXn (a ^^^ b) n = gfXn a n ^^^ gfXn b n := by
  induction n with
  | zero => rfl
  | succ n ih => rw [gfXn, ih, gfX_xor]; rfl

theorem gfXn_add (b : Byte) (m n : Nat) : gfXn b (m + n) = gfXn (gfXn b m) n := by
  induction n with
  | zero => rfl
  | succ n ih => exact congrArg gfX ih

theorem gfX_eq_zero : ∀ b : Byte, gfX b = 0 → b = 0 := by decide

theorem gfXn_eq_zero {b : Byte} {n : Nat} (h : gfXn b n = 0) : b = 0 := by
  induction n with
  | zero => exact h
  | succ n ih => exact ih (gfX_eq_zero _ h)

theorem gfXn_injective (n : Nat) {a b : Byte} (h : gfXn a n = gfXn b n) : a = b := by
  have hz : gfXn (a ^^^ b) n = 0 := by rw [gfXn_xor, h, BitVec.xor_self]; rfl
  exact BitVec.xor_eq_zero_iff.1 (gfXn_eq_zero hz)

/-- No power of x below the tenth leaves a symbol as it is. -/
theorem gfXn_ne_self : ∀ d : Fin 9, ∀ e : Byte, gfXn e (d + 1) = e → e = 0 := by decide

/-- The powers of the banks tell them apart. -/
theorem bank_of_power {b c : Nat} {e : Byte} (hb : b < 10) (hc : c < 10) (he : e ≠ 0)
    (h : gfXn e (bankPower b) = gfXn e (bankPower c)) : b = c := by
  wlog hle : b ≤ c generalizing b c
  · exact (this hc hb h.symm (by omega)).symm
  by_contra hne
  have hsplit : bankPower b = (c - b) + bankPower c := by unfold bankPower; omega
  rw [hsplit, gfXn_add] at h
  have hself := gfXn_injective _ h
  have hd : (⟨c - b - 1, by omega⟩ : Fin 9).val + 1 = c - b := by show c - b - 1 + 1 = c - b; omega
  exact he (gfXn_ne_self ⟨c - b - 1, by omega⟩ e (by rw [hd]; exact hself))

theorem syndromes_one (b : Nat) (e : Byte) : syndromes [(b, e)] = (e, gfXn e (bankPower b)) := by
  simp [syndromes]

theorem syndromes_two (b c : Nat) (e f : Byte) :
    syndromes [(b, e), (c, f)] = (e ^^^ f, gfXn e (bankPower b) ^^^ gfXn f (bankPower c)) := by
  simp [syndromes]

theorem addErr_same (b : Nat) (e : Byte) : addErr b e [(b, e)] = [] := by
  simp [addErr, look]

theorem singleError_power {b : Nat} {e : Byte} (hb : b < 10) (he : e ≠ 0) : singleError e (gfXn e (bankPower b)) = some b := by
  unfold singleError
  obtain ⟨c, hc⟩ : ∃ c, (List.range 10).find? (fun c => gfXn e (bankPower c) == gfXn e (bankPower b)) = some c :=
    Option.isSome_iff_exists.1 (List.find?_isSome.2 ⟨b, List.mem_range.2 hb, beq_self_eq_true _⟩)
  rw [hc, bank_of_power (List.mem_range.1 (List.mem_of_find?_eq_some hc)) hb he (by simpa using List.find?_some hc)]

section
variable {b c : Nat} {e f : Byte} (hb : b < 10) (hc : c < 10) (he : e ≠ 0)

include hb he in
/-- Without a marked bank an error in one symbol is corrected (07 R217). -/
theorem decodeCol_corrects : decodeCol 15 [(b, e)] = some ([], some b) := by
  have he' : ¬ e = 0#8 := he
  simp [decodeCol, syndromes_one, singleError_power hb he, addErr_same, he']

include hb in
/-- An error of the marked bank is rebuilt. -/
theorem decodeCol_rebuilds : decodeCol b [(b, e)] = some ([], none) := by
  simp [decodeCol, syndromes_one, addErr_same, hb]

include hb hc in
/-- An error of another bank is found. -/
theorem decodeCol_finds (hcb : c ≠ b) (hf : f ≠ 0) : decodeCol b [(c, f)] = none ∧ decodeCol b [(b, e), (c, f)] = none := by
  have hne : gfXn f (bankPower b) ≠ gfXn f (bankPower c) := fun h => hcb (bank_of_power hb hc hf h).symm
  constructor
  · simp [decodeCol, syndromes_one, hb, hne]
  · simp [decodeCol, syndromes_two, hb, gfXn_xor, hne]

/-- Two errors are never taken for none. -/
theorem decodeCol_two : decodeCol 15 [(b, e), (c, f)] ≠ some ([], none) := by
  simp only [decodeCol, syndromes_two]
  rw [if_neg (by decide)]
  split
  · simp
  split
  · split <;> simp
  · simp

end

/-! ### The faults of loads and stores -/

theorem loadOut_of_error {h : Here} {w : Window} {ty : LdTy} {ea : DWord} {c : Nat} (he : h.checkAccess w ea (ldSize ty) = .error c) :
    (h.loadOut w ty ea).fault = some (c, ea) := by
  rw [Here.loadOut, he]

theorem laneLoadOut_of_error {h : Here} {ty : LdTy} {k : Nat} {ea : DWord} {c : Nat} (he : h.checkAccess .lane ea (ldSize ty) = .error c) :
    (h.laneLoadOut ty k ea).fault = some (c, ea) := by
  rw [Here.laneLoadOut, he]

theorem storeOut_of_error {h : Here} {w : Window} {ty : StTy} {off : Option Src} {disp : BitVec 18} {vs : List DWord} {c : Nat}
    (he : h.checkAccess w (effAddr off (disp.signExtend 64) vs) (stSize ty) = .error c) :
    (storeOut h w ty off disp vs).fault = some (c, effAddr off (disp.signExtend 64) vs) := by
  rw [storeOut, he]

/-- A load of the lane store as the skeleton runs it. -/
def Here.laneLoadIn (h : Here) (ty : LdTy) (d : Dst) (base : Src) (off : Option Src) (disp : Option Word) : VecIn :=
  { ops := addrOps base off, dst := some d, w64 := ldWide ty
    lane := fun k vs => h.laneLoadOut ty k (effAddr off ((disp.getD 0).signExtend 64) vs) }

theorem exec_lld {s : State} {h : Here} (hh : s.here = some h) (ty : LdTy) (d : Dst) (base : Src) (off : Option Src) (disp : Option Word) :
    exec (.lld ty d base off disp) s = .next (s.vec h (h.laneLoadIn ty d base off disp) none justVals) :=
  exec_withHere hh _

end Sys2Proof.Machine

section
open Sys2Proof Sys2Proof.Machine

/-- Settles O29: the checks by cases, the first lane's fault for each load and store, and the code by the powers of the banks. -/
theorem scratchAccess : Obligations.ScratchAccess := by
  unfold Obligations.ScratchAccess
  refine ⟨⟨fun h w ea n _ => checkAccess_eq h w ea n, ⟨rfl, rfl, rfl⟩, fun h => ⟨rfl, rfl, rfl⟩, ?_⟩, ?_⟩
  · intro lt st d base c off x y i s h k l e ea hcase
    have hld : (lt == .b64) = ldWide lt := by cases lt <;> rfl
    have hst : (st == .b64) = stWide st := by cases st <;> rfl
    rw [hld, hst] at hcase
    rcases hcase with ⟨w, hi, hr, hlanes, rfl, hbad⟩ | ⟨w, hi, hr, hlanes, rfl, hbad⟩
    · rcases hi with ⟨rfl, rfl⟩ | ⟨rfl, rfl⟩ | ⟨rfl, rfl⟩
      · exact firstFault_spec (exec_load hr.1 false lt d base off x) rfl hr hlanes (loadOut_of_error hbad) fun _ hu => hu
      · exact firstFault_spec (exec_lld hr.1 lt d base off x) rfl hr hlanes (laneLoadOut_of_error hbad) fun _ hu => hu
      · exact firstFault_spec (exec_load hr.1 true lt d base off x) rfl hr hlanes (loadOut_of_error hbad) fun _ hu => hu
    · rcases hi with ⟨rfl, rfl⟩ | ⟨rfl, rfl⟩ | ⟨rfl, rfl⟩
      · exact firstFault_spec (exec_store hr.1 false st base off y c) rfl hr hlanes (storeOut_of_error hbad) fun _ hu => hu
      · exact firstFault_spec (exec_lst hr.1 st base off y c) rfl hr hlanes (storeOut_of_error hbad) fun _ hu => hu.modG fun _ => rfl
      · exact firstFault_spec (exec_store hr.1 true st base off y c) rfl hr hlanes (storeOut_of_error hbad) fun _ hu => hu
  · intro b c e f hb hc he
    exact ⟨rfl, decodeCol_corrects hb he, decodeCol_rebuilds hb, fun hcb hf => decodeCol_finds hb hc hcb hf, fun _ _ => decodeCol_two⟩

end

/-! O30: the shape of a stream, and the elements it delivers (07 R232 to R234). -/
namespace Sys2Proof.Machine

/-! ### The odometer -/

/-- Positions as the digits of a number, lowest first, whose bases are the extents. -/
def mixedRadix : List Nat → List Nat → Nat
  | p :: ps, e :: es => p + e * mixedRadix ps es
  | _, _ => 0

theorem mixedRadix_lt {ps es : List Nat} (h : List.Forall₂ (· < ·) ps es) : mixedRadix ps es < es.prod := by
  induction h with
  | nil => decide
  | @cons p e ps es hp _ ih =>
    rw [mixedRadix, List.prod_cons]
    calc p + e * mixedRadix ps es < e * (mixedRadix ps es + 1) := by rw [Nat.mul_succ]; omega
      _ ≤ e * es.prod := Nat.mul_le_mul_left e ih

/-- The odometer counts by one and carries at the last count (07 R233). -/
theorem odometer_counts {ps es : List Nat} (h : List.Forall₂ (· < ·) ps es) :
    mixedRadix (odometer ps es).1 es = (mixedRadix ps es + 1) % es.prod ∧
      ((odometer ps es).2 = true ↔ mixedRadix ps es + 1 = es.prod) := by
  induction h with
  | nil => exact ⟨rfl, by decide⟩
  | @cons p e ps es hp hps ih =>
    obtain ⟨hcount, hcarry⟩ := ih
    rw [odometer, List.prod_cons]
    split
    case isTrue hlt =>
      have hroom : p + e * mixedRadix ps es + 1 < e * es.prod :=
        calc p + e * mixedRadix ps es + 1 < e * (mixedRadix ps es + 1) := by rw [Nat.mul_succ]; omega
          _ ≤ e * es.prod := Nat.mul_le_mul_left e (mixedRadix_lt hps)
      simp only [mixedRadix, Bool.false_eq_true, false_iff]
      rw [Nat.mod_eq_of_lt hroom]
      omega
    case isFalse hge =>
      have hlast : p + e * mixedRadix ps es + 1 = e * (mixedRadix ps es + 1) := by rw [Nat.mul_succ]; omega
      simp only [mixedRadix]
      rw [hlast, Nat.mul_mod_mul_left, hcount, hcarry, Nat.zero_add]
      exact ⟨rfl, (Nat.mul_right_inj (by omega)).symm⟩

theorem odometer_length (ps es : List Nat) : (odometer ps es).1.length = ps.length := by
  induction ps generalizing es with
  | nil => cases es <;> rfl
  | cons p ps ih =>
    cases es with
    | nil => rfl
    | cons e es =>
      rw [odometer]
      split
      · rfl
      · exact congrArg (· + 1) (ih es)

/-! ### What a read delivers while every unseen write of the core is as late as the reader's stamp -/

/-- What a read of bytes delivers as they stood before the writes of a stamp. -/
def Core.bytesBefore (c : Core) (stamp a n : Nat) : List Byte :=
  if c.fresh.any (fun f => f.addr == 8 * (a / 8)) then
    ((toBytes 8 (wordBefore stamp (8 * (a / 8)) (BitVec.ofNat 64 (ofBytes (c.bytes (8 * (a / 8)) 8))) c.fresh).toNat).drop
      (a - 8 * (a / 8))).take n
  else c.bytes a n

theorem scrPick_before {s : State} {q a n path stamp : Nat} {view : List Seen} (herr : (s.core q).errs = [])
    (hlate : ∀ f ∈ (s.core q).fresh, stamp ≤ f.stamp) :
    s.scrPick q a n path view stamp = ((s.core q).bytesBefore stamp a n, [], s) := by
  have hcorr : (s.core q).corrections a n = [] := if_pos (by rw [herr]; rfl)
  have hany : ((s.core q).fresh.any fun f => f.addr == 8 * (a / 8) && (decide (stamp ≤ f.stamp) ||
      (List.range n).any (fun i => !f.visible path q view (a + i)))) = (s.core q).fresh.any (fun f => f.addr == 8 * (a / 8)) := by
    rw [Bool.eq_iff_iff, List.any_eq_true, List.any_eq_true]
    exact exists_congr fun f => and_congr_right fun hf => by simp [hlate f hf]
  have hold : (s.core q).fresh.filter (fun f => decide (f.stamp < stamp)) = [] :=
    List.filter_eq_nil_iff.2 fun f hf => by simp [hlate f hf]
  unfold State.scrPick
  simp only [hcorr, hany, hold, State.countCorr, List.foldl_nil, List.reverse_nil, pickWord, Core.bytesBefore]
  split <;> rfl

/-- The read of one element of a stream as it stood before the writes of a stamp. -/
def State.streamElt (s : State) (h : Here) (n : BitVec 4) (stamp k : Nat) : DWord × State :=
  let r := s.groupRead h h.q (h.phys ((h.grp.stream n).off k).toNat) (eszSize (h.grp.stream n).esz) stamp
  (eszExt (h.grp.stream n).esz (ofBytes r.1), r.2)

theorem streamVec_eq (s : State) (h : Here) (n : BitVec 4) : s.streamVec h n = (List.range (min 32 (h.grp.stream n).ext0)).foldl
    (fun a k => (a.1 ++ [(a.2.streamElt h n (h.grp.markAt (h.rg.pos - 2) s.wseq) k).1],
      (a.2.streamElt h n (h.grp.markAt (h.rg.pos - 2) s.wseq) k).2)) ([], s) := rfl

/-- Reads that leave the state as it is deliver their values in turn. -/
theorem foldl_still {s : State} {read : State → Nat → DWord × State} {f : Nat → DWord} (hread : ∀ k, read s k = (f k, s)) (l : List Nat)
    (vs : List DWord) : l.foldl (fun a k => (a.1 ++ [(read a.2 k).1], (read a.2 k).2)) (vs, s) = (vs ++ l.map f, s) := by
  induction l generalizing vs with
  | nil => simp
  | cons k l ih => rw [List.foldl_cons, hread, ih]; simp

/-- The element of a lane of a stream whose core holds no earlier unseen write. -/
theorem streamVec_getD {s : State} {h : Here} {n : BitVec 4} (herr : (s.core h.q).errs = [])
    (hlate : ∀ f ∈ (s.core h.q).fresh, h.grp.markAt (h.rg.pos - 2) s.wseq ≤ f.stamp) {k : Nat} (hk : k < 32)
    (hext : k < (h.grp.stream n).ext0) : (s.streamVec h n).1.getD k 0 = eszExt (h.grp.stream n).esz
      (ofBytes ((s.core h.q).bytesBefore (h.grp.markAt (h.rg.pos - 2) s.wseq) (h.phys ((h.grp.stream n).off k).toNat)
        (eszSize (h.grp.stream n).esz))) := by
  have hread : ∀ k, s.streamElt h n (h.grp.markAt (h.rg.pos - 2) s.wseq) k = (_, s) := fun k => by
    rw [State.streamElt, State.groupRead, scrPick_before herr hlate]; rfl
  rw [streamVec_eq, foldl_still (read := fun u k => u.streamElt h n (h.grp.markAt (h.rg.pos - 2) s.wseq) k) hread]
  simp [hk, hext]

theorem foldl_snoc_length {α β σ : Type} (f : List β × σ → α → β) (g : List β × σ → α → σ) (l : List α) (a : List β × σ) :
    (l.foldl (fun a x => (a.1 ++ [f a x], g a x)) a).1.length = a.1.length + l.length := by
  induction l generalizing a with
  | nil => rfl
  | cons x l ih => rw [List.foldl_cons, ih]; simp; omega

theorem streamVec_length (s : State) (h : Here) (n : BitVec 4) : (s.streamVec h n).1.length = min 32 (h.grp.stream n).ext0 := by
  rw [streamVec_eq, foldl_snoc_length]; simp

/-! ### Bytes of a word -/

theorem toBytes_drop_take {m n v i : Nat} (h : i + n ≤ m) : ((toBytes m v).drop i).take n = toBytes n (v / 256 ^ i) := by
  induction i generalizing m v with
  | zero =>
    induction n generalizing m v with
    | zero => simp [toBytes]
    | succ n ih =>
      obtain ⟨m, rfl⟩ : ∃ l, m = l + 1 := ⟨m - 1, by omega⟩
      have := ih (m := m) (v := v / 256) (by omega)
      simp only [List.drop_zero, pow_zero, Nat.div_one] at this ⊢
      rw [toBytes, List.take_succ_cons, this, toBytes]
  | succ i ih =>
    obtain ⟨m, rfl⟩ : ∃ l, m = l + 1 := ⟨m - 1, by omega⟩
    rw [toBytes, List.drop_succ_cons, ih (by omega), Nat.div_div_eq_div_mul, pow_succ']

/-- A word written whole reads before the write as it stood. -/
theorem mixBytes_all (new old : DWord) : mixBytes 255 new old = new := by
  have hbytes : (List.range 8).map (fun i => if (255 : BitVec 8).getLsbD i then (toBytes 8 new.toNat).getD i 0
      else (toBytes 8 old.toNat).getD i 0) = toBytes 8 new.toNat := by
    simp [List.range_succ, toBytes]
  rw [mixBytes, hbytes, ofBytes_toBytes, show (256 ^ 8 : Nat) = 2 ^ 64 from rfl, Nat.mod_eq_of_lt new.isLt, BitVec.ofNat_toNat,
    BitVec.setWidth_eq]

/-- A word whose one unseen write is late and whole reads as before it. -/
theorem bytesBefore_one {c : Core} {f : Fresh} {stamp a n : Nat} (hfresh : c.fresh = [f]) (haddr : f.addr = 8 * (a / 8))
    (hmask : f.mask = 255) (hlate : stamp ≤ f.stamp) (hn : a % 8 + n ≤ 8) :
    ofBytes (c.bytesBefore stamp a n) = f.old.toNat / 2 ^ (8 * (a % 8)) % 2 ^ (8 * n) := by
  have hword : ∀ v, wordBefore stamp (8 * (a / 8)) v c.fresh = f.old := fun v => by
    rw [wordBefore, hfresh, List.filter_cons_of_pos (by simp [haddr, hlate])]
    exact (congrArg (mixBytes · f.old _) hmask).trans (mixBytes_all _ _)
  have hoff : a - 8 * (a / 8) = a % 8 := by omega
  rw [Core.bytesBefore, if_pos (by simp [hfresh, haddr]), hword, hoff, toBytes_drop_take hn, ofBytes_toBytes,
    show (256 : Nat) = 2 ^ 8 from rfl, ← pow_mul, ← pow_mul]

end Sys2Proof.Machine

section
open Sys2Proof Sys2Proof.Machine

/-- Settles O30: the odometer as a mixed-radix count, and the reads of a stream's elements one by one. -/
theorem streamShapes : Obligations.StreamShapes := by
  unfold Obligations.StreamShapes
  refine ⟨?_, ?_⟩
  · intro b s0 s1 s2 s3 s4 z w e0 a e1 e2 e3 e4 p1 p2 p3 p4 k h1 h2 h3 h4 d count
    obtain ⟨hcount, hcarry⟩ := odometer_counts (ps := [p1, p2, p3, p4]) (es := [e1, e2, e3, e4]) (by simp [h1, h2, h3, h4])
    have hprod : [e1, e2, e3, e4].prod = e1 * e2 * e3 * e4 := by simp [Nat.mul_assoc]
    have hdigits : ∀ l : List Nat, l.length = 4 → mixedRadix l [e1, e2, e3, e4] = count l := fun l hl => by
      match l, hl with
      | [_, _, _, _], _ => simp [count, mixedRadix]
    have hpos : mixedRadix [p1, p2, p3, p4] [e1, e2, e3, e4] = count d.pos := hdigits _ rfl
    rw [hprod, hpos] at hcount hcarry
    rw [hdigits _ (odometer_length _ _)] at hcount
    refine ⟨?_, hcount, ?_, rfl⟩
    · show (b.toNat : Int) + k * s0.toInt + (p1 * s1.toInt + (p2 * s2.toInt + (p3 * s3.toInt + (p4 * s4.toInt + 0)))) = _
      ring
    · show (w || (odometer [p1, p2, p3, p4] [e1, e2, e3, e4]).2) = true ↔ _
      rw [Bool.or_eq_true, hcarry]
  · intro s h n k hk d c ext a
    have hext : ∀ x, ext x = eszExt d.esz x := fun x => by
      show (match d.esz with | .i16 => _ | .i8 => _ | _ => _) = _
      cases d.esz <;> rfl
    refine ⟨fun hlt herr hfresh => ?_, fun f hlt herr hfresh haddr hmask hn hlate => ?_, fun hge => ?_⟩
    · rw [streamVec_getD herr (by simp [show (s.core h.q).fresh = [] from hfresh]) hk hlt, hext, Core.bytesBefore,
        show (s.core h.q).fresh = [] from hfresh, List.any_nil, if_neg Bool.false_ne_true, Core.bytes_of_errs_nil herr]
      rfl
    · rw [streamVec_getD herr (by simpa [show (s.core h.q).fresh = [f] from hfresh] using hlate) hk hlt, hext]
      exact congrArg _ (bytesBefore_one hfresh haddr hmask hlate hn)
    · exact List.getD_eq_default _ _ ((streamVec_length s h n).trans_le ((min_le_right ..).trans hge))

end

/-! O31: the instructions on streams (07 R238 to R241). -/
namespace Sys2Proof.Machine

/-! ### The shape that `sdset` gives -/

theorem lo32_eq_ofNat (x : DWord) : lo32 x = BitVec.ofNat 32 x.toNat := BitVec.eq_of_toNat_eq (by simp [lo32])

theorem hi32_eq_ofNat (x : DWord) : hi32 x = BitVec.ofNat 32 (x.toNat / 2 ^ 32) :=
  BitVec.eq_of_toNat_eq (by simp [hi32, Nat.shiftRight_eq_div_pow])

theorem hi32_eq_zero_iff (x : DWord) : hi32 x = 0 ↔ x.toNat / 2 ^ 32 = 0 := by
  have hx := x.isLt
  rw [hi32_eq_ofNat, ← BitVec.toNat_inj, BitVec.toNat_ofNat, Nat.mod_eq_of_lt (by omega)]
  rfl

theorem word16_eq (x : DWord) (i : Nat) : word16 x i = x.toNat / 2 ^ (16 * i) % 2 ^ 16 := by
  rw [word16, BitVec.extractLsb'_toNat, Nat.shiftRight_eq_div_pow]

theorem word16_top (x : DWord) : word16 x 3 = x.toNat / 2 ^ 48 := by
  have hx := x.isLt
  rw [word16_eq]
  exact Nat.mod_eq_of_lt (by omega)

/-- The constants of `sdset` as numbers (07 Table 7.10). -/
theorem sdsetShape_eq (h : Here) (esz : Esz) (a : BitVec 6) (base : Word) (ext0 : BitVec 6) : sdsetShape h esz a base ext0 =
    { base := base, esz := esz, wrap := false, ext0 := ext0.toNat, pos := [0, 0, 0, 0], setAt := 0
      ext := [(h.k (a + 2)).toNat / 2 ^ 32 % 2 ^ 16, (h.k (a + 2)).toNat / 2 ^ 48, (h.k (a + 3)).toNat % 2 ^ 16,
        (h.k (a + 3)).toNat / 2 ^ 16 % 2 ^ 16]
      stride := [BitVec.ofNat 32 (h.k (a + 0)).toNat, BitVec.ofNat 32 ((h.k (a + 0)).toNat / 2 ^ 32), BitVec.ofNat 32 (h.k (a + 1)).toNat,
        BitVec.ofNat 32 ((h.k (a + 1)).toNat / 2 ^ 32), BitVec.ofNat 32 (h.k (a + 2)).toNat] } := by
  rw [show a + 0 = a from BitVec.add_zero a, sdsetShape, word16_top, word16_eq, word16_eq, word16_eq]
  simp only [lo32_eq_ofNat, hi32_eq_ofNat, Nat.mul_zero, pow_zero, Nat.div_one, Nat.mul_one, Nat.reduceMul]

/-- The least and the greatest reach of a stream as sums over its dimensions. -/
theorem Stream.reachOf_eq (d : Stream) (least : Bool) : d.reachOf least = d.base.toNat +
    ((d.stride.zipWith (fun x (e : Nat) => x.toInt * ((e : Int) - 1)) (d.ext0 :: d.ext)).map
      (fun x => if least then min 0 x else max 0 x)).sum := by
  rw [← List.map_uncurry_zip_eq_zipWith, List.map_map]
  refine congrArg (fun l : List Int => (d.base.toNat : Int) + l.sum) (List.map_congr_left fun e _ => ?_)
  simp only [Function.comp_apply, Function.uncurry]
  generalize e.1.toInt * ((e.2 : Int) - 1) = x
  cases least
  · by_cases hx : x < 0
    · simp [hx, max_eq_left hx.le]
    · simp [hx, max_eq_right (not_lt.1 hx)]
  · by_cases hx : x < 0
    · simp [hx, min_eq_right hx.le]
    · simp [hx, min_eq_left (not_lt.1 hx)]

/-- The checks of R238 on a shape. -/
theorem sdsetOk_iff (h : Here) (a : BitVec 6) (d : Stream) : sdsetOk h a d = true ↔ (h.k (a + 3)).toNat / 2 ^ 32 = 0 ∧ 0 ∉ d.ext ∧
    (d.base.toNat : Int) % eszSize d.esz = 0 ∧ (∀ x ∈ d.stride, x.toInt % eszSize d.esz = 0) ∧
    0 ≤ d.reachOf true ∧ d.reachOf false + eszSize d.esz ≤ h.launch.record.scrbytes := by
  have hext : (d.ext.all fun x => x != 0) = true ↔ 0 ∉ d.ext := by
    simp only [List.all_eq_true, bne_iff_ne]
    exact ⟨fun hall hmem => hall 0 hmem rfl, fun hno x hx he => hno (he ▸ hx)⟩
  rw [sdsetOk]
  simp only [Bool.and_eq_true, decide_eq_true_iff, hext, List.all_eq_true, beq_iff_eq, hi32_eq_zero_iff, and_assoc]
  exact and_congr_right fun _ => and_congr_right fun _ => and_congr_left fun _ => by norm_cast

/-! ### The fields of a stream -/

/-- What `sdget` reads, with the codes of the element sizes. -/
theorem sdItem_base (d : Stream) : sdItem d .base = BitVec.ofNat 64 (d.base.toNat + 2 ^ 32 * (match d.esz with
    | .b32 => 0
    | .n16 => 1
    | .i16 => 2
    | .n8 => 3
    | .i8 => 4
    | .b64 => 5) + 2 ^ 35 * d.wrap.toNat) := by
  cases hw : d.wrap <;> simp only [sdItem, hw] <;> rfl

/-! ### `sdrd` and `sdwr` -/

/-- `sdrd` as the skeleton runs it. -/
def sdrdIn (wd : Wd) (d : Dst) : VecIn :=
  { ops := [], dst := some d, w64 := wd64 wd, land := 2, steps := false, lane := fun _ _ => {} }

/-- The effect of `sdrd`: the elements of the lanes below EXT0. -/
def sdrdEff (h : Here) (t : Stream) (s : State) (_stop : Nat) (outs : List (Nat × LaneOut)) : State × List (Nat × DWord) :=
  let rd := outs.filter (fun o => decide (o.1 < t.ext0))
  match rd.find? (fun o => (s.core h.q).lost (h.phys (t.off o.1).toNat) (eszSize t.esz)) with
  | some o => (rd.foldl (fun s e => s.meet h.q (h.phys (t.off e.1).toNat) (eszSize t.esz)) (s.lostAt h 2 (streamAddr t o.1) o.1), [])
  | none =>
    outs.foldl (fun a o =>
      if o.1 < t.ext0 then
        let (bs, s1) := a.1.groupRead h h.q (h.phys (t.off o.1).toNat) (eszSize t.esz) a.1.wseq
        (s1, a.2 ++ [(o.1, eszExt t.esz (ofBytes bs))])
      else (a.1, a.2 ++ [(o.1, (0 : DWord))])) (s, [])

/-- `sdwr` as the skeleton runs it. -/
def sdwrIn (wd : Wd) (b : Src) : VecIn :=
  { ops := [.src b (wd64 wd)], steps := false, lane := fun _ vs => { val := arg vs 0 } }

/-- The effect of `sdwr`: the stores of the lanes below EXT0. -/
def sdwrEff (h : Here) (t : Stream) (s : State) (_stop : Nat) (outs : List (Nat × LaneOut)) : State × List (Nat × DWord) :=
  let ws := outs.filter (fun o => decide (o.1 < t.ext0))
  let bad := s.lostRows (ws.map (fun o => (h.q, h.phys (t.off o.1).toNat, eszSize t.esz)))
  (ws.foldl (fun s o =>
    s.storeLane h bad h.q (h.phys (t.off o.1).toNat) o.1 (toBytes (eszSize t.esz) o.2.val.toNat) (streamAddr t o.1) 2 true) s, [])

/-- An explicit access fits its stream (07 R240). -/
def Here.fitsStream (h : Here) (wd : Wd) (sd : BitVec 4) : Prop :=
  0 < (h.grp.stream sd).ext0 ∧ (wd = .w64 ↔ (h.grp.stream sd).esz = .b64) ∧ h.mtileHolds sd = false

theorem sdCheck_of_fits {h : Here} {wd : Wd} {sd : BitVec 4} (hf : h.fitsStream wd sd) : h.sdCheck wd sd = none := by
  obtain ⟨hset, hwd, hfree⟩ := hf
  refine if_neg ?_
  rintro (h0 | ⟨hw, hz⟩ | ⟨hw, hz⟩ | hm)
  · omega
  · exact hz (hwd.1 hw)
  · cases hw.symm.trans (hwd.2 hz)
  · exact Bool.noConfusion (hfree.symm.trans hm)

/-- An explicit access without a fault advances its stream, unless its use as a source has. -/
theorem sdDone_of_faultless {s v : State} {h : Here} (honly : h.cur.only = none) (hv : v.faults = s.faults) (sd : BitVec 4) (alone : Bool) :
    s.sdDone h sd alone v = v.modStream h sd (if alone then Stream.advance else id) := by
  rw [State.sdDone, if_pos ⟨congrArg List.length hv, honly⟩]
  cases alone <;> rfl

section
variable {s : State} {h : Here} {wd : Wd} {sd : BitVec 4} (hf : h.fitsStream wd sd) (hh : s.here = some h)
include hf hh

theorem exec_sdrd (d : Dst) : exec (.sdrd wd d sd) s =
    .next (s.sdDone h sd true (s.vec h (sdrdIn wd d) none (sdrdEff h (h.grp.stream sd)))) := by
  rw [← sdCheck_of_fits hf]
  exact exec_withHere hh _

theorem exec_sdwr (b : Src) : exec (.sdwr wd sd b) s = .next (s.sdDone h sd (!(streamsOf [.src b (wd64 wd)]).contains sd)
    (s.vec h (sdwrIn wd b) none (sdwrEff h (h.grp.stream sd)))) := by
  rw [← sdCheck_of_fits hf]
  exact exec_withHere hh _

end

section
variable {s : State} {h : Here} {wd : Wd} {t : Stream}

/-- Where a lane's element lies. -/
def Here.streamPlace (h : Here) (t : Stream) (k : Nat) : Nat × Nat := (h.q, h.ctb.base + (t.off k).toNat)

/-- The active lanes below EXT0. -/
def Here.below (h : Here) (t : Stream) : List Nat := h.lanes.filter (fun k => decide (k < t.ext0))

/-- The lanes below EXT0 read their elements in turn; the others get 0. -/
theorem sdrdEff_of_readable {u : State} (ha : ReadsAlike s h u) (hread : ∀ k ∈ h.below t,
    (s.core h.q).lost (h.streamPlace t k).2 (eszSize t.esz) = false ∧ unseenAt s h h.q (h.streamPlace t k).2 (eszSize t.esz) = false) :
    ∃ w, Counted u w ∧ sdrdEff h t u 32 (h.lanes.map (fun k => (k, {}))) = (w, h.lanes.map (fun k =>
      (k, if k < t.ext0 then eszExt t.esz (ofBytes ((s.core h.q).bytes (h.streamPlace t k).2 (eszSize t.esz))) else 0))) := by
  have hnone : ((h.lanes.map (fun k => (k, ({} : LaneOut)))).filter (fun o => decide (o.1 < t.ext0))).find? (fun o =>
      (u.core h.q).lost (h.phys (t.off o.1).toNat) (eszSize t.esz)) = none := by
    rw [List.find?_eq_none]
    intro o ho
    obtain ⟨ho, hlt⟩ := List.mem_filter.1 ho
    obtain ⟨k, hk, rfl⟩ := List.mem_map.1 ho
    rw [Core.lost_of_uncounted (ha.2.1 _)]
    exact fun hl => Bool.noConfusion ((hread k (List.mem_filter.2 ⟨hk, hlt⟩)).1.symm.trans hl)
  rw [sdrdEff, hnone]
  dsimp only
  rw [List.foldl_map]
  refine foldl_reads fun x rs hx k hk => ?_
  dsimp only
  by_cases hlt : k < t.ext0
  · obtain ⟨y, hy, he⟩ := groupRead_of_seen (ha.counted hx) (hread k (List.mem_filter.2 ⟨hk, decide_eq_true hlt⟩)).2
    refine ⟨y, hy, ?_⟩
    rw [if_pos hlt, if_pos hlt]
    exact (congrArg (fun r : List Byte × State => (r.2, rs ++ [(k, eszExt t.esz (ofBytes r.1))])) he :)
  · exact ⟨x, Counted.refl x, by rw [if_neg hlt, if_neg hlt]⟩

theorem sdrd_delivers {d : Dst} (hr : Runs s h [] (dstNames d (wd64 wd))) (hread : ∀ k ∈ h.below t,
    (s.core h.q).lost (h.streamPlace t k).2 (eszSize t.esz) = false ∧ unseenAt s h h.q (h.streamPlace t k).2 (eszSize t.esz) = false) :
    Delivers s (s.vec h (sdrdIn wd d) none (sdrdEff h t)) h [] d (wd64 wd) 2 (fun k =>
      if k < t.ext0 then eszExt t.esz (ofBytes ((s.core h.q).bytes (h.streamPlace t k).2 (eszSize t.esz))) else 0) 0 := by
  obtain ⟨l, hreads, -⟩ := reads_readStreams s h (streamsOf [])
  exact vec_delivers_of_counted (v := sdrdIn wd d) (fun _ _ => ⟨rfl, rfl⟩) rfl rfl hr (sdrdEff_of_readable (hreads.alike hr.1) hread)

/-- The lanes below EXT0 store their elements in turn. -/
theorem sdwr_stores {b : Src} (hr : Runs s h [.src b (wd64 wd)] []) (herrs : (s.core h.q).errs = []) :
    (s.vec h (sdwrIn wd b) none (sdwrEff h t)).faults = s.faults ∧
      StoresLanes s (s.vec h (sdwrIn wd b) none (sdwrEff h t)) h [.src b (wd64 wd)] ((h.below t).map (fun k =>
        ((h.streamPlace t k).1, (h.streamPlace t k).2, toBytes (eszSize t.esz) (arg (s.srcs h [.src b (wd64 wd)] k) 0).toNat))) := by
  obtain ⟨l, hreads, -⟩ := reads_readStreams s h (streamsOf [.src b (wd64 wd)])
  have hcores := (hreads.alike hr.1).2.1
  have houts : (s.outs h (sdwrIn wd b)).filter (fun o => decide (o.1 < t.ext0)) =
      (h.below t).map (fun k => (k, { val := arg (s.srcs h [.src b (wd64 wd)] k) 0 })) := List.filter_map
  refine vec_stores (v := sdwrIn wd b) rfl hr (fun _ _ => ⟨rfl, rfl⟩) ⟨_, stored_lanes (h := h)
    (fun q => Core.errs_of_uncounted (hcores q)) (fun _ _ => herrs) _ (streamAddr t) 2, ?_⟩
  rw [sdwrEff, houts, lostRows_of_errs_nil fun a ha => ?_, List.foldl_map]
  · rfl
  · rw [List.map_map] at ha
    obtain ⟨k, -, rfl⟩ := List.mem_map.1 ha
    exact (Core.errs_of_uncounted (hcores _)).trans herrs

end

end Sys2Proof.Machine

section
open Sys2Proof Sys2Proof.Machine

/-- Settles O31: one change of the group for `sdset` and `sdrew`, one value in every lane for `sdget`, reads and stores in lane
order for `sdrd` and `sdwr`. -/
theorem streamInstructions : Obligations.StreamInstructions := by
  unfold Obligations.StreamInstructions
  intro esz item wd sd a base ext0 d b u strides exts z last ok free upd
  have hz : (eszSize esz : Int) = z := by cases esz <;> rfl
  have hshape (h : Here) : sdsetShape h esz a base ext0 =
      { base := base, esz := esz, wrap := false, ext0 := ext0.toNat, ext := exts h, stride := strides h, pos := [0, 0, 0, 0], setAt := 0 } :=
    sdsetShape_eq h esz a base ext0
  have hok (h : Here) : sdsetOk h a (sdsetShape h esz a base ext0) = true ↔ ok h := by
    rw [sdsetOk_iff, hshape, Stream.reachOf_eq, Stream.reachOf_eq]
    dsimp only
    rw [hz]
    rfl
  refine ⟨groupInstr_of fun s h hh ⟨hgood, hfree⟩ => ?_, fun s h hh hbad => ?_, groupInstr_of fun s h hh hfree => ?_, ?_, ?_⟩
  · refine (exec_withHere hh _).trans (congrArg _ ?_)
    dsimp only
    rw [(hok h).2 hgood, Bool.not_true, if_neg Bool.false_ne_true, show h.mtileHolds sd = false from hfree, if_neg Bool.false_ne_true, hshape]
    exact State.modG_modG _ _ _ _
  · refine (exec_withHere hh _).trans (congrArg _ ?_)
    dsimp only
    rw [Bool.eq_false_iff.2 (mt (hok h).1 hbad)]
    rfl
  · refine (exec_withHere hh _).trans (congrArg _ ?_)
    rw [show h.mtileHolds sd = false from hfree, if_neg Bool.false_ne_true]
    exact State.modG_modG _ _ _ _
  · cases item with
    | base => exact laneInstr_of_putAll fun s h hh => (exec_withHere hh _).trans (congrArg _ (congrArg _ (sdItem_base _)))
    | stride n => exact laneInstr_of_putAll fun s h hh => exec_withHere hh _
    | extent n => exact laneInstr_of_putAll fun s h hh => exec_withHere hh _
    | pos => exact laneInstr_of_putAll fun s h hh => exec_withHere hh _
  · intro s h x pl n ops low fits
    refine ⟨fun hr hfits hread => ?_, fun hr hfits herrs => ?_⟩
    · have hdel := sdrd_delivers (t := x) hr hread
      refine ⟨_, hdel, (exec_sdrd hfits hr.1 d).trans (congrArg _ ?_)⟩
      exact sdDone_of_faultless hr.2.2.1 hdel.1 sd true
    · obtain ⟨hfaults, g, hstores, hrest⟩ := sdwr_stores (t := x) hr herrs
      refine ⟨_, hfaults, outsideSame_of_stores hstores fun k _ => toBytes_length _ _, ⟨g, hstores, hrest⟩,
        (exec_sdwr hfits hr.1 b).trans (congrArg _ ?_)⟩
      rw [sdDone_of_faultless hr.2.2.1 hfaults]
      by_cases hsd : sd ∈ streamsOf ops
      · rw [if_pos hsd, List.contains_iff_mem.2 hsd]
        rfl
      · rw [if_neg hsd, show (streamsOf [.src b (wd64 wd)]).contains sd = false from by
          rw [← Bool.not_eq_true, List.contains_iff_mem]; exact hsd]
        rfl

end

/-! O52, first part: failed banks (07 R219), idle issue slots (15 R415) and suppressed beats (10 R283, R288). -/
namespace Sys2Proof.Machine

/-! ### The marks of a core's banks -/

/-- The bits of a nibble that stands at a place of a word of nibbles. -/
theorem testBit_nibble {v i : Nat} (g n : Nat) (hv : v < 16) (hi : i < 4) :
    (v * 16 ^ g).testBit (4 * n + i) = (decide (n = g) && v.testBit i) := by
  rw [show (16 : Nat) = 2 ^ 4 from rfl, ← pow_mul, Nat.testBit_mul_two_pow]
  rcases lt_trichotomy n g with hlt | rfl | hlt
  · rw [decide_eq_false (by omega), decide_eq_false (by omega)]
    rfl
  · rw [decide_eq_true (by omega), decide_eq_true rfl, Nat.add_sub_cancel_left]
  · have hsmall : v < 2 ^ (4 * n + i - 4 * g) :=
      hv.trans_le (Nat.pow_le_pow_right (show 2 > 0 by decide) (show 4 ≤ 4 * n + i - 4 * g by omega))
    have hne : ¬ n = g := fun he => hlt.ne he.symm
    rw [decide_eq_false hne, Nat.testBit_lt_two_pow hsmall, Bool.and_false, Bool.false_and]

/-- A map with the nibble of one group replaced. -/
theorem extract_setNibble (w : BitVec 128) {g n b : Nat} (hn : n < 32) (hb : b < 16) :
    (((w &&& ~~~(BitVec.ofNat 128 (15 * 16 ^ g))) ||| BitVec.ofNat 128 (b * 16 ^ g)).extractLsb' (4 * n) 4).toNat =
      if n = g then b else (w.extractLsb' (4 * n) 4).toNat := by
  have hbit : ∀ v < 16, ∀ i < 4, (BitVec.ofNat 128 (v * 16 ^ g)).getLsbD (4 * n + i) = (decide (n = g) && v.testBit i) := fun v hv i hi => by
    rw [BitVec.getLsbD_ofNat, testBit_nibble g n hv hi, decide_eq_true (by omega), Bool.true_and]
  have hall : ∀ i < 4, Nat.testBit 15 i = true := by decide
  split
  case isTrue heq =>
    rw [show b = (BitVec.ofNat 4 b).toNat from (Nat.mod_eq_of_lt hb).symm]
    refine congrArg _ (BitVec.eq_of_getLsbD_eq fun i hi => ?_)
    rw [BitVec.getLsbD_extractLsb', BitVec.getLsbD_or, BitVec.getLsbD_and, BitVec.getLsbD_not, hbit 15 (by omega) i hi,
      BitVec.toNat_ofNat, Nat.mod_eq_of_lt (show b < 2 ^ 4 from hb), hbit b hb i hi, hall i hi, BitVec.getLsbD_ofNat]
    simp [heq, hi]
  case isFalse hne =>
    refine congrArg _ (BitVec.eq_of_getLsbD_eq fun i hi => ?_)
    rw [BitVec.getLsbD_extractLsb', BitVec.getLsbD_or, BitVec.getLsbD_and, BitVec.getLsbD_not, hbit 15 (by omega) i hi, hbit b hb i hi,
      BitVec.getLsbD_extractLsb', decide_eq_false hne, decide_eq_true (show 4 * n + i < 128 by omega)]
    simp

/-- Every mark of a core whose map has one more mark. -/
theorem mark_setNibble (c : Core) {g n b : Nat} (hn : n < 32) (hb : b < 10) :
    ({ c with bankmap := (c.bankmap &&& ~~~(BitVec.ofNat 128 (15 * 16 ^ g))) ||| BitVec.ofNat 128 (b % 10 * 16 ^ g) } : Core).mark n =
      if n = g then b else c.mark n := by
  rw [Nat.mod_eq_of_lt hb]
  exact extract_setNibble c.bankmap hn (by omega)

/-- A bank is marked once in its group; a second one is reported (07 R219). -/
theorem bankMarkFailed_spec (s : State) {q g b : Nat} (hb : b < 10) : ∃ t, exec (.bankMarkFailed q g b) s = .next t ∧
    t = { s with cores := t.cores, out := t.out } ∧ (∀ p, p ≠ q → t.core p = s.core p) ∧
    { t.core q with bankmap := 0 } = { s.core q with bankmap := 0 } ∧
    (∀ n, n < 32 → (t.core q).mark n = if n = g ∧ (s.core q).mark g = 15 then b else (s.core q).mark n) ∧
    t.out = if (s.core q).mark g = 15 ∨ (s.core q).mark g = b then s.out else s.out ++ [.report 0x219 q g] := by
  refine ⟨_, rfl, ?_⟩
  unfold State.markBank
  dsimp only
  by_cases hfree : (s.core q).mark g = 15
  · rw [if_pos hfree]
    refine ⟨rfl, fun p hp => State.core_setCore_other s _ hp, ?_, fun n hn => ?_, (if_pos (.inl hfree)).symm⟩
    · rw [State.core_setCore_same]
    · rw [State.core_setCore_same, mark_setNibble _ hn hb]
      simp only [hfree, and_true]
  · have hkept : ∀ n, (s.core q).mark n = if n = g ∧ (s.core q).mark g = 15 then b else (s.core q).mark n :=
      fun n => (if_neg fun h => hfree h.2).symm
    rw [if_neg hfree]
    by_cases hsame : (s.core q).mark g = b
    · rw [if_pos hsame]
      exact ⟨rfl, fun _ _ => rfl, rfl, fun n _ => hkept n, (if_pos (.inr hsame)).symm⟩
    · rw [if_neg hsame]
      exact ⟨rfl, fun _ _ => rfl, rfl, fun n _ => hkept n, (if_neg (not_or.2 ⟨hfree, hsame⟩)).symm⟩

/-! ### Idle issue slots -/

/-- SURVIDLE after an addition: 63 bits that count, and the overflow in bit 63 (15 R416). -/
theorem survIdle_add (w : DWord) (sum : Nat) :
    let x := (w &&& 0x8000000000000000) ||| (if 2 ^ 63 ≤ sum then 0x8000000000000000 else 0) ||| (BitVec.ofNat 63 sum).setWidth 64
    x.toNat % 2 ^ 63 = sum % 2 ^ 63 ∧ x.getLsbD 63 = (w.getLsbD 63 || decide (2 ^ 63 ≤ sum)) := by
  intro x
  have hmask : ∀ i < 63, (0x8000000000000000 : DWord).getLsbD i = false := by decide
  have hlow : x.setWidth 63 = BitVec.ofNat 63 sum := by
    refine BitVec.eq_of_getLsbD_eq fun i hi => ?_
    have hif : (if 2 ^ 63 ≤ sum then 0x8000000000000000 else 0 : DWord).getLsbD i = false := by
      split
      · exact hmask i hi
      · exact BitVec.getLsbD_zero
    rw [BitVec.getLsbD_setWidth, BitVec.getLsbD_or, BitVec.getLsbD_or, BitVec.getLsbD_and, hmask i hi, hif, BitVec.getLsbD_setWidth,
      decide_eq_true hi, decide_eq_true (show i < 64 by omega)]
    simp
  constructor
  · exact (BitVec.toNat_setWidth 63 x).symm.trans ((congrArg BitVec.toNat hlow).trans (BitVec.toNat_ofNat _ _))
  · rw [BitVec.getLsbD_or, BitVec.getLsbD_or, BitVec.getLsbD_and, BitVec.getLsbD_setWidth, BitVec.getLsbD_of_ge _ 63 (le_refl _)]
    by_cases h : 2 ^ 63 ≤ sum
    · rw [if_pos h, decide_eq_true h]
      simp
    · rw [if_neg h, decide_eq_false h]
      simp

/-- Idle slots are counted while the survey counts (15 R415). -/
theorem idleIssueSlot_spec (s : State) (q n : Nat) : ∃ t, exec (.idleIssueSlot q n) s = .next t ∧ t = { s with cores := t.cores } ∧
    (∀ p, p ≠ q → t.core p = s.core p) ∧
    (let c := s.core q
     let sum := c.survey.idle.toNat % 0x8000000000000000 + n
     if c.survey.ctl.getLsbD 6 then ∃ w, t.core q = { c with survey := { c.survey with idle := w } } ∧
       w.toNat % 0x8000000000000000 = sum % 0x8000000000000000 ∧ w.getLsbD 63 = (c.survey.idle.getLsbD 63 || decide (0x8000000000000000 ≤ sum))
     else t.core q = c) := by
  refine ⟨s.modCore q (fun c => c.addIdle n), rfl, rfl, fun p hp => State.core_setCore_other s _ hp, ?_⟩
  dsimp only
  rw [State.modCore, State.core_setCore_same, Core.addIdle]
  split
  · refine ⟨_, rfl, ?_⟩
    rw [BitVec.toNat_setWidth]
    exact survIdle_add _ _
  · rfl

/-! ### Deficits -/

theorem defOf_eq (w : Word) : defOf w = w.toNat % 65536 := by
  rw [defOf, BitVec.extractLsb'_toNat]; rfl

theorem peakOf_eq (w : Word) : (w.extractLsb' 16 16).toNat = w.toNat / 65536 := by
  have hw := w.isLt
  rw [BitVec.extractLsb'_toNat, Nat.shiftRight_eq_div_pow]
  exact Nat.mod_eq_of_lt (by omega)

/-- The two halves of a DEFSTAT, PEAK over DEF. -/
theorem defstat_halves {p d : Nat} (hp : p < 65536) (hd : d < 65536) :
    (BitVec.ofNat 32 (65536 * p + d)).toNat % 65536 = d ∧ (BitVec.ofNat 32 (65536 * p + d)).toNat / 65536 = p := by
  rw [BitVec.toNat_ofNat, Nat.mod_eq_of_lt (show 65536 * p + d < 2 ^ 32 by omega)]
  omega

/-- The clock regions that suppress together are listed once each. -/
theorem foldl_distinct_nodup (l a : List Nat) (ha : a.Nodup) :
    (l.foldl (fun (l : List Nat) n => if l.contains n then l else l ++ [n]) a).Nodup := by
  induction l generalizing a with
  | nil => exact ha
  | cons n l ih =>
    refine ih _ ?_
    dsimp only
    split
    · exact ha
    · next hn =>
      have hmem : n ∉ a := fun hmem => hn (List.contains_iff_mem.2 hmem)
      exact List.nodup_append.2 ⟨ha, List.nodup_singleton n, fun x hx y hy he => hmem (List.mem_singleton.1 hy ▸ he ▸ hx)⟩

theorem droopWith_nodup (s : State) (n : Nat) : (s.droopWith n).Nodup := foldl_distinct_nodup _ _ (List.nodup_singleton n)

/-- What `b` suppressed beats leave of the DEFSTAT of a region, and of the record of its edges. -/
def State.droopDef (s : State) (n b : Nat) (w : Word) : Word :=
  let d := min 0xFFFF (defOf w + min b (s.droopLimit n))
  BitVec.ofNat 32 (65536 * max (d - slackGone s.time) (w.extractLsb' 16 16).toNat + d)

def State.droopEdge (s : State) (n b : Nat) : Nat := s.nextEdge n + 8 * min b (s.droopLimit n)

/-- Each region of a list of distinct ones suppresses by itself. -/
theorem foldl_suppress (b : Nat) (l : List Nat) (hl : l.Nodup) (s : State) :
    l.foldl (fun (s : State) n => s.suppress n b) s = { s with
      regs := { s.regs with defstat := (l.foldl (fun (s : State) n => s.suppress n b) s).regs.defstat }
      phys := { s.phys with drooped := (l.foldl (fun (s : State) n => s.suppress n b) s).phys.drooped } } ∧
    ∀ m, (l.foldl (fun (s : State) n => s.suppress n b) s).regs.defstat[m]? =
        (if m ∈ l then (s.regs.defstat[m]?).map (s.droopDef m b) else s.regs.defstat[m]?) ∧
      look (l.foldl (fun (s : State) n => s.suppress n b) s).phys.drooped m =
        if m ∈ l then some (s.droopEdge m b) else look s.phys.drooped m := by
  induction l generalizing s with
  | nil => exact ⟨rfl, fun m => ⟨rfl, rfl⟩⟩
  | cons a l ih =>
    obtain ⟨ha, hl⟩ := List.nodup_cons.1 hl
    obtain ⟨hframe, hall⟩ := ih hl (s.suppress a b)
    rw [List.foldl_cons]
    refine ⟨hframe, fun m => ?_⟩
    obtain ⟨hdef, hlook⟩ := hall m
    rw [hdef, hlook]
    have hother : m ≠ a → (s.suppress a b).nextEdge m = s.nextEdge m := fun hm => by
      unfold State.nextEdge
      exact congrArg (fun o : Option Nat => max (o.getD 0) _) (look_bindAt_other _ _ hm)
    have hlimit : m ≠ a → (s.suppress a b).droopLimit m = s.droopLimit m := fun hm => by
      unfold State.droopLimit
      rw [hother hm]
      rfl
    have hstat : (s.suppress a b).regs.defstat[m]? = if a = m then (s.regs.defstat[m]?).map (s.droopDef m b) else s.regs.defstat[m]? := by
      change (s.regs.defstat.modify a (s.droopDef a b))[m]? = _
      rw [List.getElem?_modify]
      by_cases hm : a = m
      · simp [hm]
      · simp [hm]
    by_cases hm : m = a
    · subst hm
      rw [if_neg ha, if_neg ha, if_pos (List.mem_cons_self), if_pos (List.mem_cons_self), hstat, if_pos rfl]
      exact ⟨rfl, look_bindAt_same _ _ _⟩
    · have hne : ¬ a = m := fun he => hm he.symm
      have hmem : m ∈ a :: l ↔ m ∈ l := by simp [hm]
      have hdroop : (s.suppress a b).droopDef m b = s.droopDef m b := by
        unfold State.droopDef
        rw [hlimit hm]
        rfl
      have hedge : (s.suppress a b).droopEdge m b = s.droopEdge m b := by
        unfold State.droopEdge
        rw [hother hm, hlimit hm]
      have hdrooped : look (s.suppress a b).phys.drooped m = look s.phys.drooped m := look_bindAt_other _ _ hm
      simp only [hmem, hstat, if_neg hne, hdroop, hedge, hdrooped]
      exact ⟨trivial, trivial⟩

theorem droopSuppress_other {s : State} {n : Nat} (b : Nat) (hn : n ∉ rowRegions) : exec (.droopSuppress n b) s = .next s := by
  have hc : rowRegions.contains n = false := by rw [← Bool.not_eq_true, List.contains_iff_mem]; exact hn
  exact if_pos (by rw [hc]; rfl)

theorem droopSuppress_row {s : State} {n : Nat} (b : Nat) (hn : n ∈ rowRegions) :
    exec (.droopSuppress n b) s = .next ((s.droopWith n).foldl (fun (s : State) n => s.suppress n b) s) := by
  exact if_neg (by rw [List.contains_iff_mem.2 hn]; decide)

/-- The halves of a raised DEFSTAT. -/
theorem droopDef_halves (s : State) (n b : Nat) (w : Word) :
    (s.droopDef n b w).toNat % 65536 = min 65535 (w.toNat % 65536 + min b (s.droopLimit n)) ∧
    (s.droopDef n b w).toNat / 65536 = max (w.toNat / 65536) (min 65535 (w.toNat % 65536 + min b (s.droopLimit n)) - slackGone s.time) := by
  have hw := w.isLt
  rw [State.droopDef, defOf_eq, peakOf_eq, max_comm (w.toNat / 65536)]
  exact defstat_halves (by omega) (by omega)

/-- Suppressed beats raise the deficits of the regions that suppress together (10 R283, R288). -/
theorem droopSuppress_spec {s : State} {n : Nat} (b : Nat) (hn : n ∈ rowRegions) (hlen : s.regs.defstat.length = 22) :
    let deficit (t : State) (n : Nat) : Nat := (t.regs.defstat.getD n 0).toNat % 65536
    let peak (t : State) (n : Nat) : Nat := (t.regs.defstat.getD n 0).toNat / 65536
    let gone := s.time % 8192 - 7936
    let raised (t : State) (n d : Nat) : Prop := deficit t n = min 65535 d ∧ peak t n = max (peak s n) (min 65535 d - gone)
    ∃ t, exec (.droopSuppress n b) s = .next t ∧
      t = { s with regs := { s.regs with defstat := t.regs.defstat }, phys := { s.phys with drooped := t.phys.drooped } } ∧
      ∀ m, m < 22 →
        let edge := max ((look s.phys.drooped m).getD 0) (if 7936 ≤ s.time % 8192 then s.time - gone else s.time - s.time % 8192)
        let e := min b ((s.time + 8 - edge) / 8)
        if m ∈ s.droopWith n then raised t m (deficit s m + e) ∧ look t.phys.drooped m = some (edge + 8 * e)
        else t.regs.defstat.getD m 0 = s.regs.defstat.getD m 0 ∧ look t.phys.drooped m = look s.phys.drooped m := by
  intro deficit peak gone raised
  obtain ⟨hframe, hall⟩ := foldl_suppress b (s.droopWith n) (droopWith_nodup s n) s
  refine ⟨_, droopSuppress_row b hn, hframe, fun m hm => ?_⟩
  obtain ⟨hdef, hlook⟩ := hall m
  generalize (s.droopWith n).foldl (fun (s : State) n => s.suppress n b) s = t at hdef hlook
  intro edge e
  have hedge : edge = s.nextEdge m := by
    unfold edge gone State.nextEdge slackGone frameOff
    rw [apply_ite (s.time - ·)]
  have he : e = min b (s.droopLimit m) := by unfold e State.droopLimit; rw [hedge]
  have hold : s.regs.defstat[m]? = some (s.regs.defstat.getD m 0) := by
    rw [List.getD_eq_getElem?_getD, List.getElem?_eq_getElem (by omega)]; rfl
  by_cases hmem : m ∈ s.droopWith n
  · rw [if_pos hmem] at hdef hlook ⊢
    have hnew : t.regs.defstat.getD m 0 = s.droopDef m b (s.regs.defstat.getD m 0) := by
      rw [List.getD_eq_getElem?_getD, hdef, hold]; rfl
    obtain ⟨hd, hp⟩ := droopDef_halves s m b (s.regs.defstat.getD m 0)
    refine ⟨?_, by rw [hlook, hedge, he]; rfl⟩
    unfold raised deficit peak
    rw [hnew, he]
    exact ⟨hd, hp⟩
  · rw [if_neg hmem] at hdef hlook ⊢
    exact ⟨by rw [List.getD_eq_getElem?_getD, hdef, ← List.getD_eq_getElem?_getD], hlook⟩

end Sys2Proof.Machine

/-! O52, second part: schedule faults and resynchronisation (10 R305 to R307). -/
namespace Sys2Proof.Machine

/-! ### Fields of registers -/

/-- A field replaced by bits of another value. -/
theorem setBits_toNat {m v old : DWord} {lo len : Nat} (hm : ∀ i < 64, m.getLsbD i = (decide (lo ≤ i) && decide (i < lo + len)))
    (hlen : lo + len ≤ 64) : (setBits m v old).toNat =
      2 ^ (lo + len) * (old.toNat / 2 ^ (lo + len)) + (2 ^ lo * (v.toNat / 2 ^ lo % 2 ^ len) + old.toNat % 2 ^ lo) := by
  have hlow : old.toNat % 2 ^ lo < 2 ^ lo := Nat.mod_lt _ (Nat.two_pow_pos lo)
  have hmid : 2 ^ lo * (v.toNat / 2 ^ lo % 2 ^ len) + old.toNat % 2 ^ lo < 2 ^ (lo + len) := by
    have hf := Nat.mod_lt (v.toNat / 2 ^ lo) (Nat.two_pow_pos len)
    rw [pow_add]
    calc 2 ^ lo * (v.toNat / 2 ^ lo % 2 ^ len) + old.toNat % 2 ^ lo < 2 ^ lo * (v.toNat / 2 ^ lo % 2 ^ len + 1) := by
          rw [Nat.mul_succ]; omega
      _ ≤ 2 ^ lo * 2 ^ len := Nat.mul_le_mul_left _ hf
  refine Nat.eq_of_testBit_eq fun i => ?_
  rw [Nat.testBit_two_pow_mul_add _ hmid, Nat.testBit_two_pow_mul_add _ hlow, BitVec.testBit_toNat, setBits, BitVec.getLsbD_or,
    BitVec.getLsbD_and, BitVec.getLsbD_and, BitVec.getLsbD_not]
  by_cases hi : i < 64
  · rw [hm i hi, decide_eq_true hi, Bool.true_and]
    by_cases h1 : i < lo
    · rw [if_pos (by omega), if_pos h1, decide_eq_false (by omega), Nat.testBit_mod_two_pow, decide_eq_true h1, BitVec.testBit_toNat]
      simp
    · by_cases h2 : i < lo + len
      · rw [if_pos h2, if_neg h1, decide_eq_true (show lo ≤ i by omega), decide_eq_true h2, Nat.testBit_mod_two_pow,
          decide_eq_true (show i - lo < len by omega), Nat.testBit_div_two_pow, BitVec.testBit_toNat, Nat.sub_add_cancel (by omega)]
        simp
      · rw [if_neg h2, decide_eq_false h2, Nat.testBit_div_two_pow, BitVec.testBit_toNat, Nat.sub_add_cancel (by omega)]
        simp
  · rw [BitVec.getLsbD_of_ge old i (by omega), BitVec.getLsbD_of_ge v i (by omega), if_neg (by omega), Nat.testBit_div_two_pow,
      BitVec.testBit_toNat, Nat.sub_add_cancel (by omega), BitVec.getLsbD_of_ge old i (by omega)]
    simp

/-- The field of the cause in RSYNCSTAT. -/
theorem causeMask : ∀ i < 64, (0xFF000000 : DWord).getLsbD i = (decide (24 ≤ i) && decide (i < 24 + 8)) := by decide

/-- RSYNCSTAT with the cause of a fault (10 R305). -/
theorem rsyncstat_cause {c : Nat} (hc : c < 256) (r : DWord) : (setBits 0xFF000000 (BitVec.ofNat 64 (c % 256 * 2 ^ 24)) r).toNat =
    r.toNat / 0x100000000 * 0x100000000 + c * 0x1000000 + r.toNat % 0x1000000 := by
  rw [setBits_toNat causeMask (by omega), BitVec.toNat_ofNat]
  omega

/-- The fields beside the cause are the other way round. -/
theorem setBits_beside_cause (v old : DWord) : setBits 0xFFFFFFFF00FFFFFF v old = setBits 0xFF000000 old v := by
  rw [setBits, setBits, BitVec.or_comm]
  rfl

/-- RSYNCSTAT after a resynchronisation: SHIFT, DELTA and COUNT (10 R306). -/
theorem rsyncstat_resynced (r : DWord) (d : Nat) :
    (setBits 0xFFFFFFFF00FFFFFF (BitVec.ofNat 64 (2 ^ 32 * ((r.extractLsb' 32 32).toNat + d) + 65536 * (d % 256) +
      ((r.extractLsb' 0 16).toNat + 1) % 65536)) r).toNat =
      (r.toNat / 0x100000000 + d) % 0x100000000 * 0x100000000 + r.toNat / 0x1000000 % 256 * 0x1000000 + d % 256 * 0x10000 +
        (r.toNat % 0x10000 + 1) % 0x10000 := by
  have hr := r.isLt
  rw [setBits_beside_cause, setBits_toNat causeMask (by omega), BitVec.toNat_ofNat, BitVec.extractLsb'_toNat, BitVec.extractLsb'_toNat,
    Nat.shiftRight_eq_div_pow, Nat.shiftRight_zero, Nat.mod_eq_of_lt (show r.toNat / 2 ^ 32 < 2 ^ 32 by omega)]
  have hfields : ∀ x y z, y < 256 → z < 65536 → (2 ^ 32 * x + 65536 * y + z) % 2 ^ 64 / 2 ^ 32 = x % 2 ^ 32 ∧
      (2 ^ 32 * x + 65536 * y + z) % 2 ^ 64 % 2 ^ 24 = 65536 * y + z := by omega
  obtain ⟨hhigh, hlow⟩ := hfields (r.toNat / 2 ^ 32 + d) (d % 256) ((r.toNat % 2 ^ 16 + 1) % 65536) (by omega) (by omega)
  rw [hhigh, hlow]
  simp only [Nat.reducePow, Nat.reduceAdd]
  omega

/-! ### Folds -/

/-- What every step of a fold keeps, the fold keeps. -/
theorem foldl_rel {α : Type} {R : State → State → Prop} (hrefl : ∀ s, R s s) (htrans : ∀ {s t u}, R s t → R t u → R s u)
    {F : State → α → State} (hF : ∀ s x, R s (F s x)) (l : List α) (s : State) : R s (l.foldl F s) := by
  induction l generalizing s with
  | nil => exact hrefl s
  | cons x l ih => exact htrans (hF s x) (ih _)

/-! ### Events -/

theorem State.due_later {s : State} {tide : Nat} (h : s.time ≤ tide) (cls : Nat) (i : Instr) : Due (s.later tide cls i) tide cls i :=
  mem_insertEvent.2 (.inl (by rw [max_eq_left h]))

theorem State.due_later_of_due {s : State} {tide cls : Nat} {i : Instr} (h : Due s tide cls i) (tide' cls' : Nat) (i' : Instr) :
    Due (s.later tide' cls' i') tide cls i :=
  State.mem_agenda_later _ _ _ h

theorem State.noteInc_eq (s : State) (q n : Nat) : s.noteInc q n = { s with bumped := (s.noteInc q n).bumped } := by
  unfold State.noteInc
  split <;> rfl

/-! ### Switches that a schedule fault cuts off -/

/-- Switches in progress were cut off: transfers and requests of theirs are gone, and no byte has changed. -/
def CutOff (s t : State) : Prop :=
  t = { s with xfers := t.xfers, requests := t.requests, reaches := t.reaches, cores := t.cores } ∧
    (∀ q, (t.core q).scratch = (s.core q).scratch) ∧ ∀ x ∈ t.xfers, x ∈ s.xfers

theorem CutOff.refl (s : State) : CutOff s s := ⟨rfl, fun _ => rfl, fun _ hx => hx⟩

theorem CutOff.trans {s t u : State} (h1 : CutOff s t) (h2 : CutOff t u) : CutOff s u := by
  obtain ⟨e1, m1, x1⟩ := h1
  obtain ⟨e2, m2, x2⟩ := h2
  refine ⟨e2.trans ?_, fun q => (m2 q).trans (m1 q), fun x hx => x1 x (x2 x hx)⟩
  exact (congrArg (fun v : State => { v with xfers := u.xfers, requests := u.requests, reaches := u.reaches, cores := u.cores }) e1 :)

theorem cutOff_foldl {α : Type} {F : State → α → State} (hF : ∀ s x, CutOff s (F s x)) (l : List α) (s : State) :
    CutOff s (l.foldl F s) :=
  foldl_rel CutOff.refl CutOff.trans hF l s

theorem scratch_modMx (s : State) (p : Nat) (f : Matrix → Matrix) (q : Nat) : ((s.modMx p f).core q).scratch = (s.core q).scratch := by
  unfold State.modMx State.modCore
  by_cases hq : q = p
  · rw [hq, State.core_setCore_same]
  · rw [State.core_setCore_other s _ hq]

theorem cutOff_modMx (s : State) (q : Nat) (f : Matrix → Matrix) : CutOff s (s.modMx q f) :=
  ⟨rfl, scratch_modMx s q f, fun _ hx => hx⟩

theorem cutOff_restartSwitch (s : State) (r : Reach) : CutOff s (s.restartSwitch r) := by
  unfold State.restartSwitch
  refine CutOff.trans (t := State.modReach _ _ _ _) ?_ (cutOff_foldl (fun t c => cutOff_modMx t _ _) _ _)
  exact ⟨rfl, fun _ => rfl, fun x hx => List.mem_of_mem_filter hx⟩

theorem foldl_modMx_xfers (f : Nat × Ctb → Matrix → Matrix) (q : Nat × Ctb → Nat) (l : List (Nat × Ctb)) (s : State) :
    (l.foldl (fun (s : State) c => s.modMx (q c) (f c)) s).xfers = s.xfers := by
  induction l generalizing s with
  | nil => rfl
  | cons c l ih => exact ih _

/-- A save that a switch has begun is dropped. -/
theorem restartSwitch_xfers {s : State} {r : Reach} {x : Xfer} (hx : x ∈ (s.restartSwitch r).xfers) (hsave : x.kind = .save)
    (hlaunch : x.launch = r.launch) {c : Nat × Ctb} (hc : c ∈ r.ctbs) (hlive : c.2.ended = none) : x.lin ≠ c.2.lin := by
  unfold State.restartSwitch at hx
  rw [foldl_modMx_xfers (fun c m => m.unpark r.slot r.launch c.2.lin)] at hx
  have hkeep := (List.mem_filter.1 hx).2
  intro hlin
  have hmem : (r.liveCtbs.map (fun c => c.2.lin)).contains x.lin = true :=
    List.contains_iff_mem.2 (List.mem_map.2 ⟨c, List.mem_filter.2 ⟨hc, by rw [hlive]; rfl⟩, hlin.symm⟩)
  simp only [hsave, hlaunch, hmem, beq_self_eq_true, Bool.and_self, Bool.not_true, Bool.false_eq_true] at hkeep

/-- The saves of every switch of a list are dropped. -/
theorem foldl_restartSwitch_xfers {l : List Reach} {s : State} {r : Reach} (hr : r ∈ l) {x : Xfer}
    (hx : x ∈ (l.foldl State.restartSwitch s).xfers) (hsave : x.kind = .save) (hlaunch : x.launch = r.launch) {c : Nat × Ctb}
    (hc : c ∈ r.ctbs) (hlive : c.2.ended = none) : x.lin ≠ c.2.lin := by
  induction l generalizing s with
  | nil => cases hr
  | cons a l ih =>
    rcases List.mem_cons.1 hr with rfl | hr
    · exact restartSwitch_xfers ((cutOff_foldl cutOff_restartSwitch l _).2.2 x hx) hsave hlaunch hc hlive
    · exact ih hr hx

/-- The state in which a fault has been recorded and announced. -/
def State.faulted (s : State) (c : Nat) : State :=
  ({ s with regs := { s.regs with
    rsyncstat := setBits 0xFF000000 (BitVec.ofNat 64 (c % 256 * 2 ^ 24)) s.regs.rsyncstat } } : State).report (.report 0x305 c 0)

/-- The state in which the switches in progress have been cut off. -/
def State.cutOffAll (s : State) : State := (s.reaches.filter (fun r => r.resident && r.leaving)).foldl State.restartSwitch s

theorem cutOff_cutOffAll (s : State) : CutOff s s.cutOffAll := cutOff_foldl cutOff_restartSwitch _ _

theorem cutOffAll_of_none {s : State} (h : ∀ r, ¬ (r ∈ s.reaches ∧ r.resident = true ∧ r.leaving = true)) : s.cutOffAll = s := by
  rw [State.cutOffAll, List.filter_eq_nil_iff.2 fun r hr hl => h r ⟨hr, by simpa using hl⟩]
  rfl

/-- A schedule fault is recorded and announced; the first begins a resynchronisation (10 R305). -/
theorem scheduleFault_spec (s : State) {c : Nat} (hc : c < 256) :
    let leaves (r : Reach) : Prop := r ∈ s.reaches ∧ r.resident = true ∧ r.leaving = true
    ∃ t, exec (.scheduleFault c) s = .next t ∧ SameMem s t ∧ t.out = s.out ++ [.report 0x305 c 0] ∧
      t.regs = { s.regs with rsyncstat := t.regs.rsyncstat } ∧
      t.regs.rsyncstat.toNat = s.regs.rsyncstat.toNat / 0x100000000 * 0x100000000 + c * 0x1000000 + s.regs.rsyncstat.toNat % 0x1000000 ∧
      (s.freeze ≠ none → t = { s with regs := t.regs, out := t.out }) ∧
      (s.freeze = none → t.freeze = some { tf := s.time, cause := c, delta := 2 } ∧ Due t s.time 0 .resynchronisation ∧
        t = { s with freeze := t.freeze, regs := t.regs, out := t.out, agenda := t.agenda, xfers := t.xfers, requests := t.requests
                     reaches := t.reaches, cores := t.cores } ∧
        ((∀ r, ¬ leaves r) → t.xfers = s.xfers ∧ t.requests = s.requests ∧ t.reaches = s.reaches ∧ t.cores = s.cores) ∧
        ∀ r, leaves r → ∀ x ∈ t.xfers, x.kind = .save → x.launch = r.launch → ∀ c ∈ r.ctbs, c.2.ended = none → x.lin ≠ c.2.lin) := by
  intro leaves
  by_cases hf : s.freeze ≠ none
  · have hexec : exec (.scheduleFault c) s = .next (s.faulted c) := if_pos (Option.isSome_iff_ne_none.2 hf)
    exact ⟨_, hexec, ⟨fun _ => rfl, fun _ _ => rfl⟩, rfl, rfl, rsyncstat_cause hc _, fun _ => rfl, fun h => absurd h hf⟩
  · rw [not_not] at hf
    have hcut := cutOff_cutOffAll (s.faulted c)
    have hexec : exec (.scheduleFault c) s =
        .next (({ (s.faulted c).cutOffAll with freeze := some { tf := s.time, cause := c, delta := 2 } } : State).later s.time 0
          .resynchronisation) := if_neg (by rw [hf]; decide)
    have hnone : (∀ r, ¬ leaves r) → (s.faulted c).cutOffAll = s.faulted c := cutOffAll_of_none (s := s.faulted c)
    have hdropped : ∀ r, leaves r → ∀ x ∈ (s.faulted c).cutOffAll.xfers, x.kind = .save → x.launch = r.launch → ∀ b ∈ r.ctbs,
        b.2.ended = none → x.lin ≠ b.2.lin := fun r hr x hx hsave hlaunch b hb hlive =>
      foldl_restartSwitch_xfers (List.mem_filter.2 ⟨hr.1, by rw [hr.2.1, hr.2.2]; rfl⟩) hx hsave hlaunch hb hlive
    generalize (s.faulted c).cutOffAll = u at hcut hexec hnone hdropped
    obtain ⟨hframe, hscratch, -⟩ := hcut
    have htime : u.time = s.time := (congrArg (fun v : State => v.time) hframe :)
    have hregs : u.regs = (s.faulted c).regs := (congrArg (fun v : State => v.regs) hframe :)
    have hdram : u.dram = s.dram := (congrArg (fun v : State => v.dram) hframe :)
    refine ⟨_, hexec, ⟨fun a => (congrArg (rd · a) hdram :), fun q a => (congrArg (rd · a) (hscratch q) :)⟩,
      (congrArg (fun v : State => v.out) hframe :), ?_, ?_, fun h => absurd hf h,
      fun _ => ⟨rfl, State.due_later htime.le _ _, ?_, fun hno => ?_, hdropped⟩⟩
    · exact hregs.trans (congrArg (fun v : Regs => { s.regs with rsyncstat := v.rsyncstat }) hregs.symm)
    · exact (congrArg (fun v : Regs => v.rsyncstat.toNat) hregs).trans (rsyncstat_cause hc _)
    · exact (congrArg (fun v : State => { v with
        freeze := some { tf := s.time, cause := c, delta := 2 }, regs := u.regs, out := u.out
        agenda := (({ u with freeze := some { tf := s.time, cause := c, delta := 2 } } : State).later s.time 0
          .resynchronisation).agenda }) hframe :)
    · rw [hnone hno]
      exact ⟨rfl, rfl, rfl, rfl⟩

end Sys2Proof.Machine

/-! O52, third part: the steps of a resynchronisation (10 R306, R307, Table 10.10). -/
namespace Sys2Proof.Machine

/-! ### Granules that are read again -/

/-- Granules were read again: transfers and what attempts count have changed, and no event is lost. -/
def Retried (s t : State) : Prop :=
  t = { s with xfers := t.xfers, phys := t.phys, free := t.free, agenda := t.agenda } ∧ ∀ e ∈ s.agenda, e ∈ t.agenda

theorem Retried.refl (s : State) : Retried s s := ⟨rfl, fun _ he => he⟩

theorem Retried.trans {s t u : State} (h1 : Retried s t) (h2 : Retried t u) : Retried s u := by
  obtain ⟨e1, a1⟩ := h1
  obtain ⟨e2, a2⟩ := h2
  refine ⟨e2.trans ?_, fun e he => a2 e (a1 e he)⟩
  exact (congrArg (fun v : State => { v with xfers := u.xfers, phys := u.phys, free := u.free, agenda := u.agenda }) e1 :)

theorem retried_foldl {α : Type} {F : State → α → State} (hF : ∀ s x, Retried s (F s x)) (l : List α) (s : State) :
    Retried s (l.foldl F s) :=
  foldl_rel Retried.refl Retried.trans hF l s

theorem retried_later (s : State) (tide cls : Nat) (i : Instr) : Retried s (s.later tide cls i) :=
  ⟨rfl, fun _ he => State.mem_agenda_later _ _ _ he⟩

theorem retried_modXfer (s : State) (id : Nat) (f : Xfer → Xfer) : Retried s (s.modXfer id f) := ⟨rfl, fun _ he => he⟩

theorem retried_readFails (s : State) (num : Nat) : Retried s (s.readFails num).2 := by
  unfold State.readFails
  split <;> exact ⟨rfl, fun _ he => he⟩

theorem retried_attempts (s : State) (num n : Nat) : Retried s (s.attempts num n).2 := by
  induction n generalizing s with
  | zero => exact Retried.refl s
  | succ n ih =>
    change Retried s (if (s.readFails num).1 then (s.readFails num).2.attempts num n else (true, (s.readFails num).2)).2
    split
    · exact (retried_readFails s num).trans (ih _)
    · exact retried_readFails s num

theorem retried_dramRead (s : State) (a n : Nat) (view : List Seen) : Retried s (s.dramRead a n view).2 := by
  have hfold : ∀ {α : Type} (F : List Byte × State → α → List Byte × State) (l : List α) (x : List Byte × State),
      (∀ x p, Retried x.2 (F x p).2) → Retried x.2 (l.foldl F x).2 := fun F l => by
    induction l with
    | nil => exact fun x _ => Retried.refl x.2
    | cons p l ih => exact fun x hF => (hF x p).trans (ih _ hF)
  unfold State.dramRead
  split
  · exact hfold _ _ _ fun _ _ => ⟨rfl, fun _ he => he⟩
  · exact Retried.refl s

theorem retried_retryGranules (s : State) : Retried s s.retryGranules := by
  refine retried_foldl (fun t e => ?_) _ s
  dsimp only
  split
  · exact ((retried_attempts t _ _).trans (retried_dramRead _ _ _ _)).trans
      ((retried_modXfer _ _ _).trans (retried_later _ _ _ _))
  · exact (retried_attempts t _ _).trans ((retried_modXfer _ _ _).trans ((retried_modXfer _ _ _).trans (retried_later _ _ _ _)))

/-- Without a granule that failed twice there is nothing to read again. -/
theorem retryGranules_of_readable {s : State} (h : ∀ x ∈ s.xfers, ∀ g ∈ x.grans, g.fails < 2) : s.retryGranules = s := by
  have hnone : ∀ x ∈ s.xfers, ((x.grans.zip (List.range x.grans.length)).filter (fun g =>
      decide (2 ≤ g.1.fails) && decide (g.1.fails < 10) && !g.1.done && g.1.data == [])) = [] := fun x hx => by
    rw [List.filter_eq_nil_iff]
    intro g hg
    have hlt := h x hx g.1 (List.of_mem_zip hg).1
    simp [hlt]
  rw [State.retryGranules, List.flatMap_eq_nil_iff.2 fun x hx => by rw [hnone x hx]; rfl]
  rfl

/-! ### Accesses that complete while schedule tides stand still -/

theorem foldl_schedule (l : List Event) (s : State) : (l.foldl (fun (s : State) e => s.schedule s.time 0 e.task) s) =
    { s with agenda := (l.foldl (fun (s : State) e => s.schedule s.time 0 e.task) s).agenda } ∧
    (∀ e ∈ s.agenda, e ∈ (l.foldl (fun (s : State) e => s.schedule s.time 0 e.task) s).agenda) ∧
    ∀ e ∈ l, { tide := s.time, cls := 0, task := e.task } ∈ (l.foldl (fun (s : State) e => s.schedule s.time 0 e.task) s).agenda := by
  induction l generalizing s with
  | nil => exact ⟨rfl, fun _ he => he, fun _ he => nomatch he⟩
  | cons e l ih =>
    obtain ⟨hframe, hkeep, hall⟩ := ih (s.schedule s.time 0 e.task)
    refine ⟨hframe, fun x hx => hkeep x (mem_insertEvent.2 (.inr hx)), fun x hx => ?_⟩
    rcases List.mem_cons.1 hx with rfl | hx
    · exact hkeep _ (mem_insertEvent.2 (.inl rfl))
    · exact hall x hx

/-- The ends of accesses are due now; nothing else changes. -/
theorem completeFrozen_spec (s : State) : s.completeFrozen = { s with agenda := s.completeFrozen.agenda } ∧
    ∀ e ∈ s.agenda, (∃ n k, e.task = .op (.granuleLanding n k) ∨ e.task = .op (.dramWriteCommit n k) ∨ e.task = .op (.eccFailure n k)) →
      { tide := s.time, cls := 0, task := e.task } ∈ s.completeFrozen.agenda := by
  obtain ⟨hframe, -, hall⟩ := foldl_schedule (s.agenda.filter (fun e => e.task.endsAccess))
    { s with agenda := s.agenda.filter (fun e => !e.task.endsAccess) }
  refine ⟨hframe, fun e he hends => hall e (List.mem_filter.2 ⟨he, ?_⟩)⟩
  obtain ⟨n, k, h | h | h⟩ := hends <;> rw [h] <;> rfl

/-- The state after the steps of Table 10.10 up to the agreement on Δ. -/
def State.resynced (s : State) (f : Freeze) (d : Nat) : State :=
  { s with
    free := s.free + 1
    freeze := some { f with delta := d }
    regs := { s.regs with
      rsyncstat := setBits 0xFFFFFFFF00FFFFFF (BitVec.ofNat 64 (2 ^ 32 * ((s.regs.rsyncstat.extractLsb' 32 32).toNat + d) +
        65536 * (d % 256) + ((s.regs.rsyncstat.extractLsb' 0 16).toNat + 1) % 65536)) s.regs.rsyncstat
      cntwrap := if (s.regs.rsyncstat.extractLsb' 0 16).toNat + 1 = 65536 then s.regs.cntwrap ||| 0x100000000 else s.regs.cntwrap } }

/-- A resynchronisation (10 R306): Δ is agreed on and counted, the fault's accesses complete, and the resumption is due. -/
theorem resynchronisation_spec {s : State} {f : Freeze} (hf : s.freeze = some f) :
    let readable : Prop := ∀ x ∈ s.xfers, ∀ g ∈ x.grans, g.fails < 2
    let d := if s.part?.isSome then max 2 (Config.podDelta s.free) else 2
    let r := s.regs.rsyncstat.toNat
    ∃ t, exec .resynchronisation s = .next t ∧ SameMem s t ∧ t.freeze = some { f with delta := d } ∧
      t.regs = { s.regs with rsyncstat := t.regs.rsyncstat, cntwrap := t.regs.cntwrap } ∧
      t.regs.rsyncstat.toNat =
        (r / 0x100000000 + d) % 0x100000000 * 0x100000000 + r / 0x1000000 % 256 * 0x1000000 + d % 256 * 0x10000 + (r % 0x10000 + 1) % 0x10000 ∧
      (r % 0x10000 + 1 < 0x10000 → t.regs.cntwrap = s.regs.cntwrap) ∧ Due t s.time 1 .resyncResume ∧
      (∀ e ∈ s.agenda, (∃ n k, e.task = .op (.granuleLanding n k) ∨ e.task = .op (.dramWriteCommit n k) ∨ e.task = .op (.eccFailure n k)) →
        { tide := s.time, cls := 0, task := e.task } ∈ t.agenda) ∧
      (readable → t = { s with freeze := t.freeze, regs := t.regs, free := s.free + 1, agenda := t.agenda, bumped := t.bumped }) := by
  intro readable d r
  have hexec : exec .resynchronisation s = .next (((s.completeFrozen.retryGranules.resynced f d).noteInc 0 0x23).later
      (s.completeFrozen.retryGranules.resynced f d).time 1 .resyncResume) := by
    change execResynchronisation s = _
    rw [execResynchronisation, hf]
    rfl
  obtain ⟨hfrozen, hends⟩ := completeFrozen_spec s
  have hretry := retried_retryGranules s.completeFrozen
  have hreadable : readable → s.completeFrozen.retryGranules = s.completeFrozen := fun h =>
    retryGranules_of_readable (by rw [hfrozen]; exact h)
  generalize s.completeFrozen = u at hfrozen hends hretry hreadable hexec
  generalize u.retryGranules = v at hretry hreadable hexec
  obtain ⟨hv, hkeep⟩ := hretry
  have hframe : v = { s with xfers := v.xfers, phys := v.phys, free := v.free, agenda := v.agenda } :=
    hv.trans (congrArg (fun x : State => { x with xfers := v.xfers, phys := v.phys, free := v.free, agenda := v.agenda }) hfrozen :)
  have hregs : v.regs = s.regs := (congrArg (fun x : State => x.regs) hframe :)
  have htime : v.time = s.time := (congrArg (fun x : State => x.time) hframe :)
  have hnote := State.noteInc_eq (v.resynced f d) 0 0x23
  generalize (v.resynced f d).noteInc 0 0x23 = w at hnote hexec
  have hwregs : w.regs = (v.resynced f d).regs := (congrArg (fun x : State => x.regs) hnote :)
  have hstat : w.regs.rsyncstat.toNat = (r / 0x100000000 + d) % 0x100000000 * 0x100000000 + r / 0x1000000 % 256 * 0x1000000 +
      d % 256 * 0x10000 + (r % 0x10000 + 1) % 0x10000 := by
    rw [hwregs]
    exact (rsyncstat_resynced v.regs.rsyncstat d).trans (by rw [hregs])
  refine ⟨_, hexec, ⟨fun a => ?_, fun q a => ?_⟩, ?_, ?_, hstat, fun hwrap => ?_, ?_, fun e he ht => ?_, fun hread => ?_⟩
  · have hdram : w.dram = s.dram := (congrArg (fun x : State => x.dram) hnote :).trans (congrArg (fun x : State => x.dram) hframe :)
    exact (congrArg (rd · a) hdram :)
  · have hcores : w.cores = s.cores := (congrArg (fun x : State => x.cores) hnote :).trans (congrArg (fun x : State => x.cores) hframe :)
    exact (congrArg (fun c : List (Nat × Core) => rd ((look c q).getD Core.reset).scratch a) hcores :)
  · exact (congrArg (fun x : State => x.freeze) hnote :)
  · change w.regs = { s.regs with rsyncstat := w.regs.rsyncstat, cntwrap := w.regs.cntwrap }
    rw [← hregs, hwregs]
    rfl
  · change w.regs.cntwrap = _
    rw [hwregs]
    have hcount : (v.regs.rsyncstat.extractLsb' 0 16).toNat = r % 0x10000 := by
      rw [hregs, BitVec.extractLsb'_toNat]; rfl
    refine (if_neg ?_).trans (congrArg (fun x : Regs => x.cntwrap) hregs)
    rw [hcount]
    omega
  · have hwtime : w.time = v.time := (congrArg (fun x : State => x.time) hnote :)
    change Due (w.later v.time 1 .resyncResume) s.time 1 .resyncResume
    rw [← htime]
    exact State.due_later hwtime.le _ _
  · refine State.mem_agenda_later _ _ _ ?_
    rw [hnote]
    exact hkeep _ (hends e he ht)
  · have hvs : v = { s with agenda := v.agenda } := (hreadable hread).trans (hfrozen.trans (by rw [hreadable hread]))
    have hw : w = { s with freeze := w.freeze, regs := w.regs, free := s.free + 1, agenda := w.agenda, bumped := w.bumped } :=
      (congrArg (fun x : State => { x with freeze := w.freeze, regs := w.regs, agenda := w.agenda }) hnote :).trans
        (congrArg (fun x : State => { x with
          free := x.free + 1, freeze := w.freeze, regs := w.regs, agenda := w.agenda, bumped := w.bumped }) hvs :)
    exact (congrArg (fun x : State => { x with agenda := (w.later v.time 1 .resyncResume).agenda }) hw :)

/-! ### The resumption -/

theorem spanned_resynced (rg : RGroup) : ∀ w, rg.spanned.wait = some w → w.resynced = true := by
  intro w hw
  obtain ⟨v, -, rfl⟩ := Option.map_eq_some_iff.1 hw
  rfl

/-- Every group wait of a reach spans a resynchronisation. -/
def Reach.allResynced (r : Reach) : Prop := ∀ g ∈ r.rgs, ∀ w, g.wait = some w → w.resynced = true

/-- Switches are asked for again: no wait, memory or register has changed. -/
def AskedAgain (s t : State) : Prop :=
  t = { s with reaches := t.reaches, agenda := t.agenda } ∧ ((∀ r ∈ s.reaches, r.allResynced) → ∀ r ∈ t.reaches, r.allResynced)

theorem askedAgain_askAgain (s : State) : AskedAgain s s.askAgain := by
  have hfold : ∀ (l : List Reach) (t : State), AskedAgain t (l.foldl (fun (s : State) r =>
      (s.modReach r.row r.slot (fun r => { r with asked := s.time })).later s.time 1 (.ctbSave r.row r.slot)) t) := by
    intro l
    induction l with
    | nil => exact fun t => ⟨rfl, fun h => h⟩
    | cons r l ih =>
      intro t
      obtain ⟨hframe, hall⟩ := ih ((t.modReach r.row r.slot (fun r => { r with asked := t.time })).later t.time 1 (.ctbSave r.row r.slot))
      refine ⟨hframe, fun h => hall fun x hx => ?_⟩
      obtain ⟨y, hy, rfl⟩ := List.mem_map.1 hx
      have hy' := h y hy
      split <;> exact hy'
  exact hfold _ s

/-- A word below a place replaced. -/
theorem lowBits_replaced {w m x : Word} {k : Nat} (hk : k ≤ 32) (hm : ∀ i < 32, m.getLsbD i = decide (k ≤ i)) (hx : x.toNat < 2 ^ k) :
    ((w &&& m) ||| x).toNat = 2 ^ k * (w.toNat / 2 ^ k) + x.toNat := by
  refine Nat.eq_of_testBit_eq fun i => ?_
  rw [Nat.testBit_two_pow_mul_add _ hx, BitVec.testBit_toNat, BitVec.testBit_toNat, BitVec.getLsbD_or, BitVec.getLsbD_and,
    Nat.testBit_div_two_pow, BitVec.testBit_toNat]
  by_cases hlow : i < k
  · rw [if_pos hlow, hm i (by omega), decide_eq_false (by omega), Bool.and_false, Bool.false_or]
  · have hzero : x.getLsbD i = false := by
      rw [← BitVec.testBit_toNat]
      exact Nat.testBit_lt_two_pow (hx.trans_le (Nat.pow_le_pow_right (by omega) (by omega)))
    rw [if_neg hlow, hzero, Bool.or_false, Nat.sub_add_cancel (by omega)]
    by_cases hi : i < 32
    · rw [hm i hi, decide_eq_true (by omega), Bool.and_true]
    · rw [BitVec.getLsbD_of_ge w i (by omega), Bool.false_and]

theorem withDef_toNat (w : Word) (d : Nat) : (withDef w d).toNat = 65536 * (w.toNat / 65536) + min 65535 d := by
  have hd : (BitVec.ofNat 32 (min 0xFFFF d)).toNat = min 65535 d := Nat.mod_eq_of_lt (by omega)
  rw [withDef, lowBits_replaced (k := 16) (by omega) (by decide) (by rw [hd]; omega), hd]
  rfl

/-- A register whose DEF is replaced: the deficit, and the peak that stands. -/
theorem withDef_halves (w : Word) (d : Nat) : (withDef w d).toNat % 65536 = min 65535 d ∧ (withDef w d).toNat / 65536 = w.toNat / 65536 := by
  rw [withDef_toNat]
  omega

/-- Every deficit changed by one function that keeps 0. -/
theorem deficits_mapped {l : List Word} {f : Nat → Nat} (hf : f 0 = 0) (n : Nat) :
    ((l.map (fun w => withDef w (f (defOf w)))).getD n 0).toNat % 65536 = min 65535 (f ((l.getD n 0).toNat % 65536)) ∧
      ((l.map (fun w => withDef w (f (defOf w)))).getD n 0).toNat / 65536 = (l.getD n 0).toNat / 65536 := by
  have hzero : withDef 0 (f (defOf 0)) = 0 := by
    rw [show defOf 0 = 0 from rfl, hf]
    rfl
  have hget : (l.map (fun w => withDef w (f (defOf w)))).getD n 0 = withDef (l.getD n 0) (f (defOf (l.getD n 0))) := by
    rw [List.getD_eq_getElem?_getD, List.getD_eq_getElem?_getD, List.getElem?_map]
    cases l[n]? with
    | none => exact hzero.symm
    | some w => rfl
  rw [hget, ← defOf_eq (l.getD n 0)]
  exact withDef_halves _ _

/-- The state in which schedule tides go on. -/
def State.thawed (s : State) : State :=
  { s with
    freeze := none
    regs := { s.regs with defstat := s.regs.defstat.map (fun w => withDef w 0) }
    reaches := s.reaches.map (fun (r : Reach) =>
      { r with rgs := r.rgs.map RGroup.spanned, hold := r.hold.map (fun h => { h with rg := h.rg.spanned }) }) }

theorem thawed_resynced (s : State) : ∀ r ∈ s.thawed.reaches, r.allResynced := by
  intro r hr g hg
  obtain ⟨x, -, rfl⟩ := List.mem_map.1 hr
  obtain ⟨y, -, rfl⟩ := List.mem_map.1 hg
  exact spanned_resynced y

/-- Schedule tides go on with every deficit zero; waits have spanned the resynchronisation, and switches restart (10 R306). -/
theorem resyncResume_spec {s : State} (hf : s.freeze ≠ none) :
    let deficit (t : State) (n : Nat) : Nat := (t.regs.defstat.getD n 0).toNat % 65536
    let peak (t : State) (n : Nat) : Nat := (t.regs.defstat.getD n 0).toNat / 65536
    let resynced (r : Reach) : Prop := ∀ g ∈ r.rgs, ∀ w, g.wait = some w → w.resynced = true
    let readable : Prop := ∀ x ∈ s.xfers, ∀ g ∈ x.grans, g.fails < 2
    let leaves (r : Reach) : Prop := r ∈ s.reaches ∧ r.resident = true ∧ r.leaving = true
    ∃ t, exec .resyncResume s = .next t ∧ SameMem s t ∧ t.freeze = none ∧
      t.regs = { s.regs with defstat := t.regs.defstat } ∧ (∀ n, deficit t n = 0 ∧ peak t n = peak s n) ∧
      (∀ r ∈ t.reaches, resynced r) ∧
      (readable → (∀ r, ¬ leaves r) → t = { s with freeze := none, regs := t.regs, reaches := t.reaches }) := by
  intro deficit peak resynced readable leaves
  have hexec : exec .resyncResume s = .next s.thawed.retryGranules.askAgain :=
    if_neg (by rw [Option.isNone_iff_eq_none]; exact hf)
  have hretry := retried_retryGranules s.thawed
  have hreadable : readable → s.thawed.retryGranules = s.thawed := fun h => retryGranules_of_readable h
  generalize s.thawed.retryGranules = u at hexec hretry hreadable
  obtain ⟨hask, hall⟩ := askedAgain_askAgain u
  have hnone : readable → (∀ r, ¬ leaves r) → u.askAgain = u := fun hread hno => by
    rw [hreadable hread, State.askAgain, List.filter_eq_nil_iff.2 fun r hr hl => ?_]
    · rfl
    · obtain ⟨x, hx, rfl⟩ := List.mem_map.1 hr
      exact hno x ⟨hx, by simpa using hl⟩
  generalize u.askAgain = t at hexec hask hall hnone
  obtain ⟨hu, -⟩ := hretry
  have hframe : t = { s.thawed with xfers := t.xfers, phys := t.phys, free := t.free, agenda := t.agenda, reaches := t.reaches } :=
    (congrArg (fun x : State => { x with xfers := t.xfers, phys := t.phys, free := t.free }) hask :).trans
      (congrArg (fun x : State => { x with xfers := t.xfers, phys := t.phys, free := t.free, agenda := t.agenda, reaches := t.reaches }) hu :)
  have hureaches : u.reaches = s.thawed.reaches := (congrArg (fun x : State => x.reaches) hu :)
  have hregs : t.regs = s.thawed.regs := (congrArg (fun x : State => x.regs) hframe :)
  have hdram : t.dram = s.dram := (congrArg (fun x : State => x.dram) hframe :)
  have hcores : t.cores = s.cores := (congrArg (fun x : State => x.cores) hframe :)
  refine ⟨t, hexec, ⟨fun a => by rw [hdram], fun q a => ?_⟩, (congrArg (fun x : State => x.freeze) hframe :), ?_, fun n => ?_,
    hall (by rw [hureaches]; exact thawed_resynced s), fun hread hno => ?_⟩
  · exact (congrArg (fun c : List (Nat × Core) => rd ((look c q).getD Core.reset).scratch a) hcores :)
  · rw [hregs]
    rfl
  · obtain ⟨hdef, hpeak⟩ := deficits_mapped (l := s.regs.defstat) (f := fun _ => 0) rfl n
    unfold deficit peak
    rw [hregs]
    exact ⟨hdef, hpeak⟩
  · have hthawed : t = s.thawed := (hnone hread hno).trans (hreadable hread)
    rw [hthawed]
    rfl

end Sys2Proof.Machine

/-! O52, fourth part: the adoption of a table (10 R292), and the time discipline (18 R452, 13 R376). -/
namespace Sys2Proof.Machine

/-! ### Adoption -/

theorem tideTableAdopt_idle {s : State} (h : ∀ w, s.ttNext ≠ some (s.time, w)) : exec .tideTableAdopt s = .next s := by
  change execTideTableAdopt s = _
  rw [execTideTableAdopt]
  cases hn : s.ttNext with
  | none => rfl
  | some p =>
    obtain ⟨e, w⟩ := p
    exact if_pos fun (he : e = s.time) => h w (by rw [hn, he])

/-- The table that the image holds, from an epoch on. -/
def State.tableFrom (s : State) (e : Nat) : TideTable :=
  { epoch := e / 8192, ntmpl := rdVal s.imageOf 0 8, tmpl := rdVal s.imageOf 8 8, link := rdVal s.imageOf 16 8, image := s.imageOf }

theorem tableFrom_fields (s : State) (e : Nat) : (s.tableFrom e).epoch = e / 8192 ∧ (s.tableFrom e).image = s.imageOf ∧
    (s.tableFrom e).ntmpl = rdVal s.imageOf 0 8 ∧ (s.tableFrom e).tmpl = rdVal s.imageOf 8 8 ∧
    (s.tableFrom e).link = rdVal s.imageOf 16 8 := by
  simp only [State.tableFrom, and_self]

/-- The state in which a table has been adopted. -/
def State.adopted (s : State) (e : Nat) : State :=
  { s with
    phys := { s.phys with
      retired := s.phys.retired.filter (fun n => !s.phys.retiring.contains n) ++ s.phys.retiring
      retiring := [] }
    ttNext := none
    tt := some (s.tableFrom e)
    regs := { s.regs with ttstat := 2 } }

/-- The state in which an armed table has been refused with a code. -/
def State.tableRefused (s : State) (k : Nat) : State := { s with ttNext := none, regs := { s.regs with ttstat := BitVec.ofNat 32 (4 * k) } }

theorem exec_tideTableAdopt {s : State} {e w : Nat} (hn : s.ttNext = some (e, w)) (he : e = s.time) :
    exec .tideTableAdopt s = .next (if s.ttErr e w = 0 then s.adopted e else s.tableRefused (s.ttErr e w)) := by
  change execTideTableAdopt s = _
  rw [execTideTableAdopt, hn]
  dsimp only
  rw [if_neg (not_not.2 he)]
  cases s.ttErr e w <;> rfl

theorem mem_retired_adopted (s : State) (e n : Nat) : n ∈ (s.adopted e).phys.retired ↔ n ∈ s.phys.retired ∨ n ∈ s.phys.retiring := by
  simp only [State.adopted, List.mem_append, List.mem_filter, Bool.not_eq_true', List.contains_iff_mem, ← Bool.not_eq_true]
  tauto

/-- A valid table is adopted at its epoch, with the channels that retire; an invalid one is refused (10 R292). -/
theorem tideTableAdopt_spec {s : State} {e w : Nat} (hn : s.ttNext = some (e, w)) (he : e = s.time) :
    ∃ t, exec .tideTableAdopt s = .next t ∧ t = { s with ttNext := none, tt := t.tt, regs := t.regs, phys := t.phys } ∧
      t.regs = { s.regs with ttstat := t.regs.ttstat } ∧
      (s.ttErr e w = 0 → t.regs.ttstat = 2 ∧ t.phys = { s.phys with retired := t.phys.retired, retiring := [] } ∧
        (∀ n, n ∈ t.phys.retired ↔ n ∈ s.phys.retired ∨ n ∈ s.phys.retiring) ∧ ∃ T, t.tt = some T ∧ T.epoch = e / 8192 ∧
        T.image = s.imageOf ∧ T.ntmpl = rdVal s.imageOf 0 8 ∧ T.tmpl = rdVal s.imageOf 8 8 ∧ T.link = rdVal s.imageOf 16 8) ∧
      (s.ttErr e w ≠ 0 → t.tt = s.tt ∧ t.phys = s.phys ∧ t.regs.ttstat = BitVec.ofNat 32 (4 * s.ttErr e w)) := by
  have hexec := exec_tideTableAdopt hn he
  by_cases herr : s.ttErr e w = 0
  · rw [if_pos herr] at hexec
    exact ⟨s.adopted e, hexec, rfl, rfl, fun _ => ⟨rfl, rfl, mem_retired_adopted s e, s.tableFrom e, rfl, tableFrom_fields s e⟩,
      fun h => absurd herr h⟩
  · rw [if_neg herr] at hexec
    exact ⟨s.tableRefused (s.ttErr e w), hexec, rfl, rfl, fun h => absurd h herr, fun _ => ⟨rfl, rfl, rfl⟩⟩

/-! ### One change of each of some registers -/

/-- Changes of distinct places of a list. -/
theorem foldl_modify_getElem? {α : Type} (f : α → α) (l : List Nat) (hl : l.Nodup) (d : List α) (m : Nat) :
    (l.foldl (fun d n => d.modify n f) d)[m]? = if m ∈ l then d[m]?.map f else d[m]? := by
  induction l generalizing d with
  | nil => rfl
  | cons a l ih =>
    obtain ⟨ha, hl⟩ := List.nodup_cons.1 hl
    rw [List.foldl_cons, ih hl, List.getElem?_modify]
    by_cases hm : m = a
    · subst hm
      simp [ha]
    · have hne : ¬ a = m := fun he => hm he.symm
      simp [hm, hne]

theorem foldl_modDef (f : Word → Word) (l : List Nat) (s : State) : l.foldl (fun (s : State) n => s.modDef n f) s =
    { s with regs := { s.regs with defstat := l.foldl (fun d n => d.modify n f) s.regs.defstat } } := by
  induction l generalizing s with
  | nil => rfl
  | cons a l ih => exact ih _

/-- The registers of distinct regions, changed alike. -/
theorem foldl_modify_getD {f : Word → Word} {l : List Nat} (hl : l.Nodup) {d : List Word} {m : Nat} (hm : m < d.length) :
    (l.foldl (fun d n => d.modify n f) d).getD m 0 = if m ∈ l then f (d.getD m 0) else d.getD m 0 := by
  rw [List.getD_eq_getElem?_getD, foldl_modify_getElem? f l hl, List.getD_eq_getElem?_getD, List.getElem?_eq_getElem hm]
  split <;> rfl

theorem rowRegions_nodup : rowRegions.Nodup := by decide

theorem rowRegions_lt : ∀ m ∈ rowRegions, m < 22 := by decide

/-- A register outside the rows' regions is as before, whether it is there or not. -/
theorem foldl_modify_getD_other {f : Word → Word} {d : List Word} {m : Nat} (hm : m ∉ rowRegions) :
    (rowRegions.foldl (fun d n => d.modify n f) d).getD m 0 = d.getD m 0 := by
  rw [List.getD_eq_getElem?_getD, foldl_modify_getElem? f rowRegions rowRegions_nodup, if_neg hm, List.getD_eq_getElem?_getD]

/-! ### The correction of the tide counter -/

/-- A DEFSTAT raised by beats, `gone` into slack water. -/
theorem raiseDef_halves (w : Word) (beats gone : Nat) :
    (raiseDef w beats gone).toNat % 65536 = min 65535 (max gone (w.toNat % 65536) + beats) ∧
      (raiseDef w beats gone).toNat / 65536 = max (w.toNat / 65536) (min 65535 (max gone (w.toNat % 65536) + beats) - gone) := by
  have hw := w.isLt
  have hdef : (w.extractLsb' 0 16).toNat = w.toNat % 65536 := defOf_eq w
  rw [raiseDef, hdef, peakOf_eq, max_comm (w.toNat / 65536)]
  exact defstat_halves (by omega) (by omega)

/-- TIDESYNC as a measurement leaves it: disciplined, the offset, and the count of corrections. -/
theorem tidesync_measured (w : Word) (o : Int) : (0x80000000 ||| BitVec.ofNat 32 (256 * offset16 o) ||| (w &&& 0xFF)).toNat =
    0x80000000 + 256 * (max (-32767) (min 32767 o) % 65536).toNat + w.toNat % 256 := by
  have ho : offset16 o = (max (-32767) (min 32767 o) % 65536).toNat := rfl
  have hlt : offset16 o < 65536 := by omega
  have hlow : (w &&& 0xFF).toNat = w.toNat % 2 ^ 8 := by
    rw [BitVec.toNat_and]
    exact Nat.and_two_pow_sub_one_eq_mod _ 8
  have hoff : (BitVec.ofNat 32 (256 * offset16 o)).toNat = 256 * offset16 o := Nat.mod_eq_of_lt (by omega)
  have htop : (0x80000000 : Word).toNat ||| 256 * offset16 o = 2 ^ 31 * 1 + 256 * offset16 o :=
    (Nat.two_pow_add_eq_or_of_lt (show 256 * offset16 o < 2 ^ 31 by omega) 1).symm
  have hall : 2 ^ 8 * (2 ^ 23 + offset16 o) ||| w.toNat % 2 ^ 8 = 2 ^ 8 * (2 ^ 23 + offset16 o) + w.toNat % 2 ^ 8 :=
    (Nat.two_pow_add_eq_or_of_lt (Nat.mod_lt _ (by omega)) _).symm
  rw [BitVec.toNat_or, BitVec.toNat_or, hlow, hoff, htop, show 2 ^ 31 * 1 + 256 * offset16 o = 2 ^ 8 * (2 ^ 23 + offset16 o) by omega, hall,
    ← ho]
  omega

/-- The count of corrections replaced. -/
theorem tidesync_counted (w : Word) {n : Nat} (hn : n < 256) : ((w &&& 0xFFFFFF00) ||| BitVec.ofNat 32 n).toNat = 256 * (w.toNat / 256) + n := by
  have hlow : (BitVec.ofNat 32 n).toNat = n := Nat.mod_eq_of_lt (by omega)
  rw [lowBits_replaced (k := 8) (by omega) (by decide) (by rw [hlow]; omega), hlow]
  rfl

theorem foldl_delay (n : Nat) (l : List Nat) (s : State) : l.foldl (fun (s : State) r => s.delay r n) s =
    { s with regs := { s.regs with defstat := l.foldl (fun d r => d.modify r (fun w => raiseDef w n (slackGone s.time))) s.regs.defstat } } := by
  induction l generalizing s with
  | nil => rfl
  | cons a l ih => exact ih _

/-- The registers of the rows' regions after a correction by `n` tides. -/
def State.correctedDefs (s : State) (o : Int) (n : Nat) : List Word :=
  if o < 0 then rowRegions.foldl (fun d r => d.modify r (fun w => raiseDef w n (slackGone s.time))) s.regs.defstat
  else rowRegions.foldl (fun d r => d.modify r (fun w => withDef w (defOf w - n))) s.regs.defstat

/-- The tides that have been corrected in this frame. -/
def State.usedTides (s : State) : Nat := if s.phys.adjusted.1 = s.time / 8192 then s.phys.adjusted.2 else 0

/-- A correction, in one update. -/
theorem correct_eq (s : State) (o : Int) : s.correct o = { s with
    regs := { s.regs with
      tidesync := (s.regs.tidesync &&& 0xFFFFFF00) ||| BitVec.ofNat 32 (((s.regs.tidesync.extractLsb' 0 8).toNat + s.correction o) % 256)
      defstat := s.correctedDefs o (s.correction o) }
    phys := { s.phys with adjusted := (s.time / 8192, s.usedTides + s.correction o) }
    time := if o < 0 then s.time + s.correction o else s.time } := by
  unfold State.correct State.correctedDefs
  dsimp only
  by_cases h : o < 0
  · rw [if_pos h, if_pos h, if_pos h, foldl_delay]
    rfl
  · rw [if_neg h, if_neg h, if_neg h, foldl_modDef]
    rfl

/-- The registers of a row's region that falls behind, or catches up; every other is as before. -/
theorem correctedDefs_halves {s : State} {o : Int} (n : Nat) (hlen : s.regs.defstat.length = 22) :
    (∀ m ∈ rowRegions, o < 0 → ((s.correctedDefs o n).getD m 0).toNat % 65536 =
        min 65535 (max (s.time % 8192 - 7936) ((s.regs.defstat.getD m 0).toNat % 65536) + n) ∧
      ((s.correctedDefs o n).getD m 0).toNat / 65536 = max ((s.regs.defstat.getD m 0).toNat / 65536)
        (min 65535 (max (s.time % 8192 - 7936) ((s.regs.defstat.getD m 0).toNat % 65536) + n) - (s.time % 8192 - 7936))) ∧
    (∀ m ∈ rowRegions, 0 ≤ o → ((s.correctedDefs o n).getD m 0).toNat % 65536 = (s.regs.defstat.getD m 0).toNat % 65536 - n ∧
      ((s.correctedDefs o n).getD m 0).toNat / 65536 = (s.regs.defstat.getD m 0).toNat / 65536) ∧
    ∀ m, m ∉ rowRegions → (s.correctedDefs o n).getD m 0 = s.regs.defstat.getD m 0 := by
  refine ⟨fun m hm ho => ?_, fun m hm ho => ?_, fun m hm => ?_⟩
  · rw [State.correctedDefs, if_pos ho, foldl_modify_getD rowRegions_nodup (hlen ▸ rowRegions_lt m hm), if_pos hm]
    exact raiseDef_halves _ _ _
  · rw [State.correctedDefs, if_neg (not_lt.2 ho), foldl_modify_getD rowRegions_nodup (hlen ▸ rowRegions_lt m hm), if_pos hm, defOf_eq]
    obtain ⟨hdef, hpeak⟩ := withDef_halves (s.regs.defstat.getD m 0) ((s.regs.defstat.getD m 0).toNat % 65536 - n)
    exact ⟨hdef.trans (by omega), hpeak⟩
  · unfold State.correctedDefs
    split <;> exact foldl_modify_getD_other hm

/-- The tides that a correction takes (18 R452). -/
theorem correction_eq (s : State) (o : Int) : s.correction o =
    if o < 0 then min (min o.natAbs (8 - s.usedTides)) (8000 - s.time % 8192) else min o.natAbs (8 - s.usedTides) := by
  change min (min o.natAbs (8 - s.usedTides)) (if o < 0 then 8000 - s.time % 8192 else 8) = _
  split
  · rfl
  · omega

/-- TIDESYNC after a measurement, and after a correction by `n` tides. -/
theorem tidesync_corrected (w : Word) (o : Int) (n : Nat) :
    let m := 0x80000000 ||| BitVec.ofNat 32 (256 * offset16 o) ||| (w &&& 0xFF)
    ((m &&& 0xFFFFFF00) ||| BitVec.ofNat 32 (((m.extractLsb' 0 8).toNat + n) % 256)).toNat =
      0x80000000 + 256 * (max (-32767) (min 32767 o) % 65536).toNat + (w.toNat % 256 + n) % 256 := by
  intro m
  have hm := tidesync_measured w o
  rw [tidesync_counted m (Nat.mod_lt _ (by omega)), BitVec.extractLsb'_toNat, Nat.shiftRight_zero, show m.toNat = _ from hm]
  generalize (max (-32767) (min 32767 o) % 65536).toNat = x
  omega

/-- The offset is recorded; one outside the guard is announced, and one inside is corrected in the frame's window (18 R452). -/
theorem tideCorrection_spec {s : State} (hlen : s.regs.defstat.length = 22) (o : Int) :
    let rows : List Nat := List.range 9 ++ (List.range 9).map (· + 11)
    let deficit (t : State) (n : Nat) : Nat := (t.regs.defstat.getD n 0).toNat % 65536
    let peak (t : State) (n : Nat) : Nat := (t.regs.defstat.getD n 0).toNat / 65536
    let gone := s.time % 8192 - 7936
    let raised (t : State) (n d : Nat) : Prop := deficit t n = min 65535 d ∧ peak t n = max (peak s n) (min 65535 d - gone)
    ∃ t, exec (.tideCorrection o) s = .next t ∧
      let off := s.time % 8192
      let old := s.regs.tidesync.toNat % 256
      let stat (corr : Nat) : Prop := t.regs.tidesync.toNat = 0x80000000 + 256 * (max (-32767) (min 32767 o) % 65536).toNat + corr % 256
      (64 < o.natAbs → t = { s with regs := { s.regs with tidesync := t.regs.tidesync }, agenda := t.agenda } ∧ stat old ∧ Due t s.time 0 (.skewGuard none)) ∧
      (o.natAbs ≤ 64 → ¬ (7936 ≤ off ∧ off < 8000) → t = { s with regs := { s.regs with tidesync := t.regs.tidesync }, agenda := t.agenda } ∧ stat old ∧
        Due t ((if off < 7936 then 8192 * (s.time / 8192) else 8192 * (s.time / 8192) + 8192) + 7936) 0 (.tideCorrection o)) ∧
      (o.natAbs ≤ 64 → 7936 ≤ off → off < 8000 →
        let used := if s.phys.adjusted.1 = s.time / 8192 then s.phys.adjusted.2 else 0
        let n := if o < 0 then min (min o.natAbs (8 - used)) (8000 - off) else min o.natAbs (8 - used)
        t = { s with regs := t.regs, phys := { s.phys with adjusted := (s.time / 8192, used + n) }, time := t.time } ∧ stat (old + n) ∧
        t.regs = { s.regs with tidesync := t.regs.tidesync, defstat := t.regs.defstat } ∧
        t.time = (if o < 0 then s.time + n else s.time) ∧
        (∀ m ∈ rows, o < 0 → raised t m (max gone (deficit s m) + n)) ∧
        (∀ m ∈ rows, 0 ≤ o → deficit t m = deficit s m - n ∧ peak t m = peak s m) ∧
        (∀ m, m ∉ rows → t.regs.defstat.getD m 0 = s.regs.defstat.getD m 0)) := by
  intro rows deficit peak gone raised
  have hexec : exec (.tideCorrection o) s = .next (if 64 < o.natAbs then (s.measureOffset o).later s.time 0 (.skewGuard none)
      else if 7936 ≤ s.time % 8192 ∧ s.time % 8192 < 8000 then (s.measureOffset o).correct o
      else (s.measureOffset o).later (8192 * ((s.time + 192) / 8192) + 7936) 0 (.tideCorrection o)) := rfl
  have hstat : (s.measureOffset o).regs.tidesync.toNat = 0x80000000 + 256 * (max (-32767) (min 32767 o) % 65536).toNat +
      s.regs.tidesync.toNat % 256 % 256 := by
    rw [Nat.mod_mod]
    exact tidesync_measured s.regs.tidesync o
  by_cases hguard : 64 < o.natAbs
  · rw [if_pos hguard] at hexec
    exact ⟨_, hexec, fun _ => ⟨rfl, hstat, State.due_later (le_refl s.time) _ _⟩, fun h => absurd h hguard.not_ge,
      fun h => absurd h hguard.not_ge⟩
  rw [if_neg hguard] at hexec
  by_cases hwindow : 7936 ≤ s.time % 8192 ∧ s.time % 8192 < 8000
  · rw [if_pos hwindow, correct_eq] at hexec
    obtain ⟨hlate, hearly, hother⟩ := correctedDefs_halves (s := s) (o := o) (s.correction o) hlen
    refine ⟨_, hexec, fun h => absurd h hguard, fun _ h => absurd hwindow h, fun _ _ _ => ?_⟩
    intro used n
    have hn : s.correction o = n := correction_eq s o
    rw [← hn]
    exact ⟨rfl, tidesync_corrected _ _ _, rfl, rfl, hlate, hearly, hother⟩
  · rw [if_neg hwindow] at hexec
    refine ⟨_, hexec, fun h => absurd h hguard, fun _ _ => ⟨rfl, hstat, ?_⟩, fun _ h1 h2 => absurd ⟨h1, h2⟩ hwindow⟩
    have htide : 8192 * ((s.time + 192) / 8192) + 7936 =
        (if s.time % 8192 < 7936 then 8192 * (s.time / 8192) else 8192 * (s.time / 8192) + 8192) + 7936 := by
      split <;> omega
    rw [← htide]
    exact State.due_later (show s.time ≤ 8192 * ((s.time + 192) / 8192) + 7936 by omega) _ _

end Sys2Proof.Machine

/-! O52, fifth part: a device or a link outside the guard (13 R376), and the frame's slack water (10 R283, R285). -/
namespace Sys2Proof.Machine

/-! ### Values that are sent again -/

/-- The links `b` are the links `a`, but that values with `P` count as not sent. -/
def Unsent (a b : List Link) (P : Nat → Sent → Prop) : Prop :=
  b.length = a.length ∧ ∀ l k, a[l]? = some k → ∃ k', b[l]? = some k' ∧ { k' with sent := [] } = { k with sent := [] } ∧
    ∀ v, v ∈ k'.sent ↔ v ∈ k.sent ∧ ¬ P l v

theorem Unsent.refl {P : Nat → Sent → Prop} (hP : ∀ l v, ¬ P l v) (a : List Link) : Unsent a a P :=
  ⟨rfl, fun l k hk => ⟨k, hk, rfl, fun v => by simp [hP l v]⟩⟩

theorem Unsent.trans {a b c : List Link} {P Q R : Nat → Sent → Prop} (h1 : Unsent a b P) (h2 : Unsent b c Q)
    (hR : ∀ l v, R l v ↔ P l v ∨ Q l v) : Unsent a c R := by
  refine ⟨h2.1.trans h1.1, fun l k hk => ?_⟩
  obtain ⟨k1, hk1, e1, hs1⟩ := h1.2 l k hk
  obtain ⟨k2, hk2, e2, hs2⟩ := h2.2 l k1 hk1
  refine ⟨k2, hk2, e2.trans e1, fun v => ?_⟩
  rw [hs2, hs1, hR, not_or, and_assoc]

theorem unsent_modify (a : List Link) (o : Nat) (x : Sent) :
    Unsent a (a.modify o (fun (k : Link) => { k with sent := k.sent.filter (fun y => y != x) })) (fun l v => o = l ∧ x = v) := by
  refine ⟨List.length_modify _ _ _, fun l k hk => ?_⟩
  rw [List.getElem?_modify, hk]
  by_cases ho : o = l
  · refine ⟨_, congrArg some (if_pos ho), rfl, fun v => ?_⟩
    simp only [List.mem_filter, bne_iff_ne, ne_eq, ho, true_and, eq_comm (a := v)]
  · exact ⟨k, congrArg some (if_neg ho), rfl, fun v => by simp [ho]⟩

/-- `unsend` changes what the links have sent and nothing else. -/
theorem unsend_spec (fs : List OutFlit) (s : State) : s.unsend fs = { s with links := (s.unsend fs).links } ∧
    Unsent s.links (s.unsend fs).links (fun l v => ∃ f ∈ fs, f.origin = l ∧ f.what = some v) := by
  induction fs generalizing s with
  | nil => exact ⟨rfl, Unsent.refl (by simp) _⟩
  | cons f fs ih =>
    have hstep : s.unsend (f :: fs) = (s.unsend [f]).unsend fs := List.foldl_cons ..
    rw [hstep]
    cases hw : f.what with
    | none =>
      have hone : s.unsend [f] = s := by simp [State.unsend, hw]
      rw [hone]
      exact ⟨(ih s).1, (Unsent.refl (P := fun _ _ => False) (by simp) s.links).trans (ih s).2 (by simp [hw])⟩
    | some x =>
      have hone : s.unsend [f] = { s with links := s.links.modify f.origin (fun (k : Link) =>
          { k with sent := k.sent.filter (fun y => y != x) }) } := by simp [State.unsend, hw]
      rw [hone]
      exact ⟨(ih _).1, (unsent_modify s.links f.origin x).trans (ih _).2 (by simp [hw])⟩

theorem mem_flitsNow {s : State} {l : Nat} {f : OutFlit} :
    f ∈ s.flitsNow l ↔ ∃ j, s.links[l]? = some j ∧ f ∈ j.lastOut ∧ f.frame = s.time / 8192 := by
  unfold State.flitsNow
  cases hl : s.links[l]? with
  | none => simp
  | some j => simp

theorem Unsent.flitsNow {s t : State} {P : Nat → Sent → Prop} (hu : Unsent s.links t.links P) (ht : t.time = s.time) (l : Nat) (f : OutFlit) :
    f ∈ t.flitsNow l ↔ f ∈ s.flitsNow l := by
  rw [mem_flitsNow, mem_flitsNow, ht]
  cases hl : s.links[l]? with
  | none =>
    have hnone : t.links[l]? = none := by
      rw [List.getElem?_eq_none_iff, hu.1]
      exact List.getElem?_eq_none_iff.1 hl
    simp [hnone]
  | some k =>
    obtain ⟨k', hk', he, -⟩ := hu.2 l k hl
    have hout : k'.lastOut = k.lastOut := (congrArg (fun x : Link => x.lastOut) he :)
    simp [hk', hout]

/-- The device announces on a link that it is outside the guard. -/
def State.announceSkew (bs : List Byte) (s : State) (l : Nat) : State :=
  ((s.modLnk l (fun w => w ||| 0x80)).report (.flit l 0 bs 0x60)).unsend (s.flitsNow l)

/-- The announcement on several links. -/
theorem foldl_announceSkew (bs : List Byte) (ms : List Nat) (s : State) : ms.foldl (State.announceSkew bs) s = { s with
      regs := { s.regs with lnkstat := ms.foldl (fun d n => d.modify n (fun w => w ||| 0x80)) s.regs.lnkstat }
      out := s.out ++ ms.map (fun l => .flit l 0 bs 0x60)
      links := (ms.foldl (State.announceSkew bs) s).links } ∧
    Unsent s.links (ms.foldl (State.announceSkew bs) s).links (fun l v => ∃ m ∈ ms, ∃ f ∈ s.flitsNow m, f.origin = l ∧ f.what = some v) := by
  induction ms generalizing s with
  | nil => exact ⟨by simp, Unsent.refl (by simp) _⟩
  | cons m ms ih =>
    obtain ⟨hframe, hunsent⟩ := ih (s.announceSkew bs m)
    obtain ⟨hone, hsent⟩ := unsend_spec (s.flitsNow m) ((s.modLnk m (fun w => w ||| 0x80)).report (.flit m 0 bs 0x60))
    change s.announceSkew bs m = _ at hone
    rw [List.foldl_cons]
    constructor
    · refine hframe.trans ?_
      generalize (ms.foldl (State.announceSkew bs) (s.announceSkew bs m)).links = ks
      rw [hone]
      simp only [State.report, State.modLnk, List.foldl_cons, List.map_cons, List.append_assoc, List.singleton_append]
    · have htime : (s.announceSkew bs m).time = s.time := (congrArg (fun x : State => x.time) hone :)
      have hmine : Unsent s.links (s.announceSkew bs m).links (fun l v => ∃ f ∈ s.flitsNow m, f.origin = l ∧ f.what = some v) := hsent
      refine hmine.trans hunsent fun l v => ?_
      simp only [hmine.flitsNow htime, List.mem_cons, exists_eq_or_imp]

theorem map_of_foldl_modify {α : Type} (f : α → α) {l : List α} {n : Nat} (hl : l.length = n) :
    (List.range n).foldl (fun d m => d.modify m f) l = l.map f := by
  refine List.ext_getElem? fun m => ?_
  rw [foldl_modify_getElem? f _ List.nodup_range, List.getElem?_map]
  split
  · rfl
  · next hm =>
    rw [List.getElem?_eq_none (by rw [hl]; simpa using hm)]
    rfl

/-- A device outside the guard marks every link, announces it, and sends the values of the frame again (13 R376). -/
theorem skewGuard_device {s : State} (hlen : s.regs.lnkstat.length = 16) :
    let zeros : List Byte := List.replicate 256 0
    ∃ t, exec (.skewGuard none) s = .next t ∧
      t = { s with regs := { s.regs with lnkstat := s.regs.lnkstat.map (fun w => w ||| 0x80) }
                   out := s.out ++ (List.range 16).map (fun l => .flit l 0 zeros 0x60), links := t.links, agenda := t.agenda } ∧
      (∀ l k, s.links[l]? = some k → ∃ k', t.links[l]? = some k' ∧ { k' with sent := [] } = { k with sent := [] } ∧
        ∀ v, v ∈ k'.sent ↔ v ∈ k.sent ∧
          ∀ m, m < 16 → ∀ j, s.links[m]? = some j → ∀ f ∈ j.lastOut, f.frame = s.time / 8192 → f.origin = l → f.what ≠ some v) ∧
      Due t s.time 0 (.scheduleFault 4) := by
  intro zeros
  have hexec : exec (.skewGuard none) s = .next (((List.range 16).foldl (State.announceSkew zeros) s).later
      ((List.range 16).foldl (State.announceSkew zeros) s).time 0 (.scheduleFault 4)) := rfl
  obtain ⟨hframe, -, hsent⟩ := foldl_announceSkew zeros (List.range 16) s
  rw [map_of_foldl_modify _ hlen] at hframe
  generalize (List.range 16).foldl (State.announceSkew zeros) s = u at hexec hframe hsent
  have htime : u.time = s.time := (congrArg (fun x : State => x.time) hframe :)
  refine ⟨_, hexec, ?_, fun l k hk => ?_, htime ▸ State.due_later (le_refl u.time) _ _⟩
  · exact (congrArg (fun x : State => { x with agenda := (u.later u.time 0 (.scheduleFault 4)).agenda }) hframe :)
  · obtain ⟨k', hk', he, hs⟩ := hsent l k hk
    refine ⟨k', hk', he, fun v => (hs v).trans (and_congr_right fun _ => ?_)⟩
    constructor
    · exact fun h m hm j hj f hf hfr ho hw => h ⟨m, List.mem_range.2 hm, f, mem_flitsNow.2 ⟨j, hj, hf, hfr⟩, ho, hw⟩
    · rintro h ⟨m, hm, f, hf, ho, hw⟩
      obtain ⟨j, hj, hfj, hfr⟩ := mem_flitsNow.1 hf
      exact h m (List.mem_range.1 hm) j hj f hfj hfr ho hw

/-! ### The first tide of a frame -/

/-- The links and the rounds of collectives were looked through: nothing else changes, and no event is lost. -/
def Linked (s t : State) : Prop :=
  t = { s with links := t.links, colls := t.colls, agenda := t.agenda } ∧ (∀ e ∈ s.agenda, e ∈ t.agenda) ∧
    t.colls.map (fun c => { c with rounds := [] }) = s.colls.map (fun c => { c with rounds := [] })

theorem Linked.refl (s : State) : Linked s s := ⟨rfl, fun _ he => he, rfl⟩

theorem Linked.trans {s t u : State} (h1 : Linked s t) (h2 : Linked t u) : Linked s u := by
  obtain ⟨e1, a1, c1⟩ := h1
  obtain ⟨e2, a2, c2⟩ := h2
  refine ⟨e2.trans ?_, fun e he => a2 e (a1 e he), c2.trans c1⟩
  exact (congrArg (fun v : State => { v with links := u.links, colls := u.colls, agenda := u.agenda }) e1 :)

theorem linked_foldl {α : Type} {F : State → α → State} (hF : ∀ s x, Linked s (F s x)) (l : List α) (s : State) :
    Linked s (l.foldl F s) :=
  foldl_rel Linked.refl Linked.trans hF l s

theorem linked_later (s : State) (tide cls : Nat) (i : Instr) : Linked s (s.later tide cls i) :=
  ⟨rfl, fun _ he => State.mem_agenda_later _ _ _ he, rfl⟩

theorem linked_ite {c : Prop} [Decidable c] {s t u : State} (ht : Linked s t) (hu : Linked s u) : Linked s (if c then t else u) := by
  split
  · exact ht
  · exact hu

theorem linked_checkMarkers (s : State) : Linked s s.checkMarkers := by
  refine linked_foldl (fun t l => ?_) _ s
  split
  · exact Linked.refl t
  · refine linked_ite ?_ ⟨rfl, fun _ he => he, rfl⟩
    exact Linked.trans (t := { t with links := _ }) ⟨rfl, fun _ he => he, rfl⟩ (linked_later _ _ _ _)

theorem linked_dropRounds (s : State) : Linked s s.dropRounds := by
  refine ⟨rfl, fun _ he => he, ?_⟩
  rw [State.dropRounds, List.map_map]
  rfl

theorem linked_planFlits (s : State) : Linked s s.planFlits := by
  unfold State.planFlits
  split
  · exact Linked.refl s
  · refine linked_foldl (fun t l => ?_) _ s
    split
    · exact Linked.refl t
    · exact linked_foldl (fun u k => linked_later u _ _ _) _ t

theorem exec_slackWater (s : State) : exec .slackWater s = .next (if frameOff s.time = 0 then s.slackEnd
    else if 8180 ≤ frameOff s.time then s.guardTides else s.slackStart) := by
  change execSlackWater s = _
  rw [execSlackWater]

/-- 256 beats of catch-up are spent. -/
def State.caughtUp (s : State) : State := { s with regs := { s.regs with defstat := s.regs.defstat.map (fun w => withDef w (defOf w - 256)) } }

/-- A deficit that stays is a fault (10 R288). -/
def State.catchUp (s : State) : State :=
  if s.caughtUp.regs.defstat.any (fun w => defOf w != 0) then s.caughtUp.later s.time 0 (.scheduleFault 2) else s.caughtUp

theorem slackEnd_eq (s : State) : s.slackEnd = s.catchUp.checkMarkers.dropRounds.planFlits.later (s.time + 7936) 0 .slackWater := by
  unfold State.slackEnd State.catchUp State.caughtUp
  rfl

theorem linked_slackEnd (s : State) : Linked s.catchUp s.catchUp.checkMarkers.dropRounds.planFlits :=
  (linked_checkMarkers _).trans ((linked_dropRounds _).trans (linked_planFlits _))

theorem linked_catchUp (s : State) : Linked s.caughtUp s.catchUp := linked_ite (linked_later _ _ _ _) (Linked.refl _)

theorem due_catchUp {s : State} (h : s.caughtUp.regs.defstat.any (fun w => defOf w != 0) = true) : Due s.catchUp s.time 0 (.scheduleFault 2) := by
  rw [State.catchUp, if_pos h]
  exact State.due_later (le_refl s.time) _ _

/-- The first tide of a frame (10 R283, R288): every deficit is less by what slack water spends, and one that stays is a fault. -/
theorem slackWater_first {s : State} (hoff : s.time % 8192 = 0) :
    let deficit (t : State) (n : Nat) : Nat := (t.regs.defstat.getD n 0).toNat % 65536
    let peak (t : State) (n : Nat) : Nat := (t.regs.defstat.getD n 0).toNat / 65536
    ∃ t, exec .slackWater s = .next t ∧
      t = { s with regs := { s.regs with defstat := t.regs.defstat }, links := t.links, colls := t.colls, agenda := t.agenda } ∧
      (∀ n, deficit t n = deficit s n - 256 ∧ peak t n = peak s n) ∧ Due t (s.time + 7936) 0 .slackWater ∧
      ((∃ n, 256 < deficit s n) → Due t s.time 0 (.scheduleFault 2)) ∧
      t.colls.map (fun c => { c with rounds := [] }) = s.colls.map (fun c => { c with rounds := [] }) := by
  intro deficit peak
  have hu := slackEnd_eq s
  have hlinked := (linked_catchUp s).trans (linked_slackEnd s)
  have hfault : s.caughtUp.regs.defstat.any (fun w => defOf w != 0) = true →
      Due s.catchUp.checkMarkers.dropRounds.planFlits s.time 0 (.scheduleFault 2) := fun h => (linked_slackEnd s).2.1 _ (due_catchUp h)
  generalize s.catchUp.checkMarkers.dropRounds.planFlits = u at hu hlinked hfault
  have hexec := exec_slackWater s
  rw [if_pos (show frameOff s.time = 0 from hoff), hu] at hexec
  obtain ⟨hframe, -, hcolls⟩ := hlinked
  have hregs : u.regs = s.caughtUp.regs := (congrArg (fun x : State => x.regs) hframe :)
  have htime : u.time = s.time := (congrArg (fun x : State => x.time) hframe :)
  have hdeficits : ∀ n, deficit s.caughtUp n = deficit s n - 256 ∧ peak s.caughtUp n = peak s n := fun n => by
    obtain ⟨hdef, hpeak⟩ := deficits_mapped (l := s.regs.defstat) (f := (· - 256)) rfl n
    have hcapped : min 65535 (deficit s n - 256) = deficit s n - 256 := by unfold deficit; omega
    exact ⟨(show deficit s.caughtUp n = min 65535 (deficit s n - 256) from hdef).trans hcapped, hpeak⟩
  have hdue : Due (u.later (s.time + 7936) 0 .slackWater) (s.time + 7936) 0 .slackWater := State.due_later (by omega) _ _
  refine ⟨u.later (s.time + 7936) 0 .slackWater, hexec, ?_, fun n => ?_, hdue, fun ⟨n, hn⟩ => ?_, hcolls⟩
  · refine (congrArg (fun x : State => { x with agenda := (u.later (s.time + 7936) 0 .slackWater).agenda }) hframe :).trans ?_
    change _ = { s with regs := { s.regs with defstat := u.regs.defstat }, links := u.links, colls := u.colls, agenda := _ }
    rw [hregs]
    rfl
  · have := hdeficits n
    unfold deficit peak at this ⊢
    rw [show (u.later (s.time + 7936) 0 .slackWater).regs = s.caughtUp.regs from hregs]
    exact this
  · refine State.due_later_of_due (hfault (List.any_eq_true.2 ⟨s.caughtUp.regs.defstat.getD n 0, ?_, ?_⟩)) _ _ _
    · have hlt : n < s.caughtUp.regs.defstat.length := by
        by_contra hge
        have hzero : s.caughtUp.regs.defstat.getD n 0 = 0 := List.getD_eq_default _ _ (not_lt.1 hge)
        have hone := (hdeficits n).1
        unfold deficit at hone hn
        rw [hzero, show (0 : Word).toNat = 0 from rfl] at hone
        omega
      rw [List.getD_eq_getElem _ _ hlt]
      exact List.getElem_mem hlt
    · have hone := (hdeficits n).1
      unfold deficit at hone hn
      rw [bne_iff_ne, defOf_eq, hone]
      omega

end Sys2Proof.Machine

/-! O52, last part: slack water and the guard tides (10 R285, R286, 07 R220, 15 R415), and the statement. -/
namespace Sys2Proof.Machine

/-! ### Slack water -/

/-- Cores were scrubbed and surveyed: no event is lost, and only they, what corrections count and the reports have changed. -/
def Scrubbed (s t : State) : Prop :=
  t = { s with cores := t.cores, agenda := t.agenda, bumped := t.bumped, out := t.out } ∧ ∀ e ∈ s.agenda, e ∈ t.agenda

theorem Scrubbed.refl (s : State) : Scrubbed s s := ⟨rfl, fun _ he => he⟩

theorem Scrubbed.trans {s t u : State} (h1 : Scrubbed s t) (h2 : Scrubbed t u) : Scrubbed s u := by
  obtain ⟨e1, a1⟩ := h1
  obtain ⟨e2, a2⟩ := h2
  refine ⟨e2.trans ?_, fun e he => a2 e (a1 e he)⟩
  exact (congrArg (fun v : State => { v with cores := u.cores, agenda := u.agenda, bumped := u.bumped, out := u.out }) e1 :)

theorem scrubbed_foldl {α : Type} {F : State → α → State} (hF : ∀ s x, Scrubbed s (F s x)) (l : List α) (s : State) :
    Scrubbed s (l.foldl F s) :=
  foldl_rel Scrubbed.refl Scrubbed.trans hF l s

theorem scrubbed_ite {c : Prop} [Decidable c] {s t u : State} (ht : Scrubbed s t) (hu : Scrubbed s u) :
    Scrubbed s (if c then t else u) := by
  split
  · exact ht
  · exact hu

theorem scrubbed_later (s : State) (tide cls : Nat) (i : Instr) : Scrubbed s (s.later tide cls i) :=
  ⟨rfl, fun _ he => State.mem_agenda_later _ _ _ he⟩

theorem scrubbed_modCore (s : State) (q : Nat) (f : Core → Core) : Scrubbed s (s.modCore q f) := ⟨rfl, fun _ he => he⟩

theorem scrubbed_noteInc (s : State) (q n : Nat) : Scrubbed s (s.noteInc q n) :=
  scrubbed_ite (Scrubbed.refl s) ⟨rfl, fun _ he => he⟩

theorem scrubbed_countCorr (s : State) (q : Nat) (cs : List (Nat × Nat)) : Scrubbed s (s.countCorr q cs) := by
  refine scrubbed_foldl (fun t c => ?_) cs s
  have hone : Scrubbed t ((t.setCore q { t.core q with
      scrcnt := bump31 (t.core q).scrcnt
      corr := bindAt (t.core q).corr (10 * c.1 + c.2) ((look (t.core q).corr (10 * c.1 + c.2)).getD 0 + 1) }).noteInc q 0x54) :=
    Scrubbed.trans ⟨rfl, fun _ he => he⟩ (scrubbed_noteInc _ _ _)
  exact scrubbed_ite (hone.trans (scrubbed_later _ _ _ _)) hone

theorem scrubbed_bankLoss (s : State) (q a n : Nat) : Scrubbed s (s.bankLoss q a n) := by
  refine scrubbed_ite (Scrubbed.refl s) (scrubbed_foldl (fun t g => ?_) _ s)
  exact scrubbed_ite (Scrubbed.refl t) ⟨rfl, fun _ he => he⟩

theorem scrubbed_scrubCore (s : State) (q : Nat) : Scrubbed s (s.scrubCore q) := by
  unfold State.scrubCore
  refine Scrubbed.trans (scrubbed_foldl (fun t e => ?_) _ s) (scrubbed_modCore _ _ _)
  exact ((scrubbed_countCorr t _ _).trans (scrubbed_bankLoss _ _ _ _)).trans (scrubbed_modCore _ _ _)

/-- The idle slots of a core's frame are counted while its survey counts. -/
def State.idleDue (s : State) (c : Nat × Core) : State :=
  if (s.core c.1).survey.ctl.getLsbD 6 then
    s.later s.time 0 (.idleIssueSlot c.1 ((s.core c.1).issueSlots s.time - (s.core c.1).survey.busy)) else s

/-- The slack water of one core: its survey, what its engines had taken, and the patrol scrub. -/
def State.slackCore (s : State) (c : Nat × Core) : State :=
  let s3 := (s.idleDue c).modCore c.1 (fun k => { k.surveyed s.time with
    takenAt := k.takenAt.filter (fun e => decide (s.time ≤ e.2))
    gtaken := k.gtaken.filter (fun e => decide (s.time ≤ e.2)) })
  if s.regs.slackcfg.getLsbD 17 then s3.scrubCore c.1 else s3

theorem scrubbed_idleDue (s : State) (c : Nat × Core) : Scrubbed s (s.idleDue c) :=
  scrubbed_ite (scrubbed_later _ _ _ _) (Scrubbed.refl s)

theorem scrubbed_slackCore_idleDue (s : State) (c : Nat × Core) : Scrubbed (s.idleDue c) (s.slackCore c) :=
  scrubbed_ite ((scrubbed_modCore _ _ _).trans (scrubbed_scrubCore _ _)) (scrubbed_modCore _ _ _)

/-- The device at the start of slack water, after its cores: without refresh it keeps no DRAM contents (10 R286). -/
def State.slackDevice (s : State) (refresh : Bool) (now : Nat) : State :=
  let s2 := { s with
    phys := { s.phys with retried := s.phys.retried.filter (fun e => decide (now / 8192 ≤ e.2)) }
    devTaken := s.devTaken.filter (fun e => decide (now ≤ e.2.2)) }
  if refresh then s2
  else { s2 with dram := [], scrambled := [(0, dramSize)], host := { s2.host with epoch := s2.host.epoch + 1 } }

theorem slackStart_eq (s : State) : s.slackStart =
    ((s.cores.foldl State.slackCore s).slackDevice (s.regs.slackcfg.getLsbD 16) s.time).later (8192 * (s.time / 8192) + 8180) 0 .slackWater := by
  unfold State.slackStart
  rfl

theorem slackDevice_leaves (s : State) (refresh : Bool) (now : Nat) :
    (s.slackDevice refresh now).regs = s.regs ∧ (s.slackDevice refresh now).reaches = s.reaches ∧
    (s.slackDevice refresh now).time = s.time ∧ (s.slackDevice refresh now).agenda = s.agenda ∧
    (refresh = true → (s.slackDevice refresh now).dram = s.dram ∧ (s.slackDevice refresh now).scrambled = s.scrambled ∧
      (s.slackDevice refresh now).host = s.host) ∧
    (refresh = false → (s.slackDevice refresh now).dram = [] ∧ (s.slackDevice refresh now).scrambled = [(0, dramSize)]) := by
  cases refresh
  · exact ⟨rfl, rfl, rfl, rfl, fun h => Bool.noConfusion h, fun _ => ⟨rfl, rfl⟩⟩
  · exact ⟨rfl, rfl, rfl, rfl, fun _ => ⟨rfl, rfl, rfl⟩, fun h => Bool.noConfusion h⟩

/-- Slack water (10 R285): registers and reaches stand, and the idle slots of a core that is surveyed are due. -/
theorem slackWater_inside {s : State} (h0 : 0 < s.time % 8192) (h1 : s.time % 8192 < 8180) :
    ∃ t, exec .slackWater s = .next t ∧ t.regs = s.regs ∧ t.reaches = s.reaches ∧
      Due t (s.time / 8192 * 8192 + 8180) 0 .slackWater ∧
      (s.regs.slackcfg.getLsbD 16 = true → t.dram = s.dram ∧ t.scrambled = s.scrambled ∧ t.host = s.host) ∧
      (s.regs.slackcfg.getLsbD 16 = false → t.dram = [] ∧ t.scrambled = [(0, dramSize)]) ∧
      ∀ q c, s.cores = [(q, c)] → c.survey.ctl.getLsbD 6 = true →
        Due t s.time 0 (.idleIssueSlot q (32 * (workBeats s.time - workBeats c.survey.since) - c.survey.busy)) := by
  have hexec := exec_slackWater s
  rw [if_neg (show ¬ frameOff s.time = 0 from h0.ne'), if_neg (show ¬ 8180 ≤ frameOff s.time from h1.not_ge)] at hexec
  have hcores : Scrubbed s (s.cores.foldl State.slackCore s) :=
    scrubbed_foldl (fun t c => (scrubbed_idleDue t c).trans (scrubbed_slackCore_idleDue t c)) _ s
  have hidle : ∀ q c, s.cores = [(q, c)] → c.survey.ctl.getLsbD 6 = true → Due (s.cores.foldl State.slackCore s) s.time 0
      (.idleIssueSlot q (32 * (workBeats s.time - workBeats c.survey.since) - c.survey.busy)) := fun q c hone hctl => by
    have hcore : s.core q = c := by simp [State.core, hone, look]
    rw [hone]
    refine (scrubbed_slackCore_idleDue s (q, c)).2 _ ?_
    rw [State.idleDue, hcore, if_pos hctl]
    exact State.due_later (le_refl s.time) _ _
  have hstart := slackStart_eq s
  generalize s.cores.foldl State.slackCore s = u at hcores hidle hstart
  rw [hstart] at hexec
  obtain ⟨hframe, -⟩ := hcores
  obtain ⟨hregs, hreaches, htime, hagenda, hkept, hgone⟩ := slackDevice_leaves u (s.regs.slackcfg.getLsbD 16) s.time
  generalize u.slackDevice (s.regs.slackcfg.getLsbD 16) s.time = v at hexec hregs hreaches htime hagenda hkept hgone
  have huregs : u.regs = s.regs := (congrArg (fun x : State => x.regs) hframe :)
  have hutime : u.time = s.time := (congrArg (fun x : State => x.time) hframe :)
  refine ⟨v.later (8192 * (s.time / 8192) + 8180) 0 .slackWater, hexec, hregs.trans huregs,
    hreaches.trans (congrArg (fun x : State => x.reaches) hframe :), ?_, fun h => ?_, hgone, fun q c hone hctl => ?_⟩
  · rw [Nat.mul_comm]
    exact State.due_later (by omega) _ _
  · obtain ⟨hdram, hscrambled, hhost⟩ := hkept h
    exact ⟨hdram.trans (congrArg (fun x : State => x.dram) hframe :), hscrambled.trans (congrArg (fun x : State => x.scrambled) hframe :),
      hhost.trans (congrArg (fun x : State => x.host) hframe :)⟩
  · refine State.mem_agenda_later _ _ _ ?_
    rw [hagenda]
    exact hidle q c hone hctl

/-! ### The guard tides -/

/-- An armed table that validates is to be adopted at its epoch (10 R292). -/
theorem guardTable_valid {s : State} {e w : Nat} (hn : s.ttNext = some (e, w)) (herr : s.ttErr e w = 0) :
    s.guardTable = { s with agenda := s.guardTable.agenda } ∧ ∃ v ∈ s.guardTable.agenda, v.task = .op .tideTableAdopt ∧ e ≤ v.tide := by
  have hguard : s.guardTable = if s.agenda.any (fun v => v.task == .op .tideTableAdopt && v.tide == e) then s
      else s.later e 0 .tideTableAdopt := by
    rw [State.guardTable, hn]
    dsimp only
    rw [herr]
  rw [hguard]
  by_cases hany : s.agenda.any (fun v => v.task == .op .tideTableAdopt && v.tide == e) = true
  · rw [if_pos hany]
    obtain ⟨v, hv, hboth⟩ := List.any_eq_true.1 hany
    rw [Bool.and_eq_true, beq_iff_eq, beq_iff_eq] at hboth
    exact ⟨rfl, v, hv, hboth.1, hboth.2.ge⟩
  · rw [if_neg hany]
    exact ⟨rfl, _, mem_insertEvent.2 (.inl rfl), rfl, le_max_left _ _⟩

theorem guardTable_invalid {s : State} {e w : Nat} (hn : s.ttNext = some (e, w)) (herr : s.ttErr e w ≠ 0) :
    s.guardTable = s.tableRefused (s.ttErr e w) := by
  rw [State.guardTable, hn]
  dsimp only
  cases hk : s.ttErr e w with
  | zero => exact absurd hk herr
  | succ k => rfl

theorem guardTable_idle {s : State} (hn : s.ttNext = none) : s.guardTable = s := by
  rw [State.guardTable, hn]

/-- The guard tides (10 Table 10.2): an armed table is validated. -/
theorem slackWater_guard {s : State} (hoff : 8180 ≤ s.time % 8192) :
    ∃ t, exec .slackWater s = .next t ∧ Due t (s.time / 8192 * 8192 + 8192) 0 .slackWater ∧
      t = { s with ttNext := t.ttNext, regs := t.regs, agenda := t.agenda } ∧
      (s.ttNext = none → t = { s with agenda := t.agenda }) ∧
      ∀ e w, s.ttNext = some (e, w) →
        (s.ttErr e w = 0 → t = { s with agenda := t.agenda } ∧ ∃ v ∈ t.agenda, v.task = .op .tideTableAdopt ∧ e ≤ v.tide) ∧
        (s.ttErr e w ≠ 0 → t.ttNext = none ∧ t.regs = { s.regs with ttstat := BitVec.ofNat 32 (4 * s.ttErr e w) }) := by
  have hexec := exec_slackWater s
  rw [if_neg (show ¬ frameOff s.time = 0 from fun h => absurd (show s.time % 8192 = 0 from h) (by omega)),
    if_pos (show 8180 ≤ frameOff s.time from hoff)] at hexec
  have hvalid : ∀ e w, s.ttNext = some (e, w) → s.ttErr e w = 0 → s.guardTable = { s with agenda := s.guardTable.agenda } ∧
    ∃ v ∈ s.guardTable.agenda, v.task = .op .tideTableAdopt ∧ e ≤ v.tide := fun _ _ => guardTable_valid
  have hinvalid : ∀ e w, s.ttNext = some (e, w) → s.ttErr e w ≠ 0 → s.guardTable = s.tableRefused (s.ttErr e w) :=
    fun _ _ => guardTable_invalid
  have hidle : s.ttNext = none → s.guardTable = s := guardTable_idle
  have hguard : s.guardTides = s.guardTable.later (8192 * (s.time / 8192) + 8192) 0 .slackWater := rfl
  rw [hguard] at hexec
  generalize s.guardTable = u at hexec hvalid hinvalid hidle
  have hframe : u = { s with ttNext := u.ttNext, regs := u.regs, agenda := u.agenda } := by
    cases hn : s.ttNext with
    | none => rw [hidle hn]
    | some p =>
      by_cases herr : s.ttErr p.1 p.2 = 0
      · exact (congrArg (fun x : State => { x with ttNext := u.ttNext, regs := u.regs }) (hvalid p.1 p.2 hn herr).1 :)
      · rw [hinvalid p.1 p.2 hn herr]
        rfl
  have htime : u.time = s.time := (congrArg (fun x : State => x.time) hframe :)
  have honly : u = { s with agenda := u.agenda } → u.later (8192 * (s.time / 8192) + 8192) 0 .slackWater =
      { s with agenda := (u.later (8192 * (s.time / 8192) + 8192) 0 .slackWater).agenda } := fun h =>
    (congrArg (fun x : State => { x with agenda := (u.later (8192 * (s.time / 8192) + 8192) 0 .slackWater).agenda }) h :)
  refine ⟨u.later (8192 * (s.time / 8192) + 8192) 0 .slackWater, hexec, ?_, ?_, fun hn => honly ?_,
    fun e w hn => ⟨fun herr => ?_, fun herr => ?_⟩⟩
  · rw [Nat.mul_comm (s.time / 8192)]
    exact State.due_later (by omega) _ _
  · exact (congrArg (fun x : State => { x with agenda := (u.later (8192 * (s.time / 8192) + 8192) 0 .slackWater).agenda }) hframe :)
  · rw [hidle hn]
  · obtain ⟨hu, v, hv, hadopt, htide⟩ := hvalid e w hn herr
    exact ⟨honly hu, v, State.mem_agenda_later _ _ _ hv, hadopt, htide⟩
  · rw [hinvalid e w hn herr]
    exact ⟨rfl, rfl⟩

/-- A link outside the guard is marked, and its flits are dropped (13 R376). -/
theorem skewGuard_link (s : State) (l : Nat) : ∃ t, exec (.skewGuard (some l)) s = .next t ∧
    t = { s with regs := { s.regs with lnkstat := s.regs.lnkstat.modify l (fun w => w ||| 0x100) }
                 links := s.links.modify l (fun k => { k with drop := true }), agenda := t.agenda } ∧
    Due t s.time 0 (.scheduleFault 4) :=
  ⟨_, rfl, rfl, State.due_later (le_refl s.time) _ _⟩

theorem resync_idle {s : State} (hf : s.freeze = none) : exec .resynchronisation s = .next s ∧ exec .resyncResume s = .next s := by
  constructor
  · change execResynchronisation s = _
    rw [execResynchronisation, hf]
  · exact if_pos (Option.isNone_iff_eq_none.2 hf)

end Sys2Proof.Machine

section
open Sys2Proof Sys2Proof.Machine

/-- Settles O52: one lemma for each step. -/
theorem slackSteps : Obligations.SlackSteps := by
  unfold Obligations.SlackSteps
  intro s rows deficit peak gone raised resynced readable leaves zeros
  refine ⟨fun q g b _ hb => bankMarkFailed_spec s hb, idleIssueSlot_spec s, fun n b hn => droopSuppress_other b hn,
    fun n b hn hlen => droopSuppress_spec b hn hlen, fun c hc => scheduleFault_spec s hc, fun hf => resync_idle hf,
    fun f hf => resynchronisation_spec hf, fun hf => resyncResume_spec hf, fun h => tideTableAdopt_idle h,
    fun e w hn he => tideTableAdopt_spec hn he, fun o hlen => tideCorrection_spec hlen o, fun hlen => skewGuard_device hlen,
    fun l => skewGuard_link s l, fun hoff => slackWater_first hoff, fun h0 h1 => slackWater_inside h0 h1,
    fun hoff => slackWater_guard hoff⟩

end
